-- ==== Sys2Proof/Word.lean ====
section
/-!
DEFINITION. The word types of the FNX-824 and the small operand records that commands carry from
outside: an SPI word with its CRC byte, the conditions at the bank when an access reaches it, the
shape of a capture edge, and the like. Nothing here acts on the state.
-/

namespace Sys2Proof

/-- One byte. -/
abbrev Byte := BitVec 8

/-- One 32-bit register or SPI word (R52). -/
abbrev Word := BitVec 32

/-- A word the host sends on MGT_MOSI with the CRC byte that follows it when CRC framing is on
(R59, R61). With MGT_CTRL.CRC_EN clear no CRC byte is sent and `crc` is not looked at. -/
structure SpiWord where
  val : Word
  crc : Byte
  deriving DecidableEq, Repr

/-- What SECDED ECC finds when an 8-byte word is read (R755, R756). The fault process is physical:
it enters with the command that reads. -/
inductive Ecc where
  | ok
  | corrected
  | uncorrectable
  deriving DecidableEq, Repr

/-- Circumstances of one port-B access to the shared region: whether it reaches the bank in the same
core cycle as the port-A access recorded last (R746, R751, R753, R967), and what ECC finds. -/
structure BankEnv where
  sameCycle : Bool
  ecc : Ecc
  deriving DecidableEq, Repr

/-- A place in the buffer SRAM: bank, row and 8-byte word of the row (R727). -/
structure BankPlace where
  bank : Nat
  row : Nat
  word : Nat
  deriving DecidableEq, Repr

/-- An uncorrectable or corrected ECC finding with its place, for reads of frame memory or of the
descriptor store (Table 13-5). -/
structure EccAt where
  place : BankPlace
  what : Ecc
  deriving DecidableEq, Repr

/-- Outcome of the four steps of an OTP burn as the analogue cells decide it: the step at which the
readback of step 2 fails, or success (Table 15-3, R852). -/
inductive BurnOutcome where
  | good
  | mismatch
  deriving DecidableEq, Repr

/-- The MODE straps as they stand at the balls at a sampling edge (R910). -/
structure Straps where
  mode0 : Bool
  mode1 : Bool
  mode2 : Bool
  deriving DecidableEq, Repr

/-- What stands at the analogue inputs and the GPIO balls when a comparator fires: the ideal codes of
CNV0 to CNV7 at the target instant, not yet saturated (R437), and the level present at each GPIO ball
8 ns before the fire cycle (R603). -/
structure CmpEnv where
  adc : List Int
  gpio : BitVec 16
  deriving DecidableEq, Repr

/-- What a link turned out to be when PCS synchronisation and autonegotiation completed (R293 to
R295, R298): the speed, and what the partner advertises. -/
structure LinkInfo where
  speed100 : Bool
  anDone : Bool
  remoteFault : Bool
  farEnd : Bool
  unsupported : Bool
  deriving DecidableEq, Repr

/-- What arrives on an Ethernet receive lane (R304): the bytes from the destination address through the
FCS, whether a symbol error fell in the frame, and the egress ports on which cut-through of it has
begun before its end (R25, R47). `verifyPkt` and `respondPkt` mark IEEE 802.3br mPackets. -/
structure RxFrame where
  bytes : List Byte
  symErr : Bool
  fragment : Bool
  verifyPkt : Bool
  respondPkt : Bool
  started : List Nat
  deriving DecidableEq, Repr

/-- A character as it stands on a serial receive line after the glitch filter: the age in ns of the
falling edge of the start bit, and the line's later transitions in ns after that edge, alternating
high, low, high and so on (R377). -/
structure LineChar where
  age : Nat
  edges : List Nat
  deriving DecidableEq, Repr

/-- Findings of one sweeper visit (R759 to R768): what ECC finds in each of the eight words that SAVE
reads, whether TEST finds a failing bit, whether it finds two in one word, and whether the sweeper waited
1024 cycles for the bank (R734). -/
structure SweepFinding where
  errs : List Ecc
  testFails : Bool
  multi : Bool
  starved : Bool
  deriving DecidableEq, Repr

end Sys2Proof
end

