-- ==== Sys2Proof/Syntax.lean ====
section
/-!
DEFINITION. The commands of the FNX-824: one constructor per row of spec/opcode_table.json, in the
order of the table. An operand is what the command brings from outside the state: transaction words,
frames, line signals, sensor readings, an index of the unit concerned.
-/

namespace Sys2Proof

/-- The commands. `frame` tells that a register command comes from an access frame and not from SPI. A management
transaction brings the words the host sent in full (`ws`) or the number of words it clocked in full (`words`,
`olds`); `hang` tells that MGT_CS_N stays low with MGT_SCLK at rest after its last edge. -/
inductive Instr where
  /- Management port (spec/02) -/
  | write (addr : BitVec 24) (ws : List SpiWord) (envs : List BankEnv) (hang : Bool)
  | read (addr : BitVec 24) (words : Nat) (envs : List BankEnv) (hang : Bool)
  | status (hang : Bool)
  | readPickup (addr : BitVec 24) (words : Nat) (hang : Bool)
  | posStream (addr : BitVec 24) (ws : List SpiWord) (hang : Bool)
  | atomic (addr : BitVec 24) (ws : List SpiWord) (olds : Nat) (env : BankEnv) (hang : Bool)
  | softReset (ws : List SpiWord) (hang : Bool)
  | wake (hang : Bool)
  | enterState (ws : List SpiWord) (hang : Bool)
  | unknownOpcode (opcode : Byte) (hang : Bool)
  | mgtWatchdogExpiry
  | stalemateExpiry (slot : Nat)
  | registerWrite (addr : BitVec 24) (val : Word) (frame : Bool)
  | rcCounterRead (addr : BitVec 24)
  /- Positions (spec/03) -/
  | verifyComplete (ue : Bool)
  | abort
  | commitFull
  | commitHitless
  | restartActive
  | close
  | openingComplete
  | prepareComplete
  | autoRestartActive
  /- Time base (spec/04) -/
  | snapshot
  | set
  | step
  | slew
  | slewAbort
  | rate
  | setSecAtPps
  | slewEnd
  | ownerWrite (owner : BitVec 2)
  | cmpArm (n : Fin 16) (ctrl : Word) (env : CmpEnv)
  | cmpDisarm (n : Fin 16) (ctrl : Word) (env : CmpEnv)
  | cmpFire (env : CmpEnv)
  | ppsoPulseEnd (m : Fin 4)
  | captureEdge (n : Fin 8) (rising : Bool) (ageNs : Nat)
  | ppsHoldover
  | capFifoRead (n : Fin 8)
  | capPeekRead (n : Fin 8)
  /- Timekeeper (spec/05) -/
  | pdelayReqTx (port : Fin 8)
  | ptpSyncTx (port : Fin 8) (dom1 : Bool)
  | pdelayTimeout (port : Fin 8) (dom1 : Bool)
  | masterLost (dom1 : Bool)
  | ptpHoldoverEntry
  | holdoverGraceExpiry
  | castle
  | decideSlew
  | decideStep
  | decideStay
  | clearTimeSet
  | txtsFifoRead (port : Fin 8)
  | txtsPeekRead (port : Fin 8)
  /- Ethernet ports (spec/06) -/
  | ethFrameRx (port : Fin 9) (frame : RxFrame)
  | accessFrameExecute (envs : List BankEnv)
  | accessResponseTx
  | egressSelect (egress : Nat) (ecc : EccAt)
  | txComplete (egress : Fin 9)
  | promotion (egress : Nat) (cls : Fin 6)
  | kingHeldExpiry (port : Fin 9)
  | linkUp (port : Fin 9) (info : LinkInfo)
  | signalLoss (port : Fin 9)
  | linkDown (port : Fin 9)
  | resign (port : Fin 8)
  | reinstate (port : Fin 8)
  | retryVerify (port : Fin 8)
  | linkRestart (port : Fin 8)
  | linkRestartIdleEnd (port : Fin 8)
  | verifyTimerExpiry (port : Fin 8)
  | resignWindowEnd (port : Fin 8)
  | cleanIntervalEnd (port : Fin 8)
  | dupEntryExpiry (pair : Fin 4)
  | supervisionTx (pair : Fin 4)
  /- Serial channels (spec/07) -/
  | serCharRx (ch : Fin 24) (line : LineChar)
  | serLineIdle (ch : Fin 24)
  | abrIdleExpiry (ch : Fin 24)
  | serBlindEnter (ch : Fin 24)
  | serBlindExit (ch : Fin 24)
  | seHandover
  | serTxSelect (ch : Fin 24) (ecc : EccAt)
  | serTxComplete (ch : Fin 24)
  | serDeRelease (ch : Fin 24)
  | serCollision (ch : Fin 24)
  | serBackoffEnd (ch : Fin 24)
  | serSlotBoundary (ch : Fin 24)
  | abrRestart (ch : Fin 24)
  | rxRestart (ch : Fin 24)
  /- Measurement and alignment (spec/08) -/
  | sampleAvailable (groupB : Bool)
  | muFrameHandover (stream1 : Bool)
  | mailboxRead (groupB : Bool) (words : Nat)
  | cnvRefFault
  | refFaultClear
  | alnWindowEnd (sub : Fin 16)
  | alnRowDue
  /- Routing table (spec/09) -/
  | rteEditWord0 (idx : Nat) (val : Word) (frame : Bool)
  | rteEditWordMid (idx : Nat) (k : Fin 4) (val : Word) (frame : Bool)
  | rteEditWord5 (idx : Nat) (val : Word) (frame : Bool)
  /- Arbiter (spec/11) -/
  | arbApply
  | gooseRetransmit (block : Fin 32)
  | gooseTalExpiry (block : Fin 128)
  | arbOutCmd (val : Word) (frame : Bool)
  | arbVarWrite (v : Fin 2048) (val : Word) (frame : Bool)
  /- Expansion bridge (spec/12) -/
  | xbTransactionStart
  | xbTransactionEnd (data : List Byte)
  | xbCardErr (beats : Nat)
  | xbBeatTimeout (beats : Nat)
  | xbCardRemoved (beats : Nat)
  | xbScanComplete
  | xbIntAssert (slot : Fin 8) (ageNs : Nat)
  | xbPoll (slot : Fin 8)
  | xbPresenceDebounced (slot : Fin 8) (low : Bool)
  | xbEnumerateStart
  | enumerate (slot : Fin 8)
  | invalidatePrefetch
  | xbWerrFifoRead
  | xbWerrPeekRead
  /- Buffer memory (spec/13) -/
  | sweeperVisit (found : SweepFinding)
  /- Power, reset and the ladder (spec/14) -/
  | mainPowerGood
  | porRelease (straps : Straps)
  | pllLock
  | ready (ue : Bool)
  | mainPowerLoss
  | resetN
  | pllLoss
  | pwrEnter (val : Word)
  | holdReached
  | adjournReached
  | sealReached
  | wakeNAssert
  | exitComplete (xbInt : BitVec 8)
  | pwrFail
  | endgameComplete
  | restExit
  | thermalSample (tj : BitVec 16)
  | thermalRelease
  /- Security (spec/15) -/
  | program
  | lock
  | revoke (slot1 : Bool)
  | rollbackAdvance
  | enforce
  | testDisable
  | testUnlock
  | secCommandComplete (out : BurnOutcome)
  | otpScarBurn
  /- Boundary scan (spec/15, spec/17) -/
  | extest (pins : List Bool) (shift : List Bool)
  | samplePreload (pins : List Bool) (shift : List Bool)
  | idcode
  | clamp
  | highz
  | extestPulse (pins : List Bool) (shift : List Bool)
  | extestTrain (pins : List Bool) (shift : List Bool)
  | bypass (shift : List Bool)
  | jtagTestLogicReset
  /- Events, and the rows the table lists last -/
  | evtLogWrite
  | resetNRelease (straps : Straps)
  | vbakLow
  | secondsCarry
  | ptpAnnounceTx (port : Fin 8) (dom1 : Bool)
  | serGlitch (ch : Fin 24)
  | gpioWake (pin : Fin 16)
  | serialWake (ch : Fin 24)
  | linkWake (port : Fin 8)
  | cardWake (slot : Fin 8)
  deriving DecidableEq, Repr

end Sys2Proof
end

