-- ==== Sys2Proof/Machine/Bits.lean ====
section
/-!
DEFINITION. Helpers on lists, bytes and counters that every family uses: indexed update, byte order,
saturating counters, signed values, rounding.
-/

namespace Sys2Proof.Machine

/-- Element `i` of a list of like units, or `d` beyond its end. -/
def nth {α : Type} (d : α) : List α → Nat → α
  | [], _ => d
  | x :: _, 0 => x
  | _ :: xs, i + 1 => nth d xs i

/-- The list with element `i` put through `f`, unchanged where there is none. -/
def upd {α : Type} (f : α → α) : List α → Nat → List α
  | [], _ => []
  | x :: xs, 0 => f x :: xs
  | x :: xs, i + 1 => x :: upd f xs i

/-- Counter up by one, stopping at its largest value (R900). -/
def satInc {n : Nat} (c : BitVec n) : BitVec n :=
  if c = BitVec.allOnes n then c else c + 1

/-- Counter up by `k`, stopping at its largest value (R900). -/
def satAdd {n : Nat} (c : BitVec n) (k : Nat) : BitVec n :=
  if c.toNat + k < 2 ^ n then BitVec.ofNat n (c.toNat + k) else BitVec.allOnes n

/-- Sets bit `i`. -/
def setBit {n : Nat} (b : BitVec n) (i : Nat) : BitVec n := b ||| (1#n <<< i)

/-- Clears bit `i`. -/
def clearBit {n : Nat} (b : BitVec n) (i : Nat) : BitVec n := b &&& ~~~(1#n <<< i)

/-- Bit `i` of a natural number. -/
def natBit (v i : Nat) : Bool := v / 2 ^ i % 2 == 1

/-- Bits `hi` down to `lo` of a word as a number. -/
def fld {n : Nat} (w : BitVec n) (hi lo : Nat) : Nat := w.toNat / 2 ^ lo % 2 ^ (hi - lo + 1)

/-- A number as `n` bytes, most significant first. -/
def toBE : Nat → Nat → List Byte
  | 0, _ => []
  | n + 1, v => BitVec.ofNat 8 (v / 256 ^ n) :: toBE n v

/-- A number as `n` bytes, least significant first. -/
def toLE : Nat → Nat → List Byte
  | 0, _ => []
  | n + 1, v => BitVec.ofNat 8 v :: toLE n (v / 256)

/-- Value of bytes, most significant first. -/
def ofBE (l : List Byte) : Nat := l.foldl (fun a b => a * 256 + b.toNat) 0

/-- Value of bytes, least significant first. -/
def ofLE : List Byte → Nat
  | [] => 0
  | b :: bs => b.toNat + 256 * ofLE bs

/-- `n` bytes from offset `o`. -/
def slice (l : List Byte) (o n : Nat) : List Byte := (l.drop o).take n

/-- The byte at an offset, zero beyond the end. -/
def u8 (l : List Byte) (o : Nat) : Nat := (nth 0 l o).toNat

/-- Big-endian fields at an offset. -/
def be16 (l : List Byte) (o : Nat) : Nat := ofBE (slice l o 2)
def be24 (l : List Byte) (o : Nat) : Nat := ofBE (slice l o 3)
def be32 (l : List Byte) (o : Nat) : Nat := ofBE (slice l o 4)
def be64 (l : List Byte) (o : Nat) : Nat := ofBE (slice l o 8)

/-- A number read as a signed value of `n` bits. -/
def asSigned (n v : Nat) : Int :=
  let w := v % 2 ^ n
  if w < 2 ^ (n - 1) then (w : Int) else (w : Int) - 2 ^ n

/-- A signed value as a word. -/
def intWord (i : Int) : Word := BitVec.ofInt 32 i

/-- A value held within the limits of a signed field of `n` bits. -/
def satInt (n : Nat) (i : Int) : Int :=
  if i > 2 ^ (n - 1) - 1 then 2 ^ (n - 1) - 1 else if i < -(2 ^ (n - 1)) then -(2 ^ (n - 1)) else i

/-- Quotient rounded to nearest, ties away from zero (R454, R476). -/
def divRound (a : Int) (b : Nat) : Int :=
  let q := (2 * a.natAbs + b) / (2 * b)
  if a < 0 then -(q : Int) else q

/-- Quotient rounded away from zero (R187). -/
def ceilDiv (a b : Nat) : Nat := (a + b - 1) / b

/-- Entry of an association list. -/
def lookupD {β : Type} (d : β) (k : Nat) : List (Nat × β) → β
  | [] => d
  | (j, v) :: l => if j = k then v else lookupD d k l

/-- Replaces or adds an entry of an association list. -/
def putAssoc {β : Type} (k : Nat) (v : β) : List (Nat × β) → List (Nat × β)
  | [] => [(k, v)]
  | (j, w) :: l => if j = k then (k, v) :: l else (j, w) :: putAssoc k v l

/-- Removes an entry of an association list. -/
def dropAssoc {β : Type} (k : Nat) (l : List (Nat × β)) : List (Nat × β) :=
  l.filter (fun p => p.1 != k)

/-- Padding with zero bytes up to a length. -/
def padTo (n : Nat) (l : List Byte) : List Byte := l ++ List.replicate (n - l.length) 0

/-- The number of one-bits among the lowest `n` bits. -/
def ones : Nat → Nat → Nat
  | 0, _ => 0
  | n + 1, v => v % 2 + ones n (v / 2)

end Sys2Proof.Machine
end

