-- ==== Sys2Proof/Machine/Ber.lean ====
section
/-!
DEFINITION. BER as IEC 61850-8-1 and IEC 61850-9-2 use it: reading tag-length-value triples of a
definite length, and writing them. The tags of the savPdu and goosePdu are those of the standards
that the specification names (R455, R644; log entry 20).
-/

namespace Sys2Proof.Machine

/-- Length field at the head of `l`: the length and the bytes after the field. -/
def berLen (l : List Byte) : Option (Nat × List Byte) :=
  match l with
  | [] => none
  | b :: r =>
    if b.toNat < 128 then some (b.toNat, r)
    else
      let n := b.toNat - 128
      if n = 0 ∨ 4 < n ∨ r.length < n then none else some (ofBE (r.take n), r.drop n)

/-- Splits bytes into triples of one-byte tags; what follows a malformed triple is dropped, and the
flag tells whether the bytes were consumed exactly. -/
def berSplit : Nat → List Byte → List (Nat × List Byte) × Bool
  | _, [] => ([], true)
  | 0, _ :: _ => ([], false)
  | f + 1, t :: r =>
    match berLen r with
    | none => ([], false)
    | some (n, v) =>
      if v.length < n then ([], false)
      else
        let rest := berSplit f (v.drop n)
        ((t.toNat, v.take n) :: rest.1, rest.2)

/-- The triples of a constructed value. -/
def berItems (l : List Byte) : List (Nat × List Byte) := (berSplit l.length l).1

/-- Value of the first triple with a tag. -/
def berFind (tag : Nat) : List (Nat × List Byte) → Option (List Byte)
  | [] => none
  | (t, v) :: r => if t = tag then some v else berFind tag r

/-- Writes a length field in the shortest form. -/
def berLenOut (n : Nat) : List Byte :=
  if n < 128 then [BitVec.ofNat 8 n]
  else if n < 256 then [0x81, BitVec.ofNat 8 n]
  else 0x82 :: toBE 2 n

/-- Writes one triple. -/
def berOut (tag : Nat) (v : List Byte) : List Byte := BitVec.ofNat 8 tag :: berLenOut v.length ++ v

/-- Shortest two's complement form of a signed value, at most `n` bytes (INTEGER). -/
def berIntBytes (n : Nat) (i : Int) : List Byte :=
  match n with
  | 0 => []
  | 1 => [BitVec.ofInt 8 i]
  | n + 1 =>
    if -(2 ^ (8 * n - 1)) ≤ i ∧ i < 2 ^ (8 * n - 1) then berIntBytes n i
    else toBE (n + 1) ((i % 2 ^ (8 * (n + 1))).toNat)

/-- An unsigned INTEGER: a zero byte keeps the value from reading as negative. -/
def berUInt (v : Nat) : List Byte := berIntBytes 5 (v : Int)

/-- Value of an INTEGER in two's complement. -/
def berIntVal (l : List Byte) : Int := asSigned (8 * l.length) (ofBE l)

/-! ### Sampled values (IEC 61850-9-2) -/

/-- One ASDU of a savPdu: svID, smpCnt, confRev, smpSynch and seqData. -/
structure SvAsdu where
  svId : List Byte
  smpCnt : Nat
  synch : Nat
  data : List Byte
  deriving DecidableEq, Repr

/-- The ASDUs of an SV frame, from the byte after the EtherType on: APPID, length, two reserved
fields and the savPdu. -/
def svAsdus (l : List Byte) : List SvAsdu :=
  match berFind 0x60 (berItems (l.drop 8)) with
  | none => []
  | some pdu =>
    match berFind 0xA2 (berItems pdu) with
    | none => []
    | some sq =>
      ((berItems sq).filter (fun t => t.1 == 0x30)).map (fun t =>
        let it := berItems t.2
        { svId := (berFind 0x80 it).getD [], smpCnt := ofBE ((berFind 0x82 it).getD []),
          synch := ofBE ((berFind 0x85 it).getD []), data := (berFind 0x87 it).getD [] })

/-- Value and quality pairs of a seqData, 8 bytes each. -/
def svPairs : Nat → List Byte → List (Int × Nat)
  | 0, _ => []
  | n + 1, l =>
    if l.length < 8 then []
    else (asSigned 32 (be32 l 0), be32 l 4) :: svPairs n (l.drop 8)

end Sys2Proof.Machine
end

