-- ==== Sys2Proof/Machine/Crc.lean ====
section
/-!
DEFINITION. The cyclic checks the specification names: CRC-8 of the management port (R59 to R62),
CRC-16 of the ID block (Table 12-9) and of the CHECKSUM_REQUIRED filter (Table 9-13), and the CRC-32
of IEEE 802.3.
-/

namespace Sys2Proof.Machine

/-- `n` shifts of a register that moves toward its most significant bit. -/
def crcUp {w : Nat} (poly : BitVec w) : Nat → BitVec w → BitVec w
  | 0, r => r
  | n + 1, r => crcUp poly n (if r.msb then (r <<< 1) ^^^ poly else r <<< 1)

/-- `n` shifts of a reflected register. -/
def crcDown {w : Nat} (poly : BitVec w) : Nat → BitVec w → BitVec w
  | 0, r => r
  | n + 1, r => crcDown poly n (if r.getLsbD 0 then (r >>> 1) ^^^ poly else r >>> 1)

/-- CRC-8, polynomial 0x07, initial value 0x00, over bytes in order (R59). -/
def crc8 (l : List Byte) : Byte := l.foldl (fun r b => crcUp 0x07 8 (r ^^^ b)) 0

/-- CRC-16, polynomial 0x1021, initial value 0xFFFF, not reflected (Table 12-9). -/
def crc16Ccitt (l : List Byte) : BitVec 16 :=
  l.foldl (fun r b => crcUp (0x1021 : BitVec 16) 8 (r ^^^ BitVec.ofNat 16 (b.toNat * 256))) 0xFFFF

/-- CRC-16, reflected polynomial 0xA001, initial value 0xFFFF (Table 9-13). -/
def crc16Modbus (l : List Byte) : BitVec 16 :=
  l.foldl (fun r b => crcDown 0xA001 8 (r ^^^ b.setWidth 16)) 0xFFFF

/-- One byte into a running CRC-32 register. -/
def crc32Byte (r : Word) (b : Byte) : Word := crcDown 0xEDB88320 8 (r ^^^ b.setWidth 32)

/-- CRC-32 of IEEE 802.3. -/
def crc32 (l : List Byte) : Word := l.foldl crc32Byte 0xFFFFFFFF ^^^ 0xFFFFFFFF

/-- The FCS of a frame as its four bytes on the wire, lowest first. -/
def fcsBytes (l : List Byte) : List Byte := toLE 4 (crc32 l).toNat

end Sys2Proof.Machine
end

