-- ==== Sys2Proof/Config.lean ====
section
/-!
DEFINITION. The free values of the model: constants without a body for what the specification leaves
open. Nothing can be proved about the value of any of them. Each is applied to the counter `free` of
the state, which the command that draws a value advances, or to the operands it depends on.
-/

namespace Sys2Proof.Config

/-- A 32-bit value the specification does not state (log entry 5). -/
opaque freeWord : Nat → BitVec 32

/-- A byte the specification does not state (log entry 5). -/
opaque freeByte : Nat → BitVec 8

/-- A bit the specification does not state: which neighbour an unstated rounding takes, and the like
(log entry 5). -/
opaque freeBit : Nat → Bool

/-- The backoff factor k less one, so k lies in 1 to 16 (R416; the draw itself is open). -/
opaque backoff : Nat → Fin 16

/-- What a patched microcode word makes of a rule's result and value: the content of a microword is
not documented (R653 to R655). Arguments: ROM address and word of the patches in force, rule bytes. -/
opaque patchedRule : List (Nat × BitVec 64) → List (BitVec 8) → Nat → Bool × Int

/-- SHA-256 digest of Kolkel's ROM test key, which no document prints (R873; log entry 5). -/
opaque romTestKey : List (BitVec 8)

/-- How far the burning of an OTP unit had got when a reset, an endgame or a loss of power stopped it: 0
before ATTEMPT, 1 in step 1 or 2, 2 to 5 in step 3 with 0 to 3 COMMIT bits burned, 6 in step 4
(Table 15-4; log entry 5). -/
opaque burnStop : Nat → Fin 7

end Sys2Proof.Config
end

