-- ==== Sys2Proof/Machine/BlkCore.lean ====
section
/-!
DEFINITION. State of the management port and the global registers (spec/02), the Positions
(spec/03), the buffer memory and shared region (spec/13), power and the ladder (spec/14), OTP
and security (spec/15), events (spec/16) and boundary scan (spec/17). Plain data only.
-/

namespace Sys2Proof.Machine

/-! ### Events (spec/16) -/

/-- The 51 events of Table 16-3. -/
inductive Ev where
  | mgtWdog | posRefused | posCommit | tmbPast | tmbCapOvf | holdover
  | ptpMasterLost | castle | castleBlocked | ptpTxtsOvf
  | ethLink | portResign | portReinstate | ethVerifyFail | ethAccessDrop | kingLost
  | serAutobaud | serBlind | serCollide | serTxDrop | serEncroach | serOverrun
  | cnvOverload | cnvTrigSkip | cnvRefFault | alnLate | alnInvalid | rteUnrouted | rteCsumFail
  | bufRefuse | admitExcess | flagFall | promote
  | arbOverrun | arbConflict | arbUser | arbGooseLost
  | xbSlotIn | xbSlotOut | xbWerr | xbOrphan
  | memLost | memRepair | memUnrepairable | memEccUe | memRetVoid
  | pwrFail | wake | thermal | thermalClear | otpScarred
  deriving DecidableEq, Repr

/-- One entry of the event queue (R891, Table 16-5): everything but the lap, which the writer adds. -/
structure EvEntry where
  secs : BitVec 32
  tq : BitVec 2
  ns : BitVec 30
  code : BitVec 16
  source : BitVec 8
  datum : BitVec 32
  deriving DecidableEq, Repr

/-- The EVT block (Table 16-9) and the event queue (R891). -/
structure EvtBlk where
  pend : BitVec 11
  pendEn : BitVec 11
  headLap : BitVec 8
  headIdx : BitVec 10
  wrapped : Bool
  ovf : Bool
  dropCnt : BitVec 32
  kingLostCnt : BitVec 32
  last : BitVec 24
  queue : List EvEntry
  deriving DecidableEq, Repr

/-! ### GLB and the management port (spec/02) -/

/-- Read/write GLB registers; the read-only ones are computed from the blocks they report. -/
structure GlbBlk where
  mgtInt : BitVec 2
  mgtIntEn : BitVec 2
  intaMask : BitVec 15
  intbMask : BitVec 15
  deriving DecidableEq, Repr

/-- Outcome of one management transaction: the content of MGT_STATUS and MGT_LOST_ADDR
(Tables 2-19, 2-20). -/
structure TxOutcome where
  opcode : BitVec 8
  words : BitVec 8
  denied : Bool
  wdogAbort : Bool
  cmdReject : Bool
  addrErr : Bool
  crcErr : Bool
  writeLost : Bool
  notReady : Bool
  lostAddr : BitVec 24
  deriving DecidableEq, Repr

/-- States of a pickup slot as Table 2-5 codes them. -/
inductive PickSt where
  | empty | notReady | done | stale | error | expired
  deriving DecidableEq, Repr

/-- One pickup slot (R76 to R86). `deadline` is the stalemate instant on TMB_LOCAL (R693). -/
structure PickSlot where
  st : PickSt
  seq : BitVec 4
  code : BitVec 8
  len : Nat
  data : List Word
  deadline : Option Nat
  deriving DecidableEq, Repr

/-- A far read that is issued as MGT_CS_N rises: pickup slot, card slot, far address and words (R77). -/
structure ParkedRead where
  pick : Nat
  slot : Nat
  addr : Nat
  words : Nat
  deriving DecidableEq, Repr

/-- A transaction whose MGT_CS_N is still low with MGT_SCLK at rest (R102 to R104): the local count at its last
edge, its far read, and its outcome so far. -/
structure OpenTx where
  lastEdge : Nat
  read : Option ParkedRead
  out : TxOutcome
  deriving DecidableEq, Repr

/-- The management domain (Table 2-17). `status` is what MGT_STATUS and MGT_LOST_ADDR hold (R114),
`last` the outcome of the last non-STATUS transaction (R57), `miso` the bytes driven on MGT_MISO in
the last transaction. -/
structure MgtBlk where
  wdogEn : Bool
  crcEn : Bool
  wdogTimeout : BitVec 16
  crcErrCnt : BitVec 16
  notReadyCnt : BitVec 16
  status : TxOutcome
  last : TxOutcome
  openTx : Option OpenTx
  pick : List PickSlot
  pickSeq : BitVec 4
  miso : List Byte
  deriving DecidableEq, Repr

/-! ### Positions (spec/03) -/

/-- POS_STATUS.STAGE_STATE (Table 3-6). -/
inductive Stage where
  | empty | loading | verifying | staged | refused | preparing | swapWait | committing
  deriving DecidableEq, Repr

/-- One TLV section of a Position (R118). -/
structure Sect where
  ty : Nat
  flags : Nat
  body : List Byte
  deriving DecidableEq, Repr

/-- One Position bank: the image bytes it holds, plaintext once decrypted (R131), the digest kept at
verification (R148), and whether a read has met an uncorrectable error in it (Table 13-5). -/
structure PosBank where
  image : List Byte
  digest : List Byte
  ue : Bool
  deriving DecidableEq, Repr

/-- The POS block. `tables` are the tables the running engines serve from, `shadow` the shadow tables
of a hitless commit (R159), `fallback` the retained FALLBACK copy (R167). -/
structure PosBlk where
  bankA : PosBank
  bankB : PosBank
  stage : Stage
  activeBank : Bool
  active : Bool
  running : Bool
  fallbackApplied : Bool
  restartPending : Bool
  cmdErr : Bool
  seqErr : Bool
  hitlessOk : Bool
  errCode : BitVec 8
  errSection : BitVec 8
  errDetail : BitVec 16
  errOffset : BitVec 24
  loadOffset : BitVec 24
  commitS : BitVec 32
  commitNs : BitVec 30
  refusedCnt : BitVec 16
  tables : List Sect
  shadow : List Sect
  fallback : Option (List Byte)
  opening : Bool
  awaitFirstCycle : Bool
  deriving DecidableEq, Repr

/-! ### Buffer memory (spec/13) -/

/-- One access of the last port-A command, kept so that a port-B access of the same core cycle can
be judged against it (R746 to R753, R967). -/
structure PortARec where
  offset : Nat
  old : List Byte
  new : List Byte
  atomic : Bool
  entry : Option Nat
  deriving DecidableEq, Repr

/-- Spare rows of one bank: the rows mapped to the first and second spare, and which spares have been
withdrawn (R762, R767). -/
structure SpareRec where
  rowA : Option Nat
  rowB : Option Nat
  badA : Bool
  badB : Bool
  deriving DecidableEq, Repr

/-- A row of a bank. -/
structure RowId where
  bank : Nat
  row : Nat
  deriving DecidableEq, Repr

/-- MEM_RET_STATUS.STATUS (Table 13-11). -/
inductive RetSt where
  | checking | valid | void
  deriving DecidableEq, Repr

/-- The MEM block. `shared` is the 128 KiB shared region, as address-byte pairs in canonical form; `sweepNext` the
row that comes next in sweep order; `retiredCells` the cells and `retiredDescs` the rows of the descriptor store
that have left use (Table 13-7). -/
structure MemBlk where
  shared : List Host.Cell
  int : BitVec 6
  intEn : BitVec 6
  retChecked : Bool
  retEcc : Bool
  retCrcMismatch : Bool
  retLatchClear : Bool
  retStatus : RetSt
  retCrc : Word
  retLatch : Bool
  latchSample : Bool
  sweepBank : Nat
  sweepRow : Nat
  sweepNext : RowId
  sweepCount : BitVec 32
  sweepDue : Nat
  lostCnt : BitVec 32
  lostAddrA : BitVec 17
  ceCnt : BitVec 32
  ceAddr : BankPlace
  ueCnt : BitVec 32
  ueAddr : BankPlace
  transientCnt : BitVec 32
  starveCnt : BitVec 32
  spares : List SpareRec
  suspects : List RowId
  marks : List RowId
  retiredCells : List Nat
  retiredDescs : List Nat
  portA : List PortARec
  deriving DecidableEq, Repr

/-! ### Power, reset and the ladder (spec/14) -/

/-- Where the device stands between supplies off and READY (Table 14-2), and REST (R824). -/
inductive Boot where
  | unpowered | porWait | pllWait | init | ready | inReset | rest
  deriving DecidableEq, Repr

/-- The ladder states of Table 14-4 that PWR_STATUS.STATE codes. -/
inductive Ladder where
  | play | hold | adjourn | seal
  deriving DecidableEq, Repr

/-- PWR_STATUS.PHASE (Table 14-14). -/
inductive Phase where
  | steady | entering | exiting
  deriving DecidableEq, Repr

/-- Reset sources (Table 14-3). -/
inductive ResetSrc where
  | powerOn | restExit | resetN | softReset | pllLoss
  deriving DecidableEq, Repr

/-- Wake requests registered since the acceptance of the entry: their causes, the earliest, and the local
count at which it was registered (R815, R816). -/
structure WakeReg where
  causes : BitVec 8
  first : BitVec 4
  at_ : Nat
  deriving DecidableEq, Repr

/-- The PWR block and the supply-level state behind it. `pnr` is the lowest state whose point of no
return the entry in progress has passed (R807); `since` the local count at which the present exit, or the
steps toward the next state of an entry, began; `sealCrc` the CRC-32 of step S1 (R822). -/
structure PwrBlk where
  boot : Boot
  mainGood : Bool
  vbakPowered : Bool
  vbakOk : Bool
  pwrFailLow : Bool
  resetLow : Bool
  bootSrc : ResetSrc
  restEntered : Bool
  endgame : Bool
  ladder : Ladder
  phase : Phase
  target : Option Ladder
  pnr : Option Ladder
  reg : WakeReg
  since : Nat
  reqErr : Bool
  int : BitVec 4
  intEn : BitVec 4
  wakeEn : BitVec 8
  wakeFrom : BitVec 3
  wakeFirst : BitVec 4
  wakeAfterPnr : Bool
  wakeTakeback : Bool
  wakeCauses : BitVec 8
  wakePorts : BitVec 8
  wakeSlots : BitVec 8
  wakeGpio : BitVec 16
  wakeSer : BitVec 24
  deriving DecidableEq, Repr

/-- The remaining PWR registers (Table 14-14) and the thermal trip (R834 to R838). `recSlot` and `recSeq` are
the record found at start-up, `recLast` the SEQ of the latest one found or written since (R826). -/
structure ThermBlk where
  resetCause : BitVec 5
  tjMax : BitVec 16
  tjNow : BitVec 16
  thermal : Bool
  coolSince : Option Nat
  recValid : Bool
  recSlot : BitVec 6
  recSeq : BitVec 32
  recLast : BitVec 32
  lastExit : BitVec 32
  discardCnt : BitVec 32
  takebackCnt : BitVec 32
  relMs : BitVec 16
  deepest : BitVec 2
  entry : BitVec 3
  sealCrc : Word
  straps : Straps
  deriving DecidableEq, Repr

/-! ### Security and OTP (spec/15) -/

/-- State of one OTP unit (R844). -/
inductive OtpSt where
  | blank | scarred | committed | locked
  deriving DecidableEq, Repr

/-- One OTP unit: its state, its data as burned, and whether its SCAR bit is burned (R861). -/
structure OtpUnit where
  st : OtpSt
  data : Word
  scar : Bool
  deriving DecidableEq, Repr

/-- SEC_CMD commands (Table 15-11). -/
inductive SecCmd where
  | program | lock | revoke | rollbackAdvance | enforce | testDisable
  deriving DecidableEq, Repr

/-- The OTP command that is running: its kind, the unit it works on, and its data: the word of PROGRAM, or
the count that ROLLBACK_ADVANCE goes to. -/
structure SecRun where
  cmd : SecCmd
  unitAddr : Nat
  data : Word
  deriving DecidableEq, Repr

/-- The SEC block. Units 0 to 127 are the words, 128 to 191 the counter bits, 192 to 223 the flags. -/
structure SecBlk where
  otp : List OtpUnit
  run : Option SecRun
  testMode : Bool
  result : BitVec 4
  otpAddr : BitVec 8
  otpData : Word
  token : List Word
  int : BitVec 2
  intEn : BitVec 2
  abortedPending : Bool
  scarBurnDone : Bool
  deriving DecidableEq, Repr

/-! ### JTAG and boundary scan (spec/15, spec/17) -/

/-- JTAG instructions (Table 15-6). -/
inductive JtagInstr where
  | extest | samplePreload | idcode | clamp | highz | extestPulse | extestTrain | bypass
  deriving DecidableEq, Repr

/-- The JTAG instruction register and the update stage of the 328-cell boundary register (R917). -/
structure JtagBlk where
  instr : JtagInstr
  cells : List Bool
  captured : List Bool
  dr : List Bool
  deriving DecidableEq, Repr

end Sys2Proof.Machine
end

