-- ==== Sys2Proof/Machine/BlkTime.lean ====
section
/-!
DEFINITION. State of the time base with its comparators, PPSO outputs and captures (spec/04) and of
the Timekeeper (spec/05). Plain data only.
-/

namespace Sys2Proof.Machine

/-! ### Time base (spec/04) -/

/-- A slew in progress (R187). `remain` is the magnitude not yet applied, in units of 10^-6 times
2^-32 ns, so that the applied amount reaches the offset exactly. -/
structure Slew where
  neg : Bool
  ppm : Nat
  remain : Nat
  deriving DecidableEq, Repr

/-- One comparator (Table 4-10). `fresh` marks a target reloaded in this cycle, which is evaluated in
the next one (R199); `lateDue` a ONE_SHOT target overtaken by a SET or STEP (R200). -/
structure Cmp where
  locked : Bool
  line : BitVec 5
  action : BitVec 4
  mode : BitVec 2
  wakeEn : Bool
  armed : Bool
  missed : BitVec 16
  resync : Bool
  past : Bool
  late : Bool
  targetS : Word
  targetNs : BitVec 30
  period : Word
  liveS : Word
  liveNs : BitVec 30
  fresh : Bool
  lateDue : Bool
  deriving DecidableEq, Repr

/-- One PPSO output (Table 4-9): its control fields, whether the ball is driven (R210), and the end
of the pulse in progress as low seconds and nanoseconds of device time (R207). -/
structure Ppso where
  widthUs : BitVec 20
  qualify : Bool
  polarity : Bool
  driven : Bool
  pulse : Option (Word × Nat)
  deriving DecidableEq, Repr

/-- One recorded edge (R213). -/
structure CapEntry where
  rising : Bool
  ns : BitVec 30
  secs : Word
  deriving DecidableEq, Repr

/-- One capture input. -/
structure Cap where
  edge : BitVec 2
  fifo : List CapEntry
  sec : Word
  ovf : Bool
  deriving DecidableEq, Repr

/-- The PPS discipline loop (Tables 4-4, 4-9). `integ` is the integral term in units of 2^-10 ppb,
`goodLock` counts pulses toward LOCKED, `bad` out-of-window pulses in HOLDOVER. -/
structure PpsLoop where
  windowUs : BitVec 8
  tau : BitVec 2
  input : BitVec 3
  reject : BitVec 16
  good : BitVec 8
  st : BitVec 2
  err : Int
  rate : Int
  integ : Int
  goodLock : Nat
  bad : Nat
  lastAt : Nat
  secLoad : Option (BitVec 48)
  deriving DecidableEq, Repr

/-- The TMB_SNAP_ registers (R183). -/
structure Snap where
  secs : BitVec 48
  ns : BitVec 30
  frac : Word
  localCnt : BitVec 64
  deriving DecidableEq, Repr

/-- The time base. `sub` carries the part of a slew below the fraction, in units of 10^-6 times
2^-32 ns; `carries` are the addends sampled at the last seconds carries, newest first (R222). -/
structure TmbBlk where
  secs : BitVec 48
  ns : BitVec 30
  frac : Word
  sub : Nat
  addend : BitVec 64
  localCnt : BitVec 64
  slew : Option Slew
  owner : BitVec 2
  holdover : Bool
  lockWrite : Bool
  cmdErr : Bool
  clamped : Bool
  snap : Snap
  setS : BitVec 48
  setNs : BitVec 30
  stepS : Word
  stepNs : Word
  slewNs : Word
  slewRate : BitVec 10
  rate : BitVec 64
  carries : List (BitVec 64)
  pps : PpsLoop
  ppso : List Ppso
  fired : BitVec 16
  cmpIntEn : BitVec 16
  capIntEn : BitVec 8
  cmps : List Cmp
  caps : List Cap
  deriving DecidableEq, Repr

/-! ### Timekeeper (spec/05) -/

/-- The grandmaster data of an Announce message, as the BMCA compares it. -/
structure GmData where
  prio1 : BitVec 8
  clockClass : BitVec 8
  accuracy : BitVec 8
  variance : BitVec 16
  prio2 : BitVec 8
  gmId : BitVec 64
  stepsRemoved : BitVec 16
  utcOffset : BitVec 16
  timeSource : BitVec 8
  flags : BitVec 6
  tti : Word
  deriving DecidableEq, Repr

/-- A foreign master record of one port and domain: the sender's port identity, its last data, and
the instants (TMB_LOCAL) of its last Announce messages, newest first. -/
structure Foreign where
  sender : BitVec 80
  data : GmData
  seen : List Nat
  deriving DecidableEq, Repr

/-- Peer delay state of one port and domain (R251 to R253). Times are in units of 1/8192000 ns;
`delays` are the last eight complete exchanges, newest first. -/
structure PdelayBlk where
  seq : BitVec 16
  t1 : Option Int
  t2 : Option Int
  t4 : Option Int
  corr : Int
  awaiting : Bool
  delays : List Int
  lastT3 : Option (Int × Int)
  timeouts : Nat
  excluded : Bool
  deriving DecidableEq, Repr

/-- A Sync received in two-step form that waits for its Follow_Up. -/
structure SyncWait where
  sender : BitVec 80
  seq : BitVec 16
  rx : Int
  corr : Int
  deriving DecidableEq, Repr

/-- State of one PTP port in one domain. `state` is coded as portState (R236), `since` the local count
at which the port entered LISTENING or last heard an Announce. -/
structure PortDom where
  state : BitVec 4
  since : Nat
  foreign : List Foreign
  pdelay : PdelayBlk
  syncWait : Option SyncWait
  syncSeq : BitVec 16
  annSeq : BitVec 16
  deriving DecidableEq, Repr

/-- An egress timestamp for the host (R248). -/
structure TxtsEntry where
  secs : Word
  ns : BitVec 30
  tag : BitVec 16
  deriving DecidableEq, Repr

/-- One PTP port (Table 5-12). -/
structure PtpPort where
  enabled : Bool
  oneStep : Bool
  dom0 : PortDom
  dom1 : PortDom
  nrr : Int
  asymPs : Word
  ingressPs : Word
  egressPs : Word
  txts : List TxtsEntry
  txtsSec : Word
  txtsTag : BitVec 16
  txtsOvf : Bool
  pdelayTo : BitVec 16
  deriving DecidableEq, Repr

/-- One PTP domain (Table 5-11) with its servo and clock model. Offsets are in units of 1/8192000 ns,
`integ` and `rate` in units of that over 4096 per 10^9. `model` is domain time at a local count. -/
structure PtpDom where
  number : BitVec 8
  logSync : Int
  logAnnounce : Int
  annTimeout : Nat
  servo : BitVec 3
  tau : Nat
  ofsDev : List Int
  ofm : Int
  integ : Int
  rate : Int
  good : Nat
  fine : Nat
  lockRun : Nat
  outliers : Nat
  gm : GmData
  parent : Option Nat
  master : BitVec 80
  lastSync : Nat
  lastAnnounce : Nat
  model : Option (Nat × Int)
  discard : BitVec 16
  deriving DecidableEq, Repr

/-- A residence time measured for an event message that left in two-step form, kept for the message
that carries its correction (R254, R255): domain, sender, sequence number, egress port, whether it is
a Delay_Req, and the time in units of 1/8192000 ns. -/
structure Resid where
  dom : Bool
  sender : BitVec 80
  seq : BitVec 16
  port : Nat
  delayReq : Bool
  amount : Int
  deriving DecidableEq, Repr

/-- PTP_STATUS.CASTLE_STATE (Table 5-10). -/
inductive CastleSt where
  | idle | residualSlew | blocked | decidedSlew
  deriving DecidableEq, Repr

/-- The Timekeeper (Table 5-10). `lostAt` is the local count at which the active domain was lost and
no castling has completed since (R281); `graceEnd` the end of the holdover grace period (R288). -/
structure PtpBlk where
  role : BitVec 3
  profile : Bool
  secEn : Bool
  cmdErr : Bool
  castleSt : CastleSt
  activeDom : Bool
  holdover : Bool
  timeSet : Bool
  autoCastle : Bool
  autoPolicy : BitVec 2
  slewPpm : BitVec 4
  windowNs : BitVec 16
  castleCnt : BitVec 16
  blockedCnt : BitVec 8
  ignored : Bool
  castleLast : BitVec 3
  decisionThisCycle : Option Nat
  hostTq : BitVec 2
  grace : BitVec 16
  graceEnd : Option Nat
  heldSync : BitVec 2
  lostAt : Option Nat
  cand : Bool
  resid : List Resid
  d0 : PtpDom
  d1 : PtpDom
  ports : List PtpPort
  deriving DecidableEq, Repr

end Sys2Proof.Machine
end

