-- ==== Sys2Proof/Machine/BlkNet.lean ====
section
/-!
DEFINITION. State of the messages in the board (spec/01, spec/13), the Ethernet ports and the host
port (spec/06), the serial channels (spec/07), the routing table (spec/09) and the classes
(spec/10). Plain data only.
-/

namespace Sys2Proof.Machine

/-! ### Messages -/

/-- Kinds of message on the board (Tables 1-2, 9-5, 9-7), with the device's own frames (PTP,
supervision, access responses). -/
inductive MsgKind where
  | eth | tunnel | serial | mu | goose | arbMsg | alRow | xm
  | ptp | supervision | accessResp
  deriving DecidableEq, Repr

/-- Device time as a stamp carried by a message (R22, R289). -/
structure Stamp where
  secs : BitVec 48
  ns : BitVec 30
  tq : BitVec 2
  deriving DecidableEq, Repr

/-- One message in the board. `bytes` run from the destination address to the last byte before the FCS
for Ethernet frames, and are the message bytes otherwise. `result` and `template` are the route
result and the template as looked up (R162). `origin` is the age origin on TMB_LOCAL (R23); `acct`
the class its cells and descriptor are accounted to (R567); `refs` the copies not yet left; `ring` the
HSR tag with which a ring transit frame goes on to the other ring port. -/
structure Msg where
  id : Nat
  kind : MsgKind
  port : Nat
  channel : Option Nat
  index : Nat
  bytes : List Byte
  tagged : Bool
  vid : BitVec 12
  pcp : BitVec 3
  cls : BitVec 3
  acct : BitVec 3
  result : List Byte
  template : Option (List Byte)
  routeId : Nat
  stamp : Stamp
  origin : Nat
  downgraded : Bool
  red : BitVec 2
  san : Bool
  idle : Bool
  tsTag : Option (BitVec 16)
  reserved : Nat
  shared : Nat
  refs : Nat
  etype : Nat
  tseq : BitVec 16
  ring : List Byte
  deriving DecidableEq, Repr

/-- One entry of a class queue: the message, whether this copy was promoted (R577), whether
flag fall has marked it (R578), and the pair's sequence number it carries (R320). -/
structure QEntry where
  msg : Nat
  promoted : Bool
  marked : Bool
  seq : BitVec 16
  deriving DecidableEq, Repr

/-- A frame in transmission on an Ethernet port: the queue entries it carries, its bytes from the
destination address (or host tag) through the FCS, the bytes sent in earlier fragments, the fragments so
far, and the local count at which the first byte after the start delimiter of the present fragment goes
out. A frame without entries is a verify or respond mPacket. -/
structure TxFrame where
  entries : List QEntry
  cls : BitVec 3
  bytes : List Byte
  sent : Nat
  frags : Nat
  startAt : Nat
  deriving DecidableEq, Repr

/-! ### Ethernet (spec/06) -/

/-- Forwarding states (Table 6-4). -/
inductive FwdSt where
  | disabled | down | forwarding | resigned
  deriving DecidableEq, Repr

/-- ETH_STATUS.VERIFY (Table 6-14). -/
inductive VerifySt where
  | disabled | init | verifying | succeeded | failed | forced
  deriving DecidableEq, Repr

/-- IEEE 802.3br mPackets the port has to send. -/
inductive MPacket where
  | verify | respond
  deriving DecidableEq, Repr

/-- One Ethernet port block: P0 to P7 and HP (Tables 6-13 to 6-15). Instants are on TMB_LOCAL. `tx` is
the frame the scheduler is busy with, `preempted` one that waits to resume, `leaving` those whose last
bytes are still in the egress pipeline. -/
structure EthPort where
  fwd : FwdSt
  link : Bool
  speed100 : Bool
  anDone : Bool
  rf : Bool
  fef : Bool
  unsupported : Bool
  verify : VerifySt
  verifyTries : Nat
  verifyDue : Option Nat
  mpackets : List MPacket
  cmdErr : Bool
  resignCnt : BitVec 16
  cause : BitVec 4
  int : BitVec 7
  intEn : BitVec 7
  cnt : List (BitVec 32)
  runs : List Nat
  windowEnd : Nat
  cleanLeft : Nat
  cleanFrom : Option Nat
  lossFrom : Option Nat
  idleUntil : Option Nat
  queues : List (List QEntry)
  tx : Option TxFrame
  preempted : Option TxFrame
  leaving : List TxFrame
  deriving DecidableEq, Repr

/-- An entry of a duplicate table (R322, R326, R329): source address, sequence number, creation
instant, and the ring directions in which the frame has been forwarded. -/
structure DupEntry where
  sa : List Byte
  seq : BitVec 16
  created : Nat
  fwdEven : Bool
  fwdOdd : Bool
  deriving DecidableEq, Repr

/-- Registers and duplicate table of one pair (Table 6-16). `cnt` holds the counters at +0x208 to
+0x224 in order. -/
structure EthPair where
  seq : BitVec 16
  supSeq : BitVec 16
  dup : List DupEntry
  cnt : List (BitVec 32)
  supDue : Nat
  deriving DecidableEq, Repr

/-- A command of an access frame (Table 6-8): `preset` is the status of one that cannot execute, `dsize` the data
words of its response entry. -/
structure AccCmd where
  opcode : Byte
  words : Nat
  addr : BitVec 24
  data : List Word
  preset : Option Byte
  dsize : Nat
  deriving DecidableEq, Repr

/-- A response entry (Table 6-8). -/
structure AccEntry where
  status : Byte
  words : Nat
  addr : BitVec 24
  xbCode : Byte
  data : List Word
  deriving DecidableEq, Repr

/-- An access frame held under R354: its source address, REQ_ID and FLAGS, and whether its policer downgraded it.
`done` are the entries completed so far, `started` the time of the first command, `sent` the words of the present
card-bus WRITE that the bridge has taken, `waitTag` the bridge request a command waits for (R358) and `landed` what
it gave. -/
structure AccReq where
  src : List Byte
  reqId : BitVec 16
  flags : BitVec 16
  down : Bool
  sent : Nat
  cmds : List AccCmd
  done : List AccEntry
  started : Option Stamp
  waitTag : Option Nat
  landed : Option (Byte × List Byte)
  deriving DecidableEq, Repr

/-- HP registers and held access frames (Table 6-16, R354). -/
structure HpBlk where
  tagErr : BitVec 32
  accessDone : BitVec 32
  accessDrop : BitVec 32
  held : List AccReq
  deriving DecidableEq, Repr

/-! ### Serial channels (spec/07) -/

/-- SER_STATUS.RX_STATE (Table 7-10). -/
inductive RxSt where
  | disabled | search | idle | receiving | blinded | discarding
  deriving DecidableEq, Repr

/-- SER_STATUS.TX_STATE (Table 7-10). -/
inductive SerTxSt where
  | disabled | idle | sending | backoff | slotWait
  deriving DecidableEq, Repr

/-- A partial or complete serial message with its time-stamp (R20), age origin, first start-bit
instant on TMB_LOCAL, and whether it was framed in IDLE mode. -/
structure SerMsg where
  bytes : List Byte
  stamp : Stamp
  origin : Nat
  idle : Bool
  group : Option (Nat × Nat)
  encroached : Bool
  deriving DecidableEq, Repr

/-- A message in transmission on a channel, or waiting for a retry (R414 to R417, R423); `rest` are the further
messages of a tunnel frame that follow it (R531). -/
structure SerTx where
  msg : Nat
  bytes : List Byte
  marked : Bool
  cls : BitVec 3
  startAt : Nat
  endAt : Nat
  retries : Nat
  rest : List (List Byte)
  deriving DecidableEq, Repr

/-- One serial channel (Tables 7-10, 7-11). `div` is the divider in force in units of 1/256, `cnt` the
counters of Table 7-11 in order, `frame` the partial message (`spoiled` if an IDLE frame has met an error),
`wait` the complete message waiting
for the SE port with its completion instant. -/
structure SerChan where
  rx : RxSt
  txSt : SerTxSt
  cmdErr : Bool
  div : Nat
  locked : Bool
  errRun : Nat
  abrIndex : BitVec 3
  abrBaud : BitVec 24
  abrMeas : Word
  int : BitVec 6
  intEn : BitVec 6
  cnt : List (BitVec 32)
  lineIdle : Bool
  needIdle : Bool
  skipIdle : Bool
  lastChar : Nat
  frame : Option SerMsg
  spoiled : Bool
  wait : Option SerMsg
  txDriven : Bool
  deOn : Bool
  deUntil : Option Nat
  tx : Option SerTx
  backoff : Option Nat
  slotFrame : Option (BitVec 48 × Nat)
  txEnd : Nat
  slot : BitVec 6
  queues : List (List QEntry)
  deriving DecidableEq, Repr

/-! ### Routing table, filters, policers (spec/09, spec/10) -/

/-- Counters and live state of one hashed entry: HITS, FILTERED (Table 9-16). -/
structure RteCnt where
  idx : Nat
  hits : BitVec 32
  filtered : BitVec 32
  deriving DecidableEq, Repr

/-- State of one filter entry (R533): messages seen, and age origin and CRC-32 of the last passed. -/
structure FilterSt where
  idx : Nat
  seen : Nat
  lastAt : Option Nat
  lastCrc : Option Word
  deriving DecidableEq, Repr

/-- Credit of one policer, in ns, as of a local count (R568). -/
structure Policer where
  route : Nat
  credit : Nat
  asOf : Nat
  deriving DecidableEq, Repr

/-- An edit buffer (R547). -/
structure EditBuf where
  idx : Nat
  words : List Word
  deriving DecidableEq, Repr

/-- The RTE block: live edits as result bytes 0 to 23 by entry, the two edit buffers, entry counters,
filter state, policers and the tunnel sequence numbers. -/
structure RteBlk where
  edits : List (Nat × List Byte)
  bufSpi : Option EditBuf
  bufFrame : Option EditBuf
  cnts : List RteCnt
  filters : List FilterSt
  policers : List Policer
  tunnelSeq : List (Nat × BitVec 16)
  clsOver : List (Nat × BitVec 3)
  deriving DecidableEq, Repr

/-- Counters and accounting of one class (Table 10-11). -/
structure ClsRec where
  refused : BitVec 32
  excess : BitVec 32
  downgraded : BitVec 32
  flagFall : BitVec 32
  marked : BitVec 32
  promoted : BitVec 32
  usedRes : Nat
  usedShared : Nat
  descUsed : Nat
  deriving DecidableEq, Repr

/-- A computed bound of one egress and class (R584, R586). Egress codes as R587. -/
structure ClsBound where
  egress : Nat
  cls : Nat
  lat : Nat
  bytes : Nat
  deriving DecidableEq, Repr

/-- Queue peak of one egress and class (Table 10-11). -/
structure QPeak where
  egress : Nat
  cls : Nat
  peak : Nat
  deriving DecidableEq, Repr

/-- The CLS block (Tables 10-10, 10-11), the messages in the board, the next message number, and the
local counts from which the SE port takes its next message (R404) and AB and AL theirs (Table 10-4). -/
structure ClsBlk where
  int : BitVec 4
  intEn : BitVec 4
  unroutedCnt : BitVec 32
  lastExcess : BitVec 19
  lastFlagFall : Word
  recs : List ClsRec
  bounds : List ClsBound
  peaks : List QPeak
  msgs : List Msg
  nextMsg : Nat
  seNext : Nat
  abNext : Nat
  alNext : Nat
  abQueues : List (List QEntry)
  alQueues : List (List QEntry)
  deriving DecidableEq, Repr

end Sys2Proof.Machine
end

