-- ==== Sys2Proof/Machine/BlkMeas.lean ====
section
/-!
DEFINITION. State of the converters, the measurement publisher and the Alignment engine (spec/08).
Plain data only.
-/

namespace Sys2Proof.Machine

/-- A sample of one converter group between its instant and its availability (R439, R443). `grid` is
the PER_SECOND grid index of the comparator that produced it and the count K of its grid (R459);
`synch` is smpSynch (R461). -/
structure CnvSample where
  secs : BitVec 48
  ns : BitVec 30
  tq : BitVec 2
  synch : BitVec 2
  grid : Option (Nat × Nat)
  raw : List Int
  ovl : List Bool
  settling : Bool
  refFault : Bool
  due : Nat
  origin : Nat
  deriving DecidableEq, Repr

/-- A group mailbox (Table 8-12). -/
structure Mailbox where
  valid : Bool
  seq : BitVec 16
  secs : Word
  tq : BitVec 2
  ns : BitVec 30
  values : List Int
  flags : BitVec 16
  deriving DecidableEq, Repr

/-- Integrator of one channel (R442): output in units of 2^-32 of a raw code, the previous code and
the previous instant in ns. -/
structure Integ where
  y : Int
  prev : Int
  at_ : Option Int
  deriving DecidableEq, Repr

/-- One converter group. `settleUntil` ends the 200,000 ns of R444 on TMB_LOCAL; `lastAt` is the last
sampling instant in ns of device time (R441); `hist` the values of the last 256 available samples,
newest first, for the window engine (R615, R616). -/
structure CnvGroup where
  running : Bool
  settleUntil : Nat
  lastAt : Option Int
  waiting : List CnvSample
  box : Mailbox
  integ : List Integ
  hist : List (List Int)
  deriving DecidableEq, Repr

/-- An ASDU held by a stream until its frame is complete (R457); `wrap` is the count after which smpCnt
starts again at 0. -/
structure MuAsdu where
  smpCnt : Nat
  wrap : Nat
  synch : BitVec 2
  data : List Byte
  deriving DecidableEq, Repr

/-- A complete SV frame waiting for the MU port (R464). -/
structure MuFrame where
  bytes : List Byte
  stamp : Stamp
  origin : Nat
  smpCnt : BitVec 16
  deriving DecidableEq, Repr

/-- One published stream (Tables 8-6, 8-12): the ASDUs of the frame being filled and the frames that
wait for the MU port. -/
structure MuStream where
  active : Bool
  lastCnt : BitVec 16
  nextCnt : Nat
  held : List MuAsdu
  heldStamp : Stamp
  heldOrigin : Nat
  ready : List MuFrame
  frames : BitVec 32
  deriving DecidableEq, Repr

/-- The CNV block (Table 8-12). -/
structure CnvBlk where
  groupA : CnvGroup
  groupB : CnvGroup
  overload : BitVec 8
  refFault : Bool
  int : BitVec 3
  intEn : BitVec 3
  trigSkipCnt : BitVec 32
  overloadCnt : BitVec 32
  stream0 : MuStream
  stream1 : MuStream
  deriving DecidableEq, Repr

/-- One sample of a subscription held by the Alignment engine: its index within the second, its
instant in ns, its values and qualities, and its smpSynch. -/
structure AlnSample where
  smpCnt : Nat
  sec : Nat
  instant : Nat
  synch : BitVec 2
  usable : Bool
  values : List (Int × Nat)
  deriving DecidableEq, Repr

/-- One subscription (Table 8-13). `judged` is the index (second times rate plus count) of the last
sample whose window has been judged (R472); `out` the outputs of the last row, value and quality. -/
structure AlnSub where
  smpCnt : BitVec 16
  smpSynch : BitVec 2
  late : BitVec 32
  missing : BitVec 32
  bridged : BitVec 32
  held : List AlnSample
  judged : Option Nat
  wasValid : Bool
  out : List (Int × Nat)
  deriving DecidableEq, Repr

/-- An output row that is waiting for τ + OUT_DELAY_US (R474, R484). -/
structure AlnRow where
  secs : BitVec 48
  ns : BitVec 30
  tq : BitVec 2
  synch : BitVec 2
  origin : Nat
  due : Nat
  deriving DecidableEq, Repr

/-- The ALN block (Table 8-13). `seq` is the SEQ of the last row written. -/
structure AlnBlk where
  int : BitVec 4
  intEn : BitVec 4
  lastValid : Bool
  lastSeq : BitVec 24
  lastSlot : BitVec 6
  seq : BitVec 32
  unmatched : BitVec 32
  format : BitVec 32
  dup : BitVec 32
  subs : List AlnSub
  rows : List AlnRow
  deriving DecidableEq, Repr

end Sys2Proof.Machine
end

