-- ==== Sys2Proof/Machine/BlkArb.lean ====
section
/-!
DEFINITION. State of the Arbiter and the GOOSE engine (spec/11) and of the expansion bridge
(spec/12). Plain data only.
-/

namespace Sys2Proof.Machine

/-! ### Arbiter (spec/11) -/

/-- What one rule keeps between cycles: the local instants that TON and TOF measure from (R611), the
THRESH state, whether A was nonzero in the previous cycle, and the last V (R618). -/
structure RuleSt where
  since : Option Nat
  fell : Option Nat
  held : Bool
  prevA : Bool
  lastV : Int
  deriving DecidableEq, Repr

/-- An order for one output (R620, R626): output, value and rank. -/
structure Order where
  output : Nat
  value : Bool
  rank : Nat
  deriving DecidableEq, Repr

/-- An action that APPLY carries out: rule index, action code, P and TARGET (Table 11-6). -/
structure PendAct where
  rule : Nat
  code : Nat
  p : Nat
  target : Nat
  deriving DecidableEq, Repr

/-- A control cycle between its RESOLVE and its APPLY (Table 11-2). -/
structure ArbCycle where
  secs : BitVec 48
  ns : BitVec 30
  tq : BitVec 2
  applyAt : Nat
  outs : List Bool
  acts : List PendAct
  deriving DecidableEq, Repr

/-- A slot of the serial store (R610). `isNew` tells FIELD that the message came since the last
LATCH. -/
structure StoreSlot where
  bytes : List Byte
  len : Nat
  isNew : Bool
  deriving DecidableEq, Repr

/-- One publish block of the GOOSE engine (R640 to R645): `held` the values last published, `stamp` and
`quality` their t, `k` the retransmissions since, `due` the next one on TMB_LOCAL. -/
structure GoosePub where
  stNum : BitVec 32
  sqNum : BitVec 32
  txCnt : BitVec 32
  held : Option (List Int)
  stamp : Stamp
  quality : Byte
  k : Nat
  due : Option Nat
  deriving DecidableEq, Repr

/-- SUB_STATUS state codes (Table 11-13). -/
inductive SubSt where
  | disabled | waiting | valid | lost
  deriving DecidableEq, Repr

/-- One subscribe block. `pend` are the variable writes that wait for the next LATCH, `safe` tells
that the SAFE values wait for it (R650), `talDue` the end of timeAllowedToLive. -/
structure GooseSub where
  st : SubSt
  stNum : BitVec 32
  sqNum : BitVec 32
  rxCnt : BitVec 32
  errCnt : BitVec 32
  pend : List (Nat × Int)
  safe : Bool
  talDue : Nat
  deriving DecidableEq, Repr

/-- A card word write that waits for a posted-write entry (R598, R630). -/
structure CardWrite where
  slot : Nat
  addr : Nat
  value : BitVec 16
  deriving DecidableEq, Repr

/-- The ARB block (Table 11-13). `vars` lists the nonzero variables, `varsAtA` the same at the last A
(R607); `outs` are the 528 outputs as applied; `force` the card words to be written at the next A
whatever their image (R631); `xmsg` the XMSG bits since the last LATCH. -/
structure ArbBlk where
  int : BitVec 5
  intEn : BitVec 5
  policyErr : Bool
  cmdErr : Bool
  cycleSeq : BitVec 32
  overrunCnt : BitVec 32
  conflictCnt : BitVec 32
  storeMissCnt : BitVec 32
  gooseUnmatched : BitVec 32
  lastConflict : BitVec 18
  lastS : Word
  lastTq : BitVec 2
  lastNs : BitVec 30
  gpioIn : BitVec 16
  outs : List Bool
  fallbackWas : Bool
  force : List Nat
  results : List Bool
  vars : List (Nat × Int)
  varsAtA : List (Nat × Int)
  varQueue : List (Nat × Int)
  ordersSpi : List Order
  ordersFrame : List Order
  store : List StoreSlot
  rules : List RuleSt
  cyc : Option ArbCycle
  busyUntil : Nat
  lastTrig : Option Nat
  cardWait : List CardWrite
  xmsg : BitVec 16
  pubs : List GoosePub
  subs : List GooseSub
  deriving DecidableEq, Repr

/-- What a GPIO ball does: high impedance, driven low, driven high (R624, Table 3-5). -/
inductive PinDrive where
  | hiZ | low | high
  deriving DecidableEq, Repr

/-! ### Expansion bridge (spec/12) -/

/-- Where the data or the status of a card-bus request goes. `pickup` carries the pickup slot,
`access` is a held access frame, `scan` an item index. -/
inductive XbDest where
  | none | pickup (slot : Nat) | access | scan (item : Nat)
  | ident | announce | poll
  deriving DecidableEq, Repr

/-- One request in the bridge queue. `bytes` are the far bytes of a write in far address order, `tag`
tells that it holds one of the 16 tags, `posted` that it holds a posted-write entry; `swap` and
`quiet` come from its window, `win` is that window's index (16 for none), `joined` the local count
at which it joined the queue (R674). -/
structure XbReq where
  id : Nat
  who : BitVec 4
  slot : Nat
  addr : Nat
  len : Nat
  write : Bool
  posted : Bool
  tag : Bool
  bytes : List Byte
  dest : XbDest
  win : Nat
  winEnd : Nat
  quiet : Bool
  swap : BitVec 2
  joined : Nat
  deriving DecidableEq, Repr

/-- The request the card bus serves: the bursts still to come (far address, length, whether it is a
prefetch burst), the burst in transfer if the bus is not idle, and the far bytes read so far. -/
structure XbCur where
  req : XbReq
  todo : List (Nat × Nat × Bool)
  burst : Option (Nat × Nat × Bool)
  got : List Byte
  pre : List Byte
  deriving DecidableEq, Repr

/-- A prefetch buffer (R689). -/
structure XbBuf where
  slot : Nat
  win : Nat
  addr : Nat
  bytes : List Byte
  filledAt : Nat
  deriving DecidableEq, Repr

/-- An entry of the posted-write error log (R695). -/
structure XbWerr where
  who : BitVec 4
  slot : BitVec 3
  code : BitVec 8
  addr : BitVec 24
  deriving DecidableEq, Repr

/-- XB_SLOTs_STATUS.STATE (Table 12-8). -/
inductive SlotSt where
  | absent | queued | enumerating | present | idErr
  deriving DecidableEq, Repr

/-- The announce in progress of a slot (R703 to R707): the instant of its assertion and of the one
further assertion remembered. -/
structure XbAnnounce where
  instant : Stamp
  origin : Nat
  more : Option (Stamp × Nat)
  deriving DecidableEq, Repr

/-- One card slot (Table 12-14). `prs` and `intLow` are the levels sampled now, `prsDeb` the
debounced level; `pollPrev` tells that the previous poll gave a nonzero value. -/
structure XbSlot where
  st : SlotSt
  prs : Bool
  prsDeb : Bool
  intLow : Bool
  ids : List Word
  intCnt : BitVec 32
  errCnt : BitVec 32
  timeoutCnt : BitVec 32
  msgSeq : BitVec 16
  ann : Option XbAnnounce
  pollPrev : Bool
  pollDue : Nat
  deriving DecidableEq, Repr

/-- A scan in progress: items still to be queued, items outstanding, and error bits so far. -/
structure XbScan where
  left : List Nat
  open_ : Nat
  err : BitVec 64
  deriving DecidableEq, Repr

/-- The XB block (Table 12-14). `gather` is the open entry of an SPI WRITE (R680), `enumOrder` the
QUEUED slots in debounce order (R712), `fallbackDue` the slots whose fallback entries wait for them to
become PRESENT (R793), `fallbackWait` fallback writes that wait for a posted-write entry, `frozenAt` the
local count at which ADJOURN stopped the bridge (R720). -/
structure XbBlk where
  int : BitVec 7
  intEn : BitVec 7
  cmdErr : Bool
  orphanUs : BitVec 16
  orphanCnt : BitVec 32
  scan : Option XbScan
  scanSeq : BitVec 16
  scanErr : BitVec 64
  scanOverrun : BitVec 32
  werr : List XbWerr
  werrAddr : BitVec 24
  werrOvf : Bool
  queue : List XbReq
  cur : Option XbCur
  gather : Option XbReq
  nextId : Nat
  bufs : List XbBuf
  slots : List XbSlot
  enumOrder : List Nat
  fallbackDue : List Nat
  fallbackWait : List CardWrite
  frozenAt : Option Nat
  deriving DecidableEq, Repr

end Sys2Proof.Machine
end

