-- ==== Sys2Proof/Machine/ResetVals.lean ====
section
/-!
DEFINITION. The value of every block right after a power-on reset: what the register tables of spec/
give, and for state the spec gives no value, the value the assumption log names (entry 3).
-/

namespace Sys2Proof.Machine

def EvtBlk.reset : EvtBlk :=
  { pend := 0, pendEn := 0, headLap := 1, headIdx := 0, wrapped := false, ovf := false,
    dropCnt := 0, kingLostCnt := 0, last := 0, queue := [] }

def GlbBlk.reset : GlbBlk := { mgtInt := 0, mgtIntEn := 0, intaMask := 0x7FFF, intbMask := 0x7FFF }

def TxOutcome.zero : TxOutcome :=
  { opcode := 0, words := 0, denied := false, wdogAbort := false, cmdReject := false,
    addrErr := false, crcErr := false, writeLost := false, notReady := false, lostAddr := 0 }

def PickSlot.empty : PickSlot :=
  { st := .empty, seq := 0, code := 0, len := 0, data := [], deadline := none }

def MgtBlk.reset : MgtBlk :=
  { wdogEn := true, crcEn := false, wdogTimeout := 1000, crcErrCnt := 0, notReadyCnt := 0,
    status := .zero, last := .zero, openTx := none, pick := List.replicate 4 .empty, pickSeq := 0,
    miso := [] }

def PosBank.empty : PosBank := { image := [], digest := [], ue := false }

def PosBlk.reset : PosBlk :=
  { bankA := .empty, bankB := .empty, stage := .empty, activeBank := false, active := false,
    running := false, fallbackApplied := false, restartPending := false, cmdErr := false,
    seqErr := false, hitlessOk := false, errCode := 0, errSection := 0, errDetail := 0,
    errOffset := 0, loadOffset := 0, commitS := 0, commitNs := 0, refusedCnt := 0, tables := [],
    shadow := [], fallback := none, opening := false, awaitFirstCycle := false }

def bankPlaceZero : BankPlace := { bank := 0, row := 0, word := 0 }

def SpareRec.none : SpareRec := { rowA := .none, rowB := .none, badA := false, badB := false }

def MemBlk.reset : MemBlk :=
  { shared := [], int := 0, intEn := 0, retChecked := false, retEcc := false,
    retCrcMismatch := false, retLatchClear := false, retStatus := .checking, retCrc := 0,
    retLatch := false, latchSample := false, sweepBank := 0, sweepRow := 0,
    sweepNext := { bank := 0, row := 0 }, sweepCount := 0, sweepDue := 0, lostCnt := 0, lostAddrA := 0,
    ceCnt := 0, ceAddr := bankPlaceZero, ueCnt := 0, ueAddr := bankPlaceZero, transientCnt := 0, starveCnt := 0,
    spares := List.replicate 37 .none, suspects := [], marks := [], retiredCells := [],
    retiredDescs := [], portA := [] }

def WakeReg.none : WakeReg := { causes := 0, first := 0xF, at_ := 0 }

def PwrBlk.reset : PwrBlk :=
  { boot := .unpowered, mainGood := false, vbakPowered := false, vbakOk := false,
    pwrFailLow := false, resetLow := false, bootSrc := .powerOn, restEntered := false, endgame := false,
    ladder := .play, phase := .steady, target := none, pnr := none, reg := .none,
    since := 0, reqErr := false, int := 0, intEn := 0, wakeEn := 3, wakeFrom := 0,
    wakeFirst := 0xF, wakeAfterPnr := false, wakeTakeback := false, wakeCauses := 0, wakePorts := 0,
    wakeSlots := 0, wakeGpio := 0, wakeSer := 0 }

def strapsZero : Straps := { mode0 := false, mode1 := false, mode2 := false }

def ThermBlk.reset : ThermBlk :=
  { resetCause := 1, tjMax := 0x8000, tjNow := 0, thermal := false, coolSince := none,
    recValid := false, recSlot := 0, recSeq := 0, recLast := 0, lastExit := 0, discardCnt := 0, takebackCnt := 0,
    relMs := 1000, deepest := 3, entry := 1, sealCrc := 0, straps := strapsZero }

def OtpUnit.blank : OtpUnit := { st := .blank, data := 0, scar := false }

/-- Units 0 and 1 are LOCKED at shipment with the device ID, whose value is the part's own; the model's
is zero (Table 15-2, log entry 3). -/
def OtpUnit.shipped : OtpUnit := { st := .locked, data := 0, scar := false }

def SecBlk.reset : SecBlk :=
  { otp := [.shipped, .shipped] ++ List.replicate 222 .blank, run := none, testMode := false, result := 0, otpAddr := 0,
    otpData := 0, token := List.replicate 36 0, int := 0, intEn := 0, abortedPending := false,
    scarBurnDone := false }

/-- Is a cell of the boundary register an output cell (Table 17-7, R918, R920)? -/
def outputCell (i : Nat) : Bool :=
  if i < 32 then i % 2 == 0
  else if i < 56 then (i - 32) % 3 == 1
  else if i < 80 then false
  else if i < 112 then i % 2 == 0
  else if i < 160 then (i - 112) % 3 == 1
  else if i < 184 then i % 2 == 0
  else if i < 202 then false
  else if i < 250 then (i - 202) % 3 == 1
  else if i < 258 then false
  else if i < 266 then i % 2 == 0
  else if i < 273 then false
  else if i < 285 then (i - 273) % 2 == 0
  else if i < 294 then false
  else if i < 318 then i % 2 == 0
  else false

/-- After test-logic reset and after any power-on every output cell holds 1 and every control cell 0 (R922);
an input cell has no update stage, and the model holds 0 for it. -/
def JtagBlk.reset : JtagBlk :=
  { instr := .idcode, cells := (List.range 328).map outputCell, captured := [], dr := [] }

/-- The nominal addend: exactly 4.0 ns (R176). -/
def nominalAddend : BitVec 64 := 0x400000000

def Cmp.reset : Cmp :=
  { locked := false, line := 0, action := 0, mode := 0, wakeEn := false, armed := false,
    missed := 0, resync := false, past := false, late := false, targetS := 0, targetNs := 0,
    period := 0, liveS := 0, liveNs := 0, fresh := false, lateDue := false }

def Ppso.reset : Ppso :=
  { widthUs := 100000, qualify := false, polarity := false, driven := false, pulse := none }

def Cap.reset : Cap := { edge := 0, fifo := [], sec := 0, ovf := false }

def PpsLoop.reset : PpsLoop :=
  { windowUs := 10, tau := 2, input := 0, reject := 0, good := 0, st := 0, err := 0, rate := 0,
    integ := 0, goodLock := 0, bad := 0, lastAt := 0, secLoad := none }

def Snap.reset : Snap := { secs := 0, ns := 0, frac := 0, localCnt := 0 }

def TmbBlk.reset : TmbBlk :=
  { secs := 0, ns := 0, frac := 0, sub := 0, addend := nominalAddend, localCnt := 0, slew := none,
    owner := 0, holdover := false, lockWrite := false, cmdErr := false, clamped := false,
    snap := .reset, setS := 0, setNs := 0, stepS := 0, stepNs := 0, slewNs := 0, slewRate := 10,
    rate := nominalAddend, carries := [], pps := .reset, ppso := List.replicate 4 .reset, fired := 0,
    cmpIntEn := 0, capIntEn := 0, cmps := List.replicate 16 .reset,
    caps := List.replicate 8 .reset }

def GmData.zero : GmData :=
  { prio1 := 0, clockClass := 0, accuracy := 0, variance := 0, prio2 := 0, gmId := 0,
    stepsRemoved := 0, utcOffset := 0, timeSource := 0, flags := 0, tti := 0xFFFFFFFF }

def PdelayBlk.reset : PdelayBlk :=
  { seq := 0, t1 := none, t2 := none, t4 := none, corr := 0, awaiting := false, delays := [],
    lastT3 := none, timeouts := 0, excluded := false }

def PortDom.reset : PortDom :=
  { state := 3, since := 0, foreign := [], pdelay := .reset, syncWait := none, syncSeq := 0, annSeq := 0 }

def PtpPort.reset : PtpPort :=
  { enabled := false, oneStep := false, dom0 := .reset, dom1 := .reset, nrr := 0, asymPs := 0,
    ingressPs := 0, egressPs := 0, txts := [], txtsSec := 0, txtsTag := 0, txtsOvf := false,
    pdelayTo := 0 }

def PtpDom.reset : PtpDom :=
  { number := 0, logSync := 0, logAnnounce := 0, annTimeout := 0, servo := 0,
    tau := 0, ofsDev := [], ofm := 0, integ := 0, rate := 0, good := 0, fine := 0, lockRun := 0,
    outliers := 0, gm := .zero, parent := none, master := 0, lastSync := 0, lastAnnounce := 0,
    model := none, discard := 0 }

def PtpBlk.reset : PtpBlk :=
  { role := 0, profile := false, secEn := false, cmdErr := false, castleSt := .idle,
    activeDom := false, holdover := false, timeSet := false, autoCastle := true, autoPolicy := 0,
    slewPpm := 10, windowNs := 200, castleCnt := 0, blockedCnt := 0, ignored := false,
    castleLast := 0, decisionThisCycle := none, hostTq := 0, grace := 5, graceEnd := none,
    heldSync := 0, lostAt := none, cand := false, resid := [], d0 := .reset, d1 := .reset,
    ports := List.replicate 8 .reset }

def EthPort.reset : EthPort :=
  { fwd := .disabled, link := false, speed100 := false, anDone := false, rf := false, fef := false,
    unsupported := false, verify := .disabled, verifyTries := 0, verifyDue := none, mpackets := [],
    cmdErr := false, resignCnt := 0, cause := 0xF, int := 0, intEn := 0, cnt := List.replicate 16 0,
    runs := List.replicate 8 0, windowEnd := 0, cleanLeft := 0, cleanFrom := none,
    lossFrom := none, idleUntil := none, queues := List.replicate 6 [], tx := none,
    preempted := none, leaving := [] }

def EthPair.reset : EthPair :=
  { seq := 0, supSeq := 0, dup := [], cnt := List.replicate 8 0, supDue := 0 }

def HpBlk.reset : HpBlk := { tagErr := 0, accessDone := 0, accessDrop := 0, held := [] }

def SerChan.reset : SerChan :=
  { rx := .disabled, txSt := .disabled, cmdErr := false, div := 0, locked := false, errRun := 0,
    abrIndex := 0, abrBaud := 0, abrMeas := 0, int := 0, intEn := 0,
    cnt := List.replicate 19 0, lineIdle := true, needIdle := false,
    skipIdle := false, lastChar := 0, frame := none, spoiled := false, wait := none,
    txDriven := false, deOn := false, deUntil := none, tx := none, backoff := none,
    slotFrame := none, txEnd := 0, slot := 0,
    queues := List.replicate 6 [] }

def RteBlk.reset : RteBlk :=
  { edits := [], bufSpi := none, bufFrame := none, cnts := [], filters := [], policers := [],
    tunnelSeq := [], clsOver := [] }

def ClsRec.reset : ClsRec :=
  { refused := 0, excess := 0, downgraded := 0, flagFall := 0, marked := 0, promoted := 0,
    usedRes := 0, usedShared := 0, descUsed := 0 }

def ClsBlk.reset : ClsBlk :=
  { int := 0, intEn := 0, unroutedCnt := 0, lastExcess := 0, lastFlagFall := 0,
    recs := List.replicate 6 .reset, bounds := [], peaks := [], msgs := [],
    nextMsg := 0, seNext := 0, abNext := 0, alNext := 0, abQueues := List.replicate 6 [], alQueues := List.replicate 6 [] }

def Mailbox.reset : Mailbox :=
  { valid := false, seq := 0, secs := 0, tq := 0, ns := 0, values := [0, 0, 0, 0], flags := 0 }

def Integ.reset : Integ := { y := 0, prev := 0, at_ := none }

def CnvGroup.reset : CnvGroup :=
  { running := false, settleUntil := 0, lastAt := none, waiting := [], box := .reset,
    integ := List.replicate 4 .reset, hist := [] }

def Stamp.zero : Stamp := { secs := 0, ns := 0, tq := 0 }

def MuStream.reset : MuStream :=
  { active := false, lastCnt := 0, nextCnt := 0, held := [], heldStamp := .zero, heldOrigin := 0,
    ready := [], frames := 0 }

def CnvBlk.reset : CnvBlk :=
  { groupA := .reset, groupB := .reset, overload := 0, refFault := false, int := 0,
    intEn := 0, trigSkipCnt := 0, overloadCnt := 0, stream0 := .reset, stream1 := .reset }

def AlnSub.reset : AlnSub :=
  { smpCnt := 0, smpSynch := 0, late := 0, missing := 0, bridged := 0, held := [], judged := none,
    wasValid := false, out := [] }

def AlnBlk.reset : AlnBlk :=
  { int := 0, intEn := 0, lastValid := false, lastSeq := 0, lastSlot := 0, seq := 0,
    unmatched := 0, format := 0, dup := 0, subs := List.replicate 16 .reset, rows := [] }

def RuleSt.reset : RuleSt :=
  { since := none, fell := none, held := false, prevA := false, lastV := 0 }

def GoosePub.reset : GoosePub :=
  { stNum := 0, sqNum := 0, txCnt := 0, held := none, stamp := .zero, quality := 0, k := 0, due := none }

def GooseSub.reset : GooseSub :=
  { st := .disabled, stNum := 0, sqNum := 0, rxCnt := 0, errCnt := 0, pend := [], safe := false,
    talDue := 0 }

def ArbBlk.reset : ArbBlk :=
  { int := 0, intEn := 0, policyErr := false, cmdErr := false, cycleSeq := 0, overrunCnt := 0,
    conflictCnt := 0, storeMissCnt := 0, gooseUnmatched := 0, lastConflict := 0, lastS := 0,
    lastTq := 0, lastNs := 0, gpioIn := 0, outs := List.replicate 528 false, fallbackWas := false,
    force := [], results := [], vars := [], varsAtA := [], varQueue := [], ordersSpi := [],
    ordersFrame := [], store := [], rules := [], cyc := none, busyUntil := 0, lastTrig := none,
    cardWait := [], xmsg := 0, pubs := List.replicate 32 .reset,
    subs := List.replicate 128 .reset }

def XbSlot.reset : XbSlot :=
  { st := .absent, prs := false, prsDeb := false, intLow := false,
    ids := List.replicate 8 0, intCnt := 0, errCnt := 0, timeoutCnt := 0, msgSeq := 0, ann := none,
    pollPrev := false, pollDue := 0 }

def XbBlk.reset : XbBlk :=
  { int := 0, intEn := 0, cmdErr := false, orphanUs := 1000, orphanCnt := 0, scan := none,
    scanSeq := 0, scanErr := 0, scanOverrun := 0, werr := [], werrAddr := 0, werrOvf := false,
    queue := [], cur := none, gather := none, nextId := 0, bufs := [],
    slots := List.replicate 8 .reset, enumOrder := [], fallbackDue := [], fallbackWait := [],
    frozenAt := none }

end Sys2Proof.Machine
end

