-- ==== Sys2Proof/Machine/State.lean ====
section
/-!
DEFINITION. The state of the FNX-824: every block's registers, queues and buffers, the balls the
device drives, the counter of free values and the queue of commands that wait; and the ways a step
can stop. Plain data.
-/

namespace Sys2Proof.Machine

structure State where
  /-- The commands that wait, first in, first out. -/
  pending : List Instr
  /-- The model's own counter of free values drawn so far (log entry 5). -/
  free : Nat
  glb : GlbBlk
  mgt : MgtBlk
  pos : PosBlk
  tmb : TmbBlk
  ptp : PtpBlk
  /-- P0 to P7 and HP. -/
  eth : List EthPort
  pairs : List EthPair
  hp : HpBlk
  ser : List SerChan
  cnv : CnvBlk
  aln : AlnBlk
  rte : RteBlk
  cls : ClsBlk
  arb : ArbBlk
  /-- What each GPIO ball does (R624). -/
  gpio : List PinDrive
  xb : XbBlk
  mem : MemBlk
  pwr : PwrBlk
  therm : ThermBlk
  sec : SecBlk
  evt : EvtBlk
  jtag : JtagBlk
  deriving DecidableEq, Repr

/-- Faults of a step. No command of the FNX-824 raises one: every command of the table has an effect
in every state (log entry 2). The constructor stands for a machine whose memory list has lost its
canonical form, which no step reaches; nothing raises it. Safe. -/
inductive Fault where
  | badMemory
  deriving DecidableEq, Repr

/-- Refusals of a step. `notModelled` is raised by an arm of Dispatch.lean whose command has no
meaning yet, by name. Safe. -/
inductive Refusal where
  | notModelled (mnemonic : String)
  deriving DecidableEq, Repr

/-- The device with its supplies off and every register at the value a power-on reset gives it. -/
def State.reset : State :=
  { pending := [], free := 0, glb := .reset, mgt := .reset, pos := .reset, tmb := .reset,
    ptp := .reset, eth := List.replicate 9 .reset, pairs := List.replicate 4 .reset, hp := .reset,
    ser := List.replicate 24 .reset, cnv := .reset, aln := .reset, rte := .reset, cls := .reset,
    arb := .reset, gpio := List.replicate 16 .hiZ, xb := .reset, mem := .reset, pwr := .reset,
    therm := .reset, sec := .reset, evt := .reset, jtag := .reset }

end Sys2Proof.Machine
end

