-- ==== Sys2Proof/Machine/Ops.lean ====
section
/-!
DEFINITION. The named operations every family shares: the shared region's bytes, device time and the
time-quality code, deadlines on TMB_LOCAL, free values, the state of the ladder, and raising an
event (spec/16).
-/

namespace Sys2Proof.Machine

/-! ### The shared region (R740 to R745, R757) -/

/-- Bytes of the shared region: strictly rising offsets, no entry equal to zero. -/
abbrev Memory := List Host.Cell

/-- The byte at an offset; what nothing lists reads as zero (R757, R777; log entry 4). -/
def Memory.get : Memory → Nat → Byte
  | [], _ => 0
  | (b, v) :: m, a => if a = b then v else Memory.get m a

/-- Stores one byte, keeping the canonical form. -/
def Memory.put : Memory → Nat → Byte → Memory
  | [], a, v => if v = 0 then [] else [(a, v)]
  | (b, w) :: m, a, v =>
    if a < b then (if v = 0 then (b, w) :: m else (a, v) :: (b, w) :: m)
    else if a = b then (if v = 0 then m else (a, v) :: m)
    else (b, w) :: Memory.put m a v

/-- The canonical form, from a lower limit on. -/
def Memory.wfFrom : Nat → Memory → Bool
  | _, [] => true
  | n, (a, v) :: m => decide (n ≤ a) && decide (v ≠ 0) && Memory.wfFrom (a + 1) m

/-- The canonical form of the shared region. -/
def Memory.wf (m : Memory) : Bool := Memory.wfFrom 0 m

/-- Stores bytes at ascending offsets. -/
def Memory.putAll : Memory → Nat → List Byte → Memory
  | m, _, [] => m
  | m, a, v :: vs => Memory.putAll (Memory.put m a v) (a + 1) vs

/-- Reads `n` bytes at ascending offsets. -/
def Memory.getAll (m : Memory) (a : Nat) : Nat → List Byte
  | 0 => []
  | n + 1 => Memory.get m a :: Memory.getAll m (a + 1) n

/-- Size of the shared region in bytes (Table 13-1). -/
def sharedSize : Nat := 131072

/-- Stores bytes into the shared region. -/
def sharedPut (a : Nat) (bs : List Byte) (s : State) : State :=
  { s with mem := { s.mem with shared := Memory.putAll s.mem.shared a bs } }

/-- Reads `n` bytes of the shared region. -/
def sharedGet (a n : Nat) (s : State) : List Byte := Memory.getAll s.mem.shared a n

/-- A write through port A, kept beside the bytes it replaced so that a port-B access of the same core
cycle can be judged against it (R746 to R753). -/
def portAWrite (a : Nat) (bs : List Byte) (atomic : Bool) (entry : Option Nat) (s : State) : State :=
  let old := sharedGet a bs.length s
  let s1 := sharedPut a bs s
  { s1 with mem := { s1.mem with
    portA := s.mem.portA ++ [{ offset := a, old, new := bs, atomic, entry }] } }

/-- A command that writes through port A starts its record afresh. -/
def portABegin (s : State) : State := { s with mem := { s.mem with portA := [] } }

/-! ### Free values -/

/-- Advances the counter of free values. -/
def drawn (s : State) : State := { s with free := s.free + 1 }

/-! ### Device time (spec/04) -/

/-- Nanoseconds of device time since second 0. -/
def devNs (s : State) : Nat := s.tmb.secs.toNat * 1000000000 + s.tmb.ns.toNat

/-- TMB_LOCAL as a number of core cycles. -/
def localNow (s : State) : Nat := s.tmb.localCnt.toNat

/-- A span in ns as core cycles of 4 ns, rounded up. -/
def cyclesOf (ns : Nat) : Nat := (ns + 3) / 4

/-- A deadline on TMB_LOCAL has passed. -/
def due (d : Nat) (s : State) : Bool := decide (d ≤ localNow s)

/-- An optional deadline has been set and has passed. -/
def dueOpt (d : Option Nat) (s : State) : Bool :=
  match d with
  | some t => due t s
  | none => false

/-- Is a servo state LOCKED or TRACK (R285)? -/
def servoGood (st : BitVec 3) : Bool := st == 2 || st == 3

/-- The active domain of the Timekeeper. -/
def activeDomain (s : State) : PtpDom := if s.ptp.activeDom then s.ptp.d1 else s.ptp.d0

/-- W: WINDOW_NS held within 10 to 10,000 ns (Table 5-10). -/
def castleWindow (s : State) : Nat := max 10 (min 10000 s.ptp.windowNs.toNat)

/-- A slew started by a SLEW decision still has more than W to apply (R287). -/
def decidedSlewOpen (s : State) : Bool :=
  s.ptp.castleSt == .decidedSlew &&
    (match s.tmb.slew with
     | some w => decide (w.remain > castleWindow s * 1000000 * 4294967296)
     | none => false)

/-- The time-quality code in force (R285 to R288). -/
def tqNow (s : State) : BitVec 2 :=
  if s.tmb.owner == 0 then s.ptp.hostTq
  else if s.tmb.owner == 2 then
    (if s.tmb.pps.st == 2 then 2 else if s.tmb.pps.st == 3 then 3 else 0)
  else if decidedSlewOpen s then 0
  else if s.ptp.holdover then
    (match s.ptp.graceEnd with
     | some e => if due e s then 0 else 3
     | none => 3)
  else if servoGood (activeDomain s).servo then
    (if (activeDomain s).gm.flags.getLsbD 2 then 2 else 1)
  else 0

/-- smpSynch of a time-quality code (Table 5-6). -/
def smpSynchOf (tq : BitVec 2) (s : State) : BitVec 2 := if tq == 3 then s.ptp.heldSync else tq

/-- Device time and its quality, as a message's time-stamp (R21, R289). -/
def stampNow (s : State) : Stamp := { secs := s.tmb.secs, ns := s.tmb.ns, tq := tqNow s }

/-- The stamp of an instant `age` ns before device time. -/
def stampAgo (age : Nat) (s : State) : Stamp :=
  let t := (s.tmb.secs.toNat + 2 ^ 48) * 1000000000 + s.tmb.ns.toNat - age
  { secs := BitVec.ofNat 48 (t / 1000000000), ns := BitVec.ofNat 30 (t % 1000000000), tq := tqNow s }

/-- Absolute ns of a stamp. -/
def Stamp.absNs (t : Stamp) : Nat := t.secs.toNat * 1000000000 + t.ns.toNat

/-- TQ in bits 31:30 and nanoseconds in bits 29:0, the layout of every such word. -/
def tqNsWord (tq : BitVec 2) (ns : BitVec 30) : Nat := tq.toNat * 2 ^ 30 + ns.toNat

/-! ### The ladder (spec/14) -/

/-- The core accepts register access: READY is set and no endgame runs (R788, R821). -/
def coreUp (s : State) : Bool := s.pwr.boot == .ready && !s.pwr.endgame

/-- The device is in PLAY with no entry or exit in progress. -/
def inPlay (s : State) : Bool := coreUp s && s.pwr.ladder == .play && s.pwr.phase == .steady

/-- The fabric clocks run: PLAY, also while an entry out of PLAY is still in its first steps. -/
def fabricRuns (s : State) : Bool := coreUp s && s.pwr.ladder == .play && s.pwr.phase != .exiting

/-- A Position runs and the fabric with it. -/
def boardRuns (s : State) : Bool := inPlay s && s.pos.running

/-- Core registers and the shared region answer: READY, in PLAY or HOLD, with no exit in progress and no
point of no return of a lower state passed (R64, R788, R805). -/
def coreAnswers (s : State) : Bool :=
  coreUp s && (s.pwr.ladder == .play || s.pwr.ladder == .hold) && s.pwr.phase != .exiting && s.pwr.pnr.isNone

/-- Register commands of the core act only while it answers. -/
def ifCore (f : State → State) (s : State) : State := if coreAnswers s then f s else s

/-! ### Events (spec/16) -/

/-- Event codes of Table 16-3. -/
def Ev.code : Ev → BitVec 16
  | .mgtWdog => 0x0001
  | .posRefused => 0x0101
  | .posCommit => 0x0102
  | .tmbPast => 0x0201
  | .tmbCapOvf => 0x0202
  | .holdover => 0x0203
  | .ptpMasterLost => 0x0301
  | .castle => 0x0302
  | .castleBlocked => 0x0303
  | .ptpTxtsOvf => 0x0304
  | .ethLink => 0x0401
  | .portResign => 0x0402
  | .portReinstate => 0x0403
  | .ethVerifyFail => 0x0404
  | .ethAccessDrop => 0x0405
  | .kingLost => 0x0406
  | .serAutobaud => 0x0501
  | .serBlind => 0x0502
  | .serCollide => 0x0503
  | .serTxDrop => 0x0504
  | .serEncroach => 0x0505
  | .serOverrun => 0x0506
  | .cnvOverload => 0x0601
  | .cnvTrigSkip => 0x0602
  | .cnvRefFault => 0x0603
  | .alnLate => 0x0701
  | .alnInvalid => 0x0702
  | .rteUnrouted => 0x0801
  | .rteCsumFail => 0x0802
  | .bufRefuse => 0x0901
  | .admitExcess => 0x0902
  | .flagFall => 0x0903
  | .promote => 0x0904
  | .arbOverrun => 0x0A01
  | .arbConflict => 0x0A02
  | .arbUser => 0x0A03
  | .arbGooseLost => 0x0A04
  | .xbSlotIn => 0x0B01
  | .xbSlotOut => 0x0B02
  | .xbWerr => 0x0B03
  | .xbOrphan => 0x0B04
  | .memLost => 0x0C01
  | .memRepair => 0x0C02
  | .memUnrepairable => 0x0C03
  | .memEccUe => 0x0C04
  | .memRetVoid => 0x0C05
  | .pwrFail => 0x0D01
  | .wake => 0x0D02
  | .thermal => 0x0D03
  | .thermalClear => 0x0D04
  | .otpScarred => 0x0E01

/-- Is the event logged at its first occurrence only (R882, Table 16-3)? -/
def Ev.firstOnly : Ev → Bool
  | .tmbCapOvf | .ptpTxtsOvf | .ethAccessDrop | .serCollide | .serEncroach | .serOverrun
  | .cnvTrigSkip | .alnLate | .rteUnrouted | .rteCsumFail | .bufRefuse | .admitExcess
  | .flagFall | .promote | .arbOverrun => true
  | _ => false

/-- Where the pending bit of an event lies (Table 16-3). -/
inductive PendAt where
  | mgt (b : Nat) | pend (b : Nat) | eth (b : Nat) | ser (b : Nat) | cnv (b : Nat) | aln (b : Nat)
  | cls (b : Nat) | arb (b : Nat) | xb (b : Nat) | mem (b : Nat) | pwr (b : Nat) | sec (b : Nat)
  | none
  deriving DecidableEq, Repr

/-- Pending bit of each event (Table 16-3; bit numbers from the blocks' register tables). -/
def Ev.pendAt : Ev → PendAt
  | .mgtWdog => .mgt 1
  | .posRefused => .pend 0
  | .posCommit => .pend 1
  | .tmbPast => .pend 2
  | .tmbCapOvf => .pend 3
  | .holdover => .pend 4
  | .ptpMasterLost => .pend 5
  | .castle => .pend 6
  | .castleBlocked => .pend 7
  | .ptpTxtsOvf => .pend 8
  | .ethLink => .eth 0
  | .portResign => .eth 1
  | .portReinstate => .eth 2
  | .ethVerifyFail => .eth 3
  | .kingLost => .eth 4
  | .ethAccessDrop => .eth 6
  | .serAutobaud => .ser 0
  | .serBlind => .ser 1
  | .serCollide => .ser 2
  | .serTxDrop => .ser 3
  | .serEncroach => .ser 4
  | .serOverrun => .ser 5
  | .cnvOverload => .cnv 0
  | .cnvRefFault => .cnv 1
  | .cnvTrigSkip => .cnv 2
  | .alnLate => .aln 0
  | .alnInvalid => .aln 1
  | .rteUnrouted => .pend 9
  | .rteCsumFail => .pend 10
  | .bufRefuse => .cls 0
  | .admitExcess => .cls 1
  | .flagFall => .cls 2
  | .promote => .cls 3
  | .arbOverrun => .arb 0
  | .arbConflict => .arb 1
  | .arbUser => .arb 2
  | .arbGooseLost => .arb 3
  | .xbSlotIn => .xb 0
  | .xbSlotOut => .xb 1
  | .xbWerr => .xb 2
  | .xbOrphan => .xb 3
  | .memLost => .mem 1
  | .memRepair => .mem 2
  | .memUnrepairable => .mem 3
  | .memEccUe => .mem 5
  | .memRetVoid => .mem 4
  | .pwrFail => .none
  | .wake => .pwr 0
  | .thermal => .pwr 2
  | .thermalClear => .pwr 3
  | .otpScarred => .sec 1

/-- Is a pending bit set? `u` is the port or channel whose register holds it. -/
def pendSet (p : PendAt) (u : Nat) (s : State) : Bool :=
  match p with
  | .mgt b => s.glb.mgtInt.getLsbD b
  | .pend b => s.evt.pend.getLsbD b
  | .eth b => (nth .reset s.eth u).int.getLsbD b
  | .ser b => (nth .reset s.ser u).int.getLsbD b
  | .cnv b => s.cnv.int.getLsbD b
  | .aln b => s.aln.int.getLsbD b
  | .cls b => s.cls.int.getLsbD b
  | .arb b => s.arb.int.getLsbD b
  | .xb b => s.xb.int.getLsbD b
  | .mem b => s.mem.int.getLsbD b
  | .pwr b => s.pwr.int.getLsbD b
  | .sec b => s.sec.int.getLsbD b
  | .none => false

/-- Sets a pending bit. -/
def setPend (p : PendAt) (u : Nat) (s : State) : State :=
  match p with
  | .mgt b => { s with glb := { s.glb with mgtInt := setBit s.glb.mgtInt b } }
  | .pend b => { s with evt := { s.evt with pend := setBit s.evt.pend b } }
  | .eth b => { s with eth := upd (fun e => { e with int := setBit e.int b }) s.eth u }
  | .ser b => { s with ser := upd (fun c => { c with int := setBit c.int b }) s.ser u }
  | .cnv b => { s with cnv := { s.cnv with int := setBit s.cnv.int b } }
  | .aln b => { s with aln := { s.aln with int := setBit s.aln.int b } }
  | .cls b => { s with cls := { s.cls with int := setBit s.cls.int b } }
  | .arb b => { s with arb := { s.arb with int := setBit s.arb.int b } }
  | .xb b => { s with xb := { s.xb with int := setBit s.xb.int b } }
  | .mem b => { s with mem := { s.mem with int := setBit s.mem.int b } }
  | .pwr b => { s with pwr := { s.pwr with int := setBit s.pwr.int b } }
  | .sec b => { s with sec := { s.sec with int := setBit s.sec.int b } }
  | .none => s

/-- Places an entry in the event queue; a full queue drops its oldest entry (R891, R892). -/
def queueEvt (code : BitVec 16) (src : BitVec 8) (datum : Word) (s : State) : State :=
  let e : EvEntry :=
    { secs := s.tmb.secs.setWidth 32, tq := tqNow s, ns := s.tmb.ns, code, source := src, datum }
  if s.evt.queue.length < 64 then { s with evt := { s.evt with queue := s.evt.queue ++ [e] } }
  else { s with evt := { s.evt with
      queue := s.evt.queue.drop 1 ++ [e], ovf := true, dropCnt := satInc s.evt.dropCnt } }

/-- Raises an event of unit `u` (a port or channel; 0 elsewhere): its pending bit is set, and it is
queued for the log at every occurrence, or only when the bit was clear (R881, R882). The counters
that the event's chapter names are moved by the rule that raises it. -/
def raiseAt (e : Ev) (u : Nat) (datum : Word) (s : State) : State :=
  if e.firstOnly && pendSet e.pendAt u s then setPend e.pendAt u s
  else queueEvt e.code ((e.code >>> 8).setWidth 8) datum (setPend e.pendAt u s)

/-- Raises an event of a block with one set of registers. -/
def raise (e : Ev) (datum : Word) (s : State) : State := raiseAt e 0 datum s

/-- Sets ETH_INT.KING_LOST of the listed ports (R885). -/
def markKingPorts : List Nat → State → State
  | [], s => s
  | p :: ps, s => markKingPorts ps (setPend (.eth 4) p s)

/-- Raises EVT_KING_LOST (R885, R886): `src` the block that raised it, `cause` as Table 16-3, `ports`
those of P0 to P7 and HP the message was queued on, `lead` the port of the datum. -/
def raiseKingLost (src : BitVec 8) (cause : Nat) (ports : List Nat) (lead route : Nat) (s : State) :
    State :=
  let s1 := markKingPorts (if ports.isEmpty then [8] else ports) s
  let s2 := queueEvt 0x0406 src (BitVec.ofNat 32 (lead * 2 ^ 24 + cause * 2 ^ 16 + route % 65536)) s1
  { s2 with evt := { s2.evt with kingLostCnt := satInc s2.evt.kingLostCnt } }

end Sys2Proof.Machine
end

