-- ==== Sys2Proof/Machine/Tables.lean ====
section
/-!
DEFINITION. Reading the tables of the running Position (spec/03 Table 3-3): sections by type, and the
entries of the sections that the engines read while they run. Fields are big-endian.
-/

namespace Sys2Proof.Machine

/-! Section types (Table 3-3). -/

def tyKey : Nat := 0x0001
def tyDek : Nat := 0x0002
def tyPorts : Nat := 0x0010
def tyMemory : Nat := 0x0011
def tyPcp : Nat := 0x0012
def tyRoutes : Nat := 0x0020
def tyWildcards : Nat := 0x0021
def tyFilters : Nat := 0x0022
def tyTemplates : Nat := 0x0023
def tyAdmission : Nat := 0x0024
def tyTime : Nat := 0x0030
def tySerial : Nat := 0x0040
def tyConverters : Nat := 0x0050
def tyPublisher : Nat := 0x0051
def tyAlignment : Nat := 0x0052
def tyArbiter : Nat := 0x0060
def tyUcode : Nat := 0x0061
def tyGoose : Nat := 0x0062
def tyBridge : Nat := 0x0070
def tyPower : Nat := 0x0080
def tyFallback : Nat := 0x0090
def tyAnnotation : Nat := 0x00F0

/-- Body of the first section of a type in a list of sections. -/
def bodyIn (ty : Nat) : List Sect → Option (List Byte)
  | [] => none
  | x :: xs => if x.ty = ty then some x.body else bodyIn ty xs

/-- Body of a section of the running tables, empty where the section is absent. -/
def bodyOf (ty : Nat) (s : State) : List Byte := (bodyIn ty s.pos.tables).getD []

/-- Is a section present in the running tables (R121)? -/
def hasSect (ty : Nat) (s : State) : Bool := (bodyIn ty s.pos.tables).isSome

/-- Entry `i` of a body of equal entries after a header. -/
def entryOf (body : List Byte) (head size i : Nat) : List Byte := slice body (head + size * i) size

/-- A flag bit of a byte field. -/
def flagAt (e : List Byte) (off bit : Nat) : Bool := natBit (u8 e off) bit

/-- PORTS entry of a board port (32 bytes each). -/
def portEntry (p : Nat) (s : State) : List Byte := entryOf (bodyOf tyPorts s) 0 32 p

/-- SERIAL entry of a channel (64 bytes each). -/
def serEntry (c : Nat) (s : State) : List Byte := entryOf (bodyOf tySerial s) 0 64 c

/-- CONVERTERS entry of a group (Table 8-5). -/
def convEntry (groupB : Bool) (s : State) : List Byte :=
  entryOf (bodyOf tyConverters s) 0 64 (if groupB then 1 else 0)

/-- PUBLISHER entry of a stream (Table 8-6). -/
def pubEntry (stream1 : Bool) (s : State) : List Byte :=
  entryOf (bodyOf tyPublisher s) 0 256 (if stream1 then 1 else 0)

/-- ALIGNMENT entry of a subscription (Table 8-7). -/
def alnEntry (i : Nat) (s : State) : List Byte := entryOf (bodyOf tyAlignment s) 0 128 i

/-- GOOSE publish and subscribe blocks (Table 11-9). -/
def goosePubEntry (b : Nat) (s : State) : List Byte := entryOf (bodyOf tyGoose s) 0 256 b
def gooseSubEntry (b : Nat) (s : State) : List Byte := entryOf (bodyOf tyGoose s) 8192 128 b

/-- BRIDGE window, slot settings, bridge settings and scan item (Table 12-10). -/
def xbWindow (w : Nat) (s : State) : List Byte := entryOf (bodyOf tyBridge s) 0 32 w
def xbScanItem (i : Nat) (s : State) : List Byte := entryOf (bodyOf tyBridge s) 512 16 i

/-- Template `t` of TEMPLATES (8-byte header, 128 bytes each). -/
def templateEntry (t : Nat) (s : State) : List Byte := entryOf (bodyOf tyTemplates s) 8 128 t

/-- ROUTES entry: 8-byte key, result (48 bytes each). -/
def routeEntry (i : Nat) (s : State) : List Byte := entryOf (bodyOf tyRoutes s) 8 48 i

end Sys2Proof.Machine
end

