-- ==== Sys2Proof/Machine/Board.lean ====
section
/-!
DEFINITION. The board (spec/01, spec/09, spec/10): lookup, port mask, filters, policers, cells and
descriptors, and the class queues; everything between an engine's hand-over and step 7.
-/

namespace Sys2Proof.Machine

/-! ### Ports -/

/-- Is a board port defined in the running Position? -/
def portDefined (p : Nat) (s : State) : Bool := u8 (portEntry p s) 0 == 1

/-- PAIR_MODE of a port: 0 stand-alone, 1 PRP, 2 HSR. -/
def pairMode (p : Nat) (s : State) : Nat := if p < 8 then u8 (portEntry p s) 2 else 0

/-- The other port of a pair. -/
def partner (p : Nat) : Nat := if p % 2 = 0 then p + 1 else p - 1

/-- Is an Ethernet port forwarding? -/
def forwarding (p : Nat) (s : State) : Bool := (nth .reset s.eth p).fwd == .forwarding

/-- The PCP map in force (R29, R32). -/
def pcpMap (s : State) : Nat :=
  if hasSect tyPcp s then be32 (bodyOf tyPcp s) 0 else 0x00B1B448

/-- Class of a PCP under the map in force. -/
def classOfPcp (p : Nat) (s : State) : Nat := pcpMap s / 2 ^ (3 * p) % 8

/-- The default priority of a port (R30). -/
def defaultPcp (p : Nat) (s : State) : Nat := u8 (bodyOf tyPcp s) (4 + p) % 8

/-- The highest PCP that the map gives to a class, 0 if none (R31). -/
def pcpOfClass (c : Nat) (s : State) : Nat :=
  (List.range 8).foldl (fun a p => if classOfPcp p s = c then p else a) 0

/-! ### Messages handed to the board -/

/-- A complete message at step 2. `key` is its routing key, `len` the length the policer tests (R570),
`prio` the PCP of the frame or the port's default (R510). `tunnel` frames are Ethernet frames of
SEL 1. A ring transit frame has the HSR tag it goes on with in `ring`; with `deliver` false it only
transits (R326). -/
structure Inbound where
  kind : MsgKind
  port : Nat
  channel : Option Nat
  index : Nat
  bytes : List Byte
  etype : Nat
  key : Nat
  len : Nat
  tagged : Bool
  vid : Nat
  pcp : Nat
  prio : Nat
  stamp : Stamp
  origin : Nat
  idle : Bool
  red : Nat
  san : Bool
  tsTag : Option (BitVec 16)
  deliver : Bool
  ring : List Byte
  deriving DecidableEq, Repr

/-- Offset of the bytes after the EtherType of an Ethernet frame. -/
def afterType (tagged : Bool) : Nat := if tagged then 18 else 14

/-- The bytes a filter's offsets count from (R534). -/
def filterBytes (m : Inbound) : List Byte :=
  match m.kind with
  | .eth => m.bytes.drop (afterType m.tagged)
  | .tunnel => m.bytes.drop (afterType m.tagged + 24)
  | _ => m.bytes

/-! ### The Mytan tunnel header (Table 9-10) and bundles (R529) -/

/-- The messages of a bundled payload: channel, flags and bytes of each; nothing where the
sub-headers do not account for the payload exactly. -/
def unbundle : Nat → List Byte → Option (List (Nat × Nat × List Byte))
  | 0, l => if l.isEmpty then some [] else none
  | n + 1, l =>
    if l.length < 8 then none
    else
      let k := be16 l 2
      if k = 0 ∨ 1023 < k ∨ l.length < 8 + k then none
      else (unbundle n (l.drop (8 + k))).map (fun r => (u8 l 0, u8 l 1, slice l 8 k) :: r)

/-- The messages of a tunnel frame, from its header on: channel, IDLE bit, bytes; none if the header
is invalid (R525). -/
def tunnelMsgs (l : List Byte) : Option (List (Nat × Bool × List Byte)) :=
  let flags := u8 l 1
  let len := be16 l 18
  let cnt := u8 l 20
  let bundle := natBit flags 0
  if l.length < 24 ∨ u8 l 0 ≠ 1 ∨ 32 ≤ flags ∨ 8 ≤ u8 l 2 ∨ be16 l 6 ≠ 0 ∨ be24 l 21 ≠ 0 ∨ cnt = 0
      ∨ 8 < cnt ∨ l.length < 24 + len then none
  else if bundle then
    (unbundle cnt (slice l 24 len)).map (fun r => r.map (fun x => (x.1, natBit x.2.1 4, x.2.2)))
  else if cnt ≠ 1 ∨ len = 0 ∨ 1023 < len then none
  else some [(u8 l 3, natBit flags 4, slice l 24 len)]

/-! ### Lookup (R499 to R504) -/

/-- What a lookup found: the route identifier and the 32 result bytes; identifiers from 0x1000 on are
wildcard entries (R502). -/
structure Route where
  id : Nat
  res : List Byte
  deriving DecidableEq, Repr

/-- Bucket of a key (R499). -/
def bucketOf (key seed : Nat) : Nat :=
  let x := (key / 2 ^ 32) ^^^ (key % 2 ^ 32) ^^^ seed
  0x9E3779B1 * x % 2 ^ 32 / 2 ^ 22

/-- Result bytes 0 to 23 in force of hashed entry `i`: a live edit, or the Position's (R550). -/
def resultOf (i : Nat) (s : State) : List Byte :=
  lookupD (slice (routeEntry i s) 8 24) i s.rte.edits

/-- Searches the four entries of a bucket. -/
def inBucket (key : Nat) : List Nat → State → Option Route
  | [], _ => none
  | i :: is, s =>
    let e := routeEntry i s
    if u8 e 40 = 1 ∧ be64 e 0 = key then some { id := i, res := padTo 32 (resultOf i s) }
    else inBucket key is s

/-- The exact key in its bucket. -/
def exactProbe (key : Nat) (s : State) : Option Route :=
  let b := bucketOf key (be32 (bodyOf tyRoutes s) 4)
  inBucket key [4 * b, 4 * b + 1, 4 * b + 2, 4 * b + 3] s

/-- The wildcard list in ascending index. -/
def wildProbe (key : Nat) : Nat → Nat → List Byte → Option Route
  | 0, _, _ => none
  | n + 1, i, l =>
    if (key ^^^ be64 l 0) &&& be64 l 8 = 0 then some { id := 0x1000 + i, res := slice l 16 32 }
    else wildProbe key n (i + 1) (l.drop 48)

/-- KIND of a key. -/
def keyKind (key : Nat) : Nat := key / 2 ^ 60

/-- The same Ethernet key with PORT 0xF. -/
def portGeneric (key : Nat) : Nat := key ||| (0xF * 2 ^ 52)

/-- The three probes in order (R501). -/
def lookup (key : Nat) (s : State) : Option Route :=
  let w := bodyOf tyWildcards s
  (exactProbe key s).orElse (fun _ =>
    (if keyKind key = 2 then exactProbe (portGeneric key) s else none).orElse (fun _ =>
      wildProbe key (be16 w 0) 0 (w.drop 8)))

/-! Fields of a result (Table 9-6). -/

def resMask (r : List Byte) : Nat := be16 r 0 % 2 ^ 14
def resEnabled (r : List Byte) : Bool := flagAt r 2 7
def resUsePcp (r : List Byte) : Bool := flagAt r 2 6
def resClass (r : List Byte) : Nat := u8 r 2 % 8
def resTxts (r : List Byte) : Bool := flagAt r 3 0
def resFilter (r : List Byte) : Option Nat :=
  if flagAt r 4 7 then some (be16 r 4 % 1024) else none
def resBudgetUs (r : List Byte) : Nat := be16 r 6
def resTemplate (r : List Byte) : Option Nat :=
  if flagAt r 8 7 then some (be16 r 8 % 512) else none
def resOutId (r : List Byte) : Nat := be16 r 10
def resRwMode (r : List Byte) : Nat := u8 r 16 % 16

/-! Fields of a template (Table 9-9). -/

def tplEthValid (t : List Byte) : Bool := flagAt t 0 0
def tplSeValid (t : List Byte) : Bool := flagAt t 0 1
def tplEncap (t : List Byte) : Nat := u8 t 1
def tplTagMode (t : List Byte) : Nat := u8 t 2
def tplBundle (t : List Byte) : Nat := u8 t 3
def tplVid (t : List Byte) : Nat := be16 t 4 % 4096
def tplType (t : List Byte) : Nat := be16 t 6
def tplDa (t : List Byte) : List Byte := slice t 8 6
def tplSa (t : List Byte) : List Byte := slice t 14 6
def tplAppid (t : List Byte) : Nat := be16 t 20
def tplChannels (t : List Byte) : Nat := be32 t 24 % 2 ^ 24

/-- The channels a template names, without the one the message came in on (R509). -/
def seChannels (t : List Byte) (came : Option Nat) : List Nat :=
  (List.range 24).filter (fun c => natBit (tplChannels t) c && came != some c)

/-- Can the message leave on the egress port (Table 9-7, R507)? -/
def carries (m : Inbound) (tpl : Option (List Byte)) (p : Nat) : Bool :=
  let withEncap (e : Nat) : Bool :=
    match tpl with
    | some t => tplEthValid t && tplEncap t == e
    | none => false
  let plain : Bool :=
    match tpl with
    | some t => tplEthValid t
    | none => true
  let onSe : Bool :=
    match tpl with
    | some t => tplSeValid t && !(seChannels t m.channel).isEmpty
    | none => false
  if p ≤ 8 then
    (match m.kind with
     | .eth | .tunnel | .ptp | .supervision | .accessResp => plain
     | .serial => withEncap 1
     | .mu | .goose => true
     | .arbMsg | .alRow | .xm => withEncap 2)
  else if p = 9 then
    (match m.kind with
     | .tunnel | .serial | .arbMsg => onSe
     | _ => false)
  else if p = 11 then
    (match m.kind with
     | .eth => m.etype == 0x88B8
     | .serial | .xm => true
     | _ => false)
  else if p = 12 then
    (match m.kind with
     | .eth => m.etype == 0x88BA
     | _ => false)
  else false

/-- Ports of the mask that are defined and can carry the message (R11, R15, R507). -/
def keptPorts (m : Inbound) (r : Route) (s : State) : List Nat :=
  let tpl := (resTemplate r.res).map (fun t => templateEntry t s)
  (List.range 14).filter (fun p =>
    natBit (resMask r.res) p && p != 10 && p != 13 && portDefined p s && carries m tpl p)

/-- The ingress port, and the partner of a pair's port, leave the mask before queuing (R12, R327). -/
def dropIngress (m : Inbound) (ps : List Nat) (s : State) : List Nat :=
  if m.port ≤ 8 then
    ps.filter (fun p => p != m.port && !(pairMode m.port s != 0 && p == partner m.port))
  else ps

/-- A port mask that names a pair addresses both its ports (R14). -/
def addPartners (ps : List Nat) (s : State) : List Nat :=
  (List.range 14).filter (fun p =>
    ps.contains p || (decide (p < 8) && pairMode p s != 0 && ps.contains (partner p)))

/-! ### Counting -/

/-- Counts a lookup that matched a hashed entry (Table 9-16). -/
def countHit (id : Nat) (s : State) : State :=
  if id < 4096 then
    { s with rte := { s.rte with cnts :=
        (if s.rte.cnts.any (fun c => c.idx == id) then
          s.rte.cnts.map (fun c => if c.idx = id then { c with hits := satInc c.hits } else c)
        else s.rte.cnts ++ [{ idx := id, hits := 1, filtered := 0 }]) } }
  else s

/-- Counts a message rejected by its route's filter (Table 9-16). -/
def countFiltered (id : Nat) (s : State) : State :=
  if id < 4096 then
    { s with rte := { s.rte with cnts :=
        (if s.rte.cnts.any (fun c => c.idx == id) then
          s.rte.cnts.map (fun c => if c.idx = id then { c with filtered := satInc c.filtered } else c)
        else s.rte.cnts ++ [{ idx := id, hits := 0, filtered := 1 }]) } }
  else s

/-- Discards an unrouted message (R504). -/
def unrouted (m : Inbound) (s : State) : State :=
  let d : Nat :=
    match m.channel with
    | some c => 0x40 + c
    | none => m.port
  raise .rteUnrouted (BitVec.ofNat 32 d)
    { s with cls := { s.cls with unroutedCnt := satInc s.cls.unroutedCnt } }

/-! ### Filters (R533 to R540) -/

/-- FILTERS entry (Table 9-11). -/
def filterEntry (i : Nat) (s : State) : List Byte := entryOf (bodyOf tyFilters s) 8 32 i

/-- State of a filter that nothing has reached yet. -/
def FilterSt.fresh (i : Nat) : FilterSt := { idx := i, seen := 0, lastAt := none, lastCrc := none }

def filterState (i : Nat) (s : State) : FilterSt :=
  (s.rte.filters.find? (fun f => f.idx == i)).getD (.fresh i)

def setFilter (f : FilterSt) (s : State) : State :=
  { s with rte := { s.rte with filters :=
      (f :: s.rte.filters.filter (fun g => g.idx != f.idx)) } }

/-- Value of a hexadecimal digit of either case. -/
def hexVal (b : Byte) : Option Nat :=
  let v := b.toNat
  if 48 ≤ v ∧ v ≤ 57 then some (v - 48)
  else if 65 ≤ v ∧ v ≤ 70 then some (v - 55)
  else if 97 ≤ v ∧ v ≤ 102 then some (v - 87)
  else none

/-- XOR of bytes (R393). -/
def xorAll (l : List Byte) : Byte := l.foldl (· ^^^ ·) 0

/-- A character a sentence may hold between its start character and '*' (R392). -/
def sentenceChar (b : Byte) : Bool :=
  decide (0x20 ≤ b.toNat) && decide (b.toNat ≤ 0x7E) && b != 0x24 && b != 0x21 && b != 0x2A

/-- Do the bytes form exactly one whole sentence with a correct checksum (R962)? -/
def wholeSentence (l : List Byte) : Bool :=
  match l with
  | [] => false
  | b :: r =>
    if (b == 0x24 || b == 0x21) && decide (5 ≤ r.length) then
      let body := r.take (r.length - 5)
      let tail := r.drop (r.length - 5)
      match tail with
      | [st, h, k, cr, lf] =>
        st == 0x2A && cr == 0x0D && lf == 0x0A && body.all sentenceChar &&
          (match hexVal h, hexVal k with
           | some x, some y => BitVec.ofNat 8 (16 * x + y) == xorAll body
           | _, _ => false)
      | _ => false
    else false

/-- A check of Table 9-13 over the bytes from the filter's offset (R963). -/
def checksumOk (alg : Nat) (l : List Byte) : Bool :=
  if alg = 0 then wholeSentence l
  else if alg = 1 then
    decide (3 ≤ l.length) &&
      (crc16Modbus (l.take (l.length - 2))).toNat == ofLE (l.drop (l.length - 2))
  else if alg = 2 then decide (1 ≤ l.length) && xorAll l == 0
  else decide (1 ≤ l.length) && (l.foldl (fun a b => a + b.toNat) 0) % 256 == 0

/-- Qualities of the values of an MU frame or an AL row message (R539). -/
def valueQualities (m : Inbound) : List Nat :=
  match m.kind with
  | .mu =>
    (svAsdus (m.bytes.drop (afterType m.tagged))).flatMap
      (fun a => (svPairs a.data.length a.data).map (·.2))
  | .alRow => (svPairs m.bytes.length (m.bytes.drop 16)).map (·.2)
  | _ => []

/-- Outcome of a filter: does the message pass, and the filter's state afterwards (Table 9-12). -/
def filterStep (m : Inbound) (e : List Byte) (f : FilterSt) : Bool × FilterSt :=
  let bs := filterBytes m
  let kind := u8 e 0
  if kind = 0 then
    (f.seen % be16 e 4 == be16 e 6, { f with seen := f.seen + 1 })
  else if kind = 1 then
    let pass : Bool :=
      match f.lastAt with
      | none => true
      | some t => decide (be32 e 4 * 1000 ≤ (m.origin - t) * 4)
    (pass, if pass then { f with lastAt := some m.origin } else f)
  else if kind = 2 then
    let cov := if be16 e 6 = 0 then bs.drop (be16 e 4) else slice bs (be16 e 4) (be16 e 6)
    let c := crc32 cov
    let pass : Bool :=
      match f.lastAt, f.lastCrc with
      | some t, some k =>
        k != c || (decide (be32 e 8 ≠ 0) && decide (be32 e 8 * 1000000 ≤ (m.origin - t) * 4))
      | _, _ => true
    (pass, if pass then { f with lastAt := some m.origin, lastCrc := some c } else f)
  else if kind = 3 then
    let o := be16 e 4
    let w := u8 e 6
    let pass : Bool :=
      decide (o + w ≤ bs.length) &&
        (((ofBE (slice bs o w) &&& ofBE (slice e 16 w)) == (ofBE (slice e 8 w) &&& ofBE (slice e 16 w)))
          != flagAt e 1 0)
    (pass, f)
  else if kind = 4 then
    let pass : Bool :=
      match m.kind, tunnelMsgs (m.bytes.drop (afterType m.tagged)) with
      | .tunnel, some ms =>
        if natBit (u8 (m.bytes.drop (afterType m.tagged)) 1) 0 then
          ms.all (fun x => checksumOk (u8 e 4) (x.2.2.drop (be16 e 6)))
        else checksumOk (u8 e 4) (bs.drop (be16 e 6))
      | _, _ => checksumOk (u8 e 4) (bs.drop (be16 e 6))
    (pass, f)
  else
    let pass : Bool :=
      natBit (u8 e 4) m.stamp.tq.toNat &&
        (!flagAt e 5 0 || (valueQualities m).all (fun q => q % 4 != 1))
    (pass, f)

/-- Puts a message through its route's filter; the flag tells whether it passes. -/
def throughFilter (m : Inbound) (r : Route) (s : State) : Bool × State :=
  match resFilter r.res with
  | none => (true, s)
  | some i =>
    let e := filterEntry i s
    let o := filterStep m e (filterState i s)
    let s1 := setFilter o.2 s
    if o.1 then (true, s1)
    else
      let s2 := countFiltered r.id s1
      (false, if u8 e 0 = 4 then raise .rteCsumFail (BitVec.ofNat 32 r.id) s2 else s2)

/-! ### Class and policing (R510, R568 to R573, R634) -/

/-- The class of a route: its Position class, or the one a PROMOTE action gave it (R634). -/
def routeClass (r : Route) (s : State) : Nat :=
  (lookupD (BitVec.ofNat 3 (resClass r.res)) r.id s.rte.clsOver).toNat

/-- The class a message takes at lookup (R510). -/
def messageClass (m : Inbound) (r : Route) (s : State) : Nat :=
  if resUsePcp r.res && keyKind m.key == 2 then min (routeClass r s) (classOfPcp m.prio s)
  else routeClass r s

/-- The route bound of a route in ADMISSION (Table 3-4). -/
def routeBound (id : Nat) (s : State) : Option (List Byte) :=
  let b := bodyOf tyAdmission s
  ((List.range (be16 b 0)).map (fun i => entryOf b 8 16 i)).find? (fun e => be16 e 0 == id)

/-- Interval and largest credit of a route bound, in ns (R568). -/
def boundInterval (e : List Byte) : Nat := be32 e 8
def boundCap (e : List Byte) : Nat := be16 e 6 * be32 e 8

/-- Credit of a policer now (R568, R573). -/
def creditNow (id : Nat) (e : List Byte) (s : State) : Nat :=
  match s.rte.policers.find? (fun p => p.route == id) with
  | none => boundCap e
  | some p => min (boundCap e) (p.credit + (localNow s - p.asOf) * 4)

def setCredit (id credit : Nat) (s : State) : State :=
  { s with rte := { s.rte with policers :=
      ({ route := id, credit, asOf := localNow s } ::
        s.rte.policers.filter (fun p => p.route != id)) } }

/-- What policing decides. -/
inductive Verdict where
  | conform | drop | downgrade
  deriving DecidableEq, Repr

/-- Tests a message against its route's policer (R569, R571). -/
def police (m : Inbound) (r : Route) (s : State) : Verdict × State :=
  if r.id < 4096 then
    match routeBound r.id s with
    | none => (.conform, s)
    | some e =>
      let x := creditNow r.id e s
      if m.len ≤ be16 e 4 ∧ boundInterval e ≤ x then
        (.conform, setCredit r.id (x - boundInterval e) s)
      else (if u8 e 2 = 0 then .drop else .downgrade, s)
  else (.conform, s)

/-- Updates the record of a class. -/
def updCls (c : Nat) (f : ClsRec → ClsRec) (s : State) : State :=
  { s with cls := { s.cls with recs := upd f s.cls.recs c } }

/-- Counts an excess message (R571). -/
def countExcess (r : Route) (c : Nat) (down : Bool) (s : State) : State :=
  let s1 := updCls c (fun k => { k with
    excess := satInc k.excess, downgraded := if down then satInc k.downgraded else k.downgraded }) s
  let d := c * 65536 + r.id
  raise .admitExcess (BitVec.ofNat 32 d)
    { s1 with cls := { s1.cls with lastExcess := BitVec.ofNat 19 d } }

/-! ### Cells and descriptors (R562 to R567) -/

/-- Reservation of a class (R563): CLASS_RESERVE of MEMORY, two bytes per class, KING last. -/
def reserveOf (c : Nat) (s : State) : Nat :=
  if c = 0 then 0 else be16 (bodyOf tyMemory s) (2 * c)

/-- Size of the shared pool, less the cells that are retired (R563, R768). -/
def poolSize (s : State) : Nat :=
  16384 - ((List.range 6).map (fun c => reserveOf c s)).sum - s.mem.retiredCells.length

/-- Cells of the shared pool in use. -/
def poolUsed (s : State) : Nat := (s.cls.recs.map (·.usedShared)).sum

/-- Descriptors in use. -/
def descUsed (s : State) : Nat := (s.cls.recs.map (·.descUsed)).sum

/-- Floors of Table 10-2. -/
def cellFloor (c : Nat) : Nat := nth 0 [4096, 3072, 2048, 1024, 512, 0] c
def descFloor (c : Nat) : Nat := nth 0 [2048, 1536, 1024, 512, 128, 0] c

/-- Cells a message of `n` bytes needs (R562). -/
def cellsOf (n : Nat) : Nat := ceilDiv n 128

/-- Cells taken from the reservation and from the shared pool, if the message is accepted (R565). -/
def allot (c n : Nat) (s : State) : Option (Nat × Nat) :=
  let need := cellsOf n
  let own := min need (reserveOf c s - (nth .reset s.cls.recs c).usedRes)
  let rest := need - own
  if rest + cellFloor c + poolUsed s ≤ poolSize s ∧
      descUsed s + 1 + descFloor c + 4 * s.mem.retiredDescs.length ≤ 8192 then some (own, rest)
  else none

/-- Frees what a message held, once its last copy is done (R27). -/
def freeMsg (m : Msg) (s : State) : State :=
  let s1 := updCls m.acct.toNat (fun k => { k with
    usedRes := k.usedRes - m.reserved, usedShared := k.usedShared - m.shared,
    descUsed := k.descUsed - 1 }) s
  { s1 with cls := { s1.cls with msgs := s1.cls.msgs.filter (fun x => x.id != m.id) } }

/-- A message of the board by its number. -/
def msgById (i : Nat) (s : State) : Option Msg := s.cls.msgs.find? (fun m => m.id == i)

/-- One copy of a message has left or been discarded. -/
def dropCopy (i : Nat) (s : State) : State :=
  match msgById i s with
  | none => s
  | some m =>
    if m.refs ≤ 1 then freeMsg m s
    else { s with cls := { s.cls with
        msgs := s.cls.msgs.map (fun x => if x.id = i then { x with refs := x.refs - 1 } else x) } }

/-! ### Class queues (R555 to R561). Egress codes are those of R587. -/

/-- The six queues of an egress. -/
def queuesOf (e : Nat) (s : State) : List (List QEntry) :=
  if e ≤ 8 then (nth .reset s.eth e).queues
  else if e = 11 then s.cls.abQueues
  else if e = 12 then s.cls.alQueues
  else (nth .reset s.ser (e - 64)).queues

/-- One class queue of an egress. -/
def queueOf (e c : Nat) (s : State) : List QEntry := nth [] (queuesOf e s) c

/-- Replaces one class queue. -/
def setQueue (e c : Nat) (q : List QEntry) (s : State) : State :=
  if e ≤ 8 then
    { s with eth := upd (fun p => { p with queues := upd (fun _ => q) p.queues c }) s.eth e }
  else if e = 11 then
    { s with cls := { s.cls with abQueues := upd (fun _ => q) s.cls.abQueues c } }
  else if e = 12 then
    { s with cls := { s.cls with alQueues := upd (fun _ => q) s.cls.alQueues c } }
  else
    { s with ser := upd (fun p => { p with queues := upd (fun _ => q) p.queues c }) s.ser (e - 64) }

/-- Bytes queued now on an egress and class (Table 10-11). -/
def queueBytes (e c : Nat) (s : State) : Nat :=
  ((queueOf e c s).map (fun q =>
    match msgById q.msg s with
    | some m => m.bytes.length
    | none => 0)).sum

/-- Raises the recorded peak of a queue to what it holds now. -/
def notePeak (e c : Nat) (s : State) : State :=
  let n := queueBytes e c s
  let old := (s.cls.peaks.find? (fun p => p.egress == e && p.cls == c)).map (·.peak)
  if n ≤ old.getD 0 then s
  else { s with cls := { s.cls with peaks :=
      ({ egress := e, cls := c, peak := n } ::
        s.cls.peaks.filter (fun p => !(p.egress == e && p.cls == c))) } }

/-- Joins a queue at its tail. -/
def joinQueue (e c : Nat) (q : QEntry) (s : State) : State :=
  notePeak e c (setQueue e c (queueOf e c s ++ [q]) s)

/-- Adds to a port counter of Table 6-3. -/
def portCount (p i : Nat) (s : State) : State :=
  { s with eth := upd (fun e => { e with cnt := upd satInc e.cnt i }) s.eth p }

/-- Queues a copy on an Ethernet port as Table 6-5 has it: on a port that forwards it joins; elsewhere
KING is held where no partner forwards, and every other copy is discarded (R342). -/
def queueEth (p : Nat) (m : Msg) (seq : BitVec 16) (s : State) : State :=
  let q : QEntry := { msg := m.id, promoted := false, marked := false, seq }
  if forwarding p s then joinQueue p m.cls.toNat q s
  else if m.cls == 5 && !(pairMode p s != 0 && forwarding (partner p) s) then
    joinQueue p 5 q s
  else dropCopy m.id (portCount p 14 s)

/-- Takes the next sequence number of a pair (R320). -/
def nextPairSeq (p : Nat) (s : State) : BitVec 16 × State :=
  let n := (nth .reset s.pairs (p / 2)).seq + 1
  (n, { s with pairs := upd (fun k => { k with seq := n }) s.pairs (p / 2) })

/-- Queues copies on Ethernet ports in ascending order; the copies on the ports of a pair carry the same
sequence number (R320). `last` is the pair that got a number last, and that number. -/
def queueEths (m : Msg) : List Nat → Option (Nat × BitVec 16) → State → State
  | [], _, s => s
  | p :: ps, last, s =>
    if pairMode p s = 0 then queueEths m ps last (queueEth p m 0 s)
    else
      match last with
      | some (k, n) =>
        if k = p / 2 then queueEths m ps last (queueEth p m n s)
        else
          let x := nextPairSeq p s
          queueEths m ps (some (p / 2, x.1)) (queueEth p m x.1 x.2)
      | none =>
        let x := nextPairSeq p s
        queueEths m ps (some (p / 2, x.1)) (queueEth p m x.1 x.2)

/-- Queues the ring copy of a transit frame on the other ring port, or discards it (R326, Table 6-5). -/
def queueRing (m : Msg) (s : State) : State :=
  let p := partner m.port
  if m.ring.isEmpty then s
  else if forwarding p s then
    joinQueue p m.cls.toNat { msg := m.id, promoted := false, marked := false, seq := 0 } s
  else dropCopy m.id (portCount p 14 s)

/-- Queues copies on serial channels. -/
def queueSers (m : Msg) : List Nat → State → State
  | [], s => s
  | c :: cs, s =>
    queueSers m cs (joinQueue (64 + c) m.cls.toNat
      { msg := m.id, promoted := false, marked := false, seq := 0 } s)

/-- Queues copies on the internal ports AB and AL. -/
def queueInts (m : Msg) : List Nat → State → State
  | [], s => s
  | p :: ps, s =>
    queueInts m ps (joinQueue p m.cls.toNat { msg := m.id, promoted := false, marked := false, seq := 0 } s)

/-! ### Entering the board -/

/-- The template a message uses: MU frames and GOOSE publications carry the one they were built with
(R521), every other message its route's. -/
def messageTemplate (m : Inbound) (r : Route) (s : State) : Option (List Byte) :=
  match m.kind with
  | .mu | .goose => none
  | _ => (resTemplate r.res).map (fun t => templateEntry t s)

/-- Steps 6 and 7 for an accepted message: cells, descriptor and queues (R562 to R567). A message that
finds no room is refused (R566). -/
def bufferAndQueue (m : Inbound) (r : Route) (c : Nat) (down : Bool) (ps : List Nat) (s : State) :
    State :=
  let tpl := messageTemplate m r s
  let eths := ps.filter (fun p => decide (p ≤ 8))
  let chans := if ps.contains 9 then (tpl.map (fun t => seChannels t m.channel)).getD [] else []
  let ints := ps.filter (fun p => p == 11 || p == 12)
  match allot c m.bytes.length s with
  | none =>
    raise .bufRefuse (BitVec.ofNat 32 (c * 65536 + r.id))
      (updCls c (fun k => { k with refused := satInc k.refused }) s)
  | some (own, rest) =>
    let builds := m.kind == .serial && !eths.isEmpty && (tpl.map tplBundle).getD 1 == 1
    let tseq := lookupD 0 r.id s.rte.tunnelSeq
    let msg : Msg :=
      { id := s.cls.nextMsg, kind := m.kind, port := m.port, channel := m.channel, index := m.index,
        bytes := m.bytes, tagged := m.tagged, vid := BitVec.ofNat 12 m.vid,
        pcp := BitVec.ofNat 3 m.pcp, cls := BitVec.ofNat 3 c, acct := BitVec.ofNat 3 c,
        result := r.res, template := tpl, routeId := r.id, stamp := m.stamp, origin := m.origin,
        downgraded := down, red := BitVec.ofNat 2 m.red, san := m.san, idle := m.idle,
        tsTag := m.tsTag, reserved := own, shared := rest,
        refs := eths.length + chans.length + ints.length + (if m.ring.isEmpty then 0 else 1),
        etype := m.etype, tseq, ring := m.ring }
    let s1 := updCls c (fun k => { k with
      usedRes := k.usedRes + own, usedShared := k.usedShared + rest, descUsed := k.descUsed + 1 }) s
    let s2 := { s1 with
      cls := { s1.cls with msgs := s1.cls.msgs ++ [msg], nextMsg := s1.cls.nextMsg + 1 },
      rte := { s1.rte with tunnelSeq :=
        if builds then putAssoc r.id (tseq + 1) s1.rte.tunnelSeq else s1.rte.tunnelSeq } }
    queueInts msg ints (queueSers msg chans (queueRing msg (queueEths msg eths none s2)))

/-- Steps 4 to 7 with a result at hand and the egress ports it may use. -/
def runMessage (m : Inbound) (r : Route) (ps : List Nat) (s : State) : State :=
  let f := throughFilter m r s
  if f.1 then
    let c := messageClass m r f.2
    let v := police m r f.2
    let out := addPartners (dropIngress m ps v.2) v.2
    let go (cls : Nat) (down : Bool) (t : State) : State :=
      if out.isEmpty && m.ring.isEmpty then t else bufferAndQueue m r cls down out t
    match v.1 with
    | .conform => go c false v.2
    | .drop => countExcess r c false v.2
    | .downgrade => go 0 true (countExcess r c true v.2)
  else f.2

/-- The route of a ring transit frame that has none: class PAWN, no filter, no policer (R328). -/
def noRoute : Route := { id := 0xFFFF, res := [] }

/-- Discards an unrouted message, or sends a ring transit frame on its way (R328, R504). -/
def withoutRoute (m : Inbound) (s : State) : State :=
  if m.ring.isEmpty then (if m.deliver then unrouted m s else s)
  else bufferAndQueue m noRoute 0 false [] s

/-- Steps 3 to 7 with the route found: a disabled result, or one whose mask is empty after the removals
of R15 and R507, leaves the message unrouted (R504, R505). `allow` restricts the mask (R350). -/
def enterRoute (m : Inbound) (r : Route) (allow : Nat → Bool) (s : State) : State :=
  let s1 := countHit r.id s
  let ps := if m.deliver then (keptPorts m r s1).filter allow else []
  if resEnabled r.res && (!ps.isEmpty || !m.ring.isEmpty) then runMessage m r ps s1
  else withoutRoute m s1

/-- Hands a message to the board (steps 2 to 7). -/
def enterBoard (m : Inbound) (s : State) : State :=
  match lookup m.key s with
  | none => withoutRoute m s
  | some r => enterRoute m r (fun _ => true) s

/-- An internal message's key (Table 9-4). -/
def internalKey (source subtype index : Nat) : Nat :=
  3 * 2 ^ 60 + source * 2 ^ 52 + subtype * 2 ^ 16 + index

/-- A message of an internal engine as it is handed to the board now (R21, R23). -/
def internalMsg (kind : MsgKind) (source subtype index : Nat) (bytes : List Byte) (etype : Nat)
    (tagged : Bool) (s : State) : Inbound :=
  { kind, port := source, channel := none, index, bytes, etype, key := internalKey source subtype index,
    len := bytes.length, tagged, vid := 0, pcp := 0, prio := 0, stamp := stampNow s,
    origin := localNow s, idle := false, red := 0, san := false, tsTag := none, deliver := true,
    ring := [] }

/-- Queues a frame of the device's own (PTP, supervision, access response) on Ethernet ports, without a
lookup; it needs cells and a descriptor like any message. `bytes` run from the destination address.
`index`, `stamp` and `extra` are the engine's own. -/
def queueOwnOn (kind : MsgKind) (ps : List Nat) (c index : Nat) (bytes : List Byte) (stamp : Stamp)
    (extra : List Byte) (s : State) : State :=
  match allot c bytes.length s with
  | none =>
    raise .bufRefuse (BitVec.ofNat 32 (c * 65536 + 0xFFFF))
      (updCls c (fun k => { k with refused := satInc k.refused }) s)
  | some (own, rest) =>
    let msg : Msg :=
      { id := s.cls.nextMsg, kind, port := 15, channel := none, index, bytes, tagged := false, vid := 0,
        pcp := 0, cls := BitVec.ofNat 3 c, acct := BitVec.ofNat 3 c, result := extra, template := none,
        routeId := 0xFFFF, stamp, origin := localNow s, downgraded := false, red := 0, san := false,
        idle := false, tsTag := none, reserved := own, shared := rest, refs := ps.length,
        etype := be16 bytes 12, tseq := 0, ring := [] }
    let s1 := updCls c (fun k => { k with
      usedRes := k.usedRes + own, usedShared := k.usedShared + rest, descUsed := k.descUsed + 1 }) s
    queueEths msg ps none { s1 with
      cls := { s1.cls with msgs := s1.cls.msgs ++ [msg], nextMsg := s1.cls.nextMsg + 1 } }

/-- The same on one port. -/
def queueOwn (kind : MsgKind) (p c index : Nat) (bytes : List Byte) (stamp : Stamp) (extra : List Byte)
    (s : State) : State :=
  queueOwnOn kind [p] c index bytes stamp extra s

end Sys2Proof.Machine
end

