-- ==== Sys2Proof/Machine/TimeBase.lean ====
section
/-!
DEFINITION. The time base (spec/04): advancing device time, the commands of Table 4-2, ownership, the
arithmetic and the arming of the comparators, captures and the PPS discipline loop. Firing and its
actions are in Fire.lean.
-/

namespace Sys2Proof.Machine

/-! ### Units -/

/-- Parts of 2^-32 ns that a slew works in: 10^-6 of one (R187). -/
def slewUnit : Nat := 1000000

/-- One second in those parts. -/
def secUnits : Nat := 1000000000 * 4294967296 * slewUnit

/-- Nanoseconds, fraction and slew part as one number. -/
def timeUnits (t : TmbBlk) : Nat := (t.ns.toNat * 4294967296 + t.frac.toNat) * slewUnit + t.sub

/-- Loads nanoseconds, fraction and slew part from a number below one second. -/
def loadUnits (u : Nat) (t : TmbBlk) : TmbBlk :=
  { t with ns := BitVec.ofNat 30 (u / slewUnit / 4294967296),
           frac := BitVec.ofNat 32 (u / slewUnit % 4294967296), sub := u % slewUnit }

/-! ### Addend and holdover mean -/

/-- Clamp limits (R175). -/
def addendMin : BitVec 64 := 0x00000003FEF9DB23
def addendMax : BitVec 64 := 0x00000004010624DD

/-- Loads the active addend within its clamp (R175). -/
def loadAddend (a : BitVec 64) (s : State) : State :=
  let c := if a < addendMin then addendMin else if addendMax < a then addendMax else a
  { s with tmb := { s.tmb with addend := c, clamped := s.tmb.clamped || c != a } }

/-- TMB_RATE_AVG: mean of the addend at the last seconds carries, halves up (R222). -/
def rateAvg (t : TmbBlk) : BitVec 64 :=
  let n := t.carries.length
  if n = 0 then nominalAddend
  else BitVec.ofNat 64 ((2 * (t.carries.map (·.toNat)).sum + n) / (2 * n))

/-! ### One addition of R174, or of R225 with `k` = 10 -/

/-- What a slew applies in one addition (R187). -/
def slewPart (k : Nat) (t : TmbBlk) : Nat :=
  match t.slew with
  | none => 0
  | some w => min w.remain (k * t.addend.toNat * w.ppm)

/-- A slew after its part has been applied; it ends when nothing is left. -/
def slewAfter (d : Nat) (w : Option Slew) : Option Slew :=
  match w with
  | none => none
  | some x => if x.remain ≤ d then none else some { x with remain := x.remain - d }

/-- Adds `k` times the effective addend to device time, with the carry into seconds (R174, R187), and
`k` to TMB_LOCAL (R177). -/
def addTime (k : Nat) (t : TmbBlk) : TmbBlk :=
  let d := slewPart k t
  let base := timeUnits t + k * t.addend.toNat * slewUnit
  let neg : Bool :=
    match t.slew with
    | some w => w.neg
    | none => false
  let u := if neg then base - d else base + d
  let carry := decide (secUnits ≤ u)
  loadUnits (if carry then u - secUnits else u)
    { t with
      localCnt := t.localCnt + BitVec.ofNat 64 k, slew := slewAfter d t.slew,
      secs := if carry then t.secs + 1 else t.secs,
      carries := if carry then (t.addend :: t.carries).take 16 else t.carries }

/-! ### Comparator arithmetic (R190, R197 to R201) -/

/-- Δ of a live target against device time. -/
def cmpDelta (ls : Word) (lns : BitVec 30) (t : TmbBlk) : Int :=
  (ls - t.secs.setWidth 32).toInt * 1000000000 + (lns.toNat - t.ns.toNat : Int)

/-- A target moved by a signed number of ns, with carry into the low seconds. -/
def moveTarget (ls : Word) (lns : BitVec 30) (d : Int) : Word × BitVec 30 :=
  let x := (lns.toNat : Int) + d
  (ls + BitVec.ofInt 32 (x / 1000000000), BitVec.ofNat 30 (x % 1000000000).toNat)

/-- Index of the first PER_SECOND grid instant at or after a nanosecond count (R198). -/
def gridIndex (ns k : Nat) : Nat := (ns * k + 999999999) / 1000000000

/-- The grid instant of an index; index K is instant 0 of the next second. -/
def gridTarget (ls : Word) (i k : Nat) : Word × BitVec 30 :=
  if k ≤ i then (ls + 1, 0) else (ls, BitVec.ofNat 30 (i * 1000000000 / k))

/-- The instant after a fire (R197, R198). -/
def nextTarget (c : Cmp) : Word × BitVec 30 :=
  if c.mode = 1 then moveTarget c.liveS c.liveNs c.period.toNat
  else gridTarget c.liveS (gridIndex c.liveNs.toNat c.period.toNat + 1) c.period.toNat

/-- The first instant of a comparator's grid after device time, and how many instants lie between
(R199, R201, R230). -/
def gridAfter (c : Cmp) (t : TmbBlk) : (Word × BitVec 30) × Int :=
  if c.mode = 1 then
    let p : Int := (max 1 c.period.toNat : Nat)
    let k := -(cmpDelta c.liveS c.liveNs t) / p + 1
    (moveTarget c.liveS c.liveNs (k * p), k)
  else
    let k := max 1 c.period.toNat
    let i := gridIndex (t.ns.toNat + 1) k
    let old := (c.liveS - t.secs.setWidth 32).toInt * k + gridIndex c.liveNs.toNat k
    (gridTarget (t.secs.setWidth 32) i k, (i : Int) - old)

/-- Evaluation in the cycle after a reload: a target already reached is passed over (R199). -/
def cmpSkip (t : TmbBlk) (c : Cmp) : Cmp :=
  if c.fresh = false then c
  else if c.armed ∧ cmpDelta c.liveS c.liveNs t ≤ 0 then
    let g := gridAfter c t
    { c with fresh := false, liveS := g.1.1, liveNs := g.1.2, missed := satAdd c.missed g.2.toNat }
  else { c with fresh := false }

/-- Evaluation in SEAL: comparators without WAKE_EN wait (R225, R226). -/
def cmpSkipWake (t : TmbBlk) (c : Cmp) : Cmp := if c.wakeEn then cmpSkip t c else c

/-- What a SET or STEP does to an armed comparator (R200, R201). -/
def cmpResync (t : TmbBlk) (c : Cmp) : Cmp :=
  if c.armed = false then c
  else if c.mode = 0 then { c with lateDue := decide (cmpDelta c.liveS c.liveNs t ≤ 0) }
  else
    let g := (gridAfter c t).1
    { c with fresh := false, liveS := g.1, liveNs := g.2,
             resync := c.resync || g.1 != c.liveS || g.2 != c.liveNs }

/-! ### Core cycles -/

/-- One core cycle of the time base: R174, R177 and R199. -/
def coreCycle (s : State) : State :=
  let t := addTime 1 s.tmb
  { s with tmb := { t with cmps := t.cmps.map (cmpSkip t) } }

/-- One REFCLK edge in SEAL: ten cycles at once (R225). -/
def refclkEdge (s : State) : State :=
  let t := addTime 10 s.tmb
  { s with tmb := { t with cmps := t.cmps.map (cmpSkipWake t) } }

/-- Does the time base count? From PLL lock on, in every ladder state but REST (Table 14-4). -/
def timeRuns (s : State) : Bool := s.pwr.boot == .init || s.pwr.boot == .ready

/-- Is the device in SEAL, with the time base on REFCLK? -/
def inSeal (s : State) : Bool := s.pwr.boot == .ready && s.pwr.ladder == .seal

/-- What an idle step does: one core cycle, or in SEAL one REFCLK edge (log entry 1). -/
def tick (s : State) : State :=
  if timeRuns s then (if inSeal s then refclkEdge s else coreCycle s) else s

/-- SECONDS_CARRY: the addition of R174 that carries into seconds. -/
def execSecondsCarry (s : State) : Host.Outcome State Fault Refusal :=
  .next (if timeRuns s && (tick s).tmb.secs != s.tmb.secs then tick s else s)

/-! ### Commands (Table 4-2) -/

/-- A command or an arm was refused. -/
def tmbCmdErr (s : State) : State := { s with tmb := { s.tmb with cmdErr := true } }

/-- Comparators follow a SET or STEP in the cycle after it (R200, R201). -/
def resyncAll (s : State) : State :=
  { s with tmb := { s.tmb with cmps := s.tmb.cmps.map (cmpResync s.tmb) } }

/-- Loads device time; the fraction is cleared (R184). -/
def setTime (secs : BitVec 48) (ns : Nat) (s : State) : State :=
  let s1 := coreCycle s
  resyncAll { s1 with tmb := { s1.tmb with secs, ns := BitVec.ofNat 30 ns, frac := 0, sub := 0 } }

/-- Adds a signed number of ns, with carry or borrow into seconds (R184, R185). -/
def stepTime (d : Int) (s : State) : State :=
  let s1 := coreCycle s
  let x := (s1.tmb.ns.toNat : Int) + d
  resyncAll { s1 with tmb := { s1.tmb with
    secs := s1.tmb.secs + BitVec.ofInt 48 (x / 1000000000),
    ns := BitVec.ofNat 30 (x % 1000000000).toNat } }

/-- Starts a slew of a signed number of ns; it replaces one in progress (R187, R189). -/
def slewTime (d : Int) (ppm : Nat) (s : State) : State :=
  { s with tmb := { s.tmb with slew :=
    (if d = 0 then none
     else some { neg := decide (d < 0), ppm, remain := d.natAbs * 4294967296 * slewUnit }) } }

/-- SNAPSHOT (R179, R183): every owner. -/
def tmbSnapshot (s : State) : State :=
  { s with tmb := { s.tmb with snap :=
    { secs := s.tmb.secs, ns := s.tmb.ns, frac := s.tmb.frac, localCnt := s.tmb.localCnt } } }

/-- SET (R178, R186). -/
def tmbSet (s : State) : State :=
  if s.tmb.owner = 0 ∧ s.tmb.setNs.toNat < 1000000000 then setTime s.tmb.setS s.tmb.setNs.toNat s
  else tmbCmdErr s

/-- STEP (R178, R185). -/
def tmbStep (s : State) : State :=
  let n := s.tmb.stepNs.toInt
  if s.tmb.owner = 0 ∧ -999999999 ≤ n ∧ n ≤ 999999999 then
    stepTime (s.tmb.stepS.toInt * 1000000000 + n) s
  else tmbCmdErr s

/-- A slew of the host ends the Timekeeper's, if one runs (R189). -/
def dropCastleSlew (s : State) : State :=
  { s with ptp := { s.ptp with castleSt := if s.ptp.castleSt = .blocked then .blocked else .idle } }

/-- SLEW (R178, R187 to R189). -/
def tmbSlew (s : State) : State :=
  let p := s.tmb.slewRate.toNat
  if s.tmb.owner = 0 ∧ 1 ≤ p ∧ p ≤ 500 then slewTime s.tmb.slewNs.toInt p (dropCastleSlew s)
  else tmbCmdErr s

/-- SLEW_ABORT (R178). -/
def tmbSlewAbort (s : State) : State :=
  if s.tmb.owner = 0 then { s with tmb := { s.tmb with slew := none } } else tmbCmdErr s

/-- RATE (R178, R184): the new addend governs the addition out of this cycle. -/
def tmbRate (s : State) : State :=
  if s.tmb.owner = 0 then coreCycle (loadAddend s.tmb.rate s) else tmbCmdErr s

/-- SET_SEC_AT_PPS (R179, R223). -/
def tmbSetSecAtPps (s : State) : State :=
  if s.tmb.owner = 2 then { s with tmb := { s.tmb with pps := { s.tmb.pps with secLoad := some s.tmb.setS } } }
  else tmbCmdErr s

/-- A write of TMB_CMD (Table 4-2, R180). -/
def tmbCommand (code : Nat) (s : State) : State :=
  if code = 1 then tmbSnapshot s
  else if code = 2 then tmbSet s
  else if code = 3 then tmbStep s
  else if code = 4 then tmbSlew s
  else if code = 5 then tmbSlewAbort s
  else if code = 6 then tmbRate s
  else if code = 7 then tmbSetSecAtPps s
  else tmbCmdErr s

def execSnapshot (s : State) : Host.Outcome State Fault Refusal := .next (ifCore tmbSnapshot s)
def execSet (s : State) : Host.Outcome State Fault Refusal := .next (ifCore tmbSet s)
def execStep (s : State) : Host.Outcome State Fault Refusal := .next (ifCore tmbStep s)
def execSlew (s : State) : Host.Outcome State Fault Refusal := .next (ifCore tmbSlew s)
def execSlewAbort (s : State) : Host.Outcome State Fault Refusal := .next (ifCore tmbSlewAbort s)
def execRate (s : State) : Host.Outcome State Fault Refusal := .next (ifCore tmbRate s)
def execSetSecAtPps (s : State) : Host.Outcome State Fault Refusal := .next (ifCore tmbSetSecAtPps s)

/-- The applied amount reaches SLEW_NS in the next addition: the slew ends (R187). -/
def slewEnds (s : State) : Bool :=
  match s.tmb.slew with
  | some w => decide (w.remain ≤ slewPart (if inSeal s then 10 else 1) s.tmb)
  | none => false

/-- SLEW_END: the addition that completes the slew. A slew of a castling ends with it (R268). -/
def execSlewEnd (s : State) : Host.Outcome State Fault Refusal :=
  .next (if timeRuns s && slewEnds s then tick s else s)

/-! ### Ownership (R176, R181, R182, R222) -/

/-- Rate correction, in units of 2^-10 ppb, that an addend stands for (R219, R221). -/
def corrOf (a : BitVec 64) (up : Bool) : Int :=
  let x : Int := (17179869184 - (a.toNat : Int)) * 1024000000000
  x / 17179869184 + (if up && x % 17179869184 != 0 then 1 else 0)

/-- A change of owner (R182): the loop and the mean of the addends start afresh, and a holdover of the
Timekeeper ends (R283). TIME_SET clears when the owner becomes PTP (R263). -/
def setOwner (o : BitVec 2) (s : State) : State :=
  if o = s.tmb.owner then s
  else
    let p := s.tmb.pps
    let p1 : PpsLoop :=
      if o = 2 then
        { p with st := 1, integ := corrOf s.tmb.addend (Config.freeBit s.free), goodLock := 0,
                 bad := 0, good := 0, lastAt := localNow s }
      else { p with st := 0 }
    { drawn s with
      tmb := { s.tmb with owner := o, carries := [], holdover := false, pps := p1 },
      ptp := { s.ptp with
        holdover := false, graceEnd := none, timeSet := s.ptp.timeSet && o != 1 } }

/-- PPS_INPUT of the TIME section is a defined capture input (R181). -/
def ppsInputDefined (s : State) : Bool :=
  let b := bodyOf tyTime s
  hasSect tyTime s && decide (u8 b 1 < 8) && natBit (u8 b 7) (u8 b 1)

/-- ROLE of the TIME section; 0 is NONE. -/
def timeRole (s : State) : Nat := if hasSect tyTime s then u8 (bodyOf tyTime s) 576 else 0

/-- A write of TMB_CTRL.OWNER (R181). -/
def writeOwner (o : BitVec 2) (s : State) : State :=
  if o = 3 ∨ (o = 1 ∧ (s.pos.active = false ∨ timeRole s = 0)) ∨
      (o = 2 ∧ (s.pos.active = false ∨ ppsInputDefined s = false)) then tmbCmdErr s
  else
    let s1 := setOwner o s
    if o = 1 then { s1 with ptp := { s1.ptp with timeSet := false } } else s1

def execOwnerWrite (owner : BitVec 2) (s : State) : Host.Outcome State Fault Refusal :=
  .next (ifCore (writeOwner owner) s)

/-! ### Arming (R191 to R195, R230) -/

def cmpAt (n : Nat) (s : State) : Cmp := nth .reset s.tmb.cmps n

def setCmp (n : Nat) (c : Cmp) (s : State) : State :=
  { s with tmb := { s.tmb with cmps := upd (fun _ => c) s.tmb.cmps n } }

/-- Does the running Position make a channel SLOTTED? -/
def serSlotted (ch : Nat) (s : State) : Bool := s.pos.active && flagAt (serEntry ch s) 0 2

/-- Is an arm with these fields refused (R195)? -/
def armRefused (c : Cmp) (s : State) : Bool :=
  decide (1000000000 ≤ c.targetNs.toNat) || c.mode == 3 || decide (10 ≤ c.action.toNat) ||
    (c.action == 9 && (decide (23 < c.line.toNat) || !serSlotted c.line.toNat s)) ||
    (c.mode == 1 && decide (c.period.toNat < 400)) ||
    (c.mode == 2 && (c.period == 0 || decide (2500000 < c.period.toNat)))

/-- Live target of an arm: the staged target, or the first PER_SECOND grid instant from it on (R191,
R198). -/
def armTarget (c : Cmp) : Word × BitVec 30 :=
  if c.mode = 2 then gridTarget c.targetS (gridIndex c.targetNs.toNat c.period.toNat) c.period.toNat
  else (c.targetS, c.targetNs)

/-- Arms comparator `n` with the fields of `c`. `section_` tells that the TIME section arms it. A fire
due at once is left for CMP_FIRE, with LATE set (R192). -/
def armCmp (n : Nat) (c : Cmp) (section_ : Bool) (s : State) : State :=
  if armRefused c s then tmbCmdErr s
  else
    let g := armTarget c
    let c1 := { c with liveS := g.1, liveNs := g.2, late := false, past := false, resync := false,
                       armed := true, fresh := false, lateDue := false }
    let d := cmpDelta g.1 g.2 s.tmb
    if 0 < d then setCmp n c1 s
    else if section_ ∧ c.mode ≠ 0 then
      let h := (gridAfter c1 s.tmb).1
      setCmp n { c1 with liveS := h.1, liveNs := h.2 } s
    else if -1000000000 < d then setCmp n { c1 with late := true } s
    else raise .tmbPast (BitVec.ofNat 32 n) (setCmp n { c1 with armed := false, past := true } s)

/-- Fields of a CTRL write. -/
def ctrlFields (w : Word) (c : Cmp) : Cmp :=
  { c with line := BitVec.ofNat 5 (fld w 12 8), action := BitVec.ofNat 4 (fld w 7 4),
           mode := BitVec.ofNat 2 (fld w 3 2), wakeEn := w.getLsbD 1 }

/-- A write to a comparator of the Position is ignored (R211). -/
def lockWrite (s : State) : State := { s with tmb := { s.tmb with lockWrite := true } }

/-- A write of TMB_CMPn_CTRL (R191 to R195, R211). -/
def writeCmpCtrl (n : Nat) (w : Word) (s : State) : State :=
  let c := cmpAt n s
  if c.locked then lockWrite s
  else if w.getLsbD 0 then armCmp n (ctrlFields w c) false s
  else setCmp n { ctrlFields w c with armed := false, lateDue := false } s

/-! ### Captures (R213 to R217) -/

def capAt (n : Nat) (s : State) : Cap := nth .reset s.tmb.caps n

def updCap (n : Nat) (f : Cap → Cap) (s : State) : State :=
  { s with tmb := { s.tmb with caps := upd f s.tmb.caps n } }

/-- Records an edge; a full FIFO drops its oldest entry (R213, R215). -/
def recordEdge (n : Nat) (e : CapEntry) (s : State) : State :=
  let c := capAt n s
  if c.fifo.length < 16 then updCap n (fun k => { k with fifo := k.fifo ++ [e] }) s
  else raise .tmbCapOvf (BitVec.ofNat 32 n)
    (updCap n (fun k => { k with fifo := k.fifo.drop 1 ++ [e], ovf := true }) s)

/-- The word of a capture FIFO (R216); an empty one reads 0 with VALID clear. -/
def capWord (n : Nat) (s : State) : Word :=
  match (capAt n s).fifo with
  | [] => 0
  | e :: _ => BitVec.ofNat 32 (2 ^ 31 + (if e.rising then 2 ^ 30 else 0) + e.ns.toNat)

/-- A read of FIFO or PEEK: the seconds are loaded, and FIFO pops (R216, R217). -/
def capRead (n : Nat) (pop : Bool) (s : State) : State :=
  match (capAt n s).fifo with
  | [] => s
  | e :: rest => updCap n (fun k => { k with sec := e.secs, fifo := if pop then rest else e :: rest }) s

def execCapFifoRead (n : Fin 8) (s : State) : Host.Outcome State Fault Refusal :=
  .next (ifCore (capRead n true) s)

def execCapPeekRead (n : Fin 8) (s : State) : Host.Outcome State Fault Refusal :=
  .next (ifCore (capRead n false) s)

/-! ### PPS discipline (R218 to R223) -/

/-- τ in seconds. -/
def ppsTau (p : PpsLoop) : Int := 4 * 2 ^ p.tau.toNat

/-- Loads the addend of a rate correction in units of 2^-10 ppb: 4 × (1 − r × 10^-9) ns. Which of the
neighbouring units of 2^-32 ns is taken the specification does not say (log entry 6). -/
def loadCorrection (r : Int) (s : State) : State :=
  let x : Int := 17179869184 * 1024000000000 - 17179869184 * r
  let a := x / 1024000000000 + (if x % 1024000000000 != 0 && Config.freeBit s.free then 1 else 0)
  drawn (loadAddend (BitVec.ofInt 64 a) s)

/-- r limited to ±200,000 ppb (R219). -/
def clampCorr (r : Int) : Int := if r > 204800000 then 204800000 else if r < -204800000 then -204800000 else r

/-- Loads the pending seconds: the accepted pulse marks the start of that second (R223). -/
def loadPpsSecs (pulseSecs : BitVec 48) (e : Int) (s : State) : State :=
  match s.tmb.pps.secLoad with
  | none => s
  | some v =>
    let d := v - (pulseSecs + (if e < 0 then 1 else 0))
    resyncAll { s with tmb := { s.tmb with
      secs := s.tmb.secs + d, pps := { s.tmb.pps with secLoad := none } } }

/-- State after an accepted pulse (Table 4-4): four pulses below 100 ns lock the loop. -/
def ppsStateAfter (p : PpsLoop) (run : Nat) : BitVec 2 :=
  if p.st = 3 then 2 else if p.st = 1 ∧ 4 ≤ run then 2 else p.st

/-- An accepted pulse of phase error `e` (R218, R219, R221). -/
def ppsAccept (pulseSecs : BitVec 48) (e : Int) (s : State) : State :=
  let p := s.tmb.pps
  let stepped := p.st == 1 && decide (1000 < e.natAbs)
  let i0 := if p.st = 3 then corrOf (rateAvg s.tmb) (Config.freeBit s.free) else p.integ
  let eff : Int := if stepped then 0 else e
  let i1 := i0 + eff * 1024 / (ppsTau p * ppsTau p)
  let r := clampCorr (i1 + 2048 * eff / ppsTau p)
  let run := if e.natAbs < 100 then p.goodLock + 1 else 0
  let p1 := { p with integ := i1, rate := r, err := e, good := satInc p.good, goodLock := run, bad := 0,
                     st := ppsStateAfter p run, lastAt := localNow s }
  let s1 := drawn { s with tmb := { s.tmb with pps := p1, holdover := false } }
  let s2 := loadCorrection r (loadPpsSecs pulseSecs e s1)
  if stepped then stepTime (-e) s2 else s2

/-- A pulse outside the window (R220); four in HOLDOVER return the loop to ACQUIRE. -/
def ppsReject (s : State) : State :=
  let p := s.tmb.pps
  let bad := if p.st = 3 then p.bad + 1 else 0
  { s with tmb := { s.tmb with
    holdover := s.tmb.holdover && decide (bad < 4),
    pps := { p with reject := satInc p.reject, good := 0, goodLock := 0, bad,
                    st := if 4 ≤ bad then 1 else p.st } } }

/-- Judges a pulse (Table 4-4). -/
def ppsPulse (pulseSecs : BitVec 48) (c : Nat) (s : State) : State :=
  let e : Int := if c < 500000000 then (c : Int) else (c : Int) - 1000000000
  let w := max 1 s.tmb.pps.windowUs.toNat * 1000
  if s.tmb.pps.st = 1 ∨ e.natAbs ≤ w then ppsAccept pulseSecs e s else ppsReject s

/-- Do the captures record? Not in SEAL (R226). -/
def capturesRun (s : State) : Bool := s.pwr.boot == .ready && s.pwr.ladder != .seal

/-- CAPTURE_EDGE: an edge `ageNs` ago at a capture ball (R213, R219). -/
def captureEdge (n : Nat) (rising : Bool) (ageNs : Nat) (s : State) : State :=
  let c := capAt n s
  let picked := c.edge == 3 || c.edge == (if rising then 1 else 2)
  let t := stampAgo ageNs s
  let s1 := if picked then recordEdge n { rising, ns := t.ns, secs := t.secs.setWidth 32 } s else s
  if s.tmb.owner = 2 ∧ s.tmb.pps.input.toNat = n ∧ rising then ppsPulse t.secs t.ns.toNat s1 else s1

def execCaptureEdge (n : Fin 8) (rising : Bool) (ageNs : Nat) (s : State) :
    Host.Outcome State Fault Refusal :=
  .next (if capturesRun s then captureEdge n rising ageNs s else s)

/-- PPS_HOLDOVER: 3 s without an accepted pulse while LOCKED (Table 4-4, R221). -/
def execPpsHoldover (s : State) : Host.Outcome State Fault Refusal :=
  .next
    (if timeRuns s && s.tmb.owner == 2 && s.tmb.pps.st == 2 &&
        due (s.tmb.pps.lastAt + 750000000) s then
      let s1 := { s with tmb := { s.tmb with
        holdover := true, pps := { s.tmb.pps with st := 3, bad := 0, goodLock := 0 } } }
      raise .holdover (s.tmb.owner.setWidth 32) (loadAddend (rateAvg s.tmb) s1)
    else s)

/-! ### The TIME section at an Opening or swap (R211, R212, R229, R964) -/

/-- Arms the comparators of the section, from `n` on; the others become the host's (R212). -/
def armSection (body : List Byte) : List Nat → State → State
  | [], s => s
  | n :: ns, s =>
    let c := cmpAt n s
    if natBit (be16 body 4) n then
      let e := slice body (16 + 32 * n) 32
      let c1 := { c with
        locked := true, action := BitVec.ofNat 4 (u8 e 0), mode := BitVec.ofNat 2 (u8 e 1),
        wakeEn := flagAt e 2 0, line := if u8 e 0 = 9 then BitVec.ofNat 5 (u8 e 3) else 0,
        targetS := BitVec.ofNat 32 (be32 e 4), targetNs := BitVec.ofNat 30 (be32 e 8),
        period := BitVec.ofNat 32 (be32 e 12) }
      armSection body ns (armCmp n c1 true (setCmp n c1 s))
    else armSection body ns (setCmp n { c with locked := false } s)

/-- Fields of TMB_PPSO_CTRLm. -/
def ppsoFields (w : Nat) (p : Ppso) : Ppso :=
  { p with widthUs := BitVec.ofNat 20 (w / 4), qualify := natBit w 1, polarity := natBit w 0 }

/-- Loads the PPSO and capture settings the section defines (R229). -/
def loadIo (body : List Byte) (t : TmbBlk) : TmbBlk :=
  let ppso := (List.range 4).map (fun m =>
    let p := nth .reset t.ppso m
    if natBit (u8 body 6) m then ppsoFields (be32 body (528 + 4 * m) % 2 ^ 22) p else p)
  let caps := (List.range 8).map (fun n =>
    let c := nth .reset t.caps n
    if natBit (u8 body 7) n then { c with edge := BitVec.ofNat 2 (u8 body (547 + 4 * n)) } else c)
  { t with ppso, caps }

/-- Loads TMB from the TIME section, or leaves it to the host where there is none (R229, R964). -/
def loadTimeBase (s : State) : State :=
  if hasSect tyTime s then
    let b := bodyOf tyTime s
    let s1 := setOwner (BitVec.ofNat 2 (u8 b 0)) s
    let p := s1.tmb.pps
    let p1 : PpsLoop :=
      if u8 b 0 = 2 then
        { p with windowUs := BitVec.ofNat 8 (u8 b 2), tau := BitVec.ofNat 2 (u8 b 3),
                 input := BitVec.ofNat 3 (u8 b 1) }
      else p
    let t := loadIo b s1.tmb
    armSection b (List.range 16) { s1 with tmb := { t with pps := p1 } }
  else
    let s1 := setOwner 0 s
    { s1 with tmb := { s1.tmb with cmps := s1.tmb.cmps.map (fun c => { c with locked := false }) } }

/-- LOCKED holds only while the Position runs (R211). -/
def unlockCmps (s : State) : State :=
  { s with tmb := { s.tmb with cmps := s.tmb.cmps.map (fun c => { c with locked := false }) } }

end Sys2Proof.Machine
end

