-- ==== Sys2Proof/Machine/Servo.lean ====
section
/-!
DEFINITION. The Timekeeper's domains, servos, castling, decisions and holdover (spec/05, R257 to R290).
Offsets are in units of 1/8192000 ns; rates in units of 1/33554432000 ppb, so that the law of R260 is
exact for every τ up to 64 s.
-/

namespace Sys2Proof.Machine

/-- One ns. -/
def nsU : Int := 8192000

/-- One ppb of a rate. -/
def ppbU : Int := 33554432000

/-- A quotient of which the specification does not say how it is rounded: one of the two neighbouring
integers (log entry 6). -/
def openDiv (free : Nat) (a b : Int) : Int :=
  a / b + (if a % b != 0 && Config.freeBit free then 1 else 0)

/-! ### Domains -/

def domOf (d : Bool) (s : State) : PtpDom := if d then s.ptp.d1 else s.ptp.d0

def updDom (d : Bool) (f : PtpDom → PtpDom) (s : State) : State :=
  if d then { s with ptp := { s.ptp with d1 := f s.ptp.d1 } }
  else { s with ptp := { s.ptp with d0 := f s.ptp.d0 } }

/-- Is a domain enabled: a role is set, and SEC_EN for the secondary? -/
def domEnabled (d : Bool) (s : State) : Bool := s.ptp.role != 0 && (!d || s.ptp.secEn)

/-- Does a domain steer the time base (R259)? -/
def steers (d : Bool) (s : State) : Bool := s.ptp.activeDom == d && s.tmb.owner == 1

/-- PTP clock entry of the TIME section (Table 4-13). -/
def clockEntry (s : State) : List Byte := slice (bodyOf tyTime s) 576 64

/-- Final τ and LOCK_NS (Table 5-4). -/
def finalTau (s : State) : Nat := if hasSect tyTime s then u8 (clockEntry s) 22 else 16
def lockNs (s : State) : Nat := if hasSect tyTime s then be16 (clockEntry s) 24 else 100

/-- PTP_Dk_OFS_DEV: mean of the last samples, in ns, within 32 bits (R257). -/
def ofsDevNs (d : PtpDom) (free : Nat) : Int :=
  if d.ofsDev.isEmpty then 0 else satInt 32 (openDiv free d.ofsDev.sum ((d.ofsDev.length : Int) * nsU))

/-- Domain time of a model at a local count (R257). -/
def modelAt (d : PtpDom) (at_ : Nat) : Option Int :=
  d.model.map (fun m =>
    let n : Int := (at_ : Int) - m.1
    m.2 + n * 32768000 - n * 32768000 * d.rate / (ppbU * 1000000000))

/-- PTP_MUTUAL_NS: secondary minus primary at the same local count (R258). -/
def mutualNs (s : State) : Int :=
  match modelAt s.ptp.d0 (localNow s), modelAt s.ptp.d1 (localNow s) with
  | some a, some b => satInt 32 (openDiv s.free (b - a) nsU)
  | _, _ => 0

/-- Loads the addend of a rate correction: 4 × (1 − r × 10^-9) ns (R260). -/
def loadRate (r : Int) (s : State) : State :=
  let k := ppbU * 1000000000
  drawn (loadAddend (BitVec.ofInt 64 (openDiv s.free (17179869184 * k - 17179869184 * r) k)) s)

/-! ### Castling (R267 to R280) -/

/-- CASTLE_STATE as it reads: a slew of a castling that has ended leaves IDLE. -/
def castleNow (s : State) : CastleSt :=
  match s.ptp.castleSt, s.tmb.slew with
  | .residualSlew, none => .idle
  | .decidedSlew, none => .idle
  | c, _ => c

/-- PTP_STATUS.CMD_ERR. -/
def ptpCmdErr (s : State) : State := { s with ptp := { s.ptp with cmdErr := true } }

/-- SLEW_PPM held within 1 to 10 (Table 5-10). -/
def castlePpm (s : State) : Nat := max 1 (min 10 s.ptp.slewPpm.toNat)

/-- Makes a domain active: holdover ends, and its rate is loaded (R268, R283). -/
def activate (d : Bool) (s : State) : State :=
  loadRate (domOf d s).rate
    { s with
      ptp := { s.ptp with activeDom := d, holdover := false, graceEnd := none, lostAt := none },
      tmb := { s.tmb with holdover := false } }

/-- Completes a castling to `cand` with offset `δ`: `how` is 1 hitless, 2 SLEW, 3 STEP. -/
def castleTo (cand : Bool) (δ : Int) (how : Nat) (s : State) : State :=
  let s1 := activate cand s
  let s2 := if how = 3 then stepTime δ s1 else slewTime δ (castlePpm s) s1
  let st : CastleSt :=
    if how = 3 ∨ δ = 0 then .idle else if how = 2 then .decidedSlew else .residualSlew
  raise .castle (intWord δ)
    { s2 with ptp := { s2.ptp with
      castleSt := st, castleCnt := satInc s2.ptp.castleCnt, castleLast := BitVec.ofNat 3 how } }

/-- Evaluates a castling to `cand`, which is LOCKED (R268, R270, R272). -/
def castleTry (cand : Bool) (s : State) : State :=
  let δ := ofsDevNs (domOf cand s) s.free
  if δ.natAbs ≤ castleWindow s then castleTo cand δ 1 s
  else
    let s1 := raise .castleBlocked (intWord δ)
      { s with ptp := { s.ptp with
        castleSt := .blocked, cand, blockedCnt := satInc s.ptp.blockedCnt } }
    if s.ptp.autoPolicy = 1 then castleTo cand δ 2 s1 else s1

/-- Can a castling to `cand` be triggered (R267)? -/
def castleAllowed (cand : Bool) (s : State) : Bool :=
  s.tmb.owner == 1 && domEnabled cand s && (domOf cand s).servo == 3

/-- CASTLE of PTP_CMD (R267). -/
def ptpCastle (s : State) : State :=
  let cand := !s.ptp.activeDom
  if castleAllowed cand s then castleTry cand s else ptpCmdErr s

/-- A decision: 1 SLEW, 2 STEP, 3 STAY (Table 5-5, R273, R276, R277). One that comes in the cycle in
which another has closed the episode is ignored. -/
def ptpDecide (what : Nat) (s : State) : State :=
  if s.ptp.castleSt = .blocked ∧ s.tmb.owner = 1 then
    if what = 3 then s
    else
      let δ := ofsDevNs (domOf s.ptp.cand s) s.free
      let now := localNow s
      let s1 := castleTo s.ptp.cand δ (what + 1) s
      { s1 with ptp := { s1.ptp with decisionThisCycle := some (if what = 2 then now + 1 else now) } }
  else if s.ptp.decisionThisCycle = some (localNow s) then
    { s with ptp := { s.ptp with ignored := true } }
  else ptpCmdErr s

/-- CLEAR_TIME_SET (R263). -/
def ptpClearTimeSet (s : State) : State := { s with ptp := { s.ptp with timeSet := false } }

/-- A write of PTP_CMD (Table 5-10). -/
def ptpCommand (code : Nat) (s : State) : State :=
  if code = 1 then ptpCastle s
  else if code = 2 then ptpDecide 1 s
  else if code = 3 then ptpDecide 2 s
  else if code = 4 then ptpDecide 3 s
  else if code = 5 then ptpClearTimeSet s
  else ptpCmdErr s

def execCastle (s : State) : Host.Outcome State Fault Refusal := .next (ifCore ptpCastle s)
def execDecideSlew (s : State) : Host.Outcome State Fault Refusal := .next (ifCore (ptpDecide 1) s)
def execDecideStep (s : State) : Host.Outcome State Fault Refusal := .next (ifCore (ptpDecide 2) s)
def execDecideStay (s : State) : Host.Outcome State Fault Refusal := .next (ifCore (ptpDecide 3) s)
def execClearTimeSet (s : State) : Host.Outcome State Fault Refusal := .next (ifCore ptpClearTimeSet s)

/-- Follows a blocked episode after the candidate's offset or servo has moved (R275). -/
def reviewBlocked (s : State) : State :=
  if s.ptp.castleSt = .blocked then
    let c := domOf s.ptp.cand s
    if c.servo ≠ 3 then { s with ptp := { s.ptp with castleSt := .idle, castleLast := 4 } }
    else
      let δ := ofsDevNs c s.free
      if δ.natAbs ≤ castleWindow s then castleTo s.ptp.cand δ 1 s else s
  else s

/-! ### Holdover (R281 to R284, R288) -/

/-- Puts the time base in holdover (R281). -/
def enterHoldover (s : State) : State :=
  if s.ptp.holdover then s
  else
    let s1 := { s with
      tmb := { s.tmb with holdover := true },
      ptp := { s.ptp with
        holdover := true, lostAt := none, heldSync := smpSynchOf (tqNow s) s,
        graceEnd := some (localNow s + s.ptp.grace.toNat * 250000000) } }
    raise .holdover (s.tmb.owner.setWidth 32) (loadAddend (rateAvg s.tmb) s1)

/-- Has the active domain been lost for 64 cycles without a castling (R281)? -/
def lossStands (s : State) : Bool :=
  match s.ptp.lostAt with
  | some t => due (t + 64) s
  | none => false

/-- PTP_HOLDOVER_ENTRY (R281). -/
def execPtpHoldoverEntry (s : State) : Host.Outcome State Fault Refusal :=
  .next (if timeRuns s && s.tmb.owner == 1 && lossStands s then enterHoldover s else s)

/-- HOLDOVER_GRACE_EXPIRY: from now on TQ is UNSYNC (R288). -/
def execHoldoverGraceExpiry (s : State) : Host.Outcome State Fault Refusal :=
  .next
    (if timeRuns s && s.ptp.holdover && dueOpt s.ptp.graceEnd s then
      { s with ptp := { s.ptp with graceEnd := some 0 } }
    else s)

/-! ### Loss of a domain (R265, R266) -/

/-- A domain has lost its master: LOST, the event, and for the active domain castling or holdover. -/
def loseDomain (d : Bool) (s : State) : State :=
  let s1 := raise .ptpMasterLost (if d then 1 else 0)
    (updDom d (fun k => { k with servo := 4, parent := none }) s)
  let s2 := reviewBlocked s1
  if s2.ptp.activeDom = d ∧ s2.tmb.owner = 1 ∧ s2.ptp.holdover = false then
    let s3 := { s2 with ptp := { s2.ptp with lostAt := some (localNow s2) } }
    if s3.ptp.autoCastle && castleAllowed (!d) s3 && s3.ptp.castleSt != .blocked then castleTry (!d) s3
    else s3
  else s2

/-! ### Servos (R259 to R264, Table 5-4) -/

/-- Rate limit of ±200,000 ppb (R260). -/
def clampRate (r : Int) : Int :=
  if r > 200000 * ppbU then 200000 * ppbU else if r < -(200000 * ppbU) then -(200000 * ppbU) else r

/-- One application of the law of R260 with offset `o`: i + o/τ² and r = i + 2o/τ, exactly. -/
def servoLaw (o : Int) (d : PtpDom) : PtpDom :=
  let τ : Int := (max 1 d.tau : Nat)
  let i := d.integ + o * 4096 / (τ * τ)
  { d with integ := i, rate := clampRate (i + 8192 * o / τ) }

/-- A master has been selected: the servo acquires, from the rate it has (Table 5-4). R284 makes the
domain active where the time base is in holdover and no domain has set it yet. -/
def startServo (d : Bool) (s : State) : State :=
  let s1 := updDom d (fun k => { k with
    servo := 1, tau := 2, good := 0, fine := 0, lockRun := 0, outliers := 0, ofsDev := [],
    integ := k.rate, lastSync := localNow s, lastAnnounce := localNow s }) s
  if s1.ptp.holdover ∧ s1.ptp.timeSet = false ∧ s1.tmb.owner = 1 then activate d s1 else s1

/-- No master is selected: the servo idles. -/
def idleServo (d : Bool) (s : State) : State :=
  reviewBlocked (updDom d (fun k => { k with servo := 0, tau := 0, parent := none }) s)

/-- A domain has reached LOCKED: in holdover with TIME_SET it becomes the candidate (R280). -/
def reachedLock (d : Bool) (s : State) : State :=
  if s.ptp.holdover ∧ s.ptp.timeSet ∧ s.tmb.owner = 1 ∧ s.ptp.castleSt ≠ .blocked then castleTry d s else s

/-- Stage changes of a valid sample in TRACK or LOCKED (Table 5-4, R262). -/
def trackSample (o : Int) (final lock : Nat) (k : PtpDom) : PtpDom :=
  let a := o.natAbs
  let ns := nsU.natAbs
  if 1000 * ns ≤ a then { k with tau := max 2 (k.tau / 2), servo := 2, fine := 0, lockRun := 0 }
  else
    let run := if a < lock * ns then min 8 (k.lockRun + 1) else 0
    let fine := if a < 250 * ns then k.fine + 1 else 0
    let up := decide (8 ≤ fine) && decide (k.tau < final)
    let τ := if up then min final (2 * k.tau) else k.tau
    { k with tau := τ, fine := if up then 0 else fine, lockRun := run,
             servo := if final ≤ τ ∧ 8 ≤ run then 3 else k.servo }

/-- Records a sample: OFM, and the offset from device time (R257). -/
def noteSample (o dev : Int) (k : PtpDom) : PtpDom :=
  { k with ofm := o, ofsDev := (-dev :: k.ofsDev).take 8, outliers := 0 }

/-- Loads the rate of the active domain while it steers (R259). -/
def steer (d : Bool) (s : State) : State :=
  if steers d s ∧ s.ptp.holdover = false then loadRate (domOf d s).rate s else s

/-- A valid sample in ACQUIRE (R263, Table 5-4). -/
def acquireSample (d : Bool) (o dev : Int) (s : State) : State :=
  let ns := nsU.natAbs
  let far := decide (1000 * ns < o.natAbs)
  let jump := far && steers d s && !s.ptp.timeSet
  let rephase := far && !steers d s
  let k := domOf d s
  let good := if o.natAbs < 1000 * ns then k.good + 1 else k.good
  let eff : Int := if jump || rephase then 0 else o
  let k1 := servoLaw eff { noteSample o (if jump then 0 else dev) k with
    good, servo := if 4 ≤ good then 2 else 1, fine := 0, lockRun := 0 }
  let s1 := updDom d (fun _ => k1) s
  let s2 :=
    if 4 ≤ good ∧ steers d s then { s1 with ptp := { s1.ptp with timeSet := true } } else s1
  let s3 := steer d s2
  if jump then stepTime (-(openDiv s.free o nsU)) (drawn s3) else s3

/-- A sample of a domain with offset `dev` from device time, device minus domain time (R257 to R263).
The model is set to the domain's time at this instant. -/
def servoSample (d : Bool) (dev : Int) (s : State) : State :=
  let k := domOf d s
  let now := localNow s
  let devU : Int := (devNs s : Int) * nsU + (s.tmb.frac.toNat : Int) * nsU / 4294967296
  let domU := devU - dev
  let o := if steers d s then dev else
    (match modelAt k now with
     | some m => m - domU
     | none => 0)
  let outlier := (k.servo == 2 || k.servo == 3) && decide (10000 * nsU.natAbs < o.natAbs)
  if outlier then
    let n := k.outliers + 1
    let s1 := updDom d (fun x => { x with
      discard := satInc x.discard, outliers := if 4 ≤ n then 0 else n,
      servo := if 4 ≤ n then 1 else x.servo, tau := if 4 ≤ n then 2 else x.tau,
      good := if 4 ≤ n then 0 else x.good, fine := 0, lockRun := 0 }) s
    let s2 :=
      if 4 ≤ n ∧ s1.ptp.holdover ∧ s1.ptp.timeSet = false ∧ s1.tmb.owner = 1 then activate d s1 else s1
    reviewBlocked s2
  else
    let rephase := decide (1000 * nsU.natAbs < o.natAbs) && k.servo == 1
    let phase := if steers d s || rephase then domU else (modelAt k now).getD domU
    let s1 :=
      if k.servo = 1 then acquireSample d o dev s
      else
        let s' := updDom d (fun x => servoLaw o (trackSample o (finalTau s) (lockNs s) (noteSample o dev x))) s
        steer d s'
    let s2 := updDom d (fun x => { x with model := some (now, phase), lastSync := localNow s1 }) s1
    let s3 := reviewBlocked s2
    if (domOf d s3).servo = 3 ∧ k.servo ≠ 3 then reachedLock d s3 else s3

end Sys2Proof.Machine
end

