-- ==== Sys2Proof/Machine/PtpMsg.lean ====
section
/-!
DEFINITION. The Timekeeper's messages (spec/05, R232 to R256): the best master clock algorithm, peer
delay, Sync and Announce, residence times. The layouts of the messages and the algorithm are those of
IEEE 1588-2019, which R232 names (log entry 25).
-/

namespace Sys2Proof.Machine

/-! ### Ports and domains -/

def ptpPort (p : Nat) (s : State) : PtpPort := nth .reset s.ptp.ports p

def updPort (p : Nat) (f : PtpPort → PtpPort) (s : State) : State :=
  { s with ptp := { s.ptp with ports := upd f s.ptp.ports p } }

def portDom (p : Nat) (d : Bool) (s : State) : PortDom :=
  if d then (ptpPort p s).dom1 else (ptpPort p s).dom0

def updPortDom (p : Nat) (d : Bool) (f : PortDom → PortDom) (s : State) : State :=
  updPort p (fun k => if d then { k with dom1 := f k.dom1 } else { k with dom0 := f k.dom0 }) s

/-- The Timekeeper runs: a role is set, in PLAY (R235, R282). -/
def ptpRuns (s : State) : Bool := boardRuns s && s.ptp.role != 0

/-- Is a port a PTP port that can take part now (R238)? -/
def ptpPortUp (p : Nat) (s : State) : Bool := (ptpPort p s).enabled && forwarding p s

/-- The domain of a domain number, if it is configured (R233). -/
def domByNumber (n : Nat) (s : State) : Option Bool :=
  if s.ptp.role = 0 then none
  else if s.ptp.d0.number.toNat = n then some false
  else if s.ptp.secEn ∧ s.ptp.d1.number.toNat = n then some true
  else none

/-- Interval 2^k s in core cycles. -/
def logCycles (k : Int) : Nat :=
  if 0 ≤ k then 250000000 * 2 ^ k.toNat else 250000000 / 2 ^ (-k).toNat

/-- Identity of the local clock and of one of its ports. -/
def clockId (s : State) : Nat := be64 (clockEntry s) 8
def portId (p : Nat) (s : State) : Nat := clockId s * 65536 + (p + 1)

/-! ### Fields of a message (IEEE 1588-2019, clause 13) -/

def ptpType (m : List Byte) : Nat := u8 m 0 % 16
def ptpDomain (m : List Byte) : Nat := u8 m 4
def ptpTwoStep (m : List Byte) : Bool := flagAt m 6 1
def ptpCorr (m : List Byte) : Int := asSigned 64 (be64 m 8) * 125
def ptpSender (m : List Byte) : Nat := ofBE (slice m 20 10)
def ptpSeq (m : List Byte) : Nat := be16 m 30
def ptpStamp (m : List Byte) : Int := ((ofBE (slice m 34 6) * 1000000000 + be32 m 40 : Nat) : Int) * nsU
def ptpReqId (m : List Byte) : Nat := ofBE (slice m 44 10)

/-- A correctionField, from units of 1/8192000 ns. -/
def corrBytes (c : Int) : List Byte := toBE 8 (c / 125 % 2 ^ 64).toNat

/-- A timestamp field, from units; below zero counts back from 2^48 s. -/
def stampBytes (t : Int) : List Byte :=
  let n := (t / nsU % (2 ^ 48 * 1000000000)).toNat
  toBE 6 (n / 1000000000) ++ toBE 4 (n % 1000000000)

/-- The part of a timestamp below one ns. -/
def subNs (t : Int) : Int := t % nsU

/-- Replaces bytes at an offset. -/
def splice (m : List Byte) (o : Nat) (b : List Byte) : List Byte := m.take o ++ b ++ m.drop (o + b.length)

/-- Adds to the correctionField of a message. -/
def addCorr (m : List Byte) (c : Int) : List Byte := splice m 8 (corrBytes (ptpCorr m + c))

/-- A header: type, length, domain, flags, correction, sender, sequence number, log interval. -/
def ptpHeader (ty len dom flags : Nat) (corr : Int) (sender seq : Nat) (log : Int) : List Byte :=
  [BitVec.ofNat 8 ty, 0x12] ++ toBE 2 len ++ [BitVec.ofNat 8 dom, 0] ++ toBE 2 flags ++ corrBytes corr ++
    toBE 4 0 ++ toBE 10 sender ++ toBE 2 seq ++ [if ty = 0 then 0 else if ty = 8 then 2 else 5,
      BitVec.ofInt 8 log]

/-- An untagged frame of a port's MAC address. -/
def ptpFrame (pdelay : Bool) (p : Nat) (m : List Byte) (s : State) : List Byte :=
  (if pdelay then [0x01, 0x80, 0xC2, 0x00, 0x00, 0x0E] else [0x01, 0x1B, 0x19, 0x00, 0x00, 0x00]) ++
    slice (portEntry p s) 8 6 ++ [0x88, 0xF7] ++ m

/-! ### The best master clock algorithm (R237 to R240) -/

/-- clockClass the local clock announces (R237, Table 5-3). -/
def localClass (s : State) : Nat :=
  if s.ptp.role = 2 then 255
  else if s.tmb.owner = 1 then u8 (clockEntry s) 4
  else u8 (clockEntry s) (16 + (tqNow s).toNat)

/-- Data of the local clock as grandmaster. The offset from UTC and the flags it announces are not
stated (log entry 25). -/
def localGm (s : State) : GmData :=
  let e := clockEntry s
  { prio1 := BitVec.ofNat 8 (u8 e 2), clockClass := BitVec.ofNat 8 (localClass s),
    accuracy := BitVec.ofNat 8 (u8 e 5), variance := BitVec.ofNat 16 (be16 e 6),
    prio2 := BitVec.ofNat 8 (u8 e 3), gmId := BitVec.ofNat 64 (clockId s), stepsRemoved := 0,
    utcOffset := (Config.freeWord s.free).setWidth 16, timeSource := BitVec.ofNat 8 (u8 e 21),
    flags := (Config.freeWord (s.free + 1)).setWidth 6, tti := BitVec.ofNat 32 (be32 e 36) }

/-- Rank of a data set: grandmaster attributes first, then the path (clause 9.3.4). Smaller is
better. -/
def gmRank (g : GmData) : Nat :=
  ofBE ([g.prio1, g.clockClass, g.accuracy] ++ toBE 2 g.variance.toNat ++ [g.prio2] ++
    toBE 8 g.gmId.toNat)

def fullRank (g : GmData) (sender port : Nat) : Nat :=
  ((gmRank g * 65536 + g.stepsRemoved.toNat) * 2 ^ 80 + sender) * 16 + port

/-- Is a foreign master qualified: two Announce messages within four intervals, not this clock? -/
def foreignOk (d : Bool) (f : Foreign) (s : State) : Bool :=
  let w := 4 * logCycles (domOf d s).logAnnounce
  decide (2 ≤ (f.seen.filter (fun t => decide (localNow s < t + w))).length) &&
    decide (f.data.stepsRemoved.toNat < 255) && decide (f.sender.toNat / 65536 ≠ clockId s)

/-- The best qualified foreign master of a port. -/
def bestOf (p : Nat) (d : Bool) (s : State) : Option Foreign :=
  ((portDom p d s).foreign.filter (fun f => foreignOk d f s)).foldl (fun b f =>
    match b with
    | none => some f
    | some x => if fullRank f.data f.sender.toNat p < fullRank x.data x.sender.toNat p then some f else b)
    none

/-- Ports of a domain's data set (R238, R253). -/
def bmcaPorts (d : Bool) (s : State) : List Nat :=
  (List.range 8).filter (fun p => ptpPortUp p s && !(portDom p d s).pdelay.excluded)

/-- The best port with its master. -/
def bestPort (d : Bool) (s : State) : Option (Nat × Foreign) :=
  (bmcaPorts d s).foldl (fun b p =>
    match bestOf p d s, b with
    | none, _ => b
    | some f, none => some (p, f)
    | some f, some (q, x) =>
      if fullRank f.data f.sender.toNat p < fullRank x.data x.sender.toNat q then some (p, f) else b) none

/-- The state decision for one port. 4 LISTENING, 6 MASTER, 7 PASSIVE, 9 SLAVE. -/
def decide1 (p : Nat) (d : Bool) (best : Option (Nat × Foreign)) (s : State) : BitVec 4 :=
  let mine := gmRank (localGm s)
  let cur := (portDom p d s).state
  let slaveOnly := s.ptp.role == 2
  let timedOut := decide ((portDom p d s).since +
    (domOf d s).annTimeout * logCycles (domOf d s).logAnnounce ≤ localNow s)
  let idleState : BitVec 4 := if slaveOnly then 4 else if cur = 6 ∨ timedOut then 6 else 4
  match best with
  | none => idleState
  | some (q, f) =>
    if !slaveOnly && decide (mine < gmRank f.data) then
      (match bestOf p d s with
       | some _ => 6
       | none => idleState)
    else if !slaveOnly && decide (localClass s < 128) then 7
    else if p = q then 9
    else if pairMode p s ≠ 0 ∧ q = partner p then 7
    else if slaveOnly then 7
    else
      match bestOf p d s with
      | some x => if x.data.gmId = f.data.gmId then 7 else 6
      | none => idleState

/-- Sets the decided states of ports. -/
def setStates (d : Bool) (best : Option (Nat × Foreign)) : List Nat → State → State
  | [], s => s
  | p :: ps, s =>
    let st : BitVec 4 :=
      if (ptpPort p s).enabled = false ∨ domEnabled d s = false then 3
      else if forwarding p s = false then 3
      else if (portDom p d s).pdelay.excluded then 4
      else decide1 p d best s
    setStates d best ps (updPortDom p d (fun k => { k with state := st }) s)

/-- Does a role run the state decision? Pure transparent clocks do not (Table 5-3). -/
def bmcaRole (s : State) : Bool := s.ptp.role != 0 && s.ptp.role != 4 && s.ptp.role != 5

/-- Takes the master that the decision found, or leaves none. `lost` tells that a loss of the former
master is a loss of the domain (R265), not a better local clock. -/
def takeMaster (d : Bool) (lost : Bool) (s : State) : State :=
  let slave := (bmcaPorts d s).find? (fun p => (portDom p d s).state == 9)
  let k := domOf d s
  match slave with
  | some p =>
    (match bestOf p d s with
     | some f =>
       let same := k.master == f.sender && k.servo != 0 && k.servo != 4
       let s1 := updDom d (fun x => { x with parent := some p, master := f.sender, gm := f.data }) s
       if same then s1 else startServo d s1
     | none => s)
  | none =>
    if k.parent.isNone then s
    else if lost then loseDomain d s
    else idleServo d s

/-- Runs the state decision of a domain. -/
def runBmca (d : Bool) (lost : Bool) (s : State) : State :=
  if bmcaRole s && domEnabled d s then
    takeMaster d lost (setStates d (bestPort d s) (List.range 8) s)
  else s

/-- A port leaves the data set of both domains (R238). -/
def ptpPortDown (p : Nat) (s : State) : State :=
  let clear (k : PortDom) : PortDom := { k with state := 3, foreign := [], syncWait := none }
  let s1 := updPort p (fun k => { k with dom0 := clear k.dom0, dom1 := clear k.dom1 }) s
  if ptpRuns s1 then runBmca true true (runBmca false true s1) else s1

/-- A port comes back: it listens (R238). -/
def ptpPortBack (p : Nat) (s : State) : State :=
  let wake (k : PortDom) : PortDom := { k with state := 4, since := localNow s, foreign := [] }
  if s.ptp.role ≠ 0 ∧ (ptpPort p s).enabled then
    updPort p (fun k => { k with dom0 := wake k.dom0, dom1 := if s.ptp.secEn then wake k.dom1 else k.dom1 }) s
  else s

/-! ### Timestamps (R243 to R245) -/

/-- An ingress instant in units, less the ingress latency (R244). Messages that go through the board carry a stamp
from which it has been taken already (R19, R22). -/
def ingressTime (p : Nat) (t : Stamp) (s : State) : Int :=
  (t.absNs : Int) * nsU - (ptpPort p s).ingressPs.toInt * 8192

/-- Core cycles from the selection of a frame to its first bit (Table 10-4). -/
def pipeCycles : Nat := 36

/-- Core cycles of one byte on an Ethernet port. -/
def byteCycles (p : Nat) (s : State) : Nat := if (nth .reset s.eth p).speed100 then 20 else 2

/-- Device time, in ns, `k` core cycles from now. -/
def devNsIn (k : Nat) (s : State) : Nat :=
  s.tmb.secs.toNat * 1000000000 +
    (s.tmb.ns.toNat * 4294967296 + s.tmb.frac.toNat + k * s.tmb.addend.toNat) / 4294967296

/-- The egress instant of a frame selected now, the end of its start delimiter at the balls, plus the
egress latency (R243, R244, R246). -/
def egressTime (p : Nat) (s : State) : Int :=
  (devNsIn (pipeCycles + 8 * byteCycles p s) s : Int) * nsU + (ptpPort p s).egressPs.toInt * 8192

def asymOf (p : Nat) (s : State) : Int := (ptpPort p s).asymPs.toInt * 8192

/-- Offset of a domain's time from device time for a port that is master in it: 0 for the active domain
and for a domain whose grandmaster is the local clock. -/
def domainOffset (d : Bool) (s : State) : Int :=
  let k := domOf d s
  if s.ptp.activeDom = d ∨ k.parent.isNone ∨ k.ofsDev.isEmpty then 0
  else k.ofsDev.sum / (k.ofsDev.length : Int)

/-- meanLinkDelay of a port and domain in units (R252). -/
def meanDelay (k : PortDom) : Int :=
  if k.pdelay.delays.isEmpty then 0 else k.pdelay.delays.sum / (k.pdelay.delays.length : Int)

/-- PTP_PORTn_LINK_DELAYk (Table 5-12). -/
def linkDelayWord (p : Nat) (d : Bool) (s : State) : Word :=
  let k := portDom p d s
  if s.ptp.role = 0 ∨ (ptpPort p s).enabled = false ∨ k.pdelay.delays.isEmpty then 0xFFFFFFFF
  else intWord (openDiv s.free k.pdelay.delays.sum ((k.pdelay.delays.length : Int) * nsU))

/-! ### Peer delay (R251 to R253) -/

/-- Does a role measure and answer peer delay? An E2E TC forwards those messages unchanged (R255). -/
def pdelayRole (s : State) : Bool := s.ptp.role != 0 && s.ptp.role != 5

/-- Sends a Pdelay_Req in one domain (R251). -/
def sendPdelay (p : Nat) (d : Bool) (s : State) : State :=
  if domEnabled d s then
    let k := (portDom p d s).pdelay
    let dom := domOf d s
    let m := ptpHeader 2 54 dom.number.toNat 0 (-(asymOf p s)) (portId p s) k.seq.toNat 0x7F ++
      List.replicate 20 0
    queueOwn .ptp p 2 (if d then 1 else 0) (ptpFrame true p m s) (stampNow s) []
      (updPortDom p d (fun x => { x with pdelay := { x.pdelay with
        seq := x.pdelay.seq + 1, t1 := none, t2 := none, t4 := none, corr := 0, awaiting := true } }) s)
  else s

/-- PDELAY_REQ_TX. -/
def execPdelayReqTx (port : Fin 8) (s : State) : Host.Outcome State Fault Refusal :=
  .next
    (if ptpRuns s && pdelayRole s && ptpPortUp port s then sendPdelay port true (sendPdelay port false s)
    else s)

/-- PDELAY_TIMEOUT: a request without a complete response counts; the third in a row takes the port out
of the data set (R253). -/
def pdelayTimeout (p : Nat) (d : Bool) (s : State) : State :=
  let s1 := updPort p (fun k => { k with pdelayTo := satInc k.pdelayTo }) s
  let n := (portDom p d s).pdelay.timeouts + 1
  let s2 := updPortDom p d (fun x => { x with pdelay := { x.pdelay with
    awaiting := false, timeouts := n, excluded := decide (3 ≤ n) } }) s1
  if n = 3 then runBmca d true s2 else s2

def execPdelayTimeout (port : Fin 8) (dom1 : Bool) (s : State) : Host.Outcome State Fault Refusal :=
  .next
    (if ptpRuns s && (portDom port dom1 s).pdelay.awaiting then pdelayTimeout port dom1 s else s)

/-- Answers a Pdelay_Req: Pdelay_Resp with t2, in one-step or two-step form (R247, R251). -/
def answerPdelay (p : Nat) (d : Bool) (m : List Byte) (t : Stamp) (s : State) : State :=
  let t2 := ingressTime p t s + domainOffset d s
  let one := (ptpPort p s).oneStep
  let body :=
    ptpHeader 3 54 (ptpDomain m) (if one then 0 else 0x0200) (if one then ptpCorr m else -(subNs t2))
      (portId p s) (ptpSeq m) 0x7F ++
      (if one then List.replicate 10 0 else stampBytes t2) ++ slice m 20 10
  queueOwn .ptp p 2 (if d then 1 else 0) (ptpFrame true p body s) t
    (if one then [] else slice m 8 8) s

/-- The exchange of a port and domain is complete: the delay joins the mean, and the rate of the
neighbour follows from the last two responses (R252). -/
def finishPdelay (p : Nat) (d : Bool) (t3 : Option Int) (delay t4 : Int) (s : State) : State :=
  let k := (portDom p d s).pdelay
  let nrr : Option Int :=
    match t3, k.lastT3 with
    | some a, some (b, c) => if t4 = c then none else some (openDiv s.free ((a - b - (t4 - c)) * 1000000000) (t4 - c))
    | _, _ => none
  let s1 := updPortDom p d (fun x => { x with pdelay := { x.pdelay with
    awaiting := false, timeouts := 0, excluded := false, delays := (delay :: x.pdelay.delays).take 8,
    lastT3 := t3.map (fun a => (a, t4)) } }) s
  let s2 :=
    match nrr with
    | some r => updPort p (fun x => { x with nrr := satInt 32 r }) s1
    | none => s1
  if k.excluded then runBmca d true s2 else s2

/-- A Pdelay_Resp for this port's request. -/
def pdelayResp (p : Nat) (d : Bool) (m : List Byte) (t : Stamp) (s : State) : State :=
  let k := (portDom p d s).pdelay
  if k.awaiting ∧ ptpReqId m = portId p s ∧ ptpSeq m + 1 = k.seq.toNat then
    let t4 := ingressTime p t s
    let c := ptpCorr m + asymOf p s
    match ptpTwoStep m, k.t1 with
    | true, _ =>
      updPortDom p d (fun x => { x with pdelay := { x.pdelay with
        t2 := some (ptpStamp m), t4 := some t4, corr := c } }) s
    | false, some t1 => finishPdelay p d none ((t4 - t1 - c) / 2) t4 s
    | false, none => s
  else s

/-- A Pdelay_Resp_Follow_Up for this port's request. -/
def pdelayRespFu (p : Nat) (d : Bool) (m : List Byte) (s : State) : State :=
  let k := (portDom p d s).pdelay
  if k.awaiting ∧ ptpReqId m = portId p s ∧ ptpSeq m + 1 = k.seq.toNat then
    match k.t1, k.t2, k.t4 with
    | some t1, some t2, some t4 =>
      let t3 := ptpStamp m
      finishPdelay p d (some (t3 + ptpCorr m)) ((t4 - t1 - (t3 - t2) - k.corr - ptpCorr m) / 2) t4 s
    | _, _, _ => s
  else s

/-! ### Sync, Follow_Up and Announce -/

/-- Is a sender the master of a domain, on its SLAVE port? -/
def fromMaster (p : Nat) (d : Bool) (m : List Byte) (s : State) : Bool :=
  (portDom p d s).state == 9 && (domOf d s).master.toNat == ptpSender m

/-- An accepted Sync: offset of device time from the domain's time (R257). -/
def acceptSync (p : Nat) (d : Bool) (rx origin corr : Int) (s : State) : State :=
  servoSample d (rx - origin - corr - meanDelay (portDom p d s)) s

/-- A Sync (R247, R257). -/
def syncRx (p : Nat) (d : Bool) (m : List Byte) (t : Stamp) (s : State) : State :=
  if fromMaster p d m s then
    let rx := ingressTime p t s
    let c := ptpCorr m + asymOf p s
    if ptpTwoStep m then
      updPortDom p d (fun x => { x with
        syncWait := (some { sender := BitVec.ofNat 80 (ptpSender m), seq := BitVec.ofNat 16 (ptpSeq m),
                            rx, corr := c }) }) s
    else acceptSync p d rx (ptpStamp m) c s
  else s

/-- A Follow_Up of the Sync that waits. -/
def followRx (p : Nat) (d : Bool) (m : List Byte) (s : State) : State :=
  match (portDom p d s).syncWait with
  | some w =>
    if w.sender.toNat = ptpSender m ∧ w.seq.toNat = ptpSeq m ∧ fromMaster p d m s then
      acceptSync p d w.rx (ptpStamp m) (w.corr + ptpCorr m)
        (updPortDom p d (fun x => { x with syncWait := none }) s)
    else s
  | none => s

/-- totalTimeInaccuracy of the IEEE C37.238-2017 TLV, all ones if there is none. -/
def findTti : Nat → List Byte → Nat
  | 0, _ => 0xFFFFFFFF
  | n + 1, l =>
    if l.length < 4 then 0xFFFFFFFF
    else if be16 l 0 = 3 ∧ slice l 4 6 = [0x1C, 0x12, 0x9D, 0x00, 0x00, 0x02] ∧ 16 ≤ be16 l 2 then
      be32 l 16
    else findTti n (l.drop (4 + be16 l 2))

/-- Flags of Table 5-11 from flagField. -/
def gmFlags (m : List Byte) : BitVec 6 :=
  let f := u8 m 7
  BitVec.ofNat 6 ((if natBit f 2 then 32 else 0) + (if natBit f 0 then 16 else 0) +
    (if natBit f 1 then 8 else 0) + (if natBit f 4 then 4 else 0) + (if natBit f 5 then 2 else 0) +
    (if natBit f 3 then 1 else 0))

def flagField (f : BitVec 6) : Nat :=
  (if f.getLsbD 5 then 4 else 0) + (if f.getLsbD 4 then 1 else 0) + (if f.getLsbD 3 then 2 else 0) +
    (if f.getLsbD 2 then 16 else 0) + (if f.getLsbD 1 then 32 else 0) + (if f.getLsbD 0 then 8 else 0)

/-- Grandmaster data of an Announce message. -/
def announceData (m : List Byte) : GmData :=
  { prio1 := BitVec.ofNat 8 (u8 m 47), clockClass := BitVec.ofNat 8 (u8 m 48),
    accuracy := BitVec.ofNat 8 (u8 m 49), variance := BitVec.ofNat 16 (be16 m 50),
    prio2 := BitVec.ofNat 8 (u8 m 52), gmId := BitVec.ofNat 64 (be64 m 53),
    stepsRemoved := BitVec.ofNat 16 (be16 m 61), utcOffset := BitVec.ofNat 16 (be16 m 44),
    timeSource := BitVec.ofNat 8 (u8 m 63), flags := gmFlags m,
    tti := BitVec.ofNat 32 (findTti 16 (m.drop 64)) }

/-- A received Announce feeds the data set of its port and domain; the decision runs (R237). -/
def announceRx (p : Nat) (d : Bool) (m : List Byte) (s : State) : State :=
  let id := BitVec.ofNat 80 (ptpSender m)
  let k := portDom p d s
  let old := (k.foreign.find? (fun f => f.sender == id)).map (·.seen)
  let f : Foreign := { sender := id, data := announceData m, seen := (localNow s :: old.getD []).take 4 }
  let s1 := updPortDom p d (fun x => { x with
    since := localNow s, foreign := (f :: x.foreign.filter (fun g => g.sender != id)).take 5 }) s
  let s2 :=
    if fromMaster p d m s1 then updDom d (fun x => { x with lastAnnounce := localNow s }) s1 else s1
  runBmca d false s2

/-! ### Reception (R233, R234, R256) -/

/-- Does the Timekeeper act on a message of this type? -/
def ptpActs (ty : Nat) : Bool := ty ≤ 3 || (8 ≤ ty && ty ≤ 11)

/-- The domain a received PTP message is handled in, if the Timekeeper handles it (R233, R234). -/
def ptpTakes (p : Nat) (m : List Byte) (s : State) : Option Bool :=
  if ptpRuns s ∧ p < 8 ∧ (ptpPort p s).enabled ∧ ptpActs (ptpType m) ∧ 44 ≤ m.length then
    domByNumber (ptpDomain m) s
  else none

/-- Is a message that the Timekeeper handles forwarded too (R256)? -/
def ptpForwards (ty : Nat) (s : State) : Bool :=
  if s.ptp.role = 4 ∨ s.ptp.role = 6 then !(ty == 2 || ty == 3 || ty == 10)
  else s.ptp.role = 5

/-- A message delivered to the Timekeeper, with its ingress stamp. `m` starts at the PTP header. -/
def ptpRx (p : Nat) (d : Bool) (m : List Byte) (t : Stamp) (s : State) : State :=
  let ty := ptpType m
  let k := updDom d id s
  if ty = 0 then syncRx p d m t k
  else if ty = 8 then followRx p d m k
  else if ty = 11 then announceRx p d m k
  else if pdelayRole s = false then s
  else if ty = 2 then answerPdelay p d m t s
  else if ty = 3 then pdelayResp p d m t s
  else if ty = 10 then pdelayRespFu p d m s
  else s

/-! ### Transmission (R247, R251, R237) -/

/-- PTP_SYNC_TX: a master port sends Sync (R247). -/
def sendSync (p : Nat) (d : Bool) (s : State) : State :=
  let one := (ptpPort p s).oneStep
  let dom := domOf d s
  let m := ptpHeader 0 44 dom.number.toNat (if one then 0 else 0x0200) 0 (portId p s)
    (portDom p d s).syncSeq.toNat dom.logSync ++ List.replicate 10 0
  queueOwn .ptp p 2 (if d then 1 else 0) (ptpFrame false p m s) (stampNow s) []
    (updPortDom p d (fun x => { x with syncSeq := x.syncSeq + 1 }) s)

def execPtpSyncTx (port : Fin 8) (dom1 : Bool) (s : State) : Host.Outcome State Fault Refusal :=
  .next
    (if ptpRuns s && domEnabled dom1 s && ptpPortUp port s && (portDom port dom1 s).state == 6 then
      sendSync port dom1 s
    else s)

/-- Data a master port announces: the local clock's, or its parent's one step further. -/
def announced (d : Bool) (s : State) : GmData :=
  let k := domOf d s
  match k.parent with
  | some _ => { k.gm with stepsRemoved := k.gm.stepsRemoved + 1 }
  | none => localGm s

/-- The IEEE C37.238-2017 TLV, sent by a grandmaster under that profile (Tables 4-13, 5-2). -/
def c37Tlv (d : Bool) (s : State) : List Byte :=
  if s.ptp.profile ∧ (domOf d s).parent.isNone then
    toBE 2 3 ++ toBE 2 18 ++ [0x1C, 0x12, 0x9D, 0x00, 0x00, 0x02] ++ slice (clockEntry s) 32 2 ++
      toBE 4 0 ++ slice (clockEntry s) 36 4 ++ toBE 2 0
  else []

def sendAnnounce (p : Nat) (d : Bool) (s : State) : State :=
  let g := announced d s
  let tlv := c37Tlv d s
  let dom := domOf d s
  let m := ptpHeader 11 (64 + tlv.length) dom.number.toNat (flagField g.flags) 0 (portId p s)
    (portDom p d s).annSeq.toNat dom.logAnnounce ++ List.replicate 10 0 ++ toBE 2 g.utcOffset.toNat ++
    [0, g.prio1, g.clockClass, g.accuracy] ++ toBE 2 g.variance.toNat ++ [g.prio2] ++
    toBE 8 g.gmId.toNat ++ toBE 2 g.stepsRemoved.toNat ++ [g.timeSource] ++ tlv
  queueOwn .ptp p 2 (if d then 1 else 0) (ptpFrame false p m s) (stampNow s) []
    (drawn (drawn (updPortDom p d (fun x => { x with annSeq := x.annSeq + 1 }) s)))

/-- PTP_ANNOUNCE_TX: the decision runs, and a master port sends Announce (R237). -/
def execPtpAnnounceTx (port : Fin 8) (dom1 : Bool) (s : State) : Host.Outcome State Fault Refusal :=
  .next
    (if ptpRuns s && domEnabled dom1 s && ptpPortUp port s then
      let s1 := runBmca dom1 false s
      if (portDom port dom1 s1).state = 6 then sendAnnounce port dom1 s1 else s1
    else s)

/-- MASTER_LOST: the SLAVE port's master has timed out (R241, R265). -/
def masterTimedOut (d : Bool) (s : State) : Bool :=
  let k := domOf d s
  due (k.lastAnnounce + k.annTimeout * logCycles k.logAnnounce) s ||
    due (k.lastSync + 3 * logCycles k.logSync) s

def execMasterLost (dom1 : Bool) (s : State) : Host.Outcome State Fault Refusal :=
  .next
    (match ptpRuns s && masterTimedOut dom1 s, (domOf dom1 s).parent with
     | true, some p =>
       let m := (domOf dom1 s).master
       runBmca dom1 true (updPortDom p dom1 (fun x => { x with
         foreign := x.foreign.filter (fun f => f.sender != m), since := localNow s }) s)
     | _, _ => s)

/-! ### Egress (R246, R247, R254, R255) -/

/-- Rate of device time against a domain's time, applied to a measured span (R254). -/
def scaleSpan (d : Bool) (x : Int) (s : State) : Int :=
  if s.ptp.activeDom = d ∧ s.tmb.owner = 1 then x
  else
    let r := (domOf d s).rate
    let dev : Int := (17179869184 - (s.tmb.addend.toNat : Int)) * ppbU * 1000000000 / 17179869184
    x + x * (dev - r) / (ppbU * 1000000000)

/-- Keeps a residence time for the message that will carry it. -/
def keepResid (r : Resid) (s : State) : State :=
  { s with ptp := { s.ptp with resid := (r :: s.ptp.resid).take 64 } }

/-- The residence time kept for a message, if any. -/
def findResid (d delayReq : Bool) (sender seq port : Nat) (s : State) : Option Resid :=
  s.ptp.resid.find? (fun r => r.dom == d && r.delayReq == delayReq && r.sender.toNat == sender &&
    r.seq.toNat == seq && r.port == port)

/-- One of the device's own PTP messages leaves on a port: timestamps and follow-ups. -/
def ownPtpEgress (p : Nat) (d : Bool) (m : List Byte) (x : Msg) (s : State) : List Byte × State :=
  let ty := ptpType m
  let t := egressTime p s
  let td := t + domainOffset d s
  let i := if d then 1 else 0
  if ty = 0 then
    (if (ptpPort p s).oneStep then (addCorr (splice m 34 (stampBytes td)) (subNs td), s)
     else
       let fu := ptpHeader 8 44 (ptpDomain m) 0 (subNs td) (portId p s) (ptpSeq m) (domOf d s).logSync ++
         stampBytes td
       (m, queueOwn .ptp p 2 i (ptpFrame false p fu s) (stampNow s) [] s))
  else if ty = 2 then
    (m, if ptpSeq m + 1 = (portDom p d s).pdelay.seq.toNat then
          updPortDom p d (fun k => { k with pdelay := { k.pdelay with t1 := some t } }) s
        else s)
  else if ty = 3 then
    let t2 := ingressTime p x.stamp s + domainOffset d s
    (if (ptpPort p s).oneStep then (addCorr m (td - t2), s)
     else
       let c : Int := asSigned 64 (ofBE x.result) * 125
       let fu := ptpHeader 10 54 (ptpDomain m) 0 (c + subNs td) (portId p s) (ptpSeq m) 0x7F ++
         stampBytes td ++ slice m 44 10
       (m, queueOwn .ptp p 2 i (ptpFrame true p fu s) (stampNow s) [] s))
  else (m, s)

/-- A forwarded PTP message of a configured domain leaves a transparent clock (R254, R255). -/
def transitEgress (p : Nat) (d : Bool) (m : List Byte) (x : Msg) (s : State) : List Byte × State :=
  let ty := ptpType m
  let e2e := s.ptp.role == 5
  let span := scaleSpan d (egressTime p s - (x.stamp.absNs : Int) * nsU) s
  let link := if e2e then 0 else meanDelay (portDom x.port d s) + asymOf x.port s
  let one := (ptpPort p s).oneStep
  let sender := BitVec.ofNat 80 (ptpSender m)
  let seq := BitVec.ofNat 16 (ptpSeq m)
  if ty = 0 then
    (if one then (addCorr m (span + link), s)
     else if ptpTwoStep m then
       (m, keepResid { dom := d, sender, seq, port := p, delayReq := false, amount := span + link } s)
     else
       let fu := addCorr (ptpHeader 8 44 (ptpDomain m) 0 0 (ptpSender m) (ptpSeq m) (asSigned 8 (u8 m 33)) ++
         slice m 34 10) (span + link)
       (splice m 6 [(nth 0 m 6) ||| 2],
        queueOwn .ptp p 2 (if d then 3 else 2) (ptpFrame false p fu s) (stampNow s) [] s))
  else if ty = 8 then
    (match findResid d false (ptpSender m) (ptpSeq m) p s with
     | some r => (addCorr m r.amount, s)
     | none => (m, s))
  else if ty = 1 ∧ e2e then
    (if one then (addCorr m span, s)
     else (m, keepResid { dom := d, sender, seq, port := p, delayReq := true, amount := span } s))
  else if ty = 9 ∧ e2e then
    (match findResid d true (ptpReqId m) (ptpSeq m) x.port s with
     | some r => (addCorr m r.amount, s)
     | none => (m, s))
  else (m, s)

/-- What a frame becomes as it leaves an Ethernet port, `bytes` from the destination address on: PTP
messages of the configured domains are corrected (R247, R254); all others leave as they are. -/
def ptpEgress (p : Nat) (x : Msg) (bytes : List Byte) (s : State) : List Byte × State :=
  let o := if be16 bytes 12 = 0x8100 then 18 else 14
  let m := bytes.drop o
  if x.kind = .ptp then
    (if x.index < 2 then
      let r := ownPtpEgress p (x.index == 1) m x s
      (bytes.take o ++ r.1, r.2)
    else (bytes, s))
  else if x.kind = .eth ∧ x.etype = 0x88F7 ∧ x.port < 8 ∧ p < 8 then
    match domByNumber (ptpDomain m) s with
    | some d =>
      if ptpRuns s ∧ ptpActs (ptpType m) then
        let r := transitEgress p d m x s
        (bytes.take o ++ r.1, r.2)
      else (bytes, s)
    | none => (bytes, s)
  else (bytes, s)

/-! ### Egress timestamps for the host (R248 to R250) -/

/-- Places an entry in the FIFO of a port (R248, R249). -/
def pushTxts (p : Nat) (tag : BitVec 16) (s : State) : State :=
  let t := (egressTime p s / nsU).toNat
  let e : TxtsEntry := { secs := BitVec.ofNat 32 (t / 1000000000), ns := BitVec.ofNat 30 (t % 1000000000), tag }
  let k := ptpPort p s
  if k.txts.length < 64 then updPort p (fun x => { x with txts := x.txts ++ [e] }) s
  else raise .ptpTxtsOvf (BitVec.ofNat 32 p)
    (updPort p (fun x => { x with txts := x.txts.drop 1 ++ [e], txtsOvf := true }) s)

/-- The word of the FIFO of a port; an empty one reads 0 with VALID clear. -/
def txtsWord (p : Nat) (s : State) : Word :=
  match (ptpPort p s).txts with
  | [] => 0
  | e :: _ => BitVec.ofNat 32 (2 ^ 31 + e.ns.toNat)

/-- A read of TXTS_FIFO or TXTS_PEEK (R250). -/
def txtsRead (p : Nat) (pop : Bool) (s : State) : State :=
  match (ptpPort p s).txts with
  | [] => s
  | e :: rest => updPort p (fun x => { x with
      txtsSec := e.secs, txtsTag := e.tag, txts := if pop then rest else e :: rest }) s

def execTxtsFifoRead (port : Fin 8) (s : State) : Host.Outcome State Fault Refusal :=
  .next (ifCore (txtsRead port true) s)

def execTxtsPeekRead (port : Fin 8) (s : State) : Host.Outcome State Fault Refusal :=
  .next (ifCore (txtsRead port false) s)

/-! ### Loading and stopping (R229, R235, R282, R964) -/

/-- Domain settings from their entry. -/
def loadDomain (e : List Byte) (k : PtpDom) : PtpDom :=
  { k with number := BitVec.ofNat 8 (u8 e 0), logSync := asSigned 8 (u8 e 1),
           logAnnounce := asSigned 8 (u8 e 2), annTimeout := u8 e 4 }

/-- Port settings from their entry; a port that is newly enabled listens. -/
def loadPtpPort (e : List Byte) (sec_ fresh : Bool) (now : Nat) (k : PtpPort) : PtpPort :=
  let en := flagAt e 0 0
  let start (x : PortDom) (use : Bool) : PortDom :=
    if !en || !use then .reset
    else if fresh || !k.enabled || x.state == 3 then { PortDom.reset with state := 4, since := now }
    else x
  { k with enabled := en, oneStep := flagAt e 0 1, asymPs := BitVec.ofNat 32 (be32 e 4),
           ingressPs := BitVec.ofNat 32 (be32 e 8), egressPs := BitVec.ofNat 32 (be32 e 12),
           dom0 := start k.dom0 true, dom1 := start k.dom1 sec_ }

/-- The Timekeeper under ROLE NONE (R229, R235). -/
def ptpOff (s : State) : State :=
  { s with ptp := { s.ptp with
    role := 0, profile := false, secEn := false, castleSt := .idle, lostAt := none,
    d0 := .reset, d1 := .reset,
    ports := s.ptp.ports.map (fun k => { k with
      enabled := false, oneStep := false, asymPs := 0, ingressPs := 0, egressPs := 0, nrr := 0,
      dom0 := .reset, dom1 := .reset }) } }

/-- Loads the Timekeeper from the TIME section. `fresh` is an Opening; at a hitless swap the state of
the servos is kept (Table 3-9). -/
def loadPtp (fresh : Bool) (s : State) : State :=
  if hasSect tyTime s ∧ timeRole s ≠ 0 then
    let b := bodyOf tyTime s
    let e := clockEntry s
    let p := s.ptp
    let sec_ := flagAt e 1 1
    let d0 := if fresh then .reset else p.d0
    let d1 := if fresh || !sec_ then .reset else p.d1
    { s with ptp := { p with
      role := BitVec.ofNat 3 (u8 e 0), profile := flagAt e 1 0, secEn := sec_,
      autoCastle := flagAt e 1 2, autoPolicy := BitVec.ofNat 2 (u8 e 1 / 8),
      slewPpm := BitVec.ofNat 4 (u8 e 28), windowNs := BitVec.ofNat 16 (be16 e 26),
      grace := BitVec.ofNat 16 (be16 e 30), activeDom := p.activeDom && !fresh,
      d0 := loadDomain (slice b 640 16) d0,
      d1 := if sec_ then loadDomain (slice b 656 16) d1 else .reset,
      ports := (List.range 8).map (fun n =>
        loadPtpPort (slice b (672 + 16 * n) 16) sec_ fresh (localNow s) (nth .reset p.ports n)) } }
  else ptpOff s

/-- Entry into HOLD: the Timekeeper stops, and the time base it steers holds over (R282). -/
def ptpStop (s : State) : State :=
  if s.ptp.role ≠ 0 ∧ s.tmb.owner = 1 then enterHoldover s else s

/-- Return to PLAY: every port listens; the models keep phase and rate (R282). -/
def ptpRestart (s : State) : State :=
  if s.ptp.role = 0 then s
  else
    let now := localNow s
    let wake (en : Bool) (x : PortDom) : PortDom :=
      if en then { x with state := 4, since := now, foreign := [], syncWait := none } else x
    { s with ptp := { s.ptp with
      ports := s.ptp.ports.map (fun k => { k with
        dom0 := wake k.enabled k.dom0, dom1 := wake (k.enabled && s.ptp.secEn) k.dom1 }),
      d0 := { s.ptp.d0 with servo := 0, parent := none },
      d1 := { s.ptp.d1 with servo := 0, parent := none } } }

end Sys2Proof.Machine
end

