-- ==== Sys2Proof/Machine/EthState.lean ====
section
/-!
DEFINITION. State of the Ethernet ports (spec/06): link, verification, resign and reinstatement, run
counts and clean interval, and the frames queued for a port that leaves forwarding.
-/

namespace Sys2Proof.Machine

/-! ### The PORTS entry (Table 6-10) -/

def portMode (p : Nat) (s : State) : Nat := u8 (portEntry p s) 1
def portAnEn (p : Nat) (s : State) : Bool := flagAt (portEntry p s) 3 0
def portFefi (p : Nat) (s : State) : Bool := flagAt (portEntry p s) 3 1
def portPreempt (p : Nat) (s : State) : Nat := if p < 8 then u8 (portEntry p s) 4 else 0
def portAuto (p : Nat) (s : State) : Bool := flagAt (portEntry p s) 3 3
def portHoldUs (p : Nat) (s : State) : Nat := be16 (portEntry p s) 14
def portWindowMs (p : Nat) (s : State) : Nat := be16 (portEntry p s) 16
def portCleanMs (p : Nat) (s : State) : Nat := be16 (portEntry p s) 18
def portThr (p i : Nat) (s : State) : Nat := u8 (portEntry p s) (19 + i)

/-- MAC of a port; on a pair that of the even port (R318). -/
def portMac (p : Nat) (s : State) : List Byte :=
  slice (portEntry (if pairMode p s = 0 then p else p - p % 2) s) 8 6

/-- Core cycles of milliseconds and microseconds. -/
def msCycles (n : Nat) : Nat := n * 250000
def usCycles (n : Nat) : Nat := n * 250

def ethAt (p : Nat) (s : State) : EthPort := nth .reset s.eth p

def updEth (p : Nat) (f : EthPort → EthPort) (s : State) : State := { s with eth := upd f s.eth p }

/-- Is HP an RGMII port, without a lane or link of its own (R296, R303)? -/
def hpRgmii (p : Nat) (s : State) : Bool := p == 8 && portMode 8 s == 0

/-- SerDes lanes and HP are powered: PLAY and HOLD, until step A2 of a deeper entry (Table 14-5). -/
def lanesOn (s : State) : Bool :=
  coreUp s && (s.pwr.ladder == .play || s.pwr.ladder == .hold)

/-! ### Frames queued for a port that leaves forwarding (R342 to R345) -/

/-- Is a queue entry the ring copy of a transit frame on this port? -/
def isRingCopy (p : Nat) (q : QEntry) (s : State) : Bool :=
  match msgById q.msg s with
  | some m => !m.ring.isEmpty && p == partner m.port
  | none => false

/-- Discards copies, counted in OUT_DISCARD (Table 6-5). -/
def outDiscards (p : Nat) : List QEntry → State → State
  | [], s => s
  | q :: qs, s => outDiscards p qs (dropCopy q.msg (portCount p 14 s))

/-- Are KING frames of this port held while it is out of forwarding (Table 6-5)? -/
def kingHeld (p : Nat) (s : State) : Bool := !(pairMode p s != 0 && forwarding (partner p) s)

/-- Empties one class queue as Table 6-5 has it. -/
def leaveQueue (p c : Nat) (s : State) : State :=
  let q := queueOf p c s
  let keep := if c = 5 ∧ kingHeld p s then q.filter (fun x => !isRingCopy p x s) else []
  let drop := if c = 5 ∧ kingHeld p s then q.filter (fun x => isRingCopy p x s) else q
  outDiscards p drop (setQueue p c keep s)

/-- A port has left FORWARDING: its queues, KING first (R342). -/
def leaveForwarding (p : Nat) (s : State) : State :=
  [5, 4, 3, 2, 1, 0].foldl (fun t c => leaveQueue p c t) s

/-- Copies whose transmission a link loss cut (R345): held KING copies go back to the head of their
queue, the others are counted. -/
def cutFrame (p : Nat) (f : TxFrame) (s : State) : State :=
  if f.cls = 5 ∧ kingHeld p s then
    let back := f.entries.filter (fun x => !isRingCopy p x s)
    outDiscards p (f.entries.filter (fun x => isRingCopy p x s))
      (setQueue p 5 (back ++ queueOf p 5 s) s)
  else outDiscards p f.entries s

/-- A lane that goes down cuts every frame it was sending. -/
def cutTransmission (p : Nat) (s : State) : State :=
  let e := ethAt p s
  let fs := e.leaving ++ e.tx.toList ++ e.preempted.toList
  fs.reverse.foldl (fun t f => cutFrame p f t)
    (updEth p (fun k => { k with tx := none, preempted := none, leaving := [], mpackets := [] }) s)

/-! ### Verification (R312 to R316) -/

/-- VERIFY as it stands while no link is up. -/
def verifyAtDown (p : Nat) (s : State) : VerifySt :=
  if portPreempt p s = 1 then .init else if portPreempt p s = 2 then .forced else .disabled

/-- Verification starts: at link-up and at RETRY_VERIFY. -/
def verifyBegin (p : Nat) (s : State) : State :=
  if portPreempt p s = 1 then
    updEth p (fun k => { k with
      verify := .verifying, verifyTries := 1, verifyDue := some (localNow s + msCycles 10),
      mpackets := k.mpackets ++ [.verify] }) s
  else updEth p (fun k => { k with verify := verifyAtDown p s, verifyDue := none }) s

/-- Preemption is active on the port (Table 6-2). -/
def preemptActive (p : Nat) (s : State) : Bool :=
  decide (p < 8) && (ethAt p s).link &&
    ((ethAt p s).verify == .forced || (ethAt p s).verify == .succeeded)

/-- The port runs LIMITED (R315). -/
def limited (p : Nat) (s : State) : Bool :=
  portDefined p s && portPreempt p s == 1 && (ethAt p s).verify != .succeeded

/-- VERIFY_TIMER_EXPIRY (R312, R316). -/
def verifyTimer (p : Nat) (s : State) : State :=
  let e := ethAt p s
  if e.verify = .verifying ∧ dueOpt e.verifyDue s then
    if e.verifyTries < 3 then
      updEth p (fun k => { k with
        verifyTries := k.verifyTries + 1, verifyDue := some (localNow s + msCycles 10),
        mpackets := k.mpackets ++ [.verify] }) s
    else
      raiseAt .ethVerifyFail p (BitVec.ofNat 32 p)
        (updEth p (fun k => { k with verify := .failed, verifyDue := none }) s)
  else s

def execVerifyTimerExpiry (port : Fin 8) (s : State) : Host.Outcome State Fault Refusal :=
  .next (verifyTimer port s)

/-! ### Resign, reinstatement, run counts (R333 to R341) -/

/-- The clean interval starts afresh (R337). -/
def cleanRestart (p : Nat) (s : State) : State :=
  updEth p (fun k => { k with
    cleanLeft := msCycles (portCleanMs p s),
    cleanFrom := if k.link then some (localNow s) else none }) s

/-- Resigns a port (R334, R335); a port that is resigned or not defined stays as it is. -/
def resignPort (p cause : Nat) (s : State) : State :=
  let e := ethAt p s
  if e.fwd = .resigned ∨ e.fwd = .disabled ∨ 8 ≤ p then s
  else
    let s1 := updEth p (fun k => { k with
      fwd := .resigned, resignCnt := satInc k.resignCnt, cause := BitVec.ofNat 4 cause }) s
    ptpPortDown p (leaveForwarding p (cleanRestart p
      (raiseAt .portResign p (BitVec.ofNat 32 (p * 256 + cause)) s1)))

/-- Reinstates a resigned port (R338, R339). `who` is 0 for the clean interval, 1 host, 2 Arbiter. -/
def reinstatePort (p who : Nat) (s : State) : State :=
  let e := ethAt p s
  if e.fwd = .resigned then
    let s1 := updEth p (fun k => { k with
      fwd := if k.link then .forwarding else .down, runs := List.replicate 8 0, cleanLeft := 0,
      cleanFrom := none }) s
    let s2 := raiseAt .portReinstate p (BitVec.ofNat 32 (p * 256 + who)) s1
    if e.link then ptpPortBack p s2 else s2
  else s

/-- The lowest counter whose run count has reached its threshold (R334). -/
def crossed (p : Nat) (s : State) : Option Nat :=
  [1, 2, 3, 4, 5, 6, 7].find? (fun i =>
    decide (portThr p i s ≠ 0) && decide (portThr p i s ≤ nth 0 (ethAt p s).runs i))

/-- The threshold test of a port that is not resigned. -/
def thresholdTest (p : Nat) (s : State) : State :=
  if (ethAt p s).fwd = .resigned ∨ 8 ≤ p then s
  else
    match crossed p s with
    | some i => resignPort p i s
    | none => s

/-- An error of counter 1 to 7: counter, run count, clean interval, threshold (R333 to R337). -/
def errorCount (p i : Nat) (s : State) : State :=
  let s1 := updEth p (fun k => { k with runs := upd (· + 1) k.runs i }) (portCount p i s)
  thresholdTest p (if (ethAt p s1).fwd = .resigned then cleanRestart p s1 else s1)

def cmdErrPort (p : Nat) (s : State) : State := updEth p (fun k => { k with cmdErr := true }) s

/-- RESIGN_WINDOW_END: run counts are cleared, and the next window begins (R333). -/
def execResignWindowEnd (port : Fin 8) (s : State) : Host.Outcome State Fault Refusal :=
  .next
    (if portDefined port s && due (ethAt port s).windowEnd s then
      updEth port (fun k => { k with
        runs := List.replicate 8 0, windowEnd := k.windowEnd + msCycles (portWindowMs port s) }) s
    else s)

/-- CLEAN_INTERVAL_END (R337, R338). -/
def execCleanIntervalEnd (port : Fin 8) (s : State) : Host.Outcome State Fault Refusal :=
  let e := ethAt port s
  .next
    (match e.cleanFrom with
     | some t =>
       if e.fwd = .resigned ∧ due (t + e.cleanLeft) s then
         (if portAuto port s then reinstatePort port 0 s
          else updEth port (fun k => { k with cleanLeft := 0, cleanFrom := none }) s)
       else s
     | none => s)

/-! ### Link state (R298 to R303) -/

/-- A link goes down: state, queued and cut frames, verification, PTP (R299, R342, R345, R238). -/
def linkLost (p : Nat) (s : State) : State :=
  let now := localNow s
  let pause (k : EthPort) : EthPort :=
    match k.cleanFrom with
    | some t => { k with cleanLeft := k.cleanLeft - (now - t), cleanFrom := none }
    | none => k
  let s1 := updEth p (fun k => { pause k with
    link := false, anDone := false, rf := false, fef := false, verify := verifyAtDown p s,
    verifyDue := none, lossFrom := none,
    fwd := if k.fwd = .forwarding then .down else k.fwd }) s
  ptpPortDown p (leaveForwarding p (cutTransmission p s1))

/-- A link is declared down; `run` tells whether it counts toward the run count (R303). -/
def linkDown (p : Nat) (run : Bool) (s : State) : State :=
  let s1 := raiseAt .ethLink p (BitVec.ofNat 32 (p * 256)) (linkLost p s)
  if run then errorCount p 6 s1
  else
    let s2 := portCount p 6 s1
    if (ethAt p s2).fwd = .resigned then cleanRestart p s2 else s2

/-- LINK_UP: synchronisation and, if enabled, autonegotiation are complete (R293 to R301). -/
def linkUp (p : Nat) (i : LinkInfo) (s : State) : State :=
  let e := ethAt p s
  let sgmii := portMode p s == 1
  let lane := lanesOn s && s.pos.active && portDefined p s && !hpRgmii p s && !e.link && e.idleUntil.isNone
  if lane = false then s
  else if sgmii ∧ i.unsupported then updEth p (fun k => { k with unsupported := true }) s
  else if portAnEn p s ∧ portMode p s ≠ 2 ∧ i.anDone = false ∧ p < 8 then s
  else
    let s1 := updEth p (fun k => { k with
      link := true, unsupported := false, lossFrom := none,
      speed100 := decide (p < 8) && (portMode p s == 2 || (sgmii && i.speed100)),
      anDone := portAnEn p s && portMode p s != 2 && i.anDone,
      rf := portAnEn p s && portMode p s == 0 && i.remoteFault,
      fef := portFefi p s && portMode p s == 2 && i.farEnd,
      fwd := if k.fwd = .resigned then .resigned else .forwarding,
      cleanFrom := if k.fwd = .resigned ∧ 0 < k.cleanLeft then some (localNow s) else none }) s
    let s2 := verifyBegin p (raiseAt .ethLink p (BitVec.ofNat 32 (p * 256 + 1)) s1)
    if (ethAt p s2).fwd = .forwarding ∧ p < 8 then ptpPortBack p s2 else s2

def execLinkUp (port : Fin 9) (info : LinkInfo) (s : State) : Host.Outcome State Fault Refusal :=
  .next (linkUp port info s)

/-- SIGNAL_LOSS: every loss counts in SYNC_LOSS; the hold time begins (R298). -/
def execSignalLoss (port : Fin 9) (s : State) : Host.Outcome State Fault Refusal :=
  .next
    (if lanesOn s && (ethAt port s).link && !hpRgmii port s then
      errorCount port 7 (updEth port (fun k => { k with lossFrom := some (localNow s) }) s)
    else s)

/-- LINK_DOWN: the loss has lasted LINK_HOLD_US (R298, R299). -/
def execLinkDown (port : Fin 9) (s : State) : Host.Outcome State Fault Refusal :=
  .next
    (match (ethAt port s).lossFrom with
     | some t =>
       if lanesOn s && (ethAt port s).link && due (t + usCycles (portHoldUs port s)) s then
         linkDown port true s
       else s
     | none => s)

/-! ### ETH_CMD (Table 6-14) -/

/-- LINK_RESTART (R302, R303). -/
def linkRestart (p : Nat) (s : State) : State :=
  if (ethAt p s).fwd = .disabled ∨ hpRgmii p s then cmdErrPort p s
  else
    let s1 := if (ethAt p s).link then linkDown p false s else s
    updEth p (fun k => { k with lossFrom := none, idleUntil := some (localNow s + msCycles 1) }) s1

/-- A command for a port (R335, R339, R340); RESIGN, REINSTATE and RETRY_VERIFY do not apply to HP or to
a port that is not defined. -/
def ethCommand (p code : Nat) (s : State) : State :=
  let ok := decide (p < 8) && (ethAt p s).fwd != .disabled
  if code = 1 then (if ok then resignPort p 0xD s else cmdErrPort p s)
  else if code = 2 then (if ok then reinstatePort p 1 s else cmdErrPort p s)
  else if code = 3 then
    (if ok then
      (if (ethAt p s).link && portPreempt p s == 1 then verifyBegin p s else s)
     else cmdErrPort p s)
  else if code = 4 then linkRestart p s
  else cmdErrPort p s

def execResign (port : Fin 8) (s : State) : Host.Outcome State Fault Refusal :=
  .next (ifCore (ethCommand port 1) s)

def execReinstate (port : Fin 8) (s : State) : Host.Outcome State Fault Refusal :=
  .next (ifCore (ethCommand port 2) s)

def execRetryVerify (port : Fin 8) (s : State) : Host.Outcome State Fault Refusal :=
  .next (ifCore (ethCommand port 3) s)

def execLinkRestart (port : Fin 8) (s : State) : Host.Outcome State Fault Refusal :=
  .next (ifCore (ethCommand port 4) s)

/-- LINK_RESTART_IDLE_END: bring-up may start again (R302). -/
def execLinkRestartIdleEnd (port : Fin 8) (s : State) : Host.Outcome State Fault Refusal :=
  .next
    (if dueOpt (ethAt port s).idleUntil s then updEth port (fun k => { k with idleUntil := none }) s else s)

/-! ### Held KING frames (R343) -/

/-- Age of a message in ns. -/
def ageNs (m : Msg) (s : State) : Nat := (localNow s - m.origin) * 4

/-- Has a message reached its age budget? The device's own frames and unrouted ring transit have none. -/
def pastBudget (m : Msg) (s : State) : Bool :=
  m.routeId != 0xFFFF && decide (resBudgetUs m.result * 1000 ≤ ageNs m s)

/-- Is the message of an entry past its budget? -/
def entryPast (q : QEntry) (s : State) : Bool :=
  match msgById q.msg s with
  | some m => pastBudget m s
  | none => true

/-- Discards held KING frames with EVT_KING_LOST (R343). -/
def loseHeld (p : Nat) : List QEntry → State → State
  | [], s => s
  | q :: qs, s =>
    let r := ((msgById q.msg s).map (·.routeId)).getD 0
    loseHeld p qs (dropCopy q.msg (raiseKingLost 4 1 [p] p r (portCount p 15 s)))

/-- KING_HELD_EXPIRY: held frames whose age has reached their budget go. -/
def execKingHeldExpiry (port : Fin 9) (s : State) : Host.Outcome State Fault Refusal :=
  let q := queueOf port 5 s
  .next
    (if forwarding port s || !fabricRuns s then s
     else loseHeld port (q.filter (fun x => entryPast x s))
       (setQueue port 5 (q.filter (fun x => !entryPast x s)) s))

/-! ### Duplicate table and supervision (R329 to R331) -/

def updPair (k : Nat) (f : EthPair → EthPair) (s : State) : State := { s with pairs := upd f s.pairs k }

/-- Forget time of a pair in cycles. -/
def forgetCycles (k : Nat) (s : State) : Nat := msCycles (be16 (portEntry (2 * k) s) 28)

/-- Entries of a pair's duplicate table that have not expired. -/
def liveDups (k : Nat) (s : State) : List DupEntry :=
  (nth .reset s.pairs k).dup.filter (fun d => decide (localNow s < d.created + forgetCycles k s))

def execDupEntryExpiry (pair : Fin 4) (s : State) : Host.Outcome State Fault Refusal :=
  .next (updPair pair (fun k => { k with dup := liveDups pair s }) s)

/-- Adds to a counter of Table 6-16 (index from +0x208). -/
def pairCount (k i : Nat) (s : State) : State :=
  updPair k (fun x => { x with cnt := upd satInc x.cnt i }) s

/-- A supervision frame as IEC 62439-3 lays it out (log entry 26). -/
def supFrame (k : Nat) (seq : BitVec 16) (s : State) : List Byte :=
  let mac := portMac (2 * k) s
  [0x01, 0x15, 0x4E, 0x00, 0x01, 0x00] ++ mac ++ toBE 2 0x88FB ++ toBE 2 1 ++ toBE 2 seq.toNat ++
    [if pairMode (2 * k) s = 1 then 20 else 23, 6] ++ mac ++ [0, 0]

/-- SUPERVISION_TX (R331). -/
def execSupervisionTx (pair : Fin 4) (s : State) : Host.Outcome State Fault Refusal :=
  let k : Nat := pair
  let x := nth .reset s.pairs k
  let ps := [2 * k, 2 * k + 1].filter (fun p => forwarding p s)
  .next
    (if boardRuns s && pairMode (2 * k) s != 0 && flagAt (portEntry (2 * k) s) 3 4 && due x.supDue s then
      let s1 := updPair k (fun y => { y with
        supSeq := y.supSeq + 1, supDue := y.supDue + msCycles 2000,
        cnt := upd (fun c => satAdd c ps.length) y.cnt 7 }) s
      if ps.isEmpty then s1
      else queueOwnOn .supervision ps 0 k (supFrame k (x.supSeq + 1) s) (stampNow s) [] s1
    else s)

end Sys2Proof.Machine
end

