-- ==== Sys2Proof/Machine/MemEcc.lean ====
section
/-!
DEFINITION. What an ECC finding on a read does (R755, R756, Table 13-5): counters, addresses, marks for
the sweeper, and a message that an uncorrectable error has hit.
-/

namespace Sys2Proof.Machine

/-- BANK, ROW and WORD as MEM_CE_ADDR and MEM_UE_ADDR hold them. -/
def placeWord (p : BankPlace) : Word := BitVec.ofNat 32 (p.bank * 2 ^ 24 + p.row * 8 + p.word)

/-- Marks a row for an early visit; at most 16 marks are held (R759). -/
def markRow (r : RowId) (s : State) : State :=
  if s.mem.marks.contains r || decide (16 ≤ s.mem.marks.length) then s
  else { s with mem := { s.mem with marks := s.mem.marks ++ [r] } }

/-- A read met a correctable or an uncorrectable error (R755, R756). -/
def noteEcc (p : BankPlace) (e : Ecc) (s : State) : State :=
  match e with
  | .ok => s
  | .corrected =>
    markRow { bank := p.bank, row := p.row }
      { s with mem := { s.mem with
        ceCnt := satInc s.mem.ceCnt, ceAddr := p, int := setBit s.mem.int 0 } }
  | .uncorrectable =>
    raise .memEccUe (placeWord p)
      { s with mem := { s.mem with ueCnt := satInc s.mem.ueCnt, ueAddr := p } }

/-- Ports P0 to P7 and HP on which a message is queued. -/
def queuedOn (i : Nat) (s : State) : List Nat :=
  (List.range 9).filter (fun p => (ethAt p s).queues.any (fun q => q.any (fun x => x.msg == i)))

/-- Takes a message out of every queue. -/
def unqueue (i : Nat) (s : State) : State :=
  let f (qs : List (List QEntry)) : List (List QEntry) := qs.map (fun q => q.filter (fun x => x.msg != i))
  { s with
    eth := s.eth.map (fun e => { e with queues := f e.queues }),
    ser := s.ser.map (fun k => { k with queues := f k.queues }),
    cls := { s.cls with abQueues := f s.cls.abQueues, alQueues := f s.cls.alQueues } }

/-- Does a frame carry a message? -/
def carriesMsg (i : Nat) (f : TxFrame) : Bool := f.entries.any (fun x => x.msg == i)

/-- Ends the frames in transmission that carry a message, with an invalid FCS (R47). -/
def stompPort (i p : Nat) (s : State) : State :=
  let e := ethAt p s
  let fs := e.leaving ++ e.tx.toList ++ e.preempted.toList
  let hit := fs.filter (carriesMsg i)
  let keep (o : Option TxFrame) : Option TxFrame := o.filter (fun f => !carriesMsg i f)
  let s1 := updEth p (fun k => { k with
    tx := keep k.tx, preempted := keep k.preempted,
    leaving := k.leaving.filter (fun f => !carriesMsg i f),
    cnt := upd (fun c => satAdd c hit.length) k.cnt 12 }) s
  (hit.flatMap (·.entries)).foldl (fun t q => if q.msg = i then t else dropCopy q.msg t) s1

/-- Removes a message whole: out of the queues, off the wire, its cells freed. -/
def removeMsg (i : Nat) (s : State) : State :=
  match msgById i s with
  | none => s
  | some m => freeMsg m (unqueue i ((List.range 9).foldl (fun t p => stompPort i p t) s))

/-- An uncorrectable error has hit a message (Table 13-5). `at_` is the egress that read it. -/
def loseToEcc (i at_ : Nat) (s : State) : State :=
  match msgById i s with
  | none => s
  | some m =>
    let ports := queuedOn i s
    let ps := if at_ ≤ 8 ∧ ports.contains at_ = false then ports ++ [at_] else ports
    let s1 := removeMsg i s
    if m.cls = 5 then
      raiseKingLost 12 2 ps (ps.headD 0xFF) m.routeId (ps.foldl (fun t p => portCount p 15 t) s1)
    else s1

end Sys2Proof.Machine
end

