-- ==== Sys2Proof/Machine/EventLog.lean ====
section
/-!
DEFINITION. The event log (spec/16, R893 to R899): the writer that moves queued events to the ring in
the shared region, and the search for its head at start-up.
-/

namespace Sys2Proof.Machine

/-- Offset of the log in the shared region (R893). -/
def logBase : Nat := 0x1C000

/-- The 16 bytes of an entry (Table 16-5). -/
def logBytes (e : EvEntry) (lap : BitVec 8) : List Byte :=
  toLE 4 e.secs.toNat ++ toLE 4 (tqNsWord e.tq e.ns) ++ toLE 2 e.code.toNat ++ [e.source, lap] ++
    toLE 4 e.datum.toNat

/-- The lap after one wrap: 255 is followed by 1 (R895). -/
def nextLap (l : BitVec 8) : BitVec 8 := if l = 255 then 1 else l + 1

/-- Writes the oldest queued event at the head and advances the head (R894, R895). -/
def writeLogEntry (s : State) : State :=
  match s.evt.queue with
  | [] => s
  | e :: rest =>
    let at_ := logBase + 16 * s.evt.headIdx.toNat
    let s1 := portAWrite at_ (logBytes e s.evt.headLap) false none (portABegin s)
    let wraps := s.evt.headIdx == 1023
    { s1 with evt := { s1.evt with
      queue := rest, headIdx := s.evt.headIdx + 1,
      headLap := if wraps then nextLap s.evt.headLap else s.evt.headLap,
      wrapped := s.evt.wrapped || wraps,
      last := BitVec.ofNat 24 (e.source.toNat * 65536 + e.code.toNat) } }

/-- Writes the whole queue (R813, R898); `n` is the number of entries it holds. -/
def writeLogAll : Nat → State → State
  | 0, s => s
  | n + 1, s => writeLogAll n (writeLogEntry s)

/-- Does the log writer run? It needs the fabric clocks, which HOLD gates (R813), and waits while no
entry is queued. -/
def logWriterRuns (s : State) : Bool := fabricRuns s && !s.evt.queue.isEmpty

/-- EVT_LOG_WRITE: the writer takes the oldest queued event (R894). -/
def execEvtLogWrite (s : State) : Host.Outcome State Fault Refusal :=
  .next (if logWriterRuns s then writeLogEntry s else s)

/-! ### Start-up (R896, R897) -/

/-- CODE and LAP of entry `i` of the ring. -/
def logCode (i : Nat) (s : State) : Nat := ofLE (sharedGet (logBase + 16 * i + 8) 2 s)
def logLap (i : Nat) (s : State) : Nat := ofLE (sharedGet (logBase + 16 * i + 11) 1 s)

/-- The lowest index that is a head, of the `n` indices from `i` on. -/
def findHead : Nat → Nat → State → Nat
  | 0, _, _ => 0
  | n + 1, i, s =>
    if logCode i s = 0 ∨ (1 ≤ i ∧ logLap i s ≠ logLap (i - 1) s) then i else findHead n (i + 1) s

/-- Lap of a head. -/
def headLapAt (i : Nat) (s : State) : BitVec 8 :=
  if 1 ≤ i then BitVec.ofNat 8 (logLap (i - 1) s)
  else if logCode 1023 s ≠ 0 then nextLap (BitVec.ofNat 8 (logLap 1023 s))
  else 1

/-- The head as the kept region gives it; WRAPPED tells that entry 1023 has been written (R896). -/
def scanLogHead (s : State) : State :=
  let i := findHead 1024 0 s
  { s with evt := { s.evt with
    headIdx := BitVec.ofNat 10 i, headLap := headLapAt i s,
    wrapped := decide (logCode 1023 s ≠ 0) } }

end Sys2Proof.Machine
end

