-- ==== Sys2Proof/Machine/Flags.lean ====
section
/-!
DEFINITION. The flag computations of the interrupt path (spec/02, spec/16): the pending causes of each
block, GLB_INT_STATUS, and the two interrupt pins.
-/

namespace Sys2Proof.Machine

/-! ### Pending causes (R100, R887, Tables 2-14, 16-3, 16-4) -/

/-- Capture inputs with a recorded edge (TMB_CAP_STATUS.NONEMPTY). -/
def capNonempty (s : State) : BitVec 8 :=
  BitVec.ofNat 8 (((List.range 8).map (fun n =>
    if (nth .reset s.tmb.caps n).fifo.isEmpty then 0 else 2 ^ n)).sum)

/-- EVT_PEND bits that are pending causes, those of one block kept. -/
def evtCauses (mask : BitVec 11) (s : State) : BitVec 11 := s.evt.pend &&& s.evt.pendEn &&& mask

/-- Is any bit of an interrupt register, those of a mask kept, a pending cause? -/
def anyCause {n : Nat} (int en mask : BitVec n) : Bool := (int &&& en &&& mask) != 0

/-- EVT_PEND bits of each block (Table 16-3). -/
def evtMask (b : Nat) : BitVec 11 :=
  match b with
  | 1 => 0x003
  | 2 => 0x01C
  | 3 => 0x1E0
  | 8 => 0x600
  | _ => 0

/-- EVT_PEND bits whose event drives INTA_N: EVT_CASTLE_BLOCKED. -/
def evtPinA : BitVec 11 := 0x080

/-- Does block `b` have a pending cause for a pin? `a` selects INTA_N, `o` INTB_N; both together give every
cause. -/
def blockCause (a o : Bool) (b : Nat) (s : State) : Bool :=
  let m (n : Nat) (pinA : BitVec n) : BitVec n :=
    (if a then pinA else 0) ||| (if o then ~~~pinA else 0)
  (evtCauses (evtMask b) s &&& m 11 evtPinA) != 0 ||
  (match b with
   | 0 => anyCause s.glb.mgtInt s.glb.mgtIntEn (m 2 0)
   | 2 => anyCause s.tmb.fired s.tmb.cmpIntEn (m 16 0) || anyCause (capNonempty s) s.tmb.capIntEn (m 8 0)
   | 4 => s.eth.any (fun e => anyCause e.int e.intEn (m 7 0x12))
   | 5 => s.ser.any (fun c => anyCause c.int c.intEn (m 6 0))
   | 6 => anyCause s.cnv.int s.cnv.intEn (m 3 0x2)
   | 7 => anyCause s.aln.int s.aln.intEn (m 4 0)
   | 9 => anyCause s.cls.int s.cls.intEn (m 4 0)
   | 10 => anyCause s.arb.int s.arb.intEn (m 5 0x8)
   | 11 => anyCause s.xb.int s.xb.intEn (m 7 0)
   | 12 => anyCause s.mem.int s.mem.intEn (m 6 0x28)
   | 13 => anyCause s.pwr.int s.pwr.intEn (m 4 0x4)
   | 14 => anyCause s.sec.int s.sec.intEn (m 2 0)
   | _ => false)

/-- GLB_INT_STATUS.BLOCK (R100, R113). -/
def intStatus (s : State) : BitVec 15 :=
  BitVec.ofNat 15 (((List.range 15).map (fun b => if blockCause true true b s then 2 ^ b else 0)).sum)

/-! ### Pins (R99, R101, R888) -/

/-- A pin is asserted while a block that its mask lets through has a cause assigned to it; both are
released until READY. -/
def pinDriven (a : Bool) (s : State) : Bool :=
  let mask := if a then s.glb.intaMask else s.glb.intbMask
  s.pwr.boot == .ready && (List.range 15).any (fun b => mask.getLsbD b && blockCause a (!a) b s)

/-- INTA_N and INTB_N are active low. -/
def intaAsserted (s : State) : Bool := pinDriven true s
def intbAsserted (s : State) : Bool := pinDriven false s

end Sys2Proof.Machine
end

