-- ==== Sys2Proof/Machine/Crypto.lean ====
section
/-!
DEFINITION. The cryptography of Position images and test tokens (spec/03, spec/15): SHA-256 (FIPS 180-4),
ECDSA P-256 verification (FIPS 186-4), AES-256 (FIPS 197), GCM (NIST SP 800-38D) and AES key unwrap (NIST
SP 800-38F). The specification names these standards; their content is taken from them (log entry 27).
-/

namespace Sys2Proof.Machine

/-! ### SHA-256 -/

/-- The round constants. -/
def shaK : List Word :=
  [0x428A2F98, 0x71374491, 0xB5C0FBCF, 0xE9B5DBA5] ++
  [0x3956C25B, 0x59F111F1, 0x923F82A4, 0xAB1C5ED5] ++
  [0xD807AA98, 0x12835B01, 0x243185BE, 0x550C7DC3] ++
  [0x72BE5D74, 0x80DEB1FE, 0x9BDC06A7, 0xC19BF174] ++
  [0xE49B69C1, 0xEFBE4786, 0x0FC19DC6, 0x240CA1CC] ++
  [0x2DE92C6F, 0x4A7484AA, 0x5CB0A9DC, 0x76F988DA] ++
  [0x983E5152, 0xA831C66D, 0xB00327C8, 0xBF597FC7] ++
  [0xC6E00BF3, 0xD5A79147, 0x06CA6351, 0x14292967] ++
  [0x27B70A85, 0x2E1B2138, 0x4D2C6DFC, 0x53380D13] ++
  [0x650A7354, 0x766A0ABB, 0x81C2C92E, 0x92722C85] ++
  [0xA2BFE8A1, 0xA81A664B, 0xC24B8B70, 0xC76C51A3] ++
  [0xD192E819, 0xD6990624, 0xF40E3585, 0x106AA070] ++
  [0x19A4C116, 0x1E376C08, 0x2748774C, 0x34B0BCB5] ++
  [0x391C0CB3, 0x4ED8AA4A, 0x5B9CCA4F, 0x682E6FF3] ++
  [0x748F82EE, 0x78A5636F, 0x84C87814, 0x8CC70208] ++
  [0x90BEFFFA, 0xA4506CEB, 0xBEF9A3F7, 0xC67178F2]

/-- The initial hash value. -/
def shaInit : List Word :=
  [0x6A09E667, 0xBB67AE85, 0x3C6EF372, 0xA54FF53A] ++ [0x510E527F, 0x9B05688C, 0x1F83D9AB, 0x5BE0CD19]

def rotr (n : Nat) (w : Word) : Word := (w >>> n) ||| (w <<< (32 - n))

def smallSigma0 (w : Word) : Word := rotr 7 w ^^^ rotr 18 w ^^^ (w >>> 3)
def smallSigma1 (w : Word) : Word := rotr 17 w ^^^ rotr 19 w ^^^ (w >>> 10)
def bigSigma0 (w : Word) : Word := rotr 2 w ^^^ rotr 13 w ^^^ rotr 22 w
def bigSigma1 (w : Word) : Word := rotr 6 w ^^^ rotr 11 w ^^^ rotr 25 w

/-- Rounds over a window of sixteen schedule words. -/
def shaRounds : List Word → List Word → List Word → List Word
  | [], _, h => h
  | k :: ks, w, h =>
    match h with
    | [a, b, c, d, e, f, g, x] =>
      let w0 := nth 0 w 0
      let t1 := x + bigSigma1 e + ((e &&& f) ^^^ (~~~e &&& g)) + k + w0
      let t2 := bigSigma0 a + ((a &&& b) ^^^ (a &&& c) ^^^ (b &&& c))
      let next := smallSigma1 (nth 0 w 14) + nth 0 w 9 + smallSigma0 (nth 0 w 1) + w0
      shaRounds ks (w.drop 1 ++ [next]) [t1 + t2, a, b, c, d + t1, e, f, g]
    | _ => h

/-- Words of bytes, most significant first. -/
def wordsBE : Nat → List Byte → List Word
  | 0, _ => []
  | n + 1, l => BitVec.ofNat 32 (be32 l 0) :: wordsBE n (l.drop 4)

/-- The hash over the next `n` blocks of 64 bytes. -/
def shaBlocks : Nat → List Byte → List Word → List Word
  | 0, _, h => h
  | n + 1, l, h =>
    let r := shaRounds shaK (wordsBE 16 l) h
    shaBlocks n (l.drop 64) (List.zipWith (· + ·) h r)

/-- SHA-256 of a byte list. -/
def sha256 (l : List Byte) : List Byte :=
  let zeros := (119 - l.length % 64) % 64
  let m := l ++ [0x80] ++ List.replicate zeros 0 ++ toBE 8 (8 * l.length)
  (shaBlocks (m.length / 64) m shaInit).flatMap (fun w => toBE 4 w.toNat)

/-! ### P-256 -/

def p256p : Nat := 2 ^ 256 - 2 ^ 224 + 2 ^ 192 + 2 ^ 96 - 1
def p256n : Nat := 0xFFFFFFFF00000000FFFFFFFFFFFFFFFFBCE6FAADA7179E84F3B9CAC2FC632551
def p256b : Nat := 0x5AC635D8AA3A93E7B3EBBD55769886BC651D06B0CC53B0F63BCE3C3E27D2604B
def p256gx : Nat := 0x6B17D1F2E12C4247F8BCE6E563A440F277037D812DEB33A0F4A13945D898C296
def p256gy : Nat := 0x4FE342E2FE1A7F9B8EE7EB4A7C0F9E162BCE33576B315ECECBB6406837BF51F5

/-- Power modulo `m` by squaring over the lowest `k` bits of the exponent. -/
def powMod (m : Nat) : Nat → Nat → Nat → Nat
  | 0, _, _ => 1
  | k + 1, b, e =>
    let r := powMod m k (b * b % m) (e / 2)
    if e % 2 = 1 then r * b % m else r

/-- Inverse modulo a prime. -/
def invMod (m a : Nat) : Nat := powMod m 256 (a % m) (m - 2)

/-- Difference modulo `m`. -/
def subMod (m a b : Nat) : Nat := (a + m - b % m) % m

/-- A point in Jacobian coordinates; `z` = 0 is the point at infinity. -/
structure EcPoint where
  x : Nat
  y : Nat
  z : Nat
  deriving DecidableEq, Repr

def ecInf : EcPoint := { x := 1, y := 1, z := 0 }

/-- Doubling on y² = x³ − 3x + b. -/
def ecDouble (a : EcPoint) : EcPoint :=
  let p := p256p
  if a.z = 0 ∨ a.y = 0 then ecInf
  else
    let z2 := a.z * a.z % p
    let m := 3 * (subMod p a.x z2 * ((a.x + z2) % p)) % p
    let y2 := a.y * a.y % p
    let s := 4 * a.x * y2 % p
    let x := subMod p (m * m % p) (2 * s)
    { x, y := subMod p (m * subMod p s x % p) (8 * (y2 * y2 % p)), z := 2 * a.y * a.z % p }

/-- Addition. -/
def ecAdd (a b : EcPoint) : EcPoint :=
  let p := p256p
  if a.z = 0 then b
  else if b.z = 0 then a
  else
    let za := a.z * a.z % p
    let zb := b.z * b.z % p
    let u1 := a.x * zb % p
    let u2 := b.x * za % p
    let s1 := a.y * (zb * b.z % p) % p
    let s2 := b.y * (za * a.z % p) % p
    if u1 = u2 then (if s1 = s2 then ecDouble a else ecInf)
    else
      let h := subMod p u2 u1
      let r := subMod p s2 s1
      let h2 := h * h % p
      let h3 := h2 * h % p
      let v := u1 * h2 % p
      let x := subMod p (subMod p (r * r % p) h3) (2 * v)
      { x, y := subMod p (r * subMod p v x % p) (s1 * h3), z := h * a.z % p * b.z % p }

/-- Multiple of a point, over the lowest `k` bits of the scalar. -/
def ecMul : Nat → Nat → EcPoint → EcPoint
  | 0, _, _ => ecInf
  | k + 1, e, a =>
    let r := ecMul k (e / 2) (ecDouble a)
    if e % 2 = 1 then ecAdd r a else r

/-- ECDSA verification: `key` is X then Y, `sig` r then s, 32 bytes each. -/
def ecdsaVerify (key sig msg : List Byte) : Bool :=
  let qx := ofBE (slice key 0 32)
  let qy := ofBE (slice key 32 32)
  let r := ofBE (slice sig 0 32)
  let s := ofBE (slice sig 32 32)
  let onCurve := decide (qx < p256p) && decide (qy < p256p) &&
    decide (qy * qy % p256p = (qx * qx * qx + p256b + 3 * (p256p - qx)) % p256p)
  if !onCurve || r == 0 || decide (p256n ≤ r) || s == 0 || decide (p256n ≤ s) then false
  else
    let w := invMod p256n s
    let e := ofBE (sha256 msg)
    let a := ecAdd (ecMul 256 (e * w % p256n) { x := p256gx, y := p256gy, z := 1 })
      (ecMul 256 (r * w % p256n) { x := qx, y := qy, z := 1 })
    if a.z = 0 then false
    else
      let zi := invMod p256p a.z
      decide (a.x * (zi * zi % p256p) % p256p % p256n = r)

/-! ### AES-256 -/

/-- Doubling in GF(2^8). -/
def xtime (b : Byte) : Byte := (b <<< 1) ^^^ (if b.getLsbD 7 then 0x1B else 0)

/-- Product in GF(2^8) over the lowest `k` bits of the second factor. -/
def gmul : Nat → Byte → Nat → Byte
  | 0, _, _ => 0
  | k + 1, a, b => (if b % 2 = 1 then a else 0) ^^^ gmul k (xtime a) (b / 2)

def gprod (a b : Byte) : Byte := gmul 8 a b.toNat

/-- a^254, the inverse in GF(2^8). -/
def ginv (a : Byte) : Byte :=
  let a2 := gprod a a
  let a4 := gprod a2 a2
  let a8 := gprod a4 a4
  let a16 := gprod a8 a8
  let a32 := gprod a16 a16
  let a64 := gprod a32 a32
  let a128 := gprod a64 a64
  gprod a128 (gprod a64 (gprod a32 (gprod a16 (gprod a8 (gprod a4 a2)))))

def rotl8 (n : Nat) (b : Byte) : Byte := (b <<< n) ||| (b >>> (8 - n))

/-- SubBytes and its inverse on one byte. -/
def aesSub (b : Byte) : Byte :=
  let i := ginv b
  i ^^^ rotl8 1 i ^^^ rotl8 2 i ^^^ rotl8 3 i ^^^ rotl8 4 i ^^^ 0x63

def aesInvSub (b : Byte) : Byte := ginv (rotl8 1 b ^^^ rotl8 3 b ^^^ rotl8 6 b ^^^ 0x05)

def xorBytes (a b : List Byte) : List Byte := List.zipWith (· ^^^ ·) a b

/-- The next words of the key schedule; `i` is the index of the word to make, `rc` the round constant. -/
def aesExpand : Nat → Nat → Byte → List (List Byte) → List (List Byte)
  | 0, _, _, w => w
  | n + 1, i, rc, w =>
    let t := nth [] w (i - 1)
    let u :=
      if i % 8 = 0 then xorBytes ((t.drop 1 ++ t.take 1).map aesSub) [rc, 0, 0, 0]
      else if i % 8 = 4 then t.map aesSub
      else t
    aesExpand n (i + 1) (if i % 8 = 0 then xtime rc else rc) (w ++ [xorBytes (nth [] w (i - 8)) u])

/-- Pieces of `k` bytes. -/
def chunks (k : Nat) : Nat → List Byte → List (List Byte)
  | 0, _ => []
  | n + 1, l => l.take k :: chunks k n (l.drop k)

/-- The fifteen round keys of AES-256. -/
def aesKeys (key : List Byte) : List (List Byte) :=
  chunks 16 15 (aesExpand 52 8 1 (chunks 4 8 key)).flatten

/-- ShiftRows and its inverse on a block in column order. -/
def shiftRows (b : List Byte) : List Byte :=
  (List.range 16).map (fun i => nth 0 b ((i + 4 * (i % 4)) % 16))

def invShiftRows (b : List Byte) : List Byte :=
  (List.range 16).map (fun i => nth 0 b ((i + 12 * (i % 4)) % 16))

/-- MixColumns with the coefficients of the first row of its matrix. -/
def mixWith (c : List Byte) (b : List Byte) : List Byte :=
  (List.range 16).map (fun i =>
    let col := 4 * (i / 4)
    (List.range 4).foldl (fun x j => x ^^^ gprod (nth 0 c ((j + 4 - i % 4) % 4)) (nth 0 b (col + j))) 0)

def mixCols : List Byte → List Byte := mixWith [2, 3, 1, 1]
def invMixCols : List Byte → List Byte := mixWith [0x0E, 0x0B, 0x0D, 0x09]

/-- Encryption rounds after the first key addition. -/
def aesRounds : List (List Byte) → List Byte → List Byte
  | [], b => b
  | [k], b => xorBytes (shiftRows (b.map aesSub)) k
  | k :: ks, b => aesRounds ks (xorBytes (mixCols (shiftRows (b.map aesSub))) k)

def aesEncrypt (ks : List (List Byte)) (b : List Byte) : List Byte :=
  aesRounds (ks.drop 1) (xorBytes b (nth [] ks 0))

/-- Decryption rounds over the round keys in reverse order. -/
def aesInvRounds : List (List Byte) → List Byte → List Byte
  | [], b => b
  | [k], b => xorBytes ((invShiftRows b).map aesInvSub) k
  | k :: ks, b => aesInvRounds ks (invMixCols (xorBytes ((invShiftRows b).map aesInvSub) k))

def aesDecrypt (ks : List (List Byte)) (b : List Byte) : List Byte :=
  let r := ks.reverse
  aesInvRounds (r.drop 1) (xorBytes b (nth [] r 0))

/-! ### Key unwrap (SP 800-38F) -/

/-- The inverse wrapping steps, from `t` down; `a` is the integrity register, `rs` the four blocks. -/
def unwrapSteps (ks : List (List Byte)) : Nat → List Byte → List (List Byte) → List Byte × List (List Byte)
  | 0, a, rs => (a, rs)
  | t + 1, a, rs =>
    let i := t % 4
    let b := aesDecrypt ks (xorBytes a (toBE 8 (t + 1)) ++ nth [] rs i)
    unwrapSteps ks t (b.take 8) (upd (fun _ => b.drop 8) rs i)

/-- A 256-bit key unwrapped from 40 bytes, or none where the integrity check fails. -/
def keyUnwrap (kek wrapped : List Byte) : Option (List Byte) :=
  let r := unwrapSteps (aesKeys kek) 24 (wrapped.take 8) (chunks 8 4 (wrapped.drop 8))
  if r.1 = List.replicate 8 0xA6 then some r.2.flatten else none

/-! ### GCM (SP 800-38D) -/

/-- Product in GF(2^128) over the next bits of the first factor, most significant first. -/
def ghashMul : Nat → BitVec 128 → BitVec 128 → BitVec 128 → BitVec 128
  | 0, _, _, z => z
  | k + 1, x, v, z =>
    ghashMul k (x <<< 1) ((v >>> 1) ^^^ (if v.getLsbD 0 then 0xE1000000000000000000000000000000 else 0))
      (if x.getLsbD 127 then z ^^^ v else z)

/-- GHASH over blocks of 16 bytes. -/
def ghash (h : BitVec 128) : Nat → List Byte → BitVec 128 → BitVec 128
  | 0, _, y => y
  | n + 1, l, y =>
    ghash h n (l.drop 16) (ghashMul 128 (y ^^^ BitVec.ofNat 128 (ofBE (padTo 16 (l.take 16)))) h 0)

/-- Counter-mode key stream applied to blocks from counter `c` on. -/
def gcmStream (ks : List (List Byte)) (iv : List Byte) : Nat → Nat → List Byte → List Byte
  | 0, _, _ => []
  | n + 1, c, l =>
    xorBytes (l.take 16) (aesEncrypt ks (iv ++ toBE 4 c)) ++ gcmStream ks iv n (c + 1) (l.drop 16)

def padBlock (l : List Byte) : List Byte := l ++ List.replicate ((16 - l.length % 16) % 16) 0

/-- The tag of a ciphertext. -/
def gcmTag (ks : List (List Byte)) (iv aad ct : List Byte) : List Byte :=
  let h := BitVec.ofNat 128 (ofBE (aesEncrypt ks (List.replicate 16 0)))
  let m := padBlock aad ++ padBlock ct ++ toBE 8 (8 * aad.length) ++ toBE 8 (8 * ct.length)
  xorBytes (toBE 16 (ghash h (m.length / 16) m 0).toNat) (aesEncrypt ks (iv ++ toBE 4 1))

/-- Decryption, or none where the tag does not match (R130, R131). -/
def gcmDecrypt (key iv tag aad ct : List Byte) : Option (List Byte) :=
  let ks := aesKeys key
  if gcmTag ks iv aad ct = tag then some (gcmStream ks iv ((ct.length + 15) / 16) 2 ct) else none

end Sys2Proof.Machine
end

