-- ==== Sys2Proof/Machine/SecUnits.lean ====
section
/-!
DEFINITION. What the OTP units say (spec/15, R844 to R850): states of slots, flags, the anti-rollback
count and the key-encryption key.
-/

namespace Sys2Proof.Machine

def otpUnit (u : Nat) (s : State) : OtpUnit := nth .blank s.sec.otp u

def otpLocked (u : Nat) (s : State) : Bool := (otpUnit u s).st == .locked

/-- A counter or flag unit takes effect from COMMITTED (R845). -/
def otpEffective (u : Nat) (s : State) : Bool :=
  (otpUnit u s).st == .committed || (otpUnit u s).st == .locked

/-- Unit addresses of counter bits and flags (Table 15-2). -/
def counterUnits : List Nat := (List.range 64).map (· + 128)
def flagUnit (f : Nat) : Nat := 192 + f

/-- Flag `f`: 0 ENFORCE, 1 REVOKE0, 2 REVOKE1, 3 TEST_DISABLE. -/
def otpFlag (f : Nat) (s : State) : Bool := otpEffective (flagUnit f) s

/-- GLB_STATUS.ENFORCED (R869). -/
def enforced (s : State) : Bool := otpFlag 0 s

/-- The anti-rollback count (R848), and the highest that can still be reached (R867). -/
def rollbackCount (s : State) : Nat := (counterUnits.filter (fun u => otpEffective u s)).length
def rollbackMax (s : State) : Nat :=
  rollbackCount s + (counterUnits.filter (fun u => (otpUnit u s).st == .blank)).length

/-- Units of key-hash slot `k` and of the KEK (Table 15-2). -/
def slotUnits (k : Nat) : List Nat := (List.range 8).map (· + (2 + 8 * k))
def kekUnits : List Nat := (List.range 8).map (· + 18)

/-- Slot states (Table 15-11, R846): 0 BLANK, 1 PROGRAMMED, 2 REVOKED, 3 UNUSABLE. -/
def slotState (k : Nat) (s : State) : Nat :=
  if otpFlag (1 + k) s then 2
  else if (slotUnits k).all (fun u => otpLocked u s) then 1
  else if (slotUnits k).any (fun u => (otpUnit u s).st == .scarred) then 3
  else 0

def slotProgrammed (k : Nat) (s : State) : Bool := decide (k < 2) && slotState k s == 1

/-- Bytes of word units, byte 0 in bits 31:24 of the first. -/
def otpBytes (us : List Nat) (s : State) : List Byte :=
  us.flatMap (fun u => toBE 4 (otpUnit u s).data.toNat)

/-- The key-encryption key is usable (R849), and not in test mode (R875). -/
def kekUsable (s : State) : Bool := kekUnits.all (fun u => otpLocked u s) && !s.sec.testMode

/-- DEVICE_ID as eight bytes, bits 63:32 first. -/
def deviceId (s : State) : List Byte := otpBytes [0, 1] s

/-- Word `w` as SEC_OTP_READw returns it (Table 15-11, R850): counter bits and flags are gathered into
words 26 to 28. -/
def otpReadWord (w : Nat) (s : State) : Word :=
  let bits (base : Nat) : Word :=
    BitVec.ofNat 32 (((List.range 32).map (fun i => if otpEffective (base + i) s then 2 ^ i else 0)).sum)
  if 18 ≤ w ∧ w ≤ 25 then 0
  else if w = 26 then bits 128
  else if w = 27 then bits 160
  else if w = 28 then bits 192
  else if otpEffective w s then (otpUnit w s).data
  else 0

/-- Code of a unit's state in SEC_OTP_STATEj. -/
def OtpSt.code : OtpSt → Nat
  | .blank => 0
  | .scarred => 1
  | .committed => 2
  | .locked => 3

/-- SEC_OTP_STATEj: two bits per unit. -/
def otpStateWord (j : Nat) (s : State) : Word :=
  BitVec.ofNat 32 (((List.range 16).map (fun i => (otpUnit (16 * j + i) s).st.code * 4 ^ i)).sum)

end Sys2Proof.Machine
end

