-- ==== Sys2Proof/Machine/PosCheck.lean ====
section
/-!
DEFINITION. The Position image (spec/03): its header and sections, and the checks 0x01 to 0x0C of
Table 3-7 with the locations of Table 3-22.
-/

namespace Sys2Proof.Machine

/-- A refusal: code, POS_ERR.SECTION, POS_ERR.DETAIL and POS_ERR_OFFSET (Table 3-22). -/
structure PosErr where
  code : Nat
  section_ : Nat
  detail : Nat
  offset : Nat
  deriving DecidableEq, Repr

/-- A refusal that names no section. -/
def errAt (code offset : Nat) : PosErr := { code, section_ := 0xFF, detail := 0, offset }

/-! ### Header (Table 3-2) -/

def imgPayload (b : List Byte) : Nat := be32 b 16
def imgClear (b : List Byte) : Nat := be32 b 24
def imgSigned (b : List Byte) : Bool := natBit (be16 b 12) 0
def imgEncrypted (b : List Byte) : Bool := natBit (be16 b 12) 1
def imgKeySlot (b : List Byte) : Nat := u8 b 11
def imgVersion (b : List Byte) : Nat := u8 b 10
def imgEpoch (b : List Byte) : Nat := be16 b 6

/-- Image length (R116). -/
def imgLength (b : List Byte) : Nat := 128 + imgPayload b

/-- Largest image, the size of a bank. -/
def bankSize : Nat := 393216

/-- GLB_STEP bits 7:0 of this step. -/
def stepB1 : Nat := 0xB1

/-- POS_UCODE_ROM (Table 3-20). -/
def ucodeRomVersion : Nat := 0x00B10003

/-- The first refusal of a list of checks, each the refusal it would give and whether it passes. -/
def firstFailed : List (PosErr × Bool) → Option PosErr
  | [] => none
  | (e, ok) :: r => if ok then firstFailed r else some e

/-- Anti-rollback (0x05), which commits repeat (R151). -/
def rollbackOk (b : List Byte) (s : State) : Bool :=
  decide (imgVersion b ≤ 64) && decide (rollbackCount s ≤ imgVersion b)

/-- Checks 0x01 to 0x06, on the first 64 bytes. -/
def headerCheck (b : List Byte) (s : State) : Option PosErr :=
  let pl := imgPayload b
  firstFailed
    [ (errAt 1 0, be32 b 0 == 0x464E5850),
      (errAt 2 4, u8 b 4 == 3),
      (errAt 2 5, decide (u8 b 5 ≤ 2)),
      (errAt 3 16, decide (128 + pl ≤ bankSize) && pl % 8 == 0),
      (errAt 3 24, decide (imgClear b ≤ pl)),
      (errAt 4 8, decide (u8 b 8 ≤ stepB1)),
      (errAt 4 9, decide (stepB1 ≤ u8 b 9)),
      (errAt 5 10, rollbackOk b s),
      (errAt 6 12, imgSigned b || !(enforced s || imgEncrypted b)),
      (errAt 6 24, imgClear b == (if imgEncrypted b then 120 else pl)) ]

/-! ### KEY, signature, decryption (R126 to R131) -/

def keyErr : PosErr := { code := 7, section_ := 0, detail := 0, offset := 64 }

/-- Is the first section KEY with LENGTH 64? Asked once its header is in the bank. -/
def keyHeaderOk (b : List Byte) : Bool := be16 b 64 == 0x0001 && be32 b 68 == 64

/-- The rule of R127 for the key in the bank. -/
def keyTrusted (b : List Byte) (s : State) : Bool :=
  slotProgrammed (imgKeySlot b) s &&
    sha256 (slice b 72 64) == otpBytes (slotUnits (imgKeySlot b)) s

/-- Check 0x07 on the bytes in the bank so far; nothing while it cannot be decided (R142). -/
def keyCheck (b : List Byte) (s : State) : Option PosErr :=
  if imgSigned b = false then none
  else if imgLength b < 200 then some keyErr
  else if b.length < 72 then none
  else if keyHeaderOk b = false then some keyErr
  else if b.length < 136 then none
  else if keyTrusted b s then none
  else some keyErr

/-- Check 0x08: signature, or digest of an unsigned image. -/
def signatureCheck (b : List Byte) : Option PosErr :=
  let n := 64 + imgPayload b
  let body := b.take n
  let trailer := slice b n 64
  let ok : Bool :=
    if imgSigned b then ecdsaVerify (slice b 72 64) trailer body
    else trailer == sha256 body ++ List.replicate 32 0
  if ok then none else some (errAt 8 n)

/-- Decryption: the plaintext image, or the refusal 0x09. -/
def decryptImage (b : List Byte) (s : State) : Except PosErr (List Byte) :=
  if imgEncrypted b = false then .ok b
  else
    let bad : PosErr := { code := 9, section_ := 1, detail := 0, offset := 136 }
    if kekUsable s = false ∨ be16 b 136 ≠ 0x0002 ∨ be32 b 140 ≠ 40 then .error bad
    else
      match keyUnwrap (otpBytes kekUnits s) (slice b 144 40) with
      | none => .error bad
      | some k =>
        let c := 64 + imgClear b
        let e := 64 + imgPayload b
        match gcmDecrypt k (slice b 28 12) (slice b 40 16) (b.take 40 ++ slice b 64 (imgClear b))
            (slice b c (e - c)) with
        | none => .error (errAt 9 40)
        | some p => .ok (b.take c ++ p ++ b.drop e)

/-! ### Sections (R118 to R120) -/

/-- A section with its index and the offset of its header. -/
structure SectAt where
  idx : Nat
  off : Nat
  sect : Sect
  deriving DecidableEq, Repr

/-- Does a body have the length that its type and the counts inside it give (Table 3-3)? Counts beyond
their limits are left to POS_ERR_RANGE, and the entry count of ARB_UCODE too (R653). -/
def bodyLengthOk (ty : Nat) (b : List Byte) : Bool :=
  let n := b.length
  let list (size : Nat) : Bool := decide (8 ≤ n) && n == 8 + size * be16 b 0
  if ty = tyKey then n == 64
  else if ty = tyDek then n == 40
  else if ty = tyPorts then n == 448
  else if ty = tyMemory then n == 64
  else if ty = tyPcp then n == 16
  else if ty = tyRoutes then n == 8 + 4096 * 48
  else if ty = tyWildcards then list 48
  else if ty = tyFilters then list 32
  else if ty = tyTemplates then list 128
  else if ty = tyAdmission then decide (8 ≤ n) && n == 8 + 16 * (be16 b 0 + be16 b 2)
  else if ty = tyTime then n == 800
  else if ty = tySerial then n == 1536
  else if ty = tyConverters then n == 128
  else if ty = tyPublisher then n == 512
  else if ty = tyAlignment then n == 2048
  else if ty = tyArbiter then
    decide (8 ≤ n) && n == 8 + 16 * be16 b 0 + 8 * be16 b 2 + 64 + 8 * u8 b 4
  else if ty = tyUcode then decide (8 ≤ n) && (n - 8) % 16 == 0
  else if ty = tyGoose then n == 24576
  else if ty = tyBridge then n == 1536
  else if ty = tyPower then n == 64
  else if ty = tyFallback then decide (24 ≤ n) && n == 24 + 8 * be16 b 16
  else true

def fmtErr (idx off : Nat) : PosErr := { code := 0x0A, section_ := idx, detail := 0, offset := off }

/-- Walks the payload `l` that lies at offset `off`, after a section of type `prev`. -/
def walkSections : Nat → Nat → Nat → Int → List Byte → Except PosErr (List SectAt)
  | 0, idx, off, _, l => if l.isEmpty then .ok [] else .error (fmtErr idx off)
  | fuel + 1, idx, off, prev, l =>
    if l.isEmpty then .ok []
    else if l.length < 8 then .error (fmtErr idx off)
    else
      let ty := be16 l 0
      let fl := be16 l 2
      let len := be32 l 4
      let body := slice l 8 len
      if (ty : Int) ≤ prev then .error (fmtErr idx off)
      else if 256 ≤ fl then .error (fmtErr idx (off + 2))
      else if 2 ≤ fl then .error (fmtErr idx (off + 3))
      else if len % 8 ≠ 0 ∨ l.length < 8 + len ∨ bodyLengthOk ty body = false then
        .error (fmtErr idx (off + 4))
      else
        match walkSections fuel (idx + 1) (off + 8 + len) ty (l.drop (8 + len)) with
        | .error e => .error e
        | .ok r => .ok ({ idx, off, sect := { ty, flags := fl, body } } :: r)

/-- Offset of the first byte that is not zero among bytes `lo` to `hi` - 1. -/
def firstNonzero (b : List Byte) (lo hi : Nat) : Option Nat :=
  ((List.range (hi - lo)).map (· + lo)).find? (fun i => u8 b i != 0)

/-- Zero bytes and flags of the header (check 0x0A). -/
def headerFormat (b : List Byte) : Option PosErr :=
  let flags := be16 b 12
  if imgSigned b = false ∧ 1 < imgKeySlot b then some (errAt 0x0A 11)
  else if 256 ≤ flags then some (errAt 0x0A 12)
  else if 4 ≤ flags then some (errAt 0x0A 13)
  else
    match (if imgEncrypted b then none else firstNonzero b 28 56) with
    | some i => some (errAt 0x0A i)
    | none => (firstNonzero b 56 64).map (errAt 0x0A)

/-- Sections of a plaintext image, or the refusal 0x0A. -/
def parseImage (b : List Byte) : Except PosErr (List SectAt) :=
  match headerFormat b with
  | some e => .error e
  | none =>
    let pl := imgPayload b
    match walkSections (pl / 8 + 1) 0 64 (-1) (slice b 64 pl) with
    | .error e => .error e
    | .ok r => if r.length = be16 b 14 then .ok r else .error (errAt 0x0A 14)

/-! ### Required and unknown sections (0x0B), microcode (0x0C) -/

/-- The types of Table 3-3. -/
def knownTypes : List Nat :=
  [tyKey, tyDek, tyPorts, tyMemory, tyPcp, tyRoutes, tyWildcards, tyFilters, tyTemplates, tyAdmission,
   tyTime, tySerial, tyConverters, tyPublisher, tyAlignment, tyArbiter, tyUcode, tyGoose, tyBridge,
   tyPower, tyFallback, tyAnnotation]

/-- Types an image must hold. -/
def requiredTypes (b : List Byte) : List Nat :=
  (if imgSigned b then [tyKey] else []) ++ (if imgEncrypted b then [tyDek] else []) ++
    [tyPorts, tyMemory, tyRoutes, tyAdmission, tyFallback]

def sectOf (ty : Nat) (l : List SectAt) : Option SectAt := l.find? (fun x => x.sect.ty == ty)

/-- Where a missing section would stand (R969). -/
def missingAt (ty : Nat) (b : List Byte) (l : List SectAt) : PosErr :=
  match l.find? (fun x => decide (ty < x.sect.ty)) with
  | some x => { code := 0x0B, section_ := x.idx, detail := ty, offset := x.off }
  | none => { code := 0x0B, section_ := l.length, detail := ty, offset := 64 + imgPayload b }

/-- Check 0x0B. -/
def sectionCheck (b : List Byte) (l : List SectAt) : Option PosErr :=
  match (requiredTypes b).find? (fun ty => (sectOf ty l).isNone) with
  | some ty => some (missingAt ty b l)
  | none =>
    (l.find? (fun x => !knownTypes.contains x.sect.ty && x.sect.flags == 0)).map (fun x =>
      { code := 0x0B, section_ := x.idx, detail := x.sect.ty, offset := x.off })

/-- Check 0x0C (R123). -/
def ucodeCheck (l : List SectAt) : Option PosErr :=
  match sectOf tyUcode l with
  | some x =>
    if be32 x.sect.body 0 = ucodeRomVersion then none
    else some { code := 0x0C, section_ := x.idx, detail := 0, offset := x.off }
  | none => none

/-! ### Digests (R147, R148) -/

/-- Bytes of a section with its header. -/
def sectBytes (x : Sect) : List Byte := toBE 2 x.ty ++ toBE 2 x.flags ++ toBE 4 x.body.length ++ x.body

/-- The structural digest of a Position's sections (R147). -/
def structuralDigest (l : List Sect) : List Byte :=
  sha256 ((l.filter (fun x => x.ty == tyPorts || x.ty == tyMemory || x.ty == tyUcode)).flatMap sectBytes)

end Sys2Proof.Machine
end

