-- ==== Sys2Proof/Machine/SerialRx.lean ====
section
/-!
DEFINITION. The serial receivers (spec/07): characters, autobaud, framing, the hand-over to the board,
slots and blinding.
-/

namespace Sys2Proof.Machine

/-! ### The SERIAL entry (Table 7-6) -/

def serRxEn (e : List Byte) : Bool := flagAt e 0 0
def serTxEn (e : List Byte) : Bool := flagAt e 0 1
def serData (e : List Byte) : Nat := if flagAt e 1 0 then 8 else 7
def serParity (e : List Byte) : Nat := u8 e 1 / 2 % 8
def serStops (e : List Byte) : Nat := if flagAt e 1 4 then 2 else 1
def serOver (e : List Byte) : Nat := nth 3 [16, 8, 3] (u8 e 2)
def serIdleMode (e : List Byte) : Bool := u8 e 3 == 1
def serDivider (e : List Byte) : Nat := be24 e 5
def serMaxLen (e : List Byte) : Nat := be16 e 8
def serIdleHct (e : List Byte) : Nat := u8 e 10
def serDuplex (e : List Byte) : Nat := u8 e 13
def serAbrMode (e : List Byte) : Nat := u8 e 18 % 4
def serAnyRate (e : List Byte) : Bool := flagAt e 18 2
def serRates (e : List Byte) : List Nat := [be32 e 24, be32 e 28, be32 e 32, be32 e 36]
def serSlotLen (e : List Byte) : Nat := be32 e 56
def serGuard (e : List Byte) : Nat := u8 e 21

/-- Role of a slot (Table 7-5). -/
def slotRole (e : List Byte) (k : Nat) : Nat := u8 e (40 + k / 4) / 4 ^ (3 - k % 4) % 4

/-- Bits of a character: start, data, parity, stop. -/
def charBits (e : List Byte) : Nat := 1 + serData e + (if serParity e = 0 then 0 else 1) + serStops e

/-! ### Channels -/

def serAt (c : Nat) (s : State) : SerChan := nth .reset s.ser c

def updSer (c : Nat) (f : SerChan → SerChan) (s : State) : State := { s with ser := upd f s.ser c }

/-- Adds to counter `i` of Table 7-11. -/
def serCount (c i : Nat) (s : State) : State :=
  updSer c (fun k => { k with cnt := upd satInc k.cnt i }) s

/-- Divider that character times follow: the one in force, and in SEARCH that of the slowest rate of
ABR_RATES, or of 300 baud with ANY_RATE (R390). -/
def timeDivider (e : List Byte) (k : SerChan) : Nat :=
  if serAbrMode e = 0 ∨ k.locked then k.div
  else
    let r := if serAnyRate e then 300 else
      ((serRates e).filter (· != 0)).foldl (fun a b => if a = 0 then b else min a b) 0
    (2 * 16000000000 + serOver e * r) / (2 * max 1 (serOver e * r))

/-- `h` half character times in core cycles, rounded up. -/
def halfChars (h : Nat) (e : List Byte) (k : SerChan) : Nat :=
  ceilDiv (h * charBits e * serOver e * timeDivider e k) 128

/-- Does a channel receive now? In PLAY under a Position; a message already begun also completes while
an entry out of PLAY is in its first steps (R431, R801). -/
def serReceives (c : Nat) (s : State) : Bool :=
  serRxEn (serEntry c s) &&
    (boardRuns s || (fabricRuns s && s.pos.running && (serAt c s).frame.isSome))

/-! ### A character on the line (R373 to R379) -/

/-- Level `t` ns after E: true is the idle level. -/
def lineLevel (edges : List Nat) (t : Nat) : Bool :=
  (edges.filter (fun x => decide (x ≤ t))).length % 2 == 1

/-- Read instant of bit `k` in ns after E: the first sampling-clock edge at or after E + (k + 0.5) T.
`e0` is the local instant of E in ns, from which the sampling clock's phase follows (R377). -/
def readInstant (o n e0 k : Nat) : Nat :=
  16 * ceilDiv (32 * e0 + (2 * k + 1) * o * n) 512 - e0

/-- Bit `k` as read. -/
def readBit (o n e0 : Nat) (edges : List Nat) (k : Nat) : Bool := lineLevel edges (readInstant o n e0 k)

/-- A character as received: its value, and its parity and framing errors. -/
structure CharRead where
  value : Nat
  parity : Bool
  framing : Bool
  deriving DecidableEq, Repr

/-- Does a parity bit break its rule (R373)? -/
def parityBad (mode value : Nat) (bit : Bool) : Bool :=
  let odd := (ones 8 value + (if bit then 1 else 0)) % 2 == 1
  if mode = 1 then odd else if mode = 2 then !odd else if mode = 3 then !bit else if mode = 4 then bit
  else false

/-- Reads a character with divider `n`. -/
def readChar (e : List Byte) (n e0 : Nat) (edges : List Nat) : CharRead :=
  let o := serOver e
  let d := serData e
  let p := if serParity e = 0 then 0 else 1
  let v := (List.range d).foldl (fun a i => if readBit o n e0 edges (i + 1) then a + 2 ^ i else a) 0
  { value := v, parity := p == 1 && parityBad (serParity e) v (readBit o n e0 edges (d + 1)),
    framing := !((List.range (serStops e)).all (fun i => readBit o n e0 edges (d + p + 1 + i))) }

/-! ### Autobaud (R381 to R388) -/

/-- Transitions of a character's start and data bits after E: positions where the level changes. -/
def charTransitions (d v : Nat) : List Nat :=
  ((List.range d).map (· + 1)).filter (fun i =>
    (if i = 1 then false else natBit v (i - 2)) != natBit v (i - 1))

/-- Position p of the measurement edge: the last falling edge among the data bits. -/
def measurePos (d v : Nat) : Nat :=
  (charTransitions d v).foldl (fun a i => if natBit v (i - 1) then a else i) 0

/-- Transitions up to the measurement edge. -/
def measureEdges (d v : Nat) : List Nat := (charTransitions d v).filter (fun i => decide (i ≤ measurePos d v))

/-- The known characters of ABR_MODE. -/
def knownChars (e : List Byte) : List Nat :=
  if serAbrMode e = 1 then [0x24, 0x21] else if serAbrMode e = 2 then [0x55] else [u8 e 19]

/-- Are all edges within a quarter of the measured bit time (R383)? -/
def edgesMatch (ps edges : List Nat) (p tp : Nat) : Bool :=
  (ps.zip edges).all (fun x => decide (4 * ((x.2 * p : Int) - (x.1 * tp : Int)).natAbs ≤ tp))

/-- The measured character: its value, p and t_p (R382, R383). -/
def measure (d : Nat) (edges : List Nat) : List Nat → Option (Nat × Nat × Nat)
  | [] => none
  | v :: vs =>
    let ps := measureEdges d v
    match edges[ps.length - 1]? with
    | some tp =>
      let p := measurePos d v
      if ps.isEmpty = false ∧ 0 < tp ∧ edgesMatch ps edges p tp then some (v, p, tp)
      else measure d edges vs
    | none => measure d edges vs

/-- Divider and rate of R374. -/
def dividerOk (o n : Nat) : Bool :=
  decide (384 ≤ n) && decide (n ≤ 16777215) && decide (300 * o * n ≤ 16000000000) &&
    decide (16000000000 ≤ 12000000 * o * n)

/-- Divider for a rate, rounded to nearest. -/
def dividerFor (o r : Nat) : Nat := (2 * 16000000000 + o * r) / (2 * max 1 (o * r))

/-- Distance of a rate from the measured one, times t_p. -/
def rateGap (r p tp : Nat) : Nat := ((r * tp : Int) - (1000000000 * p : Int)).natAbs

/-- The nearest nonzero entry of ABR_RATES with its index. -/
def nearestRate (p tp : Nat) : Nat → List Nat → Option (Nat × Nat) → Option (Nat × Nat)
  | _, [], b => b
  | i, r :: rs, b =>
    let b1 : Option (Nat × Nat) :=
      if r = 0 then b
      else
        match b with
        | none => some (i, r)
        | some (_, q) => if rateGap r p tp < rateGap q p tp then some (i, r) else b
    nearestRate p tp (i + 1) rs b1

/-- List index and divider that a measurement gives (R384). -/
def lockRate (e : List Byte) (p tp : Nat) : Option (Nat × Nat) :=
  let o := serOver e
  if serAnyRate e then
    let n := (2 * 16 * tp + p * o) / (2 * max 1 (p * o))
    if dividerOk o n then some (7, n) else none
  else
    match nearestRate p tp 0 (serRates e) none with
    | some (i, r) => if 100 * rateGap r p tp ≤ 3 * 1000000000 * p then some (i, dividerFor o r) else none
    | none => none

/-! ### Slots (R418 to R420, R424) -/

/-- The slot a start bit at device instant `t` belongs to, and whether by the guard band (R418). -/
def slotOf (e : List Byte) (k : SerChan) (t : Nat) : Option (Nat × Bool) :=
  match k.slotFrame with
  | none => none
  | some (secs, ns) =>
    let f := secs.toNat * 1000000000 + ns
    let l := serSlotLen e
    if l = 0 ∨ t < f then none
    else
      let i := (t - f) / l
      let guard16 := serGuard e * serOver e * k.div
      let early := decide (16 * (f + (i + 1) * l - t) ≤ guard16) && decide (i < 63)
      if 64 ≤ i then none else some (if early then i + 1 else i, early)

/-- First slot of the group that slot `k` belongs to: back over REMOTE_CONT. -/
def groupStart (e : List Byte) : Nat → Nat
  | 0 => 0
  | k + 1 => if slotRole e (k + 1) = 3 then groupStart e k else k + 1

/-- The slots of a group from `k` on that continue it. -/
def groupEnd (e : List Byte) : Nat → Nat → Nat
  | 0, k => k
  | n + 1, k => if slotRole e (k + 1) = 3 ∧ k < 63 then groupEnd e n (k + 1) else k

/-- Is a slot FREE or OWN? -/
def notRemote (e : List Byte) (k : Nat) : Bool := slotRole e k == 0 || slotRole e k == 2

/-- Counts an encroaching message once (R420). -/
def encroach (c : Nat) (s : State) : State :=
  raiseAt .serEncroach c (BitVec.ofNat 32 c)
    (serCount c 17 (updSer c (fun k => { k with
      frame := k.frame.map (fun f => { f with encroached := true }) }) s))

/-- Slot checks on a character of the open message; `first` tells that it opens it (R419, R420). -/
def slotCheck (c : Nat) (first : Bool) (t : Nat) (s : State) : State :=
  let e := serEntry c s
  match slotOf e (serAt c s) t, (serAt c s).frame with
  | some (k, early), some f =>
    if flagAt e 0 2 = false then s
    else if first then
      let s1 := if early then serCount c 16 s else s
      if notRemote e k then encroach c s1
      else
        let g := groupStart e k
        updSer c (fun x => { x with frame := some { f with group := some (g, groupEnd e 64 g) } }) s1
    else
      match f.group, f.encroached with
      | some (a, b), false => if k < a ∨ b < k then encroach c s else s
      | _, _ => s
  | _, _ => s

/-! ### Framing (R391 to R402) -/

/-- What a further character makes of a sentence. -/
inductive SentStep where
  | grow | complete | checksum | format
  deriving DecidableEq, Repr

/-- The sentence `l`, which ends with the character just received (R392 to R395). -/
def sentenceStep (l : List Byte) : SentStep :=
  let n := l.length
  let c := nth 0 l (n - 1)
  match l.findIdx? (fun b => b == 0x2A) with
  | none =>
    if nth 0 l (n - 2) = 0x0D then (if c = 0x0A then .checksum else .format)
    else if c = 0x0D then .grow
    else if c = 0x2C ∧ n = 2 then .format
    else if 0x20 ≤ c.toNat ∧ c.toNat ≤ 0x7E then .grow
    else .format
  | some i =>
    let k := n - 1 - i
    if k = 0 then (if i = 1 ∨ nth 0 l (i - 1) = 0x0D then .format else .grow)
    else if k ≤ 2 then (if (hexVal c).isSome then .grow else .format)
    else if k = 3 then (if c = 0x0D then .grow else .format)
    else if c = 0x0A then
      (match hexVal (nth 0 l (i + 1)), hexVal (nth 0 l (i + 2)) with
       | some x, some y =>
         if BitVec.ofNat 8 (16 * x + y) = xorAll (slice l 1 (i - 1)) then .complete else .checksum
       | _, _ => .checksum)
    else .format

/-- A message has completed: it takes the second buffer, and an older one still waiting is dropped
(R398, R399, R403, R405). -/
def serComplete (c : Nat) (m : SerMsg) (s : State) : State :=
  let late := (serAt c s).wait.isSome
  let s1 := updSer c (fun k => { k with
    wait := some { m with origin := localNow s }, frame := none, rx := .idle }) s
  if late then raiseAt .serOverrun c (BitVec.ofNat 32 c) (serCount c 11 s1) else s1

/-- Drops the partial message. -/
def dropFrame (c : Nat) (st : RxSt) (s : State) : State :=
  updSer c (fun k => { k with frame := none, spoiled := false, rx := st }) s

/-- A message starts with its first character. -/
def openFrame (c : Nat) (b : Byte) (idle : Bool) (t : Stamp) (s : State) : State :=
  slotCheck c true t.absNs (updSer c (fun k => { k with
    frame := some { bytes := [b], stamp := t, origin := 0, idle, group := none, encroached := false },
    rx := .receiving, spoiled := false }) s)

/-- A character in SENTENCE mode. -/
def sentenceChar1 (c : Nat) (b : Byte) (t : Stamp) (s : State) : State :=
  let e := serEntry c s
  if b = 0x24 ∨ b = 0x21 then openFrame c b false t s
  else
    match (serAt c s).frame with
    | none => serCount c 5 s
    | some f =>
      let s0 := slotCheck c false t.absNs s
      let f1 := { ((serAt c s0).frame.getD f) with bytes := f.bytes ++ [b] }
      match sentenceStep f1.bytes with
      | .complete => serComplete c f1 s0
      | .checksum => serCount c 6 (dropFrame c .idle s0)
      | .format => serCount c 7 (dropFrame c .discarding s0)
      | .grow =>
        if serMaxLen e ≤ f1.bytes.length then serCount c 8 (dropFrame c .discarding s0)
        else updSer c (fun k => { k with frame := some f1 }) s0

/-- A character in IDLE mode; `bad` is a framing or parity error (R399 to R401). -/
def idleChar1 (c : Nat) (b : Byte) (bad : Bool) (t : Stamp) (s : State) : State :=
  let e := serEntry c s
  if (serAt c s).rx = .discarding then s
  else
    let s1 :=
      match (serAt c s).frame with
      | none => openFrame c b true t s
      | some f =>
        let s0 := slotCheck c false t.absNs s
        updSer c (fun k => { k with
          frame := some { ((serAt c s0).frame.getD f) with bytes := f.bytes ++ [b] } }) s0
    let s2 := updSer c (fun k => { k with spoiled := k.spoiled || bad }) s1
    let n := ((serAt c s2).frame.map (fun f => f.bytes.length)).getD 0
    if serMaxLen e < n then serCount c 8 (dropFrame c .discarding s2) else s2

/-- Enters SEARCH: the partial message goes (R388). -/
def enterSearch (c : Nat) (s : State) : State :=
  updSer c (fun k => { k with
    rx := .search, locked := false, errRun := 0, frame := none, spoiled := false, needIdle := false }) s

/-- A character whose bits have been read: errors, then framing. -/
def takeChar (c : Nat) (r : CharRead) (t : Stamp) (s : State) : State :=
  let e := serEntry c s
  let bad := r.framing || r.parity
  let s1 := serCount c 0 s
  let s2 := if r.framing then serCount c 2 s1 else s1
  let s3 := if r.parity then serCount c 3 s2 else s2
  let run := if bad then (serAt c s).errRun + 1 else 0
  let s4 := updSer c (fun k => { k with
    errRun := run, lastChar := localNow s, lineIdle := false }) s3
  if bad ∧ serAbrMode e ≠ 0 ∧ (serAt c s).locked ∧ u8 e 20 ≠ 0 ∧ u8 e 20 ≤ run then enterSearch c s4
  else if serIdleMode e then idleChar1 c (BitVec.ofNat 8 r.value) bad t s4
  else if bad then (if (serAt c s4).frame.isSome then dropFrame c .idle s4 else s4)
  else sentenceChar1 c (BitVec.ofNat 8 r.value) t s4

/-- Rejects a measured character (R386). -/
def abrReject (c : Nat) (s : State) : State :=
  serCount c 12 (updSer c (fun k => { k with
    needIdle := true, rx := .search, locked := false, lastChar := localNow s, lineIdle := false }) s)

/-- Locks the rate of a channel (R385). -/
def abrLock (c idx n baud tp : Nat) (s : State) : State :=
  raiseAt .serAutobaud c (BitVec.ofNat 32 (c * 2 ^ 24 + baud % 2 ^ 24))
    (updSer c (fun k => { k with
      locked := true, div := n, rx := .idle, errRun := 0, abrIndex := BitVec.ofNat 3 idx,
      abrBaud := BitVec.ofNat 24 baud, abrMeas := BitVec.ofNat 32 tp }) s)

/-- Measures a character in SEARCH (R382 to R386). -/
def measureChar (c e0 : Nat) (edges : List Nat) (t : Stamp) (s : State) : State :=
  let e := serEntry c s
  match measure (serData e) edges (knownChars e) with
  | none => abrReject c s
  | some (v, p, tp) =>
    match lockRate e p tp with
    | none => abrReject c s
    | some (idx, n) =>
      let r := readChar e n e0 edges
      if r.framing then abrReject c s
      else
        takeChar c { r with value := v } t
          (abrLock c idx n ((2 * 1000000000 * p + tp) / (2 * tp)) tp s)

/-- A character from its start bit on (R376 to R388). -/
def charRx (c : Nat) (l : LineChar) (s : State) : State :=
  let e := serEntry c s
  let k := serAt c s
  let e0 := localNow s * 4 - l.age
  let t := stampAgo l.age s
  if k.rx = .blinded ∨ k.skipIdle ∨ (k.deOn ∧ serDuplex e = 1) ∨
      (k.txSt = .sending ∧ 2 ≤ serDuplex e) then s
  else if serAbrMode e ≠ 0 ∧ k.locked = false then
    (if k.needIdle then updSer c (fun x => { x with
        lastChar := localNow s, lineIdle := false }) s
     else measureChar c e0 l.edges t s)
  else if readBit (serOver e) k.div e0 l.edges 0 then s
  else takeChar c (readChar e k.div e0 l.edges) t s

/-- SER_CHAR_RX. A start bit during a backoff restarts the wait after the character, with a new k
(R416). -/
def execSerCharRx (ch : Fin 24) (line : LineChar) (s : State) : Host.Outcome State Fault Refusal :=
  .next
    (if serReceives ch s then
      let s1 := charRx ch line s
      if (serAt ch s).backoff.isSome then
        let e := serEntry ch s1
        let k := (Config.backoff s1.free).val + 1
        drawn (updSer ch (fun x => { x with
          backoff := some (localNow s1 + halfChars (2 + 2 * k) e (serAt ch s1)) }) s1)
      else s1
    else s)

/-- SER_GLITCH: the filter removes a pulse (R375). -/
def execSerGlitch (ch : Fin 24) (s : State) : Host.Outcome State Fault Refusal :=
  .next (if serReceives ch s && serOver (serEntry ch s) != 3 then serCount ch 4 s else s)

/-! ### Idle (R389, R397, R399) -/

/-- The line has become idle. -/
def lineIdle (c : Nat) (s : State) : State :=
  let k := serAt c s
  let e := serEntry c s
  let s1 := updSer c (fun x => { x with lineIdle := true, skipIdle := false }) s
  match k.frame with
  | some f =>
    if serIdleMode e then
      (if k.spoiled then dropFrame c .idle s1 else serComplete c f s1)
    else serCount c 9 (dropFrame c .idle s1)
  | none =>
    if k.rx = .discarding ∧ serIdleMode e then dropFrame c .idle s1 else s1

def execSerLineIdle (ch : Fin 24) (s : State) : Host.Outcome State Fault Refusal :=
  .next
    (let k := serAt ch s
     if serReceives ch s && !k.lineIdle && k.rx != .blinded &&
        due (k.lastChar + halfChars (serIdleHct (serEntry ch s)) (serEntry ch s) k) s then lineIdle ch s
     else s)

/-- ABR_IDLE_EXPIRY: the line has been idle for ABR_IDLE_US (R386). -/
def execAbrIdleExpiry (ch : Fin 24) (s : State) : Host.Outcome State Fault Refusal :=
  .next
    (let k := serAt ch s
     if serReceives ch s && k.needIdle && due (k.lastChar + be16 (serEntry ch s) 22 * 250) s then
       updSer ch (fun x => { x with needIdle := false }) s
     else s)

/-! ### Blinding (R427 to R429) -/

def execSerBlindEnter (ch : Fin 24) (s : State) : Host.Outcome State Fault Refusal :=
  .next
    (if serReceives ch s && (serAt ch s).rx != .blinded then
      raiseAt .serBlind ch (BitVec.ofNat 32 ch.val)
        (serCount ch 10 (updSer ch (fun k => { k with lineIdle := false })
          (dropFrame ch .blinded s)))
    else s)

def execSerBlindExit (ch : Fin 24) (s : State) : Host.Outcome State Fault Refusal :=
  .next
    (if serReceives ch s && (serAt ch s).rx == .blinded then
      let s1 := updSer ch (fun k => { k with rx := .idle, lineIdle := true }) s
      if serAbrMode (serEntry ch s) = 0 then s1 else enterSearch ch s1
    else s)

/-! ### Commands of SER_CMD (Table 7-10) -/

def serCmdErr (c : Nat) (s : State) : State := updSer c (fun k => { k with cmdErr := true }) s

/-- ABR_RESTART (R388). -/
def abrRestart (c : Nat) (s : State) : State :=
  if serAbrMode (serEntry c s) = 0 ∨ s.pos.running = false then serCmdErr c s
  else if (serAt c s).rx = .blinded ∨ serRxEn (serEntry c s) = false then
    updSer c (fun k => { k with locked := false, errRun := 0 }) s
  else enterSearch c s

/-- RX_RESTART: the partial message is discarded and framing restarts. -/
def rxRestart (c : Nat) (s : State) : State :=
  let k := serAt c s
  if k.rx = .disabled ∨ k.rx = .blinded ∨ k.rx = .search then s else dropFrame c .idle s

/-- A write of SER_CMD. -/
def serCommand (c code : Nat) (s : State) : State :=
  if code = 1 then abrRestart c s else if code = 2 then rxRestart c s else serCmdErr c s

def execAbrRestart (ch : Fin 24) (s : State) : Host.Outcome State Fault Refusal :=
  .next (ifCore (abrRestart ch) s)

def execRxRestart (ch : Fin 24) (s : State) : Host.Outcome State Fault Refusal :=
  .next (ifCore (rxRestart ch) s)

/-! ### Handing messages to the board (R403, R404) -/

/-- Routing key of a serial message (Table 9-2, R494). -/
def serialKey (c : Nat) (e : List Byte) (m : SerMsg) : Nat :=
  let addr :=
    if m.idle then padTo 6 ((m.bytes.take (u8 e 12)).take 6)
    else padTo 6 (((m.bytes.drop 1).takeWhile (fun b => b != 0x2C && b != 0x2A)).take 6)
  2 ^ 60 + (if m.idle then 2 ^ 57 else 0) + (if !m.idle && nth 0 m.bytes 0 == 0x21 then 2 ^ 56 else 0) +
    c * 2 ^ 48 + ofBE addr

/-- The channel whose waiting message is the oldest; ties go to the lower channel. -/
def oldestWait : Nat → List SerChan → Option (Nat × SerMsg) → Option (Nat × SerMsg)
  | _, [], b => b
  | c, k :: ks, b =>
    let b1 : Option (Nat × SerMsg) :=
      match k.wait, b with
      | none, _ => b
      | some m, none => some (c, m)
      | some m, some (_, x) => if m.origin < x.origin then some (c, m) else b
    oldestWait (c + 1) ks b1

/-- A serial message as the board takes it. -/
def serialInbound (c : Nat) (m : SerMsg) (s : State) : Inbound :=
  { kind := .serial, port := 9, channel := some c, index := c, bytes := m.bytes, etype := 0,
    key := serialKey c (serEntry c s) m, len := m.bytes.length, tagged := false, vid := 0, pcp := 0,
    prio := 0, stamp := m.stamp, origin := m.origin, idle := m.idle, red := 0, san := false,
    tsTag := none, deliver := true, ring := [] }

/-- SE_HANDOVER: the SE port takes one complete message, at most one in 16 cycles (R404). -/
def execSeHandover (s : State) : Host.Outcome State Fault Refusal :=
  .next
    (match fabricRuns s && s.pos.running && due s.cls.seNext s, oldestWait 0 s.ser none with
     | true, some (c, m) =>
       let s1 := serCount c 1 (updSer c (fun k => { k with wait := none }) s)
       enterBoard (serialInbound c m s1) { s1 with cls := { s1.cls with seNext := localNow s + 16 } }
     | _, _ => s)

/-! ### Slot frames (R418, R425) -/

/-- A SER_SLOT action starts a channel's frame at the comparator's target (R425). -/
def actionSlot (c : Nat) (secs : BitVec 48) (ns : BitVec 30) (s : State) : State :=
  let e := serEntry c s
  let running : Bool :=
    match (serAt c s).slotFrame with
    | some (a, b) => decide (devNs s < a.toNat * 1000000000 + b + 64 * serSlotLen e)
    | none => false
  let s1 := if running then serCount c 18 s else s
  updSer c (fun k => { k with slotFrame := some (secs, ns.toNat), slot := 0 }) s1

/-! ### Loading and stopping (R371, R431, R812, Table 3-9) -/

/-- A channel restarts under its entry. -/
def startSer (c : Nat) (s : State) : State :=
  let e := serEntry c s
  let abr := serAbrMode e != 0
  updSer c (fun k => { k with
    rx := if serRxEn e then (if abr then .search else .idle) else .disabled,
    txSt := if serTxEn e then .idle else .disabled,
    div := serDivider e, locked := false, errRun := 0, needIdle := false, skipIdle := false,
    frame := none, spoiled := false, slotFrame := none, slot := 0, txDriven := serTxEn e, deOn := false,
    deUntil := none, tx := none, backoff := none }) s

/-- HOLD or lower: messages in progress go, and TX rests (R431). The first character after the exit
waits for an idle line (R812). -/
def stopSer (k : SerChan) : SerChan :=
  { k with frame := none, spoiled := false, deOn := false, deUntil := none, tx := none, backoff := none,
           txSt := if k.txSt = .disabled then .disabled else .idle, skipIdle := true, lineIdle := false,
           rx := if k.rx = .receiving ∨ k.rx = .discarding then .idle else k.rx }

end Sys2Proof.Machine
end

