-- ==== Sys2Proof/Machine/PosRange.lean ====
section
/-!
DEFINITION. POS_ERR_RANGE (spec/03 Table 3-7, R968): for each section the offsets in its body of the
fields that break their range, their zero bits or a rule of the section's chapter. A field that the
entry's use does not read is not judged; zero bits and bytes are judged in every entry.
-/

namespace Sys2Proof.Machine

/-- The offset of a field if it fails. -/
def chk (off : Nat) (ok : Bool) : List Nat := if ok then [] else [off]

/-- The offset of the first byte of a zero field that is not zero. -/
def zeros (b : List Byte) (base lo hi : Nat) : List Nat :=
  match firstNonzero b lo hi with
  | some i => [base + i]
  | none => []

/-- Does a value lie between two limits? -/
def within (lo hi v : Nat) : Bool := decide (lo ≤ v) && decide (v ≤ hi)

/-- Body of a section, empty where it is absent. -/
def sb (ty : Nat) (l : List Sect) : List Byte := (bodyIn ty l).getD []

/-- The entries of a body with their indices. -/
def entries (b : List Byte) (head size n : Nat) : List (Nat × List Byte) :=
  (List.range n).zip (chunks size n (b.drop head))

/-- Failures of every entry of a body; `f` takes the index, the entry and its offset. -/
def eachEntry (b : List Byte) (head size n : Nat) (f : Nat → List Byte → Nat → List Nat) : List Nat :=
  (entries b head size n).flatMap (fun x => f x.1 x.2 (head + size * x.1))

/-! ### Cross-references -/

/-- Number of entries of WILDCARDS, FILTERS or TEMPLATES. -/
def listCount (ty : Nat) (l : List Sect) : Nat := be16 (sb ty l) 0

def tplOf (i : Nat) (l : List Sect) : List Byte := entryOf (sb tyTemplates l) 8 128 i
def portOf (p : Nat) (l : List Sect) : List Byte := entryOf (sb tyPorts l) 0 32 p
def portDef (p : Nat) (l : List Sect) : Bool := u8 (portOf p l) 0 == 1
def pairOf (p : Nat) (l : List Sect) : Nat := if p < 8 ∧ portDef p l then u8 (portOf p l) 2 else 0
def serOf (c : Nat) (l : List Sect) : List Byte := entryOf (sb tySerial l) 0 64 c

/-- ROUTES records with VALID 1: index and record. -/
def validRoutes (l : List Sect) : List (Nat × List Byte) :=
  (entries (sb tyRoutes l) 8 48 4096).filter (fun x => u8 x.2 40 == 1)

/-- Is a route index that of a valid record? -/
def routeValid (i : Nat) (l : List Sect) : Bool := u8 (routeEntryIn i l) 40 == 1
where
  /-- One ROUTES record. -/
  routeEntryIn (i : Nat) (l : List Sect) : List Byte := entryOf (sb tyRoutes l) 8 48 i

/-! ### PORTS (Table 6-10) and PCP (Table 1-11) -/

def portRange (mode0 : Bool) (l : List Sect) (p : Nat) (e : List Byte) (o : Nat) : List Nat :=
  let used := u8 e 0 == 1 && decide (p ≤ 8)
  let lane := u8 e 0 == 1 && decide (p < 8)
  chk o (decide (u8 e 0 ≤ 1)) ++ chk (o + 3) (decide (u8 e 3 < 128)) ++
  chk (o + 6) (decide (be16 e 6 < 4096)) ++ zeros e o 27 28 ++ zeros e o 30 32 ++
  (if used then
    chk (o + 1) (if p = 8 then u8 e 1 == (if mode0 then 1 else 0) else decide (u8 e 1 ≤ 2)) ++
    chk (o + 5) (decide (u8 e 5 ≤ 2))
   else []) ++
  (if lane then
    chk (o + 2) (decide (u8 e 2 ≤ 2) &&
      (p % 2 == 0 || !portDef (p - 1) l || u8 (portOf (p - 1) l) 2 == u8 e 2)) ++
    chk (o + 4) (decide (u8 e 4 ≤ 2)) ++ chk (o + 16) (be16 e 16 != 0) ++ chk (o + 18) (be16 e 18 != 0) ++
    chk (o + 28) (p % 2 == 1 || u8 e 2 == 0 || within 1 1000 (be16 e 28))
   else []) ++
  (if lane || (used && u8 e 1 == 1) then chk (o + 14) (be16 e 14 != 0) else []) ++
  (if used && p == 8 && flagAt e 3 2 then
    chk (o + 28) (decide (be16 e 28 < 4096) && routeValid (be16 e 28) l)
   else [])

def portsRange (mode0 : Bool) (l : List Sect) (b : List Byte) : List Nat :=
  eachEntry b 0 32 14 (portRange mode0 l)

def pcpRange (b : List Byte) : List Nat :=
  chk 0 (decide (be32 b 0 < 2 ^ 24) && (List.range 8).all (fun p => decide (be32 b 0 / 8 ^ p % 8 ≤ 5))) ++
  (List.range 9).flatMap (fun i => chk (4 + i) (decide (u8 b (4 + i) < 8))) ++ zeros b 0 13 16

/-! ### Shared-region uses of a Position (R741, R750) -/

/-- Subscriptions of ALIGNMENT that are enabled. -/
def subsOn (l : List Sect) : List (Nat × List Byte) :=
  (entries (sb tyAlignment l) 0 128 16).filter (fun x => flagAt x.2 0 0)

/-- Output channels of an ALIGNMENT entry. -/
def outChannelCount (e : List Byte) : Nat :=
  ((List.range 16).filter (fun c => natBit (be16 e 2) c && decide (c < u8 e 1))).length

/-- Bytes of the Alignment ring, from RING_BASE on. -/
def ringLength (l : List Sect) : Nat :=
  let c := ((subsOn l).map (fun x => outChannelCount x.2)).sum
  ceilDiv (20 + 8 * c) 64 * 64 * u8 (sb tyAlignment l) 72

def ringBase (l : List Sect) : Nat := be32 (sb tyAlignment l) 68

/-- Bytes of the user part of the shared region (R739). -/
def systemBase : Nat := 0x1B000

/-- Does a slot of BRIDGE announce, so that the announce area is in use? -/
def announces (l : List Sect) : Bool :=
  (List.range 8).any (fun i => u8 (sb tyBridge l) (32 * i + 16) != 0)

/-- Ranges of the shared region that the engines of a Position write: base and length. -/
def engineAreas (l : List Sect) : List (Nat × Nat) :=
  (if (subsOn l).isEmpty then [] else [(ringBase l, ringLength l)]) ++
  (if announces l then [(be32 (sb tyBridge l) 276, 256)] else []) ++
  ((entries (sb tyBridge l) 512 16 64).filter (fun x => flagAt x.2 0 0)).map (fun x => (be32 x.2 8, u8 x.2 2)) ++
  [(systemBase, sharedSize - systemBase)]

/-- Is an area free of page `p` of 4 KiB? -/
def offPage (p : Nat) (a : Nat × Nat) : Bool :=
  a.2 == 0 || decide (a.1 + a.2 ≤ 4096 * p) || decide (4096 * (p + 1) ≤ a.1)

/-- An area lies within the shared region and outside the system area. -/
def userArea (base len : Nat) : Bool := decide (base + len ≤ systemBase)

/-! ### MEMORY (Table 13-8) -/

def memoryRange (l : List Sect) (b : List Byte) : List Nat :=
  let pace := be16 b 20
  chk 0 (be16 b 0 == 0) ++
  chk 2 (decide (((List.range 6).map (fun c => be16 b (2 * c))).sum ≤ 12288)) ++
  chk 12 (be16 b 12 &&& 0xC0F0 == 0) ++ zeros b 0 14 16 ++
  chk 16 ((List.range 32).all (fun p => !natBit (be32 b 16) p || (engineAreas l).all (offPage p))) ++
  chk 20 (pace == 0 || within 16 1024 pace) ++ zeros b 0 22 64

/-! ### Results (Table 9-6), ROUTES, WILDCARDS -/

/-- Values and zero bits of a result at offset `o`; also those that a live edit is judged by (R549). -/
def resultRange (l : List Sect) (r : List Byte) (o : Nat) : List Nat :=
  let mode := u8 r 16 % 16
  chk o (decide (be16 r 0 < 2 ^ 14)) ++
  chk (o + 2) (u8 r 2 / 8 % 8 == 0 && decide (u8 r 2 % 8 ≤ 5)) ++
  chk (o + 3) (decide (u8 r 3 ≤ 1)) ++
  chk (o + 4) (be16 r 4 / 1024 % 32 == 0 &&
    (!flagAt r 4 7 || decide (be16 r 4 % 1024 < listCount tyFilters l))) ++
  chk (o + 6) (be16 r 6 != 0) ++
  chk (o + 8) (be16 r 8 / 512 % 64 == 0 &&
    (!flagAt r 8 7 || decide (be16 r 8 % 512 < listCount tyTemplates l))) ++
  zeros r o 12 16 ++
  chk (o + 16) (decide (u8 r 16 < 64) && decide (mode ≤ 3)) ++
  (if mode = 1 then
    chk (o + 17) (within 1 6 (u8 r 17)) ++
    chk (o + 18) ((slice r 18 (u8 r 17)).all (fun c =>
      within 0x20 0x7E c.toNat && c != 0x24 && c != 0x21 && c != 0x2A && c != 0x2C))
   else []) ++
  zeros r o 24 32 ++
  (if flagAt r 8 7 then
    let t := tplOf (be16 r 8 % 512) l
    chk (o + 2) (!tplEthValid t || decide (tplBundle t ≤ 1) || u8 r 2 % 8 == 0)
   else [])

/-- Is a key one that R500 and Tables 9-2 to 9-5 allow? -/
def keyAllowed (key : Nat) : Bool :=
  let bits (hi lo : Nat) : Nat := key / 2 ^ lo % 2 ^ (hi - lo + 1)
  match keyKind key with
  | 1 => bits 59 58 == 0 && decide (bits 55 48 < 24)
  | 2 =>
    decide (bits 59 58 < 3) && bits 57 56 == 0 && (decide (bits 55 52 ≤ 8) || bits 55 52 == 15) &&
      (bits 59 58 == 2 || bits 23 16 == 0)
  | 3 =>
    bits 59 56 == 0 && bits 51 32 == 0 &&
      (match bits 55 52, bits 31 16 with
       | 10, 0 => decide (bits 15 0 ≤ 1)
       | 11, 0 => decide (bits 15 0 ≤ 31)
       | 11, 1 => decide (bits 15 0 ≤ 255)
       | 12, 0 => decide (bits 15 0 ≤ 15)
       | 13, 0 => decide (bits 15 0 ≤ 7)
       | 13, 1 => decide (bits 15 0 ≤ 7)
       | _, _ => false)
  | _ => false

/-- Does Table 9-7 mark an egress No for a message of the key (R508)? -/
def egressNo (key p : Nat) : Bool :=
  let bits (hi lo : Nat) : Nat := key / 2 ^ lo % 2 ^ (hi - lo + 1)
  match keyKind key with
  | 1 => p == 12
  | 2 =>
    (p == 9 && bits 59 58 != 1) || (p == 11 && bits 39 24 != 0x88B8) || (p == 12 && bits 39 24 != 0x88BA)
  | _ =>
    let arbMsg := bits 55 52 == 11 && bits 31 16 == 1
    (p == 9 && !arbMsg) || (p == 11 && bits 55 52 != 13) || p == 12

/-- Keys of the bucket before entry `i` that equal its key. -/
def sameKey (i key : Nat) (l : List Sect) : Bool :=
  (List.range (i % 4)).any (fun k =>
    let e := entryOf (sb tyRoutes l) 8 48 (i - i % 4 + k)
    u8 e 40 == 1 && be64 e 0 == key)

def routeRange (l : List Sect) (seed i : Nat) (e : List Byte) (o : Nat) : List Nat :=
  if u8 e 40 = 0 then chk o (e.all (· == 0))
  else
    let key := be64 e 0
    let r := slice e 8 32
    chk o (keyAllowed key && bucketOf key seed == i / 4 && !sameKey i key l) ++
    resultRange l r (o + 8) ++
    chk (o + 8) ((List.range 14).all (fun p => !natBit (be16 r 0) p || !egressNo key p)) ++
    chk (o + 10) (!flagAt r 2 6 || keyKind key == 2) ++
    chk (o + 40) (u8 e 40 == 1) ++ zeros e o 41 48

/-- The 65th serial route whose mask includes AB (R609). -/
def storeOverflow (l : List Sect) : List Nat :=
  match ((validRoutes l).filter (fun x => keyKind (be64 x.2 0) == 1 && natBit (be16 x.2 8) 11))[64]? with
  | some x => [8 + 48 * x.1 + 8]
  | none => []

def routesRange (l : List Sect) (b : List Byte) : List Nat :=
  let t := be16 b 0
  chk 0 (t == 0 || (decide (0x0600 ≤ t) &&
    !([0x8100, 0x88A8, 0x88F7, 0x88FB, 0x892F, 0x88B8, 0x88B9, 0x88BA].contains t))) ++
  chk 2 (decide (be16 b 2 ≤ 1)) ++
  eachEntry b 8 48 4096 (routeRange l (be32 b 4)) ++ storeOverflow l

def wildcardsRange (l : List Sect) (b : List Byte) : List Nat :=
  chk 0 (decide (be16 b 0 ≤ 64)) ++ zeros b 0 2 8 ++
  eachEntry b 8 48 (be16 b 0) (fun _ e o => resultRange l (slice e 16 32) (o + 16))

/-! ### FILTERS (Table 9-12), TEMPLATES (Table 9-9) -/

def filterRange (_ : Nat) (e : List Byte) (o : Nat) : List Nat :=
  let kind := u8 e 0
  chk o (decide (kind ≤ 5)) ++ chk (o + 1) (decide (u8 e 1 ≤ 1)) ++ zeros e o 2 4 ++
  (match kind with
   | 0 => chk (o + 4) (decide (2 ≤ be16 e 4)) ++ chk (o + 6) (decide (be16 e 6 < be16 e 4)) ++ zeros e o 8 32
   | 1 => chk (o + 4) (within 1 3600000000 (be32 e 4)) ++ zeros e o 8 32
   | 2 => zeros e o 12 32
   | 3 =>
     chk (o + 4) (decide (be16 e 4 ≤ 1022)) ++ chk (o + 6) (within 1 8 (u8 e 6)) ++ zeros e o 7 8 ++
       zeros e o 24 32
   | 4 => chk (o + 4) (decide (u8 e 4 ≤ 3)) ++ zeros e o 5 6 ++ zeros e o 8 32
   | 5 => chk (o + 4) (decide (u8 e 4 < 16)) ++ chk (o + 5) (decide (u8 e 5 ≤ 1)) ++ zeros e o 6 32
   | _ => [])

def filtersRange (b : List Byte) : List Nat :=
  chk 0 (decide (be16 b 0 ≤ 1024)) ++ zeros b 0 2 8 ++ eachEntry b 8 32 (be16 b 0) filterRange

def templateRange (l : List Sect) (_ : Nat) (e : List Byte) (o : Nat) : List Nat :=
  chk o (decide (u8 e 0 < 4)) ++ chk (o + 4) (decide (be16 e 4 < 4096)) ++ zeros e o 22 24 ++
  chk (o + 24) (u8 e 24 == 0 && (!tplSeValid e ||
    (List.range 24).all (fun c => !natBit (tplChannels e) c || serTxEn (serOf c l)))) ++
  zeros e o 28 128 ++
  (if tplEthValid e then
    chk (o + 1) (decide (u8 e 1 ≤ 2)) ++ chk (o + 2) (decide (u8 e 2 ≤ 2)) ++
    chk (o + 3) (u8 e 3 == 1 || (within 2 8 (u8 e 3) && u8 e 1 == 1))
   else [])

def templatesRange (l : List Sect) (b : List Byte) : List Nat :=
  chk 0 (decide (be16 b 0 ≤ 512)) ++ zeros b 0 2 8 ++ eachEntry b 8 128 (be16 b 0) (templateRange l)

/-! ### ADMISSION (R970, R319) -/

def admRouteRange (l : List Sect) (b : List Byte) (i : Nat) (e : List Byte) (o : Nat) : List Nat :=
  let id := be16 e 0
  let mask := be16 (entryOf (sb tyRoutes l) 8 48 id) 8
  let pair := (List.range 8).any (fun p => natBit mask p && pairOf p l != 0)
  chk o (routeValid id l && decide (id < 4096) &&
    !((List.range i).any (fun j => be16 (entryOf b 8 16 j) 0 == id))) ++
  chk (o + 2) (decide (u8 e 2 ≤ 1)) ++ zeros e o 3 4 ++
  chk (o + 4) (within 1 1522 (be16 e 4) && (!pair || decide (be16 e 4 + 6 ≤ 1522))) ++
  chk (o + 6) (be16 e 6 != 0) ++ chk (o + 8) (be32 e 8 != 0) ++ zeros e o 12 16

/-- Egress codes of R587. -/
def egressCode (c : Nat) : Bool := decide (c ≤ 8) || c == 11 || c == 12 || within 0x40 0x57 c

def admBoundRange (head : Nat) (b : List Byte) (i : Nat) (e : List Byte) (o : Nat) : List Nat :=
  chk o (egressCode (u8 e 0) &&
    !((List.range i).any (fun j => be16 (entryOf b head 16 j) 0 == be16 e 0))) ++
  chk (o + 1) (decide (u8 e 1 ≤ 5)) ++ zeros e o 2 4 ++ zeros e o 12 16

def admissionRange (l : List Sect) (b : List Byte) : List Nat :=
  let r := be16 b 0
  zeros b 0 4 8 ++ eachEntry b 8 16 r (admRouteRange l b) ++
  eachEntry b (8 + 16 * r) 16 (be16 b 2) (admBoundRange (8 + 16 * r) b)

/-! ### TIME (R228, Tables 4-12 to 4-14) -/

/-- Is SYNC_WITH_A set for an enabled group B? -/
def syncWithAIn (l : List Sect) : Bool := u8 (sb tyConverters l) 64 % 4 == 3

/-- Does a slotted line's frame fit the period of the comparator that drives it (R426)? -/
def slotFits (e : List Byte) (l : List Sect) : Bool :=
  let frame := 64 * serSlotLen (serOf (u8 e 3) l)
  if u8 e 1 = 1 then decide (frame ≤ be32 e 12)
  else if u8 e 1 = 2 then decide (frame * be32 e 12 ≤ 1000000000)
  else true

def cmpRange (l : List Sect) (defined : Bool) (e : List Byte) (o : Nat) : List Nat :=
  let act := u8 e 0
  let mode := u8 e 1
  let per := be32 e 12
  chk (o + 2) (decide (u8 e 2 ≤ 1)) ++ zeros e o 16 32 ++
  (if defined then
    chk o (decide (act ≤ 9) && !(act == 6 && syncWithAIn l)) ++ chk (o + 1) (decide (mode ≤ 2)) ++
    chk (o + 3) (act != 9 || (decide (u8 e 3 < 24) && flagAt (serOf (u8 e 3) l) 0 2)) ++
    chk (o + 8) (decide (be32 e 8 < 1000000000)) ++
    chk (o + 12) ((if mode = 1 then decide (400 ≤ per) else if mode = 2 then within 1 2500000 per else true) &&
      (act != 7 || (if mode = 1 then within 50000 100000000 per
                    else if mode = 2 then within 10 20000 per else true)) &&
      (act != 9 || slotFits e l))
   else [])

def domainRange (read : Bool) (e : List Byte) (o : Nat) : List Nat :=
  zeros e o 5 16 ++
  (if read then
    let sg (off : Nat) : Int := asSigned 8 (u8 e off)
    chk o (decide (u8 e 0 ≤ 239)) ++ chk (o + 1) (decide (-4 ≤ sg 1) && decide (sg 1 ≤ 1)) ++
    chk (o + 2) (decide (-3 ≤ sg 2) && decide (sg 2 ≤ 3)) ++
    chk (o + 3) (decide (-4 ≤ sg 3) && decide (sg 3 ≤ 5)) ++ chk (o + 4) (within 2 10 (u8 e 4))
   else [])

/-- Do the enabled PTP ports match the port count of a role (Table 5-3)? -/
def portCountOk (role : Nat) (on : List Nat) (l : List Sect) : Bool :=
  if role = 1 ∨ role = 2 then
    on.length == 1 ||
      (match on with
       | [a, b] => a % 2 == 0 && b == a + 1 && pairOf a l != 0
       | _ => false)
  else if role = 6 then !on.isEmpty
  else within 2 8 on.length

def clockRange (l : List Sect) (b e : List Byte) (o : Nat) : List Nat :=
  let role := u8 e 0
  let on := (List.range 8).filter (fun p => flagAt b (672 + 16 * p) 0)
  chk (o + 1) (decide (u8 e 1 < 32) && (role == 0 || decide (u8 e 1 / 8 % 4 ≤ 1))) ++ zeros e o 23 24 ++
  zeros e o 29 30 ++ zeros e o 34 36 ++ zeros e o 40 64 ++
  chk o (decide (role ≤ 6) && (role == 0 || portCountOk role on l)) ++
  (if role = 0 then []
   else
    chk (o + 20) (decide (u8 e 20 ≤ 31)) ++ chk (o + 22) ([4, 8, 16, 32, 64].contains (u8 e 22)) ++
    chk (o + 24) (within 10 1000 (be16 e 24)) ++ chk (o + 26) (within 10 10000 (be16 e 26)) ++
    chk (o + 28) (within 1 10 (u8 e 28)))

def timeRange (l : List Sect) (b : List Byte) : List Nat :=
  let owner := u8 b 0
  let clock := slice b 576 64
  let role := u8 clock 0
  let sec := flagAt clock 1 1
  chk 0 (decide (owner ≤ 2) && !(owner == 1 && role == 0)) ++
  (if owner = 2 then
    chk 1 (decide (u8 b 1 < 8) && natBit (u8 b 7) (u8 b 1)) ++ chk 2 (u8 b 2 != 0) ++
    chk 3 (decide (u8 b 3 ≤ 3))
   else []) ++
  chk 6 (decide (u8 b 6 < 16)) ++ zeros b 0 8 16 ++
  eachEntry b 16 32 16 (fun n e o => cmpRange l (natBit (be16 b 4) n) e o) ++
  eachEntry b 528 4 4 (fun m e o =>
    chk o (decide (be32 e 0 < 2 ^ 22) && (!natBit (u8 b 6) m || be32 e 0 / 4 != 0))) ++
  eachEntry b 544 4 8 (fun _ e o => chk o (decide (be32 e 0 < 4))) ++
  clockRange l b clock 576 ++
  domainRange (role != 0) (slice b 640 16) 640 ++ domainRange (role != 0 && sec) (slice b 656 16) 656 ++
  chk 656 (role == 0 || !sec || u8 b 640 != u8 b 656) ++
  eachEntry b 672 16 8 (fun p e o =>
    chk o (decide (u8 e 0 < 4) && (role == 0 || !flagAt e 0 0 || portDef p l)) ++ zeros e o 1 4)

/-! ### SERIAL (Table 7-6) -/

def serialRange1 (n : Nat) (e : List Byte) (o : Nat) : List Nat :=
  let rx := serRxEn e
  let idle := serIdleMode e
  let dx := serDuplex e
  let abr := serAbrMode e
  let ov := serOver e
  chk o (decide (u8 e 0 < 32)) ++ chk (o + 1) (decide (u8 e 1 < 32)) ++ zeros e o 4 5 ++
  chk (o + 18) (decide (u8 e 18 < 8)) ++ zeros e o 60 64 ++
  (if rx || serTxEn e then
    chk o (dx != 3 || !flagAt e 0 4) ++ chk (o + 1) (decide (serParity e ≤ 4)) ++
    chk (o + 2) (decide (u8 e 2 ≤ 2)) ++ chk (o + 3) (decide (u8 e 3 ≤ 1)) ++
    chk (o + 4) (dividerOk ov (serDivider e)) ++
    chk (o + 10) (!(rx || idle) || within 1 16 (u8 e 10)) ++
    chk (o + 13) (decide (dx ≤ 3) && (if n < 16 then dx != 3 else (dx == 0 || dx == 3))) ++
    chk (o + 16) (!(dx == 2 || dx == 3) || decide (u8 e 16 ≤ 7)) ++
    (if rx then
      chk (o + 8) (within (if idle then 1 else 8) 1023 (serMaxLen e)) ++
      chk (o + 11) (within 2 32 (u8 e 11)) ++ chk (o + 12) (!idle || decide (u8 e 12 ≤ 6)) ++
      (if abr = 0 then []
       else
        chk (o + 19) (abr != 3 || decide (4 ≤ measurePos (serData e) (u8 e 19))) ++
        chk (o + 22) (be16 e 22 != 0) ++
        (if serAnyRate e then []
         else
          chk (o + 24) ((serRates e).any (· != 0)) ++
          (List.range 4).flatMap (fun i =>
            let r := be32 e (24 + 4 * i)
            chk (o + 24 + 4 * i) (r == 0 || dividerOk ov (dividerFor ov r)))))
     else []) ++
    (if flagAt e 0 2 then
      chk (o + 56) (serSlotLen e % 4 == 0 && within 4000 1000000000 (serSlotLen e))
     else [])
   else [])

def serialRange (b : List Byte) : List Nat := eachEntry b 0 64 24 serialRange1

/-! ### CONVERTERS, PUBLISHER, ALIGNMENT (Tables 8-5 to 8-7) -/

def convertersRange (b : List Byte) : List Nat :=
  eachEntry b 0 64 2 (fun _ e o =>
    chk o (decide (u8 e 0 < 4)) ++ zeros e o 1 4 ++ chk (o + 8) (decide (u8 e 8 < 16)) ++ zeros e o 9 16 ++
    zeros e o 18 64 ++
    (if flagAt e 0 0 then
      (List.range 4).flatMap (fun c => chk (o + 4 + c) (decide (u8 e (4 + c) ≤ 3))) ++
      chk (o + 16) (u8 e 8 == 0 || within 1 1000 (be16 e 16))
     else []))

def publisherRange (l : List Sect) (b : List Byte) : List Nat :=
  eachEntry b 0 256 2 (fun _ e o =>
    chk o (decide (u8 e 0 < 32)) ++ zeros e o 22 24 ++ zeros e o 59 64 ++ zeros e o 128 256 ++
    (if flagAt e 0 0 then
      let g := u8 e 1
      let chs := slice e 4 (min 8 (u8 e 3))
      chk (o + 1) (decide (g ≤ 2)) ++ chk (o + 2) (within 1 8 (u8 e 2)) ++ chk (o + 3) (within 1 8 (u8 e 3)) ++
      (List.range chs.length).flatMap (fun k =>
        let c := u8 e (4 + k)
        chk (o + 4 + k) (c == 0xFF || (decide (c < 8) && (g == 2 || c / 4 == g)))) ++
      chk (o + 4) (syncWithAIn l || !(chs.any (fun c => decide (c.toNat < 4)) &&
        chs.any (fun c => within 4 7 c.toNat))) ++
      chk (o + 16) (decide (be32 e 16 ≤ 65536)) ++
      chk (o + 20) (decide (be16 e 20 < listCount tyTemplates l)) ++ chk (o + 24) (within 1 34 (u8 e 24))
     else []))

/-- Could two subscriptions match the same frame (R467)? -/
def subsClash (a e : List Byte) : Bool :=
  be16 a 16 == be16 e 16 && slice a 25 (u8 a 24) == slice e 25 (u8 e 24) &&
    (slice a 18 6 == slice e 18 6 || slice a 18 6 == List.replicate 6 0 || slice e 18 6 == List.replicate 6 0)

def alignmentRange (l : List Sect) (b : List Byte) : List Nat :=
  let on := subsOn l
  let delay := be16 b 66
  eachEntry b 0 128 16 (fun i e o =>
    chk o (decide (u8 e 0 < 8)) ++ zeros e o 59 64 ++
    (if i = 0 then zeros e o 65 66 ++ zeros e o 73 80 else zeros e o 64 80) ++ zeros e o 80 128 ++
    (if flagAt e 0 0 then
      chk (o + 1) (within 1 16 (u8 e 1)) ++ chk (o + 4) (within 1 16000 (be32 e 4)) ++
      chk (o + 12) (within 1 10000 (be16 e 12)) ++
      chk (o + 16) (!(on.any (fun x => decide (x.1 < i) && subsClash x.2 e))) ++
      chk (o + 24) (within 1 34 (u8 e 24))
     else [])) ++
  (if on.isEmpty then []
   else
    chk 64 (decide (u8 b 64 ≤ 1)) ++
    chk 66 (on.all (fun x => decide ((be16 x.2 12) * be32 x.2 4 + 4000000 ≤ delay * be32 x.2 4))) ++
    chk 68 (ringBase l % 64 == 0 && userArea (ringBase l) (ringLength l)) ++ chk 72 (within 2 64 (u8 b 72)))

/-! ### ARBITER (Tables 11-3 to 11-8) and ARB_UCODE (R653) -/

/-- Is an operand reference within its space (R602)? -/
def operandOk (ref : Nat) : Bool :=
  let i := ref % 4096
  match ref / 4096 with
  | 0 => decide (i < 2048)
  | 1 => decide (i < 512)
  | 2 => decide (i < 8)
  | 3 => decide (i < 8)
  | 4 => decide (i < 256)
  | 5 => decide (i < 256)
  | 6 => decide (i < 128)
  | 7 => decide (i < 16)
  | 8 => true
  | 9 => decide (i < 16)
  | 10 => decide (i < 528)
  | 14 => true
  | 15 => i == 0
  | _ => false

/-- Operands and parameters of a rule by its kind (Table 11-5, R613, R615, R617). -/
def ruleOperands (e : List Byte) (o : Nat) : List Nat :=
  let a := be16 e 2
  let b := be16 e 4
  let c := be16 e 6
  match u8 e 0 with
  | 0 => []
  | 1 => chk (o + 1) (decide (u8 e 1 / 16 % 8 ≤ 6)) ++ chk (o + 2) (operandOk a) ++ chk (o + 4) (operandOk b)
  | 2 => chk (o + 2) (operandOk a) ++ chk (o + 4) (operandOk b)
  | 3 => chk (o + 2) (operandOk a)
  | 4 => chk (o + 2) (operandOk a)
  | 5 => chk (o + 2) (operandOk a) ++ chk (o + 4) (operandOk b) ++ chk (o + 6) (decide (c < 2048))
  | 6 => chk (o + 2) (operandOk a) ++ chk (o + 4) (operandOk b) ++ chk (o + 6) (operandOk c)
  | 7 => chk (o + 2) (operandOk a) ++ chk (o + 4) (operandOk b) ++ chk (o + 6) (operandOk c)
  | 8 => chk (o + 2) (a / 4096 == 2 && operandOk a) ++ chk (o + 6) (within 1 256 c)
  | 9 => chk (o + 2) (a / 4096 == 2 && operandOk a) ++ chk (o + 6) (within 1 256 c)
  | 10 =>
    chk (o + 2) (a / 4096 == 14 && decide (a % 4096 < 64)) ++ chk (o + 4) (operandOk b) ++
      chk (o + 6) (decide (c ≤ 6))
  | _ => [o]

/-- Offset of the GPIO entries of an ARBITER body. -/
def gpioBase (b : List Byte) : Nat := 8 + 16 * be16 b 0 + 8 * be16 b 2

/-- Is a pin an output in an ARBITER body (R624)? -/
def pinOutput (b : List Byte) (i : Nat) : Bool := u8 b (gpioBase b + 4 * i) == 1

/-- May a rule order this output (R625)? -/
def outputAllowed (b : List Byte) (x : Nat) : Bool :=
  if x < 16 then pinOutput b x
  else
    let w := (x - 16) / 16
    decide (x < 528) && decide (w < u8 b 4) &&
      natBit (be16 b (gpioBase b + 64 + 8 * w + 4)) ((x - 16) % 16)

/-- Action of a rule (Table 11-6, R625, R635). -/
def ruleAction (l : List Sect) (b e : List Byte) (o : Nat) : List Nat :=
  let p := u8 e 13
  let t := be16 e 14
  match u8 e 12 % 64 with
  | 0 => []
  | 1 => chk (o + 13) (p / 2 % 8 == 0) ++ chk (o + 14) (outputAllowed b t)
  | 2 => chk (o + 14) (decide (t < 2048))
  | 3 => []
  | 4 =>
    chk (o + 13) (decide (p < 5) && decide (u8 (entryOf (sb tyRoutes l) 8 48 t) 10 % 8 < p)) ++
      chk (o + 14) (decide (t < 4096) && routeValid t l)
  | 5 => chk (o + 14) (decide (t < 4096) && routeValid t l)
  | 6 => chk (o + 14) (decide (t < 8))
  | 7 => chk (o + 14) (decide (t < 8))
  | 8 => chk (o + 13) (decide (p ≤ 3))
  | 9 => chk (o + 13) (within 1 3 p)
  | 10 => chk (o + 14) (decide (t < 256))
  | _ => [o + 12]

/-- Rules of a body with their offsets. -/
def rulesOf (b : List Byte) : List (Nat × List Byte) :=
  (entries b 8 16 (be16 b 0)).map (fun x => (8 + 16 * x.1, x.2))

/-- The offset in the first rule beyond `n` distinct ones of a list of (offset, value). -/
def beyondDistinct (n : Nat) : List (Nat × Nat) → List Nat → List Nat
  | [], _ => []
  | (o, v) :: r, seen =>
    if seen.contains v then beyondDistinct n r seen
    else if n ≤ seen.length then [o] else beyondDistinct n r (v :: seen)

/-- The window of a slot that holds an access of a Position, if one is enabled; `posted` asks for
POSTED. -/
def windowFor (slot addr len : Nat) (posted : Bool) (l : List Sect) : Option (List Byte) :=
  ((entries (sb tyBridge l) 0 32 16).map (·.2)).find? (fun w =>
    flagAt w 0 0 && u8 w 1 == slot && decide (be24 w 5 ≤ addr) && decide (addr + len ≤ be24 w 5 + 2 ^ u8 w 3) &&
      (!posted || flagAt w 0 2))

def cardRange (l : List Sect) (e : List Byte) (o : Nat) : List Nat :=
  let addr := be24 e 1
  let w := windowFor (u8 e 0) addr 2 true l
  chk o (decide (u8 e 0 < 8)) ++
  chk (o + 1) (addr % 2 == 0 && w.isSome && (w.map (fun x => u8 x 2 != 2 || addr % 4 == 0)).getD true) ++
  chk (o + 6) (decide (u8 e 6 ≤ 3)) ++ zeros e o 7 8

def arbiterRange (l : List Sect) (b : List Byte) : List Nat :=
  let g := gpioBase b
  let rules := rulesOf b
  chk 0 (decide (be16 b 0 ≤ 512)) ++ chk 2 (decide (be16 b 2 ≤ 2048)) ++ chk 4 (decide (u8 b 4 ≤ 32)) ++
  zeros b 0 6 8 ++
  rules.flatMap (fun x =>
    chk (x.1 + 1) (u8 x.2 1 &&& 0x8E == 0) ++ ruleOperands x.2 x.1 ++ ruleAction l b x.2 x.1) ++
  (match (rules.filter (fun x => u8 x.2 0 == 8 || u8 x.2 0 == 9))[16]? with
   | some x => [x.1]
   | none => []) ++
  beyondDistinct 16 ((rules.filter (fun x => u8 x.2 12 % 64 == 4)).map (fun x => (x.1 + 14, be16 x.2 14))) [] ++
  eachEntry b (8 + 16 * be16 b 0) 8 (be16 b 2) (fun _ e o =>
    chk o (decide (be16 e 0 < 2048)) ++ chk (o + 2) (decide (be16 e 2 ≤ 1))) ++
  eachEntry b g 4 16 (fun _ e o =>
    chk o (decide (u8 e 0 ≤ 1)) ++ chk (o + 1) (u8 e 0 != 1 || decide (u8 e 1 ≤ 3)) ++ zeros e o 2 4) ++
  eachEntry b (g + 64) 8 (u8 b 4) (fun _ e o => cardRange l e o)

/-- ARB_UCODE after R123 (R653). -/
def ucodeRange (b : List Byte) : List Nat :=
  let n := (b.length - 8) / 16
  chk 4 (decide (be32 b 4 ≤ 32) && be32 b 4 == n) ++
  eachEntry b 8 16 n (fun i e o =>
    chk o (decide (be16 e 0 < 4096) && (i == 0 || decide (be16 (entryOf b 8 16 (i - 1)) 0 < be16 e 0))) ++
    chk (o + 2) (be16 e 2 == 1) ++ zeros e o 4 8)

/-! ### GOOSE (Table 11-9) -/

def goosePubRange (l : List Sect) (_ : Nat) (e : List Byte) (o : Nat) : List Nat :=
  chk o (decide (u8 e 0 < 4)) ++ zeros e o 12 16 ++
  (List.range 16).flatMap (fun k => zeros e o (17 + 4 * k) (18 + 4 * k)) ++
  (if flagAt e 0 0 then
    chk (o + 1) (within 1 16 (u8 e 1)) ++ chk (o + 2) (decide (be16 e 2 < listCount tyTemplates l)) ++
    chk (o + 8) (within 1 1000 (be16 e 8)) ++ chk (o + 10) (within (be16 e 8) 60000 (be16 e 10)) ++
    (List.range (min 16 (u8 e 1))).flatMap (fun k =>
      chk (o + 16 + 4 * k) (decide (u8 e (16 + 4 * k) ≤ 3)) ++
      chk (o + 18 + 4 * k) (decide (be16 e (18 + 4 * k) < 2048))) ++
    chk (o + 80) (decide (u8 e 80 ≤ 63)) ++ chk (o + 144) (decide (u8 e 144 ≤ 63)) ++
    chk (o + 208) (decide (u8 e 208 ≤ 47))
   else [])

/-- Could two subscribe blocks match one frame (R646)? -/
def blocksClash (a e : List Byte) : Bool :=
  be16 a 2 == be16 e 2 && slice a 81 (u8 a 80) == slice e 81 (u8 e 80) &&
    (slice a 8 6 == slice e 8 6 || slice a 8 6 == List.replicate 6 0 || slice e 8 6 == List.replicate 6 0)

def gooseSubRange (b : List Byte) (i : Nat) (e : List Byte) (o : Nat) : List Nat :=
  chk o (decide (u8 e 0 < 8)) ++ zeros e o 14 16 ++
  (if flagAt e 0 0 then
    chk (o + 1) (decide (u8 e 1 ≤ 8)) ++
    chk (o + 2) (!((entries b 8192 128 i).any (fun x => flagAt x.2 0 0 && blocksClash x.2 e))) ++
    (List.range (min 8 (u8 e 1))).flatMap (fun k =>
      chk (o + 16 + 8 * k) (decide (u8 e (16 + 8 * k) ≤ 63)) ++
      chk (o + 17 + 8 * k) (decide (u8 e (17 + 8 * k) ≤ 3)) ++
      chk (o + 18 + 8 * k) (decide (be16 e (18 + 8 * k) < 2048))) ++
    chk (o + 80) (decide (u8 e 80 ≤ 47))
   else [])

def gooseRange (l : List Sect) (b : List Byte) : List Nat :=
  eachEntry b 0 256 32 (goosePubRange l) ++ eachEntry b 8192 128 128 (gooseSubRange b)

/-! ### BRIDGE (Table 12-10) -/

/-- Do two windows of one slot overlap (R669)? -/
def windowsOverlap (a e : List Byte) : Bool :=
  u8 a 1 == u8 e 1 && decide (be24 a 5 < be24 e 5 + 2 ^ u8 e 3) && decide (be24 e 5 < be24 a 5 + 2 ^ u8 a 3)

def windowRange (b : List Byte) (w : Nat) (e : List Byte) (o : Nat) : List Nat :=
  let size := 2 ^ u8 e 3
  chk o (decide (u8 e 0 < 8)) ++ zeros e o 4 5 ++ zeros e o 10 16 ++
  (if flagAt e 0 0 then
    chk (o + 1) (decide (u8 e 1 < 8)) ++ chk (o + 2) (decide (u8 e 2 ≤ 2)) ++ chk (o + 3) (within 5 24 (u8 e 3)) ++
    chk (o + 4) (be24 e 5 % size == 0 && decide (be24 e 5 + size ≤ 2 ^ 24) &&
      !((entries b 0 32 w).any (fun x => flagAt x.2 0 0 && windowsOverlap x.2 e))) ++
    chk (o + 8) (decide (16 ≤ be16 e 8))
   else []) ++
  (if w < 8 then
    chk (o + 16) (decide (u8 e 16 ≤ 2)) ++ chk (o + 17) (decide (u8 e 17 ≤ 1)) ++ zeros e o 20 21 ++
    zeros e o 28 32 ++
    (if u8 e 16 = 2 then chk (o + 20) (be32 e 20 % 2 == 0) ++ chk (o + 26) (decide (10 ≤ be16 e 26)) else [])
   else if w = 8 then chk (o + 16) (decide (u8 e 16 ≤ 1)) ++ zeros e o 17 20 ++ zeros e o 26 32
   else zeros e o 16 32)

def scanRange (l : List Sect) (_ : Nat) (e : List Byte) (o : Nat) : List Nat :=
  let addr := be24 e 5
  let len := u8 e 2
  let w := windowFor (u8 e 1) addr len false l
  chk o (decide (u8 e 0 ≤ 1)) ++ zeros e o 3 5 ++ zeros e o 12 16 ++
  (if flagAt e 0 0 then
    chk (o + 1) (decide (u8 e 1 < 8)) ++
    chk (o + 2) (len % 2 == 0 && within 2 32 len && (w.map (fun x => u8 x 2 != 2 || len % 4 == 0)).getD true) ++
    chk (o + 4) (addr % 2 == 0 && w.isSome && decide (addr % 32 + len ≤ 32) &&
      (w.map (fun x => u8 x 2 != 2 || addr % 4 == 0)).getD true) ++
    chk (o + 8) (be32 e 8 % 4 == 0 && userArea (be32 e 8) len)
   else [])

def bridgeRange (l : List Sect) (b : List Byte) : List Nat :=
  eachEntry b 0 32 16 (windowRange b) ++
  (if announces l then chk 276 (be32 b 276 % 32 == 0 && userArea (be32 b 276) 256) else []) ++
  eachEntry b 512 16 64 (scanRange l)

/-! ### POWER (Table 14-11) and FALLBACK (Table 3-5) -/

def powerRange (l : List Sect) (b : List Byte) : List Nat :=
  let arb := sb tyArbiter l
  let ms := be16 b 12
  chk 0 (decide (u8 b 0 < 8)) ++ chk 1 (within 1 3 (u8 b 1)) ++ zeros b 0 3 4 ++
  chk 6 ((List.range 16).all (fun i => !natBit (be16 b 6) i || arb.isEmpty || !pinOutput arb i)) ++
  chk 8 (u8 b 8 == 0 && (List.range 24).all (fun c => !natBit (be32 b 8) c || serRxEn (serOf c l))) ++
  chk 12 (ms == 0 || within 100 60000 ms) ++ zeros b 0 14 64

def fallbackRange (b : List Byte) : List Nat :=
  chk 0 (decide (be32 b 0 ≤ 1)) ++ zeros b 0 4 8 ++
  chk 8 ((List.range 16).all (fun i => be32 b 8 / 4 ^ i % 4 != 3)) ++ zeros b 0 12 16 ++
  chk 16 (decide (be16 b 16 ≤ 64)) ++ zeros b 0 18 24 ++
  eachEntry b 24 8 (be16 b 16) (fun _ e o =>
    chk o (decide (u8 e 0 < 8)) ++ chk (o + 1) (be24 e 1 % 2 == 0) ++ zeros e o 6 8)

/-! ### Check 0x0D -/

/-- Failing offsets in the body of a section. -/
def bodyRange (mode0 : Bool) (l : List Sect) (x : Sect) : List Nat :=
  let b := x.body
  if x.ty = tyPorts then portsRange mode0 l b
  else if x.ty = tyMemory then memoryRange l b
  else if x.ty = tyPcp then pcpRange b
  else if x.ty = tyRoutes then routesRange l b
  else if x.ty = tyWildcards then wildcardsRange l b
  else if x.ty = tyFilters then filtersRange b
  else if x.ty = tyTemplates then templatesRange l b
  else if x.ty = tyAdmission then admissionRange l b
  else if x.ty = tyTime then timeRange l b
  else if x.ty = tySerial then serialRange b
  else if x.ty = tyConverters then convertersRange b
  else if x.ty = tyPublisher then publisherRange l b
  else if x.ty = tyAlignment then alignmentRange l b
  else if x.ty = tyArbiter then arbiterRange l b
  else if x.ty = tyUcode then ucodeRange b
  else if x.ty = tyGoose then gooseRange l b
  else if x.ty = tyBridge then bridgeRange l b
  else if x.ty = tyPower then powerRange l b
  else if x.ty = tyFallback then fallbackRange b
  else []

/-- The first failing field in image order. -/
def rangeCheck (mode0 : Bool) (l : List Sect) : List SectAt → Option PosErr
  | [] => none
  | x :: r =>
    match bodyRange mode0 l x.sect with
    | [] => rangeCheck mode0 l r
    | o :: os =>
      some { code := 0x0D, section_ := x.idx, detail := 0, offset := x.off + 8 + os.foldl min o }

end Sys2Proof.Machine
end

