-- ==== Sys2Proof/Machine/Admit.lean ====
section
/-!
DEFINITION. The admission check (spec/10, R574, R582 to R590, R971, R972): the worst-case latency of every
counted egress and class, the buffered bytes, cells and descriptors. Arithmetic is exact.
-/

namespace Sys2Proof.Machine

/-! ### Fractions -/

/-- A fraction in lowest terms. -/
structure Frac where
  num : Nat
  den : Nat
  deriving DecidableEq, Repr

def fr (n d : Nat) : Frac := { num := n / max 1 (Nat.gcd n d), den := d / max 1 (Nat.gcd n d) }

def Frac.add (a b : Frac) : Frac := fr (a.num * b.den + b.num * a.den) (a.den * b.den)
def Frac.sub (a b : Frac) : Frac := fr (a.num * b.den - b.num * a.den) (a.den * b.den)
def Frac.mul (a b : Frac) : Frac := fr (a.num * b.num) (a.den * b.den)
def Frac.div (a b : Frac) : Frac := fr (a.num * b.den) (a.den * b.num)
def Frac.lt (a b : Frac) : Bool := decide (a.num * b.den < b.num * a.den)
def Frac.ceil (a : Frac) : Nat := ceilDiv a.num (max 1 a.den)
def Frac.sum (l : List Frac) : Frac := l.foldl .add (fr 0 1)
def Frac.max (a b : Frac) : Frac := if a.lt b then b else a

/-! ### Routes and where they count (R582) -/

/-- A route of the check: a hashed entry, or a wildcard, which has no key and no bound. -/
structure AdmRoute where
  id : Nat
  key : Option Nat
  res : List Byte
  tpl : Option (List Byte)
  bound : Option (List Byte)
  cin : List Nat
  cls : List Nat
  egs : List Nat
  toInternal : Bool
  deriving DecidableEq, Repr

/-- Kinds of carriage at frame egress (Table 9-7). -/
inductive AdmFmt where
  | frame | tunnel | header
  deriving DecidableEq, Repr

def admFmt (key : Option Nat) : AdmFmt :=
  match key with
  | none => .frame
  | some k =>
    if keyKind k = 1 then .tunnel
    else if keyKind k = 2 then .frame
    else
      let src := k / 2 ^ 52 % 16
      let sub := k / 2 ^ 16 % 2 ^ 16
      if src = 10 ∨ (src = 11 ∧ sub = 0) then .frame else .header

/-- Ports of a mask that the Position leaves it (R11, R15, R507, R508), and channels of SE. -/
def admPorts (key : Option Nat) (r : List Byte) (tpl : Option (List Byte)) (l : List Sect) : List Nat :=
  let built : Bool := (key.map (fun k => keyKind k == 3)).getD false && admFmt key == .frame
  let toEth : Bool :=
    match tpl, admFmt key with
    | none, .frame => true
    | none, _ => false
    | some t, .frame => built || tplEthValid t
    | some t, .tunnel => tplEthValid t && tplEncap t == 1
    | some t, .header => tplEthValid t && tplEncap t == 2
  (List.range 13).filter (fun p =>
    natBit (resMask r) p && portDef p l && p != 9 && p != 10 && !((key.map (fun k => egressNo k p)).getD false) &&
      (toEth || decide (8 < p)))

def admChannels (key : Option Nat) (r : List Byte) (tpl : Option (List Byte)) (l : List Sect) : List Nat :=
  match tpl with
  | some t =>
    if natBit (resMask r) 9 && portDef 9 l && tplSeValid t && !((key.map (fun k => egressNo k 9)).getD false) then
      seChannels t (key.bind (fun k => if keyKind k = 1 then some (k / 2 ^ 48 % 256) else none))
    else []
  | none => []

/-- Classes that PROMOTE actions of the Arbiter can give a route (R634). -/
def arbClasses (id : Nat) (l : List Sect) : List Nat :=
  ((rulesOf (sb tyArbiter l)).filter (fun x => u8 x.2 12 % 64 == 4 && be16 x.2 14 == id)).map (fun x => u8 x.2 13)

/-- A route with its classes (R511, R576, R582). -/
def admRoute (id : Nat) (key : Option Nat) (r : List Byte) (bounds : List (Nat × List Byte)) (l : List Sect) :
    AdmRoute :=
  let tpl := (resTemplate r).map (fun t => tplOf t l)
  let held := resClass r :: (if key.isSome then arbClasses id l else [])
  let top := held.foldl max 0
  let cin := (List.range 6).filter (fun c => held.contains c || (resUsePcp r && decide (c ≤ top)))
  let policy := be16 (sb tyMemory l) 12
  let ps := admPorts key r tpl l
  let cs := admChannels key r tpl l
  { id, key, res := r, tpl, cin,
    bound := if key.isSome then (bounds.find? (fun b => b.1 == id)).map (·.2) else none,
    cls := (List.range 6).filter (fun c =>
      cin.contains c || (decide (1 ≤ c) && decide (c < 5) && cin.contains (c - 1) && natBit policy (c - 1))),
    egs := ps ++ cs.map (· + 64),
    toInternal := !cs.isEmpty || ps.any (fun p => decide (8 < p)) }

/-- Route bounds of ADMISSION by route index. -/
def routeBounds (l : List Sect) : List (Nat × List Byte) :=
  let b := sb tyAdmission l
  (entries b 8 16 (be16 b 0)).map (fun x => (be16 x.2 0, x.2))

/-- Wildcard results. -/
def wildResults (l : List Sect) : List (List Byte) :=
  (entries (sb tyWildcards l) 8 48 (listCount tyWildcards l)).map (fun x => slice x.2 16 32)

/-- All routes of a Position: hashed entries by index, then wildcards. -/
def admRoutes (l : List Sect) : List AdmRoute :=
  let bs := routeBounds l
  (validRoutes l).map (fun x => admRoute x.1 (some (be64 x.2 0)) (slice x.2 8 32) bs l) ++
    (wildResults l).mapIdx (fun i r => admRoute (0x1000 + i) none r bs l)

/-- Routes that count at an egress and class. -/
def countedAt (e c : Nat) (rs : List AdmRoute) : List AdmRoute :=
  rs.filter (fun r => r.egs.contains e && r.cls.contains c)

/-! Fields of a route bound. -/

def AdmRoute.maxSize (r : AdmRoute) : Nat := (r.bound.map (fun b => be16 b 4)).getD 0
def AdmRoute.burst (r : AdmRoute) : Nat := (r.bound.map (fun b => be16 b 6)).getD 0
def AdmRoute.interval (r : AdmRoute) : Nat := (r.bound.map (fun b => be32 b 8)).getD 1

/-! ### Sizes (R583) -/

/-- The largest message of a route at an egress. -/
def admSize (r : AdmRoute) (e : Nat) (l : List Sect) : Nat :=
  let m := r.maxSize
  let t := r.tpl.getD []
  let tag := if tplTagMode t = 2 then 4 else 0
  let fmt := admFmt r.key
  if 64 ≤ e then
    (match fmt with
     | .tunnel => min m 1023
     | .frame => max 1 (min 1023 (m - 42))
     | .header => m)
  else if 8 < e then m
  else
    let body :=
      match fmt with
      | .frame =>
        m + (if (r.key.map keyKind) = some 2 ∧ r.tpl.isSome ∧ tplEthValid t then tag else 0)
      | .tunnel => 14 + tag + 24 + min m 1023 + 4
      | .header => 14 + tag + (if tplType t = 0x88B8 ∨ tplType t = 0x88BA then 8 else 0) + m + 4
    if e = 8 then max 64 body + 16 else max 64 (if pairOf e l = 0 then body else body + 6)

/-! ### Serial egress (R589, R590) -/

/-- Bit time in ns. -/
def admBit (e : List Byte) : Frac := fr (serOver e * serDivider e) 16

def admUsesDe (e : List Byte) : Bool := serDuplex e == 1 || serDuplex e == 2

/-- τ(m) in ns. -/
def admTau (e : List Byte) (m : Nat) : Frac :=
  let t := admBit e
  let bits := m * charBits e + (m - 1) * u8 e 17
  let de := if admUsesDe e then u8 e 14 + u8 e 15 else 0
  let idle := if serIdleMode e then serIdleHct e * charBits e else 0
  .add (.mul (fr bits 1) t) (.add (.mul (fr de 16) t) (.mul (fr idle 2) t))

/-- Period of the frames of a slotted channel: the longest of the comparators of the TIME section that
drive it, or the length of a frame where none does. -/
def admFramePeriod (c : Nat) (l : List Sect) : Frac :=
  let b := sb tyTime l
  let ps := ((entries b 16 32 16).filter (fun x =>
      natBit (be16 b 4) x.1 && u8 x.2 0 == 9 && u8 x.2 3 == c && u8 x.2 1 != 0)).map (fun x =>
    if u8 x.2 1 = 1 then fr (be32 x.2 12) 1 else fr 1000000000 (be32 x.2 12))
  match ps with
  | [] => fr (64 * serSlotLen (serOf c l)) 1
  | p :: r => r.foldl .max p

/-- Share of the frame period that the OWN slots cover. -/
def admShare (c : Nat) (l : List Sect) : Frac :=
  let e := serOf c l
  let own := ((List.range 64).filter (fun k => slotRole e k == 2)).length
  .div (fr (own * serSlotLen e) 1) (admFramePeriod c l)

/-- What R590 adds to w. -/
def admSerialExtra (c largest : Nat) (l : List Sect) : Frac :=
  let e := serOf c l
  let coll := serDuplex e == 2 || serDuplex e == 3
  let retry := if coll then u8 e 16 else 0
  if flagAt e 0 2 then .mul (fr (1 + retry) 1) (admFramePeriod c l)
  else .mul (fr retry 1) (.add (admTau e largest) (.mul (fr (17 * charBits e) 1) (admBit e)))

/-! ### Egress terms (Table 10-4) -/

/-- Is an Ethernet egress one on which preemption is active (R317)? -/
def admPreempt (e : Nat) (l : List Sect) : Bool := decide (e < 8) && u8 (portOf e l) 4 != 0

/-- Byte times of a port in ns: one, or both of an SGMII port (R972). -/
def byteTimes (p : Nat) (l : List Sect) : List Nat :=
  if p = 8 then [8] else if u8 (portOf p l) 1 = 0 then [8] else if u8 (portOf p l) 1 = 1 then [8, 80] else [80]

/-- Line rate, in units of service per ns. -/
def admRate (e : Nat) (l : List Sect) : Frac :=
  if 64 ≤ e then (if flagAt (serOf (e - 64) l) 0 2 then admShare (e - 64) l else fr 1 1)
  else if 8 < e then fr 1 1
  else fr 1 ((byteTimes e l).foldl max 8)

/-- Service that one message of a route takes: bytes with overhead `o`, or ns. -/
def admUnit (r : AdmRoute) (e o : Nat) (l : List Sect) : Frac :=
  if 64 ≤ e then admTau (serOf (e - 64) l) (admSize r e l)
  else if 8 < e then fr 64 1
  else fr (admSize r e l + o) 1

/-- Blocking term. -/
def admBlock (e c : Nat) (rs : List AdmRoute) (l : List Sect) : Frac :=
  let lower (lo : Nat) : List AdmRoute := rs.filter (fun r =>
    r.egs.contains e && r.cls.any (fun k => decide (lo ≤ k) && decide (k < c)))
  if 64 ≤ e then
    let s := serOf (e - 64) l
    if (countedAt e 0 rs).isEmpty then
      ((lower 1).map (fun r => admTau s (admSize r e l))).foldl .max (fr 0 1)
    else admTau s 1023
  else if 8 < e then fr 64 1
  else if e = 8 then fr 1558 1
  else if c < 3 then fr 1542 1
  else ((lower 3).map (fun r => fr (admSize r e l + 20) 1)).foldl .max
    (fr (if admPreempt e l then 151 else 1542) 1)

/-- e_out. -/
def admOut (e : Nat) (l : List Sect) : Frac :=
  if 64 ≤ e then
    let s := serOf (e - 64) l
    .add (fr 160 1) (.mul (fr (if admUsesDe s then u8 s 14 else 0) 16) (admBit s))
  else if 8 < e then fr 64 1
  else fr 144 1

/-! ### Entry term (Table 10-3) -/

/-- Entry term of a frame that comes in on port `p`, over every combination of byte times. -/
def admEntryEth (r : AdmRoute) (p e : Nat) (l : List Sect) : Nat :=
  let sIn := r.maxSize + (if p = 8 then 16 else if pairOf p l = 0 then 0 else 6)
  let outs := if e ≤ 8 then byteTimes e l else [8]
  ((byteTimes p l).flatMap (fun t => outs.map (fun u =>
    if r.toInternal ∨ u < t then (sIn + 8) * t + 160
    else 160 + (if p = 8 then 80 else 64) * t + 268))).foldl max 0

/-- q of a route at an egress. -/
def admEntry (r : AdmRoute) (e : Nat) (l : List Sect) : Nat :=
  match r.key with
  | none => 268
  | some k =>
    if keyKind k = 1 then
      64 * ((List.range 24).filter (fun c => serRxEn (serOf c l))).length + 268
    else if keyKind k = 2 then
      let p := k / 2 ^ 52 % 16
      let ps := if p = 15 then (List.range 9).filter (fun i => portDef i l) else [p]
      (ps.map (fun i => admEntryEth r i e l)).foldl max 0
    else 268

/-! ### The bound (R584) -/

/-- Outcome of the arithmetic for an egress and class. -/
inductive AdmBound where
  | overload
  | unbounded
  | bound (lat bytes : Nat)
  deriving DecidableEq, Repr

/-- Overhead of a higher-class route: 44 bytes for an express one that preempts. -/
def admOverhead (r : AdmRoute) (e c : Nat) (l : List Sect) : Nat :=
  if e < 8 ∧ c < 3 ∧ admPreempt e l ∧ r.cls.any (fun k => decide (3 ≤ k)) then 44 else 20

/-- Latency and buffered bytes of an egress and class (R584, R586). -/
def admBound (e c : Nat) (rs : List AdmRoute) (l : List Sect) : AdmBound :=
  let own := countedAt e c rs
  let hi := rs.filter (fun r => r.egs.contains e && r.cls.any (fun k => decide (c < k)))
  let us := hi.map (fun r => (r, admUnit r e (admOverhead r e c l) l))
  let bHi := Frac.sum (us.map (fun x => Frac.mul (fr x.1.burst 1) x.2))
  let rHi := Frac.sum (us.map (fun x => Frac.div x.2 (fr x.1.interval 1)))
  let line := admRate e l
  if hi.any (fun r => r.bound.isNone) || !(rHi.lt line) then .overload
  else if own.any (fun r => r.bound.isNone) then .unbounded
  else
    let vs := own.map (fun r => (r, admUnit r e 20 l))
    let all := Frac.sum (vs.map (fun x => Frac.mul (fr x.1.burst 1) x.2))
    let least := (vs.map (·.2)).foldl (fun m v => if v.lt m then v else m) all
    let a := all.sub least
    let w := (Frac.div ((admBlock e c rs l).add (bHi.add a)) (line.sub rHi)).ceil
    let largest := ((rs.filter (fun r => r.egs.contains e)).map (fun r => admSize r e l)).foldl max 0
    let extra := if 64 ≤ e then admSerialExtra (e - 64) largest l else fr 0 1
    let q := (own.map (fun r => admEntry r e l)).foldl max 0
    let lat := ((fr (q + w) 1).add (extra.add (admOut e l))).ceil
    .bound lat ((own.map (fun r => admSize r e l * (r.burst + ceilDiv lat r.interval))).sum)

/-! ### The check (R574, R585, R971) -/

/-- Egress codes in the order of R971. -/
def admEgresses : List Nat := List.range 9 ++ [11, 12] ++ (List.range 24).map (· + 64)

/-- Counted egresses and classes from KNIGHT up, in the order of R971. -/
def admPairs (rs : List AdmRoute) : List (Nat × Nat) :=
  admEgresses.flatMap (fun e => ([5, 4, 3, 2, 1].filter (fun c => !(countedAt e c rs).isEmpty)).map (fun c => (e, c)))

/-- Port-class bound of ADMISSION. -/
def portBound (e c : Nat) (l : List Sect) : Option (List Byte) :=
  let b := sb tyAdmission l
  ((entries b (8 + 16 * be16 b 0) 16 (be16 b 2)).map (·.2)).find? (fun x => u8 x 0 == e && u8 x 1 == c)

/-- DETAIL (R587). -/
def admDetail (e c : Nat) : Nat := e * 256 + c

/-- Refusals of R574. -/
def admUnpoliced (rs : List AdmRoute) : Option Nat :=
  (rs.find? (fun r =>
    if r.key.isSome then decide (0 < resClass r.res) && r.bound.isNone
    else decide (0 < resClass r.res) || resUsePcp r.res)).map (fun r => admDetail 0xFF (resClass r.res))

/-- A route's largest bound. -/
def admWorst (r : AdmRoute) (bs : List ClsBound) : Nat :=
  ((bs.filter (fun b => r.egs.contains b.egress && r.cls.contains b.cls)).map (·.lat)).foldl max 0

/-- Messages of a route that can be in the board at once. -/
def admHeld (r : AdmRoute) (bs : List ClsBound) : Nat := r.burst + ceilDiv (admWorst r bs) r.interval

/-- Items 6 and 7 of R585. -/
def admNeeds (rs : List AdmRoute) (bs : List ClsBound) (l : List Sect) : Option Nat :=
  let pol := rs.filter (fun r => r.bound.isSome)
  let cells (c : Nat) : Nat :=
    ((pol.filter (fun r => r.cin.contains c)).map (fun r => cellsOf r.maxSize * admHeld r bs)).sum
  let descs (c : Nat) : Nat :=
    ((pol.filter (fun r => r.cin.any (fun k => decide (c ≤ k)))).map (fun r => admHeld r bs)).sum
  (([5, 4, 3, 2, 1].find? (fun c => decide (be16 (sb tyMemory l) (2 * c) < cells c))).orElse (fun _ =>
    [1, 2, 3, 4, 5].find? (fun c => decide (8192 - descFloor c < descs c)))).map (fun c => admDetail 0xFF c)

/-- The admission check: the computed bounds, or DETAIL of the first failure. -/
def admission (l : List Sect) : Except Nat (List ClsBound) :=
  let rs := admRoutes l
  let pairs := admPairs rs
  let bounds := pairs.map (fun p => (p, admBound p.1 p.2 rs l))
  let bs := bounds.filterMap (fun x =>
    match x.2 with
    | .bound lat bytes => some { egress := x.1.1, cls := x.1.2, lat, bytes : ClsBound }
    | _ => none)
  let late (x : (Nat × Nat) × AdmBound) : Bool :=
    match x.2, portBound x.1.1 x.1.2 l with
    | .bound lat _, some b => decide (be32 b 8 < lat)
    | _, _ => true
  let fat (x : (Nat × Nat) × AdmBound) : Bool :=
    match x.2, portBound x.1.1 x.1.2 l with
    | .bound _ bytes, some b => decide (be32 b 4 < bytes)
    | _, _ => true
  let old (x : (Nat × Nat) × AdmBound) : Bool :=
    match x.2 with
    | .bound lat _ => (countedAt x.1.1 x.1.2 rs).any (fun r => decide (resBudgetUs r.res * 1000 < lat))
    | _ => true
  let at_ (p : Option (Nat × Nat)) : Option Nat := p.map (fun x => admDetail x.1 x.2)
  let fail :=
    (admUnpoliced rs).orElse fun _ =>
    (at_ (pairs.find? (fun p => (portBound p.1 p.2 l).isNone))).orElse fun _ =>
    (at_ ((bounds.find? (fun x => x.2 == .overload)).map (·.1))).orElse fun _ =>
    (at_ ((bounds.find? late).map (·.1))).orElse fun _ =>
    (at_ ((bounds.find? fat).map (·.1))).orElse fun _ =>
    (at_ ((bounds.find? old).map (·.1))).orElse fun _ => admNeeds rs bs l
  match fail with
  | some d => .error d
  | none => .ok bs

/-- Check 0x0E on the sections of an image. -/
def admitCheck (l : List SectAt) : Except PosErr (List ClsBound) :=
  match admission (l.map (·.sect)) with
  | .ok bs => .ok bs
  | .error d =>
    match sectOf tyAdmission l with
    | some x => .error { code := 0x0E, section_ := x.idx, detail := d, offset := x.off }
    | none => .error { code := 0x0E, section_ := 0xFF, detail := d, offset := 0 }

end Sys2Proof.Machine
end

