-- ==== Sys2Proof/Machine/Meas.lean ====
section
/-!
DEFINITION. Converters and the measurement publisher (spec/08, R436 to R465): sampling, availability,
mailboxes, SV frames.
-/

namespace Sys2Proof.Machine

/-! ### Groups -/

/-- The state of a group. -/
def cnvGroup (b : Bool) (s : State) : CnvGroup := if b then s.cnv.groupB else s.cnv.groupA

/-- Replaces the state of a group. -/
def setGroup (b : Bool) (g : CnvGroup) (s : State) : State :=
  if b then { s with cnv := { s.cnv with groupB := g } } else { s with cnv := { s.cnv with groupA := g } }

/-- Is the group enabled by the running Position (R436)? -/
def groupEnabled (b : Bool) (s : State) : Bool := flagAt (convEntry b s) 0 0

/-- Does group B sample with group A (R440)? -/
def syncWithA (s : State) : Bool := flagAt (convEntry true s) 0 1

/-- Counts a trigger that is not carried out (R440, R441). -/
def trigSkipped (s : State) : State :=
  { s with cnv := { s.cnv with trigSkipCnt := satInc s.cnv.trigSkipCnt } }

/-- Saturates a code to 24 bits (R437). -/
def satCode (c : Int) : Int := satInt 24 c

/-- Does a code saturate (R437)? -/
def overCode (c : Int) : Bool := decide (c > 8388607) || decide (c < -8388608)

/-- The four codes of a group among the eight of the environment. -/
def groupCodes (b : Bool) (adc : List Int) : List Int :=
  (List.range 4).map (fun i => nth 0 adc ((if b then 4 else 0) + i))

/-- How far device time is beyond an instant, in ns; 0 if it is not. -/
def nsSince (t : Nat) (s : State) : Nat := devNs s - t

/-- Cycles from now to an instant of device time plus a delay in ns; 0 if it has passed. -/
def cyclesUntil (t delay : Nat) (s : State) : Nat := cyclesOf (t + delay - devNs s)

/-- One group samples at an instant (R439, R441, R443, R444). -/
def sampleGroup (b : Bool) (secs : BitVec 48) (ns : BitVec 30) (grid : Option (Nat × Nat))
    (adc : List Int) (s : State) : State :=
  let g := cnvGroup b s
  let t := secs.toNat * 1000000000 + ns.toNat
  let soon : Bool :=
    match g.lastAt with
    | some u => decide ((t : Int) - u < 62500)
    | none => false
  if !groupEnabled b s || !g.running then s
  else if soon then raise .cnvTrigSkip (if b then 1 else 0) (trigSkipped s)
  else
    let codes := groupCodes b adc
    let lt := localNow s - cyclesOf (nsSince t s)
    let smp : CnvSample :=
      { secs, ns, tq := tqNow s, synch := smpSynchOf (tqNow s) s, grid,
        raw := codes.map satCode, ovl := codes.map overCode,
        settling := decide (lt < g.settleUntil), refFault := s.cnv.refFault,
        due := localNow s + cyclesUntil t 96000 s, origin := lt }
    setGroup b { g with lastAt := some (t : Int), waiting := g.waiting ++ [smp] } s

/-- A CNV_A action (R439, R440). -/
def actionCnvA (secs : BitVec 48) (ns : BitVec 30) (grid : Option (Nat × Nat)) (adc : List Int)
    (s : State) : State :=
  let s1 := sampleGroup false secs ns grid adc s
  if syncWithA s1 then sampleGroup true secs ns grid adc s1 else s1

/-- A CNV_B action: ignored and counted while group B samples with A (R440). -/
def actionCnvB (secs : BitVec 48) (ns : BitVec 30) (grid : Option (Nat × Nat)) (adc : List Int)
    (s : State) : State :=
  if syncWithA s then trigSkipped s else sampleGroup true secs ns grid adc s

/-! ### Values (R437, R442, R449) -/

/-- π in units of 2^-64. -/
def piFx : Nat := 57952155664616982739

/-- The integrator of R442. `y` is kept in units of 2^-32 of a code; Δ is taken in ns. -/
def integStep (fNorm : Nat) (t : Int) (c : Int) (i : Integ) : Integ :=
  match i.at_ with
  | none => { y := i.y, prev := c, at_ := some t }
  | some u =>
    let d : Int := t - u
    let leak : Int := i.y * 2 * (piFx : Int) * d / (10 * 1000000000 * 2 ^ 64)
    let gain : Int := 2 * (piFx : Int) * (fNorm : Int) * d * (c + i.prev) * 2 ^ 32
      / (2 * 1000000000 * 2 ^ 64)
    { y := i.y - leak + gain, prev := c, at_ := some t }

/-- The integrator's output as a code: the whole number below or above it, whichever the unstated
rounding takes (log entry 21). -/
def integOut (y : Int) (up : Bool) : Int := y / 2 ^ 32 + (if up then 1 else 0)

/-- The value of channel `c` of a group's sample, and its integrator afterwards. -/
def channelValue (e : List Byte) (t : Int) (free : Nat) (c : Nat) (raw : Int) (i : Integ) :
    Int × Integ :=
  if flagAt e 8 c then
    let j := integStep (be16 e 16) t raw i
    (integOut j.y (Config.freeBit (free + c)), j)
  else (raw, i)

/-- The out-of-range thresholds that enabled streams give channel `ch` (Table 8-6). -/
def oorThresholds (ch : Nat) (s : State) : List Nat :=
  [false, true].flatMap (fun st =>
    let e := pubEntry st s
    if flagAt e 0 0 then
      ((List.range (u8 e 3)).filter (fun k => u8 e (4 + k) == ch)).map (fun k => be32 e (96 + 4 * k))
    else [])

/-- Is a value beyond a threshold that is not zero (Table 8-2)? -/
def outOfRange (v : Int) (ths : List Nat) : Bool := ths.any (fun h => h != 0 && decide (h < v.natAbs))

/-- The four flag bits of a channel (Table 8-12): overload, outOfRange, reference fault, settling. -/
def channelFlags (ovl oor ref settle : Bool) : Nat :=
  (if ovl then 1 else 0) + (if oor then 2 else 0) + (if ref then 4 else 0) + (if settle then 8 else 0)

/-- Counts and reports the onset of an overload on a channel, and keeps its state (R437). -/
def noteOverload (ch : Nat) (ovl : Bool) (s : State) : State :=
  if ovl then
    (if s.cnv.overload.getLsbD ch then s
     else raise .cnvOverload (BitVec.ofNat 32 ch)
       { s with cnv := { s.cnv with
         overload := setBit s.cnv.overload ch, overloadCnt := satInc s.cnv.overloadCnt } })
  else { s with cnv := { s.cnv with overload := clearBit s.cnv.overload ch } }

/-- The overload state of the four channels of a group after a sample. -/
def noteOverloads (base : Nat) : Nat → List Bool → State → State
  | _, [], s => s
  | i, o :: os, s => noteOverloads base (i + 1) os (noteOverload (base + i) o s)

/-! ### The publisher (R452 to R464) -/

/-- The state of a stream. -/
def muStream (b : Bool) (s : State) : MuStream := if b then s.cnv.stream1 else s.cnv.stream0

/-- Replaces the state of a stream. -/
def setStream (b : Bool) (m : MuStream) (s : State) : State :=
  if b then { s with cnv := { s.cnv with stream1 := m } } else { s with cnv := { s.cnv with stream0 := m } }

/-- round(c × SCALE ÷ 65,536), saturated to INT32 with the overflow flag (R454). -/
def scaled (c scale : Int) : Int × Bool :=
  let v := divRound (c * scale) 65536
  (satInt 32 v, satInt 32 v != v)

/-- The worse of two validity codes (R462): invalid over questionable over good. -/
def worst (a b : Nat) : Nat := if a = 1 ∨ b = 1 then 1 else if a = 3 ∨ b = 3 then 3 else 0

/-- Quality of a local value (Table 8-2). -/
def localQuality (ovl sat oor ref settle test : Bool) : Nat :=
  let v := worst (if ovl || sat || settle || ref then 1 else 0) (if oor then 3 else 0)
  v + (if ovl || sat then 4 else 0) + (if oor then 8 else 0) + (if ref then 0x50 else 0)
    + (if test then 0x800 else 0)

/-- A channel's value and flags as the mailboxes hold them. -/
def boxValue (ch : Nat) (s : State) : Int × Nat :=
  let b := (cnvGroup (decide (4 ≤ ch)) s).box
  (nth 0 b.values (ch % 4), b.flags.toNat / 2 ^ (4 * (ch % 4)) % 16)

/-- One dataset entry of a stream: value and quality, 8 bytes (R453, R454, R462). -/
def datasetEntry (e : List Byte) (s : State) (k : Nat) : List Byte :=
  let ch := u8 e (4 + k)
  if ch = 0xFF then toBE 4 0 ++ toBE 4 1
  else
    let v := boxValue ch s
    let w := scaled v.1 (asSigned 32 (be32 e (64 + 4 * k)))
    let q := localQuality (natBit v.2 0) w.2 (outOfRange v.1 [be32 e (96 + 4 * k)]) (natBit v.2 2)
      (natBit v.2 3) (flagAt e 0 2)
    toBE 4 (intWord w.1).toNat ++ toBE 4 q

/-- seqData of a sample (R453). -/
def datasetBytes (e : List Byte) (s : State) : List Byte :=
  (List.range (u8 e 3)).flatMap (datasetEntry e s)

/-- One ASDU in BER (R455). The values of smpRate and smpMod are not stated (log entry 22). -/
def asduBytes (e : List Byte) (free : Nat) (a : MuAsdu) : List Byte :=
  berOut 0x30 (berOut 0x80 (slice e 25 (u8 e 24)) ++ berOut 0x82 (toBE 2 a.smpCnt)
    ++ berOut 0x83 (slice e 12 4) ++ berOut 0x85 (toBE 1 a.synch.toNat)
    ++ (if flagAt e 0 3 then berOut 0x86 (toBE 2 (Config.freeWord free).toNat) else [])
    ++ berOut 0x87 a.data
    ++ (if flagAt e 0 4 then berOut 0x88 (toBE 2 (Config.freeWord (free + 1)).toNat) else []))

/-- Addresses and tag in front of a frame built from a template (R455, R518, R519). The PCP of the tag
is set at egress (R31). -/
def templateHead (t : List Byte) (etype : Nat) : List Byte :=
  tplDa t ++ tplSa t ++ (if tplTagMode t = 2 then toBE 2 0x8100 ++ toBE 2 (tplVid t) else [])
    ++ toBE 2 etype

/-- An SV or GOOSE frame without its FCS: APPID, length, reserved fields and the APDU. `sim` sets bit
15 of reserved1. -/
def apduFrame (t : List Byte) (etype : Nat) (sim : Bool) (apdu : List Byte) : List Byte :=
  templateHead t etype ++ toBE 2 (tplAppid t) ++ toBE 2 (8 + apdu.length)
    ++ toBE 2 (if sim then 0x8000 else 0) ++ toBE 2 0 ++ apdu

/-- The frame of a list of ASDUs (R455 to R457). -/
def svFrame (e t : List Byte) (free : Nat) (as : List MuAsdu) : List Byte :=
  apduFrame t 0x88BA (flagAt e 0 1)
    (berOut 0x60 (berOut 0x80 (toBE 1 as.length)
      ++ berOut 0xA2 (as.flatMap (asduBytes e free))))

/-- Closes the frame of a stream: it waits for the MU port (R457, R458). -/
def closeFrame (b : Bool) (s : State) : State :=
  let m := muStream b s
  match m.held.getLast? with
  | none => s
  | some a =>
    let e := pubEntry b s
    let f : MuFrame :=
      { bytes := svFrame e (templateEntry (be16 e 20) s) s.free m.held, stamp := m.heldStamp,
        origin := m.heldOrigin, smpCnt := BitVec.ofNat 16 a.smpCnt }
    drawn (drawn (setStream b { m with held := [], ready := m.ready ++ [f] } s))

/-- smpCnt of a sample and the count after which it wraps (R459, R460). -/
def sampleCount (e : List Byte) (m : MuStream) (grid : Option (Nat × Nat)) : Nat × Nat :=
  let w := be32 e 16
  if w ≠ 0 then (m.nextCnt % w, w)
  else
    match grid with
    | some (k, n) => (k, n)
    | none => (m.nextCnt % 65536, 65536)

/-- Adds an ASDU to a stream's frame and closes the frame when it is full. -/
def holdAsdu (b : Bool) (a : MuAsdu) (st : Stamp) (origin full : Nat) (s : State) : State :=
  let m := muStream b s
  let s1 := setStream b { m with held := m.held ++ [a], heldStamp := st, heldOrigin := origin } s
  if full ≤ m.held.length + 1 then closeFrame b s1 else s1

/-- A new sample reaches a stream: it continues the frame, or closes it and starts a group when its
smpCnt is a multiple of NO_ASDU (R457, R458). -/
def publishSample (b : Bool) (x : CnvSample) (s : State) : State :=
  let e := pubEntry b s
  let m := muStream b s
  let c := sampleCount e m x.grid
  let a : MuAsdu := { smpCnt := c.1, wrap := c.2, synch := x.synch, data := datasetBytes e s }
  let st : Stamp := { secs := x.secs, ns := x.ns, tq := x.tq }
  let s1 := setStream b { m with nextCnt := c.1 + 1, active := true } s
  let follows : Bool :=
    match m.held.getLast? with
    | some l => c.1 == (l.smpCnt + 1) % l.wrap
    | none => false
  if follows then holdAsdu b a st x.origin (u8 e 2) s1
  else
    let s2 := closeFrame b s1
    if c.1 % max 1 (u8 e 2) = 0 then holdAsdu b a st x.origin (u8 e 2) s2 else s2

/-- Does a stream publish the sample that group `b` has just made available? A stream of both groups
does so once both mailboxes hold the same instant. -/
def streamTakes (st b : Bool) (s : State) : Bool :=
  let e := pubEntry st s
  let other := (cnvGroup (!b) s).box
  let own := (cnvGroup b s).box
  flagAt e 0 0 && (u8 e 1 == (if b then 1 else 0) ||
    (u8 e 1 == 2 && other.valid && other.secs == own.secs && other.ns == own.ns))

/-- The mailbox and everything behind it after a sample became available (R449). -/
def deliverSample (b : Bool) (x : CnvSample) (rest : List CnvSample) (s : State) : State :=
  let g := cnvGroup b s
  let e := convEntry b s
  let base := if b then 4 else 0
  let t : Int := ((x.secs.toNat * 1000000000 + x.ns.toNat : Nat) : Int)
  let vals := (List.range 4).map (fun c =>
    channelValue e t s.free c (nth 0 x.raw c) (nth .reset g.integ c))
  let flags := ((List.range 4).map (fun c =>
    channelFlags (nth false x.ovl c)
      (outOfRange (nth (0, Integ.reset) vals c).1 (oorThresholds (base + c) s)) x.refFault x.settling
      * 2 ^ (4 * c))).sum
  let box : Mailbox :=
    { valid := true, seq := g.box.seq + 1, secs := x.secs.setWidth 32, tq := x.tq, ns := x.ns,
      values := vals.map (·.1), flags := BitVec.ofNat 16 flags }
  let s1 := setGroup b { g with
    waiting := rest, box, integ := vals.map (·.2), hist := ((vals.map (·.1)) :: g.hist).take 256 } s
  let s2 := noteOverloads base 0 x.ovl { s1 with free := s1.free + 4 }
  let s3 := if streamTakes false b s2 then publishSample false x s2 else s2
  if streamTakes true b s3 then publishSample true x s3 else s3

/-- SAMPLE_AVAILABLE: 96,000 ns after a sampling instant the value is available (R443, R449). -/
def execSampleAvailable (groupB : Bool) (s : State) : Host.Outcome State Fault Refusal :=
  match (cnvGroup groupB s).waiting with
  | [] => .next s
  | x :: rest => .next (if due x.due s then deliverSample groupB x rest s else s)

/-- An SV frame as it enters the board (R464). -/
def muInbound (b : Bool) (f : MuFrame) (s : State) : Inbound :=
  internalMsg .mu 10 0 (if b then 1 else 0) f.bytes 0x88BA
    (tplTagMode (templateEntry (be16 (pubEntry b s) 20) s) == 2) s

/-- MU_FRAME_HANDOVER: the oldest complete frame of a stream enters the board (R464, R21). -/
def execMuFrameHandover (stream1 : Bool) (s : State) : Host.Outcome State Fault Refusal :=
  let m := muStream stream1 s
  match m.ready with
  | [] => .next s
  | f :: fs =>
    if boardRuns s then
      .next (enterBoard (muInbound stream1 f s)
        (setStream stream1 { m with ready := fs, frames := satInc m.frames, lastCnt := f.smpCnt } s))
    else .next s

/-- CNV_REF_FAULT: the background check finds the reference out of limits (R448). -/
def execCnvRefFault (s : State) : Host.Outcome State Fault Refusal :=
  if coreUp s && !s.cnv.refFault then
    .next (raise .cnvRefFault 0 { s with cnv := { s.cnv with refFault := true } })
  else .next s

/-- REF_FAULT_CLEAR: the reference has been within limits for 1 s (R448). -/
def execRefFaultClear (s : State) : Host.Outcome State Fault Refusal :=
  .next { s with cnv := { s.cnv with refFault := false } }

end Sys2Proof.Machine
end

