-- ==== Sys2Proof/Machine/Align.lean ====
section
/-!
DEFINITION. The Alignment engine (spec/08, R466 to R491): subscriptions, sample instants, windows, the
interpolator and the rows of the output ring.
-/

namespace Sys2Proof.Machine

/-! ### Subscriptions -/

def alnEnabled (i : Nat) (s : State) : Bool := flagAt (alnEntry i s) 0 0

/-- RATE_HZ and the wrap of smpCnt (Table 8-7). -/
def alnRate (e : List Byte) : Nat := be32 e 4
def alnWrap (e : List Byte) : Nat := if be32 e 8 = 0 then be32 e 4 else be32 e 8
def alnWindowNs (e : List Byte) : Nat := be16 e 12 * 1000

/-- OUT_DELAY_US, RING_BASE, RING_ROWS and GRID of entry 0 (Table 8-7). -/
def alnOutDelayNs (s : State) : Nat := be16 (alnEntry 0 s) 66 * 1000
def alnRingBase (s : State) : Nat := be32 (alnEntry 0 s) 68
def alnRingRows (s : State) : Nat := u8 (alnEntry 0 s) 72
def alnGridB (s : State) : Bool := u8 (alnEntry 0 s) 64 == 1

/-- Updates one subscription. -/
def updSub (i : Nat) (f : AlnSub → AlnSub) (s : State) : State :=
  { s with aln := { s.aln with subs := upd f s.aln.subs i } }

/-- The enabled subscription that an SV frame and the svID of its ASDUs match (R466). -/
def alnMatch (appid : Nat) (svId sa : List Byte) (s : State) : Option Nat :=
  (List.range 16).find? (fun i =>
    let e := alnEntry i s
    alnEnabled i s && be16 e 16 == appid && slice e 25 (u8 e 24) == svId &&
      (ofBE (slice e 18 6) == 0 || slice e 18 6 == sa))

/-! ### Samples (R468 to R473) -/

/-- Instant of sample `c` of a second (R470). -/
def gridInstant (sec c rate : Nat) : Nat := sec * 1000000000 + c * 1000000000 / rate

/-- The second a synchronised sample belongs to: that of the ingress time-stamp, or the one before if
its instant would otherwise lie after it (R470). -/
def sampleSecond (ingress c rate : Nat) : Nat :=
  let sec := ingress / 1000000000
  if gridInstant sec c rate > ingress then sec - 1 else sec

/-- The second that continues the numbering of a publisher that is not synchronised. -/
def unsyncSecond (held : List AlnSample) (ingress c : Nat) : Nat :=
  match held.getLast? with
  | none => ingress / 1000000000
  | some l => if c ≤ l.smpCnt then l.sec + 1 else l.sec

/-- Keeps the samples that rows still to come can use. -/
def pruneHeld (s : State) (e : List Byte) (l : List AlnSample) : List AlnSample :=
  let span := alnOutDelayNs s + alnWindowNs e + 16 * 1000000000 / max 1 (alnRate e)
  l.filter (fun x => decide (devNs s ≤ x.instant + span))

/-- Receives one ASDU of subscription `i` at an ingress time-stamp (R468 to R473). -/
def receiveAsdu (i ingress : Nat) (a : SvAsdu) (s : State) : State :=
  let e := alnEntry i s
  let u := nth .reset s.aln.subs i
  let rate := max 1 (alnRate e)
  let vals := svPairs (u8 e 1) a.data
  let dropped (t : State) : State :=
    { t with aln := { t.aln with format := satInc t.aln.format, int := setBit t.aln.int 3 } }
  if vals.length < u8 e 1 ∨ alnWrap e ≤ a.smpCnt then dropped s
  else
    let synced := a.synch ≠ 0
    let accept := flagAt e 0 2
    let sec := if synced ∨ ¬ accept then sampleSecond ingress a.smpCnt rate
      else unsyncSecond u.held ingress a.smpCnt
    let t := if synced ∨ ¬ accept then gridInstant sec a.smpCnt rate
      else ingress - be16 e 14 * 1000
    let seen : AlnSub → AlnSub := fun k => { k with smpSynch := BitVec.ofNat 2 a.synch }
    if u.held.any (fun x => x.smpCnt == a.smpCnt && x.sec == sec) then
      updSub i seen { s with aln := { s.aln with dup := satInc s.aln.dup } }
    else if ingress < t ∨ t + alnWindowNs e < ingress then
      raise .alnLate (BitVec.ofNat 32 i)
        (updSub i (fun k => { seen k with late := satInc k.late }) s)
    else
      let x : AlnSample :=
        { smpCnt := a.smpCnt, sec, instant := t, synch := BitVec.ofNat 2 a.synch,
          usable := decide (synced ∨ accept),
          values := if synced then vals else vals.map (fun v => (v.1, v.2 / 4 * 4 + worst (v.2 % 4) 3)) }
      updSub i (fun k => { seen k with
        smpCnt := BitVec.ofNat 16 a.smpCnt, held := pruneHeld s e k.held ++ [x] }) s

/-- Receives the ASDUs of a frame, each matched by its svID. The flag tells whether any matched. -/
def receiveAsdus (appid ingress : Nat) (sa : List Byte) : List SvAsdu → Bool → State → Bool × State
  | [], hit, s => (hit, s)
  | a :: as, hit, s =>
    match alnMatch appid a.svId sa s with
    | none => receiveAsdus appid ingress sa as hit s
    | some i => receiveAsdus appid ingress sa as true (receiveAsdu i ingress a s)

/-- ALN_FRAME_RX: an SV frame delivered to AL (R466). `bytes` run from the destination address. -/
def alnFrameRx (bytes : List Byte) (tagged : Bool) (stamp : Stamp) (s : State) : State :=
  let body := bytes.drop (afterType tagged)
  let r := receiveAsdus (be16 body 0) stamp.absNs (slice bytes 6 6) (svAsdus body) false s
  if r.1 then r.2
  else { r.2 with aln := { r.2.aln with
    unmatched := satInc r.2.aln.unmatched, int := setBit r.2.aln.int 2 } }

/-- The index (second times rate plus count) of the last sample of a subscription whose window has
ended by an instant. -/
def lastEnded (e : List Byte) (now : Nat) : Nat :=
  let rate := max 1 (alnRate e)
  let t := now - alnWindowNs e - 1
  t / 1000000000 * rate + (ceilDiv ((t % 1000000000 + 1) * rate) 1000000000 - 1)

/-- ALN_WINDOW_END: the window of the next sample of a subscription ends; if it was not received it is
missing (R472). -/
def execAlnWindowEnd (sub : Fin 16) (s : State) : Host.Outcome State Fault Refusal :=
  let i := sub.val
  let e := alnEntry i s
  let rate := max 1 (alnRate e)
  let u := nth .reset s.aln.subs i
  let end_ := lastEnded e (devNs s)
  let k := (u.judged.map (· + 1)).getD end_
  if alnEnabled i s && boardRuns s && decide (k ≤ end_) && decide (alnWindowNs e < devNs s) then
    let have_ := u.held.any (fun x => x.sec * rate + x.smpCnt == k)
    .next (updSub i (fun v => { v with
      judged := some k, missing := if have_ then v.missing else satInc v.missing }) s)
  else .next s

/-! ### The interpolator (R475 to R477) -/

/-- 2^96, the unit of the fixed-point values the coefficients are formed from. -/
def fxOne : Nat := 2 ^ 96

/-- π in units of 2^-96. -/
def piFx96 : Int := 248902613312231085230521944622

/-- Terms `n` of the Taylor series of sine (odd start) or cosine (even start): `k` is the last
exponent, `t` the last term, `x2` the square of the argument. -/
def taylor : Nat → Nat → Int → Int → Int
  | 0, _, t, _ => t
  | n + 1, k, t, x2 =>
    t + taylor n (k + 2) (-(t * x2 / 2 ^ 96) / ((k + 1) * (k + 2) : Nat)) x2

/-- Sine and cosine of an argument in units of 2^-96. -/
def sinFx (x : Int) : Int := taylor 30 1 x (x * x / 2 ^ 96)
def cosFx (x : Int) : Int := taylor 30 0 (2 ^ 96) (x * x / 2 ^ 96)

/-- sinc(j − p ÷ 1024) × cos²(π (j − p ÷ 1024) ÷ 9) × 131,072, rounded (R477). `d` is 1024 j − p. -/
def rawTap (d : Int) : Int :=
  if d = 0 then 131072
  else
    let x : Int := piFx96 * d / 1024
    let sx : Int := sinFx (piFx96 * (d % 2048 - (if d % 2048 > 1024 then 2048 else 0)) / 1024)
    let c2 : Int := (2 ^ 96 + cosFx (2 * piFx96 * d / (1024 * 9))) / 2
    let v : Int := sx * c2 * 131072
    let den : Nat := (x * 2 ^ 96).natAbs
    if x < 0 then divRound (-v) den else divRound v den

/-- The eight coefficients of phase `p` for j = −3 to 4; the centre tap makes their sum exact
(R477). -/
def taps (p : Nat) : List Int :=
  let raw := (List.range 8).map (fun (j : Nat) => rawTap (1024 * ((j : Int) - 3) - p))
  let sum := raw.foldl (· + ·) 0
  upd (fun c => c + (131072 - sum)) raw 3

/-- The samples' order: index from −3 to 4 about m0 of a held list, by second times wrap plus
count. -/
def tapAt (held : List AlnSample) (wrap : Nat) (k : Int) : Option AlnSample :=
  held.find? (fun x => ((x.sec * wrap + x.smpCnt : Nat) : Int) == k)

/-- m0, as second times wrap plus count, and p of a row instant (R475). A publisher whose last sample
is not synchronised has no grid of its own: its latest sample at or before τ takes that place. -/
def tapBase (e : List Byte) (held : List AlnSample) (tau : Nat) : Int × Nat :=
  let rate := max 1 (alnRate e)
  let unsync : Bool :=
    match held.getLast? with
    | some l => l.synch == 0
    | none => false
  let start : Int × Nat :=
    if unsync then
      match (held.filter (fun x => decide (x.instant ≤ tau))).getLast? with
      | some x => (((x.sec * alnWrap e + x.smpCnt : Nat) : Int), x.instant)
      | none => (0, tau)
    else
      let sec := tau / 1000000000
      let c := ceilDiv ((tau % 1000000000 + 1) * rate) 1000000000 - 1
      (((sec * alnWrap e + c : Nat) : Int), gridInstant sec c rate)
  let num := (tau - start.2) * rate
  let m : Int := start.1 + ((num / 1000000000 : Nat) : Int)
  let p := (divRound ((1024 * (num % 1000000000) : Nat) : Int) 1000000000).toNat
  if 1024 ≤ p then (m + 1, 0) else (m, p)

/-- Is a tap usable for channel entry `c` (R479)? -/
def tapUsable (x : Option AlnSample) (c : Nat) : Bool :=
  match x with
  | some a => a.usable && (nth (0, 0) a.values c).2 % 4 != 1
  | none => false

/-- Value and quality of a tap for a channel entry. -/
def tapValue (x : Option AlnSample) (c : Nat) : Int × Nat :=
  match x with
  | some a => nth (0, 0) a.values c
  | none => (0, 0)

/-- Twice the value of an unusable tap that is bridged: the sum of its two neighbours (R481). Where a
neighbour outside the eight taps is not usable either, no value is stated (log entry 23). -/
def bridged2 (l r : Option AlnSample) (c : Nat) (free : Nat) : Int :=
  if tapUsable l c && tapUsable r c then (tapValue l c).1 + (tapValue r c).1
  else (Config.freeWord free).toInt

/-- Output of one channel for a row: value, quality, and whether it was bridged (R476, R480 to R483).
`win` are the taps from j = −4 to 5, so that the neighbours of the outer taps are at hand. -/
def alnOutput (hold : Bool) (synch : BitVec 2) (cs : List Int) (win : List (Option AlnSample))
    (free c : Nat) : Int × Nat × Bool :=
  let taps8 := (win.drop 1).take 8
  let bad := taps8.filter (fun x => !tapUsable x c)
  let quals := taps8.map (fun x => (tapValue x c).2)
  let test := if quals.any (fun q => natBit q 11) then 0x800 else 0
  if bad.length ≥ 2 ∨ (bad.length = 1 ∧ hold = false) then (0, 1 + 0x80 + test, false)
  else
    let good := taps8.filter (fun x => tapUsable x c)
    let gq := good.map (fun x => (tapValue x c).2)
    let vals2 := (List.range 8).map (fun j =>
      let x := nth none taps8 j
      if tapUsable x c then 2 * (tapValue x c).1
      else bridged2 (nth none win j) (nth none win (j + 2)) c free)
    let sum := (List.zipWith (· * ·) cs vals2).foldl (· + ·) 0
    let differs := good.any (fun x =>
      match x with
      | some a => a.synch != synch
      | none => false)
    let v0 := gq.foldl (fun a q => worst a (q % 4)) 0
    let v1 := if differs || !bad.isEmpty then worst v0 3 else v0
    let detail := gq.foldl (fun a q => a ||| (q / 4 * 4 % 1024)) 0
    let d1 := detail ||| (if differs then 0x100 else 0) ||| (if bad.isEmpty then 0 else 0x200) ||| test
    (satInt 32 (divRound sum 262144), v1 + d1, !bad.isEmpty)

/-- Output channels of a subscription (Table 8-7). -/
def outChannels (e : List Byte) : List Nat :=
  (List.range 16).filter (fun c => natBit (be16 e 2) c && decide (c < u8 e 1))

/-- Outputs of subscription `i` for a row. -/
def subOutputs (i : Nat) (r : AlnRow) (s : State) : List (Int × Nat × Bool) :=
  let e := alnEntry i s
  let held := (nth .reset s.aln.subs i).held
  let b := tapBase e held (r.secs.toNat * 1000000000 + r.ns.toNat)
  let win := (List.range 10).map (fun (j : Nat) => tapAt held (alnWrap e) (b.1 - 4 + j))
  (outChannels e).map (alnOutput (flagAt e 0 1) r.synch (taps b.2) win s.free)

/-! ### Rows (R484 to R490) -/

/-- A grid instant starts a row (R474). -/
def startRow (secs : BitVec 48) (ns : BitVec 30) (s : State) : State :=
  if hasSect tyAlignment s then
    let t := secs.toNat * 1000000000 + ns.toNat
    { s with aln := { s.aln with rows := s.aln.rows ++
      [{ secs, ns, tq := tqNow s, synch := smpSynchOf (tqNow s) s,
         origin := localNow s - cyclesOf (nsSince t s),
         due := localNow s + cyclesUntil t (alnOutDelayNs s) s }] } }
  else s

/-- The enabled subscriptions. -/
def alnActive (s : State) : List Nat := (List.range 16).filter (fun i => alnEnabled i s)

/-- Keeps the outputs of a subscription, counts a bridge once, and reports the turn to invalid
(R481, R482). -/
def noteOutputs (r : AlnRow) : List (Nat × List (Int × Nat × Bool)) → State → State
  | [], s => s
  | (i, os) :: rest, s =>
    let valid := os.any (fun o => o.2.1 % 4 != 1)
    let u := nth .reset s.aln.subs i
    let s1 := updSub i (fun k => { k with
      out := os.map (fun o => (o.1, o.2.1)), wasValid := valid,
      bridged := if os.any (fun o => o.2.2) then satInc k.bridged else k.bridged }) s
    noteOutputs r rest
      (if u.wasValid && !valid then raise .alnInvalid (BitVec.ofNat 32 i) s1 else s1)

/-- The AL message of one subscription (R490, Table 8-4). -/
def alMessage (seq : Nat) (r : AlnRow) (i : Nat) (os : List (Int × Nat × Bool)) : List Byte :=
  toBE 4 seq ++ toBE 4 r.secs.toNat ++ toBE 4 (tqNsWord r.tq r.ns) ++ toBE 1 i ++ toBE 1 os.length
    ++ toBE 2 0 ++ os.flatMap (fun o => toBE 4 (intWord o.1).toNat ++ toBE 4 o.2.1)

/-- Hands the AL messages of a row to the board, by subscription ascending (R490). -/
def handRows (seq : Nat) (r : AlnRow) : List (Nat × List (Int × Nat × Bool)) → State → State
  | [], s => s
  | (i, os) :: rest, s =>
    handRows seq r rest (enterBoard (internalMsg .alRow 12 0 i (alMessage seq r i os) 0 false s) s)

/-- Bytes of a ring row (Table 8-3), little-endian in the shared region (R744). -/
def ringRow (seq : Nat) (r : AlnRow) (all : List (Nat × List (Int × Nat × Bool))) : List Byte :=
  let valid := ((all.filter (fun x => x.2.any (fun o => o.2.1 % 4 != 1))).map (fun x => 2 ^ x.1)).sum
  let outs := all.flatMap (·.2)
  toLE 4 seq ++ toLE 4 r.secs.toNat ++ toLE 4 (tqNsWord r.tq r.ns) ++ toLE 2 valid
    ++ toLE 2 outs.length
    ++ outs.flatMap (fun o => toLE 4 (intWord o.1).toNat ++ toLE 4 o.2.1) ++ toLE 4 seq

/-- Computes, writes and hands over one row (R484 to R490). -/
def deliverRow (r : AlnRow) (rest : List AlnRow) (s : State) : State :=
  let all := (alnActive s).map (fun i => (i, subOutputs i r s))
  let seq := s.aln.seq + 1
  let row := ringRow seq.toNat r all
  let slot := (seq.toNat + 2 ^ 32 - 1) % 2 ^ 32 % max 1 (alnRingRows s)
  let s1 := portAWrite (alnRingBase s + slot * (ceilDiv row.length 64 * 64)) row false none
    (portABegin s)
  let s2 := drawn { s1 with aln := { s1.aln with
    rows := rest, seq, lastValid := true, lastSeq := seq.setWidth 24,
    lastSlot := BitVec.ofNat 6 slot } }
  handRows seq.toNat r all (noteOutputs r all s2)

/-- ALN_ROW_DUE: at τ + OUT_DELAY_US the row is computed, written and handed over (R484). -/
def execAlnRowDue (s : State) : Host.Outcome State Fault Refusal :=
  match s.aln.rows with
  | [] => .next s
  | r :: rest => .next (if due r.due s && boardRuns s then deliverRow r rest s else s)

end Sys2Proof.Machine
end

