-- ==== Sys2Proof/Machine/Bridge.lean ====
section
/-!
DEFINITION. The expansion bridge (spec/12): windows, the queue of requests, far bursts and their
endings, posted writes, prefetch, the scan engine, card interrupts, presence and enumeration.
-/

namespace Sys2Proof.Machine

/-! ### Settings of the BRIDGE section (Table 12-10) -/

def winEnabled (w : List Byte) : Bool := flagAt w 0 0
def winQuiet (w : List Byte) : Bool := flagAt w 0 1
def winPosted (w : List Byte) : Bool := flagAt w 0 2
def winSlot (w : List Byte) : Nat := u8 w 1
def winSwap (w : List Byte) : Nat := u8 w 2
def winSize (w : List Byte) : Nat := 2 ^ u8 w 3
def winBase (w : List Byte) : Nat := be32 w 4 % 2 ^ 24
def winTimeout (w : List Byte) : Nat := be16 w 8

/-- Slot settings: INT_MODE, REQUIRE_TYPE, CARD_TYPE, POLL_ADDR, POLL_MASK, POLL_US. -/
def slotIntMode (i : Nat) (s : State) : Nat := u8 (xbWindow i s) 16
def slotRequireType (i : Nat) (s : State) : Bool := flagAt (xbWindow i s) 17 0
def slotCardType (i : Nat) (s : State) : Nat := be16 (xbWindow i s) 18
def slotPollAddr (i : Nat) (s : State) : Nat := be32 (xbWindow i s) 20 % 2 ^ 24
def slotPollMask (i : Nat) (s : State) : Nat := be16 (xbWindow i s) 24
def slotPollUs (i : Nat) (s : State) : Nat := be16 (xbWindow i s) 26

/-- CLK_DIV, ANNOUNCE_BASE and ORPHAN_US of entry 8. -/
def xbClkDiv (s : State) : Nat := u8 (xbWindow 8 s) 16
def announceBase (s : State) : Nat := be32 (xbWindow 8 s) 20
def sectionOrphanUs (s : State) : Nat :=
  if be16 (xbWindow 8 s) 24 = 0 then 1000 else be16 (xbWindow 8 s) 24

/-- A slot of the bridge. -/
def xbSlot (i : Nat) (s : State) : XbSlot := nth .reset s.xb.slots i

/-- Updates a slot. -/
def updSlot (i : Nat) (f : XbSlot → XbSlot) (s : State) : State :=
  { s with xb := { s.xb with slots := upd f s.xb.slots i } }

/-- Is a slot PRESENT? -/
def slotPresent (i : Nat) (s : State) : Bool := (xbSlot i s).st == .present

/-- The window that contains a whole access (R668). -/
def findWindow (slot addr len : Nat) (s : State) : Option Nat :=
  (List.range 16).find? (fun w =>
    let e := xbWindow w s
    winEnabled e && winSlot e == slot && decide (winBase e ≤ addr) &&
      decide (addr + len ≤ winBase e + winSize e))

/-! ### Bounds (Table 10-5) -/

/-- Tags in use: reads and non-posted writes in the bridge, and SPI far reads that are not collected
(R685). -/
def tagsUsed (s : State) : Nat :=
  ((s.xb.queue.filter (fun r => r.tag)).length) +
  (match s.xb.cur with
   | some c => if c.req.tag then 1 else 0
   | none => 0) +
  (s.mgt.pick.filter (fun p => p.st == .notReady || p.st == .done || p.st == .error)).length

/-- Posted-write entries in use (R679, R682). -/
def postedUsed (s : State) : Nat :=
  ((s.xb.queue.filter (fun r => r.posted)).length) +
  (match s.xb.cur with
   | some c => if c.req.posted then 1 else 0
   | none => 0) +
  (if s.xb.gather.isSome then 1 else 0)

/-! ### Byte order (R667, R675, R677) -/

/-- Far bytes of near bytes, or near bytes of far bytes, under a swap mode (R675). -/
def swapBytes (mode : BitVec 2) (l : List Byte) : List Byte :=
  (List.range l.length).map (fun a =>
    nth 0 l (if mode = 0 then a else if mode = 1 then a ^^^ 1 else a ^^^ 3))

/-- Near bytes of 32-bit words (spec/12, Width, byte order and swap modes). -/
def wordsBytes (ws : List Word) : List Byte := ws.flatMap (fun w => toLE 4 w.toNat)

/-- Words of near bytes. -/
def bytesWords : Nat → List Byte → List Word
  | 0, _ => []
  | n + 1, l => BitVec.ofNat 32 (ofLE (l.take 4)) :: bytesWords n (l.drop 4)

/-! ### Messages of the bridge (R695, R705, R710) -/

/-- Hands an XM message to the board (R710, Table 12-7). -/
def xmMessage (subtype slot : Nat) (t : Stamp) (status who : Nat) (body : List Byte) (s : State) :
    State :=
  let q := (xbSlot slot s).msgSeq + 1
  let s1 := updSlot slot (fun k => { k with msgSeq := q }) s
  let bytes := toBE 1 subtype ++ toBE 1 slot ++ toBE 2 q.toNat ++ toBE 4 t.secs.toNat
    ++ toBE 4 (tqNsWord t.tq t.ns) ++ toBE 1 status ++ toBE 1 body.length ++ toBE 1 who ++ toBE 1 0
    ++ body
  let s2 := if subtype = 0 then { s1 with xb := { s1.xb with int := setBit s1.xb.int 6 } } else s1
  if boardRuns s2 then enterBoard (internalMsg .xm 13 subtype slot bytes 0 false s2) s2 else s2

/-- A posted write failed: the log, the event and the XM message (R695, R696). -/
def logWerr (who : BitVec 4) (slot addr code : Nat) (s : State) : State :=
  let e : XbWerr :=
    { who, slot := BitVec.ofNat 3 slot, code := BitVec.ofNat 8 code, addr := BitVec.ofNat 24 addr }
  let full := decide (8 ≤ s.xb.werr.length)
  let s1 := { s with xb := { s.xb with
    werr := (if full then s.xb.werr.drop 1 else s.xb.werr) ++ [e],
    werrOvf := s.xb.werrOvf || full } }
  xmMessage 1 slot (stampNow s) code who.toNat (toBE 4 addr)
    (raise .xbWerr (BitVec.ofNat 32 (slot * 65536 + code)) s1)

/-! ### Requests -/

/-- Puts a request into the bridge queue (R673). -/
def xbJoin (r : XbReq) (s : State) : State :=
  { s with xb := { s.xb with
    queue := s.xb.queue ++ [{ r with id := s.xb.nextId, joined := localNow s }],
    nextId := s.xb.nextId + 1 } }

/-- A request of the bridge's own, without a window (R670). -/
def bareReq (who : BitVec 4) (slot addr len : Nat) (dest : XbDest) : XbReq :=
  { id := 0, who, slot, addr, len, write := false, posted := false, tag := false, bytes := [], dest,
    win := 16, winEnd := addr + len, quiet := false, swap := 0, joined := 0 }

/-- A request through a window. -/
def winReq (who : BitVec 4) (slot addr len w : Nat) (dest : XbDest) (s : State) : XbReq :=
  let e := xbWindow w s
  { bareReq who slot addr len dest with
    win := w, winEnd := winBase e + winSize e, quiet := winQuiet e,
    swap := BitVec.ofNat 2 (winSwap e) }

/-- Invalidates the prefetch buffers of a window (R691). -/
def dropWindowBufs (w : Nat) (s : State) : State :=
  { s with xb := { s.xb with bufs := s.xb.bufs.filter (fun b => b.win != w) } }

/-- Invalidates the prefetch buffers of a slot (R691). -/
def dropSlotBufs (i : Nat) (s : State) : State :=
  { s with xb := { s.xb with bufs := s.xb.bufs.filter (fun b => b.slot != i) } }

/-- Pieces of an access, cut at every far address that is a multiple of 32 (R678). -/
def cutPieces : Nat → Nat → Nat → List (Nat × Nat)
  | 0, _, _ => []
  | f + 1, a, n =>
    if n = 0 then []
    else
      let k := min n (32 - a % 32)
      (a, k) :: cutPieces f (a + k) (n - k)

/-- Prefetch bursts after a read in a QUIET window (R688). -/
def prefetchPieces (r : XbReq) : List (Nat × Nat) :=
  let e := r.addr + r.len
  let stop := min r.winEnd (ceilDiv e 32 * 32 + 32)
  cutPieces 4 e (stop - e)

/-- All bursts of a request, with the mark of prefetch bursts. -/
def burstsOf (r : XbReq) : List (Nat × Nat × Bool) :=
  ((cutPieces 16 r.addr r.len).map (fun p => (p.1, p.2, false))) ++
  (if r.quiet && !r.write then (prefetchPieces r).map (fun p => (p.1, p.2, true)) else [])

/-! ### Completion of requests -/

/-- The far read of a pickup slot has completed, with its words or a code (R83, R86, R693). -/
def landPickup (i : Nat) (code : Nat) (ws : List Word) (s : State) : State :=
  let us := if s.xb.orphanUs = 0 then 1 else s.xb.orphanUs.toNat
  let st := if code = 0 then PickSt.done else PickSt.error
  { s with
    mgt := { s.mgt with pick := upd (fun p => { p with
      st, code := BitVec.ofNat 8 code, data := ws,
      deadline := if code = 0 then some (localNow s + us * 250) else none }) s.mgt.pick i },
    glb := { s.glb with mgtInt := setBit s.glb.mgtInt 0 } }

/-- The command of an access frame that waits for the bridge gets its data and status (R358). -/
def landAccess (id : Nat) (code : Nat) (bytes : List Byte) (s : State) : State :=
  { s with hp := { s.hp with held := s.hp.held.map (fun a =>
      if a.waitTag = some id then { a with landed := some (BitVec.ofNat 8 code, bytes) } else a) } }

/-- A scan item has completed or failed (R699). -/
def landScan (item : Nat) (code : Nat) (bytes : List Byte) (s : State) : State :=
  let e := xbScanItem item s
  let s1 := if code = 0 then portAWrite (be32 e 8) bytes false none (portABegin s) else s
  { s1 with xb := { s1.xb with scan := s1.xb.scan.map (fun k => { k with
      open_ := k.open_ - 1, err := if code = 0 then k.err else setBit k.err item }) } }

/-- ANNOUNCE_ADDR and ANNOUNCE_LEN of a slot's ID block (Table 12-9). -/
def announceAddr (i : Nat) (s : State) : Nat := (nth 0 (xbSlot i s).ids 4).toNat % 2 ^ 24
def announceLen (i : Nat) (s : State) : Nat := (nth 0 (xbSlot i s).ids 5).toNat / 2 ^ 24

/-- Queues the announce read of a slot (R703, R704). -/
def queueAnnounce (i : Nat) (s : State) : State :=
  xbJoin (bareReq 5 i (announceAddr i s) (announceLen i s) .announce) s

/-- An announce has ended: its bytes reach the shared region, its message the board, and an assertion
remembered meanwhile follows (R705 to R707). -/
def landAnnounce (i : Nat) (code : Nat) (bytes : List Byte) (s : State) : State :=
  match (xbSlot i s).ann with
  | none => s
  | some a =>
    let s1 := if code = 0 ∧ bytes ≠ [] then
        portAWrite (announceBase s + 32 * i) bytes false none (portABegin s) else s
    let s2 := xmMessage 0 i a.instant code 0 (if code = 0 then bytes else [])
      (updSlot i (fun k => { k with ann := none }) s1)
    match a.more with
    | none => s2
    | some (t, o) =>
      queueAnnounce i (updSlot i (fun k => { k with
        ann := some { instant := t, origin := o, more := none } }) s2)

/-- An interrupt assertion of a slot (R702, R707, R708). -/
def assertInt (i : Nat) (t : Stamp) (s : State) : State :=
  let s1 := updSlot i (fun k => { k with intCnt := satInc k.intCnt }) s
  match (xbSlot i s).ann with
  | none =>
    queueAnnounce i (updSlot i (fun k => { k with
      ann := some { instant := t, origin := localNow s, more := none } }) s1)
  | some a =>
    if a.more.isSome then s1
    else updSlot i (fun k => { k with ann := some { a with more := some (t, localNow s) } }) s1

/-- A status poll has ended (R708, R709). -/
def landPoll (i : Nat) (code : Nat) (bytes : List Byte) (s : State) : State :=
  let hit := code = 0 ∧ (ofBE bytes &&& slotPollMask i s) ≠ 0
  let s1 := updSlot i (fun k => { k with pollPrev := decide hit }) s
  if hit ∧ (xbSlot i s).pollPrev = false then assertInt i (stampNow s) s1 else s1

/-- Card words of the ARBITER section that lie in a slot (Table 11-8). -/
def cardWord (w : Nat) (s : State) : List Byte :=
  let b := bodyOf tyArbiter s
  entryOf b (8 + 16 * be16 b 0 + 8 * be16 b 2 + 64) 8 w

/-- CARD_COUNT of the ARBITER section. -/
def cardCount (s : State) : Nat := u8 (bodyOf tyArbiter s) 4

/-- Every card word of a slot is written at the next A (R631). -/
def forceCardWords (i : Nat) (s : State) : State :=
  { s with arb := { s.arb with force := s.arb.force ++
    (List.range (cardCount s)).filter (fun w => u8 (cardWord w s) 0 == i && !s.arb.force.contains w) } }

/-- A posted 16-bit write of a value, bit 15 on XB_AD15 (R677). -/
def cardReq (who : BitVec 4) (c : CardWrite) (s : State) : XbReq :=
  let base : XbReq :=
    match if who = 4 then none else findWindow c.slot c.addr 2 s with
    | some w => winReq who c.slot c.addr 2 w .none s
    | none => bareReq who c.slot c.addr 2 .none
  { base with write := true, posted := true, bytes := toBE 2 c.value.toNat, quiet := false }

/-- Accepts a posted write: it joins the queue, or is discarded and logged where the slot is not
PRESENT (R681, R718). -/
def acceptPosted (r : XbReq) (s : State) : State :=
  if slotPresent r.slot s then xbJoin r (dropWindowBufs r.win s)
  else logWerr r.who r.slot r.addr 3 s

/-- Hands card writes to the bridge while posted-write entries are free; answers those that wait. -/
def pushCards (who : BitVec 4) : List CardWrite → State → List CardWrite × State
  | [], s => ([], s)
  | c :: cs, s =>
    if postedUsed s < 32 then pushCards who cs (acceptPosted (cardReq who c s) s) else (c :: cs, s)

/-- Fallback writes (R124); those that find no entry wait. -/
def pushFallback (cs : List CardWrite) (s : State) : State :=
  let r := pushCards 4 (s.xb.fallbackWait ++ cs) { s with xb := { s.xb with fallbackWait := [] } }
  { r.2 with xb := { r.2.xb with fallbackWait := r.1 } }

/-- The card entries of a FALLBACK body (Table 3-5). -/
def fallbackCards (body : List Byte) : List CardWrite :=
  (List.range (be16 body 16)).map (fun i =>
    let e := entryOf body 24 8 i
    { slot := u8 e 0, addr := be24 e 1, value := BitVec.ofNat 16 (be16 e 4) })

/-- The fallback entries a slot still waits for are written as it becomes PRESENT (R793). -/
def releaseFallback (i : Nat) (s : State) : State :=
  if s.xb.fallbackDue.contains i then
    pushFallback ((fallbackCards (s.pos.fallback.getD [])).filter (fun c => c.slot == i))
      { s with xb := { s.xb with fallbackDue := s.xb.fallbackDue.filter (fun k => k != i) } }
  else s

/-- Does an ID block pass (R713)? -/
def idAccepted (i : Nat) (b : List Byte) (s : State) : Bool :=
  be16 b 0 == 1 && (crc16Ccitt (b.take 30)).toNat == be16 b 30 &&
    (!slotRequireType i s || be16 b 4 == slotCardType i s) &&
    u8 b 20 % 2 == 0 && decide (u8 b 20 ≤ 32)

/-- An ID read has ended (R713 to R715). -/
def landIdent (i : Nat) (code : Nat) (bytes : List Byte) (s : State) : State :=
  if code = 0 ∧ idAccepted i bytes s then
    let ws := (List.range 8).map (fun k => BitVec.ofNat 32 (be32 bytes (4 * k)))
    releaseFallback i (forceCardWords i (raise .xbSlotIn (BitVec.ofNat 32 i)
      (updSlot i (fun k => { k with st := .present, ids := ws, ann := none, pollPrev := false }) s)))
  else
    let s1 := updSlot i (fun k => { k with st := .idErr, ids := List.replicate 8 0 }) s
    { s1 with xb := { s1.xb with int := setBit s1.xb.int 4 } }

/-- A request has completed with its far bytes, or failed with a code at a far address. -/
def finishReq (r : XbReq) (code addr : Nat) (far : List Byte) (s : State) : State :=
  let near := swapBytes r.swap far
  if r.posted then (if code = 0 then s else logWerr r.who r.slot addr code s)
  else
    match r.dest with
    | .none => s
    | .pickup i => landPickup i code (if code = 0 then bytesWords (r.len / 4) near else []) s
    | .access => landAccess r.id code (if code = 0 ∧ r.write = false then near else []) s
    | .scan k => landScan k code near s
    | .ident => landIdent r.slot code far s
    | .announce => landAnnounce r.slot code far s
    | .poll => landPoll r.slot code far s

/-- Waiting card writes move up when a posted-write entry is freed (R598, R682). -/
def refillPosted (s : State) : State :=
  let s1 := pushFallback [] s
  let r := pushCards 2 s1.arb.cardWait { s1 with arb := { s1.arb with cardWait := [] } }
  { r.2 with arb := { r.2.arb with cardWait := r.1 } }

/-! ### The scan engine (R698 to R700) -/

/-- Scan items that are enabled, ascending. -/
def scanItems (s : State) : List Nat := (List.range 64).filter (fun i => flagAt (xbScanItem i s) 0 0)

/-- Queues scan items while the engine holds fewer than 4 tags and a tag is free. -/
def issueScan : Nat → State → State
  | 0, s => s
  | n + 1, s =>
    match s.xb.scan with
    | none => s
    | some k =>
      match k.left with
      | [] => s
      | i :: is =>
        if k.open_ < 4 ∧ tagsUsed s < 16 then
          let e := xbScanItem i s
          let s1 := { s with xb := { s.xb with
            scan := some { k with left := is, open_ := k.open_ + 1 } } }
          let addr := be32 e 4 % 2 ^ 24
          let s2 :=
            match findWindow (u8 e 1) addr (u8 e 2) s1 with
            | none => landScan i 4 [] s1
            | some w =>
              if slotPresent (u8 e 1) s1 then
                xbJoin { winReq 3 (u8 e 1) addr (u8 e 2) w (.scan i) s1 with tag := true } s1
              else landScan i 3 [] s1
          issueScan n s2
        else s

/-- An XB_SCAN action: starts a scan, or counts an overrun (R698). -/
def actionScan (s : State) : State :=
  match s.xb.scan with
  | some _ => { s with xb := { s.xb with
      scanOverrun := satInc s.xb.scanOverrun, int := setBit s.xb.int 5 } }
  | none => issueScan 64 { s with xb := { s.xb with
      scan := some { left := scanItems s, open_ := 0, err := 0 } } }

/-- XB_SCAN_COMPLETE: the last item has completed or failed (R700). -/
def execXbScanComplete (s : State) : Host.Outcome State Fault Refusal :=
  match s.xb.scan with
  | none => .next s
  | some k =>
    if k.left.isEmpty ∧ k.open_ = 0 then
      .next { s with xb := { s.xb with scan := none, scanErr := k.err, scanSeq := s.xb.scanSeq + 1 } }
    else .next s

/-! ### Reads and writes of requesters -/

/-- Is an access whole within a prefetch buffer that may serve it now (R690)? -/
def bufServes (slot addr len w : Nat) (s : State) : Option XbBuf :=
  let waits := (s.xb.queue.any (fun r => r.posted && r.slot == slot)) ||
    (match s.xb.cur with
     | some c => c.req.posted && c.req.slot == slot
     | none => false)
  if waits then none
  else s.xb.bufs.find? (fun b => b.slot == slot && b.win == w && decide (b.addr ≤ addr) &&
    decide (addr + len ≤ b.addr + b.bytes.length) && decide (localNow s < b.filledAt + 4000))

/-- A far read of a requester that uses windows (R668, R690, R718): served from a buffer, failed at
once, or queued. -/
def farRead (who : BitVec 4) (slot addr len : Nat) (dest : XbDest) (s : State) : State :=
  match findWindow slot addr len s with
  | none => finishReq { bareReq who slot addr len dest with id := s.xb.nextId } 4 addr []
      { s with xb := { s.xb with nextId := s.xb.nextId + 1 } }
  | some w =>
    let tagged := match dest with
      | .pickup _ => false
      | _ => true
    let r : XbReq := { winReq who slot addr len w dest s with tag := tagged }
    let s1 := { s with xb := { s.xb with nextId := s.xb.nextId + 1 } }
    if slotPresent slot s = false then finishReq { r with id := s.xb.nextId } 3 addr [] s1
    else
      match (if r.quiet then bufServes slot addr len w s else none) with
      | some b => finishReq { r with id := s.xb.nextId } 0 addr (slice b.bytes (addr - b.addr) len) s1
      | none => xbJoin r s

/-- The open entry of an SPI WRITE joins the queue (R680). -/
def closeGather (s : State) : State :=
  match s.xb.gather with
  | none => s
  | some r => acceptPosted r { s with xb := { s.xb with gather := none } }

/-- What the bridge answers to one SPI word written to the card bus. -/
inductive GatherRes where
  | ok | noWindow | full
  deriving DecidableEq, Repr

/-- One SPI word at a far address (R75, R680, R683): it joins the open entry of its 64-byte block, or
opens a new one. -/
def gatherWord (slot addr : Nat) (w : Word) (s : State) : GatherRes × State :=
  match findWindow slot addr 4 s with
  | none => (.noWindow, s)
  | some k =>
    if winPosted (xbWindow k s) = false then (.noWindow, s)
    else
      let fresh : XbReq := { winReq 0 slot addr 4 k .none s with write := true, posted := true }
      let far := swapBytes fresh.swap (toLE 4 w.toNat)
      match s.xb.gather with
      | some r =>
        if r.slot = slot ∧ r.win = k ∧ r.addr + r.len = addr ∧ r.addr / 64 = addr / 64 then
          (.ok, { s with xb := { s.xb with
            gather := some { r with len := r.len + 4, bytes := r.bytes ++ far } } })
        else
          let s1 := closeGather s
          if postedUsed s1 < 32 then
            (.ok, { s1 with xb := { s1.xb with gather := some { fresh with bytes := far } } })
          else (.full, s1)
      | none =>
        if postedUsed s < 32 then
          (.ok, { s with xb := { s.xb with gather := some { fresh with bytes := far } } })
        else (.full, s)

/-- Blocks of 64 bytes of a write: address and bytes of each (R679). -/
def cutBlocks : Nat → Nat → List Byte → List (Nat × List Byte)
  | 0, _, _ => []
  | f + 1, a, l =>
    if l.isEmpty then []
    else
      let k := 64 - a % 64
      (a, l.take k) :: cutBlocks f (a + k) (l.drop k)

/-- Accepts the posted entries of an access frame's WRITE in ascending order (R681). -/
def acceptBlocks (r : XbReq) : List (Nat × List Byte) → State → State
  | [], s => s
  | (a, bs) :: rest, s =>
    acceptBlocks r rest (acceptPosted { r with addr := a, len := bs.length, bytes := bs } s)

/-! ### Transactions (R661 to R666, R673, R674) -/

/-- May a request be served in the present ladder state? In HOLD the reads of the bridge itself
wait until PLAY (R719). -/
def servable (r : XbReq) (s : State) : Bool :=
  s.pwr.ladder == .play ||
    (match r.dest with
     | .ident | .announce | .poll => false
     | _ => true)

/-- Slots whose requests reach the bus: PRESENT ones, and the one being enumerated. -/
def reachable (r : XbReq) (s : State) : Bool :=
  slotPresent r.slot s || (r.dest == .ident && (xbSlot r.slot s).st == .enumerating)

/-- The first queued request that may be served, and the queue without it. -/
def takeServable : List XbReq → State → Option (XbReq × List XbReq)
  | [], _ => none
  | r :: rs, s =>
    if servable r s then some (r, rs)
    else (takeServable rs s).map (fun p => (p.1, r :: p.2))

/-- Does the card bus run (R720)? -/
def cardBusRuns (s : State) : Bool :=
  coreUp s && (s.pwr.ladder == .play || s.pwr.ladder == .hold)

/-- XB_TRANSACTION_START: the idle bus starts the next burst (R673, R674); a request of a slot that is
not PRESENT completes without bus activity (R718), and one of no bytes completes in its turn (R704). -/
def execXbTransactionStart (s : State) : Host.Outcome State Fault Refusal :=
  if cardBusRuns s = false then .next s
  else
    match s.xb.cur with
    | some c =>
      match c.burst, c.todo with
      | none, b :: bs => .next { s with xb := { s.xb with cur := some { c with burst := some b, todo := bs } } }
      | _, _ => .next s
    | none =>
      match takeServable s.xb.queue s with
      | none => .next s
      | some (r, rest) =>
        if localNow s < r.joined + 8 then .next s
        else
          let s1 := { s with xb := { s.xb with queue := rest } }
          if reachable r s = false then .next (issueScan 64 (refillPosted (finishReq r 3 r.addr [] s1)))
          else
            match burstsOf r with
            | [] => .next (refillPosted (finishReq r 0 r.addr [] s1))
            | b :: bs => .next { s1 with xb := { s1.xb with
                cur := some { req := r, todo := bs, burst := some b, got := [], pre := [] } } }

/-- Stores a prefetch in the least recently filled buffer (R689). -/
def keepPrefetch (c : XbCur) (s : State) : State :=
  if c.pre.isEmpty then s
  else
    let b : XbBuf :=
      { slot := c.req.slot, win := c.req.win, addr := c.req.addr + c.req.len, bytes := c.pre,
        filledAt := localNow s }
    { s with xb := { s.xb with
      bufs := (if s.xb.bufs.length < 4 then s.xb.bufs else s.xb.bufs.drop 1) ++ [b] } }

/-- The request on the bus is over. -/
def endCur (s : State) : State :=
  issueScan 64 (refillPosted { s with xb := { s.xb with cur := none } })

/-- XB_TRANSACTION_END: the last beat of a burst completes (R663, R666, R686). -/
def execXbTransactionEnd (data : List Byte) (s : State) : Host.Outcome State Fault Refusal :=
  match s.xb.cur with
  | none => .next s
  | some c =>
    match c.burst with
    | none => .next s
    | some (_, len, pre) =>
      let d := if c.req.write then [] else padTo len (data.take len)
      if pre then
        let c1 := { c with burst := none, pre := c.pre ++ d }
        match c.todo with
        | [] => .next (endCur (keepPrefetch c1 s))
        | _ :: _ => .next { s with xb := { s.xb with cur := some c1 } }
      else
        let c1 := { c with burst := none, got := c.got ++ d }
        match c.todo with
        | (_, _, false) :: _ => .next { s with xb := { s.xb with cur := some c1 } }
        | [] => .next (finishReq c.req 0 c.req.addr c1.got (endCur s))
        | (_, _, true) :: _ =>
          .next (finishReq c.req 0 c.req.addr c1.got
            { s with xb := { s.xb with
              cur := some { c1 with req := { c.req with dest := .none, tag := false } } } })

/-- Counts a failed transaction of a slot (Table 12-14). -/
def countFailed (i code : Nat) (s : State) : State :=
  updSlot i (fun k => { k with
    errCnt := satInc k.errCnt,
    timeoutCnt := if code = 1 then satInc k.timeoutCnt else k.timeoutCnt }) s

/-- The burst on the bus ends with a code after some beats (R664, R665, R687, R692, R695). -/
def failBurst (code beats : Nat) (s : State) : State :=
  match s.xb.cur with
  | none => s
  | some c =>
    match c.burst with
    | none => s
    | some (a, _, pre) =>
      let s1 := countFailed c.req.slot code s
      if pre then endCur (keepPrefetch c s1)
      else finishReq c.req code (a + 2 * beats) [] (endCur s1)

/-- XB_CARD_ERR: XB_ERR_N is sampled low (R664). -/
def execXbCardErr (beats : Nat) (s : State) : Host.Outcome State Fault Refusal :=
  .next (failBurst 2 beats s)

/-- XB_BEAT_TIMEOUT: a beat stays incomplete for TIMEOUT cycles (R665). -/
def execXbBeatTimeout (beats : Nat) (s : State) : Host.Outcome State Fault Refusal :=
  .next (failBurst 1 beats s)

/-! ### Presence (R711 to R718) -/

/-- Ends queued requests of a slot with ABSENT, in queue order (R717). -/
def flushSlot (i : Nat) : List XbReq → State → State
  | [], s => s
  | r :: rs, s => flushSlot i rs (if r.slot = i then finishReq r 3 r.addr [] s else s)

/-- A slot enters ABSENT (R717). -/
def slotAbsent (i : Nat) (s : State) : State :=
  let was := (xbSlot i s).st
  let s0 := if was = .present then raise .xbSlotOut (BitVec.ofNat 32 i) s else s
  let s1 := dropSlotBufs i (updSlot i (fun k => { k with st := .absent, ids := List.replicate 8 0 }) s0)
  let mine := s1.xb.queue.filter (fun r => r.slot == i)
  let s2 := { s1 with xb := { s1.xb with
    queue := s1.xb.queue.filter (fun r => r.slot != i),
    enumOrder := s1.xb.enumOrder.filter (fun k => k != i) } }
  refillPosted (flushSlot i mine s2)

/-- XB_CARD_REMOVED: presence is lost during a transaction, which ends with REMOVED (R716). -/
def execXbCardRemoved (beats : Nat) (s : State) : Host.Outcome State Fault Refusal :=
  match s.xb.cur with
  | none => .next s
  | some c =>
    if c.burst.isSome then .next (slotAbsent c.req.slot (updSlot c.req.slot
      (fun k => { k with prs := false }) (failBurst 5 beats s)))
    else .next s

/-- Does presence count in the present state (R711)? -/
def presenceSampled (s : State) : Bool := coreUp s && s.pwr.ladder != .seal

/-- XB_PRESENCE_DEBOUNCED: XB_PRS_N has been stable for 20 ms (R711, R712, R716). -/
def execXbPresenceDebounced (slot : Fin 8) (low : Bool) (s : State) :
    Host.Outcome State Fault Refusal :=
  let i := slot.val
  if presenceSampled s = false then .next s
  else
    let s1 := updSlot i (fun k => { k with prs := low, prsDeb := low }) s
    if low then
      (if (xbSlot i s).st = .absent then
        let s2 := updSlot i (fun k => { k with st := .queued }) s1
        .next { s2 with xb := { s2.xb with enumOrder := s2.xb.enumOrder ++ [i] } }
       else .next s1)
    else if (xbSlot i s).st = .absent then .next s1
    else
      .next (slotAbsent i
        (match s1.xb.cur with
         | some c => if c.req.slot = i ∧ c.burst.isSome then failBurst 5 0 s1 else s1
         | none => s1))

/-- XB_ENUMERATE_START: in PLAY with a Position running, the ID block of the next QUEUED slot is read
(R712, R713). -/
def execXbEnumerateStart (s : State) : Host.Outcome State Fault Refusal :=
  if boardRuns s && !s.xb.slots.any (fun k => k.st == .enumerating) then
    match s.xb.enumOrder with
    | [] => .next s
    | i :: is =>
      .next (xbJoin (bareReq 5 i 0 32 .ident)
        (updSlot i (fun k => { k with st := .enumerating }) { s with xb := { s.xb with enumOrder := is } }))
  else .next s

/-- XB_CMD ENUMERATE re-queues a PRESENT or ID_ERR slot (R715). -/
def enumerateSlot (i : Nat) (s : State) : State :=
  let st := (xbSlot i s).st
  if st = .present ∨ st = .idErr then
    let s1 := dropSlotBufs i (updSlot i (fun k => { k with st := .queued }) s)
    { s1 with xb := { s1.xb with enumOrder := s1.xb.enumOrder ++ [i] } }
  else { s with xb := { s.xb with cmdErr := true } }

/-- ENUMERATE (R715). -/
def execEnumerate (slot : Fin 8) (s : State) : Host.Outcome State Fault Refusal :=
  .next (ifCore (enumerateSlot slot.val) s)

/-- XB_CMD INVALIDATE_PREFETCH: every prefetch buffer goes. -/
def invalidateBufs (s : State) : State := { s with xb := { s.xb with bufs := [] } }

/-- INVALIDATE_PREFETCH (R691). -/
def execInvalidatePrefetch (s : State) : Host.Outcome State Fault Refusal := .next (ifCore invalidateBufs s)

/-! ### Interrupts (R702 to R709) -/

/-- XB_INT_ASSERT: XB_INT_N of a slot is sampled low after high. In MESSAGE mode, with the slot PRESENT
and the fabric running, that is an assertion (R702, R719). -/
def execXbIntAssert (slot : Fin 8) (ageNs : Nat) (s : State) : Host.Outcome State Fault Refusal :=
  let i := slot.val
  let s1 := updSlot i (fun k => { k with intLow := true }) s
  if boardRuns s && slotIntMode i s == 1 && slotPresent i s then .next (assertInt i (stampAgo ageNs s) s1)
  else .next s1

/-- XB_POLL: POLL_US expires and the status word of a POLLED slot is read (R708). -/
def execXbPoll (slot : Fin 8) (s : State) : Host.Outcome State Fault Refusal :=
  let i := slot.val
  if boardRuns s && slotIntMode i s == 2 && slotPresent i s && due (xbSlot i s).pollDue s then
    .next (xbJoin (bareReq 5 i (slotPollAddr i s) 2 .poll)
      (updSlot i (fun k => { k with pollDue := localNow s + slotPollUs i s * 250 }) s))
  else .next s

/-! ### The posted-write error log (R726) -/

/-- The word of a log entry (Table 12-14). -/
def werrWord (e : XbWerr) : Word :=
  BitVec.ofNat 32 (2 ^ 31 + e.who.toNat * 2 ^ 24 + e.slot.toNat * 2 ^ 16 + e.code.toNat)

/-- The word that a read of XB_WERR_FIFO or XB_WERR_PEEK returns. -/
def werrHead (s : State) : Word :=
  match s.xb.werr with
  | [] => 0
  | e :: _ => werrWord e

/-- A read of XB_WERR_FIFO or _PEEK: the entry's address is loaded, and the FIFO pops it. -/
def werrRead (pop : Bool) (s : State) : State :=
  match s.xb.werr with
  | [] => s
  | e :: es => { s with xb := { s.xb with werrAddr := e.addr, werr := if pop then es else e :: es } }

/-- XB_WERR_FIFO_READ (R726). -/
def execXbWerrFifoRead (s : State) : Host.Outcome State Fault Refusal :=
  .next (ifCore (werrRead true) s)

/-- XB_WERR_PEEK_READ (R726). -/
def execXbWerrPeekRead (s : State) : Host.Outcome State Fault Refusal :=
  .next (ifCore (werrRead false) s)

/-! ### Reopening, swap, reset and ADJOURN (R694, R719 to R722) -/

/-- Ends open reads and non-posted writes with ABORTED, in queue order (R721). -/
def abortReads : List XbReq → State → State
  | [], s => s
  | r :: rs, s => abortReads rs (if r.posted then s else finishReq r 6 r.addr [] s)

/-- The bridge at a Reopening: posted writes complete under the old windows, open reads end with
ABORTED, and every buffer is invalidated (R691, R721). -/
def xbReopen (s : State) : State :=
  let s1 := { s with xb := { s.xb with bufs := [], scan := none } }
  let s2 :=
    match s1.xb.cur with
    | some c => if c.req.posted then s1
                else finishReq c.req 6 c.req.addr [] { s1 with xb := { s1.xb with cur := none } }
    | none => s1
  let reads := s2.xb.queue
  let s3 := abortReads reads { s2 with xb := { s2.xb with queue := s2.xb.queue.filter (fun r => r.posted) } }
  let again := (List.range 8).filter
    (fun i => (xbSlot i s3).st == .enumerating && !s3.xb.enumOrder.contains i)
  { s3 with xb := { s3.xb with
    slots := (s3.xb.slots.map (fun k => { k with
      st := (if k.st = .enumerating then .queued else k.st), ann := none })),
    enumOrder := s3.xb.enumOrder ++ again } }

/-- XB_ORPHAN_TIMEOUT takes ORPHAN_US at an Opening and at a swap that changes BRIDGE (R694). -/
def loadOrphan (s : State) : State :=
  { s with xb := { s.xb with orphanUs := BitVec.ofNat 16 (sectionOrphanUs s) } }

end Sys2Proof.Machine
end

