-- ==== Sys2Proof/Machine/Arbiter.lean ====
section
/-!
DEFINITION. The Arbiter's cycle up to RESOLVE (spec/11, R594 to R629): inputs, variables, the serial
store, rules, orders and their resolution.
-/

namespace Sys2Proof.Machine

/-! ### The ARBITER section (Table 11-8) -/

def ruleCount (s : State) : Nat := be16 (bodyOf tyArbiter s) 0
def initCount (s : State) : Nat := be16 (bodyOf tyArbiter s) 2
def hostRank (s : State) : Nat := u8 (bodyOf tyArbiter s) 5 / 16
def frameRank (s : State) : Nat := u8 (bodyOf tyArbiter s) 5 % 16

/-- The 16 bytes of rule `i` (Table 11-4). -/
def ruleBytes (i : Nat) (s : State) : List Byte := entryOf (bodyOf tyArbiter s) 8 16 i

/-- GPIO entry of a pin. -/
def gpioEntry (i : Nat) (s : State) : List Byte :=
  entryOf (bodyOf tyArbiter s) (8 + 16 * ruleCount s + 8 * initCount s) 4 i

/-- Does the ARBITER section mark a GPIO pin as an output (R624)? -/
def gpioIsOutput (i : Nat) (s : State) : Bool := u8 (gpioEntry i s) 0 == 1

/-- Resolution mode of an output (Tables 11-7, 11-8). -/
def outputMode (o : Nat) (s : State) : Nat :=
  if o < 16 then u8 (gpioEntry o s) 1 else u8 (cardWord ((o - 16) / 16) s) 6

/-- May an order name this output (R625)? -/
def outputExists (o : Nat) (s : State) : Bool :=
  if o < 16 then gpioIsOutput o s
  else
    let w := (o - 16) / 16
    decide (o < 528) && decide (w < cardCount s) && natBit (be16 (cardWord w s) 4) ((o - 16) % 16)

/-- Microcode patches in force: ROM address and word (R654, R655). -/
def patchesInForce (s : State) : List (Nat × BitVec 64) :=
  let b := bodyOf tyUcode s
  (List.range (be32 b 4)).map (fun i =>
    let e := entryOf b 8 16 i
    (be16 e 0, BitVec.ofNat 64 (be64 e 8)))

/-! ### Variables (R605 to R608) -/

def varGet (v : Nat) (s : State) : Int := lookupD 0 v s.arb.vars

/-- Writes a variable; zero leaves the list. -/
def varPut (v : Nat) (x : Int) (s : State) : State :=
  { s with arb := { s.arb with vars :=
    (if x = 0 then dropAssoc v s.arb.vars else putAssoc v x s.arb.vars) } }

/-- Writes variables in order. -/
def varPuts : List (Nat × Int) → State → State
  | [], s => s
  | (v, x) :: r, s => varPuts r (varPut v x s)

/-- Queues a host write; the flag tells whether the queue took it (R606). -/
def queueVar (v : Nat) (w : Word) (s : State) : Bool × State :=
  if s.arb.varQueue.length < 16 then
    (true, { s with arb := { s.arb with varQueue := s.arb.varQueue ++ [(v, w.toInt)] } })
  else (false, s)

/-- Initial values of the ARBITER section; `swap` takes only those marked INIT_AT_SWAP (Table 11-8). -/
def initialVars (swap : Bool) (s : State) : List (Nat × Int) :=
  let b := bodyOf tyArbiter s
  ((List.range (initCount s)).map (fun i => entryOf b (8 + 16 * ruleCount s) 8 i)).filterMap (fun e =>
    if swap && !flagAt e 3 0 then none else some (be16 e 0, asSigned 32 (be32 e 4)))

/-! ### Subscriptions' values (R648, R650) -/

/-- Mapped variables of a subscribe block: member, type, variable, SAFE (Table 11-9). -/
def subMaps (b : Nat) (s : State) : List (Nat × Nat × Nat × Int) :=
  let e := gooseSubEntry b s
  (List.range (u8 e 1)).map (fun k =>
    let o := 16 + 8 * k
    (u8 e o, u8 e (o + 1), be16 e (o + 2), asSigned 32 (be32 e (o + 4))))

/-- The SAFE values of a subscribe block. -/
def safeValues (b : Nat) (s : State) : List (Nat × Int) := (subMaps b s).map (fun m => (m.2.2.1, m.2.2.2))

/-- What the subscribe blocks apply at LATCH: the SAFE values that a loss left waiting and the values
of a new state, blocks ascending. -/
def latchSubs : List Nat → State → State
  | [], s => s
  | b :: bs, s =>
    let u := nth .reset s.arb.subs b
    let s1 := varPuts u.pend (varPuts (if u.safe then safeValues b s else []) s)
    latchSubs bs { s1 with arb := { s1.arb with
      subs := upd (fun k => { k with pend := [], safe := false }) s1.arb.subs b } }

/-! ### Operands (Table 11-3, R602) -/

/-- Position of entry `c` among the output channels of a subscription. -/
def channelPos (c : Nat) (e : List Byte) : Option Nat := (outChannels e).findIdx? (fun k => k == c)

/-- Output of a subscription's entry in the last ring row. -/
def alnOperand (i : Nat) (s : State) : Option (Int × Nat) :=
  match channelPos (i % 16) (alnEntry (i / 16) s) with
  | none => none
  | some k => (nth .reset s.aln.subs (i / 16)).out[k]?

/-- Value of an operand reference for rule `r`, with this cycle's results so far and those of the
previous cycle. -/
def operand (ref r : Nat) (now prev : List Bool) (s : State) : Int :=
  let space := ref / 4096
  let i := ref % 4096
  let bit (b : Bool) : Int := if b then 1 else 0
  if space = 0 then varGet i s
  else if space = 1 then bit (if i < r then nth false now i else nth false prev i)
  else if space = 2 then (boxValue i s).1
  else if space = 3 then ((boxValue i s).2 : Int)
  else if space = 4 then ((alnOperand i s).map (·.1)).getD 0
  else if space = 5 then
    (match alnOperand i s with
     | some o => bit (o.2 % 4 != 1)
     | none => 0)
  else if space = 6 then bit ((nth .reset s.arb.subs i).st == .valid)
  else if space = 7 then bit (s.arb.gpioIn.getLsbD i)
  else if space = 8 then asSigned 32 (ofLE (sharedGet (4 * i) 4 s))
  else if space = 9 then bit (s.arb.xmsg.getLsbD i)
  else if space = 10 then bit (nth false s.arb.outs i)
  else if space = 14 then asSigned 12 i
  else 0

/-! ### Rules (Table 11-5) -/

/-- Integer square root: the largest r with r × r ≤ v, found bit by bit from bit `n` − 1. -/
def isqrt : Nat → Nat → Nat → Nat
  | 0, _, r => r
  | n + 1, v, r => isqrt n v (if (r + 2 ^ n) * (r + 2 ^ n) ≤ v then r + 2 ^ n else r)

/-- The last `win` values of a channel, if its group has given that many since it started (R615). -/
def window (ch win : Nat) (s : State) : Option (List Int) :=
  let h := (cnvGroup (decide (4 ≤ ch)) s).hist
  if h.length < win then none else some ((h.take win).map (fun v => nth 0 v (ch % 4)))

/-- Text of field `f` of a stored message, if its end was stored (R617). -/
def fieldText : Nat → List Byte → List Byte → Option (List Byte)
  | _, _, [] => none
  | f, acc, b :: bs =>
    if b = 0x2C ∨ b = 0x2A then
      (match f with
       | 0 => some acc.reverse
       | g + 1 => fieldText g [] bs)
    else fieldText f (b :: acc) bs

/-- Digits of a decimal with an optional point: value, decimals seen, whether any digit was seen. -/
def decimalDigits : List Byte → Nat → Nat → Bool → Bool → Option (Nat × Nat)
  | [], v, d, _, any_ => if any_ then some (v, d) else none
  | b :: bs, v, d, point, any_ =>
    if b = 0x2E then (if point then none else decimalDigits bs v d true any_)
    else if 48 ≤ b.toNat ∧ b.toNat ≤ 57 then
      decimalDigits bs (10 * v + (b.toNat - 48)) (if point then d + 1 else d) point true
    else none

/-- A field's number scaled by 10^c, truncated toward zero and saturated (R617). -/
def parseField (t : List Byte) (c : Nat) : Option Int :=
  let neg := t.head? == some 0x2D
  let body := if neg ∨ t.head? = some 0x2B then t.drop 1 else t
  (decimalDigits body 0 0 false false).map (fun r =>
    let v : Nat := r.1 * 10 ^ c / 10 ^ r.2
    satInt 32 (if neg then -(v : Int) else (v : Int)))

/-- The start character of a sentence is no part of its address field. -/
def afterStart (l : List Byte) : List Byte :=
  match l with
  | [] => []
  | b :: r => if b = 0x24 ∨ b = 0x21 then r else b :: r

/-- Comparison of CMP (Table 11-5). -/
def compareOp (sub : Nat) (a b : Int) : Bool :=
  if sub = 0 then a == b
  else if sub = 1 then a != b
  else if sub = 2 then decide (a < b)
  else if sub = 3 then decide (a ≤ b)
  else if sub = 4 then decide (a > b)
  else if sub = 5 then decide (a ≥ b)
  else (intWord a &&& intWord b) != 0

/-- Whole µs between two local instants, saturating (R611). -/
def elapsedUs (a b : Nat) : Nat := min ((b - a) * 4 / 1000) 2147483647

/-- What a rule gives: its result before NEG, its value, its state, and the count it stores. -/
structure RuleOut where
  res : Bool
  v : Int
  st : RuleSt
  count : Option (Nat × Int)
  deriving DecidableEq, Repr

/-- A logic operand of AND and OR, inverted where its SUB bit is set; NONE takes no part (R614). -/
def logicOperand (ref val : Int) (inv none_ : Bool) : Bool :=
  if ref / 4096 = 15 then none_ else (val != 0) != inv

/-- Evaluates rule `r` at local instant `now`. -/
def evalRule (b : List Byte) (r : Nat) (res prev : List Bool) (now : Nat) (st : RuleSt) (s : State) :
    RuleOut :=
  let kind := u8 b 0
  let sub := u8 b 1 / 16 % 8
  let refA := be16 b 2
  let refB := be16 b 4
  let refC := be16 b 6
  let param := be32 b 8
  let a := operand refA r res prev s
  let bv := operand refB r res prev s
  let cv := operand refC r res prev s
  let plain (x : Bool) : RuleOut :=
    { res := x, v := if x then 1 else 0, st := { st with prevA := a != 0 }, count := none }
  if kind = 0 then { res := false, v := 0, st, count := none }
  else if kind = 1 then plain (compareOp sub a bv)
  else if kind = 2 then
    let x := if a ≥ bv then true else if a < bv - param then false else st.held
    { plain x with st := { st with held := x, prevA := a != 0 } }
  else if kind = 3 then
    (if a = 0 then { res := false, v := 0, st := { st with since := none, prevA := false }, count := none }
     else
       let t0 := st.since.getD now
       let e := elapsedUs t0 now
       { res := decide (param ≤ e), v := e, st := { st with since := some t0, prevA := true },
         count := none })
  else if kind = 4 then
    (if a ≠ 0 then { res := true, v := 0, st := { st with fell := none, prevA := true }, count := none }
     else
       let f := if st.prevA then some now else st.fell
       match f with
       | none => { res := false, v := 0, st := { st with prevA := false }, count := none }
       | some t =>
         let e := elapsedUs t now
         { res := decide (e < param), v := e, st := { st with fell := some t, prevA := false },
           count := none })
  else if kind = 5 then
    let c0 := varGet (refC % 4096) s
    let c1 := if a ≠ 0 ∧ st.prevA = false then (if c0 < 2147483647 then c0 + 1 else 2147483647) else c0
    let c2 := if bv ≠ 0 then 0 else c1
    { res := decide (c2 ≥ param), v := c2, st := { st with prevA := a != 0 },
      count := some (refC % 4096, c2) }
  else if kind = 6 then
    plain (logicOperand refA a (natBit sub 0) true && logicOperand refB bv (natBit sub 1) true &&
      logicOperand refC cv (natBit sub 2) true)
  else if kind = 7 then
    plain (logicOperand refA a (natBit sub 0) false || logicOperand refB bv (natBit sub 1) false ||
      logicOperand refC cv (natBit sub 2) false)
  else if kind = 8 ∨ kind = 9 then
    (match window (refA % 4096) refC s with
     | none => { res := false, v := 0, st := { st with prevA := a != 0 }, count := none }
     | some l =>
       let x : Nat :=
         if kind = 8 then isqrt 24 ((l.foldl (fun t c => t + c.natAbs * c.natAbs) 0) / max 1 refC) 0
         else l.foldl (fun t c => max t c.natAbs) 0
       { res := decide (param ≤ x), v := x, st := { st with prevA := a != 0 }, count := none })
  else
    let m : StoreSlot := nth { bytes := [], len := 0, isNew := false } s.arb.store a.toNat
    let p :=
      if m.isNew then (fieldText bv.toNat [] (afterStart m.bytes)).bind (fun t => parseField t refC)
      else none
    match p with
    | some x => { res := true, v := x, st := { st with lastV := x }, count := none }
    | none => { res := false, v := st.lastV, st, count := none }

/-- Does an action's mode take it in this cycle (R619)? -/
def actionTaken (mode : Nat) (res was : Bool) : Bool :=
  if mode = 0 then res
  else if mode = 1 then res && !was
  else if mode = 2 then !res && was
  else true

/-- What EVALUATE has gathered so far. -/
structure EvalAcc where
  results : List Bool
  states : List RuleSt
  orders : List Order
  acts : List PendAct
  deriving DecidableEq, Repr

/-- One rule of EVALUATE: its result, its variables, and what its action adds (R605, R619 to R621). A
patched evaluator gives a result that no user document states (R653, log entry 24). -/
def evalOne (r now : Nat) (acc : EvalAcc) (s : State) : EvalAcc × State :=
  let b := ruleBytes r s
  let prev := s.arb.results
  let st := nth .reset s.arb.rules r
  let o0 := evalRule b r acc.results prev now st s
  let ps := patchesInForce s
  let o : RuleOut :=
    if ps.isEmpty then o0
    else
      let q := Config.patchedRule ps b (s.free + r)
      { o0 with res := q.1, v := q.2 }
  let res := o.res != flagAt b 1 0
  let was := nth false prev r
  let act := u8 b 12 % 64
  let mode := u8 b 12 / 64
  let taken := actionTaken mode res was
  let s1 :=
    match o.count with
    | some (v, x) => varPut v x s
    | none => s
  let p := u8 b 13
  let target := be16 b 14
  let s2 := if taken ∧ act = 2 then varPut target o.v s1 else s1
  let ord : List Order :=
    if taken ∧ act = 1 then
      [{ output := target, value := if mode = 3 then res else natBit p 0, rank := p / 16 }]
    else []
  let pend : List PendAct :=
    if taken ∧ act ≠ 0 ∧ act ≠ 1 ∧ act ≠ 2 then [{ rule := r, code := act, p, target }] else []
  ({ results := acc.results ++ [res], states := acc.states ++ [o.st], orders := acc.orders ++ ord,
     acts := acc.acts ++ pend }, s2)

/-- EVALUATE: the rules in index order (Table 11-2). -/
def evalRules (now : Nat) : Nat → Nat → EvalAcc → State → EvalAcc × State
  | 0, _, acc, s => (acc, s)
  | n + 1, r, acc, s =>
    let x := evalOne r now acc s
    evalRules now n (r + 1) x.1 x.2

/-! ### RESOLVE (R628, R629) -/

/-- Value of the highest-ranked orders if they agree; otherwise the output keeps its value. -/
def byRank (os : List Order) (keep : Bool) : Bool :=
  let top := os.foldl (fun m o => max m o.rank) 0
  let best := os.filter (fun o => o.rank == top)
  if best.all (fun o => o.value) then true else if best.all (fun o => !o.value) then false else keep

/-- Outcome of the orders of one output, and whether they disagree (Table 11-7). -/
def resolveOne (mode : Nat) (keep : Bool) (os : List Order) : Bool × Bool :=
  if os.isEmpty then (keep, false)
  else if os.all (fun o => o.value) then (true, false)
  else if os.all (fun o => !o.value) then (false, false)
  else
    (if mode = 0 then false else if mode = 1 then true else if mode = 2 then byRank os keep else keep,
     true)

/-- Records a disagreement (R629). -/
def noteConflict (o : Nat) (s : State) : State :=
  raise .arbConflict (BitVec.ofNat 32 o)
    { s with arb := { s.arb with
      conflictCnt := satInc s.arb.conflictCnt,
      lastConflict := BitVec.ofNat 18 (outputMode o s * 65536 + o) } }

/-- Resolves the outputs from `o` on; answers their values. -/
def resolveFrom (os : List Order) : Nat → List Bool → State → List Bool × State
  | _, [], s => ([], s)
  | o, k :: ks, s =>
    let r := resolveOne (outputMode o s) k (os.filter (fun x => x.output == o))
    let t := resolveFrom os (o + 1) ks (if r.2 then noteConflict o s else s)
    (r.1 :: t.1, t.2)

/-! ### A cycle from its trigger to the end of RESOLVE -/

/-- Counts a trigger that starts no cycle (R599). -/
def arbOverrun (s : State) : State :=
  raise .arbOverrun 0 { s with arb := { s.arb with overrunCnt := satInc s.arb.overrunCnt } }

/-- Is the previous cycle still open, or the trigger too early (R598, R599)? `t` is the trigger
instant in ns. -/
def cycleBusy (t : Nat) (s : State) : Bool :=
  s.arb.cyc.isSome || decide (localNow s < s.arb.busyUntil) || !s.arb.cardWait.isEmpty ||
    (match s.arb.lastTrig with
     | some u => decide (u ≤ t ∧ t - u < 50000)
     | none => false)

/-- LATCH: host variable writes in arrival order, then the subscriptions' values; the GPIO levels are
copied (Table 11-2, R603, R606). -/
def latchInputs (gpio : BitVec 16) (s : State) : State :=
  let s1 := varPuts s.arb.varQueue { s with arb := { s.arb with varQueue := [], gpioIn := gpio } }
  latchSubs (List.range 128) s1

/-- A control cycle from LATCH through RESOLVE (R594 to R629). Its outcome waits for A. -/
def runCycle (secs : BitVec 48) (ns : BitVec 30) (gpio : BitVec 16) (s : State) : State :=
  let s1 := latchInputs gpio s
  let n := ruleCount s1
  let now := localNow s1
  let e := evalRules now n 0 { results := [], states := [], orders := [], acts := [] } s1
  let s2 := e.2
  let orders := e.1.orders ++ s2.arb.ordersSpi ++ s2.arb.ordersFrame
  let r := resolveFrom orders 0 s2.arb.outs s2
  let s3 := r.2
  { s3 with
    free := s3.free + n,
    arb := { s3.arb with
      cycleSeq := s3.arb.cycleSeq + 1, lastS := secs.setWidth 32, lastTq := tqNow s, lastNs := ns,
      results := e.1.results, rules := e.1.states, ordersSpi := [], ordersFrame := [], xmsg := 0,
      store := s3.arb.store.map (fun m => { m with isNew := false }),
      lastTrig := some (secs.toNat * 1000000000 + ns.toNat),
      cyc := some { secs, ns, tq := tqNow s,
                    applyAt := now + cyclesUntil (secs.toNat * 1000000000 + ns.toNat) (256 + 8 * n) s,
                    outs := r.1, acts := e.1.acts } } }

/-- An ARB_CYCLE action: starts a cycle, or counts an overrun (R594, R599). -/
def actionArb (secs : BitVec 48) (ns : BitVec 30) (gpio : BitVec 16) (s : State) : State :=
  if cycleBusy (secs.toNat * 1000000000 + ns.toNat) s then arbOverrun s else runCycle secs ns gpio s

/-! ### Host orders (R625 to R627) -/

/-- Adds a host order; a later one for the same output replaces an earlier one not yet resolved. -/
def putOrder (o : Order) (l : List Order) : List Order := l.filter (fun x => x.output != o.output) ++ [o]

/-- A write of ARB_OUT_CMD (R625, R626). -/
def arbOutCmd (val : Word) (frame : Bool) (s : State) : State :=
  let out := fld val 9 0
  let o : Order := { output := out, value := val.getLsbD 16,
                     rank := if frame then frameRank s else hostRank s }
  if outputExists out s = false then { s with arb := { s.arb with cmdErr := true } }
  else if frame then { s with arb := { s.arb with ordersFrame := putOrder o s.arb.ordersFrame } }
  else { s with arb := { s.arb with ordersSpi := putOrder o s.arb.ordersSpi } }

/-- ARB_OUT_CMD (R626). -/
def execArbOutCmd (val : Word) (frame : Bool) (s : State) : Host.Outcome State Fault Refusal :=
  .next (ifCore (arbOutCmd val frame) s)

/-! ### The serial store (R609, R610) -/

/-- Hashed serial routes whose mask includes AB, ascending; slot k belongs to the k-th. -/
def storeRoutes (s : State) : List Nat :=
  (List.range 4096).filter (fun i =>
    let e := routeEntry i s
    u8 e 40 == 1 && keyKind (be64 e 0) == 1 && natBit (be16 e 8) 11)

/-- A serial message delivered to AB (R610). -/
def serialStore (routeId : Nat) (bytes : List Byte) (s : State) : State :=
  match (storeRoutes s).findIdx? (fun i => i == routeId) with
  | some k =>
    let m : StoreSlot := { bytes := bytes.take 128, len := bytes.length, isNew := true }
    { s with arb := { s.arb with
      store := upd (fun _ => m)
        (s.arb.store ++ List.replicate (64 - s.arb.store.length) { bytes := [], len := 0, isNew := false })
        k } }
  | none => { s with arb := { s.arb with storeMissCnt := satInc s.arb.storeMissCnt } }

/-- An XM message delivered to AB sets its XMSG bit (Table 11-3). -/
def xmToArb (bytes : List Byte) (s : State) : State :=
  { s with arb := { s.arb with xmsg := setBit s.arb.xmsg (8 * u8 bytes 0 + u8 bytes 1) } }

end Sys2Proof.Machine
end

