-- ==== Sys2Proof/Machine/Goose.lean ====
section
/-!
DEFINITION. The GOOSE engine (spec/11, R640 to R650): publishing, retransmission, and subscribed frames
delivered to AB. The tags of the goosePdu are those of IEC 61850-8-1 (log entry 20).
-/

namespace Sys2Proof.Machine

/-! ### Publish blocks (Table 11-9) -/

def pubEnabled (b : Nat) (s : State) : Bool := flagAt (goosePubEntry b s) 0 0

def pubAt (b : Nat) (s : State) : GoosePub := nth .reset s.arb.pubs b

def updPub (b : Nat) (f : GoosePub → GoosePub) (s : State) : State :=
  { s with arb := { s.arb with pubs := upd f s.arb.pubs b } }

/-- A string: a length byte, then the characters. -/
def goStr (e : List Byte) (o : Nat) : List Byte := slice e (o + 1) (u8 e o)

/-- Value of a member of a type (R640). -/
def memberVal (ty : Nat) (v : Int) : Int :=
  if ty = 0 then (if v = 0 then 0 else 1)
  else if ty = 1 then v
  else if ty = 2 then v % 4
  else v % 8192

/-- Types of the members of a block. -/
def pubTypes (e : List Byte) : List Nat := (List.range (u8 e 1)).map (fun i => u8 e (16 + 4 * i))

/-- Values of the members of a block now. -/
def pubValues (b : Nat) (s : State) : List Int :=
  let e := goosePubEntry b s
  (List.range (u8 e 1)).map (fun i =>
    memberVal (u8 e (16 + 4 * i)) (varGet (be16 e (18 + 4 * i)) s))

/-- One member of allData. -/
def memberBytes (ty : Nat) (v : Int) : List Byte :=
  if ty = 0 then berOut 0x83 [if v = 0 then 0 else 1]
  else if ty = 1 then berOut 0x85 (berIntBytes 4 v)
  else if ty = 2 then berOut 0x84 [6, BitVec.ofNat 8 (v.toNat * 64)]
  else berOut 0x84 (3 :: toBE 2 (v.toNat * 8))

/-- TimeQuality octet of now (Table 5-6, R289). Without a TIME section no TimeAccuracy is stated: it is
free (log entry 5). -/
def timeQuality (s : State) : Byte :=
  let leap : Nat := if (activeDomain s).gm.flags.getLsbD 5 then 128 else 0
  BitVec.ofNat 8 (leap +
    (if tqNow s = 0 then 32 + 31
     else if hasSect tyTime s then u8 (clockEntry s) 20 % 32
     else (Config.freeByte s.free).toNat % 32))

/-- t as UtcTime: seconds, 24-bit fraction rounded down, quality. -/
def utcBytes (t : Stamp) (q : Byte) : List Byte :=
  toBE 4 t.secs.toNat ++ toBE 3 (t.ns.toNat * 16777216 / 1000000000) ++ [q]

/-- Interval to the next transmission after `k` retransmissions, in ms (R642). -/
def pubInterval (e : List Byte) (k : Nat) : Nat :=
  let v := be16 e 8 * 2 ^ min k 20
  if v < be16 e 10 then v else be16 e 10

/-- The frame of a block (R643, R644). -/
def gooseFrame (b : Nat) (s : State) : List Byte :=
  let e := goosePubEntry b s
  let p := pubAt b s
  let vals := p.held.getD []
  let sim := flagAt e 0 1
  apduFrame (templateEntry (be16 e 2) s) 0x88B8 sim (berOut 0x61
    (berOut 0x80 (goStr e 80) ++ berOut 0x81 (berUInt (2 * pubInterval e p.k)) ++
      berOut 0x82 (goStr e 144) ++ berOut 0x83 (goStr e 208) ++ berOut 0x84 (utcBytes p.stamp p.quality) ++
      berOut 0x85 (berUInt p.stNum.toNat) ++ berOut 0x86 (berUInt p.sqNum.toNat) ++
      berOut 0x87 [if sim then 1 else 0] ++ berOut 0x88 (berUInt (be32 e 4)) ++ berOut 0x89 [0] ++
      berOut 0x8A (berUInt vals.length) ++
      berOut 0xAB ((pubTypes e).zip vals |>.flatMap (fun x => memberBytes x.1 x.2))))

/-- Hands the frame of a block to the AB port, `j` times 256 ns from now (R597, R642). -/
def sendGoose (b j : Nat) (s : State) : State :=
  let e := goosePubEntry b s
  let m := internalMsg .goose 11 0 b (gooseFrame b s) 0x88B8 (tplTagMode (templateEntry (be16 e 2) s) == 2) s
  let m1 := { m with stamp := { m.stamp with
                       ns := BitVec.ofNat 30 ((m.stamp.ns.toNat + 256 * j) % 1000000000),
                       secs := m.stamp.secs + BitVec.ofNat 48 ((m.stamp.ns.toNat + 256 * j) / 1000000000) },
                     origin := m.origin + 64 * j }
  enterBoard m1 (updPub b (fun p => { p with
    txCnt := satInc p.txCnt, due := some (localNow s + 64 * j + pubInterval e p.k * 250000) }) s)

/-- Does a block have a new state to publish (R641)? -/
def pubChanged (b : Nat) (s : State) : Bool := pubEnabled b s && (pubAt b s).held != some (pubValues b s)

/-- GOOSE_NEW_STATE: new states of the listed blocks, each 256 ns after the one before it (R597, R641). -/
def newStates : List Nat → Nat → State → State
  | [], _, s => s
  | b :: bs, j, s =>
    newStates bs (j + 1) (sendGoose b j (updPub b (fun p => { p with
      stNum := p.stNum + 1, sqNum := 0, held := some (pubValues b s), stamp := stampNow s,
      quality := timeQuality s, k := 0 }) (drawn s)))

/-- A retransmission of the held state (R642, R645). -/
def retransmit (b : Nat) (restart : Bool) (s : State) : State :=
  sendGoose b 0 (updPub b (fun p => { p with
    sqNum := if p.sqNum = BitVec.allOnes 32 then 1 else p.sqNum + 1,
    k := if restart then 0 else p.k + 1 }) s)

/-- GOOSE_RETRANSMIT (R642). -/
def execGooseRetransmit (block : Fin 32) (s : State) : Host.Outcome State Fault Refusal :=
  .next
    (if boardRuns s && pubEnabled block s && (pubAt block s).held.isSome && dueOpt (pubAt block s).due s then
      retransmit block false s
    else s)

/-- On return to PLAY every block with a held state sends it (R645). -/
def gooseResume (s : State) : State :=
  ((List.range 32).filter (fun b => pubEnabled b s && (pubAt b s).held.isSome)).foldl
    (fun t b => retransmit b true t) s

/-! ### Subscribe blocks (R646 to R650) -/

def subEnabled (b : Nat) (s : State) : Bool := flagAt (gooseSubEntry b s) 0 0

def subAt (b : Nat) (s : State) : GooseSub := nth .reset s.arb.subs b

def updGooseSub (b : Nat) (f : GooseSub → GooseSub) (s : State) : State :=
  { s with arb := { s.arb with subs := upd f s.arb.subs b } }

/-- The enabled block that a frame matches (R646). -/
def gooseMatch (appid : Nat) (ref sa : List Byte) (s : State) : Option Nat :=
  (List.range 128).find? (fun b =>
    let e := gooseSubEntry b s
    flagAt e 0 0 && be16 e 2 == appid && goStr e 80 == ref &&
      (slice e 8 6 == List.replicate 6 0 || slice e 8 6 == sa))

/-- Value of a member of a received frame, if it has the type of its map (R647). -/
def memberIn (ty : Nat) (x : Nat × List Byte) : Option Int :=
  if ty = 0 then (if x.1 = 0x83 ∧ x.2.length = 1 then some (if u8 x.2 0 = 0 then 0 else 1) else none)
  else if ty = 1 then
    (if x.1 = 0x85 ∧ 1 ≤ x.2.length ∧ x.2.length ≤ 4 then some (berIntVal x.2) else none)
  else if ty = 2 then
    (if x.1 = 0x84 ∧ x.2.length = 2 ∧ u8 x.2 0 = 6 then some ((u8 x.2 1 / 64 : Nat) : Int) else none)
  else
    (if x.1 = 0x84 ∧ x.2.length = 3 ∧ u8 x.2 0 = 3 then some ((be16 x.2 1 / 8 : Nat) : Int) else none)

/-- Values of the mapped members in map order; none where a member is missing or of another type. -/
def mappedValues (n : Nat) (items : List (Nat × List Byte)) :
    List (Nat × Nat × Nat × Int) → Option (List (Nat × Int))
  | [] => some []
  | (m, ty, v, _) :: rest =>
    if n ≤ m then none
    else
      match items[m]?, mappedValues n items rest with
      | some x, some l => (memberIn ty x).map (fun k => (v, k) :: l)
      | _, _ => none

/-- A frame without a test flag or an unreadable one is not one that the block accepts. -/
def trueAt (tag : Nat) (fs : List (Nat × List Byte)) : Bool :=
  match berFind tag fs with
  | some [b] => b != 0
  | _ => false

/-- Number held in a field, 0 where the field is absent. -/
def numAt (tag : Nat) (fs : List (Nat × List Byte)) : Nat := ofBE ((berFind tag fs).getD [])

/-- What a matched frame holds for its block, if the block does not reject it (R647). -/
def gooseAccept (b : Nat) (fs : List (Nat × List Byte)) (s : State) : Option (List (Nat × Int)) :=
  let e := gooseSubEntry b s
  if trueAt 0x89 fs ∨ numAt 0x88 fs ≠ be32 e 4 ∨ (trueAt 0x87 fs ∧ flagAt e 0 1 = false) then none
  else mappedValues (numAt 0x8A fs) (berItems ((berFind 0xAB fs).getD [])) (subMaps b s)

/-- An accepted frame: a new state, a retransmission, or an old one (R648, R649). -/
def gooseTake (b : Nat) (vals : List (Nat × Int)) (fs : List (Nat × List Byte)) (origin : Nat) (s : State) :
    State :=
  let u := subAt b s
  let st := BitVec.ofNat 32 (numAt 0x85 fs)
  let sq := BitVec.ofNat 32 (numAt 0x86 fs)
  let fresh := u.st == .waiting || u.stNum != st
  if fresh ∨ u.sqNum.toNat < sq.toNat then
    updGooseSub b (fun k => { k with
      st := .valid, stNum := st, sqNum := sq, rxCnt := satInc k.rxCnt,
      pend := if fresh then vals else k.pend,
      talDue := origin + numAt 0x81 fs * 250000 }) s
  else s

/-- GOOSE_RX: a GOOSE frame delivered to AB; `bytes` run from the destination address. -/
def gooseRx (bytes : List Byte) (tagged : Bool) (origin : Nat) (s : State) : State :=
  let body := bytes.drop (afterType tagged)
  let fs := berItems ((berFind 0x61 (berItems (body.drop 8))).getD [])
  match gooseMatch (be16 body 0) ((berFind 0x80 fs).getD []) (slice bytes 6 6) s with
  | none => { s with arb := { s.arb with gooseUnmatched := satInc s.arb.gooseUnmatched } }
  | some b =>
    match gooseAccept b fs s with
    | some vals => gooseTake b vals fs origin s
    | none =>
      let s1 := updGooseSub b (fun k => { k with errCnt := satInc k.errCnt }) s
      { s1 with arb := { s1.arb with int := setBit s1.arb.int 4 } }

/-- GOOSE_TAL_EXPIRY: the block becomes LOST (R649, R650). -/
def execGooseTalExpiry (block : Fin 128) (s : State) : Host.Outcome State Fault Refusal :=
  .next
    (if boardRuns s && (subAt block s).st == .valid && due (subAt block s).talDue s then
      raise .arbGooseLost (BitVec.ofNat 32 block)
        (updGooseSub block (fun k => { k with st := .lost, safe := flagAt (gooseSubEntry block s) 0 2 }) s)
    else s)

end Sys2Proof.Machine
end

