-- ==== Sys2Proof/Machine/Ladder.lean ====
section
/-!
DEFINITION. Requests on the ladder of states (spec/14): entry requests with their permissions, and wake
requests with takeback and the start of an exit.
-/

namespace Sys2Proof.Machine

/-! ### Codes -/

/-- PWR_STATUS.STATE of a ladder state. -/
def Ladder.code : Ladder → Nat
  | .play => 0
  | .hold => 1
  | .adjourn => 2
  | .seal => 3

/-- The ladder state of an entry code (Table 2-7). -/
def ladderOf (n : Nat) : Option Ladder :=
  if n = 1 then some .hold else if n = 2 then some .adjourn else if n = 3 then some .seal else none

/-- Sources of entry requests (Table 14-5); the number is the bit of the POWER section's FLAGS. -/
inductive EntrySrc where
  | spi | frame | arbiter
  deriving DecidableEq, Repr

def EntrySrc.bit : EntrySrc → Nat
  | .spi => 0
  | .frame => 1
  | .arbiter => 2

/-! ### Entry requests (R795 to R799) -/

/-- A commit or a verification is under way (R171, R797). -/
def stageBusy (s : State) : Bool :=
  s.pos.stage == .verifying || s.pos.stage == .preparing || s.pos.stage == .swapWait ||
    s.pos.stage == .committing

/-- Code of the state below which a target must lie: the present state, or the target of the entry in
progress. -/
def entryFloor (s : State) : Nat :=
  match s.pwr.target with
  | some t => max s.pwr.ladder.code t.code
  | none => s.pwr.ladder.code

/-- Is a request permitted (R796, R797, R857)? -/
def entryPermitted (src : EntrySrc) (n : Nat) (s : State) : Bool :=
  (ladderOf n).isSome && decide (entryFloor s < n) && decide (n ≤ s.therm.deepest.toNat) &&
    s.therm.entry.getLsbD src.bit && coreUp s && s.pwr.phase != .exiting && !stageBusy s &&
    s.sec.run.isNone

/-- Accepts a permitted request: an entry starts, or the one in progress goes on down (R799). -/
def acceptEntry (n : Nat) (s : State) : State :=
  let p := s.pwr
  if p.phase = .entering then { s with pwr := { p with target := ladderOf n } }
  else
    { s with pwr := { p with
      phase := .entering, target := ladderOf n, pnr := none, reg := .none, since := localNow s } }

/-- A write of PWR_ENTER (R795, R798). -/
def pwrEnter (src : EntrySrc) (w : Word) (s : State) : State :=
  let n := fld w 1 0
  if fld w 31 16 = 0x4C44 ∧ entryPermitted src n s then acceptEntry n s
  else { s with pwr := { s.pwr with reqErr := true } }

/-! ### Wake requests (Table 14-8, R807 to R817) -/

/-- The state whose column of Table 14-8 applies: during an entry out of PLAY that of HOLD. -/
def wakeColumn (s : State) : Ladder := if s.pwr.ladder = .play then .hold else s.pwr.ladder

/-- Is a source available in the present state? -/
def wakeAvailable (b : Nat) (s : State) : Bool :=
  match wakeColumn s with
  | .seal => b != 3 && b != 5 && b != 6
  | .adjourn => b != 5
  | _ => true

/-- Is a source enabled (R814)? -/
def wakeEnabled (b : Nat) (s : State) : Bool := b == 0 || s.pwr.wakeEn.getLsbD b

/-- Adds a cause; of causes of one cycle FIRST names the lowest bit (R816). -/
def addCause (b now : Nat) (r : WakeReg) : WakeReg :=
  { causes := setBit r.causes b,
    first := if r.first = 0xF ∨ (r.at_ = now ∧ b < r.first.toNat) then BitVec.ofNat 4 b else r.first,
    at_ := if r.first = 0xF then now else r.at_ }

/-- An exit starts, with the causes registered so far (R806, R816). -/
def startExit (src : Ladder) (afterPnr : Bool) (s : State) : State :=
  let p := s.pwr
  { s with pwr := { p with
    phase := .exiting, target := none, since := localNow s,
    wakeFrom := BitVec.ofNat 3 src.code, wakeFirst := p.reg.first, wakeCauses := p.reg.causes,
    wakeAfterPnr := afterPnr, wakeTakeback := false } }

/-- Has the entry in progress passed the point of no return of the state it is on its way to? Between two
states the instant is the implementation's: from 40 µs after ADJOURN was reached the one of SEAL has
passed (Table 14-6), before that the value is free (log entry 10). -/
def passedNext (s : State) : Bool :=
  match s.pwr.ladder with
  | .hold =>
    s.pwr.pnr.isSome || (s.xb.queue.isEmpty && s.xb.cur.isNone && Config.freeBit s.free)
  | .adjourn =>
    s.pwr.pnr == some .seal || decide (10000 ≤ localNow s - s.pwr.since) || Config.freeBit s.free
  | _ => false

/-- A takeback (R807, R808). -/
def takeback (src : Ladder) (s : State) : State :=
  let s1 := startExit src false s
  { s1 with
    pwr := { s1.pwr with wakeTakeback := true, int := setBit s1.pwr.int 1 },
    therm := { s1.therm with takebackCnt := satInc s1.therm.takebackCnt } }

/-- A wake request while an entry is in progress. -/
def wakeEntering (s : State) : State :=
  let passed := passedNext s
  let s1 := drawn s
  match s.pwr.ladder, s.pwr.target with
  | .hold, some .adjourn =>
    if passed then { s1 with pwr := { s1.pwr with pnr := some .adjourn } } else takeback .hold s1
  | .hold, some .seal => takeback (if passed then .adjourn else .hold) s1
  | .adjourn, _ =>
    if passed then { s1 with pwr := { s1.pwr with pnr := some .seal } } else takeback .adjourn s1
  | _, _ => takeback .hold s1

/-- Registers a wake request of source `b` (R807, R809, R814 to R817); it has no effect during an endgame
(R820). -/
def registerWake (b : Nat) (s : State) : State :=
  if coreUp s = false ∨ wakeEnabled b s = false ∨ wakeAvailable b s = false then s
  else
    let now := localNow s
    let s1 := { s with pwr := { s.pwr with reg := addCause b now s.pwr.reg } }
    match s.pwr.phase with
    | .steady => if s.pwr.ladder = .play then s else startExit s.pwr.ladder false s1
    | .entering => wakeEntering s1
    | .exiting =>
      { s1 with pwr := { s1.pwr with wakeCauses := s1.pwr.reg.causes, wakeFirst := s1.pwr.reg.first } }

/-- Reaches a state of an entry: the next steps follow, or the entry is over. A wake that came after the
point of no return starts the exit in this cycle (R809). -/
def reachState (l : Ladder) (s : State) : State :=
  let p := s.pwr
  let s1 := { s with pwr := { p with ladder := l, since := localNow s } }
  if p.target = some l then
    let s2 := { s1 with pwr := { s1.pwr with phase := .steady, target := none } }
    if p.reg.causes = 0 then s2 else startExit l true s2
  else s1

end Sys2Proof.Machine
end

