-- ==== Sys2Proof/Machine/ArbApply.lean ====
section
/-!
DEFINITION. APPLY (spec/11, R597 to R645): outputs, card words, policy actions, GOOSE new states and
Arbiter messages; and the drive of the GPIO balls.
-/

namespace Sys2Proof.Machine

/-! ### GPIO balls (R124, R624, R792) -/

/-- The state a FALLBACK body gives GPIO pin `i` (Table 3-5). -/
def safePin (body : List Byte) (i : Nat) : PinDrive :=
  let v := be32 body 8 / 4 ^ i % 4
  if v = 1 then .low else if v = 2 then .high else .hiZ

/-- GPIO to the fallback states of the retained copy, or high impedance without one (R124, R792). -/
def gpioFallback (s : State) : State :=
  { s with gpio :=
    match s.pos.fallback with
    | some b => (List.range 16).map (safePin b)
    | none => List.replicate 16 .hiZ }

/-- GPIO to the outputs of the Arbiter; inputs stay high impedance (R624). -/
def gpioOutputs (s : State) : State :=
  { s with gpio := (List.range 16).map (fun i =>
      if gpioIsOutput i s then (if nth false s.arb.outs i then .high else .low) else .hiZ) }

/-- Fallback states on GPIO and cards (R124). -/
def enterSafe (s : State) : State :=
  let cs := fallbackCards (s.pos.fallback.getD [])
  pushFallback cs (gpioFallback { s with pos := { s.pos with fallbackApplied := true } })

/-! ### Card words (R630 to R632) -/

/-- Image of card word `w`: its outputs, masked. -/
def cardImage (w : Nat) (outs : List Bool) (s : State) : BitVec 16 :=
  BitVec.ofNat 16 (((List.range 16).map (fun b => if nth false outs (16 + 16 * w + b) then 2 ^ b else 0)).sum)
    &&& BitVec.ofNat 16 (be16 (cardWord w s) 4)

/-- The card writes of this A, in ascending word order. -/
def cardWrites (old new : List Bool) (all : Bool) (s : State) : List CardWrite :=
  ((List.range (cardCount s)).filter (fun w =>
    all || s.arb.force.contains w || cardImage w old s != cardImage w new s)).map (fun w =>
      { slot := u8 (cardWord w s) 0, addr := be24 (cardWord w s) 1, value := cardImage w new s })

/-- Outputs at A: suppressed while FALLBACK_APPLIED is set, whole at the first A after (R632). -/
def applyOutputs (c : ArbCycle) (s : State) : State :=
  let old := s.arb.outs
  if s.pos.fallbackApplied then { s with arb := { s.arb with outs := c.outs, fallbackWas := true } }
  else
    let ws := cardWrites old c.outs s.arb.fallbackWas s
    let s1 := gpioOutputs { s with arb := { s.arb with outs := c.outs } }
    let r := pushCards 2 ws { s1 with arb := { s1.arb with fallbackWas := false, force := [] } }
    { r.2 with arb := { r.2.arb with cardWait := r.1 } }

/-! ### Policy actions (R622, R633 to R639) -/

def policyErr (s : State) : State := { s with arb := { s.arb with policyErr := true } }

/-- A castling request or decision of the Arbiter; a refused one also sets POLICY_ERR (R267, R638). -/
def castleAction (p : Nat) (s : State) : State :=
  let s0 := { s with ptp := { s.ptp with cmdErr := false } }
  let t := if p = 0 then ptpCastle s0 else ptpDecide p s0
  let t1 := { t with ptp := { t.ptp with cmdErr := t.ptp.cmdErr || s.ptp.cmdErr } }
  if t.ptp.cmdErr then policyErr t1 else t1

/-- One action of APPLY other than LADDER and MSG (Table 11-6). -/
def policyAction (a : PendAct) (s : State) : State :=
  if a.code = 3 then raise .arbUser (BitVec.ofNat 32 (a.rule * 65536 + a.target)) s
  else if a.code = 4 then
    { s with rte := { s.rte with clsOver := putAssoc a.target (BitVec.ofNat 3 a.p) s.rte.clsOver } }
  else if a.code = 5 then { s with rte := { s.rte with clsOver := dropAssoc a.target s.rte.clsOver } }
  else if a.code = 6 then resignPort a.target 0xE s
  else if a.code = 7 then reinstatePort a.target 2 s
  else if a.code = 8 then castleAction a.p s
  else s

/-- LADDER actions of one cycle: each is judged for itself, and the lowest permitted target is taken
(R639, R799). -/
def ladderActions (ps : List Nat) (s : State) : State :=
  let ok := ps.filter (fun p => entryPermitted .arbiter p s)
  let s1 := if ok.length = ps.length then s else policyErr s
  match ok with
  | [] => s1
  | p :: l => acceptEntry (l.foldl max p) s1

/-! ### Messages at A (R597, R623) -/

/-- The 48 bytes of an Arbiter message (R623), big-endian (log entry 12). -/
def arbMsgBytes (c : ArbCycle) (a : PendAct) (s : State) : List Byte :=
  toBE 4 (c.secs.toNat % 2 ^ 32) ++ toBE 4 (tqNsWord c.tq c.ns) ++ toBE 2 a.rule ++ toBE 2 a.target ++
    [0, 0, 0, 0] ++ (List.range 8).flatMap (fun i => toBE 4 (intWord (varGet (8 * a.p + i) s)).toNat)

/-- Hands over Arbiter messages, each 256 ns after the one before it. -/
def handMsgs (c : ArbCycle) : List PendAct → Nat → State → State
  | [], _, s => s
  | a :: as, j, s =>
    let m := internalMsg .arbMsg 11 1 a.target (arbMsgBytes c a s) 0 false s
    let t := m.stamp.ns.toNat + 256 * j
    let st : Stamp := { m.stamp with
      ns := BitVec.ofNat 30 (t % 1000000000), secs := m.stamp.secs + BitVec.ofNat 48 (t / 1000000000) }
    handMsgs c as (j + 1) (enterBoard { m with stamp := st, origin := m.origin + 64 * j } s)

/-- The outputs leave the fallback states when the first cycle has completed, unless a trip or a waiting
restart holds them (R155, R168, R837). -/
def firstCycleDone (s : State) : State :=
  if s.pos.awaitFirstCycle then
    { s with pos := { s.pos with
      awaitFirstCycle := false,
      fallbackApplied := s.therm.thermal || s.pos.restartPending } }
  else s

/-- APPLY of a cycle. -/
def applyCycle (c : ArbCycle) (s : State) : State :=
  let s1 := applyOutputs c { s with arb := { s.arb with cyc := none, varsAtA := s.arb.vars } }
  let s2 := (c.acts.filter (fun a => a.code ≠ 9 ∧ a.code ≠ 10)).foldl (fun t a => policyAction a t) s1
  let s3 := ladderActions ((c.acts.filter (fun a => a.code = 9)).map (·.p)) s2
  let changed := (List.range 32).filter (fun b => pubChanged b s3)
  let msgs := c.acts.filter (fun a => a.code = 10)
  let n := changed.length + msgs.length
  let s4 := handMsgs c msgs (changed.length + 1) (newStates changed 1 s3)
  firstCycleDone { s4 with arb := { s4.arb with busyUntil := localNow s + 64 * n } }

/-- ARB_APPLY: A has come (Table 11-2). -/
def execArbApply (s : State) : Host.Outcome State Fault Refusal :=
  .next
    (match s.arb.cyc with
     | some c => if fabricRuns s && due c.applyAt s then applyCycle c s else s
     | none => s)

/-! ### Host variables (R606) -/

/-- A write of ARB_VARv; `false` tells NOT_READY. -/
def arbVarWrite (v : Nat) (w : Word) (s : State) : Bool × State := queueVar v w s

/-- ARB_VAR_WRITE; it does not matter which path the write takes. -/
def execArbVarWrite (v : Fin 2048) (val : Word) (_frame : Bool) (s : State) :
    Host.Outcome State Fault Refusal :=
  .next (ifCore (fun t => (arbVarWrite v val t).2) s)

end Sys2Proof.Machine
end

