-- ==== Sys2Proof/Machine/Egress.lean ====
section
/-!
DEFINITION. Steps 8 to 10 of the path on P0 to P7, HP, AB and AL (spec/01, spec/06, spec/09, spec/10):
selection with flag fall, bundling, preemption, formatting, delivery, completion and promotion.
-/

namespace Sys2Proof.Machine

/-! ### Flag fall (R578 to R581) -/

/-- CLASS_POLICY bits of a class (Table 13-8). -/
def classPromotes (c : Nat) (s : State) : Bool := natBit (be16 (bodyOf tyMemory s) 12) c
def classMarks (c : Nat) (s : State) : Bool := natBit (be16 (bodyOf tyMemory s) 12) (8 + c)

/-- Counts and records a flag fall. -/
def noteFlagFall (e c : Nat) (m : Msg) (marked : Bool) (s : State) : State :=
  let w := BitVec.ofNat 32 (e * 2 ^ 24 + c * 65536 + m.routeId % 65536)
  let s1 := updCls c (fun k => { k with
    flagFall := satInc k.flagFall, marked := if marked then satInc k.marked else k.marked }) s
  raise .flagFall w { s1 with cls := { s1.cls with lastFlagFall := w } }

/-- Takes one entry out of a queue. -/
def takeEntry (e c i : Nat) (s : State) : State :=
  setQueue e c ((queueOf e c s).filter (fun q => q.msg != i)) s

/-- A message is discarded by flag fall; KING raises EVT_KING_LOST (R579). -/
def dropAtFall (e c : Nat) (m : Msg) (s : State) : State :=
  let s1 := dropCopy m.id (takeEntry e c m.id (noteFlagFall e c m false s))
  if c = 5 then
    (if e ≤ 8 then raiseKingLost 9 0 [e] e m.routeId (portCount e 15 s1)
     else raiseKingLost 9 0 [] 0xFF m.routeId s1)
  else s1

/-- Outcome of one selection. -/
inductive Sel where
  | nothing
  | dropped
  | blocked
  | taken (c : Nat) (q : QEntry) (m : Msg)
  deriving DecidableEq, Repr

/-- The highest class of a list with a message queued. -/
def firstClass (e : Nat) (cs : List Nat) (s : State) : Option Nat :=
  cs.find? (fun c => !(queueOf e c s).isEmpty)

/-- Selects the head of the highest non-empty queue of the given classes (R558): flag fall first (R24),
then, if the head fits, it leaves the queue. A head that does not fit stays, and no lower class is
served. -/
def selectFrom (e : Nat) (cs : List Nat) (fits : Nat → QEntry → Msg → Bool) (s : State) : Sel × State :=
  match firstClass e cs s with
  | none => (.nothing, s)
  | some c =>
    match queueOf e c s with
    | [] => (.nothing, s)
    | q :: rest =>
      match msgById q.msg s with
      | none => (.dropped, setQueue e c rest s)
      | some m =>
        if pastBudget m s ∧ q.marked = false then
          if classMarks c s then
            let q1 := { q with marked := true }
            let s1 := noteFlagFall e c m true s
            if fits c q1 m then (.taken c q1 m, setQueue e c rest s1)
            else (.blocked, setQueue e c (q1 :: rest) s1)
          else (.dropped, dropAtFall e c m s)
        else if fits c q m then (.taken c q m, setQueue e c rest s)
        else (.blocked, s)

/-! ### Rewriting (R513 to R517) -/

def upperHex (n : Nat) : Byte := BitVec.ofNat 8 (if n < 10 then 48 + n else 55 + n)

/-- Writes the checksum of a sentence anew (R515). -/
def fixChecksum (l : List Byte) : List Byte :=
  let n := l.length
  if 6 ≤ n ∧ nth 0 l (n - 5) = 0x2A then
    let x := (xorAll (slice l 1 (n - 6))).toNat
    l.take (n - 4) ++ [upperHex (x / 16), upperHex (x % 16)] ++ l.drop (n - 2)
  else l

/-- ADDRESS mode: characters of the address field are replaced one for one (R514, R515). -/
def rewriteAddr (idle : Bool) (alen : Nat) (r l : List Byte) : List Byte :=
  let start := if idle then 0 else 1
  let field :=
    if idle then min alen l.length
    else ((l.drop 1).takeWhile (fun b => b != 0x2C && b != 0x2A)).length
  let k := min (u8 r 17) field
  let out := l.take start ++ slice r 18 k ++ l.drop (start + k)
  if idle then out else fixChecksum out

/-- Bytes of a serial message for frame egress or for SE. -/
def serialOut (onSe idle : Bool) (alen : Nat) (r l : List Byte) : List Byte :=
  if resRwMode r = 1 ∧ natBit (u8 r 16) (if onSe then 4 else 5) then rewriteAddr idle alen r l else l

/-- ADDR_LEN of a channel. -/
def addrLen (c : Nat) (s : State) : Nat := u8 (serEntry c s) 12

/-! ### Formatting (R518 to R530) -/

/-- PCP of an egress tag (R31). -/
def egressPcp (c : Nat) (q : QEntry) (m : Msg) (s : State) : Nat :=
  if m.tagged ∧ (m.kind = .eth ∨ m.kind = .tunnel) ∧ m.downgraded = false ∧ q.promoted = false then m.pcp.toNat
  else pcpOfClass c s

def vlanTag (pcp dei vid : Nat) : List Byte := toBE 2 0x8100 ++ toBE 2 (pcp * 8192 + dei * 4096 + vid)

/-- The VLAN ID of an egress tag, after a VID rewrite (Table 9-8). -/
def tagVid (r : List Byte) (v : Nat) : Nat := if resRwMode r = 3 then be16 r 18 % 4096 else v

/-- Template source address; zero means the egress port's (Table 9-9). -/
def templateSa (t : List Byte) (p : Nat) (s : State) : List Byte :=
  if tplSa t = List.replicate 6 0 then portMac p s else tplSa t

/-- DA, SA, tag and EtherType from a template (R518, R519). -/
def templateFrame (t : List Byte) (etype p c : Nat) (q : QEntry) (m : Msg) (s : State) : List Byte :=
  tplDa t ++ templateSa t p s ++
    (if tplTagMode t = 2 then vlanTag (egressPcp c q m s) 0 (tagVid m.result (tplVid t)) else []) ++
    toBE 2 etype

/-- An Ethernet frame as received, with its tag and APPID as the route has them (R518, R519, R532). -/
def ethBody (c : Nat) (q : QEntry) (m : Msg) (s : State) : List Byte :=
  let rest := if m.tagged then m.bytes.drop 16 else m.bytes.drop 12
  let rest1 :=
    if resRwMode m.result = 2 ∧ (m.etype = 0x88B8 ∨ m.etype = 0x88B9 ∨ m.etype = 0x88BA) then
      rest.take 2 ++ slice m.result 18 2 ++ rest.drop 4
    else rest
  let mode : Nat :=
    match m.template with
    | some t => if tplEthValid t then tplTagMode t else 0
    | none => 0
  let dei := u8 m.bytes 14 / 16 % 2
  let tag :=
    if mode = 2 then
      vlanTag (egressPcp c q m s) 0 (tagVid m.result (tplVid (m.template.getD [])))
    else if mode = 0 ∧ m.tagged then
      vlanTag (egressPcp c q m s) dei (tagVid m.result (be16 m.bytes 14 % 4096))
    else []
  m.bytes.take 12 ++ tag ++ rest1

/-- EtherType of the tunnel (R541, Table 9-9). -/
def tunnelType (t : List Byte) (s : State) : Nat :=
  if tplType t ≠ 0 then tplType t
  else
    let v := be16 (bodyOf tyRoutes s) 0
    if v = 0 then 0x88B5 else v

/-- The bytes a serial message contributes to a tunnel payload. -/
def tunnelBytes (m : Msg) (s : State) : List Byte :=
  serialOut false m.idle (addrLen (m.channel.getD 0) s) m.result m.bytes

/-- Saturated difference of two stamps in ns (R529). -/
def offsetNs (a b : Stamp) : Nat := (intWord (satInt 32 ((a.absNs : Int) - (b.absNs : Int)))).toNat

/-- Sub-header and bytes of one bundled message (R529). -/
def bundleItem (first : Stamp) (x : QEntry × Msg) (s : State) : List Byte :=
  let b := tunnelBytes x.2 s
  toBE 1 (x.2.channel.getD 0) ++
    toBE 1 (x.2.stamp.tq.toNat * 64 + (if x.1.marked then 32 else 0) + (if x.2.idle then 16 else 0)) ++
    toBE 2 b.length ++ toBE 4 (offsetNs x.2.stamp first) ++ b

/-- A tunnel frame of one message, or of a bundle (R523, R524, R529, R530). -/
def tunnelFrame (p c : Nat) (xs : List (QEntry × Msg)) (seq : BitVec 16) (s : State) : List Byte :=
  match xs with
  | [] => []
  | (q, m) :: more =>
    let t := m.template.getD []
    let bundle := !more.isEmpty
    let payload := if bundle then xs.flatMap (fun x => bundleItem m.stamp x s) else tunnelBytes m s
    let flags := (if bundle then 1 else 0) + (if xs.any (fun x => x.1.marked) then 2 else 0) +
      (if q.promoted then 4 else 0) + (if m.downgraded then 8 else 0) +
      (if m.idle && !bundle then 16 else 0)
    templateFrame t (tunnelType t s) p c q m s ++
      toBE 1 1 ++ toBE 1 flags ++ toBE 1 c ++ toBE 1 (m.channel.getD 0) ++ toBE 2 seq.toNat ++ toBE 2 0 ++
      toBE 4 m.stamp.secs.toNat ++ toBE 4 (tqNsWord m.stamp.tq m.stamp.ns) ++ toBE 2 (resOutId m.result) ++
      toBE 2 payload.length ++ toBE 1 xs.length ++ toBE 3 0 ++ payload

/-- A message under HEADER (R518). -/
def headerFrame (p c : Nat) (q : QEntry) (m : Msg) (s : State) : List Byte :=
  let t := m.template.getD []
  let e := tplType t
  templateFrame t e p c q m s ++
    (if e = 0x88B8 ∨ e = 0x88BA then
      toBE 2 (tplAppid t) ++ toBE 2 (8 + m.bytes.length) ++ toBE 4 0
    else []) ++ m.bytes

/-- An SV or GOOSE frame as its engine built it, with the port's source address and the tag (R521). -/
def builtFrame (p c : Nat) (q : QEntry) (m : Msg) (s : State) : List Byte :=
  let b := m.bytes
  let sa := if slice b 6 6 = List.replicate 6 0 then portMac p s else slice b 6 6
  let tag :=
    if m.tagged then vlanTag (egressPcp c q m s) 0 (tagVid m.result (be16 b 14 % 4096)) else []
  b.take 6 ++ sa ++ tag ++ (if m.tagged then b.drop 16 else b.drop 12)

/-- The frame of one message on an Ethernet port, from the destination address, before padding,
redundancy and FCS. -/
def frameOf (p c : Nat) (q : QEntry) (m : Msg) (s : State) : List Byte :=
  match m.kind with
  | .eth | .tunnel => ethBody c q m s
  | .serial => tunnelFrame p c [(q, m)] m.tseq s
  | .arbMsg | .alRow | .xm => headerFrame p c q m s
  | .mu | .goose => builtFrame p c q m s
  | .ptp | .supervision | .accessResp => m.bytes

/-- Does a frame carry an 802.1Q tag after its addresses? -/
def isTagged (l : List Byte) : Bool := be16 l 12 == 0x8100

/-- Trailer or tag of the redundancy engine on a pair's port (R321, R324). -/
def redundancy (p : Nat) (seq : BitVec 16) (l : List Byte) (s : State) : List Byte :=
  let o := if isTagged l then 16 else 12
  if pairMode p s = 1 then
    let b := padTo 54 l
    b ++ toBE 2 seq.toNat ++ toBE 2 ((if p % 2 = 0 then 0xA else 0xB) * 4096 + (b.length + 6 - o - 2)) ++
      toBE 2 0x88FB
  else
    let n := (padTo 54 l).length + 6 - o - 2
    l.take o ++ toBE 2 0x892F ++ toBE 2 (p % 2 * 4096 + n) ++ toBE 2 seq.toNat ++ l.drop o

/-- A ring transit frame goes on with the HSR tag it came with (R326); `l` is the frame without it. -/
def ringFrame (m : Msg) (l : List Byte) : List Byte :=
  let o := if m.tagged then 16 else 12
  l.take o ++ m.ring ++ l.drop o

/-- The host tag of a copy that leaves on HP (Table 6-6, R522). -/
def hostTag (c : Nat) (q : QEntry) (m : Msg) : List Byte :=
  [0x11] ++ toBE 1 m.port ++
    toBE 1 (c * 32 + (if q.marked then 16 else 0) + (if q.promoted then 8 else 0) +
      (if m.downgraded then 4 else 0)) ++
    toBE 1 (if m.port = 9 then m.channel.getD 0xFF else 0xFF) ++ toBE 2 m.routeId ++
    toBE 1 (m.red.toNat * 64 + (if m.san then 32 else 0)) ++ [0] ++
    toBE 4 m.stamp.secs.toNat ++ toBE 4 (tqNsWord m.stamp.tq m.stamp.ns)

/-- The whole frame from the body on: host tag or redundancy, padding, FCS (R308, R346). -/
def sealFrame (p c : Nat) (q : QEntry) (m : Msg) (body : List Byte) (s : State) : List Byte :=
  if p = 8 then
    let tag := if m.kind = .accessResp then m.template.getD [] else hostTag c q m
    let l := tag ++ padTo 60 body
    l ++ fcsBytes l
  else if isRingCopy p q s then
    let l := padTo 60 (ringFrame m body)
    l ++ fcsBytes l
  else
    let l := padTo 60 (if pairMode p s = 0 then body else redundancy p q.seq body s)
    l ++ fcsBytes l

/-! ### Bundling (R526 to R528) -/

/-- Largest bundle of a message's route; 1 means none. -/
def bundleMax (m : Msg) : Nat :=
  if m.kind = .serial then (m.template.map tplBundle).getD 1 else 1

/-- Length through the FCS of a bundle of messages. -/
def bundleLen (m : Msg) (xs : List (QEntry × Msg)) : Nat :=
  14 + (if tplTagMode (m.template.getD []) = 2 then 4 else 0) + 24 +
    (xs.map (fun x => 8 + x.2.bytes.length)).sum + 4

/-- Adds further messages of the route that are queued for the port (R527, R528). -/
def gather (p c : Nat) (lead : Msg) : List QEntry → List (QEntry × Msg) → State →
    List (QEntry × Msg) × State
  | [], acc, s => (acc, s)
  | q :: qs, acc, s =>
    if bundleMax lead ≤ acc.length then (acc, s)
    else
      match msgById q.msg s with
      | none => gather p c lead qs acc s
      | some m =>
        if m.routeId ≠ lead.routeId ∨ m.kind ≠ .serial then gather p c lead qs acc s
        else if (if pairMode p s = 0 then 1522 else 1516) < bundleLen lead (acc ++ [(q, m)]) then (acc, s)
        else if pastBudget m s ∧ q.marked = false then
          if classMarks c s then
            gather p c lead qs (acc ++ [({ q with marked := true }, m)])
              (takeEntry p c m.id (noteFlagFall p c m true s))
          else gather p c lead qs acc (dropAtFall p c m s)
        else gather p c lead qs (acc ++ [(q, m)]) (takeEntry p c m.id s)

/-- Entries, body and state of a selected message: the bundle is gathered, and PTP messages are
corrected (R246, R247, R254). -/
def buildFrame (p c : Nat) (q : QEntry) (m : Msg) (s : State) : List QEntry × List Byte × State :=
  if 1 < bundleMax m then
    let g := gather p c m (queueOf p c s) [(q, m)] s
    let seq := lookupD 0 m.routeId g.2.rte.tunnelSeq
    (g.1.map (·.1), tunnelFrame p c g.1 seq g.2,
     { g.2 with rte := { g.2.rte with tunnelSeq := putAssoc m.routeId (seq + 1) g.2.rte.tunnelSeq } })
  else
    let r := ptpEgress p m (if isRingCopy p q s then m.bytes else frameOf p c q m s) s
    ([q], r.1, r.2)

/-- Length through the FCS of the frame that a head would become (R315). -/
def headLength (p c : Nat) (q : QEntry) (m : Msg) (s : State) : Nat :=
  let b := buildFrame p c q m s
  (sealFrame p c q m b.2.1 s).length

/-! ### Transmission on P0 to P7 and HP (R309 to R315, R560) -/

/-- Bytes of the present fragment that have gone by when a frame selected now would start. -/
def wireBytes (p : Nat) (f : TxFrame) (s : State) : Nat :=
  (localNow s + pipeCycles - f.startAt) / byteCycles p s

/-- Is the scheduler free for a new message: the frame and its gap end before the next first bit? -/
def txOver (p : Nat) (f : TxFrame) (s : State) : Bool :=
  decide (f.bytes.length - f.sent + 12 ≤ wireBytes p f s)

/-- Bytes of the fragment if a preemptable frame is cut now: mCRC and gap precede the express frame. -/
def cutAt (p : Nat) (f : TxFrame) (s : State) : Nat := wireBytes p f s - 16

/-- May the frame in transmission be cut now (R309, R313)? -/
def cutAllowed (p : Nat) (f : TxFrame) (s : State) : Bool :=
  preemptActive p s && decide (f.cls.toNat < 3) && !f.entries.isEmpty && decide (64 ≤ cutAt p f s) &&
    decide (f.sent + cutAt p f s + 68 ≤ f.bytes.length)

/-- Local count of the first byte after the start delimiter of a frame selected now. -/
def startOf (p : Nat) (s : State) : Nat := localNow s + pipeCycles + 8 * byteCycles p s

/-- Starts a frame. -/
def startTx (p c : Nat) (es : List QEntry) (bytes : List Byte) (s : State) : State :=
  updEth p (fun k => { k with
    tx := some { entries := es, cls := BitVec.ofNat 3 c, bytes, sent := 0, frags := 0,
                 startAt := startOf p s } }) s

/-- Egress timestamps that a copy leaves for the host (R351, R512). -/
def stampsFor (p : Nat) (m : Msg) (s : State) : State :=
  if p < 8 then
    let s1 :=
      if m.routeId ≠ 0xFFFF ∧ resTxts m.result then pushTxts p (BitVec.ofNat 16 (0x8000 + m.routeId)) s else s
    match m.tsTag with
    | some t => pushTxts p t s1
    | none => s1
  else s

/-- Formats a selected message and starts it. -/
def sendSelected (p c : Nat) (q : QEntry) (m : Msg) (s : State) : State :=
  let b := buildFrame p c q m s
  startTx p c b.1 (sealFrame p c q m b.2.1 b.2.2) (stampsFor p m b.2.2)

/-- A verify or respond mPacket: 60 zero bytes and the mCRC (log entry 26). -/
def mPacketBytes : List Byte := List.replicate 64 0

/-- Sends the next mPacket, respond before verify. -/
def sendMPacket (p : Nat) (s : State) : State :=
  let e := ethAt p s
  let x : MPacket := if e.mpackets.contains .respond then .respond else .verify
  startTx p 0 [] mPacketBytes (updEth p (fun k => { k with mpackets := k.mpackets.erase x }) s)

/-- Resumes a preempted frame (R560). -/
def resumeTx (p : Nat) (f : TxFrame) (s : State) : State :=
  updEth p (fun k => { k with tx := some { f with startAt := startOf p s }, preempted := none }) s

/-- May a head be sent whole on a LIMITED port (R315)? -/
def fitsPort (p : Nat) (s : State) (c : Nat) (q : QEntry) (m : Msg) : Bool :=
  decide (3 ≤ c) || !limited p s || decide (headLength p c q m s ≤ 131)

/-- What ECC finds as the selected message is read: its loss, or its transmission. -/
def sendRead (p c : Nat) (q : QEntry) (m : Msg) (ecc : EccAt) (s : State) : State :=
  let s1 := noteEcc ecc.place ecc.what s
  if ecc.what = .uncorrectable then loseToEcc m.id p s1 else sendSelected p c q m s1

/-- The scheduler is free: express messages, then mPackets, then a preempted frame, then the rest (R558,
R560). A port out of forwarding sends mPackets only (R336). -/
def pickNext (p : Nat) (ecc : EccAt) (s : State) : State :=
  let e := ethAt p s
  let x := if forwarding p s then selectFrom p [5, 4, 3] (fitsPort p s) s else (.nothing, s)
  match x.1 with
  | .taken c q m => sendRead p c q m ecc x.2
  | .dropped => x.2
  | .blocked => x.2
  | .nothing =>
    if e.mpackets.isEmpty = false then sendMPacket p x.2
    else if forwarding p s = false then x.2
    else
      match e.preempted with
      | some f => resumeTx p f x.2
      | none =>
        let y := selectFrom p [2, 1, 0] (fitsPort p x.2) x.2
        match y.1 with
        | .taken c q m => sendRead p c q m ecc y.2
        | _ => y.2

/-- Cuts the preemptable frame in transmission for an express message (R313, R560). -/
def preemptFor (p : Nat) (f : TxFrame) (ecc : EccAt) (s : State) : State :=
  let x := selectFrom p [5, 4, 3] (fitsPort p s) s
  match x.1 with
  | .taken c q m =>
    let cut := { f with sent := f.sent + cutAt p f s, frags := f.frags + 1 }
    sendRead p c q m ecc (updEth p (fun k => { k with tx := none, preempted := some cut }) x.2)
  | _ => x.2

/-- The next frame; from step H1 of an entry on only a preempted frame goes on (Table 14-6). -/
def pickOrResume (p : Nat) (ecc : EccAt) (s : State) : State :=
  if boardRuns s then pickNext p ecc s
  else
    match (ethAt p s).preempted with
    | some f => resumeTx p f s
    | none => s

/-- Selection on an Ethernet port. -/
def ethSelect (p : Nat) (ecc : EccAt) (s : State) : State :=
  let e := ethAt p s
  if fabricRuns s && e.link then
    match e.tx with
    | none => pickOrResume p ecc s
    | some f =>
      if txOver p f s then
        pickOrResume p ecc (updEth p (fun k => { k with tx := none, leaving := k.leaving ++ [f] }) s)
      else if boardRuns s ∧ cutAllowed p f s ∧ forwarding p s then preemptFor p f ecc s
      else s
  else s

/-! ### Delivery to AB and AL (R465, R466, R610, R646) -/

/-- Delivers a message to the Arbiter. -/
def deliverAb (m : Msg) (s : State) : State :=
  match m.kind with
  | .eth => gooseRx m.bytes m.tagged m.origin s
  | .serial => serialStore m.routeId m.bytes s
  | .xm => xmToArb m.bytes s
  | _ => s

/-- Delivers a message to the Alignment engine. -/
def deliverAl (m : Msg) (s : State) : State := alnFrameRx m.bytes m.tagged m.stamp s

/-- Selection on AB or AL: one message per 64 ns (Table 10-4). -/
def internalSelect (e : Nat) (ecc : EccAt) (s : State) : State :=
  let next := if e = 11 then s.cls.abNext else s.cls.alNext
  if boardRuns s && due next s then
    let x := selectFrom e [5, 4, 3, 2, 1, 0] (fun _ _ _ => true) s
    match x.1 with
    | .taken _ _ m =>
      let s1 := noteEcc ecc.place ecc.what x.2
      let s2 := { s1 with cls := { s1.cls with
        abNext := if e = 11 then localNow s + 16 else s1.cls.abNext,
        alNext := if e = 12 then localNow s + 16 else s1.cls.alNext } }
      if ecc.what = .uncorrectable then loseToEcc m.id e s2
      else dropCopy m.id (if e = 11 then deliverAb m s2 else deliverAl m s2)
    | _ => x.2
  else s

/-! ### Completion (R27) -/

/-- Has the last byte of a frame left? -/
def txDone (p : Nat) (f : TxFrame) (s : State) : Bool :=
  due (f.startAt + (f.bytes.length - f.sent) * byteCycles p s) s

/-- Counts a frame that has left, and frees its copies. -/
def finishTx (p : Nat) (f : TxFrame) (s : State) : State :=
  let s1 := if f.entries.isEmpty then s else portCount p 11 s
  let s2 := if f.frags = 0 then s1 else portCount p 13 s1
  f.entries.foldl (fun t q => dropCopy q.msg t) s2

/-- TX_COMPLETE: the oldest frame still leaving, or the one in transmission, has left. -/
def txComplete (p : Nat) (s : State) : State :=
  let e := ethAt p s
  match e.leaving, e.tx with
  | f :: fs, _ =>
    if txDone p f s then finishTx p f (updEth p (fun k => { k with leaving := fs }) s) else s
  | [], some f =>
    if txDone p f s then finishTx p f (updEth p (fun k => { k with tx := none }) s) else s
  | [], none => s

def execTxComplete (egress : Fin 9) (s : State) : Host.Outcome State Fault Refusal :=
  .next (if coreUp s then txComplete egress s else s)

/-! ### Promotion (R575 to R577) -/

/-- Promotes the head of a class queue if it has reached half its budget. -/
def promoteHead (e c : Nat) (s : State) : State :=
  match queueOf e c s with
  | [] => s
  | q :: rest =>
    match msgById q.msg s with
    | none => s
    | some m =>
      let b := resBudgetUs m.result
      if classPromotes c s ∧ c < 4 ∧ q.promoted = false ∧ m.routeId ≠ 0xFFFF ∧ b * 500 ≤ ageNs m s ∧
          ageNs m s < b * 1000 then
        raise .promote (BitVec.ofNat 32 (c * 65536 + m.routeId))
          (updCls c (fun k => { k with promoted := satInc k.promoted })
            (joinQueue e (c + 1) { q with promoted := true } (setQueue e c rest s)))
      else s

def execPromotion (egress : Nat) (cls : Fin 6) (s : State) : Host.Outcome State Fault Refusal :=
  .next (if fabricRuns s && s.pos.running then promoteHead egress cls s else s)

end Sys2Proof.Machine
end

