-- ==== Sys2Proof/Machine/SerialTx.lean ====
section
/-!
DEFINITION. Transmission on the serial channels (spec/07): selection, the duplex modes, collisions and
retries, and slotted lines; and EGRESS_SELECT over every kind of egress.
-/

namespace Sys2Proof.Machine

/-! ### Times of a message (R365, R407, R421) -/

def serGap (e : List Byte) : Nat := u8 e 17
def serRetryMax (e : List Byte) : Nat := u8 e 16
def serSlottedE (e : List Byte) : Bool := flagAt e 0 2

/-- `b` sixteenths of a bit time in core cycles, rounded up. -/
def bit16Cycles (b : Nat) (e : List Byte) (k : SerChan) : Nat := ceilDiv (b * serOver e * k.div) 1024

/-- Bit times of a message of `n` characters, with TX_GAP between them (R407). -/
def msgBits (n : Nat) (e : List Byte) : Nat := n * charBits e + (n - 1) * serGap e

/-- A span of bit times in ns, rounded up. -/
def bitsNs (b : Nat) (e : List Byte) (k : SerChan) : Nat := ceilDiv (b * serOver e * k.div) 16

/-- Does the duplex mode use SERn_DE (Table 7-2)? -/
def usesDe (e : List Byte) : Bool := serDuplex e == 1 || serDuplex e == 2

/-- First instant, on TMB_LOCAL, at which a start bit may fall: after DE_LEAD, unless DE is still
asserted (R365), and after IDLE_HCT on an IDLE channel (R408). -/
def startCycle (c : Nat) (s : State) : Nat :=
  let e := serEntry c s
  let k := serAt c s
  let lead := if usesDe e && !k.deOn then localNow s + bit16Cycles (u8 e 14) e k else localNow s
  if serIdleMode e && k.txEnd != 0 then max lead (k.txEnd + halfChars (serIdleHct e) e k) else lead

/-! ### Transmit windows (R421 to R424) -/

/-- End of the transmit window that contains slot `i`: the next slot that is not OWN, or 64. -/
def windowEnd (e : List Byte) : Nat → Nat → Nat
  | 0, i => i
  | n + 1, i => if i < 64 ∧ slotRole e i = 2 then windowEnd e n (i + 1) else i

/-- Does a message of `b` bit times fit when it starts `off` ns into the frame? -/
def fitsAt (off b : Nat) (e : List Byte) (k : SerChan) : Bool :=
  let l := max 1 (serSlotLen e)
  let i := off / l
  decide (i < 64) && slotRole e i == 2 &&
    decide (off + bitsNs b e k + bitsNs (serGuard e) e k ≤ windowEnd e 64 i * l)

/-- Does a message fit some window of the map (R422)? -/
def fitsSome (b : Nat) (e : List Byte) (k : SerChan) : Bool :=
  (List.range 64).any (fun i => fitsAt (i * serSlotLen e) b e k)

/-- Offset in the present frame of an instant `d` cycles from now. -/
def frameOffset (d : Nat) (k : SerChan) (s : State) : Option Nat :=
  match k.slotFrame with
  | some (secs, ns) =>
    let f := secs.toNat * 1000000000 + ns
    let t := devNs s + 4 * d
    if f ≤ t then some (t - f) else none
  | none => none

/-- May a message of `n` bytes start now? The receiver of a half-duplex line is not BLINDED (R412), and
a slotted line has a window it fits (R421, R424). -/
def mayStart (c n : Nat) (s : State) : Bool :=
  let e := serEntry c s
  let k := serAt c s
  let line := serDuplex e == 0 || k.rx != .blinded
  let slot :=
    if serSlottedE e then
      (match frameOffset (startCycle c s - localNow s) k s with
       | some off => fitsAt off (msgBits n e) e k
       | none => false)
    else true
  line && slot

/-! ### Starting and dropping -/

/-- The channel starts to send `t`. -/
def beginTx (c : Nat) (t : SerTx) (s : State) : State :=
  let e := serEntry c s
  let k := serAt c s
  let at_ := startCycle c s
  let dur := ceilDiv (msgBits t.bytes.length e * serOver e * k.div) 64
  updSer c (fun x => { x with
    txSt := .sending, backoff := none, deUntil := none, deOn := usesDe e,
    tx := some { t with startAt := at_, endAt := at_ + dur } }) s

/-- The present message is over; the next of its tunnel frame follows, or the copy is freed (R531). -/
def nextPart (c : Nat) (t : SerTx) (s : State) : State :=
  match t.rest with
  | [] => dropCopy t.msg (updSer c (fun x => { x with tx := none, txSt := .idle }) s)
  | b :: bs =>
    updSer c (fun x => { x with
      txSt := .idle, tx := some { t with bytes := b, rest := bs, retries := 0 } }) s

/-- A message is discarded and counted (R409, R417, R422). -/
def dropTx (c : Nat) (t : SerTx) (s : State) : State :=
  nextPart c t (raiseAt .serTxDrop c (BitVec.ofNat 32 c) (serCount c 15 s))

/-- Starts a message, lets it wait, or drops it: 8-bit bytes on a 7-bit channel (R409), no window that
fits (R422). -/
def tryTx (c : Nat) (t : SerTx) (s : State) : State :=
  let e := serEntry c s
  let k := serAt c s
  if serData e = 7 ∧ t.bytes.any (fun b => b.getLsbD 7) then dropTx c t s
  else if serSlottedE e ∧ fitsSome (msgBits t.bytes.length e) e k = false then dropTx c t s
  else if mayStart c t.bytes.length s then beginTx c t s
  else updSer c (fun x => { x with
    tx := some t, txSt := if serSlottedE e then .slotWait else .idle }) s

/-- A retry is a selection again: flag fall comes first (spec/07 collision 7, R578). -/
def retryTx (c : Nat) (t : SerTx) (s : State) : State :=
  match msgById t.msg s with
  | none => updSer c (fun x => { x with tx := none, txSt := .idle, backoff := none }) s
  | some m =>
    let cl := t.cls.toNat
    if pastBudget m s ∧ t.marked = false then
      if classMarks cl s then tryTx c { t with marked := true } (noteFlagFall (64 + c) cl m true s)
      else dropAtFall (64 + c) cl m (updSer c (fun x => { x with tx := none, txSt := .idle, backoff := none }) s)
    else tryTx c t s

/-! ### Selection (R406) -/

/-- The serial messages that a message becomes on channel `c` (R513, R531). -/
def serialParts (c : Nat) (m : Msg) (s : State) : List (List Byte) :=
  match m.kind with
  | .tunnel =>
    (match tunnelMsgs (m.bytes.drop (afterType m.tagged)) with
     | some l => l.map (fun x => serialOut true x.2.1 (addrLen c s) m.result x.2.2)
     | none => [])
  | .serial => [serialOut true m.idle (addrLen (m.channel.getD c) s) m.result m.bytes]
  | _ => [m.bytes]

/-- May the head of the queues start now? A message the channel discards counts as taken. -/
def fitsSer (c : Nat) (s : State) (_ : Nat) (_ : QEntry) (m : Msg) : Bool :=
  match serialParts c m s with
  | [] => true
  | b :: _ =>
    let e := serEntry c s
    mayStart c b.length s || (decide (serData e = 7) && b.any (fun x => x.getLsbD 7)) ||
      (serSlottedE e && !fitsSome (msgBits b.length e) e (serAt c s))

/-- Takes the next message of a channel. -/
def pickSer (c : Nat) (ecc : EccAt) (s : State) : State :=
  let x := selectFrom (64 + c) [5, 4, 3, 2, 1, 0] (fitsSer c s) s
  match x.1 with
  | .taken cl q m =>
    let s1 := noteEcc ecc.place ecc.what x.2
    if ecc.what = .uncorrectable then loseToEcc m.id (64 + c) s1
    else
      (match serialParts c m s with
       | [] => dropCopy m.id s1
       | b :: bs =>
         tryTx c { msg := m.id, bytes := b, marked := q.marked, cls := BitVec.ofNat 3 cl, startAt := 0,
                   endAt := 0, retries := 0, rest := bs } s1)
  | .blocked =>
    updSer c (fun k => { k with txSt := if serSlottedE (serEntry c s) then .slotWait else k.txSt }) x.2
  | _ => x.2

/-- Does the channel transmit now? In PLAY under a Position, with TX_EN (R410, R431). -/
def serTransmits (c : Nat) (s : State) : Bool := boardRuns s && serTxEn (serEntry c s)

/-- SER_TX_SELECT on a channel that is free. -/
def serSelect (c : Nat) (ecc : EccAt) (s : State) : State :=
  let k := serAt c s
  if serTransmits c s && (k.txSt == .idle || k.txSt == .slotWait) then
    (match k.tx with
     | some t => if k.txSt = .idle then tryTx c t s else s
     | none => pickSer c ecc s)
  else s

def execSerTxSelect (ch : Fin 24) (ecc : EccAt) (s : State) : Host.Outcome State Fault Refusal :=
  .next (serSelect ch ecc s)

/-- EGRESS_SELECT: the scheduler of one egress of R587 selects (R558). -/
def execEgressSelect (egress : Nat) (ecc : EccAt) (s : State) : Host.Outcome State Fault Refusal :=
  .next
    (if egress ≤ 8 then ethSelect egress ecc s
     else if egress = 11 ∨ egress = 12 then internalSelect egress ecc s
     else if 64 ≤ egress ∧ egress < 88 then serSelect (egress - 64) ecc s
     else s)

/-! ### Completion, collision, retry -/

/-- SER_TX_COMPLETE: the last stop bit has ended (R407). -/
def execSerTxComplete (ch : Fin 24) (s : State) : Host.Outcome State Fault Refusal :=
  let k := serAt ch s
  .next
    (match k.tx with
     | some t =>
       if k.txSt = .sending ∧ due t.endAt s then
         let lag := bit16Cycles (u8 (serEntry ch s) 15) (serEntry ch s) k
         nextPart ch t (updSer ch (fun x => { x with
           txEnd := t.endAt, deUntil := if x.deOn then some (t.endAt + lag) else none }) (serCount ch 13 s))
       else s
     | none => s)

/-- SER_DE_RELEASE: DE_LAG has passed (R365). -/
def execSerDeRelease (ch : Fin 24) (s : State) : Host.Outcome State Fault Refusal :=
  let k := serAt ch s
  .next
    (if k.deOn && k.txSt != .sending && dueOpt k.deUntil s then
      updSer ch (fun x => { x with deOn := false, deUntil := none }) s
    else s)

/-- What follows a collision: another try, or the message goes (R416, R417, R423). -/
def afterCollision (c : Nat) (t : SerTx) (s : State) : State :=
  let e := serEntry c s
  if serRetryMax e ≤ t.retries then dropTx c t s
  else
    let t1 := { t with retries := t.retries + 1 }
    if serSlottedE e then updSer c (fun x => { x with tx := some t1, txSt := .slotWait }) s
    else
      let k := (Config.backoff s.free).val + 1
      drawn (updSer c (fun x => { x with
        tx := some t1, txSt := .backoff,
        backoff := some (localNow s + halfChars (2 + 2 * k) e x) }) s)

/-- SER_COLLISION: read-back differs from the bit sent (R413, R414). -/
def execSerCollision (ch : Fin 24) (s : State) : Host.Outcome State Fault Refusal :=
  let k := serAt ch s
  .next
    (match k.tx with
     | some t =>
       if k.txSt = .sending ∧ 2 ≤ serDuplex (serEntry ch s) then
         afterCollision ch t
           (raiseAt .serCollide ch (BitVec.ofNat 32 ch)
             (serCount ch 14 (updSer ch (fun x => { x with
               deOn := false, deUntil := none, txEnd := localNow s }) s)))
       else s
     | none => s)

/-- SER_BACKOFF_END: the wait of R416 is over. -/
def execSerBackoffEnd (ch : Fin 24) (s : State) : Host.Outcome State Fault Refusal :=
  let k := serAt ch s
  .next
    (match k.tx with
     | some t =>
       if serTransmits ch s && k.txSt == .backoff && dueOpt k.backoff s && k.rx != .blinded then
         retryTx ch t (updSer ch (fun x => { x with backoff := none, txSt := .idle }) s)
       else s
     | none => s)

/-- SER_SLOT_BOUNDARY: the present slot; a retry may start at an OWN slot, and a waiting channel selects
again (R421, R423). -/
def execSerSlotBoundary (ch : Fin 24) (s : State) : Host.Outcome State Fault Refusal :=
  let e := serEntry ch s
  let k := serAt ch s
  .next
    (match boardRuns s && serSlottedE e, frameOffset 0 k s with
     | true, some off =>
       let i := min 63 (off / max 1 (serSlotLen e))
       let s1 := updSer ch (fun x => { x with slot := BitVec.ofNat 6 i }) s
       if k.txSt = .slotWait ∧ slotRole e i = 2 then
         (match k.tx with
          | some t => retryTx ch t s1
          | none => updSer ch (fun x => { x with txSt := .idle }) s1)
       else s1
     | _, _ => s)

/-- Entry into HOLD: the messages in progress go, and their copies with them (R431). -/
def stopSerial (s : State) : State :=
  let held := s.ser.filterMap (fun k => k.tx.map (·.msg))
  held.foldl (fun t i => dropCopy i t) { s with ser := s.ser.map stopSer }

end Sys2Proof.Machine
end

