-- ==== Sys2Proof/Machine/PosEngine.lean ====
section
/-!
DEFINITION. What a Position does to the engines (spec/03): the board stops, the engines start at the end
of an Opening or a Reopening, and a hitless swap changes their tables in one core cycle.
-/

namespace Sys2Proof.Machine

/-! ### Banks (Table 3-6, Table 3-15) -/

/-- The staging bank is B: the bank that is not active, and A before any commit. -/
def stageIsB (s : State) : Bool := s.pos.active && !s.pos.activeBank

def posBank (b : Bool) (s : State) : PosBank := if b then s.pos.bankB else s.pos.bankA

def setPosBank (b : Bool) (k : PosBank) (s : State) : State :=
  if b then { s with pos := { s.pos with bankB := k } } else { s with pos := { s.pos with bankA := k } }

def stageBank (s : State) : PosBank := posBank (stageIsB s) s

def activeBank (s : State) : PosBank := posBank s.pos.activeBank s

/-- The sections of a bank that has passed its checks. -/
def bankSections (k : PosBank) : List Sect :=
  match parseImage k.image with
  | .ok l => l.map (·.sect)
  | .error _ => []

/-- The bounds that the admission check computed for a set of tables (R586). -/
def computedBounds (l : List Sect) : List ClsBound :=
  match admission l with
  | .ok bs => bs
  | .error _ => []

/-- STAGE_STATE codes (Table 3-6). -/
def Stage.code : Stage → Nat
  | .empty => 0
  | .loading => 1
  | .verifying => 2
  | .staged => 3
  | .refused => 4
  | .preparing => 5
  | .swapWait => 6
  | .committing => 7

/-- POS_STATUS (Table 3-15). -/
def posStatus (s : State) : Word :=
  let p := s.pos
  let bit (b : Bool) (k : Nat) : Nat := if b then 2 ^ k else 0
  BitVec.ofNat 32 (bit p.running 12 + bit p.fallbackApplied 11 + bit p.restartPending 10 + bit p.cmdErr 9 +
    bit p.seqErr 8 + bit p.hitlessOk 7 + bit p.active 6 + bit p.activeBank 5 + bit (stageIsB s) 4 +
    p.stage.code)

/-- Device time of a swap or of the start of an Opening (R163, Table 3-21). -/
def noteCommitTime (s : State) : State :=
  { s with pos := { s.pos with commitS := s.tmb.secs.setWidth 32, commitNs := s.tmb.ns } }

/-! ### Counters (R158, R554, R592, R656, R725, R781) -/

/-- Every counter of the blocks outside MGT returns to zero. -/
def clearCounters (s : State) : State :=
  { s with
    pos := { s.pos with refusedCnt := 0 },
    tmb := { s.tmb with
      pps := { s.tmb.pps with reject := 0 },
      cmps := s.tmb.cmps.map (fun c => { c with missed := 0 }) },
    ptp := { s.ptp with
      castleCnt := 0, blockedCnt := 0,
      d0 := { s.ptp.d0 with discard := 0 }, d1 := { s.ptp.d1 with discard := 0 },
      ports := s.ptp.ports.map (fun k => { k with pdelayTo := 0 }) },
    eth := s.eth.map (fun k => { k with cnt := List.replicate 16 0, resignCnt := 0 }),
    pairs := s.pairs.map (fun k => { k with cnt := List.replicate 8 0 }),
    hp := { s.hp with tagErr := 0, accessDone := 0, accessDrop := 0 },
    ser := s.ser.map (fun k => { k with cnt := List.replicate 19 0 }),
    cnv := { s.cnv with
      trigSkipCnt := 0, overloadCnt := 0,
      stream0 := { s.cnv.stream0 with frames := 0 }, stream1 := { s.cnv.stream1 with frames := 0 } },
    aln := { s.aln with
      unmatched := 0, format := 0, dup := 0,
      subs := s.aln.subs.map (fun k => { k with late := 0, missing := 0, bridged := 0 }) },
    rte := { s.rte with cnts := [] },
    cls := { s.cls with
      unroutedCnt := 0, peaks := [],
      recs := s.cls.recs.map (fun k => { k with
        refused := 0, excess := 0, downgraded := 0, flagFall := 0, marked := 0, promoted := 0 }) },
    arb := { s.arb with
      overrunCnt := 0, conflictCnt := 0, storeMissCnt := 0, gooseUnmatched := 0,
      pubs := s.arb.pubs.map (fun k => { k with txCnt := 0 }),
      subs := s.arb.subs.map (fun k => { k with rxCnt := 0, errCnt := 0 }) },
    xb := { s.xb with
      orphanCnt := 0, scanOverrun := 0,
      slots := s.xb.slots.map (fun k => { k with intCnt := 0, errCnt := 0, timeoutCnt := 0 }) },
    mem := { s.mem with
      lostCnt := 0, ceCnt := 0, ueCnt := 0, transientCnt := 0, starveCnt := 0 },
    therm := { s.therm with discardCnt := 0, takebackCnt := 0 },
    evt := { s.evt with dropCnt := 0, kingLostCnt := 0 } }

/-! ### The board stops (R156, CLOSE) -/

/-- Every message in the board goes: queues, frames in transmission, cells and descriptors. -/
def dropMessages (s : State) : State :=
  { s with
    eth := s.eth.map (fun k => { k with
      queues := List.replicate 6 [], tx := none, preempted := none, leaving := [], mpackets := [] }),
    hp := { s.hp with held := [] },
    ser := s.ser.map (fun k => { k with
      queues := List.replicate 6 [], frame := none, spoiled := false, wait := none, tx := none,
      backoff := none, deOn := false, deUntil := none, rx := .disabled, txSt := .disabled }),
    cls := { s.cls with
      msgs := [], abQueues := List.replicate 6 [], alQueues := List.replicate 6 [], bounds := [],
      recs := s.cls.recs.map (fun k => { k with usedRes := 0, usedShared := 0, descUsed := 0 }) } }

/-- The converters, the Alignment engine and the Arbiter leave what they were working on; mailboxes read
no value until the next sample (R450, R489). -/
def stopMeasurement (s : State) : State :=
  { s with
    cnv := { s.cnv with
      groupA := .reset, groupB := .reset,
      stream0 := { MuStream.reset with frames := s.cnv.stream0.frames },
      stream1 := { MuStream.reset with frames := s.cnv.stream1.frames } },
    aln := { s.aln with
      rows := [], lastValid := false, seq := 0,
      subs := s.aln.subs.map (fun k => { AlnSub.reset with
        late := k.late, missing := k.missing, bridged := k.bridged }) },
    arb := { s.arb with
      cyc := none, cardWait := [], varQueue := [], ordersSpi := [], ordersFrame := [], store := [],
      xmsg := 0, busyUntil := 0, lastTrig := none } }

/-- The engines stop and the board is emptied. The Timekeeper leaves the time base on its last rate
(R157), comparators are unlocked (R211), and open bridge reads end (R721). -/
def stopBoard (s : State) : State :=
  stopMeasurement (dropMessages (xbReopen (unlockCmps (ptpStop s))))

/-! ### Ports at an Opening (R158, R299 to R301) -/

/-- A port under its new entry. `keep` tells that its entry is unchanged and its link stays. -/
def openPort (defined keep rgmii : Bool) (verify : VerifySt) (windowEnd : Nat) (k : EthPort) : EthPort :=
  let up := (keep && k.link) || (defined && rgmii)
  let base : EthPort := if keep then k else { EthPort.reset with int := k.int, intEn := k.intEn }
  { base with
    link := up, fwd := if !defined then .disabled else if up then .forwarding else .down,
    verify := if keep && k.link then k.verify else verify,
    cmdErr := k.cmdErr, cause := 0xF, resignCnt := 0, runs := List.replicate 8 0, windowEnd,
    cleanLeft := 0, cleanFrom := none, cnt := List.replicate 16 0 }

/-- The ports take the entries of the new tables; `old` are the tables before. -/
def openPorts (reopen : Bool) (old : List Sect) (s : State) : State :=
  { s with
    eth := (List.range 9).map (fun p =>
      let was := entryOf ((bodyIn tyPorts old).getD []) 0 32 p
      let keep := reopen && portDefined p s && was == portEntry p s
      openPort (portDefined p s) keep (hpRgmii p s) (verifyAtDown p s)
        (localNow s + msCycles (portWindowMs p s)) (ethAt p s)),
    pairs := s.pairs.map (fun _ => { EthPair.reset with supDue := localNow s }) }

/-! ### Safe states at an Opening (R124, R155, R793) -/

/-- Outputs take the fallback states; a slot that is not PRESENT gets its entries when it becomes so. -/
def openSafe (s : State) : State :=
  let cs := (fallbackCards (s.pos.fallback.getD [])).filter (fun c => slotPresent c.slot s)
  let absent := (List.range 8).filter (fun i => !slotPresent i s)
  let s1 := gpioFallback { s with
    pos := { s.pos with fallbackApplied := true }, xb := { s.xb with fallbackDue := absent } }
  pushFallback cs s1

/-! ### Start of an Opening or a Reopening (R152 to R158) -/

/-- The active bank's tables replace the old ones, the board stops, counters clear, and the outputs take
the new fallback states until the first control cycle completes. -/
def startOpening (reopen : Bool) (s : State) : State :=
  let old := s.pos.tables
  let s1 := clearCounters (stopBoard s)
  let new := bankSections (activeBank s1)
  let s2 := { s1 with pos := { s1.pos with
    tables := new, shadow := [], fallback := bodyIn tyFallback new, running := false, opening := true,
    restartPending := false, hitlessOk := false, awaitFirstCycle := true } }
  openSafe (openPorts reopen old (noteCommitTime s2))

/-! ### Engines at the end of an Opening (R154, R229, R608, R650, R694, R840, R841) -/

/-- Ladder policy, wake sources and the thermal release time of the POWER section (Table 14-11). -/
def loadPower (s : State) : State :=
  if hasSect tyPower s then
    let b := bodyOf tyPower s
    { s with
      pwr := { s.pwr with
        wakeEn := BitVec.ofNat 8 (u8 b 2), wakePorts := BitVec.ofNat 8 (u8 b 4),
        wakeSlots := BitVec.ofNat 8 (u8 b 5), wakeGpio := BitVec.ofNat 16 (be16 b 6),
        wakeSer := BitVec.ofNat 24 (be32 b 8) },
      therm := { s.therm with
        entry := BitVec.ofNat 3 (u8 b 0), deepest := BitVec.ofNat 2 (u8 b 1),
        relMs := if be16 b 12 = 0 then 1000 else BitVec.ofNat 16 (be16 b 12) } }
  else
    { s with
      pwr := { s.pwr with wakeEn := 2, wakePorts := 0, wakeSlots := 0, wakeGpio := 0, wakeSer := 0 },
      therm := { s.therm with entry := 1, deepest := 3, relMs := 1000 } }

/-- A group that is enabled starts its modulators and settles (R444). -/
def startGroup (b : Bool) (s : State) : State :=
  if groupEnabled b s then
    setGroup b { CnvGroup.reset with running := true, settleUntil := localNow s + 50000 } s
  else setGroup b .reset s

/-- A subscribe block at an Opening. -/
def freshSub (b : Nat) (s : State) : GooseSub :=
  { GooseSub.reset with st := if subEnabled b s then .waiting else .disabled }

/-- Blocks whose variables take their SAFE values at the Opening (R650). -/
def safeSubs (s : State) : List Nat :=
  (List.range 128).filter (fun b => subEnabled b s && flagAt (gooseSubEntry b s) 0 2)

/-- The Arbiter and the GOOSE engine start afresh (R608, R636, R650). -/
def startArbiter (s : State) : State :=
  let s1 := { s with arb := { s.arb with
    vars := [], varsAtA := [], outs := List.replicate 528 false, fallbackWas := true, force := [],
    results := [], rules := List.replicate (ruleCount s) .reset,
    pubs := List.replicate 32 .reset, subs := (List.range 128).map (fun b => freshSub b s) } }
  (safeSubs s1).foldl (fun t b => varPuts (safeValues b t) t) (varPuts (initialVars false s1) s1)

/-- The routing engine starts afresh: no edits, no promotions, full credit (R552, R573, R636). -/
def startRouting (s : State) : State :=
  { s with
    rte := { RteBlk.reset with bufSpi := none, bufFrame := none },
    cls := { s.cls with bounds := computedBounds s.pos.tables } }

/-- Serial channels take their entries. -/
def startSerial (s : State) : State := (List.range 24).foldl (fun t c => startSer c t) s

/-- All engines start from the tables. -/
def startEngines (s : State) : State :=
  let s1 := loadPtp true (loadTimeBase s)
  let s2 := { s1 with tmb := { s1.tmb with ppso := s1.tmb.ppso.map (fun p => { p with driven := true }) } }
  loadPower (loadOrphan (startArbiter (startGroup true (startGroup false (startSerial (startRouting s2))))))

/-- The Opening or Reopening is complete (R154). -/
def finishOpening (s : State) : State :=
  let s1 := { s with pos := { s.pos with
    running := true, opening := false,
    stage := if s.pos.stage = .committing then .empty else s.pos.stage } }
  let s2 := startEngines s1
  raise .posCommit (posStatus s2) s2

/-! ### Hitless swap (R159 to R165, Table 3-9) -/

/-- Did a section change between two sets of tables? -/
def changed (ty : Nat) (old new : List Sect) : Bool := bodyIn ty old != bodyIn ty new

/-- Did entry `i` of a section change? -/
def entryChanged (ty head size : Nat) (old new : List Sect) (i : Nat) : Bool :=
  entryOf ((bodyIn ty old).getD []) head size i != entryOf ((bodyIn ty new).getD []) head size i

/-- State of filters whose entry changed restarts. -/
def swapFilters (old new : List Sect) (s : State) : State :=
  { s with rte := { s.rte with
    filters := s.rte.filters.filter (fun f => !entryChanged tyFilters 8 32 old new f.idx) } }

/-- Route bound of a route in a set of tables. -/
def boundIn (l : List Sect) (id : Nat) : Option (List Byte) :=
  ((routeBounds l).find? (fun p => p.1 == id)).map (·.2)

/-- Policers of changed routes restart with full credit. -/
def swapPolicers (old new : List Sect) (s : State) : State :=
  { s with rte := { s.rte with
    policers := s.rte.policers.filter (fun p => boundIn old p.route == boundIn new p.route) } }

/-- Edits and promotions end where the rules that hold them say so (R552, R636). -/
def swapRouting (old new : List Sect) (s : State) : State :=
  let routes := changed tyRoutes old new
  { s with rte := { s.rte with
    edits := if routes then [] else s.rte.edits,
    clsOver := if routes || changed tyArbiter old new then [] else s.rte.clsOver } }

/-- A changed serial channel discards a partial sentence and restarts framing, and autobaud if enabled. A
message it is sending goes out; if TX_EN is clear now it is lost. -/
def swapSer (c : Nat) (s : State) : State :=
  let e := serEntry c s
  let k := serAt c s
  let k1 : SerChan := serAt c (startSer c s)
  let on := serTxEn e && k.txSt != .disabled
  let s1 := updSer c (fun _ =>
    if on then { k1 with txSt := k.txSt, tx := k.tx, backoff := k.backoff, deOn := k.deOn,
                         deUntil := k.deUntil }
    else k1) s
  match k.tx with
  | some t => if on then s1 else dropCopy t.msg s1
  | none => s1

/-- Changed serial channels. -/
def swapSerial (old new : List Sect) (s : State) : State :=
  ((List.range 24).filter (entryChanged tySerial 0 64 old new)).foldl (fun t c => swapSer c t) s

/-- A changed converter group restarts at its next trigger: integrators and history go, and it settles
only where it was not running. -/
def swapGroup (b : Bool) (s : State) : State :=
  let g := cnvGroup b s
  if groupEnabled b s = false then setGroup b .reset s
  else
    setGroup b { CnvGroup.reset with
      running := true, box := g.box, lastAt := g.lastAt,
      settleUntil := if g.running then g.settleUntil else localNow s + 50000 } s

/-- A changed stream restarts at its next trigger. -/
def swapStream (b : Bool) (s : State) : State :=
  setStream b { MuStream.reset with frames := (muStream b s).frames, ready := (muStream b s).ready } s

/-- Changed converter groups and streams. -/
def swapMeasurement (old new : List Sect) (s : State) : State :=
  let s1 := if entryChanged tyConverters 0 64 old new 0 then swapGroup false s else s
  let s2 := if entryChanged tyConverters 0 64 old new 1 then swapGroup true s1 else s1
  let s3 := if entryChanged tyPublisher 0 256 old new 0 then swapStream false s2 else s2
  if entryChanged tyPublisher 0 256 old new 1 then swapStream true s3 else s3

/-- A changed subscription is invalid until it holds 8 new samples. -/
def swapAlignment (old new : List Sect) (s : State) : State :=
  ((List.range 16).filter (entryChanged tyAlignment 0 128 old new)).foldl
    (fun t i => updSub i (fun k => { k with held := [], judged := none, wasValid := false }) t) s

/-- A new rule set; variables keep their values but for those marked for initialisation. -/
def swapRules (old new : List Sect) (s : State) : State :=
  if changed tyArbiter old new then
    varPuts (initialVars true s) { s with arb := { s.arb with
      results := [], rules := List.replicate (ruleCount s) .reset } }
  else s

/-- A changed publish block starts a new state; a changed subscribe block waits again. -/
def swapGoose (old new : List Sect) (s : State) : State :=
  let s1 := ((List.range 32).filter (entryChanged tyGoose 0 256 old new)).foldl
    (fun t b => updPub b (fun p => { p with held := none, k := 0, due := none }) t) s
  ((List.range 128).filter (entryChanged tyGoose 8192 128 old new)).foldl
    (fun t b => updGooseSub b (fun u => { freshSub b t with rxCnt := u.rxCnt, errCnt := u.errCnt }) t) s1

/-- New windows and scan list; the prefetch buffers go (R691, R694, R722). -/
def swapBridge (old new : List Sect) (s : State) : State :=
  if changed tyBridge old new then loadOrphan { s with xb := { s.xb with bufs := [] } } else s

/-- TIME: comparators reload, the servo state is kept. -/
def swapTime (old new : List Sect) (s : State) : State :=
  if changed tyTime old new then loadPtp false (loadTimeBase s) else s

/-- POWER and FALLBACK: new policy and safe states; states in force now follow the new section. -/
def swapPolicy (old new : List Sect) (s : State) : State :=
  let s1 := if changed tyPower old new then loadPower s else s
  if changed tyFallback old new then
    let s2 := { s1 with pos := { s1.pos with fallback := bodyIn tyFallback new } }
    if s2.pos.fallbackApplied then enterSafe s2 else s2
  else s1

/-- The swap: tables and the active-bank pointer change in this cycle, and the old bank is the staging
bank, EMPTY. -/
def hitlessSwap (s : State) : State :=
  let old := s.pos.tables
  let new := s.pos.shadow
  let s1 := setPosBank s.pos.activeBank .empty s
  let s2 := noteCommitTime { s1 with
    pos := { s1.pos with
      activeBank := !s1.pos.activeBank, tables := new, shadow := [], stage := .empty, loadOffset := 0,
      hitlessOk := false },
    cls := { s1.cls with bounds := computedBounds new } }
  let s3 := swapPolicers old new (swapFilters old new (swapRouting old new s2))
  let s4 := swapAlignment old new (swapMeasurement old new (swapSerial old new (swapTime old new s3)))
  let s5 := swapPolicy old new (swapBridge old new (swapGoose old new (swapRules old new s4)))
  raise .posCommit (posStatus s5) s5

/-- Is a control cycle defined: an Arbiter, and an armed comparator that starts its cycle (R160)? -/
def cycleDefined (s : State) : Bool :=
  hasSect tyArbiter s && s.tmb.cmps.any (fun c => c.armed && c.action == 7)

/-- The start of a control cycle carries out the swap that waits for it. -/
def swapAtCycle (s : State) : State := if s.pos.stage = .swapWait then hitlessSwap s else s

end Sys2Proof.Machine
end

