-- ==== Sys2Proof/Machine/PosCmd.lean ====
section
/-!
DEFINITION. Loading, verifying and committing a Position (spec/03): POS_STREAM words, the end of a
verification, POS_CMD and its commands, the end of a preparation and of an Opening.
-/

namespace Sys2Proof.Machine

/-! ### Refusals (R144, R149, R969) -/

/-- POS_ERR (Table 3-17). -/
def posErrWord (s : State) : Word := s.pos.errCode ++ s.pos.errSection ++ s.pos.errDetail

/-- POS_ERR and POS_ERR_OFFSET take a refusal. -/
def notePosErr (e : PosErr) (s : State) : State :=
  { s with pos := { s.pos with
    errCode := BitVec.ofNat 8 e.code, errSection := BitVec.ofNat 8 e.section_,
    errDetail := BitVec.ofNat 16 e.detail, errOffset := BitVec.ofNat 24 e.offset } }

/-- A refused image: POS_ERR, the event and the counter; nothing else changes (R144). -/
def refuseImage (e : PosErr) (s : State) : State :=
  let s1 := notePosErr e { s with pos := { s.pos with refusedCnt := satInc s.pos.refusedCnt } }
  raise .posRefused (posErrWord s1) s1

/-- The staging bank becomes REFUSED. -/
def refuseStage (e : PosErr) (s : State) : State :=
  refuseImage e { s with pos := { s.pos with stage := .refused, hitlessOk := false } }

/-- A refused POS_CMD write (R149, R150). -/
def refusePosCmd (code : Nat) (s : State) : State :=
  notePosErr (errAt code 0) { s with pos := { s.pos with cmdErr := true } }

/-- The staging bank becomes EMPTY (Table 3-6). -/
def clearStage (s : State) : State :=
  let s1 := setPosBank (stageIsB s) .empty s
  { s1 with pos := { s1.pos with stage := .empty, loadOffset := 0, hitlessOk := false, shadow := [] } }

/-! ### POS_STREAM (R133 to R142) -/

/-- Is the header complete? -/
def headerIn (s : State) : Bool := decide (64 ≤ (stageBank s).image.length)

/-- Bytes that the staging bank accepts (R138). -/
def streamLimit (s : State) : Nat :=
  if headerIn s then min (imgLength (stageBank s).image) bankSize else bankSize

/-- What becomes of the words of a POS_STREAM transaction. -/
inductive StreamMode where
  | misaligned | busy | outOfOrder | dropped | accept
  deriving DecidableEq, Repr

/-- The image was refused before its end, so its remaining words are discarded (R142). -/
def earlyRefused (s : State) : Bool :=
  s.pos.stage == .refused && decide (s.pos.loadOffset.toNat < streamLimit s)

/-- The transaction is judged by its offset and the state of the staging bank (R133, R135, R136, R139). -/
def streamMode (addr : BitVec 24) (s : State) : StreamMode :=
  if addr.toNat % 4 ≠ 0 then .misaligned
  else if stageBusy s then .busy
  else if addr = 0 then .accept
  else if earlyRefused s then .dropped
  else if s.pos.stage = .empty ∨ addr ≠ s.pos.loadOffset then .outOfOrder
  else .accept

/-- A new load (R135). -/
def startLoad (s : State) : State :=
  let s1 := clearStage s
  { s1 with pos := { s1.pos with stage := .loading } }

/-- The checks that run on a bank still loading (R142), and the end of the load. -/
def afterWord (s : State) : State :=
  let b := (stageBank s).image
  let n := b.length
  let early : Option PosErr :=
    if n = 64 then (headerCheck b s).orElse (fun _ => keyCheck b s)
    else if n = 72 ∨ n = 136 then keyCheck b s
    else none
  match early with
  | some e => refuseStage e s
  | none =>
    if headerIn s ∧ imgLength b ≤ n then { s with pos := { s.pos with stage := .verifying } } else s

/-- One accepted word (R134, R137, R138); `false` tells that it lies beyond the image (ADDR_ERR). -/
def streamWord (w : Word) (s : State) : Bool × State :=
  if earlyRefused s then (true, s)
  else if s.pos.stage ≠ .loading ∨ streamLimit s ≤ s.pos.loadOffset.toNat then (false, s)
  else
    let k := stageBank s
    let s1 := setPosBank (stageIsB s) { k with image := k.image ++ toBE 4 w.toNat } s
    (true, afterWord { s1 with pos := { s1.pos with loadOffset := s1.pos.loadOffset + 4, seqErr := false } })

/-- The accepted words in turn; `false` where one lies beyond the image. -/
def streamWords : List Word → State → Bool × State
  | [], s => (true, s)
  | w :: ws, s =>
    let r := streamWord w s
    let t := streamWords ws r.2
    (r.1 && t.1, t.2)

/-- The words of one transaction that reached the core; the flags are CMD_REJECT and ADDR_ERR. -/
def posStream (addr : BitVec 24) (ws : List Word) (s : State) : (Bool × Bool) × State :=
  match streamMode addr s with
  | .misaligned => ((false, true), s)
  | .busy => ((true, false), s)
  | .outOfOrder => ((false, false), if ws.isEmpty then s else { s with pos := { s.pos with seqErr := true } })
  | .dropped => ((false, false), s)
  | .accept =>
    if ws.isEmpty then ((false, false), s)
    else
      let r := streamWords ws (if addr = 0 then startLoad s else s)
      ((false, !r.1), r.2)

/-! ### Verification (Table 3-7, R141 to R148) -/

/-- Checks 0x0A to 0x0E on a plaintext image: its sections, or the first refusal. -/
def imageCheck (mode0 : Bool) (b : List Byte) : Except PosErr (List Sect) :=
  match parseImage b with
  | .error e => .error e
  | .ok l =>
    let sects := l.map (·.sect)
    let bad := (sectionCheck b l).orElse fun _ => (ucodeCheck l).orElse fun _ => rangeCheck mode0 sects l
    match bad with
    | some e => .error e
    | none =>
      match admitCheck l with
      | .error e => .error e
      | .ok _ => .ok sects

/-- All checks on a complete image, in order: plaintext and sections, or the first refusal. -/
def verifyImage (k : PosBank) (s : State) : Except PosErr (List Byte × List Sect) :=
  if k.ue then .error { code := 0x10, section_ := 0xFF, detail := 0, offset := 0 }
  else
    match (keyCheck k.image s).orElse (fun _ => signatureCheck k.image) with
    | some e => .error e
    | none =>
      match decryptImage k.image s with
      | .error e => .error e
      | .ok p =>
        match imageCheck s.therm.straps.mode0 p with
        | .error e => .error e
        | .ok l => .ok (p, l)

/-- HITLESS_OK (R146): a Position runs, and EPOCH and structural digest agree. -/
def hitlessMatch (p : List Byte) (l : List Sect) (s : State) : Bool :=
  let a := activeBank s
  s.pos.running && imgEpoch p == imgEpoch a.image &&
    structuralDigest l == structuralDigest (bankSections a)

/-- VERIFY_COMPLETE: STAGED or REFUSED (R141 to R148). `ue` tells that a read of the bank met an
uncorrectable error. -/
def execVerifyComplete (ue : Bool) (s : State) : Host.Outcome State Fault Refusal :=
  .next
    (if coreUp s && s.pos.stage == .verifying then
      let b := stageIsB s
      let k := { stageBank s with ue := (stageBank s).ue || ue }
      let s1 := setPosBank b k s
      match verifyImage k s1 with
      | .error e => refuseStage e s1
      | .ok (p, l) =>
        let s2 := setPosBank b { k with image := p, digest := sha256 p } s1
        { s2 with pos := { s2.pos with stage := .staged, hitlessOk := hitlessMatch p l s2 } }
    else s)

/-! ### Commits and restarts (R149 to R168, Table 3-8) -/

/-- The store check of R148. -/
def storeOk (k : PosBank) : Bool := !k.ue && sha256 k.image == k.digest

/-- The checks that a commit or a restart repeats (R151). -/
def recheck (k : PosBank) (s : State) : Option PosErr :=
  firstFailed
    [ (errAt 5 10, rollbackOk k.image s),
      (keyErr, !imgSigned k.image || keyTrusted k.image s),
      ({ code := 0x10, section_ := 0xFF, detail := 0, offset := 0 }, storeOk k) ]

def accepted (s : State) : State := { s with pos := { s.pos with cmdErr := false } }

/-- ABORT (R165). -/
def posAbort (s : State) : State :=
  let st := s.pos.stage
  if st = .loading ∨ st = .staged ∨ st = .refused ∨ st = .preparing ∨ st = .swapWait then
    clearStage (accepted s)
  else refusePosCmd 0x11 s

/-- COMMIT_FULL: the staging bank becomes the active bank, and an Opening or a Reopening starts (R151 to
R153). -/
def posCommitFull (s : State) : State :=
  if s.pos.stage ≠ .staged ∨ s.pos.opening then refusePosCmd 0x11 s
  else
    let s1 := accepted s
    match recheck (stageBank s1) s1 with
    | some e => refuseStage e s1
    | none =>
      let new := stageIsB s1
      let s2 := setPosBank (!new) .empty s1
      startOpening s.pos.active { s2 with pos := { s2.pos with
        active := true, activeBank := new, stage := .committing, loadOffset := 0 } }

/-- COMMIT_HITLESS: the shadow tables start to fill (R150, R151, R159). -/
def posCommitHitless (s : State) : State :=
  if s.pos.stage ≠ .staged ∨ s.pos.opening then refusePosCmd 0x11 s
  else if s.pos.hitlessOk = false then refusePosCmd 0x0F s
  else
    let s1 := accepted s
    let store : Option PosErr :=
      if storeOk (activeBank s1) then none
      else some { code := 0x10, section_ := 0xFF, detail := 0, offset := 0 }
    match (recheck (stageBank s1) s1).orElse (fun _ => store) with
    | some e => refuseStage e s1
    | none => { s1 with pos := { s1.pos with stage := .preparing, shadow := bankSections (stageBank s1) } }

/-- An Opening of the retained active Position (R151, R168); a failed check leaves it held. -/
def reopenActive (s : State) : State :=
  match recheck (activeBank s) s with
  | some e => refuseImage e { s with pos := { s.pos with restartPending := true } }
  | none => startOpening false s

/-- RESTART_ACTIVE. -/
def posRestart (s : State) : State :=
  if s.pos.restartPending then reopenActive (accepted s) else refusePosCmd 0x11 s

/-- A preparation that CLOSE overtakes: the image is STAGED again, and may be committed in full. -/
def dropPreparation (s : State) : State :=
  if s.pos.stage = .preparing ∨ s.pos.stage = .swapWait then
    { s with pos := { s.pos with stage := .staged, shadow := [] } }
  else s

/-- A port under CLOSE: electrical idle. -/
def closePort (k : EthPort) : EthPort :=
  { k with
    fwd := .disabled, link := false, speed100 := false, anDone := false, rf := false, fef := false,
    unsupported := false, verify := .disabled, verifyTries := 0, verifyDue := none, cleanLeft := 0,
    cleanFrom := none, lossFrom := none, idleUntil := none }

/-- CLOSE: the engines stop, the ports and outputs of the Position rest, and the bank is kept. -/
def posClose (s : State) : State :=
  if s.pos.running = false then refusePosCmd 0x11 s
  else
    let s1 := stopBoard (dropPreparation (accepted s))
    let s2 := { s1 with
      pos := { s1.pos with
        running := false, restartPending := true, hitlessOk := false, tables := [], awaitFirstCycle := false },
      eth := s1.eth.map closePort,
      ser := s1.ser.map (fun k => { k with txDriven := false }) }
    enterSafe s2

/-- A write of POS_CMD through the SPI (R140, R149). -/
def posCommand (w : Word) (s : State) : State :=
  if fld w 31 16 ≠ 0xA5C3 then refusePosCmd 0x11 s
  else
    match fld w 3 0 with
    | 1 => posAbort s
    | 2 => posCommitFull s
    | 3 => posCommitHitless s
    | 4 => posRestart s
    | 5 => posClose s
    | _ => refusePosCmd 0x11 s

def execAbort (s : State) : Host.Outcome State Fault Refusal := .next (ifCore posAbort s)
def execCommitFull (s : State) : Host.Outcome State Fault Refusal := .next (ifCore posCommitFull s)
def execCommitHitless (s : State) : Host.Outcome State Fault Refusal := .next (ifCore posCommitHitless s)
def execRestartActive (s : State) : Host.Outcome State Fault Refusal := .next (ifCore posRestart s)
def execClose (s : State) : Host.Outcome State Fault Refusal := .next (ifCore posClose s)

/-- OPENING_COMPLETE (R154). -/
def execOpeningComplete (s : State) : Host.Outcome State Fault Refusal :=
  .next (if coreUp s && s.pos.opening then finishOpening s else s)

/-- PREPARE_COMPLETE: the shadow tables are full. The swap waits for the next control cycle, or takes place
now where none is defined (R160). -/
def execPrepareComplete (s : State) : Host.Outcome State Fault Refusal :=
  .next
    (if coreUp s && s.pos.stage == .preparing then
      (if cycleDefined s then { s with pos := { s.pos with stage := .swapWait } } else hitlessSwap s)
    else s)

/-- Does the retained FALLBACK copy ask for a restart after a reset (R168)? -/
def restartAfterReset (s : State) : Bool :=
  match s.pos.fallback with
  | some b => natBit (be32 b 0) 0
  | none => false

/-- AUTO_RESTART_ACTIVE: after a reset that kept the Position store, the device opens the active Position
by itself (R168). -/
def execAutoRestartActive (s : State) : Host.Outcome State Fault Refusal :=
  .next
    (if coreUp s && s.pos.active && !s.pos.running && !s.pos.opening && !s.pos.restartPending &&
        restartAfterReset s then
      reopenActive s
    else s)

end Sys2Proof.Machine
end

