-- ==== Sys2Proof/Machine/Otp.lean ====
section
/-!
DEFINITION. Programming OTP units (spec/15): the running command, its end, its interruption by a reset or an
endgame, and the SCAR burn at the first PLAY after a start.
-/

namespace Sys2Proof.Machine

/-! ### Results (R973, Table 15-11) -/

/-- SEC_RESULT takes a new result, and SEC_INT.DONE is set. -/
def secResult (code : Nat) (s : State) : State :=
  { s with sec := { s.sec with result := BitVec.ofNat 4 code, int := setBit s.sec.int 0 } }

/-- A command that ran ends: BUSY and SEC_OTP_DATA clear. -/
def secEnd (code : Nat) (s : State) : State :=
  secResult code { s with sec := { s.sec with run := none, otpData := 0 } }

/-- A command starts to burn a unit. -/
def secStart (c : SecCmd) (u : Nat) (d : Word) (s : State) : State :=
  { s with sec := { s.sec with run := some { cmd := c, unitAddr := u, data := d } } }

def setUnit (u : Nat) (k : OtpUnit) (s : State) : State :=
  { s with sec := { s.sec with otp := upd (fun _ => k) s.sec.otp u } }

/-! ### Unit addresses (Table 15-2, R858) -/

/-- Words 0, 1 and 29 to 63, and the reserved flags. -/
def unitProtected (u : Nat) : Bool :=
  decide (u < 2) || (decide (29 ≤ u) && decide (u < 64)) || (decide (196 ≤ u) && decide (u < 224))

/-- Words 26 to 28 are programmed by the bit, so 26, 27 and 28 name no unit, nor does 224 or above. -/
def unitExists (u : Nat) : Bool := decide (u < 26) || (decide (29 ≤ u) && decide (u < 224))

/-- A unit that can be programmed (R851), and one that LOCK takes (R853). -/
def unitBlank (u : Nat) (s : State) : Bool := unitExists u && (otpUnit u s).st == .blank
def unitCommitted (u : Nat) (s : State) : Bool := unitExists u && (otpUnit u s).st == .committed

/-- What a unit holds once burned: the word, or the bit 1. -/
def burnData (u : Nat) (d : Word) : Word := if u < 128 then d else 1

/-- The lowest BLANK counter unit (R865). -/
def nextCounter (s : State) : Option Nat := counterUnits.find? (fun u => unitBlank u s)

/-! ### End of the running command (Table 15-3, R851 to R853, R865, R866) -/

/-- The unit ends LOCKED. -/
def lockUnit (r : SecRun) (s : State) : State :=
  setUnit r.unitAddr { st := .locked, data := burnData r.unitAddr r.data, scar := false } s

/-- Step 2 found a mismatch: SCAR is burned and reported (R852). -/
def scarUnit (u : Nat) (s : State) : State :=
  raise .otpScarred (BitVec.ofNat 32 u) (setUnit u { st := .scarred, data := 0, scar := true } s)

/-- ROLLBACK_ADVANCE after one unit: the count is reached, the next BLANK unit follows, or none is left. -/
def rollbackNext (goal : Word) (s : State) : State :=
  if goal.toNat ≤ rollbackCount s then secEnd 0 s
  else
    match nextCounter s with
    | some u => secStart .rollbackAdvance u goal s
    | none => secEnd 9 s

/-- The burn of the running command's unit is over. -/
def burnOver (r : SecRun) (out : BurnOutcome) (s : State) : State :=
  match r.cmd, out with
  | .lock, _ => secEnd 0 (setUnit r.unitAddr { otpUnit r.unitAddr s with st := .locked } s)
  | .rollbackAdvance, .good =>
    rollbackNext r.data (setUnit r.unitAddr { st := .locked, data := 1, scar := false } s)
  | .rollbackAdvance, .mismatch => rollbackNext r.data (scarUnit r.unitAddr s)
  | _, .good => secEnd 0 (lockUnit r s)
  | _, .mismatch => secEnd 4 (scarUnit r.unitAddr s)

/-- SEC_COMMAND_COMPLETE. A LOCK has no verify step, so its outcome is not looked at. -/
def execSecCommandComplete (out : BurnOutcome) (s : State) : Host.Outcome State Fault Refusal :=
  .next
    (match s.sec.run with
     | some r => if coreUp s then burnOver r out s else s
     | none => s)

/-! ### Interruption (Table 15-4, R860, R862) -/

/-- Class of a unit whose burn stopped at a point of `Config.burnStop`: 0 before ATTEMPT; 1 in step 1 or 2; 2
to 5 in step 3 with 0 to 3 COMMIT bits; 6 in step 4. -/
def stoppedClass (k : Nat) : OtpSt := if k = 0 then .blank else if k < 4 then .scarred else .committed

/-- A reset, an endgame or a loss of power stops the running command; how far the burn had got is free
(log entry 5). A LOCK that is stopped leaves its unit COMMITTED. -/
def interruptOtp (s : State) : State :=
  match s.sec.run with
  | none => s
  | some r =>
    let c := stoppedClass (Config.burnStop s.free).val
    let k : OtpUnit :=
      { st := c, data := if c = .committed then burnData r.unitAddr r.data else 0, scar := false }
    let s1 := if r.cmd = .lock then s else setUnit r.unitAddr k s
    drawn { s1 with sec := { s1.sec with run := none, otpData := 0, abortedPending := true } }

/-! ### SCAR burn (R861) -/

/-- Units that are SCARRED with SCAR clear. -/
def unburnedScars (s : State) : List Nat :=
  (List.range 224).filter (fun u => (otpUnit u s).st == .scarred && !(otpUnit u s).scar)

/-- OTP_SCAR_BURN: at the first PLAY after a start, SCAR is burned on every such unit, and each is reported. -/
def execOtpScarBurn (s : State) : Host.Outcome State Fault Refusal :=
  .next
    (if inPlay s && !s.sec.scarBurnDone then
      let s1 := (unburnedScars s).foldl (fun t u => scarUnit u t) s
      { s1 with sec := { s1.sec with scarBurnDone := true } }
    else s)

end Sys2Proof.Machine
end

