-- ==== Sys2Proof/Machine/Power.lean ====
section
/-!
DEFINITION. Power, resets and the ladder (spec/14): PWR_STATUS, the resets of Table 14-3, the steps from main-good
to READY with the retention check (spec/13), entries and exits of the ladder, and wake sources.
-/

namespace Sys2Proof.Machine

/-! ### Status words (Table 14-14) -/

def Phase.code : Phase → Nat
  | .steady => 0
  | .entering => 1
  | .exiting => 2

def bitAt (b : Bool) (k : Nat) : Nat := if b then 2 ^ k else 0

/-- Code of the target of the entry in progress; 0 none. -/
def targetCode (s : State) : Nat :=
  match s.pwr.target with
  | some t => t.code
  | none => 0

/-- PWR_STATUS. -/
def pwrStatus (s : State) : Word :=
  BitVec.ofNat 32 (bitAt s.pwr.vbakOk 31 + bitAt s.pwr.pwrFailLow 30 + bitAt s.therm.thermal 29 +
    bitAt s.pwr.reqErr 16 + s.pwr.phase.code * 256 + targetCode s * 16 + s.pwr.ladder.code)

/-- PWR_WAKE_CAUSE. -/
def wakeCauseWord (s : State) : Word :=
  BitVec.ofNat 32 (s.pwr.wakeFrom.toNat * 2 ^ 20 + s.pwr.wakeFirst.toNat * 2 ^ 16 +
    bitAt s.pwr.wakeAfterPnr 15 + bitAt s.pwr.wakeTakeback 14 + s.pwr.wakeCauses.toNat)

/-- MEM_RET_STATUS (Table 13-11). -/
def retStatusWord (s : State) : Word :=
  BitVec.ofNat 32 (bitAt s.mem.retChecked 31 + bitAt s.mem.retEcc 5 + bitAt s.mem.retCrcMismatch 4 +
    bitAt s.mem.retLatchClear 3 +
    (match s.mem.retStatus with
     | .checking => 0
     | .valid => 1
     | .void => 2))

/-! ### The shared region's CRC (R773) -/

/-- CRC-32 register after `n` offsets from `a` on of the region that a memory lists. -/
def regionCrcFrom : Nat → Nat → Memory → Word → Word
  | 0, _, _, r => r
  | n + 1, a, m, r =>
    match m with
    | [] => regionCrcFrom n (a + 1) [] (crc32Byte r 0)
    | (b, v) :: rest =>
      if b = a then regionCrcFrom n (a + 1) rest (crc32Byte r v)
      else regionCrcFrom n (a + 1) m (crc32Byte r 0)

/-- CRC-32 over offsets 0 to 131,071. -/
def regionCrc (s : State) : Word := regionCrcFrom sharedSize 0 s.mem.shared 0xFFFFFFFF ^^^ 0xFFFFFFFF

/-! ### Endgame records (R825 to R828, Table 14-10) -/

def recordBase : Nat := 0x1B000

/-- DESIGN_ID of the active Position, or zero. -/
def activeDesignId (s : State) : Nat := if s.pos.active then be32 (activeBank s).image 20 else 0

/-- Bytes 0 to 59 of a record. -/
def recordBody (seq : Word) (cause : Nat) (s : State) : List Byte :=
  toLE 4 0x464E5845 ++ toLE 4 seq.toNat ++
    [BitVec.ofNat 8 cause, BitVec.ofNat 8 s.pwr.ladder.code, BitVec.ofNat 8 s.pwr.phase.code, 0] ++
    toLE 4 (s.tmb.secs.setWidth 32).toNat ++ toLE 4 (tqNsWord (tqNow s) s.tmb.ns) ++
    toLE 8 s.tmb.localCnt.toNat ++ toLE 4 (posStatus s).toNat ++ toLE 4 (activeDesignId s) ++
    toLE 2 s.evt.headIdx.toNat ++ toLE 2 (intStatus s).toNat ++ toLE 2 s.therm.tjNow.toNat ++
    List.replicate 18 0

/-- Writes a record: its SEQ follows the latest valid one, and its slot is SEQ mod 64 (R826). -/
def writeRecord (cause : Nat) (s : State) : State :=
  let seq := s.therm.recLast + 1
  let b := recordBody seq cause s
  let s1 := portAWrite (recordBase + 64 * (seq.toNat % 64)) (b ++ fcsBytes b) false none (portABegin s)
  { s1 with therm := { s1.therm with recLast := seq } }

/-- Is the record of a slot valid: MAGIC and CRC correct? -/
def recordOk (b : List Byte) : Bool :=
  ofLE (b.take 4) == 0x464E5845 && b.drop 60 == fcsBytes (b.take 60)

/-- Slot and SEQ of the valid record with the highest SEQ among the listed slots (R827). -/
def latestRecord : List Nat → State → Option (Nat × Nat)
  | [], _ => none
  | i :: is, s =>
    let b := sharedGet (recordBase + 64 * i) 64 s
    let r := latestRecord is s
    if recordOk b then
      let q := ofLE (slice b 4 4)
      match r with
      | some (j, k) => if k ≤ q then some (i, q) else some (j, k)
      | none => some (i, q)
    else r

/-- The endgame scan of Table 14-2, with the region VALID (R827, R828). -/
def scanRecords (s : State) : State :=
  let r := if s.mem.retStatus = .valid then latestRecord (List.range 64) s else none
  { s with therm := { s.therm with
    recValid := r.isSome, recSlot := BitVec.ofNat 6 ((r.map (·.1)).getD 0),
    recSeq := BitVec.ofNat 32 ((r.map (·.2)).getD 0), recLast := BitVec.ofNat 32 ((r.map (·.2)).getD 0) } }

/-! ### Resets that keep main power (Table 14-3, R790 to R793) -/

/-- Does the JTAG instruction hold the core in reset (R872)? -/
def jtagHolds (i : JtagInstr) : Bool :=
  match i with
  | .extest | .clamp | .highz | .extestPulse | .extestTrain => true
  | _ => false

/-- Where a reset leaves the device: held while RESET_N is low or JTAG holds the core, else waiting for the
PLL. -/
def heldOrPll (s : State) : Boot :=
  if s.pwr.resetLow || jtagHolds s.jtag.instr then .inReset else .pllWait

/-- The reset is ignored in an endgame, in REST, and without main power (R820, R824). -/
def resettable (s : State) : Bool :=
  !s.pwr.endgame && (s.pwr.boot == .pllWait || s.pwr.boot == .init || s.pwr.boot == .ready || s.pwr.boot == .inReset)

/-- Open far reads end before the core goes, where the pickup slots stay (R49, R96, spec/02 collision 8). -/
def endFarReads (s : State) : State :=
  let cur := (s.xb.cur.map (·.req)).toList
  abortReads (cur ++ s.xb.queue) { s with xb := { s.xb with queue := [], cur := none } }

/-- The retained part of the Position blocks: both banks, less the staging image. -/
def keptPos (s : State) : PosBlk :=
  let p := (setPosBank (stageIsB s) .empty s).pos
  { PosBlk.reset with
    bankA := p.bankA, bankB := p.bankB, activeBank := p.activeBank, active := p.active,
    fallback := p.fallback }

/-- The retained part of the memory block. -/
def keptMem (s : State) : MemBlk :=
  let m := s.mem
  { MemBlk.reset with
    shared := m.shared, retChecked := m.retChecked, retEcc := m.retEcc, retCrcMismatch := m.retCrcMismatch,
    retLatchClear := m.retLatchClear, retStatus := m.retStatus, retCrc := m.retCrc, retLatch := m.retLatch,
    latchSample := m.latchSample, spares := m.spares, retiredCells := m.retiredCells,
    retiredDescs := m.retiredDescs }

/-- The core resets from one of the sources that keep main power: OTP, the Position store, the shared region,
the spare mappings and the fallback copy stay, and everything else is as after power-up. The GPIO balls take the
retained fallback states (R792), and the card entries wait for their slots (R793). -/
def coreReset (src : ResetSrc) (s : State) : State :=
  let s0 := interruptOtp (if src = .pllLoss then endFarReads s else s)
  gpioFallback
    { State.reset with
      pending := s0.pending, free := s0.free,
      mgt := if src = .pllLoss then s0.mgt else .reset,
      pos := keptPos s0, mem := keptMem s0,
      xb := { XbBlk.reset with fallbackDue := if s0.pos.fallback.isSome then List.range 8 else [] },
      pwr := { PwrBlk.reset with
        boot := heldOrPll s0, mainGood := s0.pwr.mainGood, vbakPowered := s0.pwr.vbakPowered,
        vbakOk := s0.pwr.vbakOk, pwrFailLow := s0.pwr.pwrFailLow, resetLow := s0.pwr.resetLow,
        bootSrc := src },
      therm := { ThermBlk.reset with resetCause := s0.therm.resetCause, straps := s0.therm.straps },
      sec := { SecBlk.reset with
        otp := s0.sec.otp, testMode := s0.sec.testMode, abortedPending := s0.sec.abortedPending },
      jtag := s0.jtag }

/-- RESET_N has been low for 1 µs. While the power-on reset holds, it only delays its release (R787). -/
def execResetN (s : State) : Host.Outcome State Fault Refusal :=
  let s1 := { s with pwr := { s.pwr with resetLow := true } }
  .next (if resettable s then coreReset .resetN s1 else s1)

/-- The rising edge of RESET_N: MODE is sampled, and the core restarts (R791). -/
def execResetNRelease (straps : Straps) (s : State) : Host.Outcome State Fault Refusal :=
  let s1 := { s with pwr := { s.pwr with resetLow := false } }
  .next
    (if s.pwr.boot = .inReset ∧ s.pwr.resetLow = true then
      { s1 with pwr := { s1.pwr with boot := heldOrPll s1 }, therm := { s1.therm with straps } }
     else s1)

/-- PLL_LOSS: loss of lock resets the core (R49). The PLL runs from its first lock on, but in SEAL. -/
def execPllLoss (s : State) : Host.Outcome State Fault Refusal :=
  .next
    (if resettable s && (s.pwr.boot == .init || s.pwr.boot == .ready) && !inSeal s then coreReset .pllLoss s
     else s)

/-- SOFT_RESET with its key (R94), which the management domain accepts in every ladder state. -/
def softReset (s : State) : State := if resettable s then coreReset .softReset s else s

/-- The accepted test unlock: a reset as SOFT_RESET, and the wipe (R874). -/
def testWipe (s : State) : State :=
  let s1 := coreReset .softReset s
  { s1 with
    pos := .reset,
    mem := { s1.mem with
      shared := [], spares := List.replicate 37 .none, retiredCells := [], retiredDescs := [], retCrc := 0,
      retLatch := false },
    xb := .reset, gpio := List.replicate 16 .hiZ, sec := { s1.sec with testMode := true } }

/-! ### Main power (R783 to R789, Tables 14-2, 14-3) -/

/-- Everything but what REST keeps: commands, free values, OTP, and the VBAK domain (R831). -/
def restState (s : State) : State :=
  { State.reset with
    pending := s.pending, free := s.free,
    mem := { MemBlk.reset with
      shared := s.mem.shared, retCrc := s.mem.retCrc, retLatch := s.mem.retLatch,
      spares := (List.range 37).map (fun b =>
        if b = 32 ∨ b = 33 then nth .none s.mem.spares b else .none) },
    pwr := { PwrBlk.reset with
      mainGood := s.pwr.mainGood, vbakPowered := s.pwr.vbakPowered, vbakOk := s.pwr.vbakOk,
      pwrFailLow := s.pwr.pwrFailLow, resetLow := s.pwr.resetLow, restEntered := s.pwr.restEntered },
    sec := { SecBlk.reset with otp := s.sec.otp, abortedPending := s.sec.abortedPending },
    jtag := s.jtag }

/-- MAIN_POWER_LOSS: a main supply has fallen. Without a seal the region is lost, and what it held does not
matter, since it is VOID at the next start (R774, R775). -/
def execMainPowerLoss (s : State) : Host.Outcome State Fault Refusal :=
  let s1 := restState (interruptOtp s)
  let lost : MemBlk := { MemBlk.reset with retCrc := s1.mem.retCrc }
  .next
    (if s.pwr.mainGood then
      { s1 with
        mem := if s.pwr.boot = .rest ∨ s.mem.retLatch = true then s1.mem else lost,
        pwr := { s1.pwr with
          mainGood := false, boot := .unpowered,
          restEntered := s.pwr.boot = .rest ∨ (s.pwr.restEntered ∧ s.mem.retLatch = true) },
        jtag := .reset }
     else s)

/-- Starts the power-on reset interval: the latch is sampled (R775). -/
def mainGoodNow (src : ResetSrc) (s : State) : State :=
  { s with
    mem := { s.mem with latchSample := s.mem.retLatch },
    pwr := { s.pwr with mainGood := true, boot := .porWait, bootSrc := src } }

/-- MAIN_POWER_GOOD: the last supply rises. The reset is REST_EXIT where the device had entered REST and VBAK
kept its domain powered, else POWER_ON (Table 14-3). -/
def execMainPowerGood (s : State) : Host.Outcome State Fault Refusal :=
  .next
    (if s.pwr.boot = .unpowered then
      let src := if s.pwr.restEntered && s.pwr.vbakPowered then .restExit else .powerOn
      let s1 := mainGoodNow src s
      { s1 with pwr := { s1.pwr with vbakPowered := true, vbakOk := true } }
     else s)

/-- REST_EXIT: main power was never lost, and PWR_FAIL_N has been high for 1 ms (R832). -/
def execRestExit (s : State) : Host.Outcome State Fault Refusal :=
  .next
    (if s.pwr.boot = .rest ∧ s.pwr.mainGood then
      mainGoodNow .restExit { s with pwr := { s.pwr with pwrFailLow := false } }
     else s)

/-- VBAK_LOW: with main power off, the latch clears (R774); whether the domain has lost its power with it is
free (log entry 5), and then MEM_RET_CRC and the mappings are gone too (R965). With main power good nothing
but VBAK_OK changes (R830). -/
def execVbakLow (s : State) : Host.Outcome State Fault Refusal :=
  let s1 := { s with pwr := { s.pwr with vbakOk := false } }
  .next
    (if s.pwr.mainGood then s1
     else if Config.freeBit s.free then
      drawn { s1 with mem := { s1.mem with retLatch := false } }
     else
      drawn { s1 with
        mem := .reset, pwr := { s1.pwr with vbakPowered := false } })

/-- POR_RELEASE: T_POR is over with RESET_N and PWR_FAIL_N high; MODE is sampled, and the PLL starts (R787,
R789). -/
def execPorRelease (straps : Straps) (s : State) : Host.Outcome State Fault Refusal :=
  .next
    (if s.pwr.boot = .porWait then
      let s1 := { s with pwr := { s.pwr with pwrFailLow := false, resetLow := false } }
      { s1 with pwr := { s1.pwr with boot := heldOrPll s1 }, therm := { s1.therm with straps } }
     else s)

/-- Bit of PWR_RESET_CAUSE. -/
def ResetSrc.bit : ResetSrc → Nat
  | .powerOn => 0
  | .restExit => 1
  | .resetN => 2
  | .softReset => 3
  | .pllLoss => 4

/-- PLL_LOCK: the core domain runs, and the cause of the reset is set (R790, Table 14-2). -/
def execPllLock (s : State) : Host.Outcome State Fault Refusal :=
  .next
    (if s.pwr.boot = .pllWait then
      { s with
        pwr := { s.pwr with boot := .init },
        therm := { s.therm with resetCause := BitVec.ofNat 5 (2 ^ s.pwr.bootSrc.bit) } }
     else s)

/-! ### READY and the retention check (R775 to R778, R788, R966) -/

/-- The check of R775 after POWER_ON and REST_EXIT. A region whose seal was not set holds nothing known, so
whether its CRC differs is free (log entry 5); a VOID region is zero-filled (R777). -/
def retentionCheck (ue : Bool) (s : State) : State :=
  let m := s.mem
  let differs := if m.latchSample then regionCrc s != m.retCrc else Config.freeBit s.free
  let valid := m.latchSample && !ue && !differs
  drawn { s with mem := { m with
    retChecked := true, retLatchClear := !m.latchSample, retEcc := ue, retCrcMismatch := differs,
    retStatus := if valid then .valid else .void, shared := if valid then m.shared else [],
    retLatch := false } }

/-- Was the last reset one after which the region is checked? -/
def checksRegion (s : State) : Bool :=
  match s.pwr.bootSrc with
  | .powerOn | .restExit => true
  | _ => false

/-- The SEC_RESULT of an interrupted command (R862, R973). -/
def reportAborted (s : State) : State :=
  if s.sec.abortedPending then
    secResult 10 { s with sec := { s.sec with abortedPending := false } }
  else s

/-- Outputs after READY (R168): fallback states, and either a restart by the device or RESTART_PENDING. -/
def readyOutputs (s : State) : State :=
  { s with pos := { s.pos with
    fallbackApplied := s.pos.fallback.isSome,
    restartPending := s.pos.active && !restartAfterReset s } }

/-- READY is set. -/
def becomeReady (ue : Bool) (s : State) : State :=
  let s1 := if checksRegion s then retentionCheck ue s else s
  let s2 := scanRecords (scanLogHead { s1 with pwr := { s1.pwr with boot := .ready, restEntered := false } })
  let s3 := reportAborted (readyOutputs s2)
  if checksRegion s ∧ s3.mem.retStatus = .void then raise .memRetVoid (retStatusWord s3) s3 else s3

/-! ### The endgame (R818 to R824, Table 14-9) -/

/-- Seals the region: the CRC is stored, and the latch set unless VBAK is below 2.0 V (R773, R823). -/
def sealRegion (crc : Word) (s : State) : State :=
  { s with mem := { s.mem with retCrc := crc, retLatch := s.pwr.vbakOk } }

/-- EVT_PWR_FAIL goes to the log after everything that waits there (R898). -/
def logPwrFail (s : State) : State :=
  let s1 := writeLogAll s.evt.queue.length s
  writeLogEntry (queueEvt 0x0D01 0x0D (pwrStatus s1) s1)

/-- The full path, with the SRAM at full voltage. -/
def endgameFull (s : State) : State :=
  let s1 := enterSafe s
  let s2 := { s1 with mgt := { s1.mgt with openTx := none } }
  let s3 := logPwrFail (writeRecord 1 s2)
  sealRegion (regionCrc s3) s3

/-- The endgame up to the seal. -/
def startEndgame (s : State) : State :=
  let low := s.pwr.ladder == .seal
  let s1 := interruptOtp { s with pwr := { s.pwr with pwrFailLow := true } }
  let s2 := if low then sealRegion s1.therm.sealCrc (gpioFallback s1) else endgameFull s1
  { s2 with pwr := { s2.pwr with endgame := true } }

/-- PWR_FAIL: PWR_FAIL_N has been low for 1 µs. Between the release of the power-on reset and READY the endgame
waits for READY (R789). -/
def execPwrFail (s : State) : Host.Outcome State Fault Refusal :=
  .next
    (if coreUp s then startEndgame s else { s with pwr := { s.pwr with pwrFailLow := true } })

/-- READY (Table 14-2); an endgame that waits starts at once. -/
def execReady (ue : Bool) (s : State) : Host.Outcome State Fault Refusal :=
  .next
    (if s.pwr.boot = .init then
      let s1 := becomeReady ue s
      if s1.pwr.pwrFailLow then startEndgame s1 else s1
     else s)

/-- ENDGAME_COMPLETE: the device is in REST, every ball high impedance (R824, R831). -/
def execEndgameComplete (s : State) : Host.Outcome State Fault Refusal :=
  .next
    (if s.pwr.endgame then
      let s1 := restState s
      { s1 with pwr := { s1.pwr with boot := .rest, restEntered := true } }
     else s)

/-! ### Entry steps (Table 14-6) -/

/-- Every frame in transmission on a port completes (H2). -/
def finishPort (p : Nat) (s : State) : State :=
  let e := ethAt p s
  let fs := e.leaving ++ e.tx.toList ++ e.preempted.toList
  fs.foldl (fun t f => finishTx p f t)
    (updEth p (fun k => { k with tx := none, preempted := none, leaving := [], mpackets := [] }) s)

/-- A converter group stops: its modulators rest, and samples not yet available are lost (R445). -/
def stopGroup (b : Bool) (s : State) : State :=
  let g := cnvGroup b s
  setGroup b { g with running := false, waiting := [] } s

/-- HOLD_REACHED: steps H1 to H3. -/
def reachHold (s : State) : State :=
  let s1 :=
    match s.arb.cyc with
    | some c => applyCycle c s
    | none => s
  let s2 := (List.range 9).foldl (fun t p => finishPort p t) s1
  let s3 := stopGroup true (stopGroup false (stopSerial (ptpStop s2)))
  reachState .hold { s3 with xb := { s3.xb with bufs := [] } }

def execHoldReached (s : State) : Host.Outcome State Fault Refusal :=
  .next
    (if coreUp s && s.pwr.phase == .entering && s.pwr.ladder == .play then reachHold s else s)

/-- Discards a message at step A1 (R803). -/
def ladderDiscard (s : State) (i : Nat) : State :=
  match msgById i s with
  | none => s
  | some m =>
    let ps := queuedOn i s
    let s1 := freeMsg m (unqueue i s)
    let s2 := { s1 with therm := { s1.therm with discardCnt := satInc s1.therm.discardCnt } }
    if m.cls = 5 then
      raiseKingLost 13 3 ps (ps.headD 0xFF) m.routeId (ps.foldl (fun t p => portCount p 15 t) s2)
    else s2

/-- A lane goes to electrical idle at step A2, without a count or an event (R804). -/
def idleLane (s : State) (p : Nat) : State :=
  if (ethAt p s).link then linkLost p s else s

/-- Is the bridge drained (R720)? -/
def bridgeDrained (s : State) : Bool := s.xb.cur.isNone && (takeServable s.xb.queue s).isNone

/-- Does the entry in progress go below a state? -/
def goesTo (l : Ladder) (s : State) : Bool := s.pwr.phase == .entering && decide (l.code ≤ targetCode s)

/-- ADJOURN_REACHED: steps A1 to A4. -/
def reachAdjourn (s : State) : State :=
  let s1 := (s.cls.msgs.map (·.id)).foldl ladderDiscard s
  let s2 := (List.range 9).foldl idleLane s1
  reachState .adjourn { s2 with xb := { s2.xb with frozenAt := some (localNow s) } }

def execAdjournReached (s : State) : Host.Outcome State Fault Refusal :=
  .next
    (if coreUp s && s.pwr.ladder == .hold && goesTo .adjourn s && bridgeDrained s then reachAdjourn s else s)

/-- SEAL_REACHED: steps S1 to S3; PPSO pins go inactive (R210). -/
def reachSeal (s : State) : State :=
  reachState .seal { s with
    therm := { s.therm with sealCrc := regionCrc s },
    tmb := { s.tmb with ppso := s.tmb.ppso.map (fun p => { p with pulse := none }) } }

def execSealReached (s : State) : Host.Outcome State Fault Refusal :=
  .next (if coreUp s && s.pwr.ladder == .adjourn && goesTo .seal s then reachSeal s else s)

/-- PWR_ENTER written through the SPI. -/
def execPwrEnter (val : Word) (s : State) : Host.Outcome State Fault Refusal :=
  .next (ifCore (pwrEnter .spi val) s)

/-! ### Exits (Table 14-7, R810 to R813) -/

/-- Comparators that were not evaluated in SEAL are evaluated again (R226). -/
def cmpAfterSeal (t : TmbBlk) (c : Cmp) : Cmp :=
  if c.armed ∧ c.wakeEn = false then
    (if c.mode = 0 then { c with lateDue := c.lateDue || decide (cmpDelta c.liveS c.liveNs t ≤ 0) }
     else { c with fresh := true })
  else c

/-- An RGMII host port has its link again once HP is powered. -/
def hpLinkBack (s : State) : State :=
  if hpRgmii 8 s && portDefined 8 s && s.pos.active then
    updEth 8 (fun k => { k with link := true, fwd := .forwarding }) s
  else s

/-- A converter group starts again and settles (R444). -/
def resumeGroup (b : Bool) (s : State) : State :=
  if groupEnabled b s then
    setGroup b { cnvGroup b s with running := true, settleUntil := localNow s + 50000 } s
  else s

/-- The engines of a running Position restart under their own rules (R811). -/
def resumeEngines (s : State) : State :=
  if s.pos.running then gooseResume (ptpRestart (resumeGroup true (resumeGroup false s))) else s

/-- The bridge goes on; the stalemate timer did not run in ADJOURN or SEAL (R720). -/
def unfreezeBridge (s : State) : State :=
  match s.xb.frozenAt with
  | none => s
  | some t =>
    let d := localNow s - t
    { s with
      xb := { s.xb with frozenAt := none },
      mgt := { s.mgt with pick := s.mgt.pick.map (fun k => { k with deadline := k.deadline.map (· + d) }) } }

/-- An interrupt line that is low at the return to PLAY counts as one assertion (R719). -/
def cardIntBack (low : BitVec 8) (s : State) (i : Nat) : State :=
  let s1 := updSlot i (fun k => { k with intLow := low.getLsbD i }) s
  if low.getLsbD i && boardRuns s && slotIntMode i s == 1 && slotPresent i s then assertInt i (stampNow s) s1
  else s1

/-- Duration of the exit in ns, saturating (R810). -/
def exitNs (s : State) : Word :=
  BitVec.ofNat 32 (min 0xFFFFFFFF ((localNow s - s.pwr.since) * 4))

/-- EXIT_COMPLETE: the fabric accepts frames, the engines go on, the log is written, and EVT_WAKE comes last
(R810 to R813). -/
def exitDone (xbInt : BitVec 8) (s : State) : State :=
  let deep := s.pwr.ladder != .hold
  let s1 := { s with
    therm := { s.therm with lastExit := exitNs s },
    tmb := if s.pwr.ladder = .seal then { s.tmb with cmps := s.tmb.cmps.map (cmpAfterSeal s.tmb) } else s.tmb,
    pwr := { s.pwr with ladder := .play, phase := .steady, target := none, pnr := none, reg := .none } }
  let s2 := resumeEngines (unfreezeBridge (if deep then hpLinkBack s1 else s1))
  let s3 := (List.range 8).foldl (cardIntBack xbInt) s2
  let s4 := writeLogAll s3.evt.queue.length s3
  raise .wake (wakeCauseWord s4) s4

def execExitComplete (xbInt : BitVec 8) (s : State) : Host.Outcome State Fault Refusal :=
  .next (if coreUp s && s.pwr.phase == .exiting then exitDone xbInt s else s)

/-! ### Wake sources (Table 14-8) -/

/-- WAKE_N_ASSERT. -/
def execWakeNAssert (s : State) : Host.Outcome State Fault Refusal := .next (registerWake 1 s)

/-- GPIO_WAKE: an edge on a GPIO input of the wake mask. -/
def execGpioWake (pin : Fin 16) (s : State) : Host.Outcome State Fault Refusal :=
  .next (if s.pwr.wakeGpio.getLsbD pin && !gpioIsOutput pin s then registerWake 7 s else s)

/-- SERIAL_WAKE: a start-bit edge on a wake channel while the serial engine is stopped (R431). -/
def execSerialWake (ch : Fin 24) (s : State) : Host.Outcome State Fault Refusal :=
  .next (if s.pwr.wakeSer.getLsbD ch then registerWake 4 s else s)

/-- LINK_WAKE: a change of signal detect on a wake port in ADJOURN. -/
def execLinkWake (port : Fin 8) (s : State) : Host.Outcome State Fault Refusal :=
  .next (if s.pwr.wakePorts.getLsbD port && s.pwr.ladder == .adjourn then registerWake 3 s else s)

/-- CARD_WAKE: XB_INT_N of a wake slot is sampled low. -/
def execCardWake (slot : Fin 8) (s : State) : Host.Outcome State Fault Refusal :=
  .next (if s.pwr.wakeSlots.getLsbD slot then registerWake 6 s else s)

/-! ### The thermal trip (R834 to R838) -/

/-- 135 °C and 125 °C in units of 0.25 °C. -/
def tripAt : Int := 540
def releaseBelow : Int := 500

/-- Fallback states of a trip: in SEAL the cards follow at the first A after the exit (R838). -/
def tripOutputs (s : State) : State :=
  if s.pwr.ladder = .seal then gpioFallback { s with pos := { s.pos with fallbackApplied := true } }
  else enterSafe s

/-- The first sample at or above 135 °C (R835). -/
def trip (s : State) : State :=
  let s1 := tripOutputs { s with therm := { s.therm with thermal := true, coolSince := none } }
  let s2 := raise .thermal (s.therm.tjNow.setWidth 32) s1
  if s.pwr.ladder = .seal then s2 else writeRecord 2 s2

/-- THERMAL_SAMPLE. -/
def thermalSample (tj : BitVec 16) (s : State) : State :=
  let hottest := if s.therm.tjMax.toInt < tj.toInt then tj else s.therm.tjMax
  let s1 := { s with therm := { s.therm with tjNow := tj, tjMax := hottest } }
  if s.therm.thermal then
    { s1 with therm := { s1.therm with
      coolSince := if tj.toInt < releaseBelow then s.therm.coolSince.or (some (localNow s)) else none } }
  else if tripAt ≤ tj.toInt then trip s1
  else s1

def execThermalSample (tj : BitVec 16) (s : State) : Host.Outcome State Fault Refusal :=
  .next (if coreUp s then thermalSample tj s else s)

/-- Do R155 or R168 still hold the fallback states (R837)? -/
def fallbackHeld (s : State) : Bool :=
  s.pos.awaitFirstCycle || s.pos.restartPending || (s.pos.active && !s.pos.running)

/-- THERMAL_RELEASE: every sample for THERM_RELEASE_MS was below 125 °C (R837). -/
def thermalRelease (s : State) : State :=
  let s1 := { s with
    therm := { s.therm with thermal := false, coolSince := none },
    pos := { s.pos with fallbackApplied := fallbackHeld s } }
  raise .thermalClear (s.therm.tjNow.setWidth 32) s1

def execThermalRelease (s : State) : Host.Outcome State Fault Refusal :=
  .next
    (match s.therm.coolSince with
     | some t =>
       if coreUp s && s.therm.thermal && due (t + msCycles s.therm.relMs.toNat) s then thermalRelease s else s
     | none => s)

end Sys2Proof.Machine
end

