-- ==== Sys2Proof/Machine/EthRx.lean ====
section
/-!
DEFINITION. Reception on P0 to P7 and HP (spec/06): MAC checks, PRP and HSR, the Ethernet key, PTP delivery, the host
tag, and access requests. The meaning of ETH_FRAME_RX, one whole frame.
-/

namespace Sys2Proof.Machine

/-! ### MAC checks (R304 to R307) -/

/-- Is the FCS of a frame good? -/
def fcsGood (l : List Byte) : Bool := fcsBytes (l.take (l.length - 4)) == l.drop (l.length - 4)

/-- Shortest and longest frame on a port (R304, R346). -/
def minFrame (p : Nat) : Nat := if p = 8 then 80 else 64
def maxFrame (p : Nat) : Nat := if p = 8 then 1538 else 1522

/-- The counter of Table 6-3 of a frame that is not accepted, in the order of R304. -/
def rxFault (p : Nat) (f : RxFrame) : Option Nat :=
  if f.bytes.length < minFrame p then some 3
  else if maxFrame p < f.bytes.length then some 4
  else if fcsGood f.bytes = false then some 1
  else if f.symErr then some 2
  else none

/-- EtherType after the 802.1Q tag, if any (R306). -/
def frameType (l : List Byte) : Nat := if be16 l 12 = 0x8100 then be16 l 16 else be16 l 12

/-- Is the frame admitted by the port's ACCEPT setting (R307)? -/
def vlanAccepted (p : Nat) (l : List Byte) (s : State) : Bool :=
  match u8 (portEntry p s) 5 with
  | 1 => be16 l 12 == 0x8100
  | 2 => be16 l 12 != 0x8100
  | _ => true

/-! ### The Ethernet key (R306, R495 to R498) -/

/-- VLAN ID of a frame on a port (R306). -/
def frameVid (p : Nat) (l : List Byte) (s : State) : Nat :=
  let v := be16 l 14 % 4096
  if be16 l 12 = 0x8100 ∧ v ≠ 0 then v else be16 (portEntry p s) 6 % 4096

/-- The tunnel EtherType of the ROUTES header (R541). -/
def tunnelEtype (s : State) : Nat :=
  let v := be16 (bodyOf tyRoutes s) 0
  if v = 0 then 0x88B5 else v

/-- Does a frame carry a valid tunnel header under the tunnel EtherType (R496)? -/
def isTunnel (l : List Byte) (s : State) : Bool :=
  frameType l == tunnelEtype s && (tunnelMsgs (l.drop (afterType (be16 l 12 == 0x8100)))).isSome

/-- SEL and FIELD of the key. -/
def keySel (l : List Byte) (s : State) : Nat × Nat :=
  let o := afterType (be16 l 12 == 0x8100)
  let e := frameType l
  if e = 0x88B8 ∨ e = 0x88B9 ∨ e = 0x88BA then (0, be16 l o)
  else if isTunnel l s then (1, be16 l (o + 16))
  else (2, be24 l 0 ^^^ be24 l 3)

/-- The Ethernet key (Table 9-3). -/
def ethKey (p : Nat) (l : List Byte) (s : State) : Nat :=
  let x := keySel l s
  let port := if pairMode p s = 0 then p else p - p % 2
  2 * 2 ^ 60 + x.1 * 2 ^ 58 + port * 2 ^ 52 + frameVid p l s * 2 ^ 40 + frameType l * 2 ^ 24 + x.2

/-! ### Ingress stamps (R19, R23) -/

/-- The ingress latency of the TIME section in ps (R244); HP has none. -/
def ingressPsOf (p : Nat) (s : State) : Int :=
  if p < 8 ∧ hasSect tyTime s then asSigned 32 (be32 (bodyOf tyTime s) (680 + 16 * p)) else 0

/-- The stamp of the end of the SFD of a frame that ends now, at the balls. -/
def sfdStamp (p : Nat) (f : RxFrame) (s : State) : Stamp := stampAgo (f.bytes.length * byteCycles p s * 4) s

/-- A stamp less the ingress latency; which of two ns stands for a part of one is open (log entry 6). -/
def lessLatency (ps : Int) (t : Stamp) (free : Nat) : Stamp :=
  let v : Int := (t.absNs : Int) * 1000 - ps
  let n : Int := v / 1000 + (if v % 1000 ≠ 0 ∧ Config.freeBit free then 1 else 0)
  let k := (n % (2 ^ 48 * 1000000000)).toNat
  { secs := BitVec.ofNat 48 (k / 1000000000), ns := BitVec.ofNat 30 (k % 1000000000), tq := t.tq }

/-- Age origin of a frame that ends now. -/
def frameOrigin (p : Nat) (f : RxFrame) (s : State) : Nat := localNow s - f.bytes.length * byteCycles p s

/-! ### Hand-over to the board -/

/-- What redundancy handling made of a frame: its bytes without trailer or tag, RED and SAN of the host tag, whether
the board takes it, and the HSR tag with which it goes on round the ring. -/
structure RedFrame where
  bytes : List Byte
  red : Nat
  san : Bool
  deliver : Bool
  ring : List Byte
  deriving DecidableEq, Repr

/-- A frame that no pair has handled. -/
def RedFrame.plain (l : List Byte) : RedFrame := { bytes := l, red := 0, san := false, deliver := true, ring := [] }

/-- A frame as it is handed to the board (R22, R306, R510, R570). -/
def ethInbound (p : Nat) (f : RxFrame) (r : RedFrame) (tsTag : Option (BitVec 16)) (s : State) : Inbound :=
  let l := r.bytes
  let tagged := be16 l 12 == 0x8100
  let pcp := be16 l 14 / 8192
  { kind := if isTunnel l s then .tunnel else .eth, port := p, channel := none, index := 0, bytes := l,
    etype := frameType l, key := ethKey p l s, len := l.length + 4, tagged, vid := frameVid p l s,
    pcp := if tagged then pcp else 0, prio := if tagged then pcp else defaultPcp p s,
    stamp := lessLatency (ingressPsOf p s) (sfdStamp p f s) s.free, origin := frameOrigin p f s, idle := false,
    red := r.red, san := r.san, tsTag, deliver := r.deliver, ring := r.ring }

/-! ### Frames that fail a check after they were handed over (R47, R557) -/

/-- A message of a bad frame leaves every queue; the ports that had begun to send it end it with an invalid FCS. -/
def stompBad (i : Nat) (started : List Nat) (s : State) : State :=
  let on := queuedOn i s
  (started.filter (fun p => on.contains p && forwarding p s)).foldl (fun t p => portCount p 12 t) (removeMsg i s)

/-- A bad frame whose header had been looked up: steps 3 to 5 have run, and step 6 is undone. -/
def enterBad (m : Inbound) (enter : Inbound → State → State) (started : List Nat) (s : State) : State :=
  stompBad s.cls.nextMsg started (enter m (drawn s))

/-! ### Reception while the ladder leaves PLAY (R801) -/

/-- Does the board take a frame that ends now: in PLAY, or if its first bit came before step H1? -/
def ingressOpen (p : Nat) (f : RxFrame) (s : State) : Bool :=
  boardRuns s || (fabricRuns s && s.pos.running &&
    decide (localNow s ≤ s.pwr.since + (f.bytes.length + 8) * byteCycles p s))

/-! ### Duplicate tables (R322, R326, R329, R330) -/

/-- The live entry of a source address and sequence number. -/
def findDup (k : Nat) (sa : List Byte) (seq : BitVec 16) (s : State) : Option DupEntry :=
  (liveDups k s).find? (fun d => d.sa == sa && d.seq == seq)

/-- Adds a first copy; a full table evicts its oldest entry (R329). -/
def addDup (k : Nat) (sa : List Byte) (seq : BitVec 16) (s : State) : State :=
  let live := liveDups k s
  let d : DupEntry := { sa, seq, created := localNow s, fwdEven := false, fwdOdd := false }
  if live.length < 1024 then updPair k (fun x => { x with dup := live ++ [d] }) s
  else
    setPend (.eth 5) (2 * k) (pairCount k 1 (updPair k (fun x => { x with dup := live.drop 1 ++ [d] }) s))

/-- Notes that a frame has gone on toward a port of its pair (R326). -/
def noteForwarded (p : Nat) (sa : List Byte) (seq : BitVec 16) (s : State) : State :=
  updPair (p / 2) (fun x => { x with dup := x.dup.map (fun d =>
    if d.sa = sa ∧ d.seq = seq then
      (if p % 2 = 0 then { d with fwdEven := true } else { d with fwdOdd := true })
    else d) }) s

/-- RED of a frame from a pair (Table 6-6). -/
def redOf (p : Nat) : Nat := if p % 2 = 0 then 1 else 2

/-- A frame without trailer or tag (R323). -/
def sanFrame (p : Nat) (l : List Byte) (s : State) : Option RedFrame × State :=
  (some { RedFrame.plain l with red := redOf p, san := true }, pairCount (p / 2) 3 s)

/-! ### PRP (R322, R323, R239) -/

/-- Length of the addresses and the 802.1Q tag. -/
def addrEnd (l : List Byte) : Nat := if be16 l 12 = 0x8100 then 16 else 12

/-- Has a frame a valid trailer? -/
def hasTrailer (l : List Byte) : Bool :=
  let n := l.length
  be16 l (n - 2) == 0x88FB && be16 l (n - 4) % 4096 == n - addrEnd l - 2

/-- A frame on a PRP port: what the board gets of it, if anything. -/
def prpRx (p : Nat) (l : List Byte) (s : State) : Option RedFrame × State :=
  if hasTrailer l then
    let k := p / 2
    let n := l.length
    let seq := BitVec.ofNat 16 (be16 l (n - 6))
    let lan := be16 l (n - 4) / 4096
    let s1 := if lan = (if p % 2 = 0 then 0xA else 0xB) then s else pairCount k 2 s
    let out : RedFrame := { RedFrame.plain (l.take (n - 6)) with red := redOf p }
    if frameType l = 0x88F7 then (some out, s1)
    else
      match findDup k (slice l 6 6) seq s1 with
      | some _ => (none, pairCount k 0 s1)
      | none => (some out, addDup k (slice l 6 6) seq s1)
  else sanFrame p l s

/-! ### HSR (R325, R326, R242) -/

/-- Has the frame already gone on toward the port, as the duplicate table has it? -/
def goneToward (q : Nat) (d : Option DupEntry) : Bool :=
  match d with
  | some e => if q % 2 = 0 then e.fwdEven else e.fwdOdd
  | none => false

/-- A frame with an HSR tag at offset `o`. -/
def hsrTagged (p o : Nat) (l : List Byte) (s : State) : Option RedFrame × State :=
  let k := p / 2
  let sa := slice l 6 6
  let seq := BitVec.ofNat 16 (be16 l (o + 4))
  let d := findDup k sa seq s
  let q := partner p
  let on := slice l 0 6 != portMac p s && !goneToward q d && forwarding q s
  let out : RedFrame :=
    { bytes := l.take o ++ l.drop (o + 6), red := redOf p, san := false, deliver := d.isNone,
      ring := if on then slice l o 6 else [] }
  (some out, if d.isNone then addDup k sa seq s else pairCount k 0 s)

/-- A frame on an HSR port. -/
def hsrRx (p : Nat) (l : List Byte) (s : State) : Option RedFrame × State :=
  let o := addrEnd l
  if slice l 6 6 = portMac p s then (none, pairCount (p / 2) 6 s)
  else if be16 l o ≠ 0x892F then sanFrame p l s
  else if l.length < o + 6 ∨ l.length < o + 2 + be16 l (o + 2) % 4096 then (none, pairCount (p / 2) 4 s)
  else hsrTagged p o l s

/-- Redundancy handling of a good frame. -/
def redRx (p : Nat) (l : List Byte) (s : State) : Option RedFrame × State :=
  if pairMode p s = 1 then prpRx p l s
  else if pairMode p s = 2 then hsrRx p l s
  else (some (.plain l), s)

/-! ### PTP (R233, R234, R242, R256) -/

/-- Is a PTP type one of the peer delay messages? -/
def isPdelay (ty : Nat) : Bool := ty == 2 || ty == 3 || ty == 10

/-- Delivers a PTP message of a configured domain to the Timekeeper, and tells what is left for the board: in the roles
that forward it the frame, round a ring everything but peer delay. -/
def ptpDeliver (p : Nat) (f : RxFrame) (r : RedFrame) (s : State) : RedFrame × State :=
  let m := r.bytes.drop (afterType (be16 r.bytes 12 == 0x8100))
  if frameType r.bytes = 0x88F7 then
    match ptpTakes p m s with
    | some d =>
      let ty := ptpType m
      ({ r with deliver := r.deliver && ptpForwards ty s,
                ring := if isPdelay ty && s.ptp.role != 5 then [] else r.ring },
       ptpRx p d m (sfdStamp p f s) s)
    | none => (r, s)
  else (r, s)

/-! ### A good frame on P0 to P7 -/

/-- Hands a frame to the board, and notes where a ring transit frame went on (R326, Table 6-16). -/
def handOver (p : Nat) (f : RxFrame) (r : RedFrame) (s : State) : State :=
  let s1 := enterBoard (ethInbound p f r none s) (drawn s)
  if r.ring.isEmpty || s1.cls.nextMsg == s.cls.nextMsg then s1
  else
    noteForwarded (partner p) (slice r.bytes 6 6) (BitVec.ofNat 16 (be16 r.ring 4)) (pairCount (p / 2) 5 s1)

def portFrame (p : Nat) (f : RxFrame) (l : List Byte) (s : State) : State :=
  let x := redRx p l s
  match x.1 with
  | none => x.2
  | some r =>
    let y := ptpDeliver p f r x.2
    if y.1.deliver || !y.1.ring.isEmpty then handOver p f y.1 y.2 else y.2

/-- A good frame that reaches the board's side of P0 to P7 (R336, R801, Table 14-8). -/
def goodPort (p : Nat) (f : RxFrame) (l : List Byte) (s : State) : State :=
  if ingressOpen p f s = false then
    let s1 := portCount p 10 s
    if s1.pwr.wakePorts.getLsbD p then registerWake 3 s1 else s1
  else if forwarding p s = false then portCount p 10 s
  else portFrame p f l s

/-! ### The host tag (R346 to R352) -/

/-- What the host tag of a frame from the host asks for. -/
inductive HostAsk where
  | bad
  | routed (ts : Option (BitVec 16))
  | direct (route mask : Nat) (ts : Option (BitVec 16))
  | access
  deriving DecidableEq, Repr

/-- Reads a host tag (Table 6-7, R348). -/
def hostAsk (t : List Byte) : HostAsk :=
  let ts : Option (BitVec 16) := if flagAt t 2 7 then some (BitVec.ofNat 16 (be16 t 8)) else none
  if u8 t 0 = 0x13 then (if (t.drop 1).all (· == 0) then .access else .bad)
  else if u8 t 0 = 0x12 ∧ u8 t 1 ≤ 1 ∧ u8 t 2 % 128 = 0 ∧ u8 t 3 = 0 ∧ u8 t 6 = 0 ∧
      (t.drop 10).all (· == 0) = true then
    (if u8 t 1 = 0 then .routed ts else .direct (be16 t 4) (u8 t 7) ts)
  else .bad

/-- The route a DIRECT frame names: a valid record, or a wildcard entry (R350). -/
def directRoute (i : Nat) (s : State) : Option Route :=
  let w := bodyOf tyWildcards s
  if i < 4096 then
    (if u8 (routeEntry i s) 40 = 1 then some { id := i, res := padTo 32 (resultOf i s) } else none)
  else if 0x1000 ≤ i ∧ i - 0x1000 < be16 w 0 then
    some { id := i, res := slice (entryOf w 8 48 (i - 0x1000)) 16 32 }
  else none

/-- Steps 3 to 7 of a DIRECT frame; it makes no lookup, so HITS stays (R350, Table 9-16). -/
def enterDirect (route mask : Nat) (m : Inbound) (s : State) : State :=
  match directRoute route s with
  | none => unrouted m s
  | some r =>
    let ps := (keptPorts m r s).filter (fun p => decide (p < 8) && natBit mask p)
    if resEnabled r.res && !ps.isEmpty then runMessage m r ps s else unrouted m s

/-- How a frame from the host enters the board. -/
def hostEnter (a : HostAsk) : Inbound → State → State :=
  match a with
  | .direct route mask _ => enterDirect route mask
  | _ => enterBoard

/-- TS_TAG of a frame that asks for an egress timestamp (R351). -/
def hostTs (a : HostAsk) : Option (BitVec 16) :=
  match a with
  | .direct _ _ ts | .routed ts => ts
  | _ => none

/-! ### Access requests (R353, R354, R359) -/

/-- Bytes of a response without its entries, from the destination address through the FCS. -/
def respFixed : Nat := 26

/-- Data words of an access WRITE or ATOMIC at an offset. -/
def accWords : Nat → List Byte → List Word
  | 0, _ => []
  | n + 1, l => BitVec.ofNat 32 (be32 l 0) :: accWords n (l.drop 4)

/-- The bytes that the data of a command take, if its opcode and data are whole (Table 6-8). -/
def accNeed (l : List Byte) : Option Nat :=
  let op := u8 l 0
  let n := if op = 0x03 then some 0
    else if op = 0x02 then some (4 * u8 l 1)
    else if op = 0x60 ∧ 12 ≤ l.length then some (8 + 4 * (be32 l 8 % 2))
    else none
  n.filter (fun k => decide (8 + k ≤ l.length))

/-- Is a command malformed although its place is known? -/
def accBad (l : List Byte) : Bool :=
  let op := u8 l 0
  be24 l 5 != 0 || (if op = 0x60 then u8 l 1 != 0 || decide (4 ≤ be32 l 8) else u8 l 1 == 0 || decide (64 < u8 l 1))

/-- Data words of a command's response entry. -/
def accDataSize (l : List Byte) : Nat :=
  if u8 l 0 = 0x03 then (if u8 l 1 ≤ 64 then u8 l 1 else 0)
  else if u8 l 0 = 0x60 then 1 + be32 l 8 % 2
  else 0

/-- A command from its bytes; `total` are the bytes of the response so far (R356). -/
def accCmd (l : List Byte) (total : Nat) : AccCmd :=
  match accNeed l with
  | none =>
    { opcode := BitVec.ofNat 8 (u8 l 0), words := u8 l 1, addr := BitVec.ofNat 24 (be24 l 2), data := [],
      preset := some (if 1522 < total + 8 then 9 else 5), dsize := 0 }
  | some k =>
    let long := decide (1522 < total + 8 + 4 * accDataSize l)
    { opcode := BitVec.ofNat 8 (u8 l 0), words := u8 l 1, addr := BitVec.ofNat 24 (be24 l 2),
      data := accWords (k / 4) (l.drop 8),
      preset := if long then some 9 else if accBad l then some 5 else none,
      dsize := if long then 0 else accDataSize l }

/-- The commands of a request in order. After one whose length is not known every further one is malformed. -/
def accCmds : Nat → List Byte → Nat → List AccCmd
  | 0, _, _ => []
  | n + 1, l, total =>
    let c := accCmd l total
    let rest := match accNeed l with
      | none => []
      | some k => l.drop (8 + k)
    c :: accCmds n rest (total + 8 + 4 * c.dsize)

/-- Reads an access request, from its destination address on; none where it is malformed. -/
def accRequest (l : List Byte) (down : Bool) : Option AccReq :=
  if 22 ≤ l.length ∧ be16 l 12 = 0x88B5 ∧ u8 l 14 = 1 ∧ 1 ≤ u8 l 15 ∧ u8 l 15 ≤ 32 ∧ be16 l 18 ≤ 1 ∧
      be16 l 20 = 0 then
    some { src := slice l 6 6, reqId := BitVec.ofNat 16 (be16 l 16), flags := BitVec.ofNat 16 (be16 l 18), down,
           sent := 0, cmds := accCmds (u8 l 15) (l.drop 22) respFixed, done := [], started := none,
           waitTag := none, landed := none }
  else none

def countTagErr (s : State) : State := { s with hp := { s.hp with tagErr := satInc s.hp.tagErr } }
def countAccessDrop (s : State) : State := { s with hp := { s.hp with accessDrop := satInc s.hp.accessDrop } }

/-- Holds an access frame, or discards the third (R354); one held in HOLD wakes the device (Table 14-8). -/
def holdAccess (a : AccReq) (s : State) : State :=
  if s.hp.held.length < 2 then
    registerWake 5 { s with hp := { s.hp with held := s.hp.held ++ [a] } }
  else raiseAt .ethAccessDrop 8 (a.reqId.setWidth 32) (countAccessDrop s)

/-- ACCESS_ROUTE of the HP entry (R359, R975). -/
def accessRoute (s : State) : Nat := be16 (portEntry 8 s) 28

/-- An access request (R353, R354); its route polices it (R359, R570). -/
def accessRx (f : RxFrame) (l : List Byte) (s : State) : State :=
  if flagAt (portEntry 8 s) 3 2 = false then countAccessDrop s
  else
    let r : Route := { id := accessRoute s, res := padTo 32 (resultOf (accessRoute s) s) }
    let v := police (ethInbound 8 f (.plain l) none s) r s
    let take (down : Bool) (t : State) : State :=
      match accRequest l down with
      | none => countTagErr t
      | some a => holdAccess a t
    match v.1 with
    | .conform => take false v.2
    | .drop => countExcess r (routeClass r s) false v.2
    | .downgrade => take true (countExcess r (routeClass r s) true v.2)

/-- A good frame on HP: `t` is its host tag, `l` the frame after it (R348 to R353, R801). -/
def goodHost (f : RxFrame) (t l : List Byte) (s : State) : State :=
  match hostAsk t with
  | .bad => countTagErr s
  | .access => accessRx f l s
  | a => if ingressOpen 8 f s then hostEnter a (ethInbound 8 f (.plain l) (hostTs a) s) (drawn s) else s

/-! ### Reception -/

/-- The frame behind the host tag on HP, without the FCS. -/
def innerFrame (p : Nat) (f : RxFrame) : List Byte :=
  let l := f.bytes.take (f.bytes.length - 4)
  if p = 8 then l.drop 16 else l

/-- Was the header of a bad frame looked up: 64 wire bytes beyond the host tag have arrived on a port that forwards, a
message came of them, and no pair waits for the trailer or the tag? -/
def badEntered (p : Nat) (f : RxFrame) (s : State) : Bool :=
  decide (minFrame p ≤ f.bytes.length + 8) && ingressOpen p f s && forwarding p s && pairMode p s == 0 &&
    frameType (innerFrame p f) != 0x8808 && vlanAccepted p (innerFrame p f) s &&
    (p != 8 ||
      (match hostAsk (f.bytes.take 16) with
       | .bad | .access => false
       | _ => true))

/-- A frame that is not accepted, counted in counter `i` (R304, R47, R557). -/
def badFrame (p i : Nat) (f : RxFrame) (s : State) : State :=
  let a : HostAsk := if p = 8 then hostAsk (f.bytes.take 16) else .routed none
  let m := ethInbound p f (.plain (innerFrame p f)) none s
  errorCount p i (if badEntered p f s then enterBad m (hostEnter a) f.started s else s)

/-- An accepted frame (R305, R307, Table 6-3). -/
def goodFrame (p : Nat) (f : RxFrame) (s : State) : State :=
  let l := innerFrame p f
  if frameType l = 0x8808 then portCount p 9 s
  else if vlanAccepted p l s = false then portCount p 8 s
  else if p = 8 then goodHost f (f.bytes.take 16) l (portCount p 0 s)
  else goodPort p f l (portCount p 0 s)

/-- The partner's mPackets (R312): a verify is answered, a respond ends the verification. -/
def mPacketRx (p : Nat) (f : RxFrame) (s : State) : State :=
  if 8 ≤ p then s
  else if f.verifyPkt then updEth p (fun k => { k with mpackets := k.mpackets ++ [.respond] }) s
  else updEth p (fun k =>
    if k.verify = .verifying then { k with verify := .succeeded, verifyDue := none } else k) s

def ethFrameRx (p : Nat) (f : RxFrame) (s : State) : State :=
  if (lanesOn s && portDefined p s && (ethAt p s).link) = false then s
  else if f.verifyPkt || f.respondPkt then mPacketRx p f s
  else if f.fragment then errorCount p 5 s
  else
    match rxFault p f with
    | some i => badFrame p i f s
    | none => goodFrame p f s

/-- ETH_FRAME_RX (R304). -/
def execEthFrameRx (port : Fin 9) (frame : RxFrame) (s : State) : Host.Outcome State Fault Refusal :=
  .next (ethFrameRx port frame s)

end Sys2Proof.Machine
end

