-- ==== Sys2Proof/Machine/Memory.lean ====
section
/-!
DEFINITION. Accesses to the shared region from port B and from access frames, with the rules for atomics and for
two accesses to one word (spec/13), and the sweeper with its repairs.
-/

namespace Sys2Proof.Machine

/-! ### Places (R727 to R729, R739) -/

/-- Bank, row and word of a shared-region offset. -/
def sharedPlace (a : Nat) : BankPlace :=
  { bank := 32 + a / 65536, row := a % 65536 / 64, word := a % 64 / 8 }

/-- The system area: endgame records and event log. -/
def inSystemArea (a : Nat) : Bool := decide (0x1B000 ≤ a)

/-- Does port B win the page of an offset (R747)? -/
def portBWins (a : Nat) (s : State) : Bool := natBit (be32 (bodyOf tyMemory s) 16) (a / 4096)

/-! ### The port-A access of the same cycle (R746, R753, R967) -/

/-- Does a recorded write touch the 8-byte word of an offset? -/
def touchesWord (a : Nat) (r : PortARec) : Bool :=
  decide (r.offset / 8 ≤ a / 8) && decide (a / 8 * 8 < r.offset + r.new.length)

/-- The port-A write that reaches the word in the same cycle. -/
def sameCycleRec (a : Nat) (env : BankEnv) (s : State) : Option PortARec :=
  if env.sameCycle then s.mem.portA.find? (touchesWord a) else none

/-- Where a recorded write lies within the 8-byte word of an offset: start and length. -/
def recSpan (a : Nat) (r : PortARec) : Nat × Nat :=
  let w := a / 8 * 8
  let lo := max r.offset w
  (lo, min (r.offset + r.new.length) (w + 8) - lo)

/-- The bytes a record replaced, and those it wrote, within that span. -/
def recOld (a : Nat) (r : PortARec) : List Byte := slice r.old ((recSpan a r).1 - r.offset) (recSpan a r).2
def recNew (a : Nat) (r : PortARec) : List Byte := slice r.new ((recSpan a r).1 - r.offset) (recSpan a r).2

/-- Have the write of `n` bytes at `a` and the record a byte in common? -/
def overlaps (a n : Nat) (r : PortARec) : Bool :=
  decide ((recSpan a r).1 < a + n) && decide (a < (recSpan a r).1 + (recSpan a r).2)

/-! ### Lost writes (R748) -/

/-- Counts and reports a discarded write; `portB` names the losing port. -/
def loseWrite (portB : Bool) (a : Nat) (s : State) : State :=
  raise .memLost (BitVec.ofNat 32 ((if portB then 2 ^ 31 else 0) + a))
    { s with mem := { s.mem with lostCnt := satInc s.mem.lostCnt } }

/-- Status WRITE_LOST for a completed entry of the access frame in hand (Table 6-9). -/
def entryLost (s : State) (k : Nat) : State :=
  let mark (e : AccEntry) : AccEntry :=
    { e with status := if e.status = 0 then 2 else e.status, words := e.words - 1 }
  match s.hp.held with
  | [] => s
  | q :: qs => { s with hp := { s.hp with held := { q with done := upd mark q.done k } :: qs } }

/-- The port-A write of a record loses: its bytes in the word are put back. -/
def losePortA (a : Nat) (r : PortARec) (s : State) : State :=
  let lo := (recSpan a r).1
  let s1 := loseWrite false lo (sharedPut lo (recOld a r) s)
  let s2 := { s1 with mem := { s1.mem with lostAddrA := BitVec.ofNat 17 lo } }
  (r.entry.toList).foldl entryLost s2

/-! ### Port B (R738 to R753) -/

/-- A plain write of bytes within one 8-byte word; `false` tells that it was lost (R111). -/
def portBWrite (a : Nat) (bs : List Byte) (env : BankEnv) (s : State) : Bool × State :=
  let s0 := noteEcc (sharedPlace a) env.ecc s
  match sameCycleRec a env s0 with
  | none => (true, sharedPut a bs s0)
  | some r =>
    if r.atomic || !overlaps a bs.length r then (true, sharedPut a bs s0)
    else if portBWins a s0 then (true, sharedPut a bs (losePortA a r s0))
    else (false, loseWrite true a s0)

/-- What memory held before the present cycle, in the word of an offset. -/
def beforeCycle (a : Nat) (env : BankEnv) (s : State) : State :=
  match sameCycleRec a env s with
  | none => s
  | some r => sharedPut (recSpan a r).1 (recOld a r) s

/-- A read of `n` bytes within one word: the value, and the state with what ECC found (R753, Table 13-5). -/
def portBRead (a n : Nat) (env : BankEnv) (s : State) : List Byte × State :=
  let bs := if env.ecc = .uncorrectable then List.replicate n 0 else sharedGet a n (beforeCycle a env s)
  (bs, noteEcc (sharedPlace a) env.ecc s)

/-- Width of an atomic in bytes (Table 13-4). -/
def atomicWidth (op : Nat) : Nat := if op % 2 = 1 then 8 else 4

/-- What an atomic writes, from the old value and the operand. -/
def atomicNew (op old opd : Nat) : Nat :=
  if op < 2 then (old + opd) % 256 ^ atomicWidth op else opd

/-- An atomic from port B: the old value. It runs after an atomic of port A and before its plain write (R751,
R752); an uncorrectable word reads as zero. -/
def portBAtomic (a op opd : Nat) (env : BankEnv) (s : State) : Nat × State :=
  let w := atomicWidth op
  let s0 := noteEcc (sharedPlace a) env.ecc s
  let plain := (sameCycleRec a env s0).filter (fun r => !r.atomic)
  let before :=
    match plain with
    | some r => sharedPut (recSpan a r).1 (recOld a r) s0
    | none => s0
  let old := if env.ecc = .uncorrectable then 0 else ofLE (sharedGet a w before)
  let s1 := sharedPut a (toLE w (atomicNew op old opd)) before
  (old,
    match plain with
    | some r => sharedPut (recSpan a r).1 (recNew a r) s1
    | none => s1)

/-! ### Port A from access frames (R736, R745) -/

/-- A word written by entry `k` of an access frame. -/
def frameWrite (a : Nat) (w : Word) (k : Nat) (env : BankEnv) (s : State) : State :=
  portAWrite a (toLE 4 w.toNat) false (some k) (noteEcc (sharedPlace a) env.ecc s)

/-- An atomic of entry `k`: the old value. -/
def frameAtomic (a op opd k : Nat) (env : BankEnv) (s : State) : Nat × State :=
  let w := atomicWidth op
  let s0 := noteEcc (sharedPlace a) env.ecc s
  let old := if env.ecc = .uncorrectable then 0 else ofLE (sharedGet a w s0)
  (old, portAWrite a (toLE w (atomicNew op old opd)) true (some k) s0)

/-- A word read by an access frame. -/
def frameRead (a : Nat) (env : BankEnv) (s : State) : List Byte × State :=
  let bs := if env.ecc = .uncorrectable then List.replicate 4 0 else sharedGet a 4 s
  (bs, noteEcc (sharedPlace a) env.ecc s)

/-! ### Sweep order (R758 to R763) -/

/-- Rows of a bank (Table 13-2). -/
def bankRows (b : Nat) : Nat := if b < 34 then 1024 else if b < 36 then 6144 else 2048

def spareOf (b : Nat) (s : State) : SpareRec := nth .none s.mem.spares b

def spareAFree (k : SpareRec) : Bool := k.rowA.isNone && !k.badA
def spareBFree (k : SpareRec) : Bool := k.rowB.isNone && !k.badB

/-- MEM_SPAREb.FREE. -/
def freeSpares (k : SpareRec) : Nat := (if spareAFree k then 1 else 0) + (if spareBFree k then 1 else 0)

/-- The row after one in sweep order, and whether a new sweep starts with it (R760). -/
def rowAfter (r : RowId) (s : State) : RowId × Bool :=
  let n := bankRows r.bank
  let k := spareOf r.bank s
  if r.row + 1 < n then ({ r with row := r.row + 1 }, false)
  else if r.row < n ∧ spareAFree k then ({ r with row := n }, false)
  else if r.row < n + 1 ∧ spareBFree k then ({ r with row := n + 1 }, false)
  else if r.bank < 36 then ({ bank := r.bank + 1, row := 0 }, false)
  else ({ bank := 0, row := 0 }, true)

/-- Pace in force, in µs (Table 13-8); 64 without a Position. -/
def sweepPaceUs (s : State) : Nat :=
  let p := be16 (bodyOf tyMemory s) 20
  if p = 0 then 64 else p

/-- The next pace tick on TMB_LOCAL (R759). -/
def nextPaceTick (s : State) : Nat :=
  let p := usCycles (sweepPaceUs s)
  (localNow s / p + 1) * p

/-- Takes the row of this visit: the oldest mark, or the next in order. -/
def takeRow (s : State) : RowId × State :=
  match s.mem.marks with
  | r :: rs => (r, { s with mem := { s.mem with marks := rs } })
  | [] =>
    let r := s.mem.sweepNext
    let n := rowAfter r s
    (r, { s with mem := { s.mem with
      sweepNext := n.1, sweepCount := if n.2 then s.mem.sweepCount + 1 else s.mem.sweepCount } })

/-! ### Repair (R764 to R769, Table 13-7) -/

/-- Bank and row as the MEM events report them (Table 16-3). -/
def rowDatum (r : RowId) : Word := BitVec.ofNat 32 (r.bank * 2 ^ 24 + r.row)

def dropSuspect (r : RowId) (s : State) : State :=
  { s with mem := { s.mem with suspects := s.mem.suspects.filter (fun x => x != r) } }

def setSpare (b : Nat) (k : SpareRec) (s : State) : State :=
  { s with mem := { s.mem with spares := upd (fun _ => k) s.mem.spares b } }

/-- The mapping after a row of the bank must move; none where no spare is free (R767). -/
def remapped (row : Nat) (k : SpareRec) : Option SpareRec :=
  if k.rowA = some row then
    (if spareBFree k then some { rowA := none, badA := true, rowB := some row, badB := false } else none)
  else if k.rowB = some row then
    (if spareAFree k then some { rowA := some row, badA := false, rowB := none, badB := true } else none)
  else if spareAFree k then some { k with rowA := some row }
  else if spareBFree k then some { k with rowB := some row }
  else none

/-- Adds to a list without repeats. -/
def addOnce (n : Nat) (l : List Nat) : List Nat := if l.contains n then l else l ++ [n]

/-- A row that cannot be repaired is retired, or stays in service (Table 13-7). -/
def retireRow (r : RowId) (s : State) : State :=
  if r.bank < 32 then
    { s with mem := { s.mem with retiredCells := addOnce (r.row / 2 * 32 + r.bank) s.mem.retiredCells } }
  else if r.bank = 36 then
    { s with mem := { s.mem with retiredDescs := addOnce r.row s.mem.retiredDescs } }
  else s

/-- A row must be remapped (R766 to R768). -/
def remapRow (r : RowId) (s : State) : State :=
  let s1 := dropSuspect r s
  match remapped r.row (spareOf r.bank s1) with
  | some k => raise .memRepair (rowDatum r) (setSpare r.bank k s1)
  | none => raise .memUnrepairable (rowDatum r) (retireRow r s1)

/-- An uncorrectable error that SAVE found, by bank (Table 13-5). Which message a cell or a descriptor belongs to
is open, so the one that is lost, if any, is free (log entry 5). -/
def sweepLoss (b : Nat) (s : State) : State :=
  if b < 32 ∨ b = 36 then
    let n := s.cls.msgs.length
    let k := (Config.freeWord s.free).toNat % (n + 1)
    match s.cls.msgs[k]? with
    | some m => loseToEcc m.id 0xFF (drawn s)
    | none => drawn s
  else if b = 34 then { s with pos := { s.pos with bankA := { s.pos.bankA with ue := true } } }
  else if b = 35 then { s with pos := { s.pos with bankB := { s.pos.bankB with ue := true } } }
  else s

/-- What SAVE finds in word `i` and the words after it. -/
def saveWords (r : RowId) : Nat → List Ecc → State → State
  | _, [], s => s
  | i, e :: es, s =>
    let s1 := noteEcc { bank := r.bank, row := r.row, word := i } e s
    saveWords r (i + 1) es (if e = .uncorrectable then sweepLoss r.bank s1 else s1)

/-- TEST and what follows it for a row in service (R764 to R766). -/
def judgeRow (r : RowId) (f : SweepFinding) (s : State) : State :=
  let suspect := s.mem.suspects.contains r
  if f.testFails = false then
    (if suspect then
      dropSuspect r { s with mem := { s.mem with transientCnt := satInc s.mem.transientCnt } }
     else s)
  else if f.multi || suspect || decide (16 ≤ s.mem.suspects.length) then remapRow r s
  else { s with mem := { s.mem with suspects := s.mem.suspects ++ [r] } }

/-- An unused spare that fails is withdrawn (R762). -/
def judgeSpare (r : RowId) (f : SweepFinding) (s : State) : State :=
  let k := spareOf r.bank s
  let second := r.row != bankRows r.bank
  if f.testFails = false then s
  else if second then (if spareBFree k then setSpare r.bank { k with badB := true } s else s)
  else if spareAFree k then setSpare r.bank { k with badA := true } s
  else s

/-- One visit (Table 13-6). -/
def sweepVisit (f : SweepFinding) (s : State) : State :=
  let t := takeRow s
  let r := t.1
  let s1 := { t.2 with mem := { t.2.mem with
    sweepBank := r.bank, sweepRow := r.row, sweepDue := nextPaceTick s,
    starveCnt := if f.starved then satInc t.2.mem.starveCnt else t.2.mem.starveCnt } }
  if bankRows r.bank ≤ r.row then judgeSpare r f s1 else judgeRow r f (saveWords r 0 f.errs s1)

/-- SWEEPER_VISIT: a pace tick in PLAY (R759, R763). -/
def execSweeperVisit (found : SweepFinding) (s : State) : Host.Outcome State Fault Refusal :=
  .next (if inPlay s && due s.mem.sweepDue s then sweepVisit found s else s)

end Sys2Proof.Machine
end

