-- ==== Sys2Proof/Machine/Fire.lean ====
section
/-!
DEFINITION. Comparator fires (spec/04, R190 to R212): which comparators fire in a cycle, how they reload,
and the actions they carry out.
-/

namespace Sys2Proof.Machine

/-! ### Which comparators fire -/

/-- A comparator fires: armed, evaluated in this cycle, and Δ ≤ 0 (R190, R199, R226). -/
def cmpDue (s : State) (c : Cmp) : Bool :=
  timeRuns s && c.armed && !c.fresh && (!inSeal s || c.wakeEn) &&
    decide (cmpDelta c.liveS c.liveNs s.tmb ≤ 0)

/-- The comparator after its fire: disarmed, or its target reloaded (R196 to R200). -/
def cmpAfterFire (c : Cmp) : Cmp :=
  if c.mode = 0 then { c with armed := false, late := c.late || c.lateDue, lateDue := false }
  else
    let g := nextTarget c
    { c with liveS := g.1, liveNs := g.2, fresh := true }

/-- One fire: the comparator, its fields as it fired, and the seconds of its target. -/
structure Fire where
  n : Nat
  cmp : Cmp
  secs : BitVec 48
  deriving DecidableEq, Repr

/-- The 48-bit seconds of a live target: those nearest device time. -/
def targetSecs (c : Cmp) (s : State) : BitVec 48 :=
  s.tmb.secs + BitVec.ofInt 48 (c.liveS - s.tmb.secs.setWidth 32).toInt

/-- The fires of this cycle among the listed comparators, in ascending order. -/
def fires (ns : List Nat) (s : State) : List Fire :=
  (ns.filter (fun n => cmpDue s (cmpAt n s))).map (fun n =>
    let c := cmpAt n s
    { n, cmp := { c with late := c.late || c.lateDue }, secs := targetSecs c s })

/-- Absolute ns of the instant handed to the action (R203). -/
def Fire.absNs (f : Fire) : Nat := f.secs.toNat * 1000000000 + f.cmp.liveNs.toNat

/-- Every comparator that fires sets its FIRED bit and reloads (R202). -/
def markFires : List Fire → State → State
  | [], s => s
  | f :: fs, s =>
    let s1 := setCmp f.n (cmpAfterFire (cmpAt f.n s)) s
    markFires fs { s1 with tmb := { s1.tmb with fired := setBit s1.tmb.fired f.n } }

/-! ### Actions -/

/-- MISSED of a comparator goes up by one. -/
def cmpMissed (n : Nat) (s : State) : State :=
  setCmp n { cmpAt n s with missed := satInc (cmpAt n s).missed } s

/-- Is the owner of the time base locked (R209)? -/
def ownerLocked (s : State) : Bool :=
  s.tmb.owner == 0 || (s.tmb.owner == 2 && s.tmb.pps.st == 2) ||
    (s.tmb.owner == 1 && (activeDomain s).servo == 3)

/-- Is the action not to be carried out for this fire (R206, R209, R210)? -/
def actionStopped (a : BitVec 4) (s : State) : Bool :=
  if a = 0 then false
  else if a.toNat ≤ 4 then
    inSeal s || ((nth .reset s.tmb.ppso (a.toNat - 1)).qualify && !ownerLocked s)
  else if a = 7 then !(boardRuns s && hasSect tyArbiter s)
  else if a = 8 then !(boardRuns s && hasSect tyBridge s)
  else !inPlay s

/-- A PPSO pulse from a target (R207, R208); `false` tells that its end has already passed. -/
def startPulse (m : Nat) (f : Fire) (s : State) : Bool × State :=
  let p : Ppso := nth .reset s.tmb.ppso m
  let g := moveTarget f.cmp.liveS f.cmp.liveNs (p.widthUs.toNat * 1000 : Nat)
  let passed : Bool := f.cmp.late && decide (cmpDelta g.1 g.2 s.tmb ≤ 0)
  if passed then (false, s)
  else (true, { s with tmb := { s.tmb with
      ppso := upd (fun (k : Ppso) => { k with pulse := some (g.1, g.2.toNat) }) s.tmb.ppso m } })

/-- Grid index and count of a PER_SECOND comparator (R459). -/
def Fire.grid (f : Fire) : Option (Nat × Nat) :=
  if f.cmp.mode = 2 then
    some (gridIndex f.cmp.liveNs.toNat f.cmp.period.toNat, f.cmp.period.toNat)
  else none

/-- A control cycle starts, after the swap that waits for it (R160, R599); a trigger that comes too early
counts as an overrun. -/
def startCycle1 (f : Fire) (gpio : BitVec 16) (s : State) : State :=
  if cycleBusy f.absNs s then arbOverrun s
  else
    let s1 := swapAtCycle s
    if hasSect tyArbiter s1 then runCycle f.secs f.cmp.liveNs gpio s1 else s1

/-- Carries out an action once, at the fire given (R203, R204). -/
def carryOut (f : Fire) (env : CmpEnv) (s : State) : State :=
  let ns := f.cmp.liveNs
  match f.cmp.action.toNat with
  | 0 => s
  | 5 =>
    let s1 := if boardRuns s then actionCnvA f.secs ns f.grid env.adc s else s
    if boardRuns s && !alnGridB s then startRow f.secs ns s1 else s1
  | 6 =>
    let s1 := if boardRuns s then actionCnvB f.secs ns f.grid env.adc s else s
    if boardRuns s && alnGridB s then startRow f.secs ns s1 else s1
  | 7 => startCycle1 f env.gpio s
  | 8 => actionScan s
  | 9 => if boardRuns s then actionSlot f.cmp.line.toNat f.secs ns s else s
  | a =>
    let r := startPulse (a - 1) f s
    if r.1 then r.2 else cmpMissed f.n r.2

/-- The same action for R204: equal ACTION, and equal LINE for SER_SLOT. -/
def sameAction (a b : Fire) : Bool :=
  a.cmp.action == b.cmp.action && (a.cmp.action != 9 || a.cmp.line == b.cmp.line)

/-- The earliest of the fires with the action of `f`. -/
def earliest (f : Fire) (l : List Fire) : Fire :=
  (l.filter (sameAction f)).foldl (fun a b =>
    if b.absNs < a.absNs ∨ (b.absNs = a.absNs ∧ b.n < a.n) then b else a) f

/-- Counts the fires whose action is not carried out. -/
def countMissed : List Fire → State → State
  | [], s => s
  | f :: fs, s => countMissed fs (cmpMissed f.n s)

/-- Carries out the listed actions. -/
def carryAll (env : CmpEnv) : List Fire → State → State
  | [], s => s
  | f :: fs, s => carryAll env fs (carryOut f env s)

/-- The wake request of the fires with WAKE_EN (R202, Table 14-8 bit 2). -/
def wakeFires (l : List Fire) (s : State) : State :=
  if l.any (fun f => f.cmp.wakeEn) then registerWake 2 s else s

/-- All fires of this cycle among the listed comparators. -/
def fireCmps (ns : List Nat) (env : CmpEnv) (s : State) : State :=
  let l := fires ns s
  let stopped := l.filter (fun f => actionStopped f.cmp.action s)
  let run := l.filter (fun f => !actionStopped f.cmp.action s)
  let once := run.filter (fun f => (earliest f run).n == f.n)
  wakeFires l (carryAll env once (countMissed stopped (markFires l s)))

/-- CMP_FIRE: every comparator that is due fires. -/
def execCmpFire (env : CmpEnv) (s : State) : Host.Outcome State Fault Refusal :=
  .next (fireCmps (List.range 16) env s)

/-- CMP_ARM: a write of TMB_CMPn_CTRL with ARM set (R191 to R195). A fire due in this cycle takes place
first (R205), and so does the fire of an arm that comes late (R192). -/
def execCmpArm (n : Fin 16) (ctrl : Word) (env : CmpEnv) (s : State) : Host.Outcome State Fault Refusal :=
  .next (ifCore (fun t => fireCmps [n.val] env (writeCmpCtrl n (setBit ctrl 0) (fireCmps [n.val] env t))) s)

/-- CMP_DISARM: a write of TMB_CMPn_CTRL with ARM clear; a fire of this cycle takes place (R194, R205). -/
def execCmpDisarm (n : Fin 16) (ctrl : Word) (env : CmpEnv) (s : State) :
    Host.Outcome State Fault Refusal :=
  .next (ifCore (fun t => writeCmpCtrl n (clearBit ctrl 0) (fireCmps [n.val] env t)) s)

/-- PPSO_PULSE_END: the pin returns to its inactive level (R207). -/
def execPpsoPulseEnd (m : Fin 4) (s : State) : Host.Outcome State Fault Refusal :=
  .next
    (match (nth .reset s.tmb.ppso m).pulse with
     | some (a, b) =>
       if timeRuns s && decide (cmpDelta a (BitVec.ofNat 30 b) s.tmb ≤ 0) then
         { s with tmb := { s.tmb with ppso := upd (fun (k : Ppso) => { k with pulse := none }) s.tmb.ppso m } }
       else s
     | none => s)

end Sys2Proof.Machine
end

