-- ==== Sys2Proof/Machine/RteEdit.lean ====
section
/-!
DEFINITION. What a register write can report, and the live edits of the routing table (spec/09, R546 to
R553).
-/

namespace Sys2Proof.Machine

/-- What the write of one register word reports: nothing, CMD_REJECT, ADDR_ERR, a lost shared-region write,
or NOT_READY for want of a posted-write entry. -/
inductive WriteRes where
  | ok | reject | addrErr | lost | notReady
  deriving DecidableEq, Repr

/-- Are edits accepted (R546)? -/
def editsAccepted (s : State) : Bool :=
  flagAt (bodyOf tyRoutes s) 3 0 && !enforced s && s.pos.stage != .preparing && s.pos.stage != .swapWait

/-- Writable bits of word `k` of a window entry: bits that Table 9-6 gives as zero, and reads as zero, ignore
writes (R2). -/
def editMask (k : Nat) : Word :=
  nth 0 [0x3FFFC701, 0x83FFFFFF, 0x81FFFFFF, 0xFFFFFFFF, 0x3FFFFFFF, 0xFFFFFFFF] k

/-- The edit buffer of one requester (R547). -/
def editBuf (frame : Bool) (s : State) : Option EditBuf := if frame then s.rte.bufFrame else s.rte.bufSpi

/-- Replaces the edit buffer of one requester. -/
def setEditBuf (frame : Bool) (b : Option EditBuf) (s : State) : State :=
  { s with rte := if frame then { s.rte with bufFrame := b } else { s.rte with bufSpi := b } }

/-- The current words 0 to 5 of entry `i`. -/
def entryWords (i : Nat) (s : State) : List Word :=
  (List.range 6).map (fun k => BitVec.ofNat 32 (be32 (resultOf i s) (4 * k)))

/-- May the six words, as bytes, replace the result of entry `i` (R549)? -/
def editAllowed (i : Nat) (new : List Byte) (s : State) : Bool :=
  let old := resultOf i s
  let first := slice (routeEntry i s) 8 24
  u8 (routeEntry i s) 40 == 1 &&
    resClass new == resClass old && resUsePcp new == resUsePcp old && slice new 8 2 == slice old 8 2 &&
    slice new 12 4 == slice old 12 4 &&
    (List.range 16).all (fun b => !natBit (be16 new 0) b || natBit (be16 first 0) b) &&
    (resultRange s.pos.tables (padTo 32 new) 0).isEmpty

/-- Applies six words to entry `i` in one cycle, or refuses them (R548, R549). -/
def applyEdit (i : Nat) (ws : List Word) (s : State) : WriteRes × State :=
  let new := ws.flatMap (fun w => toBE 4 w.toNat)
  if editAllowed i new s then
    (.ok, { s with rte := { s.rte with edits := putAssoc i new s.rte.edits } })
  else (.reject, s)

/-- A write of word 0 of entry `i` (R547). -/
def editFirst (i : Nat) (w : Word) (frame : Bool) (s : State) : WriteRes × State :=
  if editsAccepted s then
    (.ok, setEditBuf frame (some { idx := i, words := upd (fun _ => w &&& editMask 0) (entryWords i s) 0 }) s)
  else (.reject, s)

/-- A write of word `k`, 1 to 4, of entry `i` (R547, R548). -/
def editMid (i k : Nat) (w : Word) (frame : Bool) (s : State) : WriteRes × State :=
  if editsAccepted s then
    match editBuf frame s with
    | some b =>
      if b.idx = i then
        (.ok, setEditBuf frame (some { b with words := upd (fun _ => w &&& editMask k) b.words k }) s)
      else (.addrErr, s)
    | none => (.addrErr, s)
  else (.reject, s)

/-- A write of word 5 of entry `i` (R548). -/
def editLast (i : Nat) (w : Word) (frame : Bool) (s : State) : WriteRes × State :=
  if editsAccepted s then
    match editBuf frame s with
    | some b =>
      if b.idx = i then
        applyEdit i (upd (fun _ => w &&& editMask 5) b.words 5) (setEditBuf frame none s)
      else (.addrErr, s)
    | none => (.addrErr, s)
  else (.reject, s)

/-- A write of word `k` of a window entry: words 6 and 7 are counters and ignore writes (Table 9-16). -/
def rteWrite (i k : Nat) (w : Word) (frame : Bool) (s : State) : WriteRes × State :=
  if k = 0 then editFirst i w frame s
  else if k < 5 then editMid i k w frame s
  else if k = 5 then editLast i w frame s
  else (.ok, s)

/-- Word `k` of a window entry as it reads; words 0 to 5 read zero in enforced mode (R68, R553). -/
def rteRead (i k : Nat) (s : State) : Word :=
  let c := s.rte.cnts.find? (fun c => c.idx == i)
  if k < 6 then (if enforced s then 0 else nth 0 (entryWords i s) k)
  else if k = 6 then (c.map (·.hits)).getD 0
  else (c.map (·.filtered)).getD 0

/-- A counter of a window entry cleared by its read (R89). -/
def rteClear (i k : Nat) (s : State) : State :=
  { s with rte := { s.rte with
    cnts := s.rte.cnts.map (fun c =>
      if c.idx = i then (if k = 6 then { c with hits := 0 } else { c with filtered := 0 }) else c) } }

/-- RTE_EDIT_WORD0 (R546, R547). -/
def execRteEditWord0 (idx : Nat) (val : Word) (frame : Bool) (s : State) : Host.Outcome State Fault Refusal :=
  .next (ifCore (fun t => (editFirst (idx % 4096) val frame t).2) s)

/-- RTE_EDIT_WORD_MID: word `k` + 1 (R547, R548). -/
def execRteEditWordMid (idx : Nat) (k : Fin 4) (val : Word) (frame : Bool) (s : State) :
    Host.Outcome State Fault Refusal :=
  .next (ifCore (fun t => (editMid (idx % 4096) (k + 1) val frame t).2) s)

/-- RTE_EDIT_WORD5 (R548, R549). -/
def execRteEditWord5 (idx : Nat) (val : Word) (frame : Bool) (s : State) : Host.Outcome State Fault Refusal :=
  .next (ifCore (fun t => (editLast (idx % 4096) val frame t).2) s)

end Sys2Proof.Machine
end

