-- ==== Sys2Proof/Machine/Sec.lean ====
section
/-!
DEFINITION. SEC_CMD and its commands (spec/15): the checks in order, and the test unlock.
-/

namespace Sys2Proof.Machine

/-! ### Checks on a command (R851 to R868) -/

/-- The four conditions of R855. -/
def secAllowed (s : State) : Bool := inPlay s && !s.sec.testMode && !s.therm.thermal

/-- PROGRAM of the unit in SEC_OTP_ADDR (R851, R858). -/
def secProgram (s : State) : State :=
  let u := s.sec.otpAddr.toNat
  if unitProtected u then secResult 8 s
  else if unitBlank u s = false then secResult 3 s
  else secStart .program u s.sec.otpData s

/-- LOCK of the unit in SEC_OTP_ADDR (R853, R858). -/
def secLock (s : State) : State :=
  let u := s.sec.otpAddr.toNat
  if unitProtected u then secResult 8 s
  else if unitCommitted u s = false then secResult 3 s
  else secStart .lock u 0 s

/-- The running Position was signed; its header is that of the active bank. -/
def signedRunning (s : State) : Bool := s.pos.running && imgSigned (activeBank s).image

/-- A command that programs one flag unit. -/
def secFlag (c : SecCmd) (f : Nat) (s : State) : State :=
  if unitBlank (flagUnit f) s then secStart c (flagUnit f) 1 s else secResult 3 s

/-- REVOKE of slot `k` (R863). -/
def secRevoke (k : Nat) (s : State) : State :=
  if signedRunning s && imgKeySlot (activeBank s).image == 1 - k && slotProgrammed (1 - k) s then
    secFlag .revoke (1 + k) s
  else secResult 6 s

/-- ROLLBACK_ADVANCE (R865, R866). -/
def secRollback (s : State) : State :=
  let v := imgVersion (activeBank s).image
  if signedRunning s && decide (rollbackCount s < v) then
    (match nextCounter s with
     | some u => secStart .rollbackAdvance u (BitVec.ofNat 32 v) s
     | none => secResult 9 s)
  else secResult 6 s

/-- ENFORCE (R868). -/
def secEnforce (s : State) : State :=
  if signedRunning s && slotProgrammed (imgKeySlot (activeBank s).image) s then secFlag .enforce 0 s
  else secResult 6 s

/-! ### Test unlock (Table 15-7, R873) -/

/-- The 144 bytes of the token. -/
def tokenBytes (s : State) : List Byte := s.sec.token.flatMap (fun w => toBE 4 w.toNat)

/-- The digest that the key of a token must have: that of the slot named, or of Kolkel's ROM test key while
neither slot is PROGRAMMED. -/
def tokenKeyOk (slot : Nat) (key : List Byte) (s : State) : Bool :=
  if slot = 0xFF then
    !slotProgrammed 0 s && !slotProgrammed 1 s && sha256 key == Config.romTestKey
  else slotProgrammed slot s && sha256 key == otpBytes (slotUnits slot) s

/-- The conditions of R873. -/
def tokenOk (s : State) : Bool :=
  let b := tokenBytes s
  !otpFlag 3 s && be32 b 0 == 0x464E5854 && be16 b 4 == 1 && slice b 8 8 == deviceId s &&
    tokenKeyOk (u8 b 6) (slice b 16 64) s && inPlay s &&
    ecdsaVerify (slice b 16 64) (slice b 80 64) (b.take 80)

/-- TEST_UNLOCK. -/
def secTestUnlock (s : State) : State := if tokenOk s then testWipe s else secResult 7 s

/-! ### SEC_CMD (Table 15-11) -/

/-- A command of R855, or its denial. -/
def ifAllowed (f : State → State) (s : State) : State := if secAllowed s then f s else secResult 5 s

/-- A write of SEC_CMD through the SPI: key, BUSY, and the command (R856, R859). -/
def secCommand (w : Word) (s : State) : State :=
  if fld w 31 16 ≠ 0x5EC0 then secResult 2 s
  else if s.sec.run.isSome then secResult 1 s
  else
    match fld w 3 0 with
    | 1 => ifAllowed secProgram s
    | 2 => ifAllowed secLock s
    | 3 => ifAllowed (secRevoke (fld w 8 8)) s
    | 4 => ifAllowed secRollback s
    | 5 => ifAllowed secEnforce s
    | 6 => ifAllowed (secFlag .testDisable 3) s
    | 7 => secTestUnlock s
    | _ => secResult 11 s

/-- The word of a command with the right key. -/
def secWord (slot1 : Bool) (code : Nat) : Word := BitVec.ofNat 32 (0x5EC00000 + bitAt slot1 8 + code)

def execProgram (s : State) : Host.Outcome State Fault Refusal := .next (ifCore (secCommand (secWord false 1)) s)
def execLock (s : State) : Host.Outcome State Fault Refusal := .next (ifCore (secCommand (secWord false 2)) s)
def execRevoke (slot1 : Bool) (s : State) : Host.Outcome State Fault Refusal :=
  .next (ifCore (secCommand (secWord slot1 3)) s)
def execRollbackAdvance (s : State) : Host.Outcome State Fault Refusal :=
  .next (ifCore (secCommand (secWord false 4)) s)
def execEnforce (s : State) : Host.Outcome State Fault Refusal := .next (ifCore (secCommand (secWord false 5)) s)
def execTestDisable (s : State) : Host.Outcome State Fault Refusal :=
  .next (ifCore (secCommand (secWord false 6)) s)
def execTestUnlock (s : State) : Host.Outcome State Fault Refusal :=
  .next (ifCore (secCommand (secWord false 7)) s)

/-! ### SEC_STATUS (Table 15-11) -/

def secStatus (s : State) : Word :=
  BitVec.ofNat 32 (bitAt s.sec.run.isSome 31 + bitAt s.sec.testMode 30 + bitAt (enforced s) 29 +
    bitAt (otpFlag 3 s) 28 + bitAt (kekUnits.all (fun u => otpLocked u s)) 27 +
    slotState 1 s * 2 ^ 18 + slotState 0 s * 2 ^ 16 + rollbackMax s * 256 + rollbackCount s)

end Sys2Proof.Machine
end

