-- ==== Sys2Proof/Machine/RegCore.lean ====
section
/-!
DEFINITION. The values of the registers of GLB (spec/02, spec/01), POS (spec/03), TMB (spec/04), PTP (spec/05),
MEM (spec/13), PWR (spec/14), SEC (spec/15) and EVT (spec/16), by offset in their block. Reserved bits, write-only
registers and unmapped offsets read zero (R2, R107). What a read changes stands in RegEffect.lean.
-/

namespace Sys2Proof.Machine

/-- A word put together from fields and their lowest bits. -/
def pk : List (Nat × Nat) → Nat
  | [] => 0
  | (v, p) :: l => v * 2 ^ p + pk l

/-- A number as a register word. -/
def regNat (n : Nat) : Word := BitVec.ofNat 32 n

/-! ### GLB (Tables 2-12 to 2-16, 1-8 to 1-10) -/

/-- LADDER of the status byte: any exit sequence reads as SEAL (Table 2-3). -/
def ladderCode (s : State) : Nat := if s.pwr.phase = .exiting then 3 else s.pwr.ladder.code

/-- GLB_STATUS.READY and PLL_LOCK. -/
def readyBit (s : State) : Bool := s.pwr.boot == .ready
def pllLocked (s : State) : Bool :=
  s.pwr.boot == .init || (s.pwr.boot == .ready && s.pwr.ladder != .seal)

/-- GLB_STATUS (Table 2-13). -/
def glbStatus (s : State) : Nat :=
  pk [(s.therm.thermal.toNat, 9), ((enforced s).toNat, 8), (s.pos.activeBank.toNat, 5), (s.pos.running.toNat, 4),
    (ladderCode s, 2), ((pllLocked s).toNat, 1), ((readyBit s).toNat, 0)]

/-- Is a port defined, with its link or engine up, and not resigned (Table 1-9)? -/
def portForwards (p : Nat) (s : State) : Bool :=
  portDefined p s && (if p < 9 then forwarding p s else s.pos.running)

/-- A mask of those numbers below `n` that pass a test. -/
def maskOf (n : Nat) (f : Nat → Bool) : Nat := ((List.range n).map (fun i => (f i).toNat * 2 ^ i)).sum

def glbRead (o : Nat) (s : State) : Nat :=
  match o with
  | 0x00 => 0x08244B4C
  | 0x04 => 0xB1
  | 0x08 => glbStatus s
  | 0x10 => maskOf 14 (fun p => portDefined p s)
  | 0x14 => maskOf 14 (fun p => portForwards p s)
  | 0x18 => pcpMap s
  | 0x20 => (intStatus s).toNat
  | 0x24 => s.glb.mgtInt.toNat
  | 0x28 => s.glb.intaMask.toNat
  | 0x2C => s.glb.intbMask.toNat
  | 0x30 => s.glb.mgtIntEn.toNat
  | _ => 0

/-! ### POS (Tables 3-14 to 3-21) -/

/-- POS_ACTIVE_INFO and POS_STAGED_INFO of an image. -/
def infoWord (b : List Byte) : Nat :=
  pk [(imgEpoch b, 16), (u8 b 4 % 16, 12), (u8 b 5 % 16, 8), ((imgEncrypted b).toNat, 7), (imgVersion b % 128, 0)]

/-- Do the staged registers show the header (Table 3-19)? -/
def stagedShown (s : State) : Bool := s.pos.stage != .empty && headerIn s

def posRead (o : Nat) (s : State) : Nat :=
  match o with
  | 0x00 => (posStatus s).toNat
  | 0x08 => (posErrWord s).toNat
  | 0x0C => s.pos.errOffset.toNat
  | 0x10 => s.pos.loadOffset.toNat
  | 0x14 => if s.pos.active then infoWord (activeBank s).image else 0
  | 0x18 => activeDesignId s
  | 0x1C => if stagedShown s then infoWord (stageBank s).image else 0
  | 0x20 => if stagedShown s then be32 (stageBank s).image 20 else 0
  | 0x24 => ucodeRomVersion
  | 0x28 => s.pos.commitS.toNat
  | 0x2C => s.pos.commitNs.toNat
  | 0x30 => s.pos.refusedCnt.toNat
  | _ => 0

/-! ### TMB (Tables 4-6 to 4-10) -/

/-- High and low words of a 64-bit register. -/
def hiWord (x : BitVec 64) : Nat := x.toNat / 2 ^ 32
def loWord (x : BitVec 64) : Nat := x.toNat % 2 ^ 32

/-- TMB_SLEW_REMAIN: ns not yet applied, rounded away from zero (R187). -/
def slewRemain (s : State) : Word :=
  match s.tmb.slew with
  | none => 0
  | some w =>
    let n : Int := (ceilDiv w.remain (slewUnit * 4294967296) : Nat)
    intWord (if w.neg then -n else n)

/-- TMB_STATUS (Table 4-7). -/
def tmbStatus (s : State) : Nat :=
  pk [(s.tmb.pps.secLoad.isSome.toNat, 5), (s.tmb.holdover.toNat, 4), (s.tmb.lockWrite.toNat, 3),
    (s.tmb.cmdErr.toNat, 2), (s.tmb.clamped.toNat, 1), (s.tmb.slew.isSome.toNat, 0)]

/-- PPS and PPSO registers (Table 4-9). `rate` is in units of 2^-10 ppb. -/
def ppsCtrl (s : State) : Nat :=
  pk [(s.tmb.pps.windowUs.toNat, 8), (s.tmb.pps.tau.toNat, 4), (s.tmb.pps.input.toNat, 0)]
def ppsStatusWord (s : State) : Nat :=
  pk [(s.tmb.pps.reject.toNat, 16), (s.tmb.pps.good.toNat, 8), (s.tmb.pps.st.toNat, 0)]
def ppsoWord (p : Ppso) : Nat := pk [(p.widthUs.toNat, 2), (p.qualify.toNat, 1), (p.polarity.toNat, 0)]

/-- One comparator register (Table 4-10). -/
def cmpRead (c : Cmp) (o : Nat) : Nat :=
  match o with
  | 0x00 => pk [(c.locked.toNat, 31), (c.line.toNat, 8), (c.action.toNat, 4), (c.mode.toNat, 2),
      (c.wakeEn.toNat, 1), (c.armed.toNat, 0)]
  | 0x04 => pk [(c.missed.toNat, 16), (c.resync.toNat, 2), (c.past.toNat, 1), (c.late.toNat, 0)]
  | 0x08 => c.targetS.toNat
  | 0x0C => c.targetNs.toNat
  | 0x10 => c.period.toNat
  | 0x14 => c.liveS.toNat
  | 0x18 => c.liveNs.toNat
  | _ => 0

/-- One capture register; FIFO and PEEK give the head entry. -/
def capReadWord (n o : Nat) (s : State) : Nat :=
  match o with
  | 0x0 => (capAt n s).edge.toNat
  | 0x4 => (capWord n s).toNat
  | 0x8 => (capAt n s).sec.toNat
  | 0xC => (capWord n s).toNat
  | _ => 0

def tmbLow (o : Nat) (s : State) : Nat :=
  let t := s.tmb
  match o with
  | 0x00 => t.owner.toNat
  | 0x04 => tmbStatus s
  | 0x10 => t.snap.secs.toNat / 2 ^ 32
  | 0x14 => t.snap.secs.toNat % 2 ^ 32
  | 0x18 => t.snap.ns.toNat
  | 0x1C => t.snap.frac.toNat
  | 0x20 => hiWord t.snap.localCnt
  | 0x24 => loWord t.snap.localCnt
  | 0x28 => t.setS.toNat / 2 ^ 32
  | 0x2C => t.setS.toNat % 2 ^ 32
  | 0x30 => t.setNs.toNat
  | 0x34 => t.stepS.toNat
  | 0x38 => t.stepNs.toNat
  | 0x3C => t.slewNs.toNat
  | 0x40 => t.slewRate.toNat
  | 0x44 => (slewRemain s).toNat
  | 0x48 => hiWord t.rate
  | 0x4C => loWord t.rate
  | 0x50 => hiWord t.addend
  | 0x54 => loWord t.addend
  | 0x58 => hiWord (rateAvg t)
  | 0x5C => loWord (rateAvg t)
  | 0x60 => ppsCtrl s
  | 0x64 => ppsStatusWord s
  | 0x68 => (intWord t.pps.err).toNat
  | 0x6C => (intWord (openDiv s.free t.pps.rate 1024)).toNat
  | 0x70 => ppsoWord (nth .reset t.ppso 0)
  | 0x74 => ppsoWord (nth .reset t.ppso 1)
  | 0x78 => ppsoWord (nth .reset t.ppso 2)
  | 0x7C => ppsoWord (nth .reset t.ppso 3)
  | 0x80 => t.fired.toNat
  | 0x84 => t.cmpIntEn.toNat
  | 0x88 => pk [((capNonempty s).toNat, 8), (maskOf 8 (fun n => (capAt n s).ovf), 0)]
  | 0x8C => t.capIntEn.toNat
  | _ => 0

def tmbRead (o : Nat) (s : State) : Nat :=
  if o < 0x100 then tmbLow o s
  else if o < 0x300 then cmpRead (cmpAt ((o - 0x100) / 0x20) s) ((o - 0x100) % 0x20)
  else if 0x400 ≤ o ∧ o < 0x480 then capReadWord ((o - 0x400) / 0x10) ((o - 0x400) % 0x10) s
  else 0

/-! ### PTP (Tables 5-9 to 5-12) -/

/-- PTP_STATUS.CASTLE_STATE. -/
def CastleSt.code : CastleSt → Nat
  | .idle => 0
  | .residualSlew => 1
  | .blocked => 2
  | .decidedSlew => 3

/-- A time in units of 1/8192000 ns as a signed register in ns. -/
def nsWord (x : Int) (s : State) : Nat := (intWord (satInt 32 (openDiv s.free x nsU))).toNat

/-- One register of a domain (Table 5-11). -/
def domRead (k : PtpDom) (o : Nat) (s : State) : Nat :=
  match o with
  | 0x00 => k.number.toNat
  | 0x04 => pk [(k.tau % 128, 8), (k.servo.toNat, 0)]
  | 0x08 => (intWord (ofsDevNs k s.free)).toNat
  | 0x0C => nsWord k.ofm s
  | 0x10 => (intWord (openDiv s.free k.rate ppbU)).toNat
  | 0x14 => hiWord k.gm.gmId
  | 0x18 => loWord k.gm.gmId
  | 0x1C => pk [(k.gm.clockClass.toNat, 24), (k.gm.accuracy.toNat, 16), (k.gm.variance.toNat, 0)]
  | 0x20 => pk [(k.gm.prio1.toNat, 8), (k.gm.prio2.toNat, 0)]
  | 0x24 => pk [(k.gm.utcOffset.toNat, 16), (k.gm.timeSource.toNat, 8), (k.gm.flags.toNat, 0)]
  | 0x28 => pk [(k.gm.stepsRemoved.toNat, 16), (k.parent.getD 15, 0)]
  | 0x2C => k.gm.tti.toNat
  | 0x30 => k.discard.toNat
  | _ => 0

/-- One register of a port (Table 5-12). -/
def ptpPortRead (p o : Nat) (s : State) : Nat :=
  let k := ptpPort p s
  match o with
  | 0x00 => pk [(k.enabled.toNat, 17), (k.oneStep.toNat, 16), (k.dom1.state.toNat, 8), (k.dom0.state.toNat, 0)]
  | 0x04 => (linkDelayWord p false s).toNat
  | 0x08 => (linkDelayWord p true s).toNat
  | 0x0C => (intWord k.nrr).toNat
  | 0x10 => k.asymPs.toNat
  | 0x14 => k.ingressPs.toNat
  | 0x18 => k.egressPs.toNat
  | 0x1C => (txtsWord p s).toNat
  | 0x20 => k.txtsSec.toNat
  | 0x24 => k.txtsTag.toNat
  | 0x28 => (txtsWord p s).toNat
  | 0x2C => pk [(k.txts.length, 16), (k.txtsOvf.toNat, 0)]
  | 0x30 => k.pdelayTo.toNat
  | _ => 0

def ptpRead (o : Nat) (s : State) : Nat :=
  let t := s.ptp
  match o with
  | 0x00 => pk [(t.secEn.toNat, 5), (t.profile.toNat, 4), (t.role.toNat, 0)]
  | 0x04 => pk [(t.cmdErr.toNat, 8), ((castleNow s).code, 5), (t.activeDom.toNat, 4), (t.holdover.toNat, 3),
      (t.timeSet.toNat, 2), ((tqNow s).toNat, 0)]
  | 0x0C => pk [(t.autoCastle.toNat, 24), (t.autoPolicy.toNat, 20), (t.slewPpm.toNat, 16), (t.windowNs.toNat, 0)]
  | 0x10 => pk [(t.castleCnt.toNat, 16), (t.blockedCnt.toNat, 8), (t.ignored.toNat, 3), (t.castleLast.toNat, 0)]
  | 0x14 => (intWord (mutualNs s)).toNat
  | 0x18 => t.hostTq.toNat
  | 0x1C => t.grace.toNat
  | _ =>
    if 0x100 ≤ o ∧ o < 0x180 then domRead t.d0 (o - 0x100) s
    else if 0x180 ≤ o ∧ o < 0x200 then domRead t.d1 (o - 0x180) s
    else if 0x400 ≤ o ∧ o < 0x600 then ptpPortRead ((o - 0x400) / 0x40) ((o - 0x400) % 0x40) s
    else 0

/-! ### MEM (Tables 13-10, 13-11) -/

/-- MEM_SPAREb. -/
def spareWord (b : Nat) (s : State) : Nat :=
  let k := spareOf b s
  pk [(freeSpares k, 30), (k.rowB.getD 0x1FFF, 16), (k.rowA.getD 0x1FFF, 0)]

/-- MEM_SUSPECTi. -/
def suspectWord (i : Nat) (s : State) : Nat :=
  match s.mem.suspects[i]? with
  | some r => pk [(1, 31), (r.bank, 24), (r.row, 0)]
  | none => 0

/-- MEM_CE_ADDR and MEM_UE_ADDR. -/
def eccAddr (p : BankPlace) : Nat := pk [(p.bank, 24), (p.row, 3), (p.word, 0)]

def memRead (o : Nat) (s : State) : Nat :=
  let m := s.mem
  match o with
  | 0x00 => pk [(m.sweepBank, 26), (m.sweepRow, 13), ((m.sweepCount.getLsbD 0).toNat, 3), ((inPlay s).toNat, 0)]
  | 0x04 => m.int.toNat
  | 0x08 => m.intEn.toNat
  | 0x0C => (retStatusWord s).toNat
  | 0x10 => m.retCrc.toNat
  | 0x14 => be32 (bodyOf tyMemory s) 16
  | 0x18 => sweepPaceUs s
  | 0x1C => m.sweepCount.toNat
  | 0x20 => m.lostCnt.toNat
  | 0x24 => m.lostAddrA.toNat
  | 0x28 => m.ceCnt.toNat
  | 0x2C => eccAddr m.ceAddr
  | 0x30 => m.ueCnt.toNat
  | 0x34 => eccAddr m.ueAddr
  | 0x38 => m.transientCnt.toNat
  | 0x3C => m.starveCnt.toNat
  | _ =>
    if 0x100 ≤ o ∧ o < 0x194 then spareWord ((o - 0x100) / 4) s
    else if 0x200 ≤ o ∧ o < 0x240 then suspectWord ((o - 0x200) / 4) s
    else 0

/-! ### PWR (Tables 14-13, 14-14) -/

def pwrRead (o : Nat) (s : State) : Nat :=
  match o with
  | 0x00 => (pwrStatus s).toNat
  | 0x08 => s.pwr.int.toNat
  | 0x0C => s.pwr.intEn.toNat
  | 0x10 => s.pwr.wakeEn.toNat
  | 0x14 => (wakeCauseWord s).toNat
  | 0x18 => pk [(s.pwr.wakeSlots.toNat, 8), (s.pwr.wakePorts.toNat, 0)]
  | 0x1C => s.pwr.wakeGpio.toNat
  | 0x20 => s.pwr.wakeSer.toNat
  | 0x24 => s.therm.resetCause.toNat
  | 0x28 => pk [(s.therm.tjMax.toNat, 16), (s.therm.tjNow.toNat, 0)]
  | 0x2C => pk [(s.therm.recValid.toNat, 31), (s.therm.recSlot.toNat, 16), (s.therm.recSeq.toNat % 65536, 0)]
  | 0x30 => s.therm.lastExit.toNat
  | 0x34 => s.therm.discardCnt.toNat
  | 0x38 => s.therm.takebackCnt.toNat
  | 0x3C => pk [(s.therm.relMs.toNat, 16), (s.therm.deepest.toNat, 4), (s.therm.entry.toNat, 0)]
  | _ => 0

/-! ### SEC (Tables 15-10, 15-11) -/

def secRead (o : Nat) (s : State) : Nat :=
  match o with
  | 0x00 => (secStatus s).toNat
  | 0x08 => s.sec.result.toNat
  | 0x0C => s.sec.otpAddr.toNat
  | 0x14 => be32 (deviceId s) 0
  | 0x18 => be32 (deviceId s) 4
  | 0x1C => s.sec.int.toNat
  | 0x20 => s.sec.intEn.toNat
  | _ =>
    if 0x100 ≤ o ∧ o < 0x300 then (otpReadWord ((o - 0x100) / 4) s).toNat
    else if 0x300 ≤ o ∧ o < 0x338 then (otpStateWord ((o - 0x300) / 4) s).toNat
    else 0

/-! ### EVT (Tables 16-8, 16-9) -/

def evtRead (o : Nat) (s : State) : Nat :=
  match o with
  | 0x00 => s.evt.pend.toNat
  | 0x04 => s.evt.pendEn.toNat
  | 0x08 => pk [(s.evt.headLap.toNat, 16), (s.evt.headIdx.toNat, 0)]
  | 0x0C => pk [(s.evt.queue.length, 16), (s.evt.wrapped.toNat, 1), (s.evt.ovf.toNat, 0)]
  | 0x10 => s.evt.dropCnt.toNat
  | 0x14 => s.evt.kingLostCnt.toNat
  | 0x18 => s.evt.last.toNat
  | _ => 0

end Sys2Proof.Machine
end

