-- ==== Sys2Proof/Machine/RegNet.lean ====
section
/-!
DEFINITION. The values of the registers of ETH (spec/06), SER (spec/07), CNV and ALN (spec/08), CLS (spec/10), ARB
(spec/11) and XB (spec/12), by offset in their block.
-/

namespace Sys2Proof.Machine

/-! ### ETH (Tables 6-13 to 6-16) -/

def VerifySt.code : VerifySt → Nat
  | .disabled => 0
  | .init => 1
  | .verifying => 2
  | .succeeded => 3
  | .failed => 4
  | .forced => 5

def FwdSt.code : FwdSt → Nat
  | .disabled => 0
  | .down => 1
  | .forwarding => 2
  | .resigned => 3

/-- ETH_CFG, from the PORTS entry. -/
def ethCfg (p : Nat) (s : State) : Nat :=
  let e := portEntry p s
  pk [(be16 e 6 % 4096, 16), ((portDefined p s).toNat, 15), (u8 e 3 % 128, 8), (u8 e 5 % 4, 6), (u8 e 4 % 4, 4),
    (u8 e 2 % 4, 2), (u8 e 1 % 4, 0)]

/-- ETH_STATUS. -/
def ethStatus (p : Nat) (s : State) : Nat :=
  let k := ethAt p s
  pk [(k.cmdErr.toNat, 16), (k.unsupported.toNat, 14), (k.fef.toNat, 13), (k.rf.toNat, 12), ((limited p s).toNat, 11),
    (k.verify.code, 8), (k.fwd.code, 4), (k.anDone.toNat, 3), (k.speed100.toNat, 1), (k.link.toNat, 0)]

/-- ETH_CLEAN_REMAIN in ms; how it is rounded is open (log entry 6). -/
def cleanRemain (p : Nat) (s : State) : Nat :=
  let k := ethAt p s
  let left := k.cleanLeft - (match k.cleanFrom with | some t => localNow s - t | none => 0)
  if k.fwd = .resigned then (openDiv s.free (left : Int) 250000).toNat else 0

/-- Pair registers of an even port. -/
def pairRead (p j : Nat) (s : State) : Nat :=
  let k := nth .reset s.pairs (p / 2)
  if p % 2 = 1 ∨ 8 ≤ p then 0
  else if j = 0 then pk [((liveDups (p / 2) s).length, 16), (if pairMode p s = 0 then 0 else be16 (portEntry p s) 28, 0)]
  else if j = 1 then k.seq.toNat
  else if j < 10 then (nth 0 k.cnt (j - 2)).toNat
  else 0

def ethPortRead (p o : Nat) (s : State) : Nat :=
  let e := portEntry p s
  let k := ethAt p s
  match o with
  | 0x00 => ethCfg p s
  | 0x04 => ethStatus p s
  | 0x0C => pk [(k.resignCnt.toNat, 16), (k.cause.toNat, 8)]
  | 0x10 => k.int.toNat
  | 0x14 => k.intEn.toNat
  | 0x18 => be16 e 8
  | 0x1C => be32 e 10
  | 0x20 => pk [(u8 e 23, 24), (u8 e 22, 16), (u8 e 21, 8), (u8 e 20, 0)]
  | 0x24 => pk [(u8 e 26, 16), (u8 e 25, 8), (u8 e 24, 0)]
  | 0x28 => pk [(be16 e 16, 16), (be16 e 18, 0)]
  | 0x2C => cleanRemain p s
  | _ =>
    if 0x100 ≤ o ∧ o < 0x140 then (nth 0 k.cnt ((o - 0x100) / 4)).toNat
    else if 0x200 ≤ o ∧ o < 0x228 then pairRead p ((o - 0x200) / 4) s
    else if p = 8 then
      (if o = 0x300 then s.hp.tagErr.toNat else if o = 0x304 then s.hp.accessDone.toNat
       else if o = 0x308 then s.hp.accessDrop.toNat else 0)
    else 0

def ethRead (o : Nat) (s : State) : Nat := ethPortRead (o / 0x800) (o % 0x800) s

/-! ### SER (Tables 7-9 to 7-11) -/

def RxSt.code : RxSt → Nat
  | .disabled => 0
  | .search => 1
  | .idle => 2
  | .receiving => 3
  | .blinded => 4
  | .discarding => 5

def SerTxSt.code : SerTxSt → Nat
  | .disabled => 0
  | .idle => 1
  | .sending => 2
  | .backoff => 3
  | .slotWait => 4

/-- SER_CFG, from the SERIAL entry. -/
def serCfg (c : Nat) (s : State) : Nat :=
  let e := serEntry c s
  pk [(serDuplex e % 4, 24), ((serIdleMode e).toNat, 20), (u8 e 2 % 4, 16), (u8 e 1 % 32, 8), (u8 e 0 % 32, 0)]

/-- SER_STATUS. -/
def serStatus (c : Nat) (s : State) : Nat :=
  let k := serAt c s
  pk [(k.cmdErr.toNat, 31), (k.slot.toNat, 24), (k.slotFrame.isSome.toNat, 16),
    ((k.tx.map (·.retries)).getD 0 % 16, 10), (k.lineIdle.toNat, 9), (k.locked.toNat, 8), (k.txSt.code, 4),
    (k.rx.code, 0)]

/-- SER_CHAN_PENDING (R434). -/
def chanPending (s : State) : Nat := maskOf 24 (fun c => (serAt c s).int &&& (serAt c s).intEn != 0)

def serChanRead (c o : Nat) (s : State) : Nat :=
  let k := serAt c s
  match o with
  | 0x00 => serCfg c s
  | 0x04 => k.div % 2 ^ 24
  | 0x08 => serStatus c s
  | 0x10 => k.int.toNat
  | 0x14 => k.intEn.toNat
  | 0x18 => pk [(k.abrIndex.toNat, 24), (k.abrBaud.toNat, 0)]
  | 0x1C => k.abrMeas.toNat
  | 0xFC => chanPending s
  | _ => if 0x40 ≤ o ∧ o < 0x8C then (nth 0 k.cnt ((o - 0x40) / 4)).toNat else 0

def serRead (o : Nat) (s : State) : Nat := serChanRead (o / 0x100) (o % 0x100) s

/-! ### CNV (Tables 8-10, 8-12) -/

/-- Does a group settle now (R444)? -/
def groupSettling (b : Bool) (s : State) : Bool :=
  (cnvGroup b s).running && decide (localNow s < (cnvGroup b s).settleUntil)

/-- Word `k`, 0 to 7, of a mailbox (R449 to R451). -/
def boxWord (m : Mailbox) (k : Nat) : Nat :=
  match k with
  | 0 => pk [(m.valid.toNat, 31), (m.seq.toNat, 0)]
  | 1 => m.secs.toNat
  | 2 => tqNsWord m.tq m.ns
  | 7 => m.flags.toNat
  | _ => if k < 7 then (intWord (nth 0 m.values (k - 3))).toNat else 0

def streamRead (m : MuStream) (o : Nat) : Nat :=
  match o with
  | 0x0 => pk [(m.lastCnt.toNat, 16), (m.active.toNat, 0)]
  | 0x4 => m.frames.toNat
  | _ => 0

def cnvRead (o : Nat) (s : State) : Nat :=
  let c := s.cnv
  match o with
  | 0x00 => pk [(c.overload.toNat, 16), (c.refFault.toNat, 4), ((groupSettling true s).toNat, 3),
      ((groupSettling false s).toNat, 2), (c.groupB.running.toNat, 1), (c.groupA.running.toNat, 0)]
  | 0x04 => c.int.toNat
  | 0x08 => c.intEn.toNat
  | 0x0C => c.trigSkipCnt.toNat
  | 0x10 => c.overloadCnt.toNat
  | _ =>
    if 0x20 ≤ o ∧ o < 0x40 then boxWord c.groupA.box ((o - 0x20) / 4)
    else if 0x40 ≤ o ∧ o < 0x60 then boxWord c.groupB.box ((o - 0x40) / 4)
    else if 0x80 ≤ o ∧ o < 0x90 then streamRead c.stream0 (o - 0x80)
    else if 0x90 ≤ o ∧ o < 0xA0 then streamRead c.stream1 (o - 0x90)
    else 0

/-! ### ALN (Tables 8-11, 8-13) -/

/-- ALN_SUBi_STATUS.STATE. -/
def subState (i : Nat) (s : State) : Nat :=
  let u := nth .reset s.aln.subs i
  if alnEnabled i s = false then 0
  else if (pruneHeld s (alnEntry i s) u.held).length < 8 then 1
  else if u.wasValid then 2 else 3

def alnSubRead (i o : Nat) (s : State) : Nat :=
  let u := nth .reset s.aln.subs i
  match o with
  | 0x0 => pk [(u.smpCnt.toNat, 16), (u.smpSynch.toNat, 8), (subState i s, 0)]
  | 0x4 => u.late.toNat
  | 0x8 => u.missing.toNat
  | 0xC => u.bridged.toNat
  | _ => 0

def alnRead (o : Nat) (s : State) : Nat :=
  let a := s.aln
  match o with
  | 0x00 => maskOf 16 (fun i => alnEnabled i s)
  | 0x04 => a.int.toNat
  | 0x08 => a.intEn.toNat
  | 0x0C => pk [(a.lastValid.toNat, 31), (a.lastSeq.toNat, 6), (a.lastSlot.toNat, 0)]
  | 0x10 => a.unmatched.toNat
  | 0x14 => a.format.toNat
  | 0x18 => a.dup.toNat
  | _ => if 0x100 ≤ o ∧ o < 0x200 then alnSubRead ((o - 0x100) / 0x10) ((o - 0x100) % 0x10) s else 0

/-! ### CLS (Tables 10-9 to 10-11) -/

/-- Registers of one class. -/
def clsRecRead (c o : Nat) (s : State) : Nat :=
  let k := nth .reset s.cls.recs c
  match o with
  | 0x00 => pk [(k.usedRes + k.usedShared, 16), (reserveOf c s, 0)]
  | 0x04 => k.refused.toNat
  | 0x08 => k.excess.toNat
  | 0x0C => k.downgraded.toNat
  | 0x10 => k.flagFall.toNat
  | 0x14 => k.marked.toNat
  | 0x18 => k.promoted.toNat
  | 0x1C => k.descUsed
  | _ => 0

/-- Does a code name an egress with queues? -/
def egressKnown (e : Nat) : Bool := decide (e ≤ 8) || e == 11 || e == 12 || (decide (64 ≤ e) && decide (e < 88))

/-- The bound of an egress and class: LAT_NS, then BYTES (R584, R586). -/
def boundRead (e c : Nat) (bytes : Bool) (s : State) : Nat :=
  match s.cls.bounds.find? (fun b => b.egress == e && b.cls == c) with
  | some b => min 0xFFFFFFFF (if bytes then b.bytes else b.lat)
  | none => 0xFFFFFFFF

/-- Highest NOW of a queue since its last read. -/
def peakOf (e c : Nat) (s : State) : Nat :=
  ((s.cls.peaks.find? (fun p => p.egress == e && p.cls == c)).map (·.peak)).getD 0

/-- Egress, class and word of an offset in a table of 0x40 bytes a row, ports first, then serial channels. -/
def egressAt (o : Nat) : Nat × Nat × Nat :=
  (if o < 0x400 then o / 0x40 else 64 + (o - 0x400) / 0x40, o % 0x40 / 8, o % 8)

/-- Cells of the shared pool; none before a Position is loaded. -/
def sharedPool (s : State) : Nat := if s.pos.tables.isEmpty then 0 else poolSize s

def clsRead (o : Nat) (s : State) : Nat :=
  let k := s.cls
  match o with
  | 0x00 => k.int.toNat
  | 0x04 => k.intEn.toNat
  | 0x08 => be16 (bodyOf tyMemory s) 12
  | 0x0C => pk [(sharedPool s, 16), (sharedPool s - poolUsed s, 0)]
  | 0x10 => 8192 - descUsed s - 4 * s.mem.retiredDescs.length
  | 0x14 => k.unroutedCnt.toNat
  | 0x18 => k.lastExcess.toNat
  | 0x1C => k.lastFlagFall.toNat
  | _ =>
    if 0x100 ≤ o ∧ o < 0x1C0 then clsRecRead ((o - 0x100) / 0x20) ((o - 0x100) % 0x20) s
    else if 0x1000 ≤ o ∧ o < 0x1A00 then
      let x := egressAt (o - 0x1000)
      if egressKnown x.1 ∧ x.2.1 < 6 then boundRead x.1 x.2.1 (x.2.2 == 4) s else 0
    else if 0x2000 ≤ o ∧ o < 0x2A00 then
      let x := egressAt (o - 0x2000)
      if egressKnown x.1 ∧ x.2.1 < 6 then
        (if x.2.2 = 0 then queueBytes x.1 x.2.1 s else max (peakOf x.1 x.2.1 s) (queueBytes x.1 x.2.1 s))
      else 0
    else 0

/-! ### ARB (Tables 11-12, 11-13) -/

def SubSt.code : SubSt → Nat
  | .disabled => 0
  | .waiting => 1
  | .valid => 2
  | .lost => 3

/-- ARB_STATUS. -/
def arbStatus (s : State) : Nat :=
  pk [(ruleCount s, 16), ((patchesInForce s).length, 10), (s.arb.varQueue.length, 4), (s.arb.policyErr.toNat, 3),
    (s.arb.cmdErr.toNat, 2), (s.pos.fallbackApplied.toNat, 1), ((cycleDefined s && boardRuns s).toNat, 0)]

/-- Up to 32 bits of a list from a position on. -/
def bitsAt (l : List Bool) (o n : Nat) : Nat := maskOf n (fun i => nth false l (o + i))

def pubRead (b o : Nat) (s : State) : Nat :=
  let k := pubAt b s
  match o with
  | 0x0 => k.stNum.toNat
  | 0x4 => k.sqNum.toNat
  | 0x8 => k.txCnt.toNat
  | _ => 0

def subRead (b o : Nat) (s : State) : Nat :=
  let k := subAt b s
  match o with
  | 0x0 => pk [(k.stNum.toNat % 2 ^ 30, 2), (k.st.code, 0)]
  | 0x4 => k.sqNum.toNat
  | 0x8 => k.rxCnt.toNat
  | 0xC => k.errCnt.toNat
  | _ => 0

def arbRead (o : Nat) (s : State) : Nat :=
  let a := s.arb
  match o with
  | 0x00 => arbStatus s
  | 0x04 => a.int.toNat
  | 0x08 => a.intEn.toNat
  | 0x0C => a.cycleSeq.toNat
  | 0x10 => a.overrunCnt.toNat
  | 0x14 => a.conflictCnt.toNat
  | 0x18 => a.lastConflict.toNat
  | 0x1C => a.lastS.toNat
  | 0x20 => tqNsWord a.lastTq a.lastNs
  | 0x28 => a.storeMissCnt.toNat
  | 0x2C => a.gooseUnmatched.toNat
  | 0x30 => pk [(bitsAt a.outs 0 16, 16), (a.gpioIn.toNat, 0)]
  | _ =>
    if 0x40 ≤ o ∧ o < 0xC0 then (cardImage ((o - 0x40) / 4) a.outs s).toNat
    else if 0x100 ≤ o ∧ o < 0x140 then bitsAt a.results ((o - 0x100) / 4 * 32) 32
    else if 0x200 ≤ o ∧ o < 0x400 then pubRead ((o - 0x200) / 0x10) ((o - 0x200) % 0x10) s
    else if 0x400 ≤ o ∧ o < 0xC00 then subRead ((o - 0x400) / 0x10) ((o - 0x400) % 0x10) s
    else if 0x2000 ≤ o ∧ o < 0x4000 then (intWord (lookupD 0 ((o - 0x2000) / 4) a.varsAtA)).toNat
    else 0

/-! ### XB (Tables 12-13, 12-14) -/

def SlotSt.code : SlotSt → Nat
  | .absent => 0
  | .queued => 1
  | .enumerating => 2
  | .present => 3
  | .idErr => 4

def xbSlotRead (i o : Nat) (s : State) : Nat :=
  let k := xbSlot i s
  match o with
  | 0x00 => pk [(k.msgSeq.toNat, 16), (k.st.code, 8), (slotIntMode i s % 4, 4), (k.prs.toNat, 1), (k.intLow.toNat, 0)]
  | 0x24 => k.intCnt.toNat
  | 0x28 => k.errCnt.toNat
  | 0x2C => k.timeoutCnt.toNat
  | _ => if 0x04 ≤ o ∧ o < 0x24 then (nth 0 k.ids ((o - 4) / 4)).toNat else 0

def xbWinRead (w o : Nat) (s : State) : Nat :=
  let e := xbWindow w s
  match o with
  | 0x0 => pk [(u8 e 3, 8), (winSlot e % 8, 5), (winSwap e % 4, 3), (u8 e 0 % 8, 0)]
  | 0x4 => winBase e
  | 0x8 => winTimeout e
  | _ => 0

def xbRead (o : Nat) (s : State) : Nat :=
  let x := s.xb
  match o with
  | 0x00 => pk [(16 - tagsUsed s, 16), (32 - postedUsed s, 8), (x.scan.isSome.toNat, 4), (x.cmdErr.toNat, 1),
      (xbClkDiv s % 2, 0)]
  | 0x08 => x.int.toNat
  | 0x0C => x.intEn.toNat
  | 0x10 => x.orphanUs.toNat
  | 0x14 => pk [(x.scanSeq.toNat, 16)]
  | 0x18 => loWord x.scanErr
  | 0x1C => hiWord x.scanErr
  | 0x20 => (werrHead s).toNat
  | 0x24 => x.werrAddr.toNat
  | 0x28 => (werrHead s).toNat
  | 0x2C => pk [(x.werr.length, 8), (x.werrOvf.toNat, 0)]
  | 0x30 => x.orphanCnt.toNat
  | 0x34 => x.scanOverrun.toNat
  | _ =>
    if 0x100 ≤ o ∧ o < 0x300 then xbSlotRead ((o - 0x100) / 0x40) ((o - 0x100) % 0x40) s
    else if 0x400 ≤ o ∧ o < 0x500 then xbWinRead ((o - 0x400) / 0x10) ((o - 0x400) % 0x10) s
    else 0

end Sys2Proof.Machine
end

