-- ==== Sys2Proof/Machine/RegEffect.lean ====
section
/-!
DEFINITION. What a read of a register changes once its word has been delivered in full (spec/02, R87 to R89): RC
registers and fields clear, FIFO registers pop, and FIFO and PEEK registers load the registers beside them. A read of
a register whose rounding is open draws a free value (log entry 6).
-/

namespace Sys2Proof.Machine

def posAfter (o : Nat) (s : State) : State :=
  if o = 0x30 then { s with pos := { s.pos with refusedCnt := 0 } } else s

def tmbAfter (o : Nat) (s : State) : State :=
  if o = 0x64 then { s with tmb := { s.tmb with pps := { s.tmb.pps with reject := 0 } } }
  else if o = 0x6C then drawn s
  else if 0x100 ≤ o ∧ o < 0x300 ∧ (o - 0x100) % 0x20 = 4 then
    setCmp ((o - 0x100) / 0x20) { cmpAt ((o - 0x100) / 0x20) s with missed := 0 } s
  else if 0x400 ≤ o ∧ o < 0x480 ∧ o % 0x10 = 4 then capRead ((o - 0x400) / 0x10) true s
  else if 0x400 ≤ o ∧ o < 0x480 ∧ o % 0x10 = 0xC then capRead ((o - 0x400) / 0x10) false s
  else s

def ptpAfter (o : Nat) (s : State) : State :=
  if o = 0x10 then { s with ptp := { s.ptp with castleCnt := 0, blockedCnt := 0 } }
  else if o = 0x14 then drawn s
  else if 0x100 ≤ o ∧ o < 0x200 then
    (if o % 0x80 = 0x30 then updDom (decide (0x180 ≤ o)) (fun k => { k with discard := 0 }) s else drawn s)
  else if 0x400 ≤ o ∧ o < 0x600 then
    let p := (o - 0x400) / 0x40
    let r := o % 0x40
    if r = 0x1C then txtsRead p true s
    else if r = 0x28 then txtsRead p false s
    else if r = 0x30 then updPort p (fun k => { k with pdelayTo := 0 }) s
    else drawn s
  else s

def ethPortAfter (p o : Nat) (s : State) : State :=
  if 0x100 ≤ o ∧ o < 0x140 then updEth p (fun k => { k with cnt := upd (fun _ => 0) k.cnt ((o - 0x100) / 4) }) s
  else if 0x208 ≤ o ∧ o < 0x228 ∧ p % 2 = 0 ∧ p < 8 then
    updPair (p / 2) (fun k => { k with cnt := upd (fun _ => 0) k.cnt ((o - 0x208) / 4) }) s
  else if p = 8 ∧ o = 0x300 then { s with hp := { s.hp with tagErr := 0 } }
  else if p = 8 ∧ o = 0x304 then { s with hp := { s.hp with accessDone := 0 } }
  else if p = 8 ∧ o = 0x308 then { s with hp := { s.hp with accessDrop := 0 } }
  else if o = 0x2C then drawn s
  else s

def serAfter (o : Nat) (s : State) : State :=
  let r := o % 0x100
  if 0x40 ≤ r ∧ r < 0x8C then
    updSer (o / 0x100) (fun k => { k with cnt := upd (fun _ => 0) k.cnt ((r - 0x40) / 4) }) s
  else s

def cnvAfter (o : Nat) (s : State) : State :=
  if o = 0x0C then { s with cnv := { s.cnv with trigSkipCnt := 0 } }
  else if o = 0x10 then { s with cnv := { s.cnv with overloadCnt := 0 } }
  else if o = 0x84 then setStream false { s.cnv.stream0 with frames := 0 } s
  else if o = 0x94 then setStream true { s.cnv.stream1 with frames := 0 } s
  else s

def alnAfter (o : Nat) (s : State) : State :=
  if o = 0x10 then { s with aln := { s.aln with unmatched := 0 } }
  else if o = 0x14 then { s with aln := { s.aln with format := 0 } }
  else if o = 0x18 then { s with aln := { s.aln with dup := 0 } }
  else if 0x100 ≤ o ∧ o < 0x200 then
    let i := (o - 0x100) / 0x10
    if o % 0x10 = 4 then updSub i (fun k => { k with late := 0 }) s
    else if o % 0x10 = 8 then updSub i (fun k => { k with missing := 0 }) s
    else if o % 0x10 = 0xC then updSub i (fun k => { k with bridged := 0 }) s
    else s
  else s

def rteAfter (o : Nat) (s : State) : State :=
  if o % 32 / 4 < 6 then s else rteClear (o / 32) (o % 32 / 4) s

def clsAfter (o : Nat) (s : State) : State :=
  if o = 0x14 then { s with cls := { s.cls with unroutedCnt := 0 } }
  else if 0x100 ≤ o ∧ o < 0x1C0 then
    let c := (o - 0x100) / 0x20
    let r := o % 0x20
    if r = 0x04 then updCls c (fun k => { k with refused := 0 }) s
    else if r = 0x08 then updCls c (fun k => { k with excess := 0 }) s
    else if r = 0x0C then updCls c (fun k => { k with downgraded := 0 }) s
    else if r = 0x10 then updCls c (fun k => { k with flagFall := 0 }) s
    else if r = 0x14 then updCls c (fun k => { k with marked := 0 }) s
    else if r = 0x18 then updCls c (fun k => { k with promoted := 0 }) s
    else s
  else if 0x2000 ≤ o ∧ o < 0x2A00 ∧ o % 8 = 4 then
    let x := egressAt (o - 0x2000)
    { s with cls := { s.cls with
      peaks := s.cls.peaks.filter (fun p => !(p.egress == x.1 && p.cls == x.2.1)) } }
  else s

def arbAfter (o : Nat) (s : State) : State :=
  if o = 0x10 then { s with arb := { s.arb with overrunCnt := 0 } }
  else if o = 0x14 then { s with arb := { s.arb with conflictCnt := 0 } }
  else if o = 0x28 then { s with arb := { s.arb with storeMissCnt := 0 } }
  else if o = 0x2C then { s with arb := { s.arb with gooseUnmatched := 0 } }
  else if 0x200 ≤ o ∧ o < 0x400 ∧ o % 0x10 = 8 then
    updPub ((o - 0x200) / 0x10) (fun k => { k with txCnt := 0 }) s
  else if 0x400 ≤ o ∧ o < 0xC00 ∧ o % 0x10 = 8 then
    updGooseSub ((o - 0x400) / 0x10) (fun k => { k with rxCnt := 0 }) s
  else if 0x400 ≤ o ∧ o < 0xC00 ∧ o % 0x10 = 0xC then
    updGooseSub ((o - 0x400) / 0x10) (fun k => { k with errCnt := 0 }) s
  else s

def xbAfter (o : Nat) (s : State) : State :=
  if o = 0x20 then werrRead true s
  else if o = 0x28 then werrRead false s
  else if o = 0x30 then { s with xb := { s.xb with orphanCnt := 0 } }
  else if o = 0x34 then { s with xb := { s.xb with scanOverrun := 0 } }
  else if 0x100 ≤ o ∧ o < 0x300 then
    let i := (o - 0x100) / 0x40
    if o % 0x40 = 0x24 then updSlot i (fun k => { k with intCnt := 0 }) s
    else if o % 0x40 = 0x28 then updSlot i (fun k => { k with errCnt := 0 }) s
    else if o % 0x40 = 0x2C then updSlot i (fun k => { k with timeoutCnt := 0 }) s
    else s
  else s

def memAfter (o : Nat) (s : State) : State :=
  if o = 0x20 then { s with mem := { s.mem with lostCnt := 0 } }
  else if o = 0x28 then { s with mem := { s.mem with ceCnt := 0 } }
  else if o = 0x30 then { s with mem := { s.mem with ueCnt := 0 } }
  else if o = 0x38 then { s with mem := { s.mem with transientCnt := 0 } }
  else if o = 0x3C then { s with mem := { s.mem with starveCnt := 0 } }
  else s

def pwrAfter (o : Nat) (s : State) : State :=
  if o = 0x28 then { s with therm := { s.therm with tjMax := 0x8000 } }
  else if o = 0x34 then { s with therm := { s.therm with discardCnt := 0 } }
  else if o = 0x38 then { s with therm := { s.therm with takebackCnt := 0 } }
  else s

def evtAfter (o : Nat) (s : State) : State :=
  if o = 0x10 then { s with evt := { s.evt with dropCnt := 0 } }
  else if o = 0x14 then { s with evt := { s.evt with kingLostCnt := 0 } }
  else s

end Sys2Proof.Machine
end

