-- ==== Sys2Proof/Machine/RegWrite.lean ====
section
/-!
DEFINITION. Writes of registers, by offset in their block: RW fields take their value, W1C bits clear, command registers
act as their chapters say. Writes to read-only bits and unmapped offsets have no effect (R73).
-/

namespace Sys2Proof.Machine

/-- Clears the bits of a field that a write sets; the field's lowest bit stands at `lo` (W1C, Table 0-4). -/
def w1c {n : Nat} (b : BitVec n) (w : Word) (lo : Nat) : BitVec n := b &&& ~~~((w >>> lo).setWidth n)

/-- A one-bit W1C flag. -/
def w1cBit (b : Bool) (w : Word) (i : Nat) : Bool := b && !w.getLsbD i

/-- A 64-bit register with one half replaced. -/
def putHi (x : BitVec 64) (w : Word) : BitVec 64 := w ++ x.setWidth 32
def putLo (x : BitVec 64) (w : Word) : BitVec 64 := ((x >>> 32).setWidth 32 : BitVec 32) ++ w

def glbWrite (o : Nat) (w : Word) (s : State) : State :=
  match o with
  | 0x24 => { s with glb := { s.glb with mgtInt := w1c s.glb.mgtInt w 0 } }
  | 0x28 => { s with glb := { s.glb with intaMask := w.setWidth 15 } }
  | 0x2C => { s with glb := { s.glb with intbMask := w.setWidth 15 } }
  | 0x30 => { s with glb := { s.glb with mgtIntEn := w.setWidth 2 } }
  | _ => s

/-- Registers of a comparator: those of the Position are locked (R211). -/
def cmpWrite (n o : Nat) (w : Word) (s : State) : State :=
  let c := cmpAt n s
  match o with
  | 0x00 => writeCmpCtrl n w s
  | 0x08 => if c.locked then lockWrite s else setCmp n { c with targetS := w } s
  | 0x0C => if c.locked then lockWrite s else setCmp n { c with targetNs := w.setWidth 30 } s
  | 0x10 => if c.locked then lockWrite s else setCmp n { c with period := w } s
  | _ => s

/-- TMB_PPSO_CTRLm. -/
def ppsoWrite (m : Nat) (w : Word) (s : State) : State :=
  { s with tmb := { s.tmb with ppso := upd (fun p => { p with
    widthUs := (w >>> 2).setWidth 20, qualify := w.getLsbD 1, polarity := w.getLsbD 0 }) s.tmb.ppso m } }

/-- The overflow flags of the captures (W1C). -/
def capOvfWrite (w : Word) (s : State) : State :=
  (List.range 8).foldl (fun t n => if w.getLsbD n then updCap n (fun k => { k with ovf := false }) t else t) s

def tmbLowWrite (o : Nat) (w : Word) (s : State) : State :=
  let t := s.tmb
  match o with
  | 0x00 => writeOwner (w.setWidth 2) s
  | 0x04 => { s with tmb := { t with
      lockWrite := w1cBit t.lockWrite w 3, cmdErr := w1cBit t.cmdErr w 2, clamped := w1cBit t.clamped w 1 } }
  | 0x08 => tmbCommand (fld w 3 0) s
  | 0x28 => { s with tmb := { t with setS := (w.setWidth 16 : BitVec 16) ++ (t.setS.setWidth 32 : BitVec 32) } }
  | 0x2C => { s with tmb := { t with setS := ((t.setS >>> 32).setWidth 16 : BitVec 16) ++ w } }
  | 0x30 => { s with tmb := { t with setNs := w.setWidth 30 } }
  | 0x34 => { s with tmb := { t with stepS := w } }
  | 0x38 => { s with tmb := { t with stepNs := w } }
  | 0x3C => { s with tmb := { t with slewNs := w } }
  | 0x40 => { s with tmb := { t with slewRate := w.setWidth 10 } }
  | 0x48 => { s with tmb := { t with rate := putHi t.rate w } }
  | 0x4C => { s with tmb := { t with rate := putLo t.rate w } }
  | 0x60 => { s with tmb := { t with pps := { t.pps with
      windowUs := (w >>> 8).setWidth 8, tau := (w >>> 4).setWidth 2, input := w.setWidth 3 } } }
  | 0x70 => ppsoWrite 0 w s
  | 0x74 => ppsoWrite 1 w s
  | 0x78 => ppsoWrite 2 w s
  | 0x7C => ppsoWrite 3 w s
  | 0x80 => { s with tmb := { t with fired := w1c t.fired w 0 } }
  | 0x84 => { s with tmb := { t with cmpIntEn := w.setWidth 16 } }
  | 0x88 => capOvfWrite w s
  | 0x8C => { s with tmb := { t with capIntEn := w.setWidth 8 } }
  | _ => s

def tmbWrite (o : Nat) (w : Word) (s : State) : State :=
  if o < 0x100 then tmbLowWrite o w s
  else if o < 0x300 then cmpWrite ((o - 0x100) / 0x20) ((o - 0x100) % 0x20) w s
  else if 0x400 ≤ o ∧ o < 0x480 ∧ o % 0x10 = 0 then
    updCap ((o - 0x400) / 0x10) (fun k => { k with edge := w.setWidth 2 }) s
  else s

def ptpWrite (o : Nat) (w : Word) (s : State) : State :=
  let t := s.ptp
  match o with
  | 0x04 => { s with ptp := { t with cmdErr := w1cBit t.cmdErr w 8 } }
  | 0x08 => ptpCommand (fld w 3 0) s
  | 0x0C => { s with ptp := { t with
      autoCastle := w.getLsbD 24, autoPolicy := (w >>> 20).setWidth 2, slewPpm := (w >>> 16).setWidth 4,
      windowNs := w.setWidth 16 } }
  | 0x10 => { s with ptp := { t with ignored := w1cBit t.ignored w 3 } }
  | 0x18 => { s with ptp := { t with hostTq := w.setWidth 2 } }
  | 0x1C => { s with ptp := { t with grace := w.setWidth 16 } }
  | _ =>
    if 0x400 ≤ o ∧ o < 0x600 ∧ o % 0x40 = 0x2C then
      updPort ((o - 0x400) / 0x40) (fun k => { k with txtsOvf := w1cBit k.txtsOvf w 0 }) s
    else s

def ethWrite (a : Nat) (w : Word) (s : State) : State :=
  let p := a / 0x800
  match a % 0x800 with
  | 0x04 => updEth p (fun k => { k with cmdErr := w1cBit k.cmdErr w 16 }) s
  | 0x08 => ethCommand p (fld w 3 0) s
  | 0x10 => updEth p (fun k => { k with int := w1c k.int w 0 }) s
  | 0x14 => updEth p (fun k => { k with intEn := w.setWidth 7 }) s
  | _ => s

def serWrite (a : Nat) (w : Word) (s : State) : State :=
  let c := a / 0x100
  match a % 0x100 with
  | 0x08 => updSer c (fun k => { k with cmdErr := w1cBit k.cmdErr w 31 }) s
  | 0x0C => serCommand c (fld w 3 0) s
  | 0x10 => updSer c (fun k => { k with int := w1c k.int w 0 }) s
  | 0x14 => updSer c (fun k => { k with intEn := w.setWidth 6 }) s
  | _ => s

def cnvWrite (o : Nat) (w : Word) (s : State) : State :=
  match o with
  | 0x04 => { s with cnv := { s.cnv with int := w1c s.cnv.int w 0 } }
  | 0x08 => { s with cnv := { s.cnv with intEn := w.setWidth 3 } }
  | _ => s

def alnWrite (o : Nat) (w : Word) (s : State) : State :=
  match o with
  | 0x04 => { s with aln := { s.aln with int := w1c s.aln.int w 0 } }
  | 0x08 => { s with aln := { s.aln with intEn := w.setWidth 4 } }
  | _ => s

def clsWrite (o : Nat) (w : Word) (s : State) : State :=
  match o with
  | 0x00 => { s with cls := { s.cls with int := w1c s.cls.int w 0 } }
  | 0x04 => { s with cls := { s.cls with intEn := w.setWidth 4 } }
  | _ => s

/-- A full queue of host variable writes answers NOT_READY (R606). -/
def arbWrite (o : Nat) (w : Word) (frame : Bool) (s : State) : WriteRes × State :=
  match o with
  | 0x00 => (.ok, { s with arb := { s.arb with
      policyErr := w1cBit s.arb.policyErr w 3, cmdErr := w1cBit s.arb.cmdErr w 2 } })
  | 0x04 => (.ok, { s with arb := { s.arb with int := w1c s.arb.int w 0 } })
  | 0x08 => (.ok, { s with arb := { s.arb with intEn := w.setWidth 5 } })
  | 0x24 => (.ok, arbOutCmd w frame s)
  | _ =>
    if 0x2000 ≤ o ∧ o < 0x4000 then
      let r := arbVarWrite ((o - 0x2000) / 4) w s
      (if r.1 then .ok else .notReady, r.2)
    else (.ok, s)

/-- XB_CMD (Table 12-14). -/
def xbCommand (w : Word) (s : State) : State :=
  if fld w 3 0 = 1 then enumerateSlot (fld w 10 8) s
  else if fld w 3 0 = 2 then invalidateBufs s
  else { s with xb := { s.xb with cmdErr := true } }

def xbWrite (o : Nat) (w : Word) (s : State) : State :=
  match o with
  | 0x00 => { s with xb := { s.xb with cmdErr := w1cBit s.xb.cmdErr w 1 } }
  | 0x04 => xbCommand w s
  | 0x08 => { s with xb := { s.xb with int := w1c s.xb.int w 0 } }
  | 0x0C => { s with xb := { s.xb with intEn := w.setWidth 7 } }
  | 0x10 => { s with xb := { s.xb with orphanUs := w.setWidth 16 } }
  | 0x2C => { s with xb := { s.xb with werrOvf := w1cBit s.xb.werrOvf w 0 } }
  | _ => s

def memWrite (o : Nat) (w : Word) (s : State) : State :=
  match o with
  | 0x04 => { s with mem := { s.mem with int := w1c s.mem.int w 0 } }
  | 0x08 => { s with mem := { s.mem with intEn := w.setWidth 6 } }
  | _ => s

def pwrWrite (o : Nat) (w : Word) (frame : Bool) (s : State) : State :=
  match o with
  | 0x00 => { s with pwr := { s.pwr with reqErr := w1cBit s.pwr.reqErr w 16 } }
  | 0x04 => pwrEnter (if frame then .frame else .spi) w s
  | 0x08 => { s with pwr := { s.pwr with int := w1c s.pwr.int w 0 } }
  | 0x0C => { s with pwr := { s.pwr with intEn := w.setWidth 4 } }
  | 0x10 => { s with pwr := { s.pwr with wakeEn := setBit (w.setWidth 8) 0 } }
  | 0x18 => { s with pwr := { s.pwr with wakeSlots := (w >>> 8).setWidth 8, wakePorts := w.setWidth 8 } }
  | 0x1C => { s with pwr := { s.pwr with wakeGpio := w.setWidth 16 } }
  | 0x20 => { s with pwr := { s.pwr with wakeSer := w.setWidth 24 } }
  | _ => s

/-- Access frames do not reach the command, address, data and token registers (R854). -/
def secFrameRefused (o : Nat) : Bool :=
  o == 0x04 || o == 0x0C || o == 0x10 || (decide (0x400 ≤ o) && decide (o < 0x490))

def secWrite (o : Nat) (w : Word) (s : State) : State :=
  match o with
  | 0x04 => secCommand w s
  | 0x0C => { s with sec := { s.sec with otpAddr := w.setWidth 8 } }
  | 0x10 => { s with sec := { s.sec with otpData := w } }
  | 0x1C => { s with sec := { s.sec with int := w1c s.sec.int w 0 } }
  | 0x20 => { s with sec := { s.sec with intEn := w.setWidth 2 } }
  | _ =>
    if 0x400 ≤ o ∧ o < 0x490 then
      { s with sec := { s.sec with token := upd (fun _ => w) s.sec.token ((o - 0x400) / 4) } }
    else s

def evtWrite (o : Nat) (w : Word) (s : State) : State :=
  match o with
  | 0x00 => { s with evt := { s.evt with pend := w1c s.evt.pend w 0 } }
  | 0x04 => { s with evt := { s.evt with pendEn := w.setWidth 11 } }
  | 0x0C => { s with evt := { s.evt with ovf := w1cBit s.evt.ovf w 0 } }
  | _ => s

end Sys2Proof.Machine
end

