-- ==== Sys2Proof/Machine/RegMap.lean ====
section
/-!
DEFINITION. The management address map (spec/02 Table 2-9): its rows, the MGT block (Tables 2-17 to 2-22), the value of
every register, what a delivered read changes, what a write does, and the registers locked in enforced mode (spec/15
Table 15-5). Meanings of REGISTER_WRITE and RC_COUNTER_READ.
-/

namespace Sys2Proof.Machine

/-! ### Rows (Table 2-9) -/

/-- First and last address of each row of registers and of the shared region. -/
def mapRows : List (Nat × Nat) :=
  [(0x000000, 0x000FFF), (0x001000, 0x001FFF), (0x002000, 0x003FFF), (0x004000, 0x005FFF), (0x006000, 0x007FFF),
   (0x010000, 0x0147FF), (0x018000, 0x0197FF), (0x01C000, 0x01CFFF), (0x01D000, 0x01DFFF), (0x020000, 0x03FFFF),
   (0x040000, 0x043FFF), (0x044000, 0x047FFF), (0x048000, 0x04FFFF), (0x050000, 0x053FFF), (0x054000, 0x055FFF),
   (0x056000, 0x057FFF), (0x058000, 0x05FFFF), (0x100000, 0x11FFFF)]

/-- The row of an address; each card slot's window is a row of its own. -/
def rowOf (a : Nat) : Option (Nat × Nat) :=
  if 0x800000 ≤ a then some (a / 0x100000 * 0x100000, a / 0x100000 * 0x100000 + 0xFFFFF)
  else mapRows.find? (fun r => decide (r.1 ≤ a) && decide (a ≤ r.2))

/-- Kinds of address. -/
def isCard (a : Nat) : Bool := decide (0x800000 ≤ a)
def isShared (a : Nat) : Bool := decide (0x100000 ≤ a) && decide (a < 0x120000)
def isMgt (a : Nat) : Bool := decide (0x1000 ≤ a) && decide (a < 0x2000)

/-- Slot and far address of a card-bus address. -/
def cardSlot (a : Nat) : Nat := a / 0x100000 - 8
def cardAddr (a : Nat) : Nat := a % 0x100000

/-! ### The MGT block (Tables 2-17 to 2-22) -/

/-- MGT_STATUS of an outcome. -/
def outcomeWord (t : TxOutcome) : Nat :=
  pk [(t.opcode.toNat, 24), (t.words.toNat, 16), (t.denied.toNat, 6), (t.wdogAbort.toNat, 5), (t.cmdReject.toNat, 4),
    (t.addrErr.toNat, 3), (t.crcErr.toNat, 2), (t.writeLost.toNat, 1), (t.notReady.toNat, 0)]

def mgtRead (o : Nat) (s : State) : Nat :=
  let m := s.mgt
  match o with
  | 0x00 => pk [(m.wdogEn.toNat, 1), (m.crcEn.toNat, 0)]
  | 0x04 => outcomeWord m.status
  | 0x08 => m.status.lostAddr.toNat
  | 0x0C => m.wdogTimeout.toNat
  | 0x10 => m.crcErrCnt.toNat
  | 0x14 => m.notReadyCnt.toNat
  | _ => 0

def mgtAfter (o : Nat) (s : State) : State :=
  if o = 0x10 then { s with mgt := { s.mgt with crcErrCnt := 0 } }
  else if o = 0x14 then { s with mgt := { s.mgt with notReadyCnt := 0 } }
  else s

def mgtWrite (o : Nat) (w : Word) (s : State) : State :=
  match o with
  | 0x00 => { s with mgt := { s.mgt with wdogEn := w.getLsbD 1, crcEn := w.getLsbD 0 } }
  | 0x0C => { s with mgt := { s.mgt with wdogTimeout := w.setWidth 16 } }
  | _ => s

/-! ### Locked registers (R68, R870, Table 15-5) -/

/-- Is a register one of Table 15-5? -/
def lockable (a : Nat) (s : State) : Bool :=
  if 0x4100 ≤ a ∧ a < 0x4300 then
    (cmpAt ((a - 0x4100) / 0x20) s).locked && (a - 0x4100) % 0x20 != 0x04
  else if 0x6000 ≤ a ∧ a < 0x8000 then
    a == 0x6000 || a == 0x6100 || a == 0x6180 ||
      (decide (0x6400 ≤ a) && decide (a < 0x6600) && [0x10, 0x14, 0x18].contains (a % 0x40))
  else if 0x10000 ≤ a ∧ a < 0x14800 then [0x00, 0x18, 0x1C, 0x20, 0x24, 0x28].contains (a % 0x800)
  else if 0x18000 ≤ a ∧ a < 0x19800 then [0x00, 0x04].contains (a % 0x100)
  else if 0x20000 ≤ a ∧ a < 0x40000 then decide (a % 32 < 24)
  else decide (0x48400 ≤ a) && decide (a < 0x48500)

/-- Is a read of the register denied? -/
def readDenied (a : Nat) (s : State) : Bool := enforced s && lockable a s

/-! ### Registers by address -/

/-- The value of the register at a word-aligned address. -/
def regPlain (a : Nat) (s : State) : Nat :=
  if a < 0x1000 then glbRead a s
  else if a < 0x2000 then mgtRead (a - 0x1000) s
  else if a < 0x4000 then posRead (a - 0x2000) s
  else if a < 0x6000 then tmbRead (a - 0x4000) s
  else if a < 0x8000 then ptpRead (a - 0x6000) s
  else if a < 0x10000 then 0
  else if a < 0x14800 then ethRead (a - 0x10000) s
  else if a < 0x18000 then 0
  else if a < 0x19800 then serRead (a - 0x18000) s
  else if a < 0x1C000 then 0
  else if a < 0x1D000 then cnvRead (a - 0x1C000) s
  else if a < 0x1E000 then alnRead (a - 0x1D000) s
  else if a < 0x20000 then 0
  else if a < 0x40000 then (rteRead ((a - 0x20000) / 32) (a % 32 / 4) s).toNat
  else if a < 0x44000 then clsRead (a - 0x40000) s
  else if a < 0x48000 then arbRead (a - 0x44000) s
  else if a < 0x50000 then xbRead (a - 0x48000) s
  else if a < 0x54000 then memRead (a - 0x50000) s
  else if a < 0x56000 then pwrRead (a - 0x54000) s
  else if a < 0x58000 then secRead (a - 0x56000) s
  else if a < 0x60000 then evtRead (a - 0x58000) s
  else 0

/-- What a read of a register delivers. -/
def regRead (a : Nat) (s : State) : Word := if readDenied a s then 0 else regNat (regPlain a s)

/-- What a read that is delivered in full changes (R87 to R89). -/
def regAfter (a : Nat) (s : State) : State :=
  if a < 0x1000 then s
  else if a < 0x2000 then mgtAfter (a - 0x1000) s
  else if a < 0x4000 then posAfter (a - 0x2000) s
  else if a < 0x6000 then tmbAfter (a - 0x4000) s
  else if a < 0x8000 then ptpAfter (a - 0x6000) s
  else if a < 0x10000 then s
  else if a < 0x14800 then ethPortAfter ((a - 0x10000) / 0x800) ((a - 0x10000) % 0x800) s
  else if a < 0x18000 then s
  else if a < 0x19800 then serAfter (a - 0x18000) s
  else if a < 0x1C000 then s
  else if a < 0x1D000 then cnvAfter (a - 0x1C000) s
  else if a < 0x1E000 then alnAfter (a - 0x1D000) s
  else if a < 0x20000 then s
  else if a < 0x40000 then rteAfter (a - 0x20000) s
  else if a < 0x44000 then clsAfter (a - 0x40000) s
  else if a < 0x48000 then arbAfter (a - 0x44000) s
  else if a < 0x50000 then xbAfter (a - 0x48000) s
  else if a < 0x54000 then memAfter (a - 0x50000) s
  else if a < 0x56000 then pwrAfter (a - 0x54000) s
  else if a < 0x58000 then s
  else if a < 0x60000 then evtAfter (a - 0x58000) s
  else s

/-- A write of a register from SPI, or from an access frame. -/
def regWrite (a : Nat) (w : Word) (frame : Bool) (s : State) : WriteRes × State :=
  if a < 0x1000 then (.ok, glbWrite a w s)
  else if a < 0x2000 then (.ok, mgtWrite (a - 0x1000) w s)
  else if a < 0x4000 then (.ok, if a = 0x2004 then posCommand w s else s)
  else if a < 0x6000 then (.ok, tmbWrite (a - 0x4000) w s)
  else if a < 0x8000 then (.ok, ptpWrite (a - 0x6000) w s)
  else if a < 0x10000 then (.ok, s)
  else if a < 0x14800 then (.ok, ethWrite (a - 0x10000) w s)
  else if a < 0x18000 then (.ok, s)
  else if a < 0x19800 then (.ok, serWrite (a - 0x18000) w s)
  else if a < 0x1C000 then (.ok, s)
  else if a < 0x1D000 then (.ok, cnvWrite (a - 0x1C000) w s)
  else if a < 0x1E000 then (.ok, alnWrite (a - 0x1D000) w s)
  else if a < 0x20000 then (.ok, s)
  else if a < 0x40000 then rteWrite ((a - 0x20000) / 32) (a % 32 / 4) w frame s
  else if a < 0x44000 then (.ok, clsWrite (a - 0x40000) w s)
  else if a < 0x48000 then arbWrite (a - 0x44000) w frame s
  else if a < 0x50000 then (.ok, xbWrite (a - 0x48000) w s)
  else if a < 0x54000 then (.ok, memWrite (a - 0x50000) w s)
  else if a < 0x56000 then (.ok, pwrWrite (a - 0x54000) w frame s)
  else if a < 0x58000 then (.ok, secWrite (a - 0x56000) w s)
  else if a < 0x60000 then (.ok, evtWrite (a - 0x58000) w s)
  else (.ok, s)

/-- Does an access frame get REFUSED at an address: the MGT block and POS_CMD (R108, R140, R356), and for
writes the registers of R854? -/
def frameRefused (a : Nat) (write : Bool) : Bool :=
  isMgt a || a == 0x2004 || (write && decide (0x56000 ≤ a) && decide (a < 0x58000) && secFrameRefused (a - 0x56000))

/-! ### Single register commands -/

/-- The management domain answers: released from reset and powered (R58, R786). -/
def mgtAlive (s : State) : Bool := s.pwr.mainGood && s.pwr.boot != .porWait && s.pwr.boot != .rest &&
  s.pwr.boot != .unpowered

/-- REGISTER_WRITE: MGT registers are written in the management domain, every other while the core answers
(R64, R67, R73). -/
def execRegisterWrite (addr : BitVec 24) (val : Word) (frame : Bool) (s : State) :
    Host.Outcome State Fault Refusal :=
  let a := addr.toNat / 4 * 4
  .next
    (if frame && frameRefused a true then s
     else if isMgt a then (if mgtAlive s then (regWrite a val frame s).2 else s)
     else ifCore (fun t => (regWrite a val frame t).2) s)

/-- RC_COUNTER_READ (R88, R89). -/
def execRcCounterRead (addr : BitVec 24) (s : State) : Host.Outcome State Fault Refusal :=
  let a := addr.toNat / 4 * 4
  .next
    (if isMgt a then (if mgtAlive s then regAfter a s else s)
     else ifCore (fun t => if readDenied a t then t else regAfter a t) s)

end Sys2Proof.Machine
end

