-- ==== Sys2Proof/Machine/Access.lean ====
section
/-!
DEFINITION. Execution of Mytan access frames (spec/06, R354 to R360) and their responses. A command of the model runs the
frame at the head as far as it can go; a card-bus access that waits for the bridge stalls it (R358).
-/

namespace Sys2Proof.Machine

/-! ### The frame in hand -/

/-- Updates the access frame that executes. -/
def updHead (f : AccReq → AccReq) (s : State) : State :=
  { s with hp := { s.hp with held := upd f s.hp.held 0 } }

/-- A command's run: its status so far, the words applied or delivered, the bridge's code and the data. -/
structure AccRun where
  status : Byte
  words : Nat
  xbCode : Byte
  data : List Word
  deriving DecidableEq, Repr

def AccRun.start : AccRun := { status := 0, words := 0, xbCode := 0, data := [] }

/-- The first status that is not OK stays. -/
def AccRun.fail (st : Byte) (r : AccRun) : AccRun := { r with status := if r.status = 0 then st else r.status }

/-- The response entry of a command (Table 6-8). -/
def AccRun.entry (c : AccCmd) (r : AccRun) : AccEntry :=
  { status := r.status, words := r.words % 256, addr := c.addr, xbCode := r.xbCode,
    data := (r.data ++ List.replicate (c.dsize - r.data.length) 0).take c.dsize }

/-- A command that ends with a status at once. -/
def accEnd (c : AccCmd) (st : Byte) : AccEntry := (AccRun.start.fail st).entry c

/-! ### READ and WRITE of registers and of the shared region (R69, R70, R355) -/

/-- One word read at an address of the core: its status and value. -/
def accReadWord (a : Nat) (env : BankEnv) (s : State) : Byte × Word × State :=
  if coreAnswers s = false then (1, 0, s)
  else if isShared a then
    let p := frameRead (a - 0x100000) env s
    (0, BitVec.ofNat 32 (ofLE p.1), p.2)
  else if readDenied a s then (3, 0, s)
  else (0, regRead a s, regAfter a s)

/-- The words of a READ in order; nothing is delivered from the first NOT_READY on. -/
def accReads : Nat → Nat → List BankEnv → AccRun → State → AccRun × State
  | 0, _, _, r, s => (r, s)
  | n + 1, a, es, r, s =>
    let p := accReadWord a (es.headD { sameCycle := false, ecc := .ok }) s
    if p.1 = 1 then (r.fail 1, s)
    else
      accReads n (a + 4) (es.drop 1) { r.fail p.1 with words := r.words + 1, data := r.data ++ [p.2.1] } p.2.2

/-- Status of a written word. -/
def accStatus (w : WriteRes) : Byte :=
  match w with
  | .ok => 0
  | .reject => 5
  | .addrErr => 4
  | .lost => 2
  | .notReady => 1

/-- One word of entry `k` written at an address of the core. -/
def accWriteWord (a k : Nat) (w : Word) (env : BankEnv) (s : State) : Byte × State :=
  if coreAnswers s = false then (1, s)
  else if isShared a then
    (if inSystemArea (a - 0x100000) then (4, s) else (0, frameWrite (a - 0x100000) w k env s))
  else
    let p := regWrite a w true s
    (accStatus p.1, p.2)

/-- The words of a WRITE in order. -/
def accWrites (k : Nat) : List Word → Nat → List BankEnv → AccRun → State → AccRun × State
  | [], _, _, r, s => (r, s)
  | w :: ws, a, es, r, s =>
    let p := accWriteWord a k w (es.headD { sameCycle := false, ecc := .ok }) s
    if p.1 = 1 then (r.fail 1, s)
    else
      accWrites k ws (a + 4) (es.drop 1)
        { r.fail p.1 with words := if p.1 = 0 then r.words + 1 else r.words } p.2

/-! ### ATOMIC (R91, R744, R745) -/

def accAtomic (c : AccCmd) (k : Nat) (env : BankEnv) (s : State) : AccEntry × State :=
  let a := c.addr.toNat
  let op := fld (nth 0 c.data 0) 1 0
  let opd :=
    if op % 2 = 0 then (nth 0 c.data 1).toNat else (nth 0 c.data 1).toNat * 2 ^ 32 + (nth 0 c.data 2).toNat
  if isShared a = false ∨ a % atomicWidth op ≠ 0 then (accEnd c 4, s)
  else if coreAnswers s = false then (accEnd c 1, s)
  else if inSystemArea (a - 0x100000) then (accEnd c 4, s)
  else
    let p := frameAtomic (a - 0x100000) op opd k env s
    let ws := if op % 2 = 0 then [regNat p.1] else [regNat (p.1 / 2 ^ 32), regNat p.1]
    (({ AccRun.start with words := ws.length, data := ws } : AccRun).entry c, p.2)

/-! ### The card bus (R358, R668, R683, R697, R718) -/

/-- What one run of a command gives: its entry, or none while it waits for the bridge. -/
structure AccStep where
  entry : Option AccEntry
  used : Nat
  state : State

/-- The command goes on, or ends with an entry. -/
def accStall (s : State) : AccStep := { entry := none, used := 0, state := s }
def accDone (e : AccEntry) (s : State) : AccStep :=
  { entry := some e, used := 0,
    state := updHead (fun q => { q with waitTag := none, landed := none, sent := 0 }) s }

/-- The entry of a card-bus command once the bridge has answered; `n` are its words within the slot's row. -/
def landedEntry (c : AccCmd) (n : Nat) (code : Byte) (bytes : List Byte) : AccEntry :=
  let data := if c.opcode = 0x03 then bytesWords n bytes else []
  let r : AccRun :=
    if code = 0 then { status := if n < c.words then 4 else 0, words := n, xbCode := 0, data }
    else { status := 7, words := 0, xbCode := code, data := [] }
  r.entry c

/-- Ends a card-bus command if the bridge has answered. -/
def accCollect (c : AccCmd) (n : Nat) (s : State) : AccStep :=
  match s.hp.held with
  | q :: _ =>
    match q.landed with
    | some x => accDone (landedEntry c n x.1 x.2) s
    | none => accStall s
  | [] => accStall s

/-- The request number by which the bridge will answer. -/
def awaitBridge (s : State) : State := updHead (fun q => { q with waitTag := some s.xb.nextId, landed := none }) s

/-- A card-bus READ of `n` words. -/
def cardRead (c : AccCmd) (n : Nat) (s : State) : AccStep :=
  let a := c.addr.toNat
  if tagsUsed s < 16 then
    accCollect c n (farRead 1 (cardSlot a) (cardAddr a) (4 * n) .access (awaitBridge s))
  else accStall s

/-- A non-posted WRITE (R683): it holds a tag and waits for its end. -/
def cardWriteWait (c : AccCmd) (r : XbReq) (s : State) : AccStep :=
  if slotPresent r.slot s = false then accDone (landedEntry c (r.len / 4) 3 []) s
  else if tagsUsed s < 16 then
    accStall (xbJoin { r with tag := true, dest := .access } (dropWindowBufs r.win (awaitBridge s)))
  else accStall s

/-- A posted WRITE: one entry for each 64-byte block, taken as entries become free (R679, R681, R682). `f` bounds the
blocks. -/
def cardWritePost (c : AccCmd) (r : XbReq) : Nat → State → AccStep
  | 0, s => accStall s
  | f + 1, s =>
    let sent := match s.hp.held with
      | q :: _ => q.sent
      | [] => 0
    if r.len ≤ 4 * sent then accDone (landedEntry c (r.len / 4) 0 []) s
    else if postedUsed s < 32 then
      let a := r.addr + 4 * sent
      let n := min (r.len - 4 * sent) (64 - a % 64)
      cardWritePost c r f (updHead (fun q => { q with sent := sent + n / 4 })
        (acceptPosted { r with addr := a, len := n, bytes := slice r.bytes (4 * sent) n } s))
    else accStall s

/-- A card-bus WRITE of its first `n` words. -/
def cardWrite (c : AccCmd) (n : Nat) (s : State) : AccStep :=
  let a := c.addr.toNat
  match findWindow (cardSlot a) (cardAddr a) (4 * n) s with
  | none => accDone (landedEntry c n 4 []) s
  | some w =>
    let r0 := winReq 1 (cardSlot a) (cardAddr a) (4 * n) w .none s
    let r : XbReq := { r0 with
      write := true, posted := winPosted (xbWindow w s), bytes := swapBytes r0.swap (wordsBytes (c.data.take n)),
      quiet := false }
    if r.posted then cardWritePost c r 6 s else cardWriteWait c r s

/-- A READ or WRITE of the card bus: it collects the bridge's answer, or makes its request. -/
def accCard (c : AccCmd) (n : Nat) (s : State) : AccStep :=
  match s.hp.held with
  | q :: _ =>
    if q.waitTag.isSome then accCollect c n s
    else if c.opcode = 0x03 then cardRead c n s
    else cardWrite c n s
  | [] => accStall s

/-! ### One command (R355 to R358, Table 6-9) -/

/-- Addresses of the words of a READ or WRITE that lie within the row. -/
def accSpan (a n : Nat) : List Nat := (List.range n).map (fun i => a + 4 * i)

/-- A READ or WRITE of `n` words of a row of registers or of the shared region. -/
def accCore (c : AccCmd) (k n : Nat) (envs : List BankEnv) (s : State) : AccStep :=
  let a := c.addr.toNat
  let p := if c.opcode = 0x03 then accReads n a envs .start s else accWrites k (c.data.take n) a envs .start s
  let r := if n < c.words then p.1.fail 4 else p.1
  { accDone (r.entry c) p.2 with used := if isShared a then n else 0 }

/-- Runs command `k` of the frame; `skip` tells that an earlier one failed under STOP_ON_ERROR (R357). -/
def accCommand (c : AccCmd) (k : Nat) (skip : Bool) (envs : List BankEnv) (s : State) : AccStep :=
  let a := c.addr.toNat
  if c.preset = some 9 then accDone (accEnd c 9) s
  else if skip then accDone (accEnd c 8) s
  else
    match c.preset with
    | some st => accDone (accEnd c st) s
    | none =>
      if c.opcode = 0x60 then
        let p := accAtomic c k (envs.headD { sameCycle := false, ecc := .ok }) s
        { accDone p.1 p.2 with used := 1 }
      else if a % 4 ≠ 0 then accDone (accEnd c 4) s
      else
        match rowOf a with
        | none => accDone (accEnd c 4) s
        | some (_, hi) =>
          let n := min c.words ((hi + 1 - a) / 4)
          if (accSpan a n).any (fun x => frameRefused x (c.opcode == 0x02)) then accDone (accEnd c 6) s
          else if isCard a then accCard c n s
          else accCore c k n envs s

/-- Runs the commands that are left until one stalls. -/
def accRunAll : List AccCmd → Nat → List BankEnv → State → State
  | [], _, _, s => s
  | c :: cs, k, es, s =>
    let skip := match s.hp.held with
      | q :: _ => q.flags.getLsbD 0 && q.done.any (fun e => e.status != 0)
      | [] => false
    let r := accCommand c k skip es s
    match r.entry with
    | none => r.state
    | some e => accRunAll cs (k + 1) (es.drop r.used) (updHead (fun q => { q with done := q.done ++ [e] }) r.state)

/-- The frame at the head executes from where it stands; its first command takes the time of the response's host tag. -/
def accessExecute (envs : List BankEnv) (s : State) : State :=
  match s.hp.held with
  | [] => s
  | q :: _ =>
    let s1 := updHead (fun x => { x with started := some (x.started.getD (stampNow s)) }) (portABegin s)
    accRunAll (q.cmds.drop q.done.length) q.done.length envs s1

/-- ACCESS_FRAME_EXECUTE: in PLAY only (R360). -/
def execAccessFrameExecute (envs : List BankEnv) (s : State) : Host.Outcome State Fault Refusal :=
  .next (if inPlay s then accessExecute envs s else s)

/-! ### The response (R359, R974, Table 6-8) -/

/-- A response entry as bytes. -/
def accEntryBytes (e : AccEntry) : List Byte :=
  [e.status] ++ toBE 1 e.words ++ toBE 3 e.addr.toNat ++ [0, 0, e.xbCode] ++ e.data.flatMap (fun w => toBE 4 w.toNat)

/-- The response frame from its destination address on. -/
def accResponse (q : AccReq) (s : State) : List Byte :=
  q.src ++ slice (portEntry 8 s) 8 6 ++ toBE 2 0x88B5 ++ toBE 1 1 ++ toBE 1 q.cmds.length ++ toBE 2 q.reqId.toNat ++
    toBE 2 q.flags.toNat ++ toBE 2 0 ++ q.done.flatMap accEntryBytes

/-- The host tag of a response (R974). -/
def accTag (t : Stamp) : List Byte :=
  [0x14, 0, 0, 0, 0, 0, 0, 0] ++ toBE 4 t.secs.toNat ++ toBE 4 (tqNsWord t.tq t.ns)

/-- Gives the newest message of the board its host tag. -/
def setRespTag (i : Nat) (tag : List Byte) (s : State) : State :=
  { s with cls := { s.cls with
    msgs := s.cls.msgs.map (fun m => if m.id = i then { m with template := some tag } else m) } }

/-- The response as it is handed to step 6, in the class of ACCESS_ROUTE. -/
def respInbound (bytes : List Byte) (t : Stamp) (s : State) : Inbound :=
  { kind := .accessResp, port := 15, channel := none, index := 0, bytes, etype := 0x88B5, key := 0,
    len := bytes.length + 4, tagged := false, vid := 0, pcp := 0, prio := 0, stamp := t, origin := localNow s,
    idle := false, red := 0, san := false, tsTag := none, deliver := true, ring := [] }

/-- The response of the frame at the head leaves, if its last command has completed. -/
def accessRespond (s : State) : State :=
  match s.hp.held with
  | [] => s
  | q :: qs =>
    if q.done.length < q.cmds.length then s
    else
      let t := q.started.getD (stampNow s)
      let r : Route := { id := accessRoute s, res := padTo 32 (resultOf (accessRoute s) s) }
      let c := if q.down then 0 else routeClass r s
      let s1 := { s with hp := { s.hp with held := qs, accessDone := satInc s.hp.accessDone } }
      setRespTag s.cls.nextMsg (accTag t) (bufferAndQueue (respInbound (accResponse q s) t s) r c q.down [8] s1)

/-- ACCESS_RESPONSE_TX. -/
def execAccessResponseTx (s : State) : Host.Outcome State Fault Refusal :=
  .next (if inPlay s then accessRespond s else s)

end Sys2Proof.Machine
end

