-- ==== Sys2Proof/Machine/Jtag.lean ====
section
/-!
DEFINITION. The JTAG instructions and the boundary register (spec/15, spec/17).
-/

namespace Sys2Proof.Machine

/-! ### Boundary register (R917 to R922) -/

def boundaryLen : Nat := 328

/-- The IDCODE of step B1 (R871). -/
def idcodeWord : Word := 0x1082496D

/-- JTAG works while all main supplies are above their thresholds, but in REST. -/
def jtagRuns (s : State) : Bool := s.pwr.mainGood && s.pwr.boot != .rest && s.pwr.boot != .unpowered

/-- Level of a ball of three cells from `i` on: input, output, control (R919). -/
def cellDrive (cells : List Bool) (i : Nat) : PinDrive :=
  if nth false cells (i + 2) then (if nth false cells (i + 1) then .high else .low) else .hiZ

/-- The GPIO balls while the boundary register has the balls; HIGHZ releases every driver. -/
def gpioScan (s : State) : State :=
  { s with gpio := (List.range 16).map (fun n =>
      if s.jtag.instr = .highz then .hiZ else cellDrive s.jtag.cells (202 + 3 * n)) }

/-- The register after a scan: cell 0 leaves first, and new bits enter at cell 327. -/
def scanIn (reg bits : List Bool) : List Bool := (reg ++ bits).drop bits.length

/-- The bits that leave on JTAG_TDO during a scan. -/
def scanOut (reg bits : List Bool) : List Bool := (reg ++ bits).take bits.length

/-- What the cells capture: the levels at the balls. -/
def capturedCells (pins : List Bool) : List Bool :=
  pins.take boundaryLen ++ List.replicate (boundaryLen - pins.length) false

/-! ### Loading an instruction (R872) -/

/-- The core is held in reset from the first holding instruction on, and released with the first other one,
unless RESET_N is low. -/
def loadInstr (i : JtagInstr) (s : State) : State :=
  let s1 := { s with jtag := { s.jtag with instr := i } }
  if jtagHolds i then
    (if resettable s && s.pwr.boot != .inReset then coreReset .resetN s1 else s1)
  else if s.pwr.boot = .inReset ∧ jtagHolds s.jtag.instr = true then
    gpioFallback { s1 with pwr := { s1.pwr with boot := heldOrPll s1 } }
  else s1

/-- The balls follow the boundary register while the core is held for it. -/
def followCells (s : State) : State :=
  if s.pwr.boot = .inReset ∧ jtagHolds s.jtag.instr = true then gpioScan s else s

/-- One scan of the boundary register: capture, shift, update. -/
def scanCells (pins bits : List Bool) (s : State) : State :=
  let c := capturedCells pins
  { s with jtag := { s.jtag with captured := c, dr := scanOut c bits, cells := scanIn c bits } }

/-- An instruction that selects the boundary register, with one scan of it unless there is nothing to
shift. -/
def boundaryScan (i : JtagInstr) (pins bits : List Bool) (s : State) : State :=
  if jtagRuns s then
    let s1 := loadInstr i s
    followCells (if bits.isEmpty then s1 else scanCells pins bits s1)
  else s

/-- An instruction that selects the one-bit bypass register. -/
def bypassScan (i : JtagInstr) (bits : List Bool) (s : State) : State :=
  if jtagRuns s then
    let s1 := loadInstr i s
    followCells { s1 with jtag := { s1.jtag with dr := (false :: bits).take bits.length } }
  else s

def execExtest (pins shift : List Bool) (s : State) : Host.Outcome State Fault Refusal :=
  .next (boundaryScan .extest pins shift s)

def execExtestPulse (pins shift : List Bool) (s : State) : Host.Outcome State Fault Refusal :=
  .next (boundaryScan .extestPulse pins shift s)

def execExtestTrain (pins shift : List Bool) (s : State) : Host.Outcome State Fault Refusal :=
  .next (boundaryScan .extestTrain pins shift s)

/-- SAMPLE/PRELOAD: the core runs on (R872). -/
def execSamplePreload (pins shift : List Bool) (s : State) : Host.Outcome State Fault Refusal :=
  .next (boundaryScan .samplePreload pins shift s)

/-- IDCODE: the 32 bits leave least significant first. -/
def execIdcode (s : State) : Host.Outcome State Fault Refusal :=
  .next
    (if jtagRuns s then
      let s1 := loadInstr .idcode s
      { s1 with jtag := { s1.jtag with dr := (List.range 32).map (fun k => idcodeWord.getLsbD k) } }
     else s)

def execClamp (s : State) : Host.Outcome State Fault Refusal := .next (bypassScan .clamp [] s)
def execHighz (s : State) : Host.Outcome State Fault Refusal := .next (bypassScan .highz [] s)

/-- BYPASS, and every other code. -/
def execBypass (shift : List Bool) (s : State) : Host.Outcome State Fault Refusal :=
  .next (bypassScan .bypass shift s)

/-- JTAG_TEST_LOGIC_RESET: IDCODE is selected, and the cells take their reset values (R922). -/
def execJtagTestLogicReset (s : State) : Host.Outcome State Fault Refusal :=
  .next
    (if jtagRuns s then
      let s1 := loadInstr .idcode s
      { s1 with jtag := { s1.jtag with cells := JtagBlk.reset.cells } }
     else s)

end Sys2Proof.Machine
end

