-- ==== Sys2Proof/Machine/Mgt.lean ====
section
/-!
DEFINITION. The management port (spec/02): the status byte, CRC-8 framing, the transactions of Table 2-2, the pickup
slots, the stalemate timer and the management watchdog. A command is one whole transaction; the bytes the device drives
on MGT_MISO are kept in `mgt.miso`.
-/

namespace Sys2Proof.Machine

/-! ### The status byte (Table 2-3) -/

/-- Does a pickup slot hold a completed read that nobody has collected? -/
def pickupWaits (s : State) : Bool := s.mgt.pick.any (fun p => p.st == .done || p.st == .error)

def statusByte (s : State) : Byte :=
  BitVec.ofNat 8 (pk [((readyBit s).toNat, 7), (s.mgt.last.notReady.toNat, 6), (s.mgt.last.writeLost.toNat, 5),
    (s.mgt.last.crcErr.toNat, 4), ((intaAsserted s || intbAsserted s).toNat, 3), ((pickupWaits s).toNat, 2),
    (ladderCode s, 0)])

/-! ### CRC-8 (R59 to R62) -/

/-- The CRC after further bytes. -/
def crcMore (r : Byte) (l : List Byte) : Byte := l.foldl (fun r b => crcUp 0x07 8 (r ^^^ b)) r

/-- The CRC after a word. -/
def crcWord (r : Byte) (w : Word) : Byte := crcMore r (toBE 4 w.toNat)

/-- The CRC after the opcode and the address as received. -/
def crcHead (op : Nat) (addr : BitVec 24) : Byte := crcMore 0 (BitVec.ofNat 8 op :: toBE 3 addr.toNat)

/-- The words of the host up to the first whose CRC byte is wrong, and whether one was (R61). -/
def hostWords (crcEn : Bool) : List SpiWord → Byte → List Word × Bool
  | [], _ => ([], false)
  | w :: ws, r =>
    let r1 := crcWord r w.val
    if crcEn && w.crc != r1 then ([], true)
    else
      let t := hostWords crcEn ws r1
      (w.val :: t.1, t.2)

/-- Words the device sends, each with its CRC byte where framing is on. -/
def sendWords (crcEn : Bool) : List Word → Byte → List Byte
  | [], _ => []
  | w :: ws, r =>
    let r1 := crcWord r w
    toBE 4 w.toNat ++ (if crcEn then [r1] else []) ++ sendWords crcEn ws r1

/-- Bytes that the device drives zero (R54): while the host sends an address, `n` words, or a turnaround. -/
def zeroBytes (n : Nat) : List Byte := List.replicate n 0
def wordSlots (crcEn : Bool) (n : Nat) : Nat := n * (if crcEn then 5 else 4)

/-! ### Outcomes (R57, R74, R114, Table 2-19) -/

/-- A transaction in progress: its outcome so far, and whether its later words have no effect. -/
structure SpiRun where
  out : TxOutcome
  stop : Bool
  deriving DecidableEq, Repr

def SpiRun.start (op : Nat) : SpiRun := { out := { TxOutcome.zero with opcode := BitVec.ofNat 8 op }, stop := false }

/-- A word was accepted or delivered. -/
def SpiRun.took (r : SpiRun) : SpiRun := { r with out := { r.out with words := satInc r.out.words } }
def SpiRun.addrErr (r : SpiRun) : SpiRun := { r with out := { r.out with addrErr := true } }
def SpiRun.reject (r : SpiRun) : SpiRun := { r with out := { r.out with cmdReject := true } }
def SpiRun.denied (r : SpiRun) : SpiRun := { r with out := { r.out with denied := true } }

/-- NOT_READY: nothing more of the transaction is delivered or applied (R65, R73, R75). -/
def SpiRun.notReady (r : SpiRun) : SpiRun := { out := { r.out with notReady := true }, stop := true }

/-- A word of the shared region was lost (R111). -/
def SpiRun.lost (a : Nat) (r : SpiRun) : SpiRun :=
  { r with out := { r.out with
    writeLost := true, lostAddr := if r.out.writeLost then r.out.lostAddr else BitVec.ofNat 24 a } }

/-- Several words taken at once. -/
def SpiRun.tookN (n : Nat) (r : SpiRun) : SpiRun := { r with out := { r.out with words := satAdd r.out.words n } }

/-- A CRC mismatch is noted where one was met. -/
def SpiRun.crc (bad : Bool) (r : SpiRun) : SpiRun := { r with out := { r.out with crcErr := bad } }

/-- Counts a transaction whose CRC_ERR or NOT_READY has become set (Table 2-22). -/
def countFlags (old new : TxOutcome) (s : State) : State :=
  { s with mgt := { s.mgt with
    crcErrCnt := if new.crcErr && !old.crcErr then satInc s.mgt.crcErrCnt else s.mgt.crcErrCnt,
    notReadyCnt := if new.notReady && !old.notReady then satInc s.mgt.notReadyCnt else s.mgt.notReadyCnt } }

/-! ### The edges of MGT_CS_N -/

/-- Issues the far read of a transaction (R77 to R79); `false` tells that no tag was free. -/
def issueRead (p : Option ParkedRead) (s : State) : Bool × State :=
  match p with
  | none => (true, s)
  | some r =>
    if r.words = 0 then (true, s)
    else if coreAnswers s ∧ tagsUsed s < 16 then
      let k : PickSlot :=
        { st := .notReady, seq := s.mgt.pickSeq, code := 0, len := r.words, data := [], deadline := none }
      (true, farRead 0 r.slot r.addr (4 * r.words) (.pickup r.pick)
        { s with mgt := { s.mgt with pick := upd (fun _ => k) s.mgt.pick r.pick } })
    else (false, s)

/-- The outcome that the next transaction shows; a STATUS transaction leaves the one before it (R57). -/
def keepOutcome (o : TxOutcome) (s : State) : State :=
  { s with mgt := { s.mgt with openTx := none, last := if o.opcode = 0x05 then s.mgt.last else o } }

/-- MGT_CS_N rises: the open posted entry closes and the far read is issued (R77, R680). -/
def csRises (o : TxOutcome) (p : Option ParkedRead) (s : State) : State :=
  let r := issueRead p (closeGather s)
  let o1 : TxOutcome := if r.1 then o else { o with notReady := true }
  keepOutcome o1 (countFlags o o1 r.2)

/-- The end of the edges of a transaction: MGT_CS_N rises, or stays low. -/
def endTx (o : TxOutcome) (p : Option ParkedRead) (hang : Bool) (miso : List Byte) (s : State) : State :=
  let s1 := countFlags .zero o { s with mgt := { s.mgt with miso } }
  if hang then { s1 with mgt := { s1.mgt with openTx := some { lastEdge := localNow s, read := p, out := o } } }
  else csRises o p s1

/-- MGT_CS_N falls: a transaction still open has ended before, and MGT_STATUS takes the outcome of the last one
(R114). -/
def csFalls (isStatus : Bool) (s : State) : State :=
  let s1 :=
    match s.mgt.openTx with
    | some t => csRises t.out t.read s
    | none => s
  if isStatus then s1 else { s1 with mgt := { s1.mgt with status := s1.mgt.last } }

/-- A transaction reaches the management domain while that is out of reset (R786). -/
def ifMgt (f : State → State) (s : State) : State := if mgtAlive s then f s else s

/-! ### WRITE (R69 to R75) -/

/-- What the bridge or a register answers, as flags of the transaction. -/
def SpiRun.answer (w : WriteRes) (a : Nat) (r : SpiRun) : SpiRun :=
  match w with
  | .ok => r.took
  | .reject => r.reject
  | .addrErr => r.addrErr
  | .lost => r.lost a
  | .notReady => r.notReady

/-- One word written at an address of the core. -/
def coreWrite (a : Nat) (w : Word) (env : BankEnv) (s : State) : WriteRes × State :=
  if isCard a then
    let g := gatherWord (cardSlot a) (cardAddr a) w s
    (match g.1 with
     | .ok => .ok
     | .noWindow => .addrErr
     | .full => .notReady, g.2)
  else if isShared a then
    if inSystemArea (a - 0x100000) then (.addrErr, s)
    else
      let p := portBWrite (a - 0x100000) (toLE 4 w.toNat) env s
      (if p.1 then .ok else .lost, p.2)
  else regWrite a w false s

/-- One word of a WRITE that started in a row. -/
def spiWriteWord (row : Option (Nat × Nat)) (a : Nat) (w : Word) (env : BankEnv) (r : SpiRun) (s : State) :
    SpiRun × State :=
  if r.stop then (r, s)
  else
    match row with
    | none => (r.took, s)
    | some (_, hi) =>
      if hi < a then (r.addrErr, s)
      else if isMgt a then (r.took, (regWrite a w false s).2)
      else if coreAnswers s = false then (r.notReady, s)
      else
        let p := coreWrite a w env s
        (r.answer p.1 a, p.2)

/-- Circumstances of an access for which the command gives none. -/
def plainEnv : BankEnv := { sameCycle := false, ecc := .ok }

/-- The words of a WRITE in order. -/
def spiWriteWords (row : Option (Nat × Nat)) : List Word → Nat → List BankEnv → SpiRun → State → SpiRun × State
  | [], _, _, r, s => (r, s)
  | w :: ws, a, es, r, s =>
    let p := spiWriteWord row a w (es.headD plainEnv) r s
    spiWriteWords row ws (a + 4) (es.drop 1) p.1 p.2

/-- A word-aligned address (R52). -/
def wordAddr (addr : BitVec 24) : Nat := addr.toNat / 4 * 4

def spiWrite (addr : BitVec 24) (ws : List SpiWord) (envs : List BankEnv) (hang : Bool) (s : State) : State :=
  let s1 := csFalls false s
  let en := s1.mgt.crcEn
  let h := hostWords en ws (crcHead 0x02 addr)
  let a := wordAddr addr
  let p := spiWriteWords (rowOf a) h.1 a envs (SpiRun.start 0x02) s1
  endTx (p.1.crc h.2).out none hang (statusByte s1 :: zeroBytes (3 + wordSlots en ws.length)) p.2

/-- WRITE. -/
def execWrite (addr : BitVec 24) (ws : List SpiWord) (envs : List BankEnv) (hang : Bool) (s : State) :
    Host.Outcome State Fault Refusal :=
  .next (ifMgt (spiWrite addr ws envs hang) s)

/-! ### READ (R63 to R70, R87 to R89) -/

/-- One word of a READ that started in a row. -/
def spiReadWord (row : Option (Nat × Nat)) (a : Nat) (env : BankEnv) (r : SpiRun) (s : State) :
    Word × SpiRun × State :=
  if r.stop then (0, r, s)
  else
    match row with
    | none => (0, r.took, s)
    | some (_, hi) =>
      if hi < a then (0, r.addrErr, s)
      else if isMgt a then (regRead a s, r.took, regAfter a s)
      else if coreAnswers s = false then (0, r.notReady, s)
      else if isShared a then
        let p := portBRead (a - 0x100000) 4 env s
        (BitVec.ofNat 32 (ofLE p.1), r.took, p.2)
      else if readDenied a s then (0, r.denied.took, s)
      else (regRead a s, r.took, regAfter a s)

/-- The words of a READ in order. -/
def spiReadWords (row : Option (Nat × Nat)) : Nat → Nat → List BankEnv → SpiRun → State → List Word × SpiRun × State
  | 0, _, _, r, s => ([], r, s)
  | n + 1, a, es, r, s =>
    let p := spiReadWord row a (es.headD plainEnv) r s
    let t := spiReadWords row n (a + 4) (es.drop 1) p.2.1 p.2.2
    (p.1 :: t.1, t.2)

/-- A pickup slot that a new far read may take (R83, R84). -/
def freePick (s : State) : Option Nat :=
  s.mgt.pick.findIdx? (fun p => p.st == .empty || p.st == .stale || p.st == .expired)

/-- The ticket word (Table 2-4). -/
def ticketWord (pick : Nat) (seq : BitVec 4) : Word := regNat (pk [(1, 31), (seq.toNat, 24), (pick, 16)])

/-- A READ of the card bus window: words to send, the run, the far read, and the state with the sequence number
taken (R76 to R79). -/
def ticketRead (a words : Nat) (r : SpiRun) (s : State) : List Word × SpiRun × Option ParkedRead × State :=
  let none_ := (List.replicate words (0 : Word), r.notReady, none, s)
  if coreAnswers s = false then none_
  else
    match freePick s with
    | none => none_
    | some i =>
      let seq := s.mgt.pickSeq + 1
      let room := (0x100000 - cardAddr a) / 4
      let n := min (min words 16) room
      let r1 := SpiRun.tookN n r
      (List.replicate n (ticketWord i seq) ++ List.replicate (words - n) 0,
       if room < words then r1.addrErr else r1,
       some { pick := i, slot := cardSlot a, addr := cardAddr a, words := n },
       { s with mgt := { s.mgt with pickSeq := seq } })

def spiRead (addr : BitVec 24) (words : Nat) (envs : List BankEnv) (hang : Bool) (s : State) : State :=
  let s1 := csFalls false s
  let en := s1.mgt.crcEn
  let a := wordAddr addr
  let miso (ws : List Word) := statusByte s1 :: zeroBytes 5 ++ sendWords en ws (crcHead 0x03 addr)
  if isCard a then
    let t := ticketRead a words (SpiRun.start 0x03) s1
    endTx t.2.1.out t.2.2.1 hang (miso t.1) t.2.2.2
  else
    let p := spiReadWords (rowOf a) words a envs (SpiRun.start 0x03) s1
    endTx p.2.1.out none hang (miso p.1) p.2.2

/-- READ. -/
def execRead (addr : BitVec 24) (words : Nat) (envs : List BankEnv) (hang : Bool) (s : State) :
    Host.Outcome State Fault Refusal :=
  .next (ifMgt (spiRead addr words envs hang) s)

/-- MAILBOX_READ: a READ that starts at CNV_GRPg_HDR; its words come from one sample, as one command reads them
(R451). -/
def execMailboxRead (groupB : Bool) (words : Nat) (s : State) : Host.Outcome State Fault Refusal :=
  .next (ifMgt (spiRead (if groupB then 0x01C040 else 0x01C020) words [] false) s)

/-! ### STATUS (R57, R58, R112) -/

def spiStatus (hang : Bool) (s : State) : State :=
  let s1 := csFalls true s
  let w := regNat (if readyBit s1 then outcomeWord s1.mgt.last else 0)
  endTx (SpiRun.start 0x05).out none hang
    (statusByte s1 :: sendWords s1.mgt.crcEn [w] (crcMore 0 [0x05])) s1

/-- STATUS. -/
def execStatus (hang : Bool) (s : State) : Host.Outcome State Fault Refusal := .next (ifMgt (spiStatus hang) s)

/-! ### READ_PICKUP (R80 to R85) -/

def PickSt.code : PickSt → Nat
  | .empty => 0
  | .notReady => 1
  | .done => 2
  | .stale => 3
  | .error => 4
  | .expired => 5

/-- The pickup header (Table 2-5). -/
def pickHeader (p : PickSlot) : Word :=
  regNat (pk [(p.st.code, 28), (p.seq.toNat, 24), (if p.st = .error then p.code.toNat else 0, 16), (p.len, 0)])

/-- The data words of a slot as they read: zero beyond LEN and in a state without data (R81). -/
def pickData (p : PickSlot) : List Word :=
  let shown := p.st == .done || p.st == .stale || p.st == .error
  (List.range 16).map (fun i => if shown && decide (i < p.len) then nth 0 p.data i else 0)

/-- What a pickup does to the slot: the first of a completed read frees it (R83). -/
def pickUp (p : PickSlot) : PickSlot :=
  if p.st = .done ∨ p.st = .error then { p with st := .stale, deadline := none } else p

def spiReadPickup (addr : BitVec 24) (words : Nat) (hang : Bool) (s : State) : State :=
  let s1 := csFalls false s
  let i := wordAddr addr / 4
  let r0 := SpiRun.start 0x0B
  let out (ws : List Word) :=
    statusByte s1 :: zeroBytes 5 ++ sendWords s1.mgt.crcEn (ws.take words) (crcHead 0x0B addr) ++
      zeroBytes (wordSlots s1.mgt.crcEn (words - 17))
  if 3 < i then endTx r0.addrErr.out none hang (out (List.replicate 17 0)) s1
  else
    let p := nth .empty s1.mgt.pick i
    let r1 := SpiRun.tookN (min words 17) r0
    let r2 := if p.st = .notReady ∧ 0 < words then r1.notReady else r1
    endTx r2.out none hang (out (pickHeader p :: pickData p))
      (if words = 0 then s1 else { s1 with mgt := { s1.mgt with pick := upd pickUp s1.mgt.pick i } })

/-- READ_PICKUP. -/
def execReadPickup (addr : BitVec 24) (words : Nat) (hang : Bool) (s : State) : Host.Outcome State Fault Refusal :=
  .next (ifMgt (spiReadPickup addr words hang) s)

/-- STALEMATE_EXPIRY (R84, R693). -/
def execStalemateExpiry (slot : Nat) (s : State) : Host.Outcome State Fault Refusal :=
  let p := nth .empty s.mgt.pick slot
  .next
    (if slot < 4 ∧ p.st = .done ∧ dueOpt p.deadline s = true then
      let s1 := { s with
        mgt := { s.mgt with
          pick := upd (fun k => { k with st := .expired, data := [], deadline := none }) s.mgt.pick slot },
        xb := { s.xb with orphanCnt := satInc s.xb.orphanCnt } }
      raise .xbOrphan (BitVec.ofNat 32 slot) s1
    else s)

/-! ### POS_STREAM (R133 to R139) -/

def spiPosStream (addr : BitVec 24) (ws : List SpiWord) (hang : Bool) (s : State) : State :=
  let s1 := csFalls false s
  let en := s1.mgt.crcEn
  let h := hostWords en ws (crcHead 0x20 addr)
  let miso := statusByte s1 :: zeroBytes (3 + wordSlots en ws.length)
  let r0 := (SpiRun.start 0x20).crc h.2
  if coreAnswers s1 then
    let p := posStream addr h.1 s1
    let n := if streamMode addr s1 = .accept then (p.2.pos.loadOffset.toNat - addr.toNat) / 4 else 0
    let r1 := SpiRun.tookN n r0
    let r2 := if p.1.1 ∧ h.1 ≠ [] then r1.reject else r1
    endTx (if p.1.2 ∧ h.1 ≠ [] then r2.addrErr else r2).out none hang miso p.2
  else endTx (if h.1 = [] then r0 else r0.notReady).out none hang miso s1

/-- POS_STREAM. -/
def execPosStream (addr : BitVec 24) (ws : List SpiWord) (hang : Bool) (s : State) :
    Host.Outcome State Fault Refusal :=
  .next (ifMgt (spiPosStream addr ws hang) s)

/-! ### ATOMIC (R91 to R93, Table 2-6) -/

/-- The operand of an atomic: one word, or two with the high word first. -/
def atomicOperand (op : Nat) : List Word → Option Nat
  | [a] => if op % 2 = 0 then some a.toNat else none
  | a :: b :: _ => if op % 2 = 0 then some a.toNat else some (a.toNat * 2 ^ 32 + b.toNat)
  | [] => none

/-- An old value as words, high word first. -/
def oldWords (op old : Nat) : List Word := if op % 2 = 0 then [regNat old] else [regNat (old / 2 ^ 32), regNat old]

/-- The operation of an ATOMIC from its accepted words: the run, the old value if it executed, and the state. -/
def spiAtomicRun (a : Nat) (ws : List Word) (env : BankEnv) (r : SpiRun) (s : State) :
    SpiRun × Option Nat × State :=
  match ws with
  | [] => (r, none, s)
  | c :: ops =>
    let op := fld c 1 0
    if fld c 31 2 ≠ 0 then (r.reject, none, s)
    else
      match atomicOperand op ops with
      | none => (r, none, s)
      | some x =>
        if isShared a = false ∨ a % atomicWidth op ≠ 0 then (r.addrErr, none, s)
        else if coreAnswers s = false then (r.notReady, none, s)
        else if inSystemArea (a - 0x100000) then (r.addrErr, none, s)
        else
          let p := portBAtomic (a - 0x100000) op x env s
          (r, some p.1, p.2)

def spiAtomic (addr : BitVec 24) (ws : List SpiWord) (olds : Nat) (env : BankEnv) (hang : Bool) (s : State) : State :=
  let s1 := csFalls false s
  let en := s1.mgt.crcEn
  let r0 := crcHead 0x60 addr
  let h := hostWords en ws r0
  let op := match ws with | [] => 0 | c :: _ => fld c.val 1 0
  let t := spiAtomicRun (wordAddr addr) h.1 env ((SpiRun.start 0x60).crc h.2) s1
  let n := min olds (oldWords op 0).length
  let run := match t.2.1 with | some _ => SpiRun.tookN n t.1 | none => t.1
  let back := sendWords en ((oldWords op (t.2.1.getD 0)).take n) (ws.foldl (fun r w => crcWord r w.val) r0)
  endTx run.out none hang (statusByte s1 :: zeroBytes (5 + wordSlots en ws.length) ++ back) t.2.2

/-- ATOMIC. -/
def execAtomic (addr : BitVec 24) (ws : List SpiWord) (olds : Nat) (env : BankEnv) (hang : Bool) (s : State) :
    Host.Outcome State Fault Refusal :=
  .next (ifMgt (spiAtomic addr ws olds env hang) s)

/-! ### SOFT_RESET, WAKE, ENTER_STATE and unlisted opcodes (R56, R94 to R98) -/

/-- The first word of a transaction without an address, if its CRC is good, and whether it was bad. -/
def firstWord (en : Bool) (op : Nat) (ws : List SpiWord) : Option Word × Bool :=
  let h := hostWords en (ws.take 1) (crcMore 0 [BitVec.ofNat 8 op])
  (h.1.head?, h.2)

def spiSoftReset (ws : List SpiWord) (hang : Bool) (s : State) : State :=
  let s1 := csFalls false s
  let en := s1.mgt.crcEn
  let h := firstWord en 0x99 ws
  let miso := statusByte s1 :: zeroBytes (wordSlots en (min 1 ws.length))
  let r0 := (SpiRun.start 0x99).crc h.2
  match h.1 with
  | some k =>
    if k = 0x00005EA1 then
      let s2 := softReset { s1 with mgt := MgtBlk.reset }
      { s2 with mgt := { MgtBlk.reset with last := r0.took.out, miso } }
    else endTx r0.reject.out none hang miso s1
  | none => endTx r0.out none hang miso s1

/-- SOFT_RESET. -/
def execSoftReset (ws : List SpiWord) (hang : Bool) (s : State) : Host.Outcome State Fault Refusal :=
  .next (ifMgt (spiSoftReset ws hang) s)

def spiWake (hang : Bool) (s : State) : State :=
  let s1 := csFalls false s
  endTx (SpiRun.start 0xAB).out none hang [statusByte s1] (registerWake 0 s1)

/-- WAKE (R97). -/
def execWake (hang : Bool) (s : State) : Host.Outcome State Fault Refusal := .next (ifMgt (spiWake hang) s)

def spiEnterState (ws : List SpiWord) (hang : Bool) (s : State) : State :=
  let s1 := csFalls false s
  let en := s1.mgt.crcEn
  let h := firstWord en 0xB9 ws
  let miso := statusByte s1 :: zeroBytes (wordSlots en (min 1 ws.length))
  let r0 := (SpiRun.start 0xB9).crc h.2
  match h.1 with
  | some w =>
    if fld w 31 2 = 0 ∧ entryPermitted .spi (fld w 1 0) s1 = true then
      endTx r0.took.out none hang miso (acceptEntry (fld w 1 0) s1)
    else endTx r0.reject.out none hang miso s1
  | none => endTx r0.out none hang miso s1

/-- ENTER_STATE (R98). -/
def execEnterState (ws : List SpiWord) (hang : Bool) (s : State) : Host.Outcome State Fault Refusal :=
  .next (ifMgt (spiEnterState ws hang) s)

/-- Opcodes of Table 2-2. A transaction that ends after one of them has done nothing. -/
def opcodes : List Byte := [0x02, 0x03, 0x05, 0x0B, 0x20, 0x60, 0x99, 0xAB, 0xB9]

def spiUnknown (op : Byte) (hang : Bool) (s : State) : State :=
  let s1 := csFalls (op == 0x05) s
  let r0 := SpiRun.start op.toNat
  endTx (if opcodes.contains op then r0 else r0.reject).out none hang [statusByte s1] s1

/-- UNKNOWN_OPCODE (R56). -/
def execUnknownOpcode (opcode : Byte) (hang : Bool) (s : State) : Host.Outcome State Fault Refusal :=
  .next (ifMgt (spiUnknown opcode hang) s)

/-! ### The management watchdog (R102 to R104) -/

/-- Cycles without an edge that abandon a transaction (Table 2-21). -/
def wdogCycles (s : State) : Nat := max 1 s.mgt.wdogTimeout.toNat * 250

/-- The watchdog abandons the open transaction: no far read is issued, and the open posted entry closes (R103,
R680). -/
def abandonTx (t : OpenTx) (s : State) : State :=
  raise .mgtWdog (BitVec.ofNat 32 t.out.opcode.toNat)
    (keepOutcome { t.out with wdogAbort := true } (closeGather s))

/-- MGT_WATCHDOG_EXPIRY. -/
def execMgtWatchdogExpiry (s : State) : Host.Outcome State Fault Refusal :=
  .next
    (match s.mgt.openTx with
     | some t =>
       if s.mgt.wdogEn ∧ coreUp s ∧ t.lastEdge + wdogCycles s ≤ localNow s then abandonTx t s else s
     | none => s)

end Sys2Proof.Machine
end

