-- ==== Sys2Proof/Machine/Dispatch.lean ====
section
/-!
DEFINITION. One arm per command, each a call of its meaning.
-/

namespace Sys2Proof.Machine

def exec (i : Instr) (s : State) : Host.Outcome State Fault Refusal :=
  match i with
  | .write addr ws envs hang => Sys2Proof.Machine.execWrite addr ws envs hang s
  | .read addr words envs hang => Sys2Proof.Machine.execRead addr words envs hang s
  | .status hang => Sys2Proof.Machine.execStatus hang s
  | .readPickup addr words hang => Sys2Proof.Machine.execReadPickup addr words hang s
  | .posStream addr ws hang => Sys2Proof.Machine.execPosStream addr ws hang s
  | .atomic addr ws olds env hang => Sys2Proof.Machine.execAtomic addr ws olds env hang s
  | .softReset ws hang => Sys2Proof.Machine.execSoftReset ws hang s
  | .wake hang => Sys2Proof.Machine.execWake hang s
  | .enterState ws hang => Sys2Proof.Machine.execEnterState ws hang s
  | .unknownOpcode opcode hang => Sys2Proof.Machine.execUnknownOpcode opcode hang s
  | .mgtWatchdogExpiry => Sys2Proof.Machine.execMgtWatchdogExpiry s
  | .stalemateExpiry slot => Sys2Proof.Machine.execStalemateExpiry slot s
  | .registerWrite addr val frame => Sys2Proof.Machine.execRegisterWrite addr val frame s
  | .rcCounterRead addr => Sys2Proof.Machine.execRcCounterRead addr s
  | .verifyComplete ue => Sys2Proof.Machine.execVerifyComplete ue s
  | .abort => Sys2Proof.Machine.execAbort s
  | .commitFull => Sys2Proof.Machine.execCommitFull s
  | .commitHitless => Sys2Proof.Machine.execCommitHitless s
  | .restartActive => Sys2Proof.Machine.execRestartActive s
  | .close => Sys2Proof.Machine.execClose s
  | .openingComplete => Sys2Proof.Machine.execOpeningComplete s
  | .prepareComplete => Sys2Proof.Machine.execPrepareComplete s
  | .autoRestartActive => Sys2Proof.Machine.execAutoRestartActive s
  | .snapshot => Sys2Proof.Machine.execSnapshot s
  | .set => Sys2Proof.Machine.execSet s
  | .step => Sys2Proof.Machine.execStep s
  | .slew => Sys2Proof.Machine.execSlew s
  | .slewAbort => Sys2Proof.Machine.execSlewAbort s
  | .rate => Sys2Proof.Machine.execRate s
  | .setSecAtPps => Sys2Proof.Machine.execSetSecAtPps s
  | .slewEnd => Sys2Proof.Machine.execSlewEnd s
  | .ownerWrite owner => Sys2Proof.Machine.execOwnerWrite owner s
  | .cmpArm n ctrl env => Sys2Proof.Machine.execCmpArm n ctrl env s
  | .cmpDisarm n ctrl env => Sys2Proof.Machine.execCmpDisarm n ctrl env s
  | .cmpFire env => Sys2Proof.Machine.execCmpFire env s
  | .ppsoPulseEnd m => Sys2Proof.Machine.execPpsoPulseEnd m s
  | .captureEdge n rising ageNs => Sys2Proof.Machine.execCaptureEdge n rising ageNs s
  | .ppsHoldover => Sys2Proof.Machine.execPpsHoldover s
  | .capFifoRead n => Sys2Proof.Machine.execCapFifoRead n s
  | .capPeekRead n => Sys2Proof.Machine.execCapPeekRead n s
  | .pdelayReqTx port => Sys2Proof.Machine.execPdelayReqTx port s
  | .ptpSyncTx port dom1 => Sys2Proof.Machine.execPtpSyncTx port dom1 s
  | .pdelayTimeout port dom1 => Sys2Proof.Machine.execPdelayTimeout port dom1 s
  | .masterLost dom1 => Sys2Proof.Machine.execMasterLost dom1 s
  | .ptpHoldoverEntry => Sys2Proof.Machine.execPtpHoldoverEntry s
  | .holdoverGraceExpiry => Sys2Proof.Machine.execHoldoverGraceExpiry s
  | .castle => Sys2Proof.Machine.execCastle s
  | .decideSlew => Sys2Proof.Machine.execDecideSlew s
  | .decideStep => Sys2Proof.Machine.execDecideStep s
  | .decideStay => Sys2Proof.Machine.execDecideStay s
  | .clearTimeSet => Sys2Proof.Machine.execClearTimeSet s
  | .txtsFifoRead port => Sys2Proof.Machine.execTxtsFifoRead port s
  | .txtsPeekRead port => Sys2Proof.Machine.execTxtsPeekRead port s
  | .ethFrameRx port frame => Sys2Proof.Machine.execEthFrameRx port frame s
  | .accessFrameExecute envs => Sys2Proof.Machine.execAccessFrameExecute envs s
  | .accessResponseTx => Sys2Proof.Machine.execAccessResponseTx s
  | .egressSelect egress ecc => Sys2Proof.Machine.execEgressSelect egress ecc s
  | .txComplete egress => Sys2Proof.Machine.execTxComplete egress s
  | .promotion egress cls => Sys2Proof.Machine.execPromotion egress cls s
  | .kingHeldExpiry port => Sys2Proof.Machine.execKingHeldExpiry port s
  | .linkUp port info => Sys2Proof.Machine.execLinkUp port info s
  | .signalLoss port => Sys2Proof.Machine.execSignalLoss port s
  | .linkDown port => Sys2Proof.Machine.execLinkDown port s
  | .resign port => Sys2Proof.Machine.execResign port s
  | .reinstate port => Sys2Proof.Machine.execReinstate port s
  | .retryVerify port => Sys2Proof.Machine.execRetryVerify port s
  | .linkRestart port => Sys2Proof.Machine.execLinkRestart port s
  | .linkRestartIdleEnd port => Sys2Proof.Machine.execLinkRestartIdleEnd port s
  | .verifyTimerExpiry port => Sys2Proof.Machine.execVerifyTimerExpiry port s
  | .resignWindowEnd port => Sys2Proof.Machine.execResignWindowEnd port s
  | .cleanIntervalEnd port => Sys2Proof.Machine.execCleanIntervalEnd port s
  | .dupEntryExpiry pair => Sys2Proof.Machine.execDupEntryExpiry pair s
  | .supervisionTx pair => Sys2Proof.Machine.execSupervisionTx pair s
  | .serCharRx ch line => Sys2Proof.Machine.execSerCharRx ch line s
  | .serLineIdle ch => Sys2Proof.Machine.execSerLineIdle ch s
  | .abrIdleExpiry ch => Sys2Proof.Machine.execAbrIdleExpiry ch s
  | .serBlindEnter ch => Sys2Proof.Machine.execSerBlindEnter ch s
  | .serBlindExit ch => Sys2Proof.Machine.execSerBlindExit ch s
  | .seHandover => Sys2Proof.Machine.execSeHandover s
  | .serTxSelect ch ecc => Sys2Proof.Machine.execSerTxSelect ch ecc s
  | .serTxComplete ch => Sys2Proof.Machine.execSerTxComplete ch s
  | .serDeRelease ch => Sys2Proof.Machine.execSerDeRelease ch s
  | .serCollision ch => Sys2Proof.Machine.execSerCollision ch s
  | .serBackoffEnd ch => Sys2Proof.Machine.execSerBackoffEnd ch s
  | .serSlotBoundary ch => Sys2Proof.Machine.execSerSlotBoundary ch s
  | .abrRestart ch => Sys2Proof.Machine.execAbrRestart ch s
  | .rxRestart ch => Sys2Proof.Machine.execRxRestart ch s
  | .sampleAvailable groupB => Sys2Proof.Machine.execSampleAvailable groupB s
  | .muFrameHandover stream1 => Sys2Proof.Machine.execMuFrameHandover stream1 s
  | .mailboxRead groupB words => Sys2Proof.Machine.execMailboxRead groupB words s
  | .cnvRefFault => Sys2Proof.Machine.execCnvRefFault s
  | .refFaultClear => Sys2Proof.Machine.execRefFaultClear s
  | .alnWindowEnd sub => Sys2Proof.Machine.execAlnWindowEnd sub s
  | .alnRowDue => Sys2Proof.Machine.execAlnRowDue s
  | .rteEditWord0 idx val frame => Sys2Proof.Machine.execRteEditWord0 idx val frame s
  | .rteEditWordMid idx k val frame => Sys2Proof.Machine.execRteEditWordMid idx k val frame s
  | .rteEditWord5 idx val frame => Sys2Proof.Machine.execRteEditWord5 idx val frame s
  | .arbApply => Sys2Proof.Machine.execArbApply s
  | .gooseRetransmit block => Sys2Proof.Machine.execGooseRetransmit block s
  | .gooseTalExpiry block => Sys2Proof.Machine.execGooseTalExpiry block s
  | .arbOutCmd val frame => Sys2Proof.Machine.execArbOutCmd val frame s
  | .arbVarWrite v val frame => Sys2Proof.Machine.execArbVarWrite v val frame s
  | .xbTransactionStart => Sys2Proof.Machine.execXbTransactionStart s
  | .xbTransactionEnd data => Sys2Proof.Machine.execXbTransactionEnd data s
  | .xbCardErr beats => Sys2Proof.Machine.execXbCardErr beats s
  | .xbBeatTimeout beats => Sys2Proof.Machine.execXbBeatTimeout beats s
  | .xbCardRemoved beats => Sys2Proof.Machine.execXbCardRemoved beats s
  | .xbScanComplete => Sys2Proof.Machine.execXbScanComplete s
  | .xbIntAssert slot ageNs => Sys2Proof.Machine.execXbIntAssert slot ageNs s
  | .xbPoll slot => Sys2Proof.Machine.execXbPoll slot s
  | .xbPresenceDebounced slot low => Sys2Proof.Machine.execXbPresenceDebounced slot low s
  | .xbEnumerateStart => Sys2Proof.Machine.execXbEnumerateStart s
  | .enumerate slot => Sys2Proof.Machine.execEnumerate slot s
  | .invalidatePrefetch => Sys2Proof.Machine.execInvalidatePrefetch s
  | .xbWerrFifoRead => Sys2Proof.Machine.execXbWerrFifoRead s
  | .xbWerrPeekRead => Sys2Proof.Machine.execXbWerrPeekRead s
  | .sweeperVisit found => Sys2Proof.Machine.execSweeperVisit found s
  | .mainPowerGood => Sys2Proof.Machine.execMainPowerGood s
  | .porRelease straps => Sys2Proof.Machine.execPorRelease straps s
  | .pllLock => Sys2Proof.Machine.execPllLock s
  | .ready ue => Sys2Proof.Machine.execReady ue s
  | .mainPowerLoss => Sys2Proof.Machine.execMainPowerLoss s
  | .resetN => Sys2Proof.Machine.execResetN s
  | .pllLoss => Sys2Proof.Machine.execPllLoss s
  | .pwrEnter val => Sys2Proof.Machine.execPwrEnter val s
  | .holdReached => Sys2Proof.Machine.execHoldReached s
  | .adjournReached => Sys2Proof.Machine.execAdjournReached s
  | .sealReached => Sys2Proof.Machine.execSealReached s
  | .wakeNAssert => Sys2Proof.Machine.execWakeNAssert s
  | .exitComplete xbInt => Sys2Proof.Machine.execExitComplete xbInt s
  | .pwrFail => Sys2Proof.Machine.execPwrFail s
  | .endgameComplete => Sys2Proof.Machine.execEndgameComplete s
  | .restExit => Sys2Proof.Machine.execRestExit s
  | .thermalSample tj => Sys2Proof.Machine.execThermalSample tj s
  | .thermalRelease => Sys2Proof.Machine.execThermalRelease s
  | .program => Sys2Proof.Machine.execProgram s
  | .lock => Sys2Proof.Machine.execLock s
  | .revoke slot1 => Sys2Proof.Machine.execRevoke slot1 s
  | .rollbackAdvance => Sys2Proof.Machine.execRollbackAdvance s
  | .enforce => Sys2Proof.Machine.execEnforce s
  | .testDisable => Sys2Proof.Machine.execTestDisable s
  | .testUnlock => Sys2Proof.Machine.execTestUnlock s
  | .secCommandComplete out => Sys2Proof.Machine.execSecCommandComplete out s
  | .otpScarBurn => Sys2Proof.Machine.execOtpScarBurn s
  | .extest pins shift => Sys2Proof.Machine.execExtest pins shift s
  | .samplePreload pins shift => Sys2Proof.Machine.execSamplePreload pins shift s
  | .idcode => Sys2Proof.Machine.execIdcode s
  | .clamp => Sys2Proof.Machine.execClamp s
  | .highz => Sys2Proof.Machine.execHighz s
  | .extestPulse pins shift => Sys2Proof.Machine.execExtestPulse pins shift s
  | .extestTrain pins shift => Sys2Proof.Machine.execExtestTrain pins shift s
  | .bypass shift => Sys2Proof.Machine.execBypass shift s
  | .jtagTestLogicReset => Sys2Proof.Machine.execJtagTestLogicReset s
  | .evtLogWrite => Sys2Proof.Machine.execEvtLogWrite s
  | .resetNRelease straps => Sys2Proof.Machine.execResetNRelease straps s
  | .vbakLow => Sys2Proof.Machine.execVbakLow s
  | .secondsCarry => Sys2Proof.Machine.execSecondsCarry s
  | .ptpAnnounceTx port dom1 => Sys2Proof.Machine.execPtpAnnounceTx port dom1 s
  | .serGlitch ch => Sys2Proof.Machine.execSerGlitch ch s
  | .gpioWake pin => Sys2Proof.Machine.execGpioWake pin s
  | .serialWake ch => Sys2Proof.Machine.execSerialWake ch s
  | .linkWake port => Sys2Proof.Machine.execLinkWake port s
  | .cardWake slot => Sys2Proof.Machine.execCardWake slot s

end Sys2Proof.Machine
end

