-- ==== Sys2Proof/WellFormed.lean ====
section
/-!
DEFINITION. Which commands are well formed: an index or a list that a command brings from outside lies in
the range the specification gives it. No meaning rests on it: every meaning is total. The checks say which
commands a test bench may send.
-/

namespace Sys2Proof

/-- A register of the map stands at a word address (R52). -/
def aligned (a : BitVec 24) : Bool := a.toNat % 4 == 0

/-- An egress code of R587: P0 to P7, HP, AB, AL, and the serial channels. -/
def egressOk (e : Nat) : Bool :=
  decide (e ≤ 8) || e == 11 || e == 12 || (decide (64 ≤ e) && decide (e < 88))

/-- Transitions of a line, each later than the one before it. -/
def rising : List Nat → Bool
  | [] => true
  | [_] => true
  | a :: b :: l => decide (a < b) && rising (b :: l)

/-- A command of the boundary register gives a level for each of its 328 cells at most (R917). -/
def pinsOk (l : List Bool) : Bool := decide (l.length ≤ 328)

/-- The check, command by command. -/
def Instr.wf : Instr → Bool
  | .write _ ws envs _ => decide (envs.length ≤ ws.length)
  | .read _ words envs _ => decide (envs.length ≤ words)
  | .atomic _ _ olds _ _ => decide (olds ≤ 2)
  | .softReset ws _ => decide (ws.length ≤ 1)
  | .enterState ws _ => decide (ws.length ≤ 1)
  | .stalemateExpiry slot => decide (slot < 4)
  | .registerWrite addr _ _ => aligned addr
  | .rcCounterRead addr => aligned addr
  | .cmpArm _ _ env => env.adc.length == 8
  | .cmpDisarm _ _ env => env.adc.length == 8
  | .cmpFire env => env.adc.length == 8
  | .egressSelect egress _ => egressOk egress
  | .promotion egress _ => egressOk egress
  | .ethFrameRx p f => !(f.verifyPkt && f.respondPkt) && (p.val != 8 || !(f.verifyPkt || f.respondPkt || f.fragment))
  | .serCharRx _ l => rising l.edges
  | .rteEditWord0 idx _ _ => decide (idx < 4096)
  | .rteEditWordMid idx _ _ _ => decide (idx < 4096)
  | .rteEditWord5 idx _ _ => decide (idx < 4096)
  | .xbTransactionEnd data => decide (data.length ≤ 32)
  | .xbCardErr beats => decide (beats ≤ 16)
  | .xbBeatTimeout beats => decide (beats ≤ 16)
  | .xbCardRemoved beats => decide (beats ≤ 16)
  | .extest pins shift => pinsOk pins && pinsOk shift
  | .samplePreload pins shift => pinsOk pins && pinsOk shift
  | .extestPulse pins shift => pinsOk pins && pinsOk shift
  | .extestTrain pins shift => pinsOk pins && pinsOk shift
  | _ => true

end Sys2Proof
end

