-- ==== Sys2Proof/Safety.lean ====
section
/-!
DEFINITION. The terms of the claims: the invariant of the machine, a LOCKED OTP unit, and which parts of the state a
command leaves as they were.
-/

namespace Sys2Proof.Safety

open Sys2Proof.Machine

/-- How many units of each kind the state holds, in the order of `shape`. -/
def sizes (s : State) : List Nat :=
  [s.eth.length, s.pairs.length, s.ser.length, s.tmb.cmps.length, s.tmb.caps.length, s.tmb.ppso.length,
    s.ptp.ports.length, s.mgt.pick.length, s.xb.slots.length, s.gpio.length, s.sec.otp.length, s.mem.spares.length,
    s.aln.subs.length, s.arb.pubs.length, s.arb.subs.length]

/-- The units of the FNX-824: 9 ports with HP, 4 pairs, 24 serial channels, 16 comparators, 8 captures, 4 pulse
outputs, 8 PTP ports, 4 pickup slots, 8 card slots, 16 GPIO balls, 224 OTP units, 37 memory banks, 16 alignment
subscriptions, 32 GOOSE publishers and 128 GOOSE subscribers. -/
def shape : List Nat := [9, 4, 24, 16, 8, 4, 8, 4, 8, 16, 224, 37, 16, 32, 128]

/-- A port has its 16 counters (Table 6-3), its 8 run counts (R333) and its 6 class queues (R558). -/
def PortOk (k : EthPort) : Prop := k.cnt.length = 16 ∧ k.runs.length = 8 ∧ k.queues.length = 6

/-- A serial channel has its 19 counters (Table 7-11) and its 6 class queues (R406). -/
def ChanOk (k : SerChan) : Prop := k.cnt.length = 19 ∧ k.queues.length = 6

/-- The nanoseconds are below one second (R174), the part of a slew below 2^-32 ns is below it, the addend lies within
its clamp (R175), and a slew runs at no more than 500 ppm (R187). -/
def TimeFits (ns : BitVec 30) (sub : Nat) (addend : BitVec 64) (slew : Option Slew) : Prop :=
  ns.toNat < 1000000000 ∧ sub < slewUnit ∧ addendMin ≤ addend ∧ addend ≤ addendMax ∧ ∀ w, slew = some w → w.ppm ≤ 500

/-- What holds in every state that a run reaches: every unit of the device is there with its counters and queues, the
shared region is in canonical form (R757), the event queue holds at most 64 entries (R891), at most two access frames
are held (R354), the posted-write error log holds at most 8 entries (R695), at most 16 rows are marked for the sweeper
(R759), and the time base lies within its limits. -/
def Inv (s : State) : Prop :=
  sizes s = shape ∧ Memory.wf s.mem.shared = true ∧ s.evt.queue.length ≤ 64 ∧ s.hp.held.length ≤ 2 ∧
    s.xb.werr.length ≤ 8 ∧ s.mem.marks.length ≤ 16 ∧ (∀ k ∈ s.eth, PortOk k) ∧ (∀ k ∈ s.ser, ChanOk k) ∧
    TimeFits s.tmb.ns s.tmb.sub s.tmb.addend s.tmb.slew

/-- OTP unit `u` is LOCKED, and the running OTP command, if any, works on another one. -/
def Sealed (u : Nat) (s : State) : Prop :=
  (nth .blank s.sec.otp u).st = .locked ∧ ∀ r, s.sec.run = some r → r.unitAddr ≠ u

/-- OTP unit `u` counts from COMMITTED on (R845), and the running OTP command, if any, is a LOCK or works on another
unit. -/
def Counted (u : Nat) (s : State) : Prop :=
  otpEffective u s = true ∧ ∀ r, s.sec.run = some r → r.cmd = .lock ∨ r.unitAddr ≠ u

/-- The running OTP command, if any, is a LOCK or works on a unit that does not count yet (R851, R853). -/
def RunFits (s : State) : Prop :=
  ∀ r, s.sec.run = some r → r.cmd = .lock ∨ otpEffective r.unitAddr s = false

/-- The parts of the state. -/
inductive Part where
  | pending | free | glb | mgt | pos | tmb | ptp | eth | pairs | hp | ser | cnv | aln | rte | cls | arb | gpio | xb
  | mem | pwr | therm | sec | evt | jtag
  deriving DecidableEq, Repr

/-- Two states agree on a part. -/
def Agree (s t : State) : Part → Prop
  | .pending => t.pending = s.pending
  | .free => t.free = s.free
  | .glb => t.glb = s.glb
  | .mgt => t.mgt = s.mgt
  | .pos => t.pos = s.pos
  | .tmb => t.tmb = s.tmb
  | .ptp => t.ptp = s.ptp
  | .eth => t.eth = s.eth
  | .pairs => t.pairs = s.pairs
  | .hp => t.hp = s.hp
  | .ser => t.ser = s.ser
  | .cnv => t.cnv = s.cnv
  | .aln => t.aln = s.aln
  | .rte => t.rte = s.rte
  | .cls => t.cls = s.cls
  | .arb => t.arb = s.arb
  | .gpio => t.gpio = s.gpio
  | .xb => t.xb = s.xb
  | .mem => t.mem = s.mem
  | .pwr => t.pwr = s.pwr
  | .therm => t.therm = s.therm
  | .sec => t.sec = s.sec
  | .evt => t.evt = s.evt
  | .jtag => t.jtag = s.jtag

/-- The frame of a command: every part but the listed ones is as it was. -/
def Frame (but : List Part) (s t : State) : Prop := ∀ p : Part, but.contains p = false → Agree s t p

/-- Every byte of the shared region outside `n` bytes from `a` on reads as before. -/
def SharedBut (a n : Nat) (s t : State) : Prop :=
  ∀ b, (b < a ∨ a + n ≤ b) → Memory.get t.mem.shared b = Memory.get s.mem.shared b

/-- The whole shared region reads as before. -/
def SharedSame (s t : State) : Prop := ∀ b, Memory.get t.mem.shared b = Memory.get s.mem.shared b

/-- The management domain is out of reset, MGT_CS_N is high, and no posted entry is open (R54, R680, R786). -/
def PortIdle (s : State) : Prop := mgtAlive s = true ∧ s.mgt.openTx = none ∧ s.xb.gather = none

/-- No port-A access falls into the same cycle, and no ECC finding is met. -/
def QuietEnvs (es : List BankEnv) : Prop := ∀ e, e ∈ es → e.sameCycle = false ∧ e.ecc = .ok

/-- Event `e` of unit `u` has been raised between the two states: its pending bit is set, and its entry with the
datum is the last one of the queue, unless it is logged at its first occurrence only and the bit was set (R881,
R882). -/
def Reported (e : Ev) (u : Nat) (datum : Word) (s t : State) : Prop :=
  (e.pendAt ≠ .none → pendSet e.pendAt u t = true) ∧
    ((e.firstOnly && pendSet e.pendAt u s) = false →
      ∃ x, t.evt.queue.getLast? = some x ∧ x.code = e.code ∧ x.datum = datum ∧
        x.secs = s.tmb.secs.setWidth 32 ∧ x.ns = s.tmb.ns)

/-- Device time as one number, in parts of 10^-6 × 2^-32 ns. -/
def deviceTime (s : State) : Nat := s.tmb.secs.toNat * secUnits + timeUnits s.tmb

/-- What a slew adds to device time in one addition, in the same parts. -/
def slewShare (k : Nat) (s : State) : Int :=
  match s.tmb.slew with
  | none => 0
  | some w => if w.neg then -(min w.remain (k * s.tmb.addend.toNat * w.ppm) : Nat)
    else (min w.remain (k * s.tmb.addend.toNat * w.ppm) : Nat)

/-- A message of kind `kind` with bytes `bytes` is on the board, and its copy is the last of class `c` on port `p`. -/
def Sent (kind : MsgKind) (p c : Nat) (bytes : List Byte) (t : State) : Prop :=
  ∃ m ∈ t.cls.msgs, m.kind = kind ∧ m.bytes = bytes ∧ ∃ q, (queueOf p c t).getLast? = some q ∧ q.msg = m.id

/-- Port `p` forwards, and class `c` has room for `n` bytes (R565). -/
def Roomy (p c n : Nat) (s : State) : Prop :=
  forwarding p s = true ∧ (allot c n s).isSome = true

/-- Class `c` on port `e` is the highest that waits, and its head is `q`, message `m`, before `rest` (R558). -/
def Head (e c : Nat) (q : QEntry) (m : Msg) (rest : List QEntry) (s : State) : Prop :=
  e ≤ 8 ∧ c < 6 ∧ (∀ d, c < d → d < 6 → queueOf e d s = []) ∧ queueOf e c s = q :: rest ∧ msgById q.msg s = some m

/-- Channel `c` is `k`, and every other channel is as it was. -/
def ChannelIs (c : Nat) (k : SerChan) (s t : State) : Prop :=
  serAt c t = k ∧ ∀ d, d ≠ c → serAt d t = serAt d s

/-- Nothing but the requests of the queue waits for the bridge: no fallback or card write, no scan. -/
def BridgeCalm (s : State) : Prop :=
  s.xb.fallbackWait = [] ∧ s.arb.cardWait = [] ∧ s.xb.scan = none

end Sys2Proof.Safety
end

