-- ==== Sys2Proof/Certificates/Slice0/Obligations.lean ====
section
/-!
DEFINITION. The statements for the provers, in the order of the specification's chapters.
-/

open Sys2Proof Sys2Proof.Machine Sys2Proof.Safety

/-! ### The machine as a whole -/

/-- Every command and every state: with `c` at the front of the queue, a step is `exec c` on the state with the rest
of the queue. -/
def Obligations.StepTakesFront : Prop :=
  ∀ (s : State) (c : Instr) (q : List Instr), s.pending = c :: q → step s = exec c (s.withPending q)

/-- The model's choice of log entry 1: with an empty queue one clock edge passes. While the time base runs and the
device is not in SEAL, TMB_LOCAL advances by one (R177); everything but the time base is as it was. -/
def Obligations.IdleStepIsOneTick : Prop :=
  ∀ s : State, s.pending = [] →
    ∃ t, step s = .next t ∧ Frame [.tmb] s t ∧
      (timeRuns s = false → t = s) ∧
      (timeRuns s = true → inSeal s = false → t.tmb.localCnt = s.tmb.localCnt + 1)

/-- The model's choice of log entry 2: no command stops the machine, and no command touches the queue or takes back
a free value. -/
def Obligations.NoCommandStops : Prop :=
  ∀ (c : Instr) (s : State), ∃ t, exec c s = .next t ∧ t.pending = s.pending ∧ s.free ≤ t.free

/-- The invariant holds at reset. -/
def Obligations.InvAtReset : Prop := Inv State.reset

/-- The invariant is kept by every step, of every command and of the clock, from every state that meets it. -/
def Obligations.StepKeepsInv : Prop := ∀ s t : State, Inv s → step s = .next t → Inv t

/-- A LOCKED unit (Table 15-3) keeps its state and its bits whatever step follows, and stays LOCKED; no running
command works on it. -/
def Obligations.LockedUnitsNeverChange : Prop :=
  ∀ (u : Nat) (s t : State), Sealed u s → step s = .next t →
    Sealed u t ∧ nth .blank t.sec.otp u = nth .blank s.sec.otp u

/-- R851, R853: where the running OTP command fits its unit, it does so after every step. -/
def Obligations.RunningCommandFits : Prop := ∀ s t : State, RunFits s → step s = .next t → RunFits t

/-- R845, R848: the anti-rollback count never falls, whatever command or reset follows, and a counter bit or a flag
that has taken effect keeps it. -/
def Obligations.RollbackNeverFalls : Prop :=
  ∀ s t : State, RunFits s → step s = .next t →
    rollbackCount s ≤ rollbackCount t ∧ ∀ u, otpEffective u s = true → otpEffective u t = true

/-! ### Management port (spec/02) -/

/-- R69, R744, Table 2-2: a WRITE of words with good CRC bytes into the shared region below the system area stores
each word with its low byte at the lowest address, whether MGT_CS_N then rises or stays low, and nothing else in
memory or outside the management port changes. WORDS counts the words, up to 255. -/
def Obligations.WriteStoresSharedWords : Prop :=
  ∀ (s : State) (addr : BitVec 24) (o : Nat) (ws : List SpiWord) (envs : List BankEnv) (hang : Bool),
    PortIdle s → coreAnswers s = true → Memory.wf s.mem.shared = true → QuietEnvs envs →
    (hostWords s.mgt.crcEn ws (crcHead 0x02 addr)).2 = false →
    wordAddr addr = 0x100000 + o → o + 4 * ws.length ≤ 0x1B000 →
    ∃ t, exec (.write addr ws envs hang) s = .next t ∧ Frame [.mgt, .mem] s t ∧
      Memory.getAll t.mem.shared o (4 * ws.length) = ws.flatMap (fun w => toLE 4 w.val.toNat) ∧
      SharedBut o (4 * ws.length) s t ∧ t.mem = { s.mem with shared := t.mem.shared } ∧
      (hang = false → t.mgt.openTx = none ∧ t.mgt.last =
        { TxOutcome.zero with opcode := 0x02, words := BitVec.ofNat 8 (min ws.length 255) })

/-- R61, R71: the words of a WRITE before a wrong CRC byte are written, none after it is, and CRC_ERR is set. -/
def Obligations.WriteStopsAtBadCrc : Prop :=
  ∀ (s : State) (addr : BitVec 24) (o : Nat) (good rest : List SpiWord) (bad : SpiWord) (hang : Bool),
    PortIdle s → coreAnswers s = true → Memory.wf s.mem.shared = true → s.mgt.crcEn = true →
    (hostWords true good (crcHead 0x02 addr)).2 = false →
    bad.crc ≠ crcWord (good.foldl (fun r w => crcWord r w.val) (crcHead 0x02 addr)) bad.val →
    wordAddr addr = 0x100000 + o → o + 4 * good.length ≤ 0x1B000 →
    ∃ t, exec (.write addr (good ++ bad :: rest) [] hang) s = .next t ∧ Frame [.mgt, .mem] s t ∧
      Memory.getAll t.mem.shared o (4 * good.length) = good.flatMap (fun w => toLE 4 w.val.toNat) ∧
      SharedBut o (4 * good.length) s t ∧ (hang = false → t.mgt.last.crcErr = true)

/-- R52, R69, R744: a READ of words of the shared region returns, after the turnaround, each word with its high byte
first, and changes nothing but the management port. -/
def Obligations.ReadReturnsSharedWords : Prop :=
  ∀ (s : State) (addr : BitVec 24) (o n : Nat) (envs : List BankEnv) (hang : Bool),
    PortIdle s → coreAnswers s = true → QuietEnvs envs → wordAddr addr = 0x100000 + o →
    o < 0x20000 → o + 4 * n ≤ 0x20000 →
    ∃ t, exec (.read addr n envs hang) s = .next t ∧ Frame [.mgt] s t ∧
      (s.mgt.crcEn = false → t.mgt.miso.drop 6 =
        (List.range n).flatMap (fun k => (Memory.getAll s.mem.shared (o + 4 * k) 4).reverse)) ∧
      (hang = false → t.mgt.openTx = none ∧ t.mgt.last =
        { TxOutcome.zero with opcode := 0x03, words := BitVec.ofNat 8 (min n 255) })

/-- R451: the words of a burst from CNV_GRPg_HDR on are those of the one sample that the mailbox holds. -/
def Obligations.MailboxReadIsOneSample : Prop :=
  ∀ (s : State) (g : Bool) (n : Nat), PortIdle s → coreAnswers s = true → n ≤ 8 →
    ∃ t, exec (.mailboxRead g n) s = .next t ∧ Frame [.mgt] s t ∧
      (s.mgt.crcEn = false → t.mgt.miso.drop 6 = (List.range n).flatMap (fun k =>
        toBE 4 (regNat (boxWord (if g then s.cnv.groupB.box else s.cnv.groupA.box) k)).toNat)) ∧
      t.mgt.last = { TxOutcome.zero with opcode := 0x03, words := BitVec.ofNat 8 n }

/-- R56 to R58: STATUS returns the status byte and the outcome of the last transaction and leaves that outcome as it
is (before READY the word is zero, log entry 30); an opcode that Table 2-2 does not list does nothing but set
CMD_REJECT. -/
def Obligations.StatusAndUnknownOpcode : Prop :=
  ∀ (s : State) (hang : Bool), PortIdle s →
    (∃ t, exec (.status hang) s = .next t ∧ Frame [.mgt] s t ∧ t.mgt.status = s.mgt.status ∧
      (s.mgt.crcEn = false → t.mgt.miso =
        statusByte s :: toBE 4 (regNat (if readyBit s then outcomeWord s.mgt.last else 0)).toNat) ∧
      (hang = false → t.mgt.last = s.mgt.last)) ∧
    ∀ op : Byte, opcodes.contains op = false →
      ∃ t, exec (.unknownOpcode op hang) s = .next t ∧ Frame [.mgt] s t ∧ t.mgt.miso = [statusByte s] ∧
        (hang = false → t.mgt.last = { TxOutcome.zero with opcode := op, cmdReject := true })

/-- R81 to R83: READ_PICKUP returns the header and the sixteen data words of the slot; the first pickup of a
completed read makes the slot STALE with its data kept, and every other slot is as it was. R84, R693: a completed
read that nobody collected before its deadline becomes EXPIRED and loses its data, XB_ORPHAN_CNT counts it, and
EVT_XB_ORPHAN is raised with the slot. -/
def Obligations.PickupAndStalemate : Prop :=
  (∀ (s : State) (addr : BitVec 24) (words : Nat) (hang : Bool) (i : Nat),
     PortIdle s → wordAddr addr / 4 = i → i < 4 → Inv s → 0 < words →
     ∃ t, exec (.readPickup addr words hang) s = .next t ∧ Frame [.mgt] s t ∧
       nth .empty t.mgt.pick i = (if (nth .empty s.mgt.pick i).st = .done ∨ (nth .empty s.mgt.pick i).st = .error
         then { nth .empty s.mgt.pick i with st := .stale, deadline := none } else nth .empty s.mgt.pick i) ∧
       (∀ j, j ≠ i → nth .empty t.mgt.pick j = nth .empty s.mgt.pick j) ∧
       (s.mgt.crcEn = false → words ≤ 17 → t.mgt.miso.drop 6 =
         ((pickHeader (nth .empty s.mgt.pick i) :: pickData (nth .empty s.mgt.pick i)).take words).flatMap
           (fun w => toBE 4 w.toNat))) ∧
  (∀ (s : State) (i d : Nat), Inv s → i < 4 → (nth .empty s.mgt.pick i).st = .done →
     (nth .empty s.mgt.pick i).deadline = some d → d ≤ localNow s →
     ∃ t, exec (.stalemateExpiry i) s = .next t ∧ Frame [.mgt, .xb, .evt] s t ∧
       nth .empty t.mgt.pick i =
         { nth .empty s.mgt.pick i with st := .expired, data := [], deadline := none } ∧
       (∀ j, j ≠ i → nth .empty t.mgt.pick j = nth .empty s.mgt.pick j) ∧
       t.xb.orphanCnt = satInc s.xb.orphanCnt ∧ Reported .xbOrphan 0 (BitVec.ofNat 32 i) s t)

/-- R91, R92, Table 13-4: an ATOMIC at an aligned address of the shared region below the system area returns the old
value and stores the new one: the sum, modulo the width, of FETCH_ADD, or the operand of SWAP. -/
def Obligations.AtomicFetchesAndStores : Prop :=
  ∀ (s : State) (addr : BitVec 24) (o : Nat) (c : SpiWord) (ops : List SpiWord) (olds x : Nat) (hang : Bool),
    PortIdle s → coreAnswers s = true → Memory.wf s.mem.shared = true →
    (hostWords s.mgt.crcEn (c :: ops) (crcHead 0x60 addr)).2 = false → c.val.toNat < 4 →
    atomicOperand c.val.toNat (ops.map (·.val)) = some x →
    wordAddr addr = 0x100000 + o → o % atomicWidth c.val.toNat = 0 → o + 8 ≤ 0x1B000 →
    ∃ t, exec (.atomic addr (c :: ops) olds plainEnv hang) s = .next t ∧ Frame [.mgt, .mem] s t ∧
      Memory.getAll t.mem.shared o (atomicWidth c.val.toNat) = toLE (atomicWidth c.val.toNat)
        (if c.val.toNat < 2 then
          (ofLE (Memory.getAll s.mem.shared o (atomicWidth c.val.toNat)) + x) % 256 ^ atomicWidth c.val.toNat
         else x) ∧
      SharedBut o (atomicWidth c.val.toNat) s t ∧
      (s.mgt.crcEn = false → 2 ≤ olds → t.mgt.miso.drop (6 + 4 * (ops.length + 1)) =
        (oldWords c.val.toNat (ofLE (Memory.getAll s.mem.shared o (atomicWidth c.val.toNat)))).flatMap
          (fun w => toBE 4 w.toNat))

/-- R102 to R104: after MGT_WDOG_TIMEOUT µs without an edge the watchdog abandons the open transaction: its outcome
shows WDOG_ABORT, GLB_MGT_INT.WDOG_ABORT is set, and EVT_MGT_WDOG is raised with the opcode. -/
def Obligations.WatchdogAbandons : Prop :=
  ∀ (s : State) (x : OpenTx), s.mgt.openTx = some x → s.mgt.wdogEn = true → coreUp s = true → s.xb.gather = none →
    x.lastEdge + (max 1 s.mgt.wdogTimeout.toNat) * 250 ≤ localNow s →
    ∃ t, exec .mgtWatchdogExpiry s = .next t ∧ Frame [.mgt, .glb, .evt] s t ∧
      t.mgt = { s.mgt with
        openTx := none,
        last := if x.out.opcode = 0x05 then s.mgt.last else { x.out with wdogAbort := true } } ∧
      Reported .mgtWdog 0 (BitVec.ofNat 32 x.out.opcode.toNat) s t

/-! ### Registers and their FIFOs (spec/02, 04, 05, 12, 16) -/

/-- R67, Tables 2-15 to 2-17 and 16-9: a write of a register takes the bits its table gives it: enables and masks
take the value, pending bits written with one are cleared and the others stay; all else is as it was. MGT_CTRL takes
its bits from SPI and none from an access frame. -/
def Obligations.RegisterWriteTakesBits : Prop :=
  ∀ (s : State) (v : Word) (frame : Bool),
    (coreAnswers s = true →
      exec (.registerWrite 0x058004 v frame) s = .next { s with evt := { s.evt with pendEn := v.setWidth 11 } } ∧
      exec (.registerWrite 0x058000 v frame) s =
        .next { s with evt := { s.evt with pend := s.evt.pend &&& ~~~v.setWidth 11 } } ∧
      exec (.registerWrite 0x000028 v frame) s = .next { s with glb := { s.glb with intaMask := v.setWidth 15 } } ∧
      exec (.registerWrite 0x00002C v frame) s = .next { s with glb := { s.glb with intbMask := v.setWidth 15 } }) ∧
    (mgtAlive s = true →
      exec (.registerWrite 0x001000 v false) s =
        .next { s with mgt := { s.mgt with wdogEn := v.getLsbD 1, crcEn := v.getLsbD 0 } }) ∧
    exec (.registerWrite 0x001000 v true) s = .next s

/-- R89, R332: a delivered read of an ETH counter clears it, and nothing else. -/
def Obligations.CounterReadClears : Prop :=
  ∀ (s : State) (p i : Nat), p < 9 → i < 16 → coreAnswers s = true → Inv s →
    ∃ t, exec (.rcCounterRead (BitVec.ofNat 24 (0x10100 + 0x800 * p + 4 * i))) s = .next t ∧ Frame [.eth] s t ∧
      (∀ q, q ≠ p → nth .reset t.eth q = nth .reset s.eth q) ∧
      nth 0 (nth .reset t.eth p).cnt i = 0 ∧
      (∀ j, j ≠ i → nth 0 (nth .reset t.eth p).cnt j = nth 0 (nth .reset s.eth p).cnt j) ∧
      nth .reset t.eth p = { nth .reset s.eth p with cnt := (nth .reset t.eth p).cnt }

/-- R87, R88, R216, R217, R250, R726: reading a FIFO register takes its oldest entry and loads the registers beside
it; the PEEK register loads the same and takes nothing; an empty FIFO of the captures or the time-stamps changes
nothing. -/
def Obligations.FifoAndPeekReads : Prop :=
  ∀ s : State, coreAnswers s = true → Inv s →
    (∀ n : Fin 8, (capAt n s).fifo = [] →
      exec (.capFifoRead n) s = .next s ∧ exec (.capPeekRead n) s = .next s) ∧
    (∀ (n : Fin 8) (e : CapEntry) (l : List CapEntry), (capAt n s).fifo = e :: l →
      (∃ t, exec (.capFifoRead n) s = .next t ∧ Frame [.tmb] s t ∧
        t.tmb = { s.tmb with caps := t.tmb.caps } ∧ (∀ j, j ≠ n.val → capAt j t = capAt j s) ∧
        capAt n t = { capAt n s with sec := e.secs, fifo := l }) ∧
      (∃ t, exec (.capPeekRead n) s = .next t ∧ Frame [.tmb] s t ∧
        t.tmb = { s.tmb with caps := t.tmb.caps } ∧ (∀ j, j ≠ n.val → capAt j t = capAt j s) ∧
        capAt n t = { capAt n s with sec := e.secs })) ∧
    (∀ p : Fin 8, (ptpPort p s).txts = [] →
      exec (.txtsFifoRead p) s = .next s ∧ exec (.txtsPeekRead p) s = .next s) ∧
    (∀ (p : Fin 8) (e : TxtsEntry) (l : List TxtsEntry), (ptpPort p s).txts = e :: l →
      (∃ t, exec (.txtsFifoRead p) s = .next t ∧ Frame [.ptp] s t ∧
        t.ptp = { s.ptp with ports := t.ptp.ports } ∧ (∀ j, j ≠ p.val → ptpPort j t = ptpPort j s) ∧
        ptpPort p t = { ptpPort p s with txtsSec := e.secs, txtsTag := e.tag, txts := l }) ∧
      (∃ t, exec (.txtsPeekRead p) s = .next t ∧ Frame [.ptp] s t ∧
        t.ptp = { s.ptp with ports := t.ptp.ports } ∧ (∀ j, j ≠ p.val → ptpPort j t = ptpPort j s) ∧
        ptpPort p t = { ptpPort p s with txtsSec := e.secs, txtsTag := e.tag })) ∧
    (∀ (e : XbWerr) (l : List XbWerr), s.xb.werr = e :: l →
      exec .xbWerrFifoRead s = .next { s with xb := { s.xb with werrAddr := e.addr, werr := l } } ∧
      exec .xbWerrPeekRead s = .next { s with xb := { s.xb with werrAddr := e.addr } })

/-! ### The time base (spec/04) -/

/-- R174, R177, R187, R225: one edge adds the addend, and the part of a slew, to device time, with carry into the
seconds, and one to TMB_LOCAL; in SEAL it adds ten times as much. SECONDS_CARRY is the addition that carries, and
SLEW_END the one in which what is left of the slew is applied whole (log entry 1). -/
def Obligations.TimeBaseAdds : Prop :=
  ∀ (s : State) (k : Nat), Inv s → timeRuns s = true → k = (if inSeal s then 10 else 1) →
    let after (t : State) : Prop :=
      Frame [.tmb] s t ∧ t.tmb.ns.toNat < 1000000000 ∧
        ((deviceTime t : Int) - deviceTime s - (k * s.tmb.addend.toNat * slewUnit : Nat) - slewShare k s) %
          (2 ^ 48 * secUnits : Nat) = 0 ∧
        t.tmb.localCnt = s.tmb.localCnt + BitVec.ofNat 64 k
    (s.pending = [] → ∃ t, step s = .next t ∧ after t) ∧
    ((tick s).tmb.secs ≠ s.tmb.secs →
      ∃ t, exec .secondsCarry s = .next t ∧ after t ∧ t.tmb.secs = s.tmb.secs + 1) ∧
    (∀ w, s.tmb.slew = some w → w.remain ≤ k * s.tmb.addend.toNat * w.ppm →
      ∃ t, exec .slewEnd s = .next t ∧ after t ∧ t.tmb.slew = none)

/-- R178: under an owner other than the host, SET, STEP, SLEW, SLEW_ABORT and RATE set CMD_ERR and change nothing
else. -/
def Obligations.TimeCommandsNeedHost : Prop :=
  ∀ (s : State), coreAnswers s = true → s.tmb.owner ≠ 0 → ∀ c ∈ [Instr.set, .step, .slew, .slewAbort, .rate],
    exec c s = .next { s with tmb := { s.tmb with cmdErr := true } }

/-- R179: SNAPSHOT latches time, fraction and TMB_LOCAL together under every owner; SET_SEC_AT_PPS waits for the
next pulse under PPS and sets CMD_ERR under another owner. Under the host, SLEW starts a slew of SLEW_NS in place of
one in progress, and SLEW_ABORT ends it. -/
def Obligations.SnapshotAndSlew : Prop :=
  ∀ (s : State), coreAnswers s = true →
    exec .snapshot s = .next { s with tmb := { s.tmb with
      snap := { secs := s.tmb.secs, ns := s.tmb.ns, frac := s.tmb.frac, localCnt := s.tmb.localCnt } } } ∧
    (s.tmb.owner = 0 → 1 ≤ s.tmb.slewRate.toNat → s.tmb.slewRate.toNat ≤ 500 → s.tmb.slewNs ≠ 0 →
      ∃ t, exec .slew s = .next t ∧ Frame [.tmb, .ptp] s t ∧ t.tmb = { s.tmb with
        slew := some { neg := s.tmb.slewNs.msb, ppm := s.tmb.slewRate.toNat,
                       remain := s.tmb.slewNs.toInt.natAbs * 4294967296 * slewUnit } }) ∧
    (s.tmb.owner = 0 → exec .slewAbort s = .next { s with tmb := { s.tmb with slew := none } }) ∧
    (s.tmb.owner = 2 → exec .setSecAtPps s =
      .next { s with tmb := { s.tmb with pps := { s.tmb.pps with secLoad := some s.tmb.setS } } }) ∧
    (s.tmb.owner ≠ 2 → exec .setSecAtPps s = .next { s with tmb := { s.tmb with cmdErr := true } })

/-- R175, R178, R184 to R186: in the cycle after the command, SET has loaded its seconds and nanoseconds with the
fraction clear, STEP has moved what device time would have been by its signed amount, modulo 2^48 seconds, and RATE
has loaded the addend within its clamp; TMB_LOCAL goes on by one. -/
def Obligations.SetStepAndRate : Prop :=
  ∀ (s : State), coreAnswers s = true → s.tmb.owner = 0 →
    let next := addTime 1 s.tmb
    (s.tmb.setNs.toNat < 1000000000 →
      ∃ t, exec .set s = .next t ∧ Frame [.tmb] s t ∧ t.tmb.secs = s.tmb.setS ∧ t.tmb.ns = s.tmb.setNs ∧
        t.tmb.frac = 0 ∧ t.tmb.localCnt = s.tmb.localCnt + 1 ∧ t.tmb.addend = s.tmb.addend) ∧
    (-999999999 ≤ s.tmb.stepNs.toInt → s.tmb.stepNs.toInt ≤ 999999999 → next.ns.toNat < 1000000000 →
      ∃ t, exec .step s = .next t ∧ Frame [.tmb] s t ∧ t.tmb.ns.toNat < 1000000000 ∧
        (((t.tmb.secs.toNat * 1000000000 + t.tmb.ns.toNat : Nat) : Int) -
          (next.secs.toNat * 1000000000 + next.ns.toNat : Nat) -
          (s.tmb.stepS.toInt * 1000000000 + s.tmb.stepNs.toInt)) % (2 ^ 48 * 1000000000) = 0 ∧
        t.tmb.frac = next.frac ∧ t.tmb.localCnt = s.tmb.localCnt + 1) ∧
    (∃ t, exec .rate s = .next t ∧ Frame [.tmb] s t ∧
      t.tmb.addend = (if s.tmb.rate < addendMin then addendMin
        else if addendMax < s.tmb.rate then addendMax else s.tmb.rate) ∧
      t.tmb.localCnt = s.tmb.localCnt + 1)

/-- R181, R182: a legal write of OWNER changes the owner and keeps device time, the addend and a slew in progress;
an illegal one sets CMD_ERR alone. -/
def Obligations.OwnerWriteKeepsTime : Prop :=
  ∀ (s : State) (o : BitVec 2), coreAnswers s = true →
    let legal := o = 0 ∨ (o = 1 ∧ s.pos.active = true ∧ timeRole s ≠ 0) ∨
      (o = 2 ∧ s.pos.active = true ∧ ppsInputDefined s = true)
    (legal → ∃ t, exec (.ownerWrite o) s = .next t ∧ Frame [.free, .tmb, .ptp] s t ∧ t.tmb.owner = o ∧
      t.tmb.secs = s.tmb.secs ∧ t.tmb.ns = s.tmb.ns ∧ t.tmb.frac = s.tmb.frac ∧ t.tmb.addend = s.tmb.addend ∧
      t.tmb.slew = s.tmb.slew ∧ t.tmb.localCnt = s.tmb.localCnt ∧ t.tmb.cmps = s.tmb.cmps) ∧
    (¬ legal → exec (.ownerWrite o) s = .next { s with tmb := { s.tmb with cmdErr := true } })

/-- R191, R192, R194, R196: the host arms a ONE_SHOT comparator ahead of device time: its live target is the staged
one, and it is armed with LATE, PAST and RESYNC clear; a disarm clears ARM. A write to a LOCKED one sets LOCK_WRITE
alone (R211). R190, R196, R202, R207: the one comparator that is due fires: its FIRED bit is set, a ONE_SHOT
comparator disarms, and a PPSO action starts a pulse that ends WIDTH_US after the target; PPSO_PULSE_END ends it. -/
def Obligations.ComparatorsArmAndFire : Prop :=
  (∀ (s : State) (n : Fin 16) (env : CmpEnv), coreAnswers s = true → Inv s → (cmpAt n s).armed = false →
     (∀ line : Nat, line < 9 → (cmpAt n s).locked = false → (cmpAt n s).targetNs.toNat < 1000000000 →
       0 < cmpDelta (cmpAt n s).targetS (cmpAt n s).targetNs s.tmb →
       ∃ t, exec (.cmpArm n (BitVec.ofNat 32 (16 * line)) env) s = .next t ∧ Frame [.tmb] s t ∧
         (∀ j, j ≠ n.val → cmpAt j t = cmpAt j s) ∧ t.tmb = { s.tmb with cmps := t.tmb.cmps } ∧
         cmpAt n t = { cmpAt n s with
           line := 0, action := BitVec.ofNat 4 line, mode := 0, wakeEn := false, armed := true, late := false,
           past := false, resync := false, fresh := false, lateDue := false, liveS := (cmpAt n s).targetS,
           liveNs := (cmpAt n s).targetNs }) ∧
     (∀ w : Word, (cmpAt n s).locked = false →
       ∃ t, exec (.cmpDisarm n w env) s = .next t ∧ Frame [.tmb] s t ∧
         (∀ j, j ≠ n.val → cmpAt j t = cmpAt j s) ∧ t.tmb = { s.tmb with cmps := t.tmb.cmps } ∧
         (cmpAt n t).armed = false ∧ (cmpAt n t).targetS = (cmpAt n s).targetS ∧
         (cmpAt n t).targetNs = (cmpAt n s).targetNs) ∧
     (∀ w : Word, (cmpAt n s).locked = true →
       exec (.cmpDisarm n w env) s = .next { s with tmb := { s.tmb with lockWrite := true } } ∧
       exec (.cmpArm n w env) s = .next { s with tmb := { s.tmb with lockWrite := true } })) ∧
  ((∀ (s : State) (n : Fin 16) (env : CmpEnv), Inv s → (∀ j : Fin 16, cmpDue s (cmpAt j s) = decide (j = n)) →
     (cmpAt n s).mode = 0 → (cmpAt n s).wakeEn = false → (cmpAt n s).late = false → (cmpAt n s).lateDue = false →
     let s1 : State := { s with tmb := { s.tmb with
       fired := setBit s.tmb.fired n, cmps := upd (fun c => { c with armed := false }) s.tmb.cmps n } }
     ((cmpAt n s).action = 0 → exec (.cmpFire env) s = .next s1) ∧
     (∀ m : Fin 4, (cmpAt n s).action.toNat = m.val + 1 → inSeal s = false → (nth .reset s.tmb.ppso m).qualify = false →
       let e := moveTarget (cmpAt n s).liveS (cmpAt n s).liveNs ((nth .reset s.tmb.ppso m).widthUs.toNat * 1000 : Nat)
       exec (.cmpFire env) s = .next { s1 with tmb := { s1.tmb with
         ppso := upd (fun k => { k with pulse := some (e.1, e.2.toNat) }) s.tmb.ppso m } })) ∧
   ∀ (s : State) (m : Fin 4) (a : Word) (b : Nat), (nth .reset s.tmb.ppso m).pulse = some (a, b) →
     timeRuns s = true → cmpDelta a (BitVec.ofNat 30 b) s.tmb ≤ 0 →
     exec (.ppsoPulseEnd m) s = .next { s with tmb := { s.tmb with
       ppso := upd (fun k => { k with pulse := none }) s.tmb.ppso m } })

/-- R215: a recorded edge becomes the youngest entry of its FIFO, with the device time of the edge; where the FIFO
is full, the oldest entry is dropped, OVF is set and EVT_TMB_CAP_OVF is raised. -/
def Obligations.CaptureRecordsEdge : Prop :=
  ∀ (s : State) (n : Fin 8) (rising : Bool) (age : Nat), Inv s → capturesRun s = true →
    (capAt n s).edge = 3 ∨ (capAt n s).edge = (if rising then 1 else 2) →
    ¬ (s.tmb.owner = 2 ∧ s.tmb.pps.input.toNat = n.val) →
    let e : CapEntry := { rising, ns := (stampAgo age s).ns, secs := (stampAgo age s).secs.setWidth 32 }
    ((capAt n s).fifo.length < 16 →
      exec (.captureEdge n rising age) s =
        .next { s with tmb := { s.tmb with caps := upd (fun k => { k with fifo := k.fifo ++ [e] }) s.tmb.caps n } }) ∧
    (16 ≤ (capAt n s).fifo.length →
      ∃ t, exec (.captureEdge n rising age) s = .next t ∧ Frame [.tmb, .evt] s t ∧
        t.tmb = { s.tmb with
          caps := upd (fun k => { k with fifo := k.fifo.drop 1 ++ [e], ovf := true }) s.tmb.caps n } ∧
        Reported .tmbCapOvf 0 (BitVec.ofNat 32 n.val) s t)

/-- R221: 3 s after the last accepted pulse a LOCKED loop enters HOLDOVER: the addend becomes the mean of
TMB_RATE_AVG and EVT_HOLDOVER is raised. -/
def Obligations.PpsHoldoverEntry : Prop :=
  ∀ s : State, timeRuns s = true → s.tmb.owner = 2 → s.tmb.pps.st = 2 → s.tmb.pps.lastAt + 750000000 ≤ localNow s →
    ∃ t, exec .ppsHoldover s = .next t ∧ Frame [.tmb, .evt] s t ∧ t.tmb.pps.st = 3 ∧ t.tmb.holdover = true ∧
      t.tmb.addend = (loadAddend (rateAvg s.tmb) s).tmb.addend ∧ t.tmb.secs = s.tmb.secs ∧ t.tmb.ns = s.tmb.ns ∧
      t.tmb.frac = s.tmb.frac ∧ Reported .holdover 0 2 s t

/-! ### Power, resets and the ladder (spec/14, 13) -/

/-- Table 14-2, R775, R787, R790, R791: a power-up goes from MAIN_POWER_GOOD, which samples the latch, over
POR_RELEASE, which samples MODE, to the PLL, whose lock sets PWR_RESET_CAUSE to the cause alone; REST_EXIT joins it
from REST, and the rising edge of RESET_N lets a core that RESET_N held go on. -/
def Obligations.PowerUpSteps : Prop :=
  ∀ (s : State) (m : Straps),
    (s.pwr.boot = .unpowered → ∃ t, exec .mainPowerGood s = .next t ∧ Frame [.mem, .pwr] s t ∧
      t.pwr.boot = .porWait ∧ t.pwr.mainGood = true ∧ t.pwr.vbakPowered = true ∧
      t.pwr.bootSrc = (if s.pwr.restEntered && s.pwr.vbakPowered then .restExit else .powerOn) ∧
      t.mem = { s.mem with latchSample := s.mem.retLatch }) ∧
    (s.pwr.boot = .rest → s.pwr.mainGood = true → ∃ t, exec .restExit s = .next t ∧ Frame [.mem, .pwr] s t ∧
      t.pwr.boot = .porWait ∧ t.pwr.bootSrc = .restExit ∧ t.mem = { s.mem with latchSample := s.mem.retLatch }) ∧
    (s.pwr.boot = .porWait → jtagHolds s.jtag.instr = false →
      ∃ t, exec (.porRelease m) s = .next t ∧ Frame [.pwr, .therm] s t ∧ t.pwr.boot = .pllWait ∧
        t.therm = { s.therm with straps := m }) ∧
    (s.pwr.boot = .inReset → s.pwr.resetLow = true → jtagHolds s.jtag.instr = false →
      ∃ t, exec (.resetNRelease m) s = .next t ∧ Frame [.pwr, .therm] s t ∧ t.pwr.boot = .pllWait ∧
        t.therm = { s.therm with straps := m }) ∧
    (s.pwr.boot = .pllWait → exec .pllLock s = .next { s with
      pwr := { s.pwr with boot := .init },
      therm := { s.therm with resetCause := BitVec.ofNat 5 (2 ^ s.pwr.bootSrc.bit) } })

/-- R775, R777, R778, R966: at READY after a power-on reset with the latch clear, the shared region is VOID: it is
zeroed, LATCH_CLEAR and VOID are reported, and EVT_MEM_RET_VOID is raised; after another reset the region and its
status are as they were. -/
def Obligations.ReadyChecksRegion : Prop :=
  ∀ (s : State) (ue : Bool), s.pwr.boot = .init → s.pwr.pwrFailLow = false → s.sec.abortedPending = false →
    (s.pwr.bootSrc = .powerOn → s.mem.latchSample = false →
      ∃ t, exec (.ready ue) s = .next t ∧ t.pwr.boot = .ready ∧ t.mem.shared = [] ∧
        t.mem.retStatus = .void ∧ t.mem.retLatchClear = true ∧ t.mem.retChecked = true ∧
        t.mem.retLatch = false ∧ t.evt.headIdx = 0 ∧ t.evt.headLap = 1 ∧
        Reported .memRetVoid 0 (retStatusWord t) s t) ∧
    (s.pwr.bootSrc = .softReset →
      ∃ t, exec (.ready ue) s = .next t ∧ Frame [.pwr, .therm, .evt, .pos] s t ∧ t.pwr.boot = .ready ∧
        t.mem.shared = s.mem.shared ∧ t.mem.retStatus = s.mem.retStatus)

/-- R94, R790, Table 14-3: a reset by RESET_N, SOFT_RESET or loss of PLL lock keeps the shared region, the retention
status, the spare mappings, the OTP units, the active Position and the fallback copy, puts every register of the
core at its reset value and restarts the core from the PLL; SOFT_RESET also resets the management domain but for the
outcome of its own transaction (log entry 31), which loss of lock leaves as it is. (Where the specification gives no
reset value the register takes the value of log entry 3.) -/
def Obligations.ResetsKeepMemory : Prop :=
  ∀ s : State, resettable s = true → s.sec.run = none →
    let reset (src : ResetSrc) (t : State) : Prop :=
      t.mem.shared = s.mem.shared ∧ t.mem.retStatus = s.mem.retStatus ∧ t.mem.spares = s.mem.spares ∧
      t.sec.otp = s.sec.otp ∧ t.pos.active = s.pos.active ∧ t.pos.fallback = s.pos.fallback ∧
      t.pos.running = false ∧ t.pwr.bootSrc = src ∧ t.pwr.ladder = .play ∧ t.tmb = State.reset.tmb ∧
      t.ptp = State.reset.ptp ∧ t.eth = State.reset.eth ∧ t.ser = State.reset.ser ∧ t.cnv = State.reset.cnv ∧
      t.aln = State.reset.aln ∧ t.rte = State.reset.rte ∧ t.cls = State.reset.cls ∧ t.arb = State.reset.arb ∧
      t.evt = State.reset.evt ∧ t.glb = State.reset.glb ∧ t.pending = s.pending
    (∃ t, exec .resetN s = .next t ∧ reset .resetN t ∧ t.mgt = State.reset.mgt ∧ t.pwr.boot = .inReset) ∧
    (∀ (w : SpiWord) (hang : Bool), PortIdle s → (firstWord s.mgt.crcEn 0x99 [w]).1 = some 0x00005EA1 →
      ∃ t, exec (.softReset [w] hang) s = .next t ∧ reset .softReset t ∧
        t.mgt = { State.reset.mgt with last := t.mgt.last, miso := t.mgt.miso }) ∧
    (s.pwr.boot = .ready → inSeal s = false → s.xb.queue = [] → s.xb.cur = none →
      ∃ t, exec .pllLoss s = .next t ∧ reset .pllLoss t ∧ t.mgt = s.mgt)

/-- R98, R795, R796: a permitted entry request, through PWR_ENTER with its key or ENTER_STATE, starts the entry; a
write of PWR_ENTER without the key sets REQ_ERR alone. -/
def Obligations.EntryRequests : Prop :=
  ∀ (s : State) (n : Nat), n < 4 → entryPermitted .spi n s = true → s.pwr.phase = .steady →
    let entering (t : State) : Prop :=
      t.pwr.phase = .entering ∧ t.pwr.target = ladderOf n ∧ t.pwr.ladder = s.pwr.ladder ∧ t.pwr.since = localNow s
    (coreAnswers s = true → ∃ t, exec (.pwrEnter (BitVec.ofNat 32 (0x4C440000 + n))) s = .next t ∧
      Frame [.pwr] s t ∧ entering t) ∧
    (∀ (w : SpiWord) (hang : Bool), PortIdle s →
      (firstWord s.mgt.crcEn 0xB9 [w]).1 = some (BitVec.ofNat 32 n) →
      ∃ t, exec (.enterState [w] hang) s = .next t ∧ Frame [.mgt, .pwr] s t ∧ entering t) ∧
    (∀ v : Word, coreAnswers s = true → fld v 31 16 ≠ 0x4C44 →
      exec (.pwrEnter v) s = .next { s with pwr := { s.pwr with reqErr := true } })

/-- R210, R691, R800, R810, R822: HOLD_REACHED stops the converters and drops the prefetch buffers, ADJOURN_REACHED
freezes the bridge, SEAL_REACHED ends the PPSO pulses and forms the seal, and each reaches its state; EXIT_COMPLETE
returns to PLAY. -/
def Obligations.LadderMoves : Prop :=
  ∀ s : State, coreUp s = true →
    (s.pwr.phase = .entering → s.pwr.ladder = .play →
      ∃ t, exec .holdReached s = .next t ∧ t.pwr.ladder = .hold ∧ t.cnv.groupA.running = false ∧
        t.cnv.groupB.running = false ∧ t.xb.bufs = []) ∧
    (s.pwr.phase = .entering → s.pwr.ladder = .hold → 2 ≤ targetCode s → bridgeDrained s = true →
      ∃ t, exec .adjournReached s = .next t ∧ t.pwr.ladder = .adjourn ∧ t.xb.frozenAt = some (localNow s)) ∧
    (s.pwr.phase = .entering → s.pwr.ladder = .adjourn → s.pwr.target = some .seal →
      ∃ t, exec .sealReached s = .next t ∧ Frame [.pwr, .therm, .tmb] s t ∧ t.pwr.ladder = .seal ∧
        (s.pwr.reg.causes = 0 → t.pwr.phase = .steady) ∧ (s.pwr.reg.causes ≠ 0 → t.pwr.phase = .exiting) ∧
        t.therm = { s.therm with sealCrc := regionCrc s } ∧
        t.tmb = { s.tmb with ppso := s.tmb.ppso.map (fun p => { p with pulse := none }) }) ∧
    (∀ low : BitVec 8, s.pwr.phase = .exiting → s.pos.running = false → s.pos.active = false → s.evt.queue = [] →
      ∃ t, exec (.exitComplete low) s = .next t ∧ t.pwr.ladder = .play ∧ t.pwr.phase = .steady ∧
        t.pwr.target = none ∧ t.pwr.pnr = none ∧ t.therm.lastExit = exitNs s ∧ t.mem = s.mem ∧
        Reported .wake 0 (wakeCauseWord s) s t)

/-- R807, R808, R814 to R816, Table 14-8: in a state below PLAY an enabled and available wake source starts the
exit, and PWR_WAKE_CAUSE names it; a wake before HOLD is reached is a takeback. -/
def Obligations.WakesStartExit : Prop :=
  ∀ s : State, coreUp s = true →
    (s.pwr.phase = .steady → s.pwr.ladder ≠ .play →
      let woken (b : Nat) (t : State) : Prop :=
        t.pwr.phase = .exiting ∧ t.pwr.ladder = s.pwr.ladder ∧ t.pwr.wakeFrom = BitVec.ofNat 3 s.pwr.ladder.code ∧
          t.pwr.wakeCauses = setBit s.pwr.reg.causes b ∧ t.pwr.since = localNow s
      (s.pwr.wakeEn.getLsbD 1 = true → ∃ t, exec .wakeNAssert s = .next t ∧ Frame [.pwr] s t ∧ woken 1 t) ∧
      (∀ pin : Fin 16, s.pwr.wakeEn.getLsbD 7 = true → s.pwr.wakeGpio.getLsbD pin = true →
        gpioIsOutput pin s = false → ∃ t, exec (.gpioWake pin) s = .next t ∧ Frame [.pwr] s t ∧ woken 7 t) ∧
      (∀ ch : Fin 24, s.pwr.wakeEn.getLsbD 4 = true → s.pwr.wakeSer.getLsbD ch = true →
        ∃ t, exec (.serialWake ch) s = .next t ∧ Frame [.pwr] s t ∧ woken 4 t) ∧
      (∀ p : Fin 8, s.pwr.wakeEn.getLsbD 3 = true → s.pwr.wakePorts.getLsbD p = true → s.pwr.ladder = .adjourn →
        ∃ t, exec (.linkWake p) s = .next t ∧ Frame [.pwr] s t ∧ woken 3 t) ∧
      (∀ k : Fin 8, s.pwr.wakeEn.getLsbD 6 = true → s.pwr.wakeSlots.getLsbD k = true → s.pwr.ladder ≠ .seal →
        ∃ t, exec (.cardWake k) s = .next t ∧ Frame [.pwr] s t ∧ woken 6 t) ∧
      (∀ hang : Bool, PortIdle s → ∃ t, exec (.wake hang) s = .next t ∧ Frame [.mgt, .pwr] s t ∧ woken 0 t)) ∧
    (s.pwr.phase = .entering → s.pwr.ladder = .play → s.pwr.wakeEn.getLsbD 1 = true →
      ∃ t, exec .wakeNAssert s = .next t ∧ Frame [.free, .pwr, .therm] s t ∧ t.pwr.phase = .exiting ∧
        t.pwr.ladder = .play ∧ t.pwr.wakeTakeback = true ∧ t.pwr.wakeAfterPnr = false ∧
        t.therm = { s.therm with takebackCnt := satInc s.therm.takebackCnt })

/-- R774, R820, R822 to R824, R830, R831: PWR_FAIL in SEAL stores the seal and sets the latch, so long as VBAK is
good, and the endgame ends in REST, which keeps the shared region, its seal and OTP; with the latch set they outlast
the loss of main power, and without it the region is lost. -/
def Obligations.EndgameAndRest : Prop :=
  ∀ s : State,
    (coreUp s = true → s.pwr.ladder = .seal → s.sec.run = none →
      ∃ t, exec .pwrFail s = .next t ∧ Frame [.pwr, .mem, .gpio] s t ∧ t.pwr.endgame = true ∧
        t.mem = { s.mem with retCrc := s.therm.sealCrc, retLatch := s.pwr.vbakOk }) ∧
    (s.pwr.endgame = true →
      ∃ t, exec .endgameComplete s = .next t ∧ t.pwr.boot = .rest ∧ t.pwr.endgame = false ∧
        t.mem.shared = s.mem.shared ∧ t.mem.retCrc = s.mem.retCrc ∧ t.mem.retLatch = s.mem.retLatch ∧
        t.sec.otp = s.sec.otp ∧ t.pos = State.reset.pos ∧ t.gpio = State.reset.gpio) ∧
    (s.pwr.mainGood = true → s.sec.run = none →
      ∃ t, exec .mainPowerLoss s = .next t ∧ t.pwr.boot = .unpowered ∧ t.pwr.mainGood = false ∧
        t.sec.otp = s.sec.otp ∧ (s.mem.retLatch = true → t.mem.shared = s.mem.shared ∧ t.mem.retLatch = true) ∧
        (s.mem.retLatch = false → s.pwr.boot ≠ .rest → t.mem.shared = [] ∧ t.mem.retLatch = false)) ∧
    (∃ t, exec .vbakLow s = .next t ∧ t.pwr.vbakOk = false ∧
      (s.pwr.mainGood = true → t = { s with pwr := { s.pwr with vbakOk := false } }) ∧
      (s.pwr.mainGood = false → t.mem.retLatch = false))

/-- R834, R835, R837: a sample is latched with the maximum of all; in SEAL the first at or above 135 °C sets THERMAL
and raises EVT_THERMAL; after THERM_RELEASE_MS of samples below 125 °C the trip ends with EVT_THERMAL_CLEAR. -/
def Obligations.ThermalTrip : Prop :=
  ∀ (s : State) (tj : BitVec 16), coreUp s = true →
    (s.therm.thermal = false → tj.toInt < 540 →
      exec (.thermalSample tj) s = .next { s with therm := { s.therm with
        tjNow := tj, tjMax := if s.therm.tjMax.toInt < tj.toInt then tj else s.therm.tjMax } }) ∧
    (s.therm.thermal = false → 540 ≤ tj.toInt → s.pwr.ladder = .seal →
      ∃ t, exec (.thermalSample tj) s = .next t ∧ Frame [.pos, .gpio, .therm, .pwr, .evt] s t ∧ t.therm.thermal = true ∧
        t.therm.tjNow = tj ∧ t.pos = { s.pos with fallbackApplied := true } ∧
        Reported .thermal 0 (tj.setWidth 32) s t) ∧
    (∀ d : Nat, s.therm.thermal = true → s.therm.coolSince = some d → d + msCycles s.therm.relMs.toNat ≤ localNow s →
      ∃ t, exec .thermalRelease s = .next t ∧ Frame [.pos, .therm, .pwr, .evt] s t ∧ t.therm.thermal = false ∧
        Reported .thermalClear 0 (s.therm.tjNow.setWidth 32) s t)

/-! ### Positions (spec/03) -/

/-- R133 to R135, R137: the words of a POS_STREAM at offset 0 enter the staging bank in order, each with its high
byte first, and LOAD_OFFSET and WORDS count them; no other bank changes. (The image's header is not complete yet.)
-/
def Obligations.StreamFillsStagingBank : Prop :=
  ∀ (s : State) (ws : List SpiWord) (hang : Bool), PortIdle s → coreAnswers s = true → stageBusy s = false →
    ws ≠ [] → (hostWords s.mgt.crcEn ws (crcHead 0x20 0)).2 = false → ws.length < 16 →
    ∃ t, exec (.posStream 0 ws hang) s = .next t ∧ Frame [.mgt, .pos] s t ∧ t.pos.stage = .loading ∧
      (stageBank t).image = ws.flatMap (fun w => toBE 4 w.val.toNat) ∧
      t.pos.loadOffset = BitVec.ofNat 24 (4 * ws.length) ∧ posBank (!stageIsB s) t = posBank (!stageIsB s) s ∧
      (hang = false → t.mgt.last.words = BitVec.ofNat 8 ws.length)

/-- R141, R144, R149, R160, R165: the end of a verification makes the image STAGED, or REFUSED with POS_ERR; ABORT
empties the staging bank; COMMIT_HITLESS of an image that agrees starts to fill the shadow tables, and their swap
waits for the next control cycle; a command that its stage does not allow sets CMD_ERR and records POS_ERR_BUSY. -/
def Obligations.StagingCommands : Prop :=
  ∀ s : State,
    (∀ ue : Bool, coreUp s = true → s.pos.stage = .verifying →
      let s1 := setPosBank (stageIsB s) { stageBank s with ue := (stageBank s).ue || ue } s
      ∃ t, exec (.verifyComplete ue) s = .next t ∧
        (∀ e, verifyImage { stageBank s with ue := (stageBank s).ue || ue } s1 = .error e →
          Frame [.pos, .evt] s t ∧ t.pos.stage = .refused ∧ t.pos.errCode = BitVec.ofNat 8 e.code ∧
            t.pos.refusedCnt = satInc s.pos.refusedCnt ∧ t.pos.activeBank = s.pos.activeBank ∧
            t.pos.tables = s.pos.tables) ∧
        (∀ p l, verifyImage { stageBank s with ue := (stageBank s).ue || ue } s1 = .ok (p, l) →
          Frame [.pos] s t ∧ t.pos.stage = .staged ∧ (stageBank t).image = p ∧
            t.pos.activeBank = s.pos.activeBank ∧ t.pos.tables = s.pos.tables)) ∧
    (coreAnswers s = true → s.pos.stage = .staged →
      ∃ t, exec .abort s = .next t ∧ Frame [.pos] s t ∧ t.pos.stage = .empty ∧ stageBank t = .empty ∧
        posBank (!stageIsB s) t = posBank (!stageIsB s) s ∧ t.pos.tables = s.pos.tables) ∧
    (coreAnswers s = true → s.pos.stage = .empty →
      (∀ c ∈ [Instr.abort, .commitFull, .commitHitless],
        ∃ t, exec c s = .next t ∧ Frame [.pos] s t ∧ t.pos.cmdErr = true ∧ t.pos.errCode = 0x11 ∧
          t.pos.stage = .empty ∧ t.pos.tables = s.pos.tables)) ∧
    (coreAnswers s = true → s.pos.stage = .staged → s.pos.opening = false → s.pos.hitlessOk = true →
      recheck (stageBank s) s = none → storeOk (activeBank s) = true →
      ∃ t, exec .commitHitless s = .next t ∧ Frame [.pos] s t ∧
        t.pos = { s.pos with cmdErr := false, stage := .preparing, shadow := bankSections (stageBank s) }) ∧
    (coreUp s = true → s.pos.stage = .preparing → cycleDefined s = true →
      exec .prepareComplete s = .next { s with pos := { s.pos with stage := .swapWait } })

/-- R151 to R155, R158, R168: COMMIT_FULL makes the staged image the active Position and starts its Opening, with
the outputs in their fallback states and the counters at zero; RESTART_ACTIVE and AUTO_RESTART_ACTIVE open the kept
one; OPENING_COMPLETE sets it running and raises EVT_POS_COMMIT; CLOSE stops it and keeps the bank. (The bridge is
idle.) -/
def Obligations.CommitOpensPosition : Prop :=
  ∀ s : State, s.xb.queue = [] → s.xb.cur = none →
    let opens (t : State) : Prop :=
      t.pos.opening = true ∧ t.pos.running = false ∧ t.pos.active = true ∧ t.pos.fallbackApplied = true ∧
        t.pos.restartPending = false ∧ (∀ p, p < 9 → (ethAt p t).cnt = List.replicate 16 0) ∧
        t.rte.cnts = [] ∧ t.cls.msgs = [] ∧ t.hp.held = []
    (coreAnswers s = true → s.pos.stage = .staged → s.pos.opening = false → recheck (stageBank s) s = none →
      ∃ t, exec .commitFull s = .next t ∧ opens t ∧ t.pos.activeBank = stageIsB s ∧
        t.pos.tables = bankSections (stageBank s) ∧ t.pos.fallback = bodyIn tyFallback (bankSections (stageBank s))) ∧
    (coreAnswers s = true → s.pos.restartPending = true → s.pos.active = true → recheck (activeBank s) s = none →
      ∃ t, exec .restartActive s = .next t ∧ opens t ∧ t.pos.tables = bankSections (activeBank s)) ∧
    (coreUp s = true → s.pos.active = true → s.pos.running = false → s.pos.opening = false →
      s.pos.restartPending = false → restartAfterReset s = true → recheck (activeBank s) s = none →
      ∃ t, exec .autoRestartActive s = .next t ∧ opens t ∧ t.pos.tables = bankSections (activeBank s)) ∧
    (coreUp s = true → s.pos.opening = true →
      ∃ t, exec .openingComplete s = .next t ∧ t.pos.running = true ∧ t.pos.opening = false ∧
        t.pos.tables = s.pos.tables ∧ t.tmb.secs = s.tmb.secs ∧ t.tmb.ns = s.tmb.ns ∧
        Reported .posCommit 0 (posStatus t) s t) ∧
    (coreAnswers s = true → s.pos.running = true →
      ∃ t, exec .close s = .next t ∧ t.pos.running = false ∧ t.pos.restartPending = true ∧
        t.pos.active = s.pos.active ∧ activeBank t = activeBank s ∧ t.pos.fallbackApplied = true ∧ t.cls.msgs = [])

/-! ### Reset, memory and the event log (spec/02, 04, 12, 13, 14, 16) -/

/-- What reset leaves, where the spec gives the value: device time 0 (R39) at the nominal addend of 4 ns under the
host (R176), an empty log, masks 0x7FFF, the four pickup slots empty, no Position, PLAY with nothing running, every
GPIO ball high impedance, and the shared region zero (R757; before power the model's choice of log entry 4). -/
def Obligations.ResetLeaves : Prop :=
  State.reset.tmb.addend = 0x0000000400000000 ∧ State.reset.tmb.owner = 0 ∧ State.reset.tmb.secs = 0 ∧
    State.reset.tmb.ns = 0 ∧ State.reset.tmb.localCnt = 0 ∧ State.reset.glb.intaMask = 0x7FFF ∧
    State.reset.glb.intbMask = 0x7FFF ∧ State.reset.mgt.pick = List.replicate 4 .empty ∧
    State.reset.mgt.crcEn = false ∧ State.reset.evt.queue = [] ∧ State.reset.evt.pend = 0 ∧
    State.reset.pos.active = false ∧ State.reset.pos.running = false ∧ State.reset.pos.stage = .empty ∧
    State.reset.pwr.ladder = .play ∧ State.reset.gpio = List.replicate 16 .hiZ ∧
    State.reset.pending = [] ∧ ∀ a, Memory.get State.reset.mem.shared a = 0

/-- R895: EVT_LOG_WRITE stores the sixteen bytes of the oldest queued event with their lap at the head, the head
goes on by one entry, and with index 1,023 it returns to 0 and the lap changes; no other byte of the region changes.
-/
def Obligations.LogWritesOldestEvent : Prop :=
  ∀ (s : State) (e : EvEntry) (l : List EvEntry), fabricRuns s = true → s.evt.queue = e :: l →
    Memory.wf s.mem.shared = true →
    ∃ t, exec .evtLogWrite s = .next t ∧ Frame [.mem, .evt] s t ∧ t.evt.queue = l ∧
      t.evt.headIdx = s.evt.headIdx + 1 ∧
      t.evt.headLap = (if s.evt.headIdx = 1023 then nextLap s.evt.headLap else s.evt.headLap) ∧
      Memory.getAll t.mem.shared (0x1C000 + 16 * s.evt.headIdx.toNat) 16 = logBytes e s.evt.headLap ∧
      SharedBut (0x1C000 + 16 * s.evt.headIdx.toNat) 16 s t ∧
      t.mem = { s.mem with shared := t.mem.shared, portA := t.mem.portA }

/-- R759, R766, R767: a visit of a row that passes its test changes no mapping; a row that fails in several bits is
remapped to a spare of its bank, with EVT_MEM_REPAIR, and no other bank's mapping changes. -/
def Obligations.SweeperRepairs : Prop :=
  ∀ (s : State) (f : SweepFinding), Inv s → inPlay s = true → due s.mem.sweepDue s = true → f.errs = [] →
    (takeRow s).1.row < bankRows (takeRow s).1.bank → (takeRow s).1.bank < 37 →
    (f.testFails = false → s.mem.suspects = [] →
      ∃ t, exec (.sweeperVisit f) s = .next t ∧ Frame [.mem] s t ∧ t.mem.spares = s.mem.spares ∧
        t.mem.shared = s.mem.shared ∧ t.mem.sweepBank = (takeRow s).1.bank ∧ t.mem.sweepRow = (takeRow s).1.row) ∧
    (∀ k, f.testFails = true → f.multi = true →
      remapped (takeRow s).1.row (nth .none s.mem.spares (takeRow s).1.bank) = some k →
      ∃ t, exec (.sweeperVisit f) s = .next t ∧ Frame [.mem, .evt] s t ∧
        nth .none t.mem.spares (takeRow s).1.bank = k ∧
        (∀ b, b ≠ (takeRow s).1.bank → nth .none t.mem.spares b = nth .none s.mem.spares b) ∧
        t.mem.shared = s.mem.shared ∧ Reported .memRepair 0 (rowDatum (takeRow s).1) s t)

/-! ### Security (spec/15) -/

/-- R851, R853, R855, R858, R863, R865, R868, R873, R874: in PLAY, outside test mode and a thermal trip, each OTP
command starts on the unit the rules name; where one of the named checks fails the command only leaves its
SEC_RESULT. -/
def Obligations.OtpCommandsStart : Prop :=
  ∀ s : State, coreAnswers s = true → s.sec.run = none → secAllowed s = true →
    let u := s.sec.otpAddr.toNat
    let starts (c : Instr) (r : SecRun) : Prop := exec c s = .next { s with sec := { s.sec with run := some r } }
    let ends (c : Instr) (code : Nat) : Prop :=
      exec c s = .next { s with sec := { s.sec with
        result := BitVec.ofNat 4 code, int := setBit s.sec.int 0 } }
    let signed (slot : Nat) : Prop :=
      signedRunning s = true ∧ imgKeySlot (activeBank s).image = slot ∧ slotProgrammed slot s = true
    (unitProtected u = false → unitBlank u s = true → starts .program ⟨.program, u, s.sec.otpData⟩) ∧
    (unitProtected u = false → unitCommitted u s = true → starts .lock ⟨.lock, u, 0⟩) ∧
    (unitProtected u = true → ends .program 8 ∧ ends .lock 8) ∧
    (unitProtected u = false → unitBlank u s = false → ends .program 3) ∧
    (∀ b : Bool, signed (if b then 0 else 1) → unitBlank (flagUnit (if b then 2 else 1)) s = true →
      starts (.revoke b) ⟨.revoke, flagUnit (if b then 2 else 1), 1⟩) ∧
    (∀ v, signedRunning s = true → rollbackCount s < imgVersion (activeBank s).image → nextCounter s = some v →
      starts .rollbackAdvance ⟨.rollbackAdvance, v, BitVec.ofNat 32 (imgVersion (activeBank s).image)⟩) ∧
    (signed (imgKeySlot (activeBank s).image) → unitBlank (flagUnit 0) s = true →
      starts .enforce ⟨.enforce, flagUnit 0, 1⟩) ∧
    (unitBlank (flagUnit 3) s = true → starts .testDisable ⟨.testDisable, flagUnit 3, 1⟩) ∧
    (tokenOk s = false → ends .testUnlock 7) ∧
    (tokenOk s = true → ∃ t, exec .testUnlock s = .next t ∧ t.mem.shared = [] ∧ t.sec.testMode = true ∧
      t.sec.otp = s.sec.otp ∧ t.pos = State.reset.pos ∧ t.gpio = State.reset.gpio)

/-- R851 to R853, R861, R973: the end of a PROGRAM leaves its unit LOCKED with its data, or SCARRED and reported
where the check found a mismatch; the end of a LOCK makes a COMMITTED unit LOCKED; no other unit changes.
OTP_SCAR_BURN burns SCAR on the units that lack it. -/
def Obligations.OtpCommandsEnd : Prop :=
  ∀ s : State, Inv s →
    (∀ r, s.sec.run = some r → coreUp s = true → r.unitAddr < 224 →
      (r.cmd = .program →
        (∃ t, exec (.secCommandComplete .good) s = .next t ∧ Frame [.sec] s t ∧ t.sec.run = none ∧
          t.sec.otpData = 0 ∧ t.sec.result = 0 ∧ t.sec.int = setBit s.sec.int 0 ∧
          nth .blank t.sec.otp r.unitAddr =
            { st := .locked, data := if r.unitAddr < 128 then r.data else 1, scar := false } ∧
          ∀ u, u ≠ r.unitAddr → nth .blank t.sec.otp u = nth .blank s.sec.otp u) ∧
        (∃ t, exec (.secCommandComplete .mismatch) s = .next t ∧ Frame [.sec, .evt] s t ∧ t.sec.run = none ∧
          t.sec.result = 4 ∧ nth .blank t.sec.otp r.unitAddr = { st := .scarred, data := 0, scar := true } ∧
          (∀ u, u ≠ r.unitAddr → nth .blank t.sec.otp u = nth .blank s.sec.otp u) ∧
          Reported .otpScarred 0 (BitVec.ofNat 32 r.unitAddr) s t)) ∧
      (r.cmd = .lock → ∃ t, exec (.secCommandComplete .good) s = .next t ∧ Frame [.sec] s t ∧ t.sec.run = none ∧
        t.sec.result = 0 ∧
        nth .blank t.sec.otp r.unitAddr = { nth .blank s.sec.otp r.unitAddr with st := .locked } ∧
        ∀ u, u ≠ r.unitAddr → nth .blank t.sec.otp u = nth .blank s.sec.otp u)) ∧
    (inPlay s = true → s.sec.scarBurnDone = false →
      ∃ t, exec .otpScarBurn s = .next t ∧ Frame [.sec, .evt] s t ∧ t.sec.scarBurnDone = true ∧
        ∀ u, u < 224 → nth .blank t.sec.otp u =
          (if (nth .blank s.sec.otp u).st = .scarred ∧ (nth .blank s.sec.otp u).scar = false
           then { st := .scarred, data := 0, scar := true } else nth .blank s.sec.otp u))

/-- R871, R872, R917 to R919, R922: the instructions that use the boundary register shift out what it captured and
take new bits at its end; SAMPLE/PRELOAD, BYPASS and IDCODE leave a running core alone; EXTEST and its like, CLAMP
and HIGHZ hold the core in reset, and the GPIO balls follow the cells or are released; Test-Logic-Reset selects
IDCODE. -/
def Obligations.JtagInstructions : Prop :=
  ∀ (s : State) (pins bits : List Bool), jtagRuns s = true →
    let shifted (t : State) : Prop :=
      t.jtag.captured = capturedCells pins ∧ t.jtag.dr = (capturedCells pins ++ bits).take bits.length ∧
        t.jtag.cells = (capturedCells pins ++ bits).drop bits.length
    let drives (t : State) : Prop :=
      t.gpio = (List.range 16).map (fun n => cellDrive t.jtag.cells (202 + 3 * n))
    (jtagHolds s.jtag.instr = false →
      (bits ≠ [] → ∃ t, exec (.samplePreload pins bits) s = .next t ∧ Frame [.jtag] s t ∧
        t.jtag.instr = .samplePreload ∧ shifted t) ∧
      (∃ t, exec (.bypass bits) s = .next t ∧ Frame [.jtag] s t ∧ t.jtag.instr = .bypass ∧
        t.jtag.cells = s.jtag.cells ∧ t.jtag.dr = (false :: bits).take bits.length) ∧
      (∃ t, exec .idcode s = .next t ∧ Frame [.jtag] s t ∧ t.jtag.instr = .idcode ∧
        t.jtag.dr = (List.range 32).map (fun k => (0x1082496D : Word).getLsbD k)) ∧
      (∃ t, exec .jtagTestLogicReset s = .next t ∧ Frame [.jtag] s t ∧ t.jtag.instr = .idcode ∧
        t.jtag.cells = State.reset.jtag.cells)) ∧
    (resettable s = true → s.sec.run = none → bits ≠ [] →
      (∃ t, exec (.extest pins bits) s = .next t ∧ t.jtag.instr = .extest ∧ t.pwr.boot = .inReset ∧
        shifted t ∧ drives t ∧ t.mem.shared = s.mem.shared) ∧
      (∃ t, exec (.extestPulse pins bits) s = .next t ∧ t.jtag.instr = .extestPulse ∧ t.pwr.boot = .inReset ∧
        shifted t ∧ drives t ∧ t.mem.shared = s.mem.shared) ∧
      (∃ t, exec (.extestTrain pins bits) s = .next t ∧ t.jtag.instr = .extestTrain ∧ t.pwr.boot = .inReset ∧
        shifted t ∧ drives t ∧ t.mem.shared = s.mem.shared) ∧
      (∃ t, exec .clamp s = .next t ∧ t.jtag.instr = .clamp ∧ t.pwr.boot = .inReset ∧
        t.jtag.cells = s.jtag.cells ∧ drives t ∧ t.mem.shared = s.mem.shared) ∧
      (∃ t, exec .highz s = .next t ∧ t.jtag.instr = .highz ∧ t.pwr.boot = .inReset ∧
        t.jtag.cells = s.jtag.cells ∧ t.gpio = (List.range 16).map (fun _ => .hiZ) ∧ t.mem.shared = s.mem.shared))

/-! ### Timekeeper (spec/05) -/

/-- R237, R251: a PTP port sends its messages in the domain: PDELAY_REQ_TX a Pdelay_Req with the next sequence
number in every enabled domain, PTP_SYNC_TX a Sync on a MASTER port, PTP_ANNOUNCE_TX an Announce where the decision
that it runs leaves the port MASTER. (The layout of the messages is log entry 25's.) -/
def Obligations.PtpMessagesLeave : Prop :=
  ∀ (s : State) (p : Fin 8), Inv s → ptpRuns s = true → ptpPortUp p s = true →
    (pdelayRole s = true →
      ∃ t, exec (.pdelayReqTx p) s = .next t ∧
        (∀ d, domEnabled d s = true → (portDom p d t).pdelay.seq = (portDom p d s).pdelay.seq + 1 ∧
          (portDom p d t).pdelay.awaiting = true ∧ (portDom p d t).pdelay.t1 = none) ∧
        (s.ptp.secEn = false → Roomy p 2 68 s → (slice (portEntry p s) 8 6).length = 6 →
          Frame [.ptp, .eth, .pairs, .cls] s t ∧ ∃ m, Sent .ptp p 2 (ptpFrame true p m s) t ∧
            ptpType m = 2 ∧ ptpDomain m = s.ptp.d0.number.toNat ∧ ptpSeq m = (portDom p false s).pdelay.seq.toNat)) ∧
    (∀ d, domEnabled d s = true → (portDom p d s).state = 6 → Roomy p 2 58 s →
      (slice (portEntry p s) 8 6).length = 6 →
      ∃ t, exec (.ptpSyncTx p d) s = .next t ∧ Frame [.ptp, .eth, .pairs, .cls] s t ∧
        (portDom p d t).syncSeq = (portDom p d s).syncSeq + 1 ∧
        ∃ m, Sent .ptp p 2 (ptpFrame false p m s) t ∧ ptpType m = 0 ∧ ptpDomain m = (domOf d s).number.toNat ∧
          ptpSeq m = (portDom p d s).syncSeq.toNat ∧ ptpTwoStep m = !(ptpPort p s).oneStep) ∧
    (∀ d, domEnabled d s = true →
      let s1 := runBmca d false s
      (portDom p d s1).state = 6 → Roomy p 2 78 s1 → (slice (portEntry p s1) 8 6).length = 6 →
      (s.ptp.profile = false ∨ (domOf d s1).parent.isSome = true) → s1.ptp.profile = s.ptp.profile →
      ∃ t, exec (.ptpAnnounceTx p d) s = .next t ∧ Frame [.free, .ptp, .eth, .pairs, .cls] s1 t ∧
        (portDom p d t).annSeq = (portDom p d s1).annSeq + 1 ∧
        ∃ m, Sent .ptp p 2 (ptpFrame false p m s1) t ∧ ptpType m = 11 ∧
          ptpDomain m = (domOf d s1).number.toNat ∧ ptpSeq m = (portDom p d s1).annSeq.toNat ∧
          u8 m 48 = (announced d s1).clockClass.toNat)

/-- R253, R265, R281, R288: a Pdelay_Req without its response counts, and the third in a row takes the port out of
the data set; a domain whose master is silent and has no other foreign master is LOST, and EVT_PTP_MASTER_LOST is
raised; 64 cycles after the loss of the active domain the time base enters holdover on the mean of its addends, and
EVT_HOLDOVER is raised; after the grace period TQ is UNSYNC. -/
def Obligations.LostMasterLeadsToHoldover : Prop :=
  (∀ (s : State) (p : Fin 8) (d : Bool), Inv s → ptpRuns s = true → (portDom p d s).pdelay.awaiting = true →
    let n := (portDom p d s).pdelay.timeouts + 1
    ∃ t, exec (.pdelayTimeout p d) s = .next t ∧ (n ≠ 3 → Frame [.ptp] s t) ∧
      (portDom p d t).pdelay = { (portDom p d s).pdelay with
        awaiting := false, timeouts := n, excluded := decide (3 ≤ n) } ∧
      (ptpPort p t).pdelayTo = satInc (ptpPort p s).pdelayTo) ∧
  (∀ (s : State) (d : Bool) (p : Nat), Inv s → ptpRuns s = true → bmcaRole s = true → domEnabled d s = true →
    masterTimedOut d s = true → (domOf d s).parent = some p → s.ptp.castleSt ≠ .blocked → s.ptp.autoCastle = false →
    (∀ q, q < 8 → ∀ f ∈ (portDom q d s).foreign, q = p ∧ f.sender = (domOf d s).master) → p < 8 →
    ∃ t, exec (.masterLost d) s = .next t ∧ Frame [.ptp, .evt] s t ∧ (domOf d t).servo = 4 ∧
      (domOf d t).parent = none ∧ Reported .ptpMasterLost 0 (if d then 1 else 0) s t ∧
      (s.ptp.activeDom = d → s.tmb.owner = 1 → s.ptp.holdover = false → t.ptp.lostAt = some (localNow s))) ∧
  (∀ (s : State) (at_ : Nat), timeRuns s = true → s.tmb.owner = 1 → s.ptp.lostAt = some at_ →
    at_ + 64 ≤ localNow s → s.ptp.holdover = false →
    ∃ t, exec .ptpHoldoverEntry s = .next t ∧ Frame [.ptp, .tmb, .evt] s t ∧
      t.tmb = { s.tmb with holdover := true, addend := (loadAddend (rateAvg s.tmb) s).tmb.addend,
                           clamped := t.tmb.clamped } ∧
      t.ptp.holdover = true ∧ t.ptp.graceEnd = some (localNow s + s.ptp.grace.toNat * 250000000) ∧
      t.ptp.heldSync = smpSynchOf (tqNow s) s ∧ Reported .holdover 0 1 s t) ∧
  (∀ (s : State) (at_ : Nat), timeRuns s = true → s.tmb.owner = 1 → s.ptp.holdover = true →
    s.ptp.graceEnd = some at_ → at_ ≤ localNow s →
    ∃ t, exec .holdoverGraceExpiry s = .next t ∧ Frame [.ptp] s t ∧ tqNow t = 0)

/-- R263, R267, R268, R270, R272, R273, R277: CASTLE to a LOCKED domain within W makes it active and slews the
offset at SLEW_PPM; farther off it is blocked and EVT_CASTLE_BLOCKED is raised; a decision slews or steps device
time by the offset and makes the candidate active, STAY changes nothing; without a candidate or an episode each sets
CMD_ERR alone; CLEAR_TIME_SET clears TIME_SET alone. -/
def Obligations.CastlingAndDecisions : Prop :=
  ∀ s : State, coreAnswers s = true →
    let cand := !s.ptp.activeDom
    let δ := ofsDevNs (domOf cand s) s.free
    let δ' := ofsDevNs (domOf s.ptp.cand s) s.free
    (castleAllowed cand s = true → δ.natAbs ≤ castleWindow s → δ ≠ 0 →
      ∃ t, exec .castle s = .next t ∧ Frame [.free, .tmb, .ptp, .evt] s t ∧ t.ptp.activeDom = cand ∧
        t.ptp.castleLast = 1 ∧ t.ptp.castleSt = .residualSlew ∧ t.ptp.castleCnt = satInc s.ptp.castleCnt ∧
        t.tmb.slew = some { neg := decide (δ < 0), ppm := castlePpm s,
                            remain := δ.natAbs * 4294967296 * slewUnit } ∧
        t.tmb.secs = s.tmb.secs ∧ t.tmb.ns = s.tmb.ns ∧ Reported .castle 0 (intWord δ) s t) ∧
    (castleAllowed cand s = true → castleWindow s < δ.natAbs → s.ptp.autoPolicy ≠ 1 →
      ∃ t, exec .castle s = .next t ∧ Frame [.ptp, .evt] s t ∧
        t.ptp = { s.ptp with castleSt := .blocked, cand, blockedCnt := satInc s.ptp.blockedCnt } ∧
        Reported .castleBlocked 0 (intWord δ) s t) ∧
    (castleAllowed cand s = false → exec .castle s = .next { s with ptp := { s.ptp with cmdErr := true } }) ∧
    (s.ptp.castleSt = .blocked → s.tmb.owner = 1 →
      (δ' ≠ 0 →
        ∃ t, exec .decideSlew s = .next t ∧ Frame [.free, .tmb, .ptp, .evt] s t ∧ t.ptp.activeDom = s.ptp.cand ∧
          t.ptp.castleLast = 2 ∧ t.ptp.castleSt = .decidedSlew ∧ t.ptp.castleCnt = satInc s.ptp.castleCnt ∧
          t.tmb.slew = some { neg := decide (δ' < 0), ppm := castlePpm s,
                              remain := δ'.natAbs * 4294967296 * slewUnit } ∧
          t.tmb.secs = s.tmb.secs ∧ t.tmb.ns = s.tmb.ns) ∧
      (∃ t, exec .decideStep s = .next t ∧ Frame [.free, .tmb, .ptp, .evt] s t ∧ t.ptp.activeDom = s.ptp.cand ∧
        t.ptp.castleLast = 3 ∧ t.ptp.castleSt = .idle ∧ t.tmb.localCnt = s.tmb.localCnt + 1) ∧
      exec .decideStay s = .next s) ∧
    (s.ptp.castleSt ≠ .blocked → s.ptp.decisionThisCycle ≠ some (localNow s) →
      ∀ c ∈ [Instr.decideSlew, .decideStep, .decideStay],
        exec c s = .next { s with ptp := { s.ptp with cmdErr := true } }) ∧
    exec .clearTimeSet s = .next { s with ptp := { s.ptp with timeSet := false } }

/-! ### Ethernet ports (spec/06) -/

/-- R298, R299, R301 to R303, R312, R316: LINK_UP brings a port to FORWARDING, or leaves it RESIGNED, and starts its
verification; each SIGNAL_LOSS counts and starts the hold time; LINK_DOWN takes a port that has lost its signal that
long out of FORWARDING; LINK_RESTART drops the link for 1 ms; an expired verify timer sends the next verify mPacket,
and after the third sets FAILED; RETRY_VERIFY starts the verification anew. -/
def Obligations.PortLinks : Prop :=
  ∀ (s : State) (p : Fin 8), Inv s →
    (∀ i : LinkInfo, lanesOn s = true → s.pos.active = true → portDefined p s = true → (ethAt p s).link = false →
      (ethAt p s).idleUntil = none → (portMode p s = 1 → i.unsupported = false) →
      (portAnEn p s = true → i.anDone = true) →
      ∃ t, exec (.linkUp ⟨p, by omega⟩ i) s = .next t ∧ Frame [.eth, .ptp, .evt] s t ∧ (ethAt p t).link = true ∧
        (ethAt p t).fwd = (if (ethAt p s).fwd = .resigned then .resigned else .forwarding) ∧
        (ethAt p t).verify = (if portPreempt p s = 1 then .verifying else verifyAtDown p s) ∧
        (∀ q, q ≠ p.val → ethAt q t = ethAt q s) ∧ Reported .ethLink p (BitVec.ofNat 32 (p * 256 + 1)) s t) ∧
    (lanesOn s = true → (ethAt p s).link = true →
      ∃ t, exec (.signalLoss ⟨p, by omega⟩) s = .next t ∧ (ethAt p t).lossFrom = some (localNow s) ∧
        nth 0 (ethAt p t).cnt 7 = satInc (nth 0 (ethAt p s).cnt 7) ∧ (ethAt p t).link = true) ∧
    (∀ at_, lanesOn s = true → (ethAt p s).link = true → (ethAt p s).lossFrom = some at_ →
      at_ + usCycles (portHoldUs p s) ≤ localNow s →
      ∃ t, exec (.linkDown ⟨p, by omega⟩) s = .next t ∧ (ethAt p t).link = false ∧
        (ethAt p t).fwd ≠ .forwarding ∧ nth 0 (ethAt p t).cnt 6 = satInc (nth 0 (ethAt p s).cnt 6) ∧
        pendSet (.eth 0) p t = true) ∧
    (coreAnswers s = true → (ethAt p s).fwd ≠ .disabled →
      ∃ t, exec (.linkRestart p) s = .next t ∧ (ethAt p t).idleUntil = some (localNow s + 250000) ∧
        (ethAt p t).link = false ∧ (ethAt p t).lossFrom = none) ∧
    (∀ at_, (ethAt p s).idleUntil = some at_ → at_ ≤ localNow s →
      exec (.linkRestartIdleEnd p) s = .next (updEth p (fun k => { k with idleUntil := none }) s)) ∧
    (∀ at_, (ethAt p s).verify = .verifying → (ethAt p s).verifyDue = some at_ → at_ ≤ localNow s →
      ((ethAt p s).verifyTries < 3 →
        exec (.verifyTimerExpiry p) s = .next (updEth p (fun k => { k with
          verifyTries := k.verifyTries + 1, verifyDue := some (localNow s + 2500000),
          mpackets := k.mpackets ++ [.verify] }) s)) ∧
      (3 ≤ (ethAt p s).verifyTries →
        ∃ t, exec (.verifyTimerExpiry p) s = .next t ∧ Frame [.eth, .evt] s t ∧ (ethAt p t).verify = .failed ∧
          Reported .ethVerifyFail p (BitVec.ofNat 32 p) s t)) ∧
    (coreAnswers s = true → (ethAt p s).fwd ≠ .disabled → (ethAt p s).link = true → portPreempt p s = 1 →
      exec (.retryVerify p) s = .next (updEth p (fun k => { k with
        verify := .verifying, verifyTries := 1, verifyDue := some (localNow s + 2500000),
        mpackets := k.mpackets ++ [.verify] }) s))

/-- R333 to R335, R337 to R339, R342: RESIGN takes a port out of service, counts it, empties its queues below KING
and raises EVT_PORT_RESIGN; REINSTATE, and the end of the clean interval under AUTO, bring it back with its run
counts cleared; at the end of a resign window the run counts are cleared. The model's choice of log entry 52: on a
DISABLED port the commands set CMD_ERR alone, and a RESIGN of a resigned port changes nothing. -/
def Obligations.PortsResignAndReturn : Prop :=
  ∀ (s : State) (p : Fin 8), Inv s →
    let back (who : Nat) (t : State) : Prop :=
      Frame [.eth, .ptp, .evt] s t ∧ (ethAt p t).runs = List.replicate 8 0 ∧
      (ethAt p t).fwd = (if (ethAt p s).link then .forwarding else .down) ∧
      Reported .portReinstate p (BitVec.ofNat 32 (p * 256 + who)) s t
    (coreAnswers s = true → (ethAt p s).fwd ≠ .disabled → (ethAt p s).fwd ≠ .resigned →
      ∃ t, exec (.resign p) s = .next t ∧ (ethAt p t).fwd = .resigned ∧ (ethAt p t).cause = 0xD ∧
        (ethAt p t).resignCnt = satInc (ethAt p s).resignCnt ∧ (∀ c, c < 5 → queueOf p c t = []) ∧
        pendSet (.eth 1) p t = true ∧
        (s.ptp.role = 0 → Reported .portResign p (BitVec.ofNat 32 (p * 256 + 0xD)) s t)) ∧
    (coreAnswers s = true → (ethAt p s).fwd = .resigned → exec (.resign p) s = .next s) ∧
    ((coreAnswers s = true → (ethAt p s).fwd = .resigned → ∃ t, exec (.reinstate p) s = .next t ∧ back 1 t) ∧
      (∀ at_, (ethAt p s).fwd = .resigned → (ethAt p s).cleanFrom = some at_ →
        at_ + (ethAt p s).cleanLeft ≤ localNow s →
        (portAuto p s = true → ∃ t, exec (.cleanIntervalEnd p) s = .next t ∧ back 0 t) ∧
        (portAuto p s = false → exec (.cleanIntervalEnd p) s =
          .next (updEth p (fun k => { k with cleanLeft := 0, cleanFrom := none }) s)))) ∧
    (portDefined p s = true → (ethAt p s).windowEnd ≤ localNow s →
      exec (.resignWindowEnd p) s = .next (updEth p (fun k => { k with
        runs := List.replicate 8 0, windowEnd := k.windowEnd + msCycles (portWindowMs p s) }) s)) ∧
    (coreAnswers s = true → (ethAt p s).fwd = .disabled →
      ∀ c ∈ [Instr.resign p, .reinstate p, .retryVerify p, .linkRestart p],
        exec c s = .next (updEth p (fun k => { k with cmdErr := true }) s))

/-- R300, R304, R305, R307, R312, R322, R329, R331, R501, R504, R510, R565: a frame on a port without a link is
ignored; a bad frame counts in its counter; a PAUSE frame and one that ACCEPT turns away count and go no further; a
verify mPacket is answered, a respond mPacket ends the verification; the second copy of a PRP frame counts as a
duplicate and goes no further; a frame that no route takes is discarded with EVT_RTE_UNROUTED; one whose enabled
route keeps one port, without a filter or a policer, is queued there in its class. DUP_ENTRY_EXPIRY forgets the
entries past the forget time. SUPERVISION_TX queues a supervision frame on each forwarding port of its pair (its
layout is log entry 26's). -/
def Obligations.FramesAreReceived : Prop :=
  (∀ (s : State) (p : Fin 8) (f : RxFrame), Inv s → lanesOn s = true → portDefined p s = true →
    (ethAt p s).link = true →
    let q : Fin 9 := ⟨p, by omega⟩
    let l := innerFrame p f
    let counted (i : Nat) : State := portCount p i s
    (f.verifyPkt = true → exec (.ethFrameRx q f) s =
      .next (updEth p (fun k => { k with mpackets := k.mpackets ++ [.respond] }) s)) ∧
    (f.verifyPkt = false → f.respondPkt = true → (ethAt p s).verify = .verifying →
      ∃ t, exec (.ethFrameRx q f) s = .next t ∧ Frame [.eth] s t ∧ (ethAt p t).verify = .succeeded) ∧
    (f.verifyPkt = false → f.respondPkt = false →
      (∀ i, (if f.fragment then some 5 else rxFault p f) = some i → badEntered p f s = false →
        ∃ t, exec (.ethFrameRx q f) s = .next t ∧
          nth 0 (ethAt p t).cnt i = satInc (nth 0 (ethAt p s).cnt i) ∧
          ((∀ j, portThr p j s = 0) → Frame [.eth] s t)) ∧
      (f.fragment = false → rxFault p f = none →
        (frameType l = 0x8808 → exec (.ethFrameRx q f) s = .next (counted 9)) ∧
        (frameType l ≠ 0x8808 → vlanAccepted p l s = false → exec (.ethFrameRx q f) s = .next (counted 8)) ∧
        (frameType l ≠ 0x8808 → vlanAccepted p l s = true → boardRuns s = true → forwarding p s = true →
          (pairMode p s = 1 → hasTrailer l = true → frameType l ≠ 0x88F7 →
            (findDup (p / 2) (slice l 6 6) (BitVec.ofNat 16 (be16 l (l.length - 6))) s).isSome = true →
            be16 l (l.length - 4) / 4096 = (if p.val % 2 = 0 then 0xA else 0xB) →
            exec (.ethFrameRx q f) s = .next (pairCount (p / 2) 0 (counted 0))) ∧
          ((∀ k, k < 8 → pairMode k s = 0) → frameType l ≠ 0x88F7 →
            let m := ethInbound p f (.plain l) none (counted 0)
            (lookup m.key s = none →
              ∃ t, exec (.ethFrameRx q f) s = .next t ∧ Frame [.free, .eth, .cls, .evt] s t ∧
                t.eth = (counted 0).eth ∧ t.cls = { s.cls with unroutedCnt := satInc s.cls.unroutedCnt } ∧
                Reported .rteUnrouted 0 (BitVec.ofNat 32 p) s t) ∧
            (∀ (r : Route) (e : Nat), lookup m.key s = some r → resEnabled r.res = true →
              keptPorts m r s = [e] → e ≤ 8 → e ≠ p → resFilter r.res = none → routeBound r.id s = none →
              messageClass m r s < 6 → Roomy e (messageClass m r s) m.bytes.length s →
              ∃ t, exec (.ethFrameRx q f) s = .next t ∧ Frame [.free, .eth, .pairs, .cls, .rte] s t ∧
                Sent m.kind e (messageClass m r s) l t)))))) ∧
  (∀ (s : State) (p : Fin 9) (f : RxFrame), (ethAt p s).link = false → exec (.ethFrameRx p f) s = .next s) ∧
  (∀ (s : State) (k : Fin 4), Inv s → ∃ t, exec (.dupEntryExpiry k) s = .next t ∧ Frame [.pairs] s t ∧
    (∀ d, d ∈ (nth .reset t.pairs k).dup ↔
      d ∈ (nth .reset s.pairs k).dup ∧ localNow s < d.created + forgetCycles k s)) ∧
  (∀ (s : State) (k : Fin 4), Inv s → boardRuns s = true → pairMode (2 * k) s ≠ 0 →
    flagAt (portEntry (2 * k) s) 3 4 = true → (nth .reset s.pairs k).supDue ≤ localNow s →
    ∃ t, exec (.supervisionTx k) s = .next t ∧ Frame [.eth, .pairs, .cls, .evt] s t ∧
      ((∀ e, e = 2 * k.val ∨ e = 2 * k.val + 1 →
          forwarding e s = true ∧ Roomy e 0 (supFrame k ((nth .reset s.pairs k).supSeq + 1) s).length s) →
        Sent .supervision (2 * k) 0 (supFrame k ((nth .reset s.pairs k).supSeq + 1) s) t ∧
        Sent .supervision (2 * k + 1) 0 (supFrame k ((nth .reset s.pairs k).supSeq + 1) s) t) ∧
      (nth .reset t.pairs k).supSeq = (nth .reset s.pairs k).supSeq + 1 ∧
      (nth .reset t.pairs k).supDue = (nth .reset s.pairs k).supDue + 500000000)

/-! ### Egress (spec/06, spec/10) -/

/-- R27, R343, R558, R575 to R578: EGRESS_SELECT on an idle port sends the head of the highest class that waits, or
discards one past its age budget, counted, with EVT_FLAG_FALL; TX_COMPLETE counts a frame that has left and frees
its message; PROMOTION moves a head that has reached half its budget to the tail of the next class; held KING frames
past their budget go, with EVT_KING_LOST. -/
def Obligations.EgressServesClasses : Prop :=
  (∀ (s : State) (e c : Nat) (q : QEntry) (m : Msg) (rest : List QEntry) (ecc : EccAt), Inv s → Head e c q m rest s →
    boardRuns s = true → (ethAt e s).link = true → (ethAt e s).tx = none → forwarding e s = true → ecc.what = .ok →
    (c < 3 → (ethAt e s).mpackets = [] ∧ (ethAt e s).preempted = none ∧ limited e s = false) →
    (pastBudget m s = false ∨ q.marked = true → bundleMax m ≤ 1 → m.kind ≠ .ptp → m.etype ≠ 0x88F7 →
      m.tsTag = none → (m.routeId ≠ 0xFFFF → resTxts m.result = false) →
      let s1 := setQueue e c rest s
      ∃ t f, exec (.egressSelect e ecc) s = .next t ∧ Frame [.eth] s t ∧ queueOf e c t = rest ∧
        (ethAt e t).tx = some f ∧ f.entries = [q] ∧ f.cls.toNat = c ∧ f.sent = 0 ∧ f.startAt = startOf e s1 ∧
        f.bytes = sealFrame e c q m (if isRingCopy e q s1 then m.bytes else frameOf e c q m s1) s1) ∧
    (pastBudget m s = true → q.marked = false → classMarks c s = false → c < 5 →
      let w := BitVec.ofNat 32 (e * 2 ^ 24 + c * 65536 + m.routeId % 65536)
      ∃ t, exec (.egressSelect e ecc) s = .next t ∧ Frame [.eth, .cls, .evt] s t ∧ (ethAt e t).tx = none ∧
        queueOf e c t = rest.filter (fun x => x.msg != q.msg) ∧ t.cls.lastFlagFall = w ∧
        Reported .flagFall 0 w s t)) ∧
  (∀ (s : State) (e : Fin 9) (f : TxFrame) (fs : List TxFrame), Inv s → coreUp s = true →
    (ethAt e s).leaving = f :: fs → txDone e f s = true → f.frags = 0 →
    (∀ q, f.entries = [q] →
      ∃ t, exec (.txComplete e) s = .next t ∧ Frame [.eth, .cls] s t ∧ (ethAt e t).leaving = fs ∧
        nth 0 (ethAt e t).cnt 11 = satInc (nth 0 (ethAt e s).cnt 11) ∧
        (∀ m, msgById q.msg s = some m → m.refs ≤ 1 → ∀ x ∈ t.cls.msgs, x.id ≠ q.msg))) ∧
  (∀ (s : State) (e : Nat) (c : Fin 6) (q : QEntry) (m : Msg) (rest : List QEntry), Inv s → e ≤ 8 →
    fabricRuns s = true → s.pos.running = true → queueOf e c s = q :: rest →
    msgById q.msg s = some m → classPromotes c s = true → c.val < 4 → q.promoted = false → m.routeId ≠ 0xFFFF →
    resBudgetUs m.result * 500 ≤ ageNs m s → ageNs m s < resBudgetUs m.result * 1000 →
    ∃ t, exec (.promotion e c) s = .next t ∧ Frame [.eth, .cls, .evt] s t ∧ queueOf e c t = rest ∧
      queueOf e (c + 1) t = queueOf e (c + 1) s ++ [{ q with promoted := true }] ∧
      Reported .promote 0 (BitVec.ofNat 32 (c * 65536 + m.routeId)) s t) ∧
  (∀ (s : State) (e : Fin 9), Inv s → forwarding e s = false → fabricRuns s = true →
    ((∀ x ∈ queueOf e 5 s, entryPast x s = false) →
      ∃ t, exec (.kingHeldExpiry e) s = .next t ∧ Frame [.eth] s t ∧ queueOf e 5 t = queueOf e 5 s ∧
        t.evt.kingLostCnt = s.evt.kingLostCnt) ∧
    (∀ x, queueOf e 5 s = [x] → entryPast x s = true →
      ∃ t, exec (.kingHeldExpiry e) s = .next t ∧ Frame [.eth, .cls, .evt] s t ∧ queueOf e 5 t = [] ∧
        t.evt.kingLostCnt = satInc s.evt.kingLostCnt ∧ pendSet (.eth 4) e t = true))

/-- R355, R356, R359: ACCESS_FRAME_EXECUTE runs a READ of words of the shared region to an OK entry with the words
as its data, a WRITE below the system area to the bytes stored, and refuses a word of the MGT block; with its last
command done, ACCESS_RESPONSE_TX queues the response on HP in the class of ACCESS_ROUTE, frees the held frame and
counts it in HP_ACCESS_DONE. -/
def Obligations.AccessFramesRun : Prop :=
  (∀ (s : State) (q : AccReq) (qs : List AccReq) (c : AccCmd) (o : Nat) (envs : List BankEnv), inPlay s = true →
    coreAnswers s = true → s.hp.held = q :: qs → q.cmds = [c] → q.done = [] → c.preset = none → c.words < 256 →
    QuietEnvs envs → Memory.wf s.mem.shared = true →
    let ran (st : Byte) (n : Nat) (data : List Word) : HpBlk := { s.hp with held :=
      { q with
        started := some (q.started.getD (stampNow s))
        done := [{ status := st, words := n, addr := c.addr, xbCode := 0, data }]
        waitTag := none
        landed := none
        sent := 0 } :: qs }
    (c.addr.toNat = 0x100000 + o → o < 0x20000 → o % 4 = 0 →
      (o + 4 * c.words ≤ 0x20000 → c.opcode = 3 → c.dsize = c.words →
        ∃ t, exec (.accessFrameExecute envs) s = .next t ∧ Frame [.hp, .mem] s t ∧ SharedSame s t ∧
          t.hp = ran 0 c.words ((List.range c.words).map (fun i =>
            BitVec.ofNat 32 (ofLE (Memory.getAll s.mem.shared (o + 4 * i) 4))))) ∧
      (o + 4 * c.words ≤ 0x1B000 → c.opcode = 2 → c.dsize = 0 → c.data.length = c.words →
        ∃ t, exec (.accessFrameExecute envs) s = .next t ∧ Frame [.hp, .mem] s t ∧ t.hp = ran 0 c.words [] ∧
          Memory.getAll t.mem.shared o (4 * c.words) = c.data.flatMap (fun w => toLE 4 w.toNat) ∧
          SharedBut o (4 * c.words) s t)) ∧
    (isMgt c.addr.toNat = true → c.addr.toNat % 4 = 0 → 0 < c.words → c.opcode = 2 ∨ c.opcode = 3 →
      ∃ t, exec (.accessFrameExecute envs) s = .next t ∧ Frame [.hp, .mem] s t ∧ SharedSame s t ∧
        t.hp = ran 6 0 (List.replicate c.dsize 0))) ∧
  (∀ (s : State) (q : AccReq) (qs : List AccReq), Inv s → inPlay s = true → s.hp.held = q :: qs →
    q.done.length = q.cmds.length →
    let r : Route := { id := accessRoute s, res := padTo 32 (resultOf (accessRoute s) s) }
    let c := if q.down then 0 else routeClass r s
    let bytes := accResponse q s
    c < 6 → Roomy 8 c bytes.length s →
    ∃ t, exec .accessResponseTx s = .next t ∧ Frame [.hp, .eth, .pairs, .cls, .rte] s t ∧
      t.hp = { s.hp with held := qs, accessDone := satInc s.hp.accessDone } ∧
      Sent .accessResp 8 c bytes t)

/-! ### Serial channels (spec/07) -/

/-- R376 to R378, R391 to R398: on a channel of fixed rate in SENTENCE mode, SER_CHAR_RX reads the character by its
edges. One with an error drops the partial sentence and counts; '$' or '!' opens a sentence with the stamp of its
start bit; any other character outside a sentence is a stray; within one it grows, completes, or breaks the
sentence. -/
def Obligations.CharactersMakeSentences : Prop :=
  ∀ (s : State) (c : Fin 24) (l : LineChar), Inv s → serReceives c s = true →
    let e := serEntry c s
    let k := serAt c s
    let r := readChar e k.div (localNow s * 4 - l.age) l.edges
    let b : Byte := BitVec.ofNat 8 r.value
    k.rx ≠ .blinded → k.skipIdle = false → k.deOn = false → k.txSt ≠ .sending → k.backoff = none →
    serAbrMode e = 0 → serIdleMode e = false → flagAt e 0 2 = false →
    readBit (serOver e) k.div (localNow s * 4 - l.age) l.edges 0 = false →
    let k1 : SerChan := { k with
      cnt := upd satInc k.cnt 0
      errRun := if r.framing || r.parity then k.errRun + 1 else 0
      lastChar := localNow s
      lineIdle := false }
    let count (i : Nat) (x : SerChan) : SerChan := { x with cnt := upd satInc x.cnt i }
    let becomes (x : SerChan) : Prop :=
      ∃ t, exec (.serCharRx c l) s = .next t ∧ Frame [.ser] s t ∧ ChannelIs c x s t
    (r.framing = true → r.parity = false → ∀ f, k.frame = some f →
      becomes (count 2 { k1 with frame := none, spoiled := false, rx := .idle })) ∧
    (r.framing = false → r.parity = true → ∀ f, k.frame = some f →
      becomes (count 3 { k1 with frame := none, spoiled := false, rx := .idle })) ∧
    (r.framing = false → r.parity = false →
      (b = 0x24 ∨ b = 0x21 →
        becomes { k1 with
          frame := some { bytes := [b], stamp := stampAgo l.age s, origin := 0, idle := false, group := none, encroached := false }
          rx := .receiving
          spoiled := false }) ∧
      (b ≠ 0x24 → b ≠ 0x21 → k.frame = none → becomes (count 5 k1)) ∧
      (∀ f, b ≠ 0x24 → b ≠ 0x21 → k.frame = some f →
        let f1 := { f with bytes := f.bytes ++ [b] }
        (sentenceStep f1.bytes = .grow → f1.bytes.length < serMaxLen e → becomes { k1 with frame := some f1 }) ∧
        (sentenceStep f1.bytes = .complete → k.wait = none →
          becomes { k1 with wait := some { f1 with origin := localNow s }, frame := none, rx := .idle }) ∧
        (sentenceStep f1.bytes = .checksum →
          becomes (count 6 { k1 with frame := none, spoiled := false, rx := .idle })) ∧
        (sentenceStep f1.bytes = .format →
          becomes (count 7 { k1 with frame := none, spoiled := false, rx := .discarding }))))

/-- R375, R386, R388, R389, R397, R399, R403, R404, R427 to R429: idle lines, autobaud's wait, blinding, glitches,
the restart commands, and the hand-over of the oldest complete message to the board. -/
def Obligations.SerialLinesEvents : Prop :=
  (∀ (s : State) (c : Fin 24), Inv s → serReceives c s = true →
    let e := serEntry c s
    let k := serAt c s
    let count (i : Nat) (x : SerChan) : SerChan := { x with cnt := upd satInc x.cnt i }
    (serOver e ≠ 3 → ∃ t, exec (.serGlitch c) s = .next t ∧ Frame [.ser] s t ∧ ChannelIs c (count 4 k) s t) ∧
    (∀ f, k.frame = some f → k.lineIdle = false → k.rx ≠ .blinded →
      k.lastChar + halfChars (serIdleHct e) e k ≤ localNow s →
      (serIdleMode e = true → k.spoiled = false → k.wait = none →
        ∃ t, exec (.serLineIdle c) s = .next t ∧ Frame [.ser] s t ∧ ChannelIs c { k with
          lineIdle := true
          skipIdle := false
          wait := some { f with origin := localNow s }
          frame := none
          rx := .idle } s t) ∧
      (serIdleMode e = false →
        ∃ t, exec (.serLineIdle c) s = .next t ∧ Frame [.ser] s t ∧ ChannelIs c (count 9 { k with
          lineIdle := true
          skipIdle := false
          frame := none
          spoiled := false
          rx := .idle }) s t)) ∧
    (k.needIdle = true → k.lastChar + be16 e 22 * 250 ≤ localNow s →
      ∃ t, exec (.abrIdleExpiry c) s = .next t ∧ Frame [.ser] s t ∧ ChannelIs c { k with needIdle := false } s t) ∧
    (k.rx ≠ .blinded → ∃ t, exec (.serBlindEnter c) s = .next t ∧ Frame [.ser, .evt] s t ∧
      (serAt c t).rx = .blinded ∧ (serAt c t).frame = none ∧ nth 0 (serAt c t).cnt 10 = nth 0 (upd satInc k.cnt 10) 10 ∧
      (∀ d, d ≠ c.val → serAt d t = serAt d s) ∧ Reported .serBlind c (BitVec.ofNat 32 c) s t) ∧
    (k.rx = .blinded → serAbrMode e = 0 → ∃ t, exec (.serBlindExit c) s = .next t ∧ Frame [.ser] s t ∧
      ChannelIs c { k with rx := .idle, lineIdle := true } s t) ∧
    (coreAnswers s = true → s.pos.running = true → k.rx ≠ .blinded → serAbrMode e ≠ 0 →
      ∃ t, exec (.abrRestart c) s = .next t ∧ Frame [.ser] s t ∧ ChannelIs c { k with
        rx := .search
        locked := false
        errRun := 0
        frame := none
        spoiled := false
        needIdle := false } s t) ∧
    (coreAnswers s = true → k.rx = .receiving →
      ∃ t, exec (.rxRestart c) s = .next t ∧ Frame [.ser] s t ∧
        ChannelIs c { k with frame := none, spoiled := false, rx := .idle } s t)) ∧
  (∀ (s : State) (c : Nat) (m : SerMsg) (r : Route) (e : Nat), Inv s → fabricRuns s = true → s.pos.running = true →
    s.cls.seNext ≤ localNow s → c < 24 → (serAt c s).wait = some m →
    (∀ d, d ≠ c → ∀ x, (serAt d s).wait = some x → m.origin < x.origin) →
    let n := serialInbound c m s
    lookup n.key s = some r → resEnabled r.res = true → keptPorts n r s = [e] → e ≤ 8 → resFilter r.res = none →
    routeBound r.id s = none → messageClass n r s < 6 → (∀ k, k < 8 → pairMode k s = 0) →
    Roomy e (messageClass n r s) m.bytes.length s →
    ∃ t, exec .seHandover s = .next t ∧ Frame [.eth, .pairs, .ser, .cls, .rte] s t ∧
      ChannelIs c { serAt c s with wait := none, cnt := upd satInc (serAt c s).cnt 1 } s t ∧
      Sent .serial e (messageClass n r s) m.bytes t)

/-- R365, R406, R407, R414, R416, R417, R421: SER_TX_SELECT starts the head of the highest class that waits on a
free full-duplex channel; SER_TX_COMPLETE ends it and frees its copy; SER_DE_RELEASE releases SERn_DE; SER_COLLISION
counts, raises EVT_SER_COLLIDE and waits a random backoff, or discards the message after RETRY_MAX; SER_BACKOFF_END
sends it again; SER_SLOT_BOUNDARY moves the slot. -/
def Obligations.SerialChannelsTransmit : Prop :=
  (∀ (s : State) (c : Fin 24) (cl : Nat) (q : QEntry) (m : Msg) (rest : List QEntry) (ecc : EccAt), Inv s →
    serTransmits c s = true → (serAt c s).txSt = .idle → (serAt c s).tx = none → cl < 6 →
    (∀ d, cl < d → d < 6 → queueOf (64 + c) d s = []) → queueOf (64 + c) cl s = q :: rest →
    msgById q.msg s = some m → m.kind ≠ .tunnel → m.kind ≠ .serial → (pastBudget m s = false ∨ q.marked = true) →
    ecc.what = .ok →
    let e := serEntry c s
    let k := serAt c s
    serDuplex e = 0 → serSlottedE e = false → serData e = 8 →
    let at_ := startCycle c s
    ∃ t, exec (.serTxSelect c ecc) s = .next t ∧ Frame [.ser] s t ∧ queueOf (64 + c) cl t = rest ∧
      (serAt c t).txSt = .sending ∧ (serAt c t).deOn = false ∧ (serAt c t).tx = some {
        msg := m.id
        bytes := m.bytes
        marked := q.marked
        cls := BitVec.ofNat 3 cl
        startAt := at_
        endAt := at_ + ceilDiv (msgBits m.bytes.length e * serOver e * k.div) 64
        retries := 0
        rest := [] }) ∧
  (∀ (s : State) (c : Fin 24) (x : SerTx), Inv s → (serAt c s).tx = some x → (serAt c s).txSt = .sending →
    let e := serEntry c s
    let k := serAt c s
    let lag := bit16Cycles (u8 e 15) e k
    (x.endAt ≤ localNow s → x.rest = [] →
      ∃ t, exec (.serTxComplete c) s = .next t ∧ Frame [.ser, .cls] s t ∧ ChannelIs c { k with
        txEnd := x.endAt
        deUntil := if k.deOn then some (x.endAt + lag) else none
        tx := none
        txSt := .idle
        cnt := upd satInc k.cnt 13 } s t ∧
        (∀ m, msgById x.msg s = some m → m.refs ≤ 1 → ∀ y ∈ t.cls.msgs, y.id ≠ x.msg)) ∧
    (2 ≤ serDuplex e → serSlottedE e = false → x.retries < serRetryMax e →
      ∃ t, exec (.serCollision c) s = .next t ∧ Frame [.free, .ser, .evt] s t ∧ t.free = s.free + 1 ∧
        (serAt c t).txSt = .backoff ∧ (serAt c t).deOn = false ∧
        (serAt c t).tx = some { x with retries := x.retries + 1 } ∧
        nth 0 (serAt c t).cnt 14 = nth 0 (upd satInc k.cnt 14) 14 ∧
        (∃ n, 1 ≤ n ∧ n ≤ 16 ∧ (serAt c t).backoff = some (localNow s + halfChars (2 + 2 * n) e k)) ∧
        Reported .serCollide c (BitVec.ofNat 32 c) s t) ∧
    (2 ≤ serDuplex e → serRetryMax e ≤ x.retries → x.rest = [] →
      ∃ t, exec (.serCollision c) s = .next t ∧ Frame [.ser, .cls, .evt] s t ∧ (serAt c t).txSt = .idle ∧
        (serAt c t).tx = none ∧ nth 0 (serAt c t).cnt 15 = nth 0 (upd satInc k.cnt 15) 15 ∧
        pendSet (.ser 2) c t = true ∧ pendSet (.ser 3) c t = true)) ∧
  (∀ (s : State) (c : Fin 24) (d : Nat), Inv s → (serAt c s).deOn = true → (serAt c s).txSt ≠ .sending →
    (serAt c s).deUntil = some d → d ≤ localNow s →
    ∃ t, exec (.serDeRelease c) s = .next t ∧ Frame [.ser] s t ∧
      ChannelIs c { serAt c s with deOn := false, deUntil := none } s t) ∧
  (∀ (s : State) (c : Fin 24) (x : SerTx) (m : Msg) (d : Nat), Inv s → serTransmits c s = true →
    let e := serEntry c s
    let k := serAt c s
    k.tx = some x → k.txSt = .backoff → k.backoff = some d → d ≤ localNow s → k.rx ≠ .blinded →
    msgById x.msg s = some m → (pastBudget m s = false ∨ x.marked = true) → serData e = 8 → serSlottedE e = false →
    ∃ t, exec (.serBackoffEnd c) s = .next t ∧ Frame [.ser] s t ∧ ChannelIs c { k with
      txSt := .sending
      backoff := none
      deUntil := none
      deOn := usesDe e
      tx := some { x with
        startAt := startCycle c s
        endAt := startCycle c s + ceilDiv (msgBits x.bytes.length e * serOver e * k.div) 64 } } s t) ∧
  (∀ (s : State) (c : Fin 24) (off : Nat), Inv s → boardRuns s = true → serSlottedE (serEntry c s) = true →
    frameOffset 0 (serAt c s) s = some off → (serAt c s).txSt ≠ .slotWait →
    ∃ t, exec (.serSlotBoundary c) s = .next t ∧ Frame [.ser] s t ∧ ChannelIs c { serAt c s with
      slot := BitVec.ofNat 6 (min 63 (off / max 1 (serSlotLen (serEntry c s)))) } s t)

/-! ### Converters, publisher, Alignment engine (spec/08) -/

/-- R443, R448, R449, R464, R472, R484, R486, R487: SAMPLE_AVAILABLE puts the sample into the group's mailbox with
the next SEQ; MU_FRAME_HANDOVER hands the oldest SV frame to the board and counts it; CNV_REF_FAULT and
REF_FAULT_CLEAR set and clear the reference fault; ALN_WINDOW_END counts a sample that has not come; ALN_ROW_DUE
writes the row with the next SEQ to its slot of the ring. -/
def Obligations.MeasurementRuns : Prop :=
  (∀ (s : State) (b : Bool) (x : CnvSample) (rest : List CnvSample), (cnvGroup b s).waiting = x :: rest →
    x.due ≤ localNow s → x.raw.length = 4 → x.ovl = [false, false, false, false] →
    (∀ c, c < 4 → flagAt (convEntry b s) 8 c = false) → (∀ st, flagAt (pubEntry st s) 0 0 = false) →
    ∃ t, exec (.sampleAvailable b) s = .next t ∧ Frame [.free, .cnv] s t ∧ (cnvGroup b t).waiting = rest ∧
      (cnvGroup (!b) t) = cnvGroup (!b) s ∧
      (cnvGroup b t).box = {
        valid := true
        seq := (cnvGroup b s).box.seq + 1
        secs := x.secs.setWidth 32
        tq := x.tq
        ns := x.ns
        values := x.raw
        flags := BitVec.ofNat 16 ((if x.refFault then 0x4444 else 0) + (if x.settling then 0x8888 else 0)) }) ∧
  (∀ (s : State) (b : Bool) (f : MuFrame) (fs : List MuFrame) (r : Route) (e : Nat), Inv s → boardRuns s = true →
    (muStream b s).ready = f :: fs →
    let n := muInbound b f s
    lookup n.key s = some r → resEnabled r.res = true → keptPorts n r s = [e] → e ≤ 8 → resFilter r.res = none →
    routeBound r.id s = none → messageClass n r s < 6 → (∀ k, k < 8 → pairMode k s = 0) →
    Roomy e (messageClass n r s) f.bytes.length s →
    ∃ t, exec (.muFrameHandover b) s = .next t ∧ Frame [.eth, .pairs, .cnv, .cls, .rte] s t ∧
      muStream b t = { muStream b s with
        ready := fs
        frames := satInc (muStream b s).frames
        lastCnt := f.smpCnt } ∧ Sent .mu e (messageClass n r s) f.bytes t) ∧
  (∀ s : State, coreUp s = true → s.cnv.refFault = false → ∃ t, exec .cnvRefFault s = .next t ∧ Frame [.cnv, .evt] s t ∧
    t.cnv = { s.cnv with refFault := true, int := t.cnv.int } ∧ Reported .cnvRefFault 0 0 s t) ∧
  (∀ s : State, exec .refFaultClear s = .next { s with cnv := { s.cnv with refFault := false } }) ∧
  (∀ (s : State) (i : Fin 16) (k : Nat), Inv s → boardRuns s = true → alnEnabled i s = true →
    let e := alnEntry i s
    let u := nth .reset s.aln.subs i
    alnWindowNs e < devNs s → u.judged = some k → k < lastEnded e (devNs s) →
    ∃ t, exec (.alnWindowEnd i) s = .next t ∧ Frame [.aln] s t ∧ nth .reset t.aln.subs i = { u with
      judged := some (k + 1)
      missing := if u.held.any (fun x => x.sec * max 1 (alnRate e) + x.smpCnt == k + 1) then u.missing
        else satInc u.missing }) ∧
  (∀ (s : State) (r : AlnRow) (rest : List AlnRow), Inv s → boardRuns s = true → s.aln.rows = r :: rest →
    r.due ≤ localNow s → (∀ i, lookup (internalKey 12 0 i) s = none) →
    let row := ringRow (s.aln.seq + 1).toNat r ((alnActive s).map (fun i => (i, subOutputs i r s)))
    let slot := s.aln.seq.toNat % max 1 (alnRingRows s)
    let at_ := alnRingBase s + slot * (ceilDiv row.length 64 * 64)
    ∃ t, exec .alnRowDue s = .next t ∧ Frame [.free, .aln, .cls, .mem, .evt] s t ∧ t.aln.seq = s.aln.seq + 1 ∧
      t.aln.rows = rest ∧ t.aln.lastValid = true ∧ t.aln.lastSlot = BitVec.ofNat 6 slot ∧
      Memory.getAll t.mem.shared at_ row.length = row ∧ SharedBut at_ row.length s t)

/-! ### Live edits of the routing table (spec/09) -/

/-- R547: a write of word 0 fills the requester's edit buffer with the current words and stores the word, writes of
words 1 to 4 go into it while it is loaded for the entry, and word 5 applies the six words to the entry where the
edit is allowed and empties the buffer; a write of a later word for another entry, or any while edits are not
accepted, changes nothing. -/
def Obligations.EditsReplaceRoutes : Prop :=
  ∀ (s : State) (idx : Nat) (k : Fin 4) (val : Word) (frame : Bool), coreAnswers s = true →
    let i := idx % 4096
    let b0 : EditBuf := { idx := i, words := upd (fun _ => val &&& editMask 0) (entryWords i s) 0 }
    (editsAccepted s = false → exec (.rteEditWord0 idx val frame) s = .next s ∧
      exec (.rteEditWordMid idx k val frame) s = .next s ∧ exec (.rteEditWord5 idx val frame) s = .next s) ∧
    (editsAccepted s = true →
      (∃ t, exec (.rteEditWord0 idx val frame) s = .next t ∧ Frame [.rte] s t ∧ editBuf frame t = some b0 ∧
        editBuf (!frame) t = editBuf (!frame) s ∧ t.rte.edits = s.rte.edits) ∧
      ((∀ b, editBuf frame s = some b → b.idx ≠ i) →
        exec (.rteEditWordMid idx k val frame) s = .next s ∧ exec (.rteEditWord5 idx val frame) s = .next s) ∧
      (∀ b, editBuf frame s = some b → b.idx = i →
        (∃ t, exec (.rteEditWordMid idx k val frame) s = .next t ∧ Frame [.rte] s t ∧
          editBuf frame t = some { b with words := upd (fun _ => val &&& editMask (k + 1)) b.words (k + 1) } ∧
          editBuf (!frame) t = editBuf (!frame) s ∧ t.rte.edits = s.rte.edits) ∧
        (∃ t, exec (.rteEditWord5 idx val frame) s = .next t ∧ Frame [.rte] s t ∧ editBuf frame t = none ∧
          editBuf (!frame) t = editBuf (!frame) s ∧
          let new := (upd (fun _ => val &&& editMask 5) b.words 5).flatMap (fun w => toBE 4 w.toNat)
          (editAllowed i new s = true → resultOf i t = new ∧ ∀ j, j ≠ i → resultOf j t = resultOf j s) ∧
          (editAllowed i new s = false → t.rte.edits = s.rte.edits))))

/-! ### Arbiter and GOOSE (spec/11) -/

/-- R606, R624 to R626, R632, R642, R649: ARB_OUT_CMD places the requester's order with its rank, or sets CMD_ERR;
ARB_VAR_WRITE joins the queue of 16; ARB_APPLY at A makes the cycle's outputs those of the machine and its balls,
keeps the variables as of A, and carries out a class action; GOOSE_RETRANSMIT sends the held state with the next
sqNum and doubles the interval; GOOSE_TAL_EXPIRY makes the block LOST with EVT_ARB_GOOSE_LOST. -/
def Obligations.ArbiterActs : Prop :=
  (∀ (s : State) (val : Word) (frame : Bool), coreAnswers s = true →
    let out := fld val 9 0
    let o : Order := { output := out, value := val.getLsbD 16, rank := if frame then frameRank s else hostRank s }
    ∃ t, exec (.arbOutCmd val frame) s = .next t ∧ Frame [.arb] s t ∧ t.arb =
      if outputExists out s = false then { s.arb with cmdErr := true }
      else if frame then { s.arb with ordersFrame := s.arb.ordersFrame.filter (fun x => x.output != out) ++ [o] }
      else { s.arb with ordersSpi := s.arb.ordersSpi.filter (fun x => x.output != out) ++ [o] }) ∧
  (∀ (s : State) (v : Fin 2048) (val : Word) (frame : Bool), coreAnswers s = true →
    ∃ t, exec (.arbVarWrite v val frame) s = .next t ∧ Frame [.arb] s t ∧ t.arb =
      if s.arb.varQueue.length < 16 then { s.arb with varQueue := s.arb.varQueue ++ [(v.val, val.toInt)] } else s.arb) ∧
  (∀ (s : State) (c : ArbCycle), fabricRuns s = true → s.arb.cyc = some c → c.applyAt ≤ localNow s →
    s.pos.fallbackApplied = false → cardCount s = 0 → s.pos.awaitFirstCycle = false →
    (∀ b, b < 32 → pubChanged b s = false) →
    let drives := (List.range 16).map (fun i =>
      if gpioIsOutput i s then (if nth false c.outs i then PinDrive.high else .low) else .hiZ)
    (c.acts = [] ∨ ∃ a, c.acts = [a] ∧ a.code = 4) →
    ∃ t, exec .arbApply s = .next t ∧ Frame [.arb, .gpio, .rte] s t ∧ t.arb.outs = c.outs ∧ t.arb.cyc = none ∧
      t.gpio = drives ∧ t.arb.vars = s.arb.vars ∧ t.arb.varsAtA = s.arb.vars ∧
      t.rte = { s.rte with clsOver := c.acts.foldl (fun l a => putAssoc a.target (BitVec.ofNat 3 a.p) l) s.rte.clsOver }) ∧
  (∀ (s : State) (b : Fin 32) (d : Nat) (r : Route) (e : Nat), Inv s → boardRuns s = true → pubEnabled b s = true →
    (pubAt b s).held.isSome = true → (pubAt b s).due = some d → d ≤ localNow s →
    let p1 : GoosePub := { pubAt b s with
      sqNum := if (pubAt b s).sqNum = BitVec.allOnes 32 then 1 else (pubAt b s).sqNum + 1
      k := (pubAt b s).k + 1 }
    let bytes := gooseFrame b (updPub b (fun _ => p1) s)
    let m := internalMsg .goose 11 0 b bytes 0x88B8 (tplTagMode (templateEntry (be16 (goosePubEntry b s) 2) s) == 2) s
    lookup m.key s = some r → resEnabled r.res = true → keptPorts m r s = [e] → e ≤ 8 → resFilter r.res = none →
    routeBound r.id s = none → messageClass m r s < 6 → (∀ k, k < 8 → pairMode k s = 0) →
    Roomy e (messageClass m r s) bytes.length s →
    ∃ t, exec (.gooseRetransmit b) s = .next t ∧ Frame [.eth, .pairs, .arb, .cls, .rte] s t ∧
      pubAt b t = { p1 with
        txCnt := satInc p1.txCnt
        due := some (localNow s + pubInterval (goosePubEntry b s) p1.k * 250000) } ∧
      Sent .goose e (messageClass m r s) bytes t) ∧
  (∀ (s : State) (b : Fin 128), Inv s → boardRuns s = true → (subAt b s).st = .valid →
    (subAt b s).talDue ≤ localNow s →
    ∃ t, exec (.gooseTalExpiry b) s = .next t ∧ Frame [.arb, .evt] s t ∧
      subAt b t = { subAt b s with st := .lost, safe := flagAt (gooseSubEntry b s) 0 2 } ∧
      (∀ d, d ≠ b.val → subAt d t = subAt d s) ∧ Reported .arbGooseLost 0 (BitVec.ofNat 32 b) s t)

/-! ### Expansion bridge (spec/12) -/

/-- R86, R664, R665, R673, R674, R686, R693, R716: the idle bus starts the oldest request 8 cycles after it has
joined; a burst that ends gives its bytes and the next follows; the last one of an SPI far read completes the pickup
slot with its words and its orphan deadline; a card error, a timeout or the card's removal ends it with ERR, TIMEOUT
or REMOVED. -/
def Obligations.BridgeServesReads : Prop :=
  (∀ (s : State) (r : XbReq) (rs : List XbReq) (b : Nat × Nat × Bool) (bs : List (Nat × Nat × Bool)),
    cardBusRuns s = true → s.xb.cur = none → s.xb.queue = r :: rs → servable r s = true → r.joined + 8 ≤ localNow s →
    reachable r s = true → burstsOf r = b :: bs →
    exec .xbTransactionStart s = .next { s with xb := { s.xb with
      queue := rs
      cur := some { req := r, todo := bs, burst := some b, got := [], pre := [] } } }) ∧
  (∀ (s : State) (c : XbCur) (a len : Nat) (d : List Byte), Inv s → s.xb.cur = some c → c.burst = some (a, len, false) →
    c.req.write = false → d.length = len →
    (∀ x y bs, c.todo = (x, y, false) :: bs → exec (.xbTransactionEnd d) s =
      .next { s with xb := { s.xb with cur := some { c with burst := none, got := c.got ++ d } } }) ∧
    (∀ i, c.todo = [] → c.req.posted = false → c.req.dest = .pickup i → i < 4 → BridgeCalm s →
      let us := if s.xb.orphanUs = 0 then 1 else s.xb.orphanUs.toNat
      ∃ t, exec (.xbTransactionEnd d) s = .next t ∧ Frame [.glb, .mgt, .xb] s t ∧ t.xb = { s.xb with cur := none } ∧
        t.glb.mgtInt.getLsbD 0 = true ∧ nth .empty t.mgt.pick i = { nth .empty s.mgt.pick i with
          st := .done
          code := 0
          data := bytesWords (c.req.len / 4) (swapBytes c.req.swap (c.got ++ d))
          deadline := some (localNow s + us * 250) } ∧
        ∀ j, j ≠ i → nth .empty t.mgt.pick j = nth .empty s.mgt.pick j)) ∧
  (∀ (s : State) (c : XbCur) (a len i k : Nat), Inv s → s.xb.cur = some c → c.burst = some (a, len, false) →
    c.req.posted = false → c.req.dest = .pickup i → i < 4 → c.req.slot < 8 → BridgeCalm s →
    let failed (code : Nat) (t : State) : Prop :=
      nth .empty t.mgt.pick i = { nth .empty s.mgt.pick i with
        st := .error
        code := BitVec.ofNat 8 code
        data := []
        deadline := none } ∧ t.glb.mgtInt.getLsbD 0 = true ∧ t.xb.cur = none ∧
      (xbSlot c.req.slot t).errCnt = satInc (xbSlot c.req.slot s).errCnt
    (∃ t, exec (.xbCardErr k) s = .next t ∧ Frame [.glb, .mgt, .xb] s t ∧ failed 2 t ∧
      (xbSlot c.req.slot t).timeoutCnt = (xbSlot c.req.slot s).timeoutCnt) ∧
    (∃ t, exec (.xbBeatTimeout k) s = .next t ∧ Frame [.glb, .mgt, .xb] s t ∧ failed 1 t ∧
      (xbSlot c.req.slot t).timeoutCnt = satInc (xbSlot c.req.slot s).timeoutCnt) ∧
    (s.xb.queue = [] → (xbSlot c.req.slot s).st = .present →
      ∃ t, exec (.xbCardRemoved k) s = .next t ∧ Frame [.glb, .mgt, .xb, .evt] s t ∧ failed 5 t ∧
        (xbSlot c.req.slot t).st = .absent ∧ pendSet (.xb 1) 0 t = true))

/-- R691, R700, R702, R703, R708, R711 to R713, R715: scans end, card interrupts and polls queue their reads, a card
inserted is queued and enumerated, ENUMERATE queues it again, and INVALIDATE_PREFETCH empties the buffers. -/
def Obligations.BridgeWatchesSlots : Prop :=
  (∀ (s : State) (k : XbScan), s.xb.scan = some k → k.left = [] → k.open_ = 0 → exec .xbScanComplete s =
    .next { s with xb := { s.xb with scan := none, scanErr := k.err, scanSeq := s.xb.scanSeq + 1 } }) ∧
  (∀ (s : State) (i : Fin 8), Inv s →
    let k := xbSlot i s
    let asks (addr len : Nat) (dest : XbDest) : List XbReq :=
      s.xb.queue ++ [{ bareReq 5 i addr len dest with id := s.xb.nextId, joined := localNow s }]
    (∀ age, boardRuns s = true → slotIntMode i s = 1 → slotPresent i s = true → k.ann = none →
      ∃ t, exec (.xbIntAssert i age) s = .next t ∧ Frame [.xb] s t ∧
        t.xb.queue = asks (announceAddr i s) (announceLen i s) .announce ∧ xbSlot i t = { k with
          intLow := true
          intCnt := satInc k.intCnt
          ann := some { instant := stampAgo age s, origin := localNow s, more := none } }) ∧
    (boardRuns s = true → slotIntMode i s = 2 → slotPresent i s = true → k.pollDue ≤ localNow s →
      ∃ t, exec (.xbPoll i) s = .next t ∧ Frame [.xb] s t ∧ t.xb.queue = asks (slotPollAddr i s) 2 .poll ∧
        xbSlot i t = { k with pollDue := localNow s + slotPollUs i s * 250 }) ∧
    (presenceSampled s = true → k.st = .absent →
      (∃ t, exec (.xbPresenceDebounced i true) s = .next t ∧ Frame [.xb] s t ∧
        xbSlot i t = { k with prs := true, prsDeb := true, st := .queued } ∧
        t.xb.enumOrder = s.xb.enumOrder ++ [i.val]) ∧
      (∃ t, exec (.xbPresenceDebounced i false) s = .next t ∧ Frame [.xb] s t ∧
        xbSlot i t = { k with prs := false, prsDeb := false })) ∧
    (∀ is, boardRuns s = true → (∀ x ∈ s.xb.slots, x.st ≠ .enumerating) → s.xb.enumOrder = i.val :: is →
      ∃ t, exec .xbEnumerateStart s = .next t ∧ Frame [.xb] s t ∧ xbSlot i t = { k with st := .enumerating } ∧
        t.xb.enumOrder = is ∧ t.xb.queue = asks 0 32 .ident) ∧
    (coreAnswers s = true →
      (k.st = .present ∨ k.st = .idErr → ∃ t, exec (.enumerate i) s = .next t ∧ Frame [.xb] s t ∧
        xbSlot i t = { k with st := .queued } ∧ t.xb.enumOrder = s.xb.enumOrder ++ [i.val] ∧
        t.xb.bufs = s.xb.bufs.filter (fun b => b.slot != i.val)) ∧
      (k.st ≠ .present → k.st ≠ .idErr →
        exec (.enumerate i) s = .next { s with xb := { s.xb with cmdErr := true } }))) ∧
  (∀ s : State, coreAnswers s = true →
    exec .invalidatePrefetch s = .next { s with xb := { s.xb with bufs := [] } })
end

