-- ==== Sys2Proof/Laws/Memory.lean ====
section
/-!
SUPPORT. Laws of the shared region: reading after writing, and the canonical form that every memory operation keeps.
-/

namespace Sys2Proof.Laws

open Sys2Proof.Machine

/-- A canonical list from a higher limit on is canonical from a lower one on. -/
theorem Memory_wfFrom_mono {m : Memory} {n k : Nat} (h : Memory.wfFrom n m = true) (hk : k ≤ n) :
    Memory.wfFrom k m = true := by
  cases m with
  | nil => rfl
  | cons c m =>
    obtain ⟨a, v⟩ := c
    simp only [Memory.wfFrom, Bool.and_eq_true, decide_eq_true_eq] at h ⊢
    exact ⟨⟨by omega, h.1.2⟩, h.2⟩

/-- A store keeps the canonical form. -/
theorem Memory_put_wfFrom {m : Memory} {n a : Nat} {v : Byte} (h : Memory.wfFrom n m = true) (ha : n ≤ a) :
    Memory.wfFrom n (Memory.put m a v) = true := by
  induction m generalizing n with
  | nil =>
    unfold Memory.put
    split
    · rfl
    · rename_i hv
      simp only [Memory.wfFrom, Bool.and_eq_true, decide_eq_true_eq]
      exact ⟨⟨ha, hv⟩, trivial⟩
  | cons c m ih =>
    obtain ⟨b, w⟩ := c
    simp only [Memory.wfFrom, Bool.and_eq_true, decide_eq_true_eq] at h
    obtain ⟨⟨hb, hw⟩, hm⟩ := h
    unfold Memory.put
    split
    · split
      · simp only [Memory.wfFrom, Bool.and_eq_true, decide_eq_true_eq]
        exact ⟨⟨hb, hw⟩, hm⟩
      · rename_i hv
        simp only [Memory.wfFrom, Bool.and_eq_true, decide_eq_true_eq]
        exact ⟨⟨ha, hv⟩, ⟨by omega, hw⟩, hm⟩
    · split
      · split
        · exact Memory_wfFrom_mono hm (by omega)
        · rename_i hv
          simp only [Memory.wfFrom, Bool.and_eq_true, decide_eq_true_eq]
          exact ⟨⟨ha, hv⟩, by subst_vars; exact hm⟩
      · simp only [Memory.wfFrom, Bool.and_eq_true, decide_eq_true_eq]
        exact ⟨⟨hb, hw⟩, ih hm (by omega)⟩

theorem Memory_put_wf {m : Memory} {a : Nat} {v : Byte} (h : Memory.wf m = true) :
    Memory.wf (Memory.put m a v) = true := Memory_put_wfFrom h (Nat.zero_le a)

/-- Storing several bytes keeps the canonical form. -/
theorem Memory_putAll_wf {m : Memory} {a : Nat} {vs : List Byte} (h : Memory.wf m = true) :
    Memory.wf (Memory.putAll m a vs) = true := by
  induction vs generalizing m a with
  | nil => exact h
  | cons v vs ih => exact ih (Memory_put_wf h)

/-- A list that starts above an offset reads zero there. -/
theorem Memory_get_below {m : Memory} {n a : Nat} (h : Memory.wfFrom n m = true) (ha : a < n) :
    Memory.get m a = 0 := by
  induction m generalizing n with
  | nil => rfl
  | cons c m ih =>
    obtain ⟨b, w⟩ := c
    simp only [Memory.wfFrom, Bool.and_eq_true, decide_eq_true_eq] at h
    have : a ≠ b := by omega
    simp only [Memory.get, this, if_false]
    exact ih h.2 (by omega)

/-- A byte reads as it was written. -/
theorem Memory_get_put_same {m : Memory} {n a : Nat} {v : Byte} (h : Memory.wfFrom n m = true) :
    Memory.get (Memory.put m a v) a = v := by
  induction m generalizing n with
  | nil =>
    unfold Memory.put
    split
    · rename_i hv
      exact hv.symm
    · simp [Memory.get]
  | cons c m ih =>
    obtain ⟨b, w⟩ := c
    simp only [Memory.wfFrom, Bool.and_eq_true, decide_eq_true_eq] at h
    unfold Memory.put
    split
    · rename_i hab
      split
      · rename_i hv
        have : a ≠ b := by omega
        simp only [Memory.get, this, if_false, hv]
        exact Memory_get_below h.2 (by omega)
      · simp [Memory.get]
    · split
      · rename_i hab
        split
        · rename_i hv
          rw [hv]
          exact Memory_get_below h.2 (by omega)
        · simp [Memory.get]
      · rename_i hab
        simp only [Memory.get, hab, if_false]
        exact ih h.2

/-- A store leaves every other byte as it was. -/
theorem Memory_get_put_other {m : Memory} {a b : Nat} {v : Byte} (hb : b ≠ a) :
    Memory.get (Memory.put m a v) b = Memory.get m b := by
  induction m with
  | nil =>
    unfold Memory.put
    split
    · rfl
    · simp [Memory.get, hb]
  | cons c m ih =>
    obtain ⟨k, w⟩ := c
    unfold Memory.put
    split
    · split
      · rfl
      · simp [Memory.get, hb]
    · split
      · rename_i hk
        subst hk
        split <;> simp [Memory.get, hb]
      · simp only [Memory.get]
        split
        · rfl
        · exact ih

/-- A byte outside the stored ones is as it was. -/
theorem Memory_get_putAll_other {m : Memory} {a b : Nat} {vs : List Byte} (hb : b < a ∨ a + vs.length ≤ b) :
    Memory.get (Memory.putAll m a vs) b = Memory.get m b := by
  induction vs generalizing m a with
  | nil => rfl
  | cons v vs ih =>
    simp only [List.length_cons] at hb
    rw [Memory.putAll, ih (by omega), Memory_get_put_other (by omega)]

/-- Stored bytes read back as they were written. -/
theorem Memory_getAll_putAll {m : Memory} {a : Nat} {vs : List Byte} (h : Memory.wf m = true) :
    Memory.getAll (Memory.putAll m a vs) a vs.length = vs := by
  induction vs generalizing m a with
  | nil => rfl
  | cons v vs ih =>
    simp only [Memory.putAll, List.length_cons, Memory.getAll]
    rw [ih (Memory_put_wf h), Memory_get_putAll_other (Or.inl (Nat.lt_succ_self a)), Memory_get_put_same h]

/-- A read of bytes that lie apart from the stored ones gives what it gave before. -/
theorem Memory_getAll_putAll_other {m : Memory} {a b n : Nat} {vs : List Byte}
    (hb : b + n ≤ a ∨ a + vs.length ≤ b) :
    Memory.getAll (Memory.putAll m a vs) b n = Memory.getAll m b n := by
  induction n generalizing b with
  | zero => rfl
  | succ n ih =>
    simp only [Memory.getAll]
    rw [ih (by omega), Memory_get_putAll_other (by omega)]

end Sys2Proof.Laws
end

