-- ==== Sys2Proof/Laws/Keeps.lean ====
section
/-!
SUPPORT. What every operation of the machine keeps, said once: the queue of commands, the counter of free
values never going back, the canonical form of the shared region, the bounds of the event queue, the held access
frames, the write-error log and the marked rows, and LOCKED OTP units.
-/

namespace Sys2Proof.Laws

open Sys2Proof.Machine Sys2Proof.Safety

/-- What `Keeps` says, of a state that came from `b`: the sizes, the queue, the free values, the memory and the bounds;
LOCKED units are unchanged, units that count still count, and the running command still fits its unit. -/
structure KeepsFields (b : State) (p : List Instr) (free : Nat) (sh : Memory) (q : List EvEntry) (held : List AccReq)
    (werr : List XbWerr) (marks : List RowId) (otp : List OtpUnit) (run : Option SecRun) (sz : List Nat)
    (eth : List EthPort) (ser : List SerChan) (ns : BitVec 30) (sub : Nat) (addend : BitVec 64) (slew : Option Slew) :
    Prop where
  size : sizes b = shape → sz = shape
  pend : p = b.pending
  free : b.free ≤ free
  wf : Memory.wf b.mem.shared = true → Memory.wf sh = true
  queue : b.evt.queue.length ≤ 64 → q.length ≤ 64
  held : b.hp.held.length ≤ 2 → held.length ≤ 2
  werr : b.xb.werr.length ≤ 8 → werr.length ≤ 8
  marks : b.mem.marks.length ≤ 16 → marks.length ≤ 16
  lock : ∀ u, Sealed u b → nth .blank otp u = nth .blank b.sec.otp u ∧ ∀ r, run = some r → r.unitAddr ≠ u
  cnt : ∀ u, Counted u b → ((nth .blank otp u).st = .committed ∨ (nth .blank otp u).st = .locked) ∧
    ∀ r, run = some r → r.cmd = .lock ∨ r.unitAddr ≠ u
  fits : RunFits b → ∀ r, run = some r →
    r.cmd = .lock ∨ ((nth .blank otp r.unitAddr).st ≠ .committed ∧ (nth .blank otp r.unitAddr).st ≠ .locked)
  ports : (∀ k ∈ b.eth, PortOk k) → ∀ k ∈ eth, PortOk k
  chans : (∀ k ∈ b.ser, ChanOk k) → ∀ k ∈ ser, ChanOk k
  time : TimeFits b.tmb.ns b.tmb.sub b.tmb.addend b.tmb.slew → TimeFits ns sub addend slew

/-- State `s` came from `b` by operations that keep what this file lists. -/
def Keeps (b s : State) : Prop :=
  KeepsFields b s.pending s.free s.mem.shared s.evt.queue s.hp.held s.xb.werr s.mem.marks s.sec.otp s.sec.run (sizes s)
    s.eth s.ser s.tmb.ns s.tmb.sub s.tmb.addend s.tmb.slew

@[simp] theorem reset_eth_length : State.reset.eth.length = 9 := by decide

@[simp] theorem reset_pairs_length : State.reset.pairs.length = 4 := by decide

@[simp] theorem reset_ser_length : State.reset.ser.length = 24 := by decide

@[simp] theorem reset_tmb_cmps_length : State.reset.tmb.cmps.length = 16 := by decide

@[simp] theorem reset_tmb_caps_length : State.reset.tmb.caps.length = 8 := by decide

@[simp] theorem reset_tmb_ppso_length : State.reset.tmb.ppso.length = 4 := by decide

@[simp] theorem reset_ptp_ports_length : State.reset.ptp.ports.length = 8 := by decide

@[simp] theorem reset_mgt_pick_length : State.reset.mgt.pick.length = 4 := by decide

@[simp] theorem reset_xb_slots_length : State.reset.xb.slots.length = 8 := by decide

@[simp] theorem reset_gpio_length : State.reset.gpio.length = 16 := by decide

@[simp] theorem reset_mem_spares_length : State.reset.mem.spares.length = 37 := by decide

@[simp] theorem reset_aln_subs_length : State.reset.aln.subs.length = 16 := by decide

@[simp] theorem reset_arb_pubs_length : State.reset.arb.pubs.length = 32 := by decide

@[simp] theorem reset_arb_subs_length : State.reset.arb.subs.length = 128 := by
  show (List.replicate 128 _).length = 128
  exact List.length_replicate

@[simp] theorem reset_otp_length : State.reset.sec.otp.length = 224 := by
  show (_ ++ List.replicate 222 OtpUnit.blank).length = 224
  rw [List.length_append, List.length_replicate]
  rfl

/-- How long the lists of the state are after reset. -/
theorem reset_sizes : sizes State.reset = shape := by simp [sizes, shape]

@[simp] theorem mgtReset_pick_length : MgtBlk.reset.pick.length = 4 := by decide

@[simp] theorem xbReset_slots_length : XbBlk.reset.slots.length = 8 := by decide

@[simp] theorem memReset_spares_length : MemBlk.reset.spares.length = 37 := by decide

theorem otpEffective_iff {u : Nat} {s : State} : otpEffective u s = true ↔
    ((nth .blank s.sec.otp u).st = .committed ∨ (nth .blank s.sec.otp u).st = .locked) := by
  simp [otpEffective, otpUnit]

theorem otpEffective_not {u : Nat} {s : State} : otpEffective u s = false ↔
    ((nth .blank s.sec.otp u).st ≠ .committed ∧ (nth .blank s.sec.otp u).st ≠ .locked) := by
  simp [otpEffective, otpUnit]

theorem Keeps_refl (b : State) : Keeps b b :=
  ⟨id, rfl, Nat.le_refl _, id, id, id, id, id, fun _ h => ⟨rfl, h.2⟩, fun _ h => ⟨otpEffective_iff.1 h.1, h.2⟩,
    fun h r hr => (h r hr).imp id otpEffective_not.1, id, id, id⟩

/-- A record of blocks keeps what its fields keep. -/
theorem Keeps_mk {b : State} {pending : List Instr} {free : Nat} {glb : GlbBlk} {mgt : MgtBlk} {pos : PosBlk}
    {tmb : TmbBlk} {ptp : PtpBlk} {eth : List EthPort} {pairs : List EthPair} {hp : HpBlk} {ser : List SerChan}
    {cnv : CnvBlk} {aln : AlnBlk} {rte : RteBlk} {cls : ClsBlk} {arb : ArbBlk} {gpio : List PinDrive} {xb : XbBlk}
    {mem : MemBlk} {pwr : PwrBlk} {therm : ThermBlk} {sec : SecBlk} {evt : EvtBlk} {jtag : JtagBlk} :
    Keeps b (State.mk pending free glb mgt pos tmb ptp eth pairs hp ser cnv aln rte cls arb gpio xb mem pwr therm sec
      evt jtag) ↔
    KeepsFields b pending free mem.shared evt.queue hp.held xb.werr mem.marks sec.otp sec.run
      [eth.length, pairs.length, ser.length, tmb.cmps.length, tmb.caps.length, tmb.ppso.length,
        ptp.ports.length, mgt.pick.length, xb.slots.length, gpio.length, sec.otp.length, mem.spares.length,
        aln.subs.length, arb.pubs.length, arb.subs.length] eth ser tmb.ns tmb.sub tmb.addend tmb.slew := Iff.rfl

theorem Keeps_fold {b s : State} (h : Keeps b s) :
    KeepsFields b s.pending s.free s.mem.shared s.evt.queue s.hp.held s.xb.werr s.mem.marks s.sec.otp s.sec.run
      [s.eth.length, s.pairs.length, s.ser.length, s.tmb.cmps.length, s.tmb.caps.length, s.tmb.ppso.length,
        s.ptp.ports.length, s.mgt.pick.length, s.xb.slots.length, s.gpio.length, s.sec.otp.length,
        s.mem.spares.length, s.aln.subs.length, s.arb.pubs.length, s.arb.subs.length] s.eth s.ser s.tmb.ns s.tmb.sub s.tmb.addend s.tmb.slew := h

theorem Keeps_free {b s : State} (h : Keeps b s) {n : Nat} (hn : s.free ≤ n) :
    KeepsFields b s.pending n s.mem.shared s.evt.queue s.hp.held s.xb.werr s.mem.marks s.sec.otp s.sec.run
      [s.eth.length, s.pairs.length, s.ser.length, s.tmb.cmps.length, s.tmb.caps.length, s.tmb.ppso.length,
        s.ptp.ports.length, s.mgt.pick.length, s.xb.slots.length, s.gpio.length, s.sec.otp.length,
        s.mem.spares.length, s.aln.subs.length, s.arb.pubs.length, s.arb.subs.length] s.eth s.ser s.tmb.ns s.tmb.sub s.tmb.addend s.tmb.slew :=
  { h with free := Nat.le_trans h.free hn }

theorem Keeps_shared {b s : State} (h : Keeps b s) {m : Memory}
    (hm : Memory.wf s.mem.shared = true → Memory.wf m = true) :
    KeepsFields b s.pending s.free m s.evt.queue s.hp.held s.xb.werr s.mem.marks s.sec.otp s.sec.run
      [s.eth.length, s.pairs.length, s.ser.length, s.tmb.cmps.length, s.tmb.caps.length, s.tmb.ppso.length,
        s.ptp.ports.length, s.mgt.pick.length, s.xb.slots.length, s.gpio.length, s.sec.otp.length,
        s.mem.spares.length, s.aln.subs.length, s.arb.pubs.length, s.arb.subs.length] s.eth s.ser s.tmb.ns s.tmb.sub s.tmb.addend s.tmb.slew :=
  { h with wf := fun k => hm (h.wf k) }

theorem Keeps_queue {b s : State} (h : Keeps b s) {q : List EvEntry}
    (hq : s.evt.queue.length ≤ 64 → q.length ≤ 64) :
    KeepsFields b s.pending s.free s.mem.shared q s.hp.held s.xb.werr s.mem.marks s.sec.otp s.sec.run
      [s.eth.length, s.pairs.length, s.ser.length, s.tmb.cmps.length, s.tmb.caps.length, s.tmb.ppso.length,
        s.ptp.ports.length, s.mgt.pick.length, s.xb.slots.length, s.gpio.length, s.sec.otp.length,
        s.mem.spares.length, s.aln.subs.length, s.arb.pubs.length, s.arb.subs.length] s.eth s.ser s.tmb.ns s.tmb.sub s.tmb.addend s.tmb.slew :=
  { h with queue := fun k => hq (h.queue k) }

theorem Keeps_held {b s : State} (h : Keeps b s) {l : List AccReq}
    (hl : s.hp.held.length ≤ 2 → l.length ≤ 2) :
    KeepsFields b s.pending s.free s.mem.shared s.evt.queue l s.xb.werr s.mem.marks s.sec.otp s.sec.run
      [s.eth.length, s.pairs.length, s.ser.length, s.tmb.cmps.length, s.tmb.caps.length, s.tmb.ppso.length,
        s.ptp.ports.length, s.mgt.pick.length, s.xb.slots.length, s.gpio.length, s.sec.otp.length,
        s.mem.spares.length, s.aln.subs.length, s.arb.pubs.length, s.arb.subs.length] s.eth s.ser s.tmb.ns s.tmb.sub s.tmb.addend s.tmb.slew :=
  { h with held := fun k => hl (h.held k) }

theorem Keeps_werr {b s : State} (h : Keeps b s) {l : List XbWerr}
    (hl : s.xb.werr.length ≤ 8 → l.length ≤ 8) :
    KeepsFields b s.pending s.free s.mem.shared s.evt.queue s.hp.held l s.mem.marks s.sec.otp s.sec.run
      [s.eth.length, s.pairs.length, s.ser.length, s.tmb.cmps.length, s.tmb.caps.length, s.tmb.ppso.length,
        s.ptp.ports.length, s.mgt.pick.length, s.xb.slots.length, s.gpio.length, s.sec.otp.length,
        s.mem.spares.length, s.aln.subs.length, s.arb.pubs.length, s.arb.subs.length] s.eth s.ser s.tmb.ns s.tmb.sub s.tmb.addend s.tmb.slew :=
  { h with werr := fun k => hl (h.werr k) }

theorem Keeps_marks {b s : State} (h : Keeps b s) {l : List RowId}
    (hl : s.mem.marks.length ≤ 16 → l.length ≤ 16) :
    KeepsFields b s.pending s.free s.mem.shared s.evt.queue s.hp.held s.xb.werr l s.sec.otp s.sec.run
      [s.eth.length, s.pairs.length, s.ser.length, s.tmb.cmps.length, s.tmb.caps.length, s.tmb.ppso.length,
        s.ptp.ports.length, s.mgt.pick.length, s.xb.slots.length, s.gpio.length, s.sec.otp.length,
        s.mem.spares.length, s.aln.subs.length, s.arb.pubs.length, s.arb.subs.length] s.eth s.ser s.tmb.ns s.tmb.sub s.tmb.addend s.tmb.slew :=
  { h with marks := fun k => hl (h.marks k) }

/-- Lists of units may be rebuilt with as many units. -/
theorem Keeps_sizes {b s : State} (h : Keeps b s) {l : List Nat} (hl : sizes s = shape → l = shape) :
    KeepsFields b s.pending s.free s.mem.shared s.evt.queue s.hp.held s.xb.werr s.mem.marks s.sec.otp s.sec.run
      l s.eth s.ser s.tmb.ns s.tmb.sub s.tmb.addend s.tmb.slew :=
  { h with size := fun k => hl (h.size k) }

/-- Ports may change where each keeps its counters and queues. -/
theorem Keeps_ports {b s : State} (h : Keeps b s) {l : List EthPort} (hn : l.length = s.eth.length)
    (hl : (∀ k ∈ s.eth, PortOk k) → ∀ k ∈ l, PortOk k) : Keeps b { s with eth := l } :=
  { h with
    size := fun k => by
      have z := h.size k
      simp only [sizes, shape, List.cons.injEq] at z ⊢
      simp [z, hn]
    ports := fun k => hl (h.ports k) }

/-- Channels may change where each keeps its counters and queues. -/
theorem Keeps_chans {b s : State} (h : Keeps b s) {l : List SerChan} (hn : l.length = s.ser.length)
    (hl : (∀ k ∈ s.ser, ChanOk k) → ∀ k ∈ l, ChanOk k) : Keeps b { s with ser := l } :=
  { h with
    size := fun k => by
      have z := h.size k
      simp only [sizes, shape, List.cons.injEq] at z ⊢
      simp [z, hn]
    chans := fun k => hl (h.chans k) }

/-- Ports and channels may change together where each keeps its counters and queues. -/
theorem Keeps_units {b s : State} (h : Keeps b s) {l : List EthPort} {m : List SerChan}
    (hl : (∀ k ∈ s.eth, PortOk k) → ∀ k ∈ l, PortOk k) (hm : (∀ k ∈ s.ser, ChanOk k) → ∀ k ∈ m, ChanOk k) :
    KeepsFields b s.pending s.free s.mem.shared s.evt.queue s.hp.held s.xb.werr s.mem.marks s.sec.otp s.sec.run
      [s.eth.length, s.pairs.length, s.ser.length, s.tmb.cmps.length, s.tmb.caps.length, s.tmb.ppso.length,
        s.ptp.ports.length, s.mgt.pick.length, s.xb.slots.length, s.gpio.length, s.sec.otp.length,
        s.mem.spares.length, s.aln.subs.length, s.arb.pubs.length, s.arb.subs.length] l m s.tmb.ns s.tmb.sub
      s.tmb.addend s.tmb.slew :=
  { h with
    ports := fun k => hl (h.ports k)
    chans := fun k => hm (h.chans k) }

/-- The time base may change within its limits. -/
theorem Keeps_time {b s : State} (h : Keeps b s) {ns : BitVec 30} {sub : Nat} {addend : BitVec 64} {slew : Option Slew}
    (ht : TimeFits s.tmb.ns s.tmb.sub s.tmb.addend s.tmb.slew → TimeFits ns sub addend slew) :
    KeepsFields b s.pending s.free s.mem.shared s.evt.queue s.hp.held s.xb.werr s.mem.marks s.sec.otp s.sec.run
      [s.eth.length, s.pairs.length, s.ser.length, s.tmb.cmps.length, s.tmb.caps.length, s.tmb.ppso.length,
        s.ptp.ports.length, s.mgt.pick.length, s.xb.slots.length, s.gpio.length, s.sec.otp.length,
        s.mem.spares.length, s.aln.subs.length, s.arb.pubs.length, s.arb.subs.length] s.eth s.ser ns sub addend slew :=
  { h with time := fun k => ht (h.time k) }

/-- A LOCKED unit of the first state is LOCKED, and not worked on, in the later one. -/
theorem Keeps_sealed {b s : State} (h : Keeps b s) {u : Nat} (hu : Sealed u b) : Sealed u s := by
  have k := h.lock u hu
  exact ⟨by rw [k.1]; exact hu.1, k.2⟩

/-- A unit that counts in the first state counts in the later one. -/
theorem Keeps_counted {b s : State} (h : Keeps b s) {u : Nat} (hu : Counted u b) : Counted u s :=
  ⟨otpEffective_iff.2 (h.cnt u hu).1, (h.cnt u hu).2⟩

/-- Where the running command of the first state fits its unit, so does that of the later one. -/
theorem Keeps_fits {b s : State} (h : Keeps b s) (hb : RunFits b) : RunFits s :=
  fun r hr => (h.fits hb r hr).imp id otpEffective_not.2

theorem Keeps_otp {b s : State} (h : Keeps b s) {l : List OtpUnit} {r : Option SecRun}
    (hl : ∀ u, Sealed u s → (nth .blank l u = nth .blank s.sec.otp u ∧ ∀ x, r = some x → x.unitAddr ≠ u))
    (hc : ∀ u, Counted u s → (((nth .blank l u).st = .committed ∨ (nth .blank l u).st = .locked) ∧
      ∀ x, r = some x → x.cmd = .lock ∨ x.unitAddr ≠ u))
    (hr : RunFits s → ∀ x, r = some x → x.cmd = .lock ∨
      ((nth .blank l x.unitAddr).st ≠ .committed ∧ (nth .blank l x.unitAddr).st ≠ .locked)) :
    KeepsFields b s.pending s.free s.mem.shared s.evt.queue s.hp.held s.xb.werr s.mem.marks l r
      [s.eth.length, s.pairs.length, s.ser.length, s.tmb.cmps.length, s.tmb.caps.length, s.tmb.ppso.length,
        s.ptp.ports.length, s.mgt.pick.length, s.xb.slots.length, s.gpio.length, s.sec.otp.length,
        s.mem.spares.length, s.aln.subs.length, s.arb.pubs.length, s.arb.subs.length] s.eth s.ser s.tmb.ns s.tmb.sub s.tmb.addend s.tmb.slew :=
  { h with
    lock := fun u hu => ⟨(hl u (Keeps_sealed h hu)).1.trans (h.lock u hu).1, (hl u (Keeps_sealed h hu)).2⟩,
    cnt := fun u hu => hc u (Keeps_counted h hu), fits := fun k => hr (Keeps_fits h k) }

/-- The running command ends and the units stay. -/
theorem Keeps_idle {b s : State} (h : Keeps b s) :
    KeepsFields b s.pending s.free s.mem.shared s.evt.queue s.hp.held s.xb.werr s.mem.marks s.sec.otp none
      [s.eth.length, s.pairs.length, s.ser.length, s.tmb.cmps.length, s.tmb.caps.length, s.tmb.ppso.length,
        s.ptp.ports.length, s.mgt.pick.length, s.xb.slots.length, s.gpio.length, s.sec.otp.length,
        s.mem.spares.length, s.aln.subs.length, s.arb.pubs.length, s.arb.subs.length] s.eth s.ser s.tmb.ns s.tmb.sub s.tmb.addend s.tmb.slew :=
  Keeps_otp h (fun _ _ => ⟨rfl, fun _ e => by cases e⟩)
    (fun _ hx => ⟨otpEffective_iff.1 hx.1, fun _ e => by cases e⟩) (fun _ _ e => by cases e)

/-- The later of two spans keeps what both keep. -/
theorem Keeps_trans {a b s : State} (h1 : Keeps a b) (h2 : Keeps b s) : Keeps a s where
  size k := h2.size (h1.size k)
  pend := h2.pend.trans h1.pend
  free := Nat.le_trans h1.free h2.free
  wf k := h2.wf (h1.wf k)
  queue k := h2.queue (h1.queue k)
  held k := h2.held (h1.held k)
  werr k := h2.werr (h1.werr k)
  marks k := h2.marks (h1.marks k)
  lock u hu := ⟨(h2.lock u (Keeps_sealed h1 hu)).1.trans (h1.lock u hu).1, (h2.lock u (Keeps_sealed h1 hu)).2⟩
  cnt u hu := h2.cnt u (Keeps_counted h1 hu)
  fits k := h2.fits (Keeps_fits h1 k)
  ports k := h2.ports (h1.ports k)
  chans k := h2.chans (h1.chans k)
  time k := h2.time (h1.time k)

/-! ### What the passing of time leaves of the time base -/

@[simp] theorem addTime_cmps (k : Nat) (t : TmbBlk) : (addTime k t).cmps = t.cmps := rfl

@[simp] theorem addTime_caps (k : Nat) (t : TmbBlk) : (addTime k t).caps = t.caps := rfl

@[simp] theorem addTime_ppso (k : Nat) (t : TmbBlk) : (addTime k t).ppso = t.ppso := rfl

@[simp] theorem addTime_localCnt (k : Nat) (t : TmbBlk) :
    (addTime k t).localCnt = t.localCnt + BitVec.ofNat 64 k := rfl

theorem castlePpm_le {s : State} : castlePpm s ≤ 500 := by
  unfold castlePpm
  omega

theorem loadUnits_fits {u : Nat} (t : TmbBlk) (h : u < secUnits) :
    (loadUnits u t).ns.toNat < 1000000000 ∧ (loadUnits u t).sub < slewUnit := by
  simp only [secUnits, slewUnit] at h
  simp only [loadUnits, slewUnit, BitVec.toNat_ofNat]
  have e2 : u / 1000000 / 4294967296 % 2 ^ 30 = u / 1000000 / 4294967296 := Nat.mod_eq_of_lt (by omega)
  rw [e2]
  omega

/-- One addition, of up to ten cycles at once, leaves the time base within its limits. -/
theorem addTime_fits {k : Nat} {t : TmbBlk} (hk : k ≤ 10) (h : TimeFits t.ns t.sub t.addend t.slew) :
    TimeFits (addTime k t).ns (addTime k t).sub (addTime k t).addend (addTime k t).slew := by
  obtain ⟨h1, h2, h3, h4, h5⟩ := h
  have ha : k * t.addend.toNat ≤ 10 * 17197049053 := by
    have := BitVec.le_def.1 h4
    exact Nat.mul_le_mul hk (by simpa [addendMax] using this)
  have hfr := t.frac.isLt
  have hd : slewPart k t ≤ k * t.addend.toNat * 500 := by
    unfold slewPart
    split
    · exact Nat.zero_le _
    · rename_i w hw
      exact Nat.le_trans (Nat.min_le_right _ _) (Nat.mul_le_mul_left _ (h5 w hw))
  have hU : timeUnits t < secUnits := by
    simp only [timeUnits, secUnits, slewUnit] at *
    omega
  have two : ∀ u, u ≤ timeUnits t + k * t.addend.toNat * slewUnit + slewPart k t →
      (if decide (secUnits ≤ u) = true then u - secUnits else u) < secUnits := by
    intro u hu
    generalize k * t.addend.toNat = a at *
    by_cases c : secUnits ≤ u
    · rw [if_pos (by simpa using c)]
      simp only [secUnits, slewUnit] at *
      omega
    · rw [if_neg (by simpa using c)]
      omega
  have keep : ∀ w, (addTime k t).slew = some w → w.ppm ≤ 500 := by
    intro w hw
    have e : (addTime k t).slew = slewAfter (slewPart k t) t.slew := rfl
    rw [e] at hw
    unfold slewAfter at hw
    split at hw
    · cases hw
    · rename_i x hx
      split at hw
      · cases hw
      · cases hw
        exact h5 x hx
  refine ⟨?_, ?_, h3, h4, keep⟩
  · unfold addTime
    dsimp only
    split <;> exact (loadUnits_fits _ (two _ (by split <;> omega))).1
  · unfold addTime
    dsimp only
    split <;> exact (loadUnits_fits _ (two _ (by split <;> omega))).2

theorem Keeps_addTime {b s : State} (h : Keeps b s) {k : Nat} (hk : k ≤ 10) {f : TmbBlk → Cmp → Cmp} :
    Keeps b { s with tmb := { addTime k s.tmb with cmps := (addTime k s.tmb).cmps.map (f (addTime k s.tmb)) } } := by
  simp only [Keeps_mk, List.length_map, addTime_cmps, addTime_caps, addTime_ppso]
  exact Keeps_time h (addTime_fits hk)

/-! ### Combinators -/

theorem Keeps_ite {b x y : State} {c : Prop} [Decidable c] (hx : Keeps b x) (hy : Keeps b y) :
    Keeps b (if c then x else y) := by
  split
  · exact hx
  · exact hy

theorem Keeps_ite_snd {α : Type} {b : State} {x y : α × State} {c : Prop} [Decidable c] (hx : Keeps b x.2)
    (hy : Keeps b y.2) : Keeps b (if c then x else y).2 := by
  split
  · exact hx
  · exact hy

theorem Keeps_foldl {α : Type} {b : State} {f : State → α → State} {l : List α} {s : State}
    (hf : ∀ t a, Keeps b t → Keeps b (f t a)) (h : Keeps b s) : Keeps b (l.foldl f s) := by
  induction l generalizing s with
  | nil => exact h
  | cons a l ih => exact ih (hf s a h)

theorem Keeps_foldl_snd {α β : Type} {b : State} {f : β × State → α → β × State} {l : List α} {p : β × State}
    (hf : ∀ t a, Keeps b t.2 → Keeps b (f t a).2) (h : Keeps b p.2) : Keeps b (l.foldl f p).2 := by
  induction l generalizing p with
  | nil => exact h
  | cons a l ih => exact ih (hf p a h)

/-- A command answers a next state that keeps what the state before it held. -/
def Goes (b : State) (o : Host.Outcome State Fault Refusal) : Prop := ∃ t, o = .next t ∧ Keeps b t

theorem Goes_next {b t : State} (h : Keeps b t) : Goes b (.next t) := ⟨t, rfl, h⟩

theorem Goes_ite {b : State} {x y : Host.Outcome State Fault Refusal} {c : Prop} [Decidable c] (hx : Goes b x)
    (hy : Goes b y) : Goes b (if c then x else y) := by
  split
  · exact hx
  · exact hy

/-- Where a function drops or keeps an element, the list keeps its length. -/
@[simp] theorem upd_length {α : Type} (f : α → α) (l : List α) (i : Nat) : (upd f l i).length = l.length := by
  induction l generalizing i with
  | nil => rfl
  | cons x l ih => cases i <;> simp [upd, ih]

/-- What holds of every unit holds after one of them has changed by `f`, where `f` keeps it. -/
theorem all_upd {α : Type} {P : α → Prop} {f : α → α} {l : List α} {i : Nat} (hf : ∀ x, P x → P (f x))
    (h : ∀ x ∈ l, P x) : ∀ x ∈ upd f l i, P x := by
  induction l generalizing i with
  | nil => exact h
  | cons a l ih =>
    have ha := h a (List.mem_cons_self ..)
    have hl : ∀ x ∈ l, P x := fun x k => h x (List.mem_cons_of_mem _ k)
    cases i with
    | zero =>
      intro x hx
      rcases List.mem_cons.1 hx with rfl | k
      · exact hf a ha
      · exact hl x k
    | succ i =>
      intro x hx
      rcases List.mem_cons.1 hx with rfl | k
      · exact ha
      · exact ih hl x k

theorem all_map {α : Type} {P : α → Prop} {f : α → α} {l : List α} (hf : ∀ x, P x → P (f x))
    (h : ∀ x ∈ l, P x) : ∀ x ∈ l.map f, P x := by
  intro x hx
  obtain ⟨y, k, rfl⟩ := List.mem_map.1 hx
  exact hf y (h y k)

theorem all_replicate {α : Type} {P : α → Prop} {n : Nat} {a : α} (h : P a) : ∀ x ∈ List.replicate n a, P x := by
  intro x hx
  rw [List.eq_of_mem_replicate hx]
  exact h

theorem all_nth {α : Type} {P : α → Prop} {d : α} {l : List α} (hd : P d) (h : ∀ x ∈ l, P x) (i : Nat) :
    P (nth d l i) := by
  induction l generalizing i with
  | nil => exact hd
  | cons a l ih =>
    cases i with
    | zero => exact h a (List.mem_cons_self ..)
    | succ i => exact ih (fun x k => h x (List.mem_cons_of_mem _ k)) i

theorem portReset_ok : PortOk EthPort.reset := by simp [PortOk, EthPort.reset]

theorem chanReset_ok : ChanOk SerChan.reset := by simp [ChanOk, SerChan.reset]

theorem ethAt_ok {s : State} (h : ∀ k ∈ s.eth, PortOk k) (p : Nat) : PortOk (ethAt p s) := all_nth portReset_ok h p

theorem serAt_ok {s : State} (h : ∀ k ∈ s.ser, ChanOk k) (c : Nat) : ChanOk (serAt c s) := all_nth chanReset_ok h c

theorem timeReset_fits : TimeFits TmbBlk.reset.ns TmbBlk.reset.sub TmbBlk.reset.addend TmbBlk.reset.slew := by
  refine ⟨by decide, by decide, by decide, by decide, fun w h => ?_⟩
  simp [TmbBlk.reset] at h

/-- What follows from a port's right number of counters, run counts and queues, when `f` keeps each number. -/
theorem PortOk_of {k x : EthPort} (h : PortOk k) (hc : x.cnt.length = k.cnt.length) (hr : x.runs.length = k.runs.length)
    (hq : x.queues.length = k.queues.length) : PortOk x :=
  ⟨hc.trans h.1, hr.trans h.2.1, hq.trans h.2.2⟩

theorem ChanOk_of {k x : SerChan} (h : ChanOk k) (hc : x.cnt.length = k.cnt.length)
    (hq : x.queues.length = k.queues.length) : ChanOk x :=
  ⟨hc.trans h.1, hq.trans h.2⟩

theorem nth_upd_other {α : Type} (d : α) (f : α → α) (l : List α) {i j : Nat} (h : i ≠ j) :
    nth d (upd f l i) j = nth d l j := by
  induction l generalizing i j with
  | nil => rfl
  | cons x l ih =>
    cases i <;> cases j
    · exact absurd rfl h
    · rfl
    · rfl
    · simp only [upd, nth]
      exact ih (by omega)

theorem nth_upd_same {α : Type} (d : α) (f : α → α) (l : List α) {i : Nat} (h : i < l.length) :
    nth d (upd f l i) i = f (nth d l i) := by
  induction l generalizing i with
  | nil => simp at h
  | cons x l ih =>
    cases i with
    | zero => rfl
    | succ i =>
      simp only [upd, nth]
      exact ih (by simpa using h)

theorem nth_upd_or {α : Type} (d : α) (f : α → α) (l : List α) (i j : Nat) :
    nth d (upd f l i) j = nth d l j ∨ nth d (upd f l i) j = f (nth d l j) := by
  induction l generalizing i j with
  | nil => exact Or.inl rfl
  | cons x l ih =>
    cases i <;> cases j
    · exact Or.inr rfl
    · exact Or.inl rfl
    · exact Or.inl rfl
    · exact ih _ _

theorem Inv_port {s : State} (h : Inv s) (p : Nat) : PortOk (ethAt p s) := ethAt_ok h.2.2.2.2.2.2.1 p

theorem Inv_chan {s : State} (h : Inv s) (c : Nat) : ChanOk (serAt c s) := serAt_ok h.2.2.2.2.2.2.2.1 c

/-- What keeps all that, keeps the invariant. -/
theorem Keeps_inv {b s : State} (k : Keeps b s) (h : Inv b) : Inv s :=
  ⟨k.size h.1, k.wf h.2.1, k.queue h.2.2.1, k.held h.2.2.2.1, k.werr h.2.2.2.2.1, k.marks h.2.2.2.2.2.1,
    k.ports h.2.2.2.2.2.2.1, k.chans h.2.2.2.2.2.2.2.1, k.time h.2.2.2.2.2.2.2.2⟩

end Sys2Proof.Laws
end

