-- ==== Sys2Proof/Laws/KeepsOps.lean ====
section
/-!
SUPPORT. The operations of Machine/Ops.lean keep what Laws/Keeps.lean lists.
-/

namespace Sys2Proof.Laws

open Sys2Proof.Machine Sys2Proof.Safety

set_option linter.all false

theorem queueEvt_keeps {b s : State} (h : Keeps b s) {c : BitVec 16} {r : BitVec 8} {d : Word} :
    Keeps b (queueEvt c r d s) := by
  unfold queueEvt
  split
  · simp only [Keeps_mk]
    exact Keeps_queue h (fun _ => by simp; omega)
  · simp only [Keeps_mk]
    exact Keeps_queue h (fun k => by simp; omega)

theorem drawn_keeps {b s : State} (h : Keeps b s) : Keeps b (drawn s) := by
  simp only [drawn, Keeps_mk]
  exact Keeps_free h (Nat.le_succ _)

theorem sharedPut_keeps {b s : State} (h : Keeps b s) {a : Nat} {l : List Byte} : Keeps b (sharedPut a l s) := by
  simp only [sharedPut, Keeps_mk]
  exact Keeps_shared h (fun k => Memory_putAll_wf k)

theorem setPend_keeps {b s : State} (h : Keeps b s) {a1 a2} : Keeps b (setPend a1 a2 s) := by
  unfold setPend
  repeat' (first | with_reducible assumption | exact castlePpm_le | (show PortOk _; assumption) | (show ChanOk _; assumption) | (intro k hk; first | exact hk | (refine ⟨?_, ?_, ?_⟩ <;> (simp [hk.1, hk.2.1, hk.2.2]; done)) | (refine ⟨?_, ?_⟩ <;> (simp [hk.1, hk.2]; done)) | (dsimp only; split <;> first | exact hk | (refine ⟨?_, ?_, ?_⟩ <;> (simp [hk.1, hk.2.1, hk.2.2]; done)) | (refine ⟨?_, ?_⟩ <;> (simp [hk.1, hk.2]; done)))) | with_reducible apply Keeps_ite | with_reducible apply Keeps_ite_snd | with_reducible refine Keeps_ports ?_ (upd_length _ _ _) (all_upd ?_) | with_reducible refine Keeps_chans ?_ (upd_length _ _ _) (all_upd ?_) | (simp only [Keeps_mk, upd_length, List.length_map, addTime_cmps, addTime_caps, addTime_ppso]; (first | exact Keeps_fold (by with_reducible assumption) | apply Keeps_fold | refine Keeps_units ?_ (all_map ?_) (all_map ?_) | refine Keeps_units ?_ (all_map ?_) id | refine Keeps_units ?_ id (all_map ?_) | refine Keeps_free ?_ (Nat.le_add_right _ _) | refine Keeps_sizes ?_ (fun z => by simp only [sizes, shape, List.cons.injEq] at z ⊢; (first | (simp [z]; done) | (simp [z]; split <;> simp [z]))))) | dsimp only | intro _ | split)

theorem markKingPorts_keeps {b s : State} (h : Keeps b s) {l : List Nat} : Keeps b (markKingPorts l s) := by
  induction l generalizing s with
  | nil => exact h
  | cons p l ih => exact ih (setPend_keeps h)

theorem raiseKingLost_keeps {b s : State} (h : Keeps b s) {a1 a2 a3 a4 a5} : Keeps b (raiseKingLost a1 a2 a3 a4 a5 s) := by
  unfold raiseKingLost
  repeat' (first | with_reducible assumption | exact castlePpm_le | (show PortOk _; assumption) | (show ChanOk _; assumption) | (intro k hk; first | exact hk | (refine ⟨?_, ?_, ?_⟩ <;> (simp [hk.1, hk.2.1, hk.2.2]; done)) | (refine ⟨?_, ?_⟩ <;> (simp [hk.1, hk.2]; done)) | (dsimp only; split <;> first | exact hk | (refine ⟨?_, ?_, ?_⟩ <;> (simp [hk.1, hk.2.1, hk.2.2]; done)) | (refine ⟨?_, ?_⟩ <;> (simp [hk.1, hk.2]; done)))) | with_reducible apply Keeps_ite | with_reducible apply Keeps_ite_snd | with_reducible apply markKingPorts_keeps | with_reducible apply queueEvt_keeps | with_reducible refine Keeps_ports ?_ (upd_length _ _ _) (all_upd ?_) | with_reducible refine Keeps_chans ?_ (upd_length _ _ _) (all_upd ?_) | (simp only [Keeps_mk, upd_length, List.length_map, addTime_cmps, addTime_caps, addTime_ppso]; (first | exact Keeps_fold (by with_reducible assumption) | apply Keeps_fold | refine Keeps_units ?_ (all_map ?_) (all_map ?_) | refine Keeps_units ?_ (all_map ?_) id | refine Keeps_units ?_ id (all_map ?_) | refine Keeps_free ?_ (Nat.le_add_right _ _) | refine Keeps_sizes ?_ (fun z => by simp only [sizes, shape, List.cons.injEq] at z ⊢; (first | (simp [z]; done) | (simp [z]; split <;> simp [z]))))) | dsimp only | intro _ | split)

theorem raiseAt_keeps {b s : State} (h : Keeps b s) {a1 a2 a3} : Keeps b (raiseAt a1 a2 a3 s) := by
  unfold raiseAt
  repeat' (first | with_reducible assumption | exact castlePpm_le | (show PortOk _; assumption) | (show ChanOk _; assumption) | (intro k hk; first | exact hk | (refine ⟨?_, ?_, ?_⟩ <;> (simp [hk.1, hk.2.1, hk.2.2]; done)) | (refine ⟨?_, ?_⟩ <;> (simp [hk.1, hk.2]; done)) | (dsimp only; split <;> first | exact hk | (refine ⟨?_, ?_, ?_⟩ <;> (simp [hk.1, hk.2.1, hk.2.2]; done)) | (refine ⟨?_, ?_⟩ <;> (simp [hk.1, hk.2]; done)))) | with_reducible apply Keeps_ite | with_reducible apply Keeps_ite_snd | with_reducible apply setPend_keeps | with_reducible apply queueEvt_keeps | with_reducible refine Keeps_ports ?_ (upd_length _ _ _) (all_upd ?_) | with_reducible refine Keeps_chans ?_ (upd_length _ _ _) (all_upd ?_) | (simp only [Keeps_mk, upd_length, List.length_map, addTime_cmps, addTime_caps, addTime_ppso]; (first | exact Keeps_fold (by with_reducible assumption) | apply Keeps_fold | refine Keeps_units ?_ (all_map ?_) (all_map ?_) | refine Keeps_units ?_ (all_map ?_) id | refine Keeps_units ?_ id (all_map ?_) | refine Keeps_free ?_ (Nat.le_add_right _ _) | refine Keeps_sizes ?_ (fun z => by simp only [sizes, shape, List.cons.injEq] at z ⊢; (first | (simp [z]; done) | (simp [z]; split <;> simp [z]))))) | dsimp only | intro _ | split)

theorem raise_keeps {b s : State} (h : Keeps b s) {a1 a2} : Keeps b (raise a1 a2 s) := by
  unfold raise
  repeat' (first | with_reducible assumption | exact castlePpm_le | (show PortOk _; assumption) | (show ChanOk _; assumption) | (intro k hk; first | exact hk | (refine ⟨?_, ?_, ?_⟩ <;> (simp [hk.1, hk.2.1, hk.2.2]; done)) | (refine ⟨?_, ?_⟩ <;> (simp [hk.1, hk.2]; done)) | (dsimp only; split <;> first | exact hk | (refine ⟨?_, ?_, ?_⟩ <;> (simp [hk.1, hk.2.1, hk.2.2]; done)) | (refine ⟨?_, ?_⟩ <;> (simp [hk.1, hk.2]; done)))) | with_reducible apply Keeps_ite | with_reducible apply Keeps_ite_snd | with_reducible apply raiseAt_keeps | with_reducible refine Keeps_ports ?_ (upd_length _ _ _) (all_upd ?_) | with_reducible refine Keeps_chans ?_ (upd_length _ _ _) (all_upd ?_) | (simp only [Keeps_mk, upd_length, List.length_map, addTime_cmps, addTime_caps, addTime_ppso]; (first | exact Keeps_fold (by with_reducible assumption) | apply Keeps_fold | refine Keeps_units ?_ (all_map ?_) (all_map ?_) | refine Keeps_units ?_ (all_map ?_) id | refine Keeps_units ?_ id (all_map ?_) | refine Keeps_free ?_ (Nat.le_add_right _ _) | refine Keeps_sizes ?_ (fun z => by simp only [sizes, shape, List.cons.injEq] at z ⊢; (first | (simp [z]; done) | (simp [z]; split <;> simp [z]))))) | dsimp only | intro _ | split)

theorem ifCore_keeps {b s : State} (h : Keeps b s) {f : State → State} (hf : Keeps b s → Keeps b (f s)) :
    Keeps b (ifCore f s) := Keeps_ite (hf h) h

theorem portAWrite_keeps {b s : State} (h : Keeps b s) {a1 a2 a3 a4} : Keeps b (portAWrite a1 a2 a3 a4 s) := by
  unfold portAWrite
  repeat' (first | with_reducible assumption | exact castlePpm_le | (show PortOk _; assumption) | (show ChanOk _; assumption) | (intro k hk; first | exact hk | (refine ⟨?_, ?_, ?_⟩ <;> (simp [hk.1, hk.2.1, hk.2.2]; done)) | (refine ⟨?_, ?_⟩ <;> (simp [hk.1, hk.2]; done)) | (dsimp only; split <;> first | exact hk | (refine ⟨?_, ?_, ?_⟩ <;> (simp [hk.1, hk.2.1, hk.2.2]; done)) | (refine ⟨?_, ?_⟩ <;> (simp [hk.1, hk.2]; done)))) | with_reducible apply Keeps_ite | with_reducible apply Keeps_ite_snd | with_reducible apply sharedPut_keeps | with_reducible refine Keeps_ports ?_ (upd_length _ _ _) (all_upd ?_) | with_reducible refine Keeps_chans ?_ (upd_length _ _ _) (all_upd ?_) | (simp only [Keeps_mk, upd_length, List.length_map, addTime_cmps, addTime_caps, addTime_ppso]; (first | exact Keeps_fold (by with_reducible assumption) | apply Keeps_fold | refine Keeps_units ?_ (all_map ?_) (all_map ?_) | refine Keeps_units ?_ (all_map ?_) id | refine Keeps_units ?_ id (all_map ?_) | refine Keeps_free ?_ (Nat.le_add_right _ _) | refine Keeps_sizes ?_ (fun z => by simp only [sizes, shape, List.cons.injEq] at z ⊢; (first | (simp [z]; done) | (simp [z]; split <;> simp [z]))))) | dsimp only | intro _ | split)

theorem portABegin_keeps {b s : State} (h : Keeps b s) : Keeps b (portABegin s) := by
  unfold portABegin
  repeat' (first | with_reducible assumption | exact castlePpm_le | (show PortOk _; assumption) | (show ChanOk _; assumption) | (intro k hk; first | exact hk | (refine ⟨?_, ?_, ?_⟩ <;> (simp [hk.1, hk.2.1, hk.2.2]; done)) | (refine ⟨?_, ?_⟩ <;> (simp [hk.1, hk.2]; done)) | (dsimp only; split <;> first | exact hk | (refine ⟨?_, ?_, ?_⟩ <;> (simp [hk.1, hk.2.1, hk.2.2]; done)) | (refine ⟨?_, ?_⟩ <;> (simp [hk.1, hk.2]; done)))) | with_reducible apply Keeps_ite | with_reducible apply Keeps_ite_snd | with_reducible refine Keeps_ports ?_ (upd_length _ _ _) (all_upd ?_) | with_reducible refine Keeps_chans ?_ (upd_length _ _ _) (all_upd ?_) | (simp only [Keeps_mk, upd_length, List.length_map, addTime_cmps, addTime_caps, addTime_ppso]; (first | exact Keeps_fold (by with_reducible assumption) | apply Keeps_fold | refine Keeps_units ?_ (all_map ?_) (all_map ?_) | refine Keeps_units ?_ (all_map ?_) id | refine Keeps_units ?_ id (all_map ?_) | refine Keeps_free ?_ (Nat.le_add_right _ _) | refine Keeps_sizes ?_ (fun z => by simp only [sizes, shape, List.cons.injEq] at z ⊢; (first | (simp [z]; done) | (simp [z]; split <;> simp [z]))))) | dsimp only | intro _ | split)

end Sys2Proof.Laws
end

