-- ==== Sys2Proof/Laws/KeepsTimeBase.lean ====
section
/-!
SUPPORT. The operations of Machine/TimeBase.lean keep what Laws/Keeps.lean lists.
-/

namespace Sys2Proof.Laws

open Sys2Proof.Machine Sys2Proof.Safety

set_option linter.all false

theorem refclkEdge_keeps {b s : State} (h : Keeps b s) : Keeps b (refclkEdge s) := Keeps_addTime h (by decide)

theorem tmbSnapshot_keeps {b s : State} (h : Keeps b s) : Keeps b (tmbSnapshot s) := by
  unfold tmbSnapshot
  repeat' (first | with_reducible assumption | exact castlePpm_le | (show PortOk _; assumption) | (show ChanOk _; assumption) | (intro k hk; first | exact hk | (refine ⟨?_, ?_, ?_⟩ <;> (simp [hk.1, hk.2.1, hk.2.2]; done)) | (refine ⟨?_, ?_⟩ <;> (simp [hk.1, hk.2]; done)) | (dsimp only; split <;> first | exact hk | (refine ⟨?_, ?_, ?_⟩ <;> (simp [hk.1, hk.2.1, hk.2.2]; done)) | (refine ⟨?_, ?_⟩ <;> (simp [hk.1, hk.2]; done)))) | with_reducible apply Keeps_ite | with_reducible apply Keeps_ite_snd | with_reducible refine Keeps_ports ?_ (upd_length _ _ _) (all_upd ?_) | with_reducible refine Keeps_chans ?_ (upd_length _ _ _) (all_upd ?_) | (simp only [Keeps_mk, upd_length, List.length_map, addTime_cmps, addTime_caps, addTime_ppso]; (first | exact Keeps_fold (by with_reducible assumption) | apply Keeps_fold | refine Keeps_units ?_ (all_map ?_) (all_map ?_) | refine Keeps_units ?_ (all_map ?_) id | refine Keeps_units ?_ id (all_map ?_) | refine Keeps_free ?_ (Nat.le_add_right _ _) | refine Keeps_sizes ?_ (fun z => by simp only [sizes, shape, List.cons.injEq] at z ⊢; (first | (simp [z]; done) | (simp [z]; split <;> simp [z]))))) | dsimp only | intro _ | split)

theorem coreCycle_keeps {b s : State} (h : Keeps b s) : Keeps b (coreCycle s) := Keeps_addTime h (by decide)

theorem resyncAll_keeps {b s : State} (h : Keeps b s) : Keeps b (resyncAll s) := by
  unfold resyncAll
  repeat' (first | with_reducible assumption | exact castlePpm_le | (show PortOk _; assumption) | (show ChanOk _; assumption) | (intro k hk; first | exact hk | (refine ⟨?_, ?_, ?_⟩ <;> (simp [hk.1, hk.2.1, hk.2.2]; done)) | (refine ⟨?_, ?_⟩ <;> (simp [hk.1, hk.2]; done)) | (dsimp only; split <;> first | exact hk | (refine ⟨?_, ?_, ?_⟩ <;> (simp [hk.1, hk.2.1, hk.2.2]; done)) | (refine ⟨?_, ?_⟩ <;> (simp [hk.1, hk.2]; done)))) | with_reducible apply Keeps_ite | with_reducible apply Keeps_ite_snd | with_reducible refine Keeps_ports ?_ (upd_length _ _ _) (all_upd ?_) | with_reducible refine Keeps_chans ?_ (upd_length _ _ _) (all_upd ?_) | (simp only [Keeps_mk, upd_length, List.length_map, addTime_cmps, addTime_caps, addTime_ppso]; (first | exact Keeps_fold (by with_reducible assumption) | apply Keeps_fold | refine Keeps_units ?_ (all_map ?_) (all_map ?_) | refine Keeps_units ?_ (all_map ?_) id | refine Keeps_units ?_ id (all_map ?_) | refine Keeps_free ?_ (Nat.le_add_right _ _) | refine Keeps_sizes ?_ (fun z => by simp only [sizes, shape, List.cons.injEq] at z ⊢; (first | (simp [z]; done) | (simp [z]; split <;> simp [z]))))) | dsimp only | intro _ | split)

theorem setTime_keeps {b s : State} (h : Keeps b s) {a1} {a2 : Nat} (ha : a2 < 1000000000) : Keeps b (setTime a1 a2 s) := by
  unfold setTime
  apply resyncAll_keeps
  simp only [Keeps_mk]
  refine Keeps_time (coreCycle_keeps h) (fun k => ⟨?_, by decide, k.2.2⟩)
  rw [BitVec.toNat_ofNat, Nat.mod_eq_of_lt (by omega)]
  exact ha

theorem tmbCmdErr_keeps {b s : State} (h : Keeps b s) : Keeps b (tmbCmdErr s) := by
  unfold tmbCmdErr
  repeat' (first | with_reducible assumption | exact castlePpm_le | (show PortOk _; assumption) | (show ChanOk _; assumption) | (intro k hk; first | exact hk | (refine ⟨?_, ?_, ?_⟩ <;> (simp [hk.1, hk.2.1, hk.2.2]; done)) | (refine ⟨?_, ?_⟩ <;> (simp [hk.1, hk.2]; done)) | (dsimp only; split <;> first | exact hk | (refine ⟨?_, ?_, ?_⟩ <;> (simp [hk.1, hk.2.1, hk.2.2]; done)) | (refine ⟨?_, ?_⟩ <;> (simp [hk.1, hk.2]; done)))) | with_reducible apply Keeps_ite | with_reducible apply Keeps_ite_snd | with_reducible refine Keeps_ports ?_ (upd_length _ _ _) (all_upd ?_) | with_reducible refine Keeps_chans ?_ (upd_length _ _ _) (all_upd ?_) | (simp only [Keeps_mk, upd_length, List.length_map, addTime_cmps, addTime_caps, addTime_ppso]; (first | exact Keeps_fold (by with_reducible assumption) | apply Keeps_fold | refine Keeps_units ?_ (all_map ?_) (all_map ?_) | refine Keeps_units ?_ (all_map ?_) id | refine Keeps_units ?_ id (all_map ?_) | refine Keeps_free ?_ (Nat.le_add_right _ _) | refine Keeps_sizes ?_ (fun z => by simp only [sizes, shape, List.cons.injEq] at z ⊢; (first | (simp [z]; done) | (simp [z]; split <;> simp [z]))))) | dsimp only | intro _ | split)

theorem tmbSet_keeps {b s : State} (h : Keeps b s) : Keeps b (tmbSet s) := by
  unfold tmbSet
  split
  · rename_i c
    exact setTime_keeps h c.2
  · exact tmbCmdErr_keeps h

theorem stepTime_keeps {b s : State} (h : Keeps b s) {a1} : Keeps b (stepTime a1 s) := by
  unfold stepTime
  apply resyncAll_keeps
  simp only [Keeps_mk]
  refine Keeps_time (coreCycle_keeps h) (fun k => ⟨?_, k.2⟩)
  have hm := Int.emod_lt_of_pos (((coreCycle s).tmb.ns.toNat : Int) + a1) (show (0 : Int) < 1000000000 by decide)
  have hn := Int.emod_nonneg (((coreCycle s).tmb.ns.toNat : Int) + a1) (show (1000000000 : Int) ≠ 0 by decide)
  rw [BitVec.toNat_ofNat, Nat.mod_eq_of_lt (by omega)]
  omega

theorem tmbStep_keeps {b s : State} (h : Keeps b s) : Keeps b (tmbStep s) := by
  unfold tmbStep
  repeat' (first | with_reducible assumption | exact castlePpm_le | (show PortOk _; assumption) | (show ChanOk _; assumption) | (intro k hk; first | exact hk | (refine ⟨?_, ?_, ?_⟩ <;> (simp [hk.1, hk.2.1, hk.2.2]; done)) | (refine ⟨?_, ?_⟩ <;> (simp [hk.1, hk.2]; done)) | (dsimp only; split <;> first | exact hk | (refine ⟨?_, ?_, ?_⟩ <;> (simp [hk.1, hk.2.1, hk.2.2]; done)) | (refine ⟨?_, ?_⟩ <;> (simp [hk.1, hk.2]; done)))) | with_reducible apply Keeps_ite | with_reducible apply Keeps_ite_snd | with_reducible apply stepTime_keeps | with_reducible apply tmbCmdErr_keeps | with_reducible refine Keeps_ports ?_ (upd_length _ _ _) (all_upd ?_) | with_reducible refine Keeps_chans ?_ (upd_length _ _ _) (all_upd ?_) | (simp only [Keeps_mk, upd_length, List.length_map, addTime_cmps, addTime_caps, addTime_ppso]; (first | exact Keeps_fold (by with_reducible assumption) | apply Keeps_fold | refine Keeps_units ?_ (all_map ?_) (all_map ?_) | refine Keeps_units ?_ (all_map ?_) id | refine Keeps_units ?_ id (all_map ?_) | refine Keeps_free ?_ (Nat.le_add_right _ _) | refine Keeps_sizes ?_ (fun z => by simp only [sizes, shape, List.cons.injEq] at z ⊢; (first | (simp [z]; done) | (simp [z]; split <;> simp [z]))))) | dsimp only | intro _ | split)

theorem slewTime_keeps {b s : State} (h : Keeps b s) {a1} {a2 : Nat} (ha : a2 ≤ 500) : Keeps b (slewTime a1 a2 s) := by
  unfold slewTime
  simp only [Keeps_mk]
  refine Keeps_time h (fun k => ⟨k.1, k.2.1, k.2.2.1, k.2.2.2.1, fun w hw => ?_⟩)
  split at hw
  · cases hw
  · cases hw
    exact ha

theorem dropCastleSlew_keeps {b s : State} (h : Keeps b s) : Keeps b (dropCastleSlew s) := by
  unfold dropCastleSlew
  repeat' (first | with_reducible assumption | exact castlePpm_le | (show PortOk _; assumption) | (show ChanOk _; assumption) | (intro k hk; first | exact hk | (refine ⟨?_, ?_, ?_⟩ <;> (simp [hk.1, hk.2.1, hk.2.2]; done)) | (refine ⟨?_, ?_⟩ <;> (simp [hk.1, hk.2]; done)) | (dsimp only; split <;> first | exact hk | (refine ⟨?_, ?_, ?_⟩ <;> (simp [hk.1, hk.2.1, hk.2.2]; done)) | (refine ⟨?_, ?_⟩ <;> (simp [hk.1, hk.2]; done)))) | with_reducible apply Keeps_ite | with_reducible apply Keeps_ite_snd | with_reducible refine Keeps_ports ?_ (upd_length _ _ _) (all_upd ?_) | with_reducible refine Keeps_chans ?_ (upd_length _ _ _) (all_upd ?_) | (simp only [Keeps_mk, upd_length, List.length_map, addTime_cmps, addTime_caps, addTime_ppso]; (first | exact Keeps_fold (by with_reducible assumption) | apply Keeps_fold | refine Keeps_units ?_ (all_map ?_) (all_map ?_) | refine Keeps_units ?_ (all_map ?_) id | refine Keeps_units ?_ id (all_map ?_) | refine Keeps_free ?_ (Nat.le_add_right _ _) | refine Keeps_sizes ?_ (fun z => by simp only [sizes, shape, List.cons.injEq] at z ⊢; (first | (simp [z]; done) | (simp [z]; split <;> simp [z]))))) | dsimp only | intro _ | split)

theorem tmbSlew_keeps {b s : State} (h : Keeps b s) : Keeps b (tmbSlew s) := by
  unfold tmbSlew
  dsimp only
  split
  · rename_i c
    exact slewTime_keeps (dropCastleSlew_keeps h) c.2.2
  · exact tmbCmdErr_keeps h

theorem tmbSlewAbort_keeps {b s : State} (h : Keeps b s) : Keeps b (tmbSlewAbort s) := by
  unfold tmbSlewAbort
  split
  · simp only [Keeps_mk]
    exact Keeps_time h (fun k => ⟨k.1, k.2.1, k.2.2.1, k.2.2.2.1, fun w hw => by cases hw⟩)
  · exact tmbCmdErr_keeps h

theorem loadAddend_keeps {b s : State} (h : Keeps b s) {a1} : Keeps b (loadAddend a1 s) := by
  unfold loadAddend
  simp only [Keeps_mk]
  refine Keeps_time h (fun k => ⟨k.1, k.2.1, ?_, ?_, k.2.2.2.2⟩)
  · split
    · exact BitVec.le_refl _
    · split
      · decide
      · rename_i l _
        exact BitVec.not_lt.1 l
  · split
    · decide
    · split
      · exact BitVec.le_refl _
      · rename_i l
        exact BitVec.not_lt.1 l

theorem tmbRate_keeps {b s : State} (h : Keeps b s) : Keeps b (tmbRate s) := by
  unfold tmbRate
  repeat' (first | with_reducible assumption | exact castlePpm_le | (show PortOk _; assumption) | (show ChanOk _; assumption) | (intro k hk; first | exact hk | (refine ⟨?_, ?_, ?_⟩ <;> (simp [hk.1, hk.2.1, hk.2.2]; done)) | (refine ⟨?_, ?_⟩ <;> (simp [hk.1, hk.2]; done)) | (dsimp only; split <;> first | exact hk | (refine ⟨?_, ?_, ?_⟩ <;> (simp [hk.1, hk.2.1, hk.2.2]; done)) | (refine ⟨?_, ?_⟩ <;> (simp [hk.1, hk.2]; done)))) | with_reducible apply Keeps_ite | with_reducible apply Keeps_ite_snd | with_reducible apply coreCycle_keeps | with_reducible apply loadAddend_keeps | with_reducible apply tmbCmdErr_keeps | with_reducible refine Keeps_ports ?_ (upd_length _ _ _) (all_upd ?_) | with_reducible refine Keeps_chans ?_ (upd_length _ _ _) (all_upd ?_) | (simp only [Keeps_mk, upd_length, List.length_map, addTime_cmps, addTime_caps, addTime_ppso]; (first | exact Keeps_fold (by with_reducible assumption) | apply Keeps_fold | refine Keeps_units ?_ (all_map ?_) (all_map ?_) | refine Keeps_units ?_ (all_map ?_) id | refine Keeps_units ?_ id (all_map ?_) | refine Keeps_free ?_ (Nat.le_add_right _ _) | refine Keeps_sizes ?_ (fun z => by simp only [sizes, shape, List.cons.injEq] at z ⊢; (first | (simp [z]; done) | (simp [z]; split <;> simp [z]))))) | dsimp only | intro _ | split)

theorem tmbSetSecAtPps_keeps {b s : State} (h : Keeps b s) : Keeps b (tmbSetSecAtPps s) := by
  unfold tmbSetSecAtPps
  repeat' (first | with_reducible assumption | exact castlePpm_le | (show PortOk _; assumption) | (show ChanOk _; assumption) | (intro k hk; first | exact hk | (refine ⟨?_, ?_, ?_⟩ <;> (simp [hk.1, hk.2.1, hk.2.2]; done)) | (refine ⟨?_, ?_⟩ <;> (simp [hk.1, hk.2]; done)) | (dsimp only; split <;> first | exact hk | (refine ⟨?_, ?_, ?_⟩ <;> (simp [hk.1, hk.2.1, hk.2.2]; done)) | (refine ⟨?_, ?_⟩ <;> (simp [hk.1, hk.2]; done)))) | with_reducible apply Keeps_ite | with_reducible apply Keeps_ite_snd | with_reducible apply tmbCmdErr_keeps | with_reducible refine Keeps_ports ?_ (upd_length _ _ _) (all_upd ?_) | with_reducible refine Keeps_chans ?_ (upd_length _ _ _) (all_upd ?_) | (simp only [Keeps_mk, upd_length, List.length_map, addTime_cmps, addTime_caps, addTime_ppso]; (first | exact Keeps_fold (by with_reducible assumption) | apply Keeps_fold | refine Keeps_units ?_ (all_map ?_) (all_map ?_) | refine Keeps_units ?_ (all_map ?_) id | refine Keeps_units ?_ id (all_map ?_) | refine Keeps_free ?_ (Nat.le_add_right _ _) | refine Keeps_sizes ?_ (fun z => by simp only [sizes, shape, List.cons.injEq] at z ⊢; (first | (simp [z]; done) | (simp [z]; split <;> simp [z]))))) | dsimp only | intro _ | split)

theorem tmbCommand_keeps {b s : State} (h : Keeps b s) {a1} : Keeps b (tmbCommand a1 s) := by
  unfold tmbCommand
  repeat' (first | with_reducible assumption | exact castlePpm_le | (show PortOk _; assumption) | (show ChanOk _; assumption) | (intro k hk; first | exact hk | (refine ⟨?_, ?_, ?_⟩ <;> (simp [hk.1, hk.2.1, hk.2.2]; done)) | (refine ⟨?_, ?_⟩ <;> (simp [hk.1, hk.2]; done)) | (dsimp only; split <;> first | exact hk | (refine ⟨?_, ?_, ?_⟩ <;> (simp [hk.1, hk.2.1, hk.2.2]; done)) | (refine ⟨?_, ?_⟩ <;> (simp [hk.1, hk.2]; done)))) | with_reducible apply Keeps_ite | with_reducible apply Keeps_ite_snd | with_reducible apply tmbSnapshot_keeps | with_reducible apply tmbSet_keeps | with_reducible apply tmbStep_keeps | with_reducible apply tmbSlew_keeps | with_reducible apply tmbSlewAbort_keeps | with_reducible apply tmbRate_keeps | with_reducible apply tmbSetSecAtPps_keeps | with_reducible apply tmbCmdErr_keeps | with_reducible refine Keeps_ports ?_ (upd_length _ _ _) (all_upd ?_) | with_reducible refine Keeps_chans ?_ (upd_length _ _ _) (all_upd ?_) | (simp only [Keeps_mk, upd_length, List.length_map, addTime_cmps, addTime_caps, addTime_ppso]; (first | exact Keeps_fold (by with_reducible assumption) | apply Keeps_fold | refine Keeps_units ?_ (all_map ?_) (all_map ?_) | refine Keeps_units ?_ (all_map ?_) id | refine Keeps_units ?_ id (all_map ?_) | refine Keeps_free ?_ (Nat.le_add_right _ _) | refine Keeps_sizes ?_ (fun z => by simp only [sizes, shape, List.cons.injEq] at z ⊢; (first | (simp [z]; done) | (simp [z]; split <;> simp [z]))))) | dsimp only | intro _ | split)

theorem loadPpsSecs_keeps {b s : State} (h : Keeps b s) {a1 a2} : Keeps b (loadPpsSecs a1 a2 s) := by
  unfold loadPpsSecs
  repeat' (first | with_reducible assumption | exact castlePpm_le | (show PortOk _; assumption) | (show ChanOk _; assumption) | (intro k hk; first | exact hk | (refine ⟨?_, ?_, ?_⟩ <;> (simp [hk.1, hk.2.1, hk.2.2]; done)) | (refine ⟨?_, ?_⟩ <;> (simp [hk.1, hk.2]; done)) | (dsimp only; split <;> first | exact hk | (refine ⟨?_, ?_, ?_⟩ <;> (simp [hk.1, hk.2.1, hk.2.2]; done)) | (refine ⟨?_, ?_⟩ <;> (simp [hk.1, hk.2]; done)))) | with_reducible apply Keeps_ite | with_reducible apply Keeps_ite_snd | with_reducible apply resyncAll_keeps | with_reducible refine Keeps_ports ?_ (upd_length _ _ _) (all_upd ?_) | with_reducible refine Keeps_chans ?_ (upd_length _ _ _) (all_upd ?_) | (simp only [Keeps_mk, upd_length, List.length_map, addTime_cmps, addTime_caps, addTime_ppso]; (first | exact Keeps_fold (by with_reducible assumption) | apply Keeps_fold | refine Keeps_units ?_ (all_map ?_) (all_map ?_) | refine Keeps_units ?_ (all_map ?_) id | refine Keeps_units ?_ id (all_map ?_) | refine Keeps_free ?_ (Nat.le_add_right _ _) | refine Keeps_sizes ?_ (fun z => by simp only [sizes, shape, List.cons.injEq] at z ⊢; (first | (simp [z]; done) | (simp [z]; split <;> simp [z]))))) | dsimp only | intro _ | split)

theorem tick_keeps {b s : State} (h : Keeps b s) : Keeps b (tick s) := by
  unfold tick
  repeat' (first | with_reducible assumption | exact castlePpm_le | (show PortOk _; assumption) | (show ChanOk _; assumption) | (intro k hk; first | exact hk | (refine ⟨?_, ?_, ?_⟩ <;> (simp [hk.1, hk.2.1, hk.2.2]; done)) | (refine ⟨?_, ?_⟩ <;> (simp [hk.1, hk.2]; done)) | (dsimp only; split <;> first | exact hk | (refine ⟨?_, ?_, ?_⟩ <;> (simp [hk.1, hk.2.1, hk.2.2]; done)) | (refine ⟨?_, ?_⟩ <;> (simp [hk.1, hk.2]; done)))) | with_reducible apply Keeps_ite | with_reducible apply Keeps_ite_snd | with_reducible apply refclkEdge_keeps | with_reducible apply coreCycle_keeps | with_reducible refine Keeps_ports ?_ (upd_length _ _ _) (all_upd ?_) | with_reducible refine Keeps_chans ?_ (upd_length _ _ _) (all_upd ?_) | (simp only [Keeps_mk, upd_length, List.length_map, addTime_cmps, addTime_caps, addTime_ppso]; (first | exact Keeps_fold (by with_reducible assumption) | apply Keeps_fold | refine Keeps_units ?_ (all_map ?_) (all_map ?_) | refine Keeps_units ?_ (all_map ?_) id | refine Keeps_units ?_ id (all_map ?_) | refine Keeps_free ?_ (Nat.le_add_right _ _) | refine Keeps_sizes ?_ (fun z => by simp only [sizes, shape, List.cons.injEq] at z ⊢; (first | (simp [z]; done) | (simp [z]; split <;> simp [z]))))) | dsimp only | intro _ | split)

theorem execSlewEnd_goes {b s : State} (h : Keeps b s) : Goes b (execSlewEnd s) := by
  unfold execSlewEnd
  repeat' (first | with_reducible assumption | exact castlePpm_le | (show PortOk _; assumption) | (show ChanOk _; assumption) | (intro k hk; first | exact hk | (refine ⟨?_, ?_, ?_⟩ <;> (simp [hk.1, hk.2.1, hk.2.2]; done)) | (refine ⟨?_, ?_⟩ <;> (simp [hk.1, hk.2]; done)) | (dsimp only; split <;> first | exact hk | (refine ⟨?_, ?_, ?_⟩ <;> (simp [hk.1, hk.2.1, hk.2.2]; done)) | (refine ⟨?_, ?_⟩ <;> (simp [hk.1, hk.2]; done)))) | with_reducible apply Goes_next | with_reducible apply Goes_ite | with_reducible apply Keeps_ite | with_reducible apply Keeps_ite_snd | with_reducible apply tick_keeps | with_reducible refine Keeps_ports ?_ (upd_length _ _ _) (all_upd ?_) | with_reducible refine Keeps_chans ?_ (upd_length _ _ _) (all_upd ?_) | (simp only [Keeps_mk, upd_length, List.length_map, addTime_cmps, addTime_caps, addTime_ppso]; (first | exact Keeps_fold (by with_reducible assumption) | apply Keeps_fold | refine Keeps_units ?_ (all_map ?_) (all_map ?_) | refine Keeps_units ?_ (all_map ?_) id | refine Keeps_units ?_ id (all_map ?_) | refine Keeps_free ?_ (Nat.le_add_right _ _) | refine Keeps_sizes ?_ (fun z => by simp only [sizes, shape, List.cons.injEq] at z ⊢; (first | (simp [z]; done) | (simp [z]; split <;> simp [z]))))) | dsimp only | intro _ | split)

theorem lockWrite_keeps {b s : State} (h : Keeps b s) : Keeps b (lockWrite s) := by
  unfold lockWrite
  repeat' (first | with_reducible assumption | exact castlePpm_le | (show PortOk _; assumption) | (show ChanOk _; assumption) | (intro k hk; first | exact hk | (refine ⟨?_, ?_, ?_⟩ <;> (simp [hk.1, hk.2.1, hk.2.2]; done)) | (refine ⟨?_, ?_⟩ <;> (simp [hk.1, hk.2]; done)) | (dsimp only; split <;> first | exact hk | (refine ⟨?_, ?_, ?_⟩ <;> (simp [hk.1, hk.2.1, hk.2.2]; done)) | (refine ⟨?_, ?_⟩ <;> (simp [hk.1, hk.2]; done)))) | with_reducible apply Keeps_ite | with_reducible apply Keeps_ite_snd | with_reducible refine Keeps_ports ?_ (upd_length _ _ _) (all_upd ?_) | with_reducible refine Keeps_chans ?_ (upd_length _ _ _) (all_upd ?_) | (simp only [Keeps_mk, upd_length, List.length_map, addTime_cmps, addTime_caps, addTime_ppso]; (first | exact Keeps_fold (by with_reducible assumption) | apply Keeps_fold | refine Keeps_units ?_ (all_map ?_) (all_map ?_) | refine Keeps_units ?_ (all_map ?_) id | refine Keeps_units ?_ id (all_map ?_) | refine Keeps_free ?_ (Nat.le_add_right _ _) | refine Keeps_sizes ?_ (fun z => by simp only [sizes, shape, List.cons.injEq] at z ⊢; (first | (simp [z]; done) | (simp [z]; split <;> simp [z]))))) | dsimp only | intro _ | split)

theorem setCmp_keeps {b s : State} (h : Keeps b s) {a1 a2} : Keeps b (setCmp a1 a2 s) := by
  unfold setCmp
  repeat' (first | with_reducible assumption | exact castlePpm_le | (show PortOk _; assumption) | (show ChanOk _; assumption) | (intro k hk; first | exact hk | (refine ⟨?_, ?_, ?_⟩ <;> (simp [hk.1, hk.2.1, hk.2.2]; done)) | (refine ⟨?_, ?_⟩ <;> (simp [hk.1, hk.2]; done)) | (dsimp only; split <;> first | exact hk | (refine ⟨?_, ?_, ?_⟩ <;> (simp [hk.1, hk.2.1, hk.2.2]; done)) | (refine ⟨?_, ?_⟩ <;> (simp [hk.1, hk.2]; done)))) | with_reducible apply Keeps_ite | with_reducible apply Keeps_ite_snd | with_reducible refine Keeps_ports ?_ (upd_length _ _ _) (all_upd ?_) | with_reducible refine Keeps_chans ?_ (upd_length _ _ _) (all_upd ?_) | (simp only [Keeps_mk, upd_length, List.length_map, addTime_cmps, addTime_caps, addTime_ppso]; (first | exact Keeps_fold (by with_reducible assumption) | apply Keeps_fold | refine Keeps_units ?_ (all_map ?_) (all_map ?_) | refine Keeps_units ?_ (all_map ?_) id | refine Keeps_units ?_ id (all_map ?_) | refine Keeps_free ?_ (Nat.le_add_right _ _) | refine Keeps_sizes ?_ (fun z => by simp only [sizes, shape, List.cons.injEq] at z ⊢; (first | (simp [z]; done) | (simp [z]; split <;> simp [z]))))) | dsimp only | intro _ | split)

theorem armCmp_keeps {b s : State} (h : Keeps b s) {a1 a2 a3} : Keeps b (armCmp a1 a2 a3 s) := by
  unfold armCmp
  repeat' (first | with_reducible assumption | exact castlePpm_le | (show PortOk _; assumption) | (show ChanOk _; assumption) | (intro k hk; first | exact hk | (refine ⟨?_, ?_, ?_⟩ <;> (simp [hk.1, hk.2.1, hk.2.2]; done)) | (refine ⟨?_, ?_⟩ <;> (simp [hk.1, hk.2]; done)) | (dsimp only; split <;> first | exact hk | (refine ⟨?_, ?_, ?_⟩ <;> (simp [hk.1, hk.2.1, hk.2.2]; done)) | (refine ⟨?_, ?_⟩ <;> (simp [hk.1, hk.2]; done)))) | with_reducible apply Keeps_ite | with_reducible apply Keeps_ite_snd | with_reducible apply tmbCmdErr_keeps | with_reducible apply setCmp_keeps | with_reducible apply raise_keeps | with_reducible refine Keeps_ports ?_ (upd_length _ _ _) (all_upd ?_) | with_reducible refine Keeps_chans ?_ (upd_length _ _ _) (all_upd ?_) | (simp only [Keeps_mk, upd_length, List.length_map, addTime_cmps, addTime_caps, addTime_ppso]; (first | exact Keeps_fold (by with_reducible assumption) | apply Keeps_fold | refine Keeps_units ?_ (all_map ?_) (all_map ?_) | refine Keeps_units ?_ (all_map ?_) id | refine Keeps_units ?_ id (all_map ?_) | refine Keeps_free ?_ (Nat.le_add_right _ _) | refine Keeps_sizes ?_ (fun z => by simp only [sizes, shape, List.cons.injEq] at z ⊢; (first | (simp [z]; done) | (simp [z]; split <;> simp [z]))))) | dsimp only | intro _ | split)

theorem writeCmpCtrl_keeps {b s : State} (h : Keeps b s) {a1 a2} : Keeps b (writeCmpCtrl a1 a2 s) := by
  unfold writeCmpCtrl
  repeat' (first | with_reducible assumption | exact castlePpm_le | (show PortOk _; assumption) | (show ChanOk _; assumption) | (intro k hk; first | exact hk | (refine ⟨?_, ?_, ?_⟩ <;> (simp [hk.1, hk.2.1, hk.2.2]; done)) | (refine ⟨?_, ?_⟩ <;> (simp [hk.1, hk.2]; done)) | (dsimp only; split <;> first | exact hk | (refine ⟨?_, ?_, ?_⟩ <;> (simp [hk.1, hk.2.1, hk.2.2]; done)) | (refine ⟨?_, ?_⟩ <;> (simp [hk.1, hk.2]; done)))) | with_reducible apply Keeps_ite | with_reducible apply Keeps_ite_snd | with_reducible apply lockWrite_keeps | with_reducible apply armCmp_keeps | with_reducible apply setCmp_keeps | with_reducible refine Keeps_ports ?_ (upd_length _ _ _) (all_upd ?_) | with_reducible refine Keeps_chans ?_ (upd_length _ _ _) (all_upd ?_) | (simp only [Keeps_mk, upd_length, List.length_map, addTime_cmps, addTime_caps, addTime_ppso]; (first | exact Keeps_fold (by with_reducible assumption) | apply Keeps_fold | refine Keeps_units ?_ (all_map ?_) (all_map ?_) | refine Keeps_units ?_ (all_map ?_) id | refine Keeps_units ?_ id (all_map ?_) | refine Keeps_free ?_ (Nat.le_add_right _ _) | refine Keeps_sizes ?_ (fun z => by simp only [sizes, shape, List.cons.injEq] at z ⊢; (first | (simp [z]; done) | (simp [z]; split <;> simp [z]))))) | dsimp only | intro _ | split)

theorem updCap_keeps {b s : State} (h : Keeps b s) {a1 a2} : Keeps b (updCap a1 a2 s) := by
  unfold updCap
  repeat' (first | with_reducible assumption | exact castlePpm_le | (show PortOk _; assumption) | (show ChanOk _; assumption) | (intro k hk; first | exact hk | (refine ⟨?_, ?_, ?_⟩ <;> (simp [hk.1, hk.2.1, hk.2.2]; done)) | (refine ⟨?_, ?_⟩ <;> (simp [hk.1, hk.2]; done)) | (dsimp only; split <;> first | exact hk | (refine ⟨?_, ?_, ?_⟩ <;> (simp [hk.1, hk.2.1, hk.2.2]; done)) | (refine ⟨?_, ?_⟩ <;> (simp [hk.1, hk.2]; done)))) | with_reducible apply Keeps_ite | with_reducible apply Keeps_ite_snd | with_reducible refine Keeps_ports ?_ (upd_length _ _ _) (all_upd ?_) | with_reducible refine Keeps_chans ?_ (upd_length _ _ _) (all_upd ?_) | (simp only [Keeps_mk, upd_length, List.length_map, addTime_cmps, addTime_caps, addTime_ppso]; (first | exact Keeps_fold (by with_reducible assumption) | apply Keeps_fold | refine Keeps_units ?_ (all_map ?_) (all_map ?_) | refine Keeps_units ?_ (all_map ?_) id | refine Keeps_units ?_ id (all_map ?_) | refine Keeps_free ?_ (Nat.le_add_right _ _) | refine Keeps_sizes ?_ (fun z => by simp only [sizes, shape, List.cons.injEq] at z ⊢; (first | (simp [z]; done) | (simp [z]; split <;> simp [z]))))) | dsimp only | intro _ | split)

theorem capRead_keeps {b s : State} (h : Keeps b s) {a1 a2} : Keeps b (capRead a1 a2 s) := by
  unfold capRead
  repeat' (first | with_reducible assumption | exact castlePpm_le | (show PortOk _; assumption) | (show ChanOk _; assumption) | (intro k hk; first | exact hk | (refine ⟨?_, ?_, ?_⟩ <;> (simp [hk.1, hk.2.1, hk.2.2]; done)) | (refine ⟨?_, ?_⟩ <;> (simp [hk.1, hk.2]; done)) | (dsimp only; split <;> first | exact hk | (refine ⟨?_, ?_, ?_⟩ <;> (simp [hk.1, hk.2.1, hk.2.2]; done)) | (refine ⟨?_, ?_⟩ <;> (simp [hk.1, hk.2]; done)))) | with_reducible apply Keeps_ite | with_reducible apply Keeps_ite_snd | with_reducible apply updCap_keeps | with_reducible refine Keeps_ports ?_ (upd_length _ _ _) (all_upd ?_) | with_reducible refine Keeps_chans ?_ (upd_length _ _ _) (all_upd ?_) | (simp only [Keeps_mk, upd_length, List.length_map, addTime_cmps, addTime_caps, addTime_ppso]; (first | exact Keeps_fold (by with_reducible assumption) | apply Keeps_fold | refine Keeps_units ?_ (all_map ?_) (all_map ?_) | refine Keeps_units ?_ (all_map ?_) id | refine Keeps_units ?_ id (all_map ?_) | refine Keeps_free ?_ (Nat.le_add_right _ _) | refine Keeps_sizes ?_ (fun z => by simp only [sizes, shape, List.cons.injEq] at z ⊢; (first | (simp [z]; done) | (simp [z]; split <;> simp [z]))))) | dsimp only | intro _ | split)

theorem execCapPeekRead_goes {b s : State} (h : Keeps b s) {a1} : Goes b (execCapPeekRead a1 s) := by
  unfold execCapPeekRead
  repeat' (first | with_reducible assumption | exact castlePpm_le | (show PortOk _; assumption) | (show ChanOk _; assumption) | (intro k hk; first | exact hk | (refine ⟨?_, ?_, ?_⟩ <;> (simp [hk.1, hk.2.1, hk.2.2]; done)) | (refine ⟨?_, ?_⟩ <;> (simp [hk.1, hk.2]; done)) | (dsimp only; split <;> first | exact hk | (refine ⟨?_, ?_, ?_⟩ <;> (simp [hk.1, hk.2.1, hk.2.2]; done)) | (refine ⟨?_, ?_⟩ <;> (simp [hk.1, hk.2]; done)))) | with_reducible apply Goes_next | with_reducible apply Goes_ite | with_reducible apply Keeps_ite | with_reducible apply Keeps_ite_snd | with_reducible apply ifCore_keeps | with_reducible apply capRead_keeps | with_reducible refine Keeps_ports ?_ (upd_length _ _ _) (all_upd ?_) | with_reducible refine Keeps_chans ?_ (upd_length _ _ _) (all_upd ?_) | (simp only [Keeps_mk, upd_length, List.length_map, addTime_cmps, addTime_caps, addTime_ppso]; (first | exact Keeps_fold (by with_reducible assumption) | apply Keeps_fold | refine Keeps_units ?_ (all_map ?_) (all_map ?_) | refine Keeps_units ?_ (all_map ?_) id | refine Keeps_units ?_ id (all_map ?_) | refine Keeps_free ?_ (Nat.le_add_right _ _) | refine Keeps_sizes ?_ (fun z => by simp only [sizes, shape, List.cons.injEq] at z ⊢; (first | (simp [z]; done) | (simp [z]; split <;> simp [z]))))) | dsimp only | intro _ | split)

theorem execStep_goes {b s : State} (h : Keeps b s) : Goes b (execStep s) := by
  unfold execStep
  repeat' (first | with_reducible assumption | exact castlePpm_le | (show PortOk _; assumption) | (show ChanOk _; assumption) | (intro k hk; first | exact hk | (refine ⟨?_, ?_, ?_⟩ <;> (simp [hk.1, hk.2.1, hk.2.2]; done)) | (refine ⟨?_, ?_⟩ <;> (simp [hk.1, hk.2]; done)) | (dsimp only; split <;> first | exact hk | (refine ⟨?_, ?_, ?_⟩ <;> (simp [hk.1, hk.2.1, hk.2.2]; done)) | (refine ⟨?_, ?_⟩ <;> (simp [hk.1, hk.2]; done)))) | with_reducible apply Goes_next | with_reducible apply Goes_ite | with_reducible apply Keeps_ite | with_reducible apply Keeps_ite_snd | with_reducible apply ifCore_keeps | with_reducible apply tmbStep_keeps | with_reducible refine Keeps_ports ?_ (upd_length _ _ _) (all_upd ?_) | with_reducible refine Keeps_chans ?_ (upd_length _ _ _) (all_upd ?_) | (simp only [Keeps_mk, upd_length, List.length_map, addTime_cmps, addTime_caps, addTime_ppso]; (first | exact Keeps_fold (by with_reducible assumption) | apply Keeps_fold | refine Keeps_units ?_ (all_map ?_) (all_map ?_) | refine Keeps_units ?_ (all_map ?_) id | refine Keeps_units ?_ id (all_map ?_) | refine Keeps_free ?_ (Nat.le_add_right _ _) | refine Keeps_sizes ?_ (fun z => by simp only [sizes, shape, List.cons.injEq] at z ⊢; (first | (simp [z]; done) | (simp [z]; split <;> simp [z]))))) | dsimp only | intro _ | split)

theorem setOwner_keeps {b s : State} (h : Keeps b s) {a1} : Keeps b (setOwner a1 s) := by
  unfold setOwner
  repeat' (first | with_reducible assumption | exact castlePpm_le | (show PortOk _; assumption) | (show ChanOk _; assumption) | (intro k hk; first | exact hk | (refine ⟨?_, ?_, ?_⟩ <;> (simp [hk.1, hk.2.1, hk.2.2]; done)) | (refine ⟨?_, ?_⟩ <;> (simp [hk.1, hk.2]; done)) | (dsimp only; split <;> first | exact hk | (refine ⟨?_, ?_, ?_⟩ <;> (simp [hk.1, hk.2.1, hk.2.2]; done)) | (refine ⟨?_, ?_⟩ <;> (simp [hk.1, hk.2]; done)))) | with_reducible apply Keeps_ite | with_reducible apply Keeps_ite_snd | with_reducible apply drawn_keeps | with_reducible refine Keeps_ports ?_ (upd_length _ _ _) (all_upd ?_) | with_reducible refine Keeps_chans ?_ (upd_length _ _ _) (all_upd ?_) | (simp only [Keeps_mk, upd_length, List.length_map, addTime_cmps, addTime_caps, addTime_ppso]; (first | exact Keeps_fold (by with_reducible assumption) | apply Keeps_fold | refine Keeps_units ?_ (all_map ?_) (all_map ?_) | refine Keeps_units ?_ (all_map ?_) id | refine Keeps_units ?_ id (all_map ?_) | refine Keeps_free ?_ (Nat.le_add_right _ _) | refine Keeps_sizes ?_ (fun z => by simp only [sizes, shape, List.cons.injEq] at z ⊢; (first | (simp [z]; done) | (simp [z]; split <;> simp [z]))))) | dsimp only | intro _ | split)

theorem writeOwner_keeps {b s : State} (h : Keeps b s) {a1} : Keeps b (writeOwner a1 s) := by
  unfold writeOwner
  repeat' (first | with_reducible assumption | exact castlePpm_le | (show PortOk _; assumption) | (show ChanOk _; assumption) | (intro k hk; first | exact hk | (refine ⟨?_, ?_, ?_⟩ <;> (simp [hk.1, hk.2.1, hk.2.2]; done)) | (refine ⟨?_, ?_⟩ <;> (simp [hk.1, hk.2]; done)) | (dsimp only; split <;> first | exact hk | (refine ⟨?_, ?_, ?_⟩ <;> (simp [hk.1, hk.2.1, hk.2.2]; done)) | (refine ⟨?_, ?_⟩ <;> (simp [hk.1, hk.2]; done)))) | with_reducible apply Keeps_ite | with_reducible apply Keeps_ite_snd | with_reducible apply tmbCmdErr_keeps | with_reducible apply setOwner_keeps | with_reducible refine Keeps_ports ?_ (upd_length _ _ _) (all_upd ?_) | with_reducible refine Keeps_chans ?_ (upd_length _ _ _) (all_upd ?_) | (simp only [Keeps_mk, upd_length, List.length_map, addTime_cmps, addTime_caps, addTime_ppso]; (first | exact Keeps_fold (by with_reducible assumption) | apply Keeps_fold | refine Keeps_units ?_ (all_map ?_) (all_map ?_) | refine Keeps_units ?_ (all_map ?_) id | refine Keeps_units ?_ id (all_map ?_) | refine Keeps_free ?_ (Nat.le_add_right _ _) | refine Keeps_sizes ?_ (fun z => by simp only [sizes, shape, List.cons.injEq] at z ⊢; (first | (simp [z]; done) | (simp [z]; split <;> simp [z]))))) | dsimp only | intro _ | split)

theorem execOwnerWrite_goes {b s : State} (h : Keeps b s) {a1} : Goes b (execOwnerWrite a1 s) := by
  unfold execOwnerWrite
  repeat' (first | with_reducible assumption | exact castlePpm_le | (show PortOk _; assumption) | (show ChanOk _; assumption) | (intro k hk; first | exact hk | (refine ⟨?_, ?_, ?_⟩ <;> (simp [hk.1, hk.2.1, hk.2.2]; done)) | (refine ⟨?_, ?_⟩ <;> (simp [hk.1, hk.2]; done)) | (dsimp only; split <;> first | exact hk | (refine ⟨?_, ?_, ?_⟩ <;> (simp [hk.1, hk.2.1, hk.2.2]; done)) | (refine ⟨?_, ?_⟩ <;> (simp [hk.1, hk.2]; done)))) | with_reducible apply Goes_next | with_reducible apply Goes_ite | with_reducible apply Keeps_ite | with_reducible apply Keeps_ite_snd | with_reducible apply ifCore_keeps | with_reducible apply writeOwner_keeps | with_reducible refine Keeps_ports ?_ (upd_length _ _ _) (all_upd ?_) | with_reducible refine Keeps_chans ?_ (upd_length _ _ _) (all_upd ?_) | (simp only [Keeps_mk, upd_length, List.length_map, addTime_cmps, addTime_caps, addTime_ppso]; (first | exact Keeps_fold (by with_reducible assumption) | apply Keeps_fold | refine Keeps_units ?_ (all_map ?_) (all_map ?_) | refine Keeps_units ?_ (all_map ?_) id | refine Keeps_units ?_ id (all_map ?_) | refine Keeps_free ?_ (Nat.le_add_right _ _) | refine Keeps_sizes ?_ (fun z => by simp only [sizes, shape, List.cons.injEq] at z ⊢; (first | (simp [z]; done) | (simp [z]; split <;> simp [z]))))) | dsimp only | intro _ | split)

theorem recordEdge_keeps {b s : State} (h : Keeps b s) {a1 a2} : Keeps b (recordEdge a1 a2 s) := by
  unfold recordEdge
  repeat' (first | with_reducible assumption | exact castlePpm_le | (show PortOk _; assumption) | (show ChanOk _; assumption) | (intro k hk; first | exact hk | (refine ⟨?_, ?_, ?_⟩ <;> (simp [hk.1, hk.2.1, hk.2.2]; done)) | (refine ⟨?_, ?_⟩ <;> (simp [hk.1, hk.2]; done)) | (dsimp only; split <;> first | exact hk | (refine ⟨?_, ?_, ?_⟩ <;> (simp [hk.1, hk.2.1, hk.2.2]; done)) | (refine ⟨?_, ?_⟩ <;> (simp [hk.1, hk.2]; done)))) | with_reducible apply Keeps_ite | with_reducible apply Keeps_ite_snd | with_reducible apply updCap_keeps | with_reducible apply raise_keeps | with_reducible refine Keeps_ports ?_ (upd_length _ _ _) (all_upd ?_) | with_reducible refine Keeps_chans ?_ (upd_length _ _ _) (all_upd ?_) | (simp only [Keeps_mk, upd_length, List.length_map, addTime_cmps, addTime_caps, addTime_ppso]; (first | exact Keeps_fold (by with_reducible assumption) | apply Keeps_fold | refine Keeps_units ?_ (all_map ?_) (all_map ?_) | refine Keeps_units ?_ (all_map ?_) id | refine Keeps_units ?_ id (all_map ?_) | refine Keeps_free ?_ (Nat.le_add_right _ _) | refine Keeps_sizes ?_ (fun z => by simp only [sizes, shape, List.cons.injEq] at z ⊢; (first | (simp [z]; done) | (simp [z]; split <;> simp [z]))))) | dsimp only | intro _ | split)

theorem loadCorrection_keeps {b s : State} (h : Keeps b s) {a1} : Keeps b (loadCorrection a1 s) := by
  unfold loadCorrection
  repeat' (first | with_reducible assumption | exact castlePpm_le | (show PortOk _; assumption) | (show ChanOk _; assumption) | (intro k hk; first | exact hk | (refine ⟨?_, ?_, ?_⟩ <;> (simp [hk.1, hk.2.1, hk.2.2]; done)) | (refine ⟨?_, ?_⟩ <;> (simp [hk.1, hk.2]; done)) | (dsimp only; split <;> first | exact hk | (refine ⟨?_, ?_, ?_⟩ <;> (simp [hk.1, hk.2.1, hk.2.2]; done)) | (refine ⟨?_, ?_⟩ <;> (simp [hk.1, hk.2]; done)))) | with_reducible apply Keeps_ite | with_reducible apply Keeps_ite_snd | with_reducible apply drawn_keeps | with_reducible apply loadAddend_keeps | with_reducible refine Keeps_ports ?_ (upd_length _ _ _) (all_upd ?_) | with_reducible refine Keeps_chans ?_ (upd_length _ _ _) (all_upd ?_) | (simp only [Keeps_mk, upd_length, List.length_map, addTime_cmps, addTime_caps, addTime_ppso]; (first | exact Keeps_fold (by with_reducible assumption) | apply Keeps_fold | refine Keeps_units ?_ (all_map ?_) (all_map ?_) | refine Keeps_units ?_ (all_map ?_) id | refine Keeps_units ?_ id (all_map ?_) | refine Keeps_free ?_ (Nat.le_add_right _ _) | refine Keeps_sizes ?_ (fun z => by simp only [sizes, shape, List.cons.injEq] at z ⊢; (first | (simp [z]; done) | (simp [z]; split <;> simp [z]))))) | dsimp only | intro _ | split)

theorem ppsAccept_keeps {b s : State} (h : Keeps b s) {a1 a2} : Keeps b (ppsAccept a1 a2 s) := by
  unfold ppsAccept
  repeat' (first | with_reducible assumption | exact castlePpm_le | (show PortOk _; assumption) | (show ChanOk _; assumption) | (intro k hk; first | exact hk | (refine ⟨?_, ?_, ?_⟩ <;> (simp [hk.1, hk.2.1, hk.2.2]; done)) | (refine ⟨?_, ?_⟩ <;> (simp [hk.1, hk.2]; done)) | (dsimp only; split <;> first | exact hk | (refine ⟨?_, ?_, ?_⟩ <;> (simp [hk.1, hk.2.1, hk.2.2]; done)) | (refine ⟨?_, ?_⟩ <;> (simp [hk.1, hk.2]; done)))) | with_reducible apply Keeps_ite | with_reducible apply Keeps_ite_snd | with_reducible apply drawn_keeps | with_reducible apply loadCorrection_keeps | with_reducible apply loadPpsSecs_keeps | with_reducible apply stepTime_keeps | with_reducible refine Keeps_ports ?_ (upd_length _ _ _) (all_upd ?_) | with_reducible refine Keeps_chans ?_ (upd_length _ _ _) (all_upd ?_) | (simp only [Keeps_mk, upd_length, List.length_map, addTime_cmps, addTime_caps, addTime_ppso]; (first | exact Keeps_fold (by with_reducible assumption) | apply Keeps_fold | refine Keeps_units ?_ (all_map ?_) (all_map ?_) | refine Keeps_units ?_ (all_map ?_) id | refine Keeps_units ?_ id (all_map ?_) | refine Keeps_free ?_ (Nat.le_add_right _ _) | refine Keeps_sizes ?_ (fun z => by simp only [sizes, shape, List.cons.injEq] at z ⊢; (first | (simp [z]; done) | (simp [z]; split <;> simp [z]))))) | dsimp only | intro _ | split)

theorem ppsReject_keeps {b s : State} (h : Keeps b s) : Keeps b (ppsReject s) := by
  unfold ppsReject
  repeat' (first | with_reducible assumption | exact castlePpm_le | (show PortOk _; assumption) | (show ChanOk _; assumption) | (intro k hk; first | exact hk | (refine ⟨?_, ?_, ?_⟩ <;> (simp [hk.1, hk.2.1, hk.2.2]; done)) | (refine ⟨?_, ?_⟩ <;> (simp [hk.1, hk.2]; done)) | (dsimp only; split <;> first | exact hk | (refine ⟨?_, ?_, ?_⟩ <;> (simp [hk.1, hk.2.1, hk.2.2]; done)) | (refine ⟨?_, ?_⟩ <;> (simp [hk.1, hk.2]; done)))) | with_reducible apply Keeps_ite | with_reducible apply Keeps_ite_snd | with_reducible refine Keeps_ports ?_ (upd_length _ _ _) (all_upd ?_) | with_reducible refine Keeps_chans ?_ (upd_length _ _ _) (all_upd ?_) | (simp only [Keeps_mk, upd_length, List.length_map, addTime_cmps, addTime_caps, addTime_ppso]; (first | exact Keeps_fold (by with_reducible assumption) | apply Keeps_fold | refine Keeps_units ?_ (all_map ?_) (all_map ?_) | refine Keeps_units ?_ (all_map ?_) id | refine Keeps_units ?_ id (all_map ?_) | refine Keeps_free ?_ (Nat.le_add_right _ _) | refine Keeps_sizes ?_ (fun z => by simp only [sizes, shape, List.cons.injEq] at z ⊢; (first | (simp [z]; done) | (simp [z]; split <;> simp [z]))))) | dsimp only | intro _ | split)

theorem ppsPulse_keeps {b s : State} (h : Keeps b s) {a1 a2} : Keeps b (ppsPulse a1 a2 s) := by
  unfold ppsPulse
  repeat' (first | with_reducible assumption | exact castlePpm_le | (show PortOk _; assumption) | (show ChanOk _; assumption) | (intro k hk; first | exact hk | (refine ⟨?_, ?_, ?_⟩ <;> (simp [hk.1, hk.2.1, hk.2.2]; done)) | (refine ⟨?_, ?_⟩ <;> (simp [hk.1, hk.2]; done)) | (dsimp only; split <;> first | exact hk | (refine ⟨?_, ?_, ?_⟩ <;> (simp [hk.1, hk.2.1, hk.2.2]; done)) | (refine ⟨?_, ?_⟩ <;> (simp [hk.1, hk.2]; done)))) | with_reducible apply Keeps_ite | with_reducible apply Keeps_ite_snd | with_reducible apply ppsAccept_keeps | with_reducible apply ppsReject_keeps | with_reducible refine Keeps_ports ?_ (upd_length _ _ _) (all_upd ?_) | with_reducible refine Keeps_chans ?_ (upd_length _ _ _) (all_upd ?_) | (simp only [Keeps_mk, upd_length, List.length_map, addTime_cmps, addTime_caps, addTime_ppso]; (first | exact Keeps_fold (by with_reducible assumption) | apply Keeps_fold | refine Keeps_units ?_ (all_map ?_) (all_map ?_) | refine Keeps_units ?_ (all_map ?_) id | refine Keeps_units ?_ id (all_map ?_) | refine Keeps_free ?_ (Nat.le_add_right _ _) | refine Keeps_sizes ?_ (fun z => by simp only [sizes, shape, List.cons.injEq] at z ⊢; (first | (simp [z]; done) | (simp [z]; split <;> simp [z]))))) | dsimp only | intro _ | split)

theorem captureEdge_keeps {b s : State} (h : Keeps b s) {a1 a2 a3} : Keeps b (captureEdge a1 a2 a3 s) := by
  unfold captureEdge
  repeat' (first | with_reducible assumption | exact castlePpm_le | (show PortOk _; assumption) | (show ChanOk _; assumption) | (intro k hk; first | exact hk | (refine ⟨?_, ?_, ?_⟩ <;> (simp [hk.1, hk.2.1, hk.2.2]; done)) | (refine ⟨?_, ?_⟩ <;> (simp [hk.1, hk.2]; done)) | (dsimp only; split <;> first | exact hk | (refine ⟨?_, ?_, ?_⟩ <;> (simp [hk.1, hk.2.1, hk.2.2]; done)) | (refine ⟨?_, ?_⟩ <;> (simp [hk.1, hk.2]; done)))) | with_reducible apply Keeps_ite | with_reducible apply Keeps_ite_snd | with_reducible apply recordEdge_keeps | with_reducible apply ppsPulse_keeps | with_reducible refine Keeps_ports ?_ (upd_length _ _ _) (all_upd ?_) | with_reducible refine Keeps_chans ?_ (upd_length _ _ _) (all_upd ?_) | (simp only [Keeps_mk, upd_length, List.length_map, addTime_cmps, addTime_caps, addTime_ppso]; (first | exact Keeps_fold (by with_reducible assumption) | apply Keeps_fold | refine Keeps_units ?_ (all_map ?_) (all_map ?_) | refine Keeps_units ?_ (all_map ?_) id | refine Keeps_units ?_ id (all_map ?_) | refine Keeps_free ?_ (Nat.le_add_right _ _) | refine Keeps_sizes ?_ (fun z => by simp only [sizes, shape, List.cons.injEq] at z ⊢; (first | (simp [z]; done) | (simp [z]; split <;> simp [z]))))) | dsimp only | intro _ | split)

theorem execCaptureEdge_goes {b s : State} (h : Keeps b s) {a1 a2 a3} : Goes b (execCaptureEdge a1 a2 a3 s) := by
  unfold execCaptureEdge
  repeat' (first | with_reducible assumption | exact castlePpm_le | (show PortOk _; assumption) | (show ChanOk _; assumption) | (intro k hk; first | exact hk | (refine ⟨?_, ?_, ?_⟩ <;> (simp [hk.1, hk.2.1, hk.2.2]; done)) | (refine ⟨?_, ?_⟩ <;> (simp [hk.1, hk.2]; done)) | (dsimp only; split <;> first | exact hk | (refine ⟨?_, ?_, ?_⟩ <;> (simp [hk.1, hk.2.1, hk.2.2]; done)) | (refine ⟨?_, ?_⟩ <;> (simp [hk.1, hk.2]; done)))) | with_reducible apply Goes_next | with_reducible apply Goes_ite | with_reducible apply Keeps_ite | with_reducible apply Keeps_ite_snd | with_reducible apply captureEdge_keeps | with_reducible refine Keeps_ports ?_ (upd_length _ _ _) (all_upd ?_) | with_reducible refine Keeps_chans ?_ (upd_length _ _ _) (all_upd ?_) | (simp only [Keeps_mk, upd_length, List.length_map, addTime_cmps, addTime_caps, addTime_ppso]; (first | exact Keeps_fold (by with_reducible assumption) | apply Keeps_fold | refine Keeps_units ?_ (all_map ?_) (all_map ?_) | refine Keeps_units ?_ (all_map ?_) id | refine Keeps_units ?_ id (all_map ?_) | refine Keeps_free ?_ (Nat.le_add_right _ _) | refine Keeps_sizes ?_ (fun z => by simp only [sizes, shape, List.cons.injEq] at z ⊢; (first | (simp [z]; done) | (simp [z]; split <;> simp [z]))))) | dsimp only | intro _ | split)

theorem execSnapshot_goes {b s : State} (h : Keeps b s) : Goes b (execSnapshot s) := by
  unfold execSnapshot
  repeat' (first | with_reducible assumption | exact castlePpm_le | (show PortOk _; assumption) | (show ChanOk _; assumption) | (intro k hk; first | exact hk | (refine ⟨?_, ?_, ?_⟩ <;> (simp [hk.1, hk.2.1, hk.2.2]; done)) | (refine ⟨?_, ?_⟩ <;> (simp [hk.1, hk.2]; done)) | (dsimp only; split <;> first | exact hk | (refine ⟨?_, ?_, ?_⟩ <;> (simp [hk.1, hk.2.1, hk.2.2]; done)) | (refine ⟨?_, ?_⟩ <;> (simp [hk.1, hk.2]; done)))) | with_reducible apply Goes_next | with_reducible apply Goes_ite | with_reducible apply Keeps_ite | with_reducible apply Keeps_ite_snd | with_reducible apply ifCore_keeps | with_reducible apply tmbSnapshot_keeps | with_reducible refine Keeps_ports ?_ (upd_length _ _ _) (all_upd ?_) | with_reducible refine Keeps_chans ?_ (upd_length _ _ _) (all_upd ?_) | (simp only [Keeps_mk, upd_length, List.length_map, addTime_cmps, addTime_caps, addTime_ppso]; (first | exact Keeps_fold (by with_reducible assumption) | apply Keeps_fold | refine Keeps_units ?_ (all_map ?_) (all_map ?_) | refine Keeps_units ?_ (all_map ?_) id | refine Keeps_units ?_ id (all_map ?_) | refine Keeps_free ?_ (Nat.le_add_right _ _) | refine Keeps_sizes ?_ (fun z => by simp only [sizes, shape, List.cons.injEq] at z ⊢; (first | (simp [z]; done) | (simp [z]; split <;> simp [z]))))) | dsimp only | intro _ | split)

theorem execSlewAbort_goes {b s : State} (h : Keeps b s) : Goes b (execSlewAbort s) := by
  unfold execSlewAbort
  repeat' (first | with_reducible assumption | exact castlePpm_le | (show PortOk _; assumption) | (show ChanOk _; assumption) | (intro k hk; first | exact hk | (refine ⟨?_, ?_, ?_⟩ <;> (simp [hk.1, hk.2.1, hk.2.2]; done)) | (refine ⟨?_, ?_⟩ <;> (simp [hk.1, hk.2]; done)) | (dsimp only; split <;> first | exact hk | (refine ⟨?_, ?_, ?_⟩ <;> (simp [hk.1, hk.2.1, hk.2.2]; done)) | (refine ⟨?_, ?_⟩ <;> (simp [hk.1, hk.2]; done)))) | with_reducible apply Goes_next | with_reducible apply Goes_ite | with_reducible apply Keeps_ite | with_reducible apply Keeps_ite_snd | with_reducible apply ifCore_keeps | with_reducible apply tmbSlewAbort_keeps | with_reducible refine Keeps_ports ?_ (upd_length _ _ _) (all_upd ?_) | with_reducible refine Keeps_chans ?_ (upd_length _ _ _) (all_upd ?_) | (simp only [Keeps_mk, upd_length, List.length_map, addTime_cmps, addTime_caps, addTime_ppso]; (first | exact Keeps_fold (by with_reducible assumption) | apply Keeps_fold | refine Keeps_units ?_ (all_map ?_) (all_map ?_) | refine Keeps_units ?_ (all_map ?_) id | refine Keeps_units ?_ id (all_map ?_) | refine Keeps_free ?_ (Nat.le_add_right _ _) | refine Keeps_sizes ?_ (fun z => by simp only [sizes, shape, List.cons.injEq] at z ⊢; (first | (simp [z]; done) | (simp [z]; split <;> simp [z]))))) | dsimp only | intro _ | split)

theorem execSet_goes {b s : State} (h : Keeps b s) : Goes b (execSet s) := by
  unfold execSet
  repeat' (first | with_reducible assumption | exact castlePpm_le | (show PortOk _; assumption) | (show ChanOk _; assumption) | (intro k hk; first | exact hk | (refine ⟨?_, ?_, ?_⟩ <;> (simp [hk.1, hk.2.1, hk.2.2]; done)) | (refine ⟨?_, ?_⟩ <;> (simp [hk.1, hk.2]; done)) | (dsimp only; split <;> first | exact hk | (refine ⟨?_, ?_, ?_⟩ <;> (simp [hk.1, hk.2.1, hk.2.2]; done)) | (refine ⟨?_, ?_⟩ <;> (simp [hk.1, hk.2]; done)))) | with_reducible apply Goes_next | with_reducible apply Goes_ite | with_reducible apply Keeps_ite | with_reducible apply Keeps_ite_snd | with_reducible apply ifCore_keeps | with_reducible apply tmbSet_keeps | with_reducible refine Keeps_ports ?_ (upd_length _ _ _) (all_upd ?_) | with_reducible refine Keeps_chans ?_ (upd_length _ _ _) (all_upd ?_) | (simp only [Keeps_mk, upd_length, List.length_map, addTime_cmps, addTime_caps, addTime_ppso]; (first | exact Keeps_fold (by with_reducible assumption) | apply Keeps_fold | refine Keeps_units ?_ (all_map ?_) (all_map ?_) | refine Keeps_units ?_ (all_map ?_) id | refine Keeps_units ?_ id (all_map ?_) | refine Keeps_free ?_ (Nat.le_add_right _ _) | refine Keeps_sizes ?_ (fun z => by simp only [sizes, shape, List.cons.injEq] at z ⊢; (first | (simp [z]; done) | (simp [z]; split <;> simp [z]))))) | dsimp only | intro _ | split)

theorem execSetSecAtPps_goes {b s : State} (h : Keeps b s) : Goes b (execSetSecAtPps s) := by
  unfold execSetSecAtPps
  repeat' (first | with_reducible assumption | exact castlePpm_le | (show PortOk _; assumption) | (show ChanOk _; assumption) | (intro k hk; first | exact hk | (refine ⟨?_, ?_, ?_⟩ <;> (simp [hk.1, hk.2.1, hk.2.2]; done)) | (refine ⟨?_, ?_⟩ <;> (simp [hk.1, hk.2]; done)) | (dsimp only; split <;> first | exact hk | (refine ⟨?_, ?_, ?_⟩ <;> (simp [hk.1, hk.2.1, hk.2.2]; done)) | (refine ⟨?_, ?_⟩ <;> (simp [hk.1, hk.2]; done)))) | with_reducible apply Goes_next | with_reducible apply Goes_ite | with_reducible apply Keeps_ite | with_reducible apply Keeps_ite_snd | with_reducible apply ifCore_keeps | with_reducible apply tmbSetSecAtPps_keeps | with_reducible refine Keeps_ports ?_ (upd_length _ _ _) (all_upd ?_) | with_reducible refine Keeps_chans ?_ (upd_length _ _ _) (all_upd ?_) | (simp only [Keeps_mk, upd_length, List.length_map, addTime_cmps, addTime_caps, addTime_ppso]; (first | exact Keeps_fold (by with_reducible assumption) | apply Keeps_fold | refine Keeps_units ?_ (all_map ?_) (all_map ?_) | refine Keeps_units ?_ (all_map ?_) id | refine Keeps_units ?_ id (all_map ?_) | refine Keeps_free ?_ (Nat.le_add_right _ _) | refine Keeps_sizes ?_ (fun z => by simp only [sizes, shape, List.cons.injEq] at z ⊢; (first | (simp [z]; done) | (simp [z]; split <;> simp [z]))))) | dsimp only | intro _ | split)

theorem armSection_keeps {b s : State} (h : Keeps b s) {a1 a2} : Keeps b (armSection a1 a2 s) := by
  induction a2 generalizing a1 s with
  | nil =>
    unfold armSection
    repeat' (first | with_reducible assumption | exact castlePpm_le | (show PortOk _; assumption) | (show ChanOk _; assumption) | (intro k hk; first | exact hk | (refine ⟨?_, ?_, ?_⟩ <;> (simp [hk.1, hk.2.1, hk.2.2]; done)) | (refine ⟨?_, ?_⟩ <;> (simp [hk.1, hk.2]; done)) | (dsimp only; split <;> first | exact hk | (refine ⟨?_, ?_, ?_⟩ <;> (simp [hk.1, hk.2.1, hk.2.2]; done)) | (refine ⟨?_, ?_⟩ <;> (simp [hk.1, hk.2]; done)))) | with_reducible apply Keeps_ite | with_reducible apply Keeps_ite_snd | with_reducible apply armCmp_keeps | with_reducible apply setCmp_keeps | with_reducible refine Keeps_ports ?_ (upd_length _ _ _) (all_upd ?_) | with_reducible refine Keeps_chans ?_ (upd_length _ _ _) (all_upd ?_) | (simp only [Keeps_mk, upd_length, List.length_map, addTime_cmps, addTime_caps, addTime_ppso]; (first | exact Keeps_fold (by with_reducible assumption) | apply Keeps_fold | refine Keeps_units ?_ (all_map ?_) (all_map ?_) | refine Keeps_units ?_ (all_map ?_) id | refine Keeps_units ?_ id (all_map ?_) | refine Keeps_free ?_ (Nat.le_add_right _ _) | refine Keeps_sizes ?_ (fun z => by simp only [sizes, shape, List.cons.injEq] at z ⊢; (first | (simp [z]; done) | (simp [z]; split <;> simp [z]))))) | dsimp only | intro _ | split)
  | cons x l ih =>
    unfold armSection
    repeat' (first | with_reducible assumption | exact castlePpm_le | (show PortOk _; assumption) | (show ChanOk _; assumption) | (intro k hk; first | exact hk | (refine ⟨?_, ?_, ?_⟩ <;> (simp [hk.1, hk.2.1, hk.2.2]; done)) | (refine ⟨?_, ?_⟩ <;> (simp [hk.1, hk.2]; done)) | (dsimp only; split <;> first | exact hk | (refine ⟨?_, ?_, ?_⟩ <;> (simp [hk.1, hk.2.1, hk.2.2]; done)) | (refine ⟨?_, ?_⟩ <;> (simp [hk.1, hk.2]; done)))) | with_reducible apply ih | with_reducible apply Keeps_ite | with_reducible apply Keeps_ite_snd | with_reducible apply armCmp_keeps | with_reducible apply setCmp_keeps | with_reducible refine Keeps_ports ?_ (upd_length _ _ _) (all_upd ?_) | with_reducible refine Keeps_chans ?_ (upd_length _ _ _) (all_upd ?_) | (simp only [Keeps_mk, upd_length, List.length_map, addTime_cmps, addTime_caps, addTime_ppso]; (first | exact Keeps_fold (by with_reducible assumption) | apply Keeps_fold | refine Keeps_units ?_ (all_map ?_) (all_map ?_) | refine Keeps_units ?_ (all_map ?_) id | refine Keeps_units ?_ id (all_map ?_) | refine Keeps_free ?_ (Nat.le_add_right _ _) | refine Keeps_sizes ?_ (fun z => by simp only [sizes, shape, List.cons.injEq] at z ⊢; (first | (simp [z]; done) | (simp [z]; split <;> simp [z]))))) | dsimp only | intro _ | split)

theorem loadIo_keeps {b s : State} (h : Keeps b s) {l : List Byte} {p : PpsLoop} :
    Keeps b { s with tmb := { loadIo l s.tmb with pps := p } } := by
  simp only [Keeps_mk]
  refine Keeps_sizes h (fun z => ?_)
  simp only [sizes, shape, List.cons.injEq] at z ⊢
  simp [loadIo, z]

theorem loadTimeBase_keeps {b s : State} (h : Keeps b s) : Keeps b (loadTimeBase s) := by
  unfold loadTimeBase
  split
  · exact armSection_keeps (loadIo_keeps (setOwner_keeps h))
  · simp only [Keeps_mk, List.length_map]
    exact Keeps_fold (setOwner_keeps h)

theorem execCapFifoRead_goes {b s : State} (h : Keeps b s) {a1} : Goes b (execCapFifoRead a1 s) := by
  unfold execCapFifoRead
  repeat' (first | with_reducible assumption | exact castlePpm_le | (show PortOk _; assumption) | (show ChanOk _; assumption) | (intro k hk; first | exact hk | (refine ⟨?_, ?_, ?_⟩ <;> (simp [hk.1, hk.2.1, hk.2.2]; done)) | (refine ⟨?_, ?_⟩ <;> (simp [hk.1, hk.2]; done)) | (dsimp only; split <;> first | exact hk | (refine ⟨?_, ?_, ?_⟩ <;> (simp [hk.1, hk.2.1, hk.2.2]; done)) | (refine ⟨?_, ?_⟩ <;> (simp [hk.1, hk.2]; done)))) | with_reducible apply Goes_next | with_reducible apply Goes_ite | with_reducible apply Keeps_ite | with_reducible apply Keeps_ite_snd | with_reducible apply ifCore_keeps | with_reducible apply capRead_keeps | with_reducible refine Keeps_ports ?_ (upd_length _ _ _) (all_upd ?_) | with_reducible refine Keeps_chans ?_ (upd_length _ _ _) (all_upd ?_) | (simp only [Keeps_mk, upd_length, List.length_map, addTime_cmps, addTime_caps, addTime_ppso]; (first | exact Keeps_fold (by with_reducible assumption) | apply Keeps_fold | refine Keeps_units ?_ (all_map ?_) (all_map ?_) | refine Keeps_units ?_ (all_map ?_) id | refine Keeps_units ?_ id (all_map ?_) | refine Keeps_free ?_ (Nat.le_add_right _ _) | refine Keeps_sizes ?_ (fun z => by simp only [sizes, shape, List.cons.injEq] at z ⊢; (first | (simp [z]; done) | (simp [z]; split <;> simp [z]))))) | dsimp only | intro _ | split)

theorem execRate_goes {b s : State} (h : Keeps b s) : Goes b (execRate s) := by
  unfold execRate
  repeat' (first | with_reducible assumption | exact castlePpm_le | (show PortOk _; assumption) | (show ChanOk _; assumption) | (intro k hk; first | exact hk | (refine ⟨?_, ?_, ?_⟩ <;> (simp [hk.1, hk.2.1, hk.2.2]; done)) | (refine ⟨?_, ?_⟩ <;> (simp [hk.1, hk.2]; done)) | (dsimp only; split <;> first | exact hk | (refine ⟨?_, ?_, ?_⟩ <;> (simp [hk.1, hk.2.1, hk.2.2]; done)) | (refine ⟨?_, ?_⟩ <;> (simp [hk.1, hk.2]; done)))) | with_reducible apply Goes_next | with_reducible apply Goes_ite | with_reducible apply Keeps_ite | with_reducible apply Keeps_ite_snd | with_reducible apply ifCore_keeps | with_reducible apply tmbRate_keeps | with_reducible refine Keeps_ports ?_ (upd_length _ _ _) (all_upd ?_) | with_reducible refine Keeps_chans ?_ (upd_length _ _ _) (all_upd ?_) | (simp only [Keeps_mk, upd_length, List.length_map, addTime_cmps, addTime_caps, addTime_ppso]; (first | exact Keeps_fold (by with_reducible assumption) | apply Keeps_fold | refine Keeps_units ?_ (all_map ?_) (all_map ?_) | refine Keeps_units ?_ (all_map ?_) id | refine Keeps_units ?_ id (all_map ?_) | refine Keeps_free ?_ (Nat.le_add_right _ _) | refine Keeps_sizes ?_ (fun z => by simp only [sizes, shape, List.cons.injEq] at z ⊢; (first | (simp [z]; done) | (simp [z]; split <;> simp [z]))))) | dsimp only | intro _ | split)

theorem unlockCmps_keeps {b s : State} (h : Keeps b s) : Keeps b (unlockCmps s) := by
  unfold unlockCmps
  repeat' (first | with_reducible assumption | exact castlePpm_le | (show PortOk _; assumption) | (show ChanOk _; assumption) | (intro k hk; first | exact hk | (refine ⟨?_, ?_, ?_⟩ <;> (simp [hk.1, hk.2.1, hk.2.2]; done)) | (refine ⟨?_, ?_⟩ <;> (simp [hk.1, hk.2]; done)) | (dsimp only; split <;> first | exact hk | (refine ⟨?_, ?_, ?_⟩ <;> (simp [hk.1, hk.2.1, hk.2.2]; done)) | (refine ⟨?_, ?_⟩ <;> (simp [hk.1, hk.2]; done)))) | with_reducible apply Keeps_ite | with_reducible apply Keeps_ite_snd | with_reducible refine Keeps_ports ?_ (upd_length _ _ _) (all_upd ?_) | with_reducible refine Keeps_chans ?_ (upd_length _ _ _) (all_upd ?_) | (simp only [Keeps_mk, upd_length, List.length_map, addTime_cmps, addTime_caps, addTime_ppso]; (first | exact Keeps_fold (by with_reducible assumption) | apply Keeps_fold | refine Keeps_units ?_ (all_map ?_) (all_map ?_) | refine Keeps_units ?_ (all_map ?_) id | refine Keeps_units ?_ id (all_map ?_) | refine Keeps_free ?_ (Nat.le_add_right _ _) | refine Keeps_sizes ?_ (fun z => by simp only [sizes, shape, List.cons.injEq] at z ⊢; (first | (simp [z]; done) | (simp [z]; split <;> simp [z]))))) | dsimp only | intro _ | split)

theorem execSecondsCarry_goes {b s : State} (h : Keeps b s) : Goes b (execSecondsCarry s) := by
  unfold execSecondsCarry
  repeat' (first | with_reducible assumption | exact castlePpm_le | (show PortOk _; assumption) | (show ChanOk _; assumption) | (intro k hk; first | exact hk | (refine ⟨?_, ?_, ?_⟩ <;> (simp [hk.1, hk.2.1, hk.2.2]; done)) | (refine ⟨?_, ?_⟩ <;> (simp [hk.1, hk.2]; done)) | (dsimp only; split <;> first | exact hk | (refine ⟨?_, ?_, ?_⟩ <;> (simp [hk.1, hk.2.1, hk.2.2]; done)) | (refine ⟨?_, ?_⟩ <;> (simp [hk.1, hk.2]; done)))) | with_reducible apply Goes_next | with_reducible apply Goes_ite | with_reducible apply Keeps_ite | with_reducible apply Keeps_ite_snd | with_reducible apply tick_keeps | with_reducible refine Keeps_ports ?_ (upd_length _ _ _) (all_upd ?_) | with_reducible refine Keeps_chans ?_ (upd_length _ _ _) (all_upd ?_) | (simp only [Keeps_mk, upd_length, List.length_map, addTime_cmps, addTime_caps, addTime_ppso]; (first | exact Keeps_fold (by with_reducible assumption) | apply Keeps_fold | refine Keeps_units ?_ (all_map ?_) (all_map ?_) | refine Keeps_units ?_ (all_map ?_) id | refine Keeps_units ?_ id (all_map ?_) | refine Keeps_free ?_ (Nat.le_add_right _ _) | refine Keeps_sizes ?_ (fun z => by simp only [sizes, shape, List.cons.injEq] at z ⊢; (first | (simp [z]; done) | (simp [z]; split <;> simp [z]))))) | dsimp only | intro _ | split)

theorem execSlew_goes {b s : State} (h : Keeps b s) : Goes b (execSlew s) := by
  unfold execSlew
  repeat' (first | with_reducible assumption | exact castlePpm_le | (show PortOk _; assumption) | (show ChanOk _; assumption) | (intro k hk; first | exact hk | (refine ⟨?_, ?_, ?_⟩ <;> (simp [hk.1, hk.2.1, hk.2.2]; done)) | (refine ⟨?_, ?_⟩ <;> (simp [hk.1, hk.2]; done)) | (dsimp only; split <;> first | exact hk | (refine ⟨?_, ?_, ?_⟩ <;> (simp [hk.1, hk.2.1, hk.2.2]; done)) | (refine ⟨?_, ?_⟩ <;> (simp [hk.1, hk.2]; done)))) | with_reducible apply Goes_next | with_reducible apply Goes_ite | with_reducible apply Keeps_ite | with_reducible apply Keeps_ite_snd | with_reducible apply ifCore_keeps | with_reducible apply tmbSlew_keeps | with_reducible refine Keeps_ports ?_ (upd_length _ _ _) (all_upd ?_) | with_reducible refine Keeps_chans ?_ (upd_length _ _ _) (all_upd ?_) | (simp only [Keeps_mk, upd_length, List.length_map, addTime_cmps, addTime_caps, addTime_ppso]; (first | exact Keeps_fold (by with_reducible assumption) | apply Keeps_fold | refine Keeps_units ?_ (all_map ?_) (all_map ?_) | refine Keeps_units ?_ (all_map ?_) id | refine Keeps_units ?_ id (all_map ?_) | refine Keeps_free ?_ (Nat.le_add_right _ _) | refine Keeps_sizes ?_ (fun z => by simp only [sizes, shape, List.cons.injEq] at z ⊢; (first | (simp [z]; done) | (simp [z]; split <;> simp [z]))))) | dsimp only | intro _ | split)

theorem execPpsHoldover_goes {b s : State} (h : Keeps b s) : Goes b (execPpsHoldover s) := by
  unfold execPpsHoldover
  repeat' (first | with_reducible assumption | exact castlePpm_le | (show PortOk _; assumption) | (show ChanOk _; assumption) | (intro k hk; first | exact hk | (refine ⟨?_, ?_, ?_⟩ <;> (simp [hk.1, hk.2.1, hk.2.2]; done)) | (refine ⟨?_, ?_⟩ <;> (simp [hk.1, hk.2]; done)) | (dsimp only; split <;> first | exact hk | (refine ⟨?_, ?_, ?_⟩ <;> (simp [hk.1, hk.2.1, hk.2.2]; done)) | (refine ⟨?_, ?_⟩ <;> (simp [hk.1, hk.2]; done)))) | with_reducible apply Goes_next | with_reducible apply Goes_ite | with_reducible apply Keeps_ite | with_reducible apply Keeps_ite_snd | with_reducible apply raise_keeps | with_reducible apply loadAddend_keeps | with_reducible refine Keeps_ports ?_ (upd_length _ _ _) (all_upd ?_) | with_reducible refine Keeps_chans ?_ (upd_length _ _ _) (all_upd ?_) | (simp only [Keeps_mk, upd_length, List.length_map, addTime_cmps, addTime_caps, addTime_ppso]; (first | exact Keeps_fold (by with_reducible assumption) | apply Keeps_fold | refine Keeps_units ?_ (all_map ?_) (all_map ?_) | refine Keeps_units ?_ (all_map ?_) id | refine Keeps_units ?_ id (all_map ?_) | refine Keeps_free ?_ (Nat.le_add_right _ _) | refine Keeps_sizes ?_ (fun z => by simp only [sizes, shape, List.cons.injEq] at z ⊢; (first | (simp [z]; done) | (simp [z]; split <;> simp [z]))))) | dsimp only | intro _ | split)

end Sys2Proof.Laws
end

