-- ==== Sys2Proof/Laws/KeepsServo.lean ====
section
/-!
SUPPORT. The operations of Machine/Servo.lean keep what Laws/Keeps.lean lists.
-/

namespace Sys2Proof.Laws

open Sys2Proof.Machine Sys2Proof.Safety

set_option linter.all false

theorem loadRate_keeps {b s : State} (h : Keeps b s) {a1} : Keeps b (loadRate a1 s) := by
  unfold loadRate
  repeat' (first | with_reducible assumption | exact castlePpm_le | (show PortOk _; assumption) | (show ChanOk _; assumption) | (intro k hk; first | exact hk | (refine ⟨?_, ?_, ?_⟩ <;> (simp [hk.1, hk.2.1, hk.2.2]; done)) | (refine ⟨?_, ?_⟩ <;> (simp [hk.1, hk.2]; done)) | (dsimp only; split <;> first | exact hk | (refine ⟨?_, ?_, ?_⟩ <;> (simp [hk.1, hk.2.1, hk.2.2]; done)) | (refine ⟨?_, ?_⟩ <;> (simp [hk.1, hk.2]; done)))) | with_reducible apply Keeps_ite | with_reducible apply Keeps_ite_snd | with_reducible apply drawn_keeps | with_reducible apply loadAddend_keeps | with_reducible refine Keeps_ports ?_ (upd_length _ _ _) (all_upd ?_) | with_reducible refine Keeps_chans ?_ (upd_length _ _ _) (all_upd ?_) | (simp only [Keeps_mk, upd_length, List.length_map, addTime_cmps, addTime_caps, addTime_ppso]; (first | exact Keeps_fold (by with_reducible assumption) | apply Keeps_fold | refine Keeps_units ?_ (all_map ?_) (all_map ?_) | refine Keeps_units ?_ (all_map ?_) id | refine Keeps_units ?_ id (all_map ?_) | refine Keeps_free ?_ (Nat.le_add_right _ _) | refine Keeps_sizes ?_ (fun z => by simp only [sizes, shape, List.cons.injEq] at z ⊢; (first | (simp [z]; done) | (simp [z]; split <;> simp [z]))))) | dsimp only | intro _ | split)

theorem activate_keeps {b s : State} (h : Keeps b s) {a1} : Keeps b (activate a1 s) := by
  unfold activate
  repeat' (first | with_reducible assumption | exact castlePpm_le | (show PortOk _; assumption) | (show ChanOk _; assumption) | (intro k hk; first | exact hk | (refine ⟨?_, ?_, ?_⟩ <;> (simp [hk.1, hk.2.1, hk.2.2]; done)) | (refine ⟨?_, ?_⟩ <;> (simp [hk.1, hk.2]; done)) | (dsimp only; split <;> first | exact hk | (refine ⟨?_, ?_, ?_⟩ <;> (simp [hk.1, hk.2.1, hk.2.2]; done)) | (refine ⟨?_, ?_⟩ <;> (simp [hk.1, hk.2]; done)))) | with_reducible apply Keeps_ite | with_reducible apply Keeps_ite_snd | with_reducible apply loadRate_keeps | with_reducible refine Keeps_ports ?_ (upd_length _ _ _) (all_upd ?_) | with_reducible refine Keeps_chans ?_ (upd_length _ _ _) (all_upd ?_) | (simp only [Keeps_mk, upd_length, List.length_map, addTime_cmps, addTime_caps, addTime_ppso]; (first | exact Keeps_fold (by with_reducible assumption) | apply Keeps_fold | refine Keeps_units ?_ (all_map ?_) (all_map ?_) | refine Keeps_units ?_ (all_map ?_) id | refine Keeps_units ?_ id (all_map ?_) | refine Keeps_free ?_ (Nat.le_add_right _ _) | refine Keeps_sizes ?_ (fun z => by simp only [sizes, shape, List.cons.injEq] at z ⊢; (first | (simp [z]; done) | (simp [z]; split <;> simp [z]))))) | dsimp only | intro _ | split)

theorem castleTo_keeps {b s : State} (h : Keeps b s) {a1 a2 a3} : Keeps b (castleTo a1 a2 a3 s) := by
  unfold castleTo
  repeat' (first | with_reducible assumption | exact castlePpm_le | (show PortOk _; assumption) | (show ChanOk _; assumption) | (intro k hk; first | exact hk | (refine ⟨?_, ?_, ?_⟩ <;> (simp [hk.1, hk.2.1, hk.2.2]; done)) | (refine ⟨?_, ?_⟩ <;> (simp [hk.1, hk.2]; done)) | (dsimp only; split <;> first | exact hk | (refine ⟨?_, ?_, ?_⟩ <;> (simp [hk.1, hk.2.1, hk.2.2]; done)) | (refine ⟨?_, ?_⟩ <;> (simp [hk.1, hk.2]; done)))) | with_reducible apply Keeps_ite | with_reducible apply Keeps_ite_snd | with_reducible apply activate_keeps | with_reducible apply stepTime_keeps | with_reducible apply slewTime_keeps | with_reducible apply raise_keeps | with_reducible refine Keeps_ports ?_ (upd_length _ _ _) (all_upd ?_) | with_reducible refine Keeps_chans ?_ (upd_length _ _ _) (all_upd ?_) | (simp only [Keeps_mk, upd_length, List.length_map, addTime_cmps, addTime_caps, addTime_ppso]; (first | exact Keeps_fold (by with_reducible assumption) | apply Keeps_fold | refine Keeps_units ?_ (all_map ?_) (all_map ?_) | refine Keeps_units ?_ (all_map ?_) id | refine Keeps_units ?_ id (all_map ?_) | refine Keeps_free ?_ (Nat.le_add_right _ _) | refine Keeps_sizes ?_ (fun z => by simp only [sizes, shape, List.cons.injEq] at z ⊢; (first | (simp [z]; done) | (simp [z]; split <;> simp [z]))))) | dsimp only | intro _ | split)

theorem ptpCmdErr_keeps {b s : State} (h : Keeps b s) : Keeps b (ptpCmdErr s) := by
  unfold ptpCmdErr
  repeat' (first | with_reducible assumption | exact castlePpm_le | (show PortOk _; assumption) | (show ChanOk _; assumption) | (intro k hk; first | exact hk | (refine ⟨?_, ?_, ?_⟩ <;> (simp [hk.1, hk.2.1, hk.2.2]; done)) | (refine ⟨?_, ?_⟩ <;> (simp [hk.1, hk.2]; done)) | (dsimp only; split <;> first | exact hk | (refine ⟨?_, ?_, ?_⟩ <;> (simp [hk.1, hk.2.1, hk.2.2]; done)) | (refine ⟨?_, ?_⟩ <;> (simp [hk.1, hk.2]; done)))) | with_reducible apply Keeps_ite | with_reducible apply Keeps_ite_snd | with_reducible refine Keeps_ports ?_ (upd_length _ _ _) (all_upd ?_) | with_reducible refine Keeps_chans ?_ (upd_length _ _ _) (all_upd ?_) | (simp only [Keeps_mk, upd_length, List.length_map, addTime_cmps, addTime_caps, addTime_ppso]; (first | exact Keeps_fold (by with_reducible assumption) | apply Keeps_fold | refine Keeps_units ?_ (all_map ?_) (all_map ?_) | refine Keeps_units ?_ (all_map ?_) id | refine Keeps_units ?_ id (all_map ?_) | refine Keeps_free ?_ (Nat.le_add_right _ _) | refine Keeps_sizes ?_ (fun z => by simp only [sizes, shape, List.cons.injEq] at z ⊢; (first | (simp [z]; done) | (simp [z]; split <;> simp [z]))))) | dsimp only | intro _ | split)

theorem ptpDecide_keeps {b s : State} (h : Keeps b s) {a1} : Keeps b (ptpDecide a1 s) := by
  unfold ptpDecide
  repeat' (first | with_reducible assumption | exact castlePpm_le | (show PortOk _; assumption) | (show ChanOk _; assumption) | (intro k hk; first | exact hk | (refine ⟨?_, ?_, ?_⟩ <;> (simp [hk.1, hk.2.1, hk.2.2]; done)) | (refine ⟨?_, ?_⟩ <;> (simp [hk.1, hk.2]; done)) | (dsimp only; split <;> first | exact hk | (refine ⟨?_, ?_, ?_⟩ <;> (simp [hk.1, hk.2.1, hk.2.2]; done)) | (refine ⟨?_, ?_⟩ <;> (simp [hk.1, hk.2]; done)))) | with_reducible apply Keeps_ite | with_reducible apply Keeps_ite_snd | with_reducible apply castleTo_keeps | with_reducible apply ptpCmdErr_keeps | with_reducible refine Keeps_ports ?_ (upd_length _ _ _) (all_upd ?_) | with_reducible refine Keeps_chans ?_ (upd_length _ _ _) (all_upd ?_) | (simp only [Keeps_mk, upd_length, List.length_map, addTime_cmps, addTime_caps, addTime_ppso]; (first | exact Keeps_fold (by with_reducible assumption) | apply Keeps_fold | refine Keeps_units ?_ (all_map ?_) (all_map ?_) | refine Keeps_units ?_ (all_map ?_) id | refine Keeps_units ?_ id (all_map ?_) | refine Keeps_free ?_ (Nat.le_add_right _ _) | refine Keeps_sizes ?_ (fun z => by simp only [sizes, shape, List.cons.injEq] at z ⊢; (first | (simp [z]; done) | (simp [z]; split <;> simp [z]))))) | dsimp only | intro _ | split)

theorem execDecideStep_goes {b s : State} (h : Keeps b s) : Goes b (execDecideStep s) := by
  unfold execDecideStep
  repeat' (first | with_reducible assumption | exact castlePpm_le | (show PortOk _; assumption) | (show ChanOk _; assumption) | (intro k hk; first | exact hk | (refine ⟨?_, ?_, ?_⟩ <;> (simp [hk.1, hk.2.1, hk.2.2]; done)) | (refine ⟨?_, ?_⟩ <;> (simp [hk.1, hk.2]; done)) | (dsimp only; split <;> first | exact hk | (refine ⟨?_, ?_, ?_⟩ <;> (simp [hk.1, hk.2.1, hk.2.2]; done)) | (refine ⟨?_, ?_⟩ <;> (simp [hk.1, hk.2]; done)))) | with_reducible apply Goes_next | with_reducible apply Goes_ite | with_reducible apply Keeps_ite | with_reducible apply Keeps_ite_snd | with_reducible apply ifCore_keeps | with_reducible apply ptpDecide_keeps | with_reducible refine Keeps_ports ?_ (upd_length _ _ _) (all_upd ?_) | with_reducible refine Keeps_chans ?_ (upd_length _ _ _) (all_upd ?_) | (simp only [Keeps_mk, upd_length, List.length_map, addTime_cmps, addTime_caps, addTime_ppso]; (first | exact Keeps_fold (by with_reducible assumption) | apply Keeps_fold | refine Keeps_units ?_ (all_map ?_) (all_map ?_) | refine Keeps_units ?_ (all_map ?_) id | refine Keeps_units ?_ id (all_map ?_) | refine Keeps_free ?_ (Nat.le_add_right _ _) | refine Keeps_sizes ?_ (fun z => by simp only [sizes, shape, List.cons.injEq] at z ⊢; (first | (simp [z]; done) | (simp [z]; split <;> simp [z]))))) | dsimp only | intro _ | split)

theorem updDom_keeps {b s : State} (h : Keeps b s) {a1 a2} : Keeps b (updDom a1 a2 s) := by
  unfold updDom
  repeat' (first | with_reducible assumption | exact castlePpm_le | (show PortOk _; assumption) | (show ChanOk _; assumption) | (intro k hk; first | exact hk | (refine ⟨?_, ?_, ?_⟩ <;> (simp [hk.1, hk.2.1, hk.2.2]; done)) | (refine ⟨?_, ?_⟩ <;> (simp [hk.1, hk.2]; done)) | (dsimp only; split <;> first | exact hk | (refine ⟨?_, ?_, ?_⟩ <;> (simp [hk.1, hk.2.1, hk.2.2]; done)) | (refine ⟨?_, ?_⟩ <;> (simp [hk.1, hk.2]; done)))) | with_reducible apply Keeps_ite | with_reducible apply Keeps_ite_snd | with_reducible refine Keeps_ports ?_ (upd_length _ _ _) (all_upd ?_) | with_reducible refine Keeps_chans ?_ (upd_length _ _ _) (all_upd ?_) | (simp only [Keeps_mk, upd_length, List.length_map, addTime_cmps, addTime_caps, addTime_ppso]; (first | exact Keeps_fold (by with_reducible assumption) | apply Keeps_fold | refine Keeps_units ?_ (all_map ?_) (all_map ?_) | refine Keeps_units ?_ (all_map ?_) id | refine Keeps_units ?_ id (all_map ?_) | refine Keeps_free ?_ (Nat.le_add_right _ _) | refine Keeps_sizes ?_ (fun z => by simp only [sizes, shape, List.cons.injEq] at z ⊢; (first | (simp [z]; done) | (simp [z]; split <;> simp [z]))))) | dsimp only | intro _ | split)

theorem steer_keeps {b s : State} (h : Keeps b s) {a1} : Keeps b (steer a1 s) := by
  unfold steer
  repeat' (first | with_reducible assumption | exact castlePpm_le | (show PortOk _; assumption) | (show ChanOk _; assumption) | (intro k hk; first | exact hk | (refine ⟨?_, ?_, ?_⟩ <;> (simp [hk.1, hk.2.1, hk.2.2]; done)) | (refine ⟨?_, ?_⟩ <;> (simp [hk.1, hk.2]; done)) | (dsimp only; split <;> first | exact hk | (refine ⟨?_, ?_, ?_⟩ <;> (simp [hk.1, hk.2.1, hk.2.2]; done)) | (refine ⟨?_, ?_⟩ <;> (simp [hk.1, hk.2]; done)))) | with_reducible apply Keeps_ite | with_reducible apply Keeps_ite_snd | with_reducible apply loadRate_keeps | with_reducible refine Keeps_ports ?_ (upd_length _ _ _) (all_upd ?_) | with_reducible refine Keeps_chans ?_ (upd_length _ _ _) (all_upd ?_) | (simp only [Keeps_mk, upd_length, List.length_map, addTime_cmps, addTime_caps, addTime_ppso]; (first | exact Keeps_fold (by with_reducible assumption) | apply Keeps_fold | refine Keeps_units ?_ (all_map ?_) (all_map ?_) | refine Keeps_units ?_ (all_map ?_) id | refine Keeps_units ?_ id (all_map ?_) | refine Keeps_free ?_ (Nat.le_add_right _ _) | refine Keeps_sizes ?_ (fun z => by simp only [sizes, shape, List.cons.injEq] at z ⊢; (first | (simp [z]; done) | (simp [z]; split <;> simp [z]))))) | dsimp only | intro _ | split)

theorem acquireSample_keeps {b s : State} (h : Keeps b s) {a1 a2 a3} : Keeps b (acquireSample a1 a2 a3 s) := by
  unfold acquireSample
  repeat' (first | with_reducible assumption | exact castlePpm_le | (show PortOk _; assumption) | (show ChanOk _; assumption) | (intro k hk; first | exact hk | (refine ⟨?_, ?_, ?_⟩ <;> (simp [hk.1, hk.2.1, hk.2.2]; done)) | (refine ⟨?_, ?_⟩ <;> (simp [hk.1, hk.2]; done)) | (dsimp only; split <;> first | exact hk | (refine ⟨?_, ?_, ?_⟩ <;> (simp [hk.1, hk.2.1, hk.2.2]; done)) | (refine ⟨?_, ?_⟩ <;> (simp [hk.1, hk.2]; done)))) | with_reducible apply Keeps_ite | with_reducible apply Keeps_ite_snd | with_reducible apply updDom_keeps | with_reducible apply steer_keeps | with_reducible apply stepTime_keeps | with_reducible apply drawn_keeps | with_reducible refine Keeps_ports ?_ (upd_length _ _ _) (all_upd ?_) | with_reducible refine Keeps_chans ?_ (upd_length _ _ _) (all_upd ?_) | (simp only [Keeps_mk, upd_length, List.length_map, addTime_cmps, addTime_caps, addTime_ppso]; (first | exact Keeps_fold (by with_reducible assumption) | apply Keeps_fold | refine Keeps_units ?_ (all_map ?_) (all_map ?_) | refine Keeps_units ?_ (all_map ?_) id | refine Keeps_units ?_ id (all_map ?_) | refine Keeps_free ?_ (Nat.le_add_right _ _) | refine Keeps_sizes ?_ (fun z => by simp only [sizes, shape, List.cons.injEq] at z ⊢; (first | (simp [z]; done) | (simp [z]; split <;> simp [z]))))) | dsimp only | intro _ | split)

theorem castleTry_keeps {b s : State} (h : Keeps b s) {a1} : Keeps b (castleTry a1 s) := by
  unfold castleTry
  repeat' (first | with_reducible assumption | exact castlePpm_le | (show PortOk _; assumption) | (show ChanOk _; assumption) | (intro k hk; first | exact hk | (refine ⟨?_, ?_, ?_⟩ <;> (simp [hk.1, hk.2.1, hk.2.2]; done)) | (refine ⟨?_, ?_⟩ <;> (simp [hk.1, hk.2]; done)) | (dsimp only; split <;> first | exact hk | (refine ⟨?_, ?_, ?_⟩ <;> (simp [hk.1, hk.2.1, hk.2.2]; done)) | (refine ⟨?_, ?_⟩ <;> (simp [hk.1, hk.2]; done)))) | with_reducible apply Keeps_ite | with_reducible apply Keeps_ite_snd | with_reducible apply castleTo_keeps | with_reducible apply raise_keeps | with_reducible refine Keeps_ports ?_ (upd_length _ _ _) (all_upd ?_) | with_reducible refine Keeps_chans ?_ (upd_length _ _ _) (all_upd ?_) | (simp only [Keeps_mk, upd_length, List.length_map, addTime_cmps, addTime_caps, addTime_ppso]; (first | exact Keeps_fold (by with_reducible assumption) | apply Keeps_fold | refine Keeps_units ?_ (all_map ?_) (all_map ?_) | refine Keeps_units ?_ (all_map ?_) id | refine Keeps_units ?_ id (all_map ?_) | refine Keeps_free ?_ (Nat.le_add_right _ _) | refine Keeps_sizes ?_ (fun z => by simp only [sizes, shape, List.cons.injEq] at z ⊢; (first | (simp [z]; done) | (simp [z]; split <;> simp [z]))))) | dsimp only | intro _ | split)

theorem ptpCastle_keeps {b s : State} (h : Keeps b s) : Keeps b (ptpCastle s) := by
  unfold ptpCastle
  repeat' (first | with_reducible assumption | exact castlePpm_le | (show PortOk _; assumption) | (show ChanOk _; assumption) | (intro k hk; first | exact hk | (refine ⟨?_, ?_, ?_⟩ <;> (simp [hk.1, hk.2.1, hk.2.2]; done)) | (refine ⟨?_, ?_⟩ <;> (simp [hk.1, hk.2]; done)) | (dsimp only; split <;> first | exact hk | (refine ⟨?_, ?_, ?_⟩ <;> (simp [hk.1, hk.2.1, hk.2.2]; done)) | (refine ⟨?_, ?_⟩ <;> (simp [hk.1, hk.2]; done)))) | with_reducible apply Keeps_ite | with_reducible apply Keeps_ite_snd | with_reducible apply castleTry_keeps | with_reducible apply ptpCmdErr_keeps | with_reducible refine Keeps_ports ?_ (upd_length _ _ _) (all_upd ?_) | with_reducible refine Keeps_chans ?_ (upd_length _ _ _) (all_upd ?_) | (simp only [Keeps_mk, upd_length, List.length_map, addTime_cmps, addTime_caps, addTime_ppso]; (first | exact Keeps_fold (by with_reducible assumption) | apply Keeps_fold | refine Keeps_units ?_ (all_map ?_) (all_map ?_) | refine Keeps_units ?_ (all_map ?_) id | refine Keeps_units ?_ id (all_map ?_) | refine Keeps_free ?_ (Nat.le_add_right _ _) | refine Keeps_sizes ?_ (fun z => by simp only [sizes, shape, List.cons.injEq] at z ⊢; (first | (simp [z]; done) | (simp [z]; split <;> simp [z]))))) | dsimp only | intro _ | split)

theorem ptpClearTimeSet_keeps {b s : State} (h : Keeps b s) : Keeps b (ptpClearTimeSet s) := by
  unfold ptpClearTimeSet
  repeat' (first | with_reducible assumption | exact castlePpm_le | (show PortOk _; assumption) | (show ChanOk _; assumption) | (intro k hk; first | exact hk | (refine ⟨?_, ?_, ?_⟩ <;> (simp [hk.1, hk.2.1, hk.2.2]; done)) | (refine ⟨?_, ?_⟩ <;> (simp [hk.1, hk.2]; done)) | (dsimp only; split <;> first | exact hk | (refine ⟨?_, ?_, ?_⟩ <;> (simp [hk.1, hk.2.1, hk.2.2]; done)) | (refine ⟨?_, ?_⟩ <;> (simp [hk.1, hk.2]; done)))) | with_reducible apply Keeps_ite | with_reducible apply Keeps_ite_snd | with_reducible refine Keeps_ports ?_ (upd_length _ _ _) (all_upd ?_) | with_reducible refine Keeps_chans ?_ (upd_length _ _ _) (all_upd ?_) | (simp only [Keeps_mk, upd_length, List.length_map, addTime_cmps, addTime_caps, addTime_ppso]; (first | exact Keeps_fold (by with_reducible assumption) | apply Keeps_fold | refine Keeps_units ?_ (all_map ?_) (all_map ?_) | refine Keeps_units ?_ (all_map ?_) id | refine Keeps_units ?_ id (all_map ?_) | refine Keeps_free ?_ (Nat.le_add_right _ _) | refine Keeps_sizes ?_ (fun z => by simp only [sizes, shape, List.cons.injEq] at z ⊢; (first | (simp [z]; done) | (simp [z]; split <;> simp [z]))))) | dsimp only | intro _ | split)

theorem ptpCommand_keeps {b s : State} (h : Keeps b s) {a1} : Keeps b (ptpCommand a1 s) := by
  unfold ptpCommand
  repeat' (first | with_reducible assumption | exact castlePpm_le | (show PortOk _; assumption) | (show ChanOk _; assumption) | (intro k hk; first | exact hk | (refine ⟨?_, ?_, ?_⟩ <;> (simp [hk.1, hk.2.1, hk.2.2]; done)) | (refine ⟨?_, ?_⟩ <;> (simp [hk.1, hk.2]; done)) | (dsimp only; split <;> first | exact hk | (refine ⟨?_, ?_, ?_⟩ <;> (simp [hk.1, hk.2.1, hk.2.2]; done)) | (refine ⟨?_, ?_⟩ <;> (simp [hk.1, hk.2]; done)))) | with_reducible apply Keeps_ite | with_reducible apply Keeps_ite_snd | with_reducible apply ptpCastle_keeps | with_reducible apply ptpDecide_keeps | with_reducible apply ptpClearTimeSet_keeps | with_reducible apply ptpCmdErr_keeps | with_reducible refine Keeps_ports ?_ (upd_length _ _ _) (all_upd ?_) | with_reducible refine Keeps_chans ?_ (upd_length _ _ _) (all_upd ?_) | (simp only [Keeps_mk, upd_length, List.length_map, addTime_cmps, addTime_caps, addTime_ppso]; (first | exact Keeps_fold (by with_reducible assumption) | apply Keeps_fold | refine Keeps_units ?_ (all_map ?_) (all_map ?_) | refine Keeps_units ?_ (all_map ?_) id | refine Keeps_units ?_ id (all_map ?_) | refine Keeps_free ?_ (Nat.le_add_right _ _) | refine Keeps_sizes ?_ (fun z => by simp only [sizes, shape, List.cons.injEq] at z ⊢; (first | (simp [z]; done) | (simp [z]; split <;> simp [z]))))) | dsimp only | intro _ | split)

theorem enterHoldover_keeps {b s : State} (h : Keeps b s) : Keeps b (enterHoldover s) := by
  unfold enterHoldover
  repeat' (first | with_reducible assumption | exact castlePpm_le | (show PortOk _; assumption) | (show ChanOk _; assumption) | (intro k hk; first | exact hk | (refine ⟨?_, ?_, ?_⟩ <;> (simp [hk.1, hk.2.1, hk.2.2]; done)) | (refine ⟨?_, ?_⟩ <;> (simp [hk.1, hk.2]; done)) | (dsimp only; split <;> first | exact hk | (refine ⟨?_, ?_, ?_⟩ <;> (simp [hk.1, hk.2.1, hk.2.2]; done)) | (refine ⟨?_, ?_⟩ <;> (simp [hk.1, hk.2]; done)))) | with_reducible apply Keeps_ite | with_reducible apply Keeps_ite_snd | with_reducible apply raise_keeps | with_reducible apply loadAddend_keeps | with_reducible refine Keeps_ports ?_ (upd_length _ _ _) (all_upd ?_) | with_reducible refine Keeps_chans ?_ (upd_length _ _ _) (all_upd ?_) | (simp only [Keeps_mk, upd_length, List.length_map, addTime_cmps, addTime_caps, addTime_ppso]; (first | exact Keeps_fold (by with_reducible assumption) | apply Keeps_fold | refine Keeps_units ?_ (all_map ?_) (all_map ?_) | refine Keeps_units ?_ (all_map ?_) id | refine Keeps_units ?_ id (all_map ?_) | refine Keeps_free ?_ (Nat.le_add_right _ _) | refine Keeps_sizes ?_ (fun z => by simp only [sizes, shape, List.cons.injEq] at z ⊢; (first | (simp [z]; done) | (simp [z]; split <;> simp [z]))))) | dsimp only | intro _ | split)

theorem execClearTimeSet_goes {b s : State} (h : Keeps b s) : Goes b (execClearTimeSet s) := by
  unfold execClearTimeSet
  repeat' (first | with_reducible assumption | exact castlePpm_le | (show PortOk _; assumption) | (show ChanOk _; assumption) | (intro k hk; first | exact hk | (refine ⟨?_, ?_, ?_⟩ <;> (simp [hk.1, hk.2.1, hk.2.2]; done)) | (refine ⟨?_, ?_⟩ <;> (simp [hk.1, hk.2]; done)) | (dsimp only; split <;> first | exact hk | (refine ⟨?_, ?_, ?_⟩ <;> (simp [hk.1, hk.2.1, hk.2.2]; done)) | (refine ⟨?_, ?_⟩ <;> (simp [hk.1, hk.2]; done)))) | with_reducible apply Goes_next | with_reducible apply Goes_ite | with_reducible apply Keeps_ite | with_reducible apply Keeps_ite_snd | with_reducible apply ifCore_keeps | with_reducible apply ptpClearTimeSet_keeps | with_reducible refine Keeps_ports ?_ (upd_length _ _ _) (all_upd ?_) | with_reducible refine Keeps_chans ?_ (upd_length _ _ _) (all_upd ?_) | (simp only [Keeps_mk, upd_length, List.length_map, addTime_cmps, addTime_caps, addTime_ppso]; (first | exact Keeps_fold (by with_reducible assumption) | apply Keeps_fold | refine Keeps_units ?_ (all_map ?_) (all_map ?_) | refine Keeps_units ?_ (all_map ?_) id | refine Keeps_units ?_ id (all_map ?_) | refine Keeps_free ?_ (Nat.le_add_right _ _) | refine Keeps_sizes ?_ (fun z => by simp only [sizes, shape, List.cons.injEq] at z ⊢; (first | (simp [z]; done) | (simp [z]; split <;> simp [z]))))) | dsimp only | intro _ | split)

theorem execPtpHoldoverEntry_goes {b s : State} (h : Keeps b s) : Goes b (execPtpHoldoverEntry s) := by
  unfold execPtpHoldoverEntry
  repeat' (first | with_reducible assumption | exact castlePpm_le | (show PortOk _; assumption) | (show ChanOk _; assumption) | (intro k hk; first | exact hk | (refine ⟨?_, ?_, ?_⟩ <;> (simp [hk.1, hk.2.1, hk.2.2]; done)) | (refine ⟨?_, ?_⟩ <;> (simp [hk.1, hk.2]; done)) | (dsimp only; split <;> first | exact hk | (refine ⟨?_, ?_, ?_⟩ <;> (simp [hk.1, hk.2.1, hk.2.2]; done)) | (refine ⟨?_, ?_⟩ <;> (simp [hk.1, hk.2]; done)))) | with_reducible apply Goes_next | with_reducible apply Goes_ite | with_reducible apply Keeps_ite | with_reducible apply Keeps_ite_snd | with_reducible apply enterHoldover_keeps | with_reducible refine Keeps_ports ?_ (upd_length _ _ _) (all_upd ?_) | with_reducible refine Keeps_chans ?_ (upd_length _ _ _) (all_upd ?_) | (simp only [Keeps_mk, upd_length, List.length_map, addTime_cmps, addTime_caps, addTime_ppso]; (first | exact Keeps_fold (by with_reducible assumption) | apply Keeps_fold | refine Keeps_units ?_ (all_map ?_) (all_map ?_) | refine Keeps_units ?_ (all_map ?_) id | refine Keeps_units ?_ id (all_map ?_) | refine Keeps_free ?_ (Nat.le_add_right _ _) | refine Keeps_sizes ?_ (fun z => by simp only [sizes, shape, List.cons.injEq] at z ⊢; (first | (simp [z]; done) | (simp [z]; split <;> simp [z]))))) | dsimp only | intro _ | split)

theorem startServo_keeps {b s : State} (h : Keeps b s) {a1} : Keeps b (startServo a1 s) := by
  unfold startServo
  repeat' (first | with_reducible assumption | exact castlePpm_le | (show PortOk _; assumption) | (show ChanOk _; assumption) | (intro k hk; first | exact hk | (refine ⟨?_, ?_, ?_⟩ <;> (simp [hk.1, hk.2.1, hk.2.2]; done)) | (refine ⟨?_, ?_⟩ <;> (simp [hk.1, hk.2]; done)) | (dsimp only; split <;> first | exact hk | (refine ⟨?_, ?_, ?_⟩ <;> (simp [hk.1, hk.2.1, hk.2.2]; done)) | (refine ⟨?_, ?_⟩ <;> (simp [hk.1, hk.2]; done)))) | with_reducible apply Keeps_ite | with_reducible apply Keeps_ite_snd | with_reducible apply updDom_keeps | with_reducible apply activate_keeps | with_reducible refine Keeps_ports ?_ (upd_length _ _ _) (all_upd ?_) | with_reducible refine Keeps_chans ?_ (upd_length _ _ _) (all_upd ?_) | (simp only [Keeps_mk, upd_length, List.length_map, addTime_cmps, addTime_caps, addTime_ppso]; (first | exact Keeps_fold (by with_reducible assumption) | apply Keeps_fold | refine Keeps_units ?_ (all_map ?_) (all_map ?_) | refine Keeps_units ?_ (all_map ?_) id | refine Keeps_units ?_ id (all_map ?_) | refine Keeps_free ?_ (Nat.le_add_right _ _) | refine Keeps_sizes ?_ (fun z => by simp only [sizes, shape, List.cons.injEq] at z ⊢; (first | (simp [z]; done) | (simp [z]; split <;> simp [z]))))) | dsimp only | intro _ | split)

theorem execDecideSlew_goes {b s : State} (h : Keeps b s) : Goes b (execDecideSlew s) := by
  unfold execDecideSlew
  repeat' (first | with_reducible assumption | exact castlePpm_le | (show PortOk _; assumption) | (show ChanOk _; assumption) | (intro k hk; first | exact hk | (refine ⟨?_, ?_, ?_⟩ <;> (simp [hk.1, hk.2.1, hk.2.2]; done)) | (refine ⟨?_, ?_⟩ <;> (simp [hk.1, hk.2]; done)) | (dsimp only; split <;> first | exact hk | (refine ⟨?_, ?_, ?_⟩ <;> (simp [hk.1, hk.2.1, hk.2.2]; done)) | (refine ⟨?_, ?_⟩ <;> (simp [hk.1, hk.2]; done)))) | with_reducible apply Goes_next | with_reducible apply Goes_ite | with_reducible apply Keeps_ite | with_reducible apply Keeps_ite_snd | with_reducible apply ifCore_keeps | with_reducible apply ptpDecide_keeps | with_reducible refine Keeps_ports ?_ (upd_length _ _ _) (all_upd ?_) | with_reducible refine Keeps_chans ?_ (upd_length _ _ _) (all_upd ?_) | (simp only [Keeps_mk, upd_length, List.length_map, addTime_cmps, addTime_caps, addTime_ppso]; (first | exact Keeps_fold (by with_reducible assumption) | apply Keeps_fold | refine Keeps_units ?_ (all_map ?_) (all_map ?_) | refine Keeps_units ?_ (all_map ?_) id | refine Keeps_units ?_ id (all_map ?_) | refine Keeps_free ?_ (Nat.le_add_right _ _) | refine Keeps_sizes ?_ (fun z => by simp only [sizes, shape, List.cons.injEq] at z ⊢; (first | (simp [z]; done) | (simp [z]; split <;> simp [z]))))) | dsimp only | intro _ | split)

theorem reviewBlocked_keeps {b s : State} (h : Keeps b s) : Keeps b (reviewBlocked s) := by
  unfold reviewBlocked
  repeat' (first | with_reducible assumption | exact castlePpm_le | (show PortOk _; assumption) | (show ChanOk _; assumption) | (intro k hk; first | exact hk | (refine ⟨?_, ?_, ?_⟩ <;> (simp [hk.1, hk.2.1, hk.2.2]; done)) | (refine ⟨?_, ?_⟩ <;> (simp [hk.1, hk.2]; done)) | (dsimp only; split <;> first | exact hk | (refine ⟨?_, ?_, ?_⟩ <;> (simp [hk.1, hk.2.1, hk.2.2]; done)) | (refine ⟨?_, ?_⟩ <;> (simp [hk.1, hk.2]; done)))) | with_reducible apply Keeps_ite | with_reducible apply Keeps_ite_snd | with_reducible apply castleTo_keeps | with_reducible refine Keeps_ports ?_ (upd_length _ _ _) (all_upd ?_) | with_reducible refine Keeps_chans ?_ (upd_length _ _ _) (all_upd ?_) | (simp only [Keeps_mk, upd_length, List.length_map, addTime_cmps, addTime_caps, addTime_ppso]; (first | exact Keeps_fold (by with_reducible assumption) | apply Keeps_fold | refine Keeps_units ?_ (all_map ?_) (all_map ?_) | refine Keeps_units ?_ (all_map ?_) id | refine Keeps_units ?_ id (all_map ?_) | refine Keeps_free ?_ (Nat.le_add_right _ _) | refine Keeps_sizes ?_ (fun z => by simp only [sizes, shape, List.cons.injEq] at z ⊢; (first | (simp [z]; done) | (simp [z]; split <;> simp [z]))))) | dsimp only | intro _ | split)

theorem reachedLock_keeps {b s : State} (h : Keeps b s) {a1} : Keeps b (reachedLock a1 s) := by
  unfold reachedLock
  repeat' (first | with_reducible assumption | exact castlePpm_le | (show PortOk _; assumption) | (show ChanOk _; assumption) | (intro k hk; first | exact hk | (refine ⟨?_, ?_, ?_⟩ <;> (simp [hk.1, hk.2.1, hk.2.2]; done)) | (refine ⟨?_, ?_⟩ <;> (simp [hk.1, hk.2]; done)) | (dsimp only; split <;> first | exact hk | (refine ⟨?_, ?_, ?_⟩ <;> (simp [hk.1, hk.2.1, hk.2.2]; done)) | (refine ⟨?_, ?_⟩ <;> (simp [hk.1, hk.2]; done)))) | with_reducible apply Keeps_ite | with_reducible apply Keeps_ite_snd | with_reducible apply castleTry_keeps | with_reducible refine Keeps_ports ?_ (upd_length _ _ _) (all_upd ?_) | with_reducible refine Keeps_chans ?_ (upd_length _ _ _) (all_upd ?_) | (simp only [Keeps_mk, upd_length, List.length_map, addTime_cmps, addTime_caps, addTime_ppso]; (first | exact Keeps_fold (by with_reducible assumption) | apply Keeps_fold | refine Keeps_units ?_ (all_map ?_) (all_map ?_) | refine Keeps_units ?_ (all_map ?_) id | refine Keeps_units ?_ id (all_map ?_) | refine Keeps_free ?_ (Nat.le_add_right _ _) | refine Keeps_sizes ?_ (fun z => by simp only [sizes, shape, List.cons.injEq] at z ⊢; (first | (simp [z]; done) | (simp [z]; split <;> simp [z]))))) | dsimp only | intro _ | split)

theorem servoSample_keeps {b s : State} (h : Keeps b s) {a1 a2} : Keeps b (servoSample a1 a2 s) := by
  unfold servoSample
  repeat' (first | with_reducible assumption | exact castlePpm_le | (show PortOk _; assumption) | (show ChanOk _; assumption) | (intro k hk; first | exact hk | (refine ⟨?_, ?_, ?_⟩ <;> (simp [hk.1, hk.2.1, hk.2.2]; done)) | (refine ⟨?_, ?_⟩ <;> (simp [hk.1, hk.2]; done)) | (dsimp only; split <;> first | exact hk | (refine ⟨?_, ?_, ?_⟩ <;> (simp [hk.1, hk.2.1, hk.2.2]; done)) | (refine ⟨?_, ?_⟩ <;> (simp [hk.1, hk.2]; done)))) | with_reducible apply Keeps_ite | with_reducible apply Keeps_ite_snd | with_reducible apply updDom_keeps | with_reducible apply activate_keeps | with_reducible apply reviewBlocked_keeps | with_reducible apply acquireSample_keeps | with_reducible apply steer_keeps | with_reducible apply reachedLock_keeps | with_reducible refine Keeps_ports ?_ (upd_length _ _ _) (all_upd ?_) | with_reducible refine Keeps_chans ?_ (upd_length _ _ _) (all_upd ?_) | (simp only [Keeps_mk, upd_length, List.length_map, addTime_cmps, addTime_caps, addTime_ppso]; (first | exact Keeps_fold (by with_reducible assumption) | apply Keeps_fold | refine Keeps_units ?_ (all_map ?_) (all_map ?_) | refine Keeps_units ?_ (all_map ?_) id | refine Keeps_units ?_ id (all_map ?_) | refine Keeps_free ?_ (Nat.le_add_right _ _) | refine Keeps_sizes ?_ (fun z => by simp only [sizes, shape, List.cons.injEq] at z ⊢; (first | (simp [z]; done) | (simp [z]; split <;> simp [z]))))) | dsimp only | intro _ | split)

theorem idleServo_keeps {b s : State} (h : Keeps b s) {a1} : Keeps b (idleServo a1 s) := by
  unfold idleServo
  repeat' (first | with_reducible assumption | exact castlePpm_le | (show PortOk _; assumption) | (show ChanOk _; assumption) | (intro k hk; first | exact hk | (refine ⟨?_, ?_, ?_⟩ <;> (simp [hk.1, hk.2.1, hk.2.2]; done)) | (refine ⟨?_, ?_⟩ <;> (simp [hk.1, hk.2]; done)) | (dsimp only; split <;> first | exact hk | (refine ⟨?_, ?_, ?_⟩ <;> (simp [hk.1, hk.2.1, hk.2.2]; done)) | (refine ⟨?_, ?_⟩ <;> (simp [hk.1, hk.2]; done)))) | with_reducible apply Keeps_ite | with_reducible apply Keeps_ite_snd | with_reducible apply reviewBlocked_keeps | with_reducible apply updDom_keeps | with_reducible refine Keeps_ports ?_ (upd_length _ _ _) (all_upd ?_) | with_reducible refine Keeps_chans ?_ (upd_length _ _ _) (all_upd ?_) | (simp only [Keeps_mk, upd_length, List.length_map, addTime_cmps, addTime_caps, addTime_ppso]; (first | exact Keeps_fold (by with_reducible assumption) | apply Keeps_fold | refine Keeps_units ?_ (all_map ?_) (all_map ?_) | refine Keeps_units ?_ (all_map ?_) id | refine Keeps_units ?_ id (all_map ?_) | refine Keeps_free ?_ (Nat.le_add_right _ _) | refine Keeps_sizes ?_ (fun z => by simp only [sizes, shape, List.cons.injEq] at z ⊢; (first | (simp [z]; done) | (simp [z]; split <;> simp [z]))))) | dsimp only | intro _ | split)

theorem loseDomain_keeps {b s : State} (h : Keeps b s) {a1} : Keeps b (loseDomain a1 s) := by
  unfold loseDomain
  repeat' (first | with_reducible assumption | exact castlePpm_le | (show PortOk _; assumption) | (show ChanOk _; assumption) | (intro k hk; first | exact hk | (refine ⟨?_, ?_, ?_⟩ <;> (simp [hk.1, hk.2.1, hk.2.2]; done)) | (refine ⟨?_, ?_⟩ <;> (simp [hk.1, hk.2]; done)) | (dsimp only; split <;> first | exact hk | (refine ⟨?_, ?_, ?_⟩ <;> (simp [hk.1, hk.2.1, hk.2.2]; done)) | (refine ⟨?_, ?_⟩ <;> (simp [hk.1, hk.2]; done)))) | with_reducible apply Keeps_ite | with_reducible apply Keeps_ite_snd | with_reducible apply raise_keeps | with_reducible apply updDom_keeps | with_reducible apply reviewBlocked_keeps | with_reducible apply castleTry_keeps | with_reducible refine Keeps_ports ?_ (upd_length _ _ _) (all_upd ?_) | with_reducible refine Keeps_chans ?_ (upd_length _ _ _) (all_upd ?_) | (simp only [Keeps_mk, upd_length, List.length_map, addTime_cmps, addTime_caps, addTime_ppso]; (first | exact Keeps_fold (by with_reducible assumption) | apply Keeps_fold | refine Keeps_units ?_ (all_map ?_) (all_map ?_) | refine Keeps_units ?_ (all_map ?_) id | refine Keeps_units ?_ id (all_map ?_) | refine Keeps_free ?_ (Nat.le_add_right _ _) | refine Keeps_sizes ?_ (fun z => by simp only [sizes, shape, List.cons.injEq] at z ⊢; (first | (simp [z]; done) | (simp [z]; split <;> simp [z]))))) | dsimp only | intro _ | split)

theorem execHoldoverGraceExpiry_goes {b s : State} (h : Keeps b s) : Goes b (execHoldoverGraceExpiry s) := by
  unfold execHoldoverGraceExpiry
  repeat' (first | with_reducible assumption | exact castlePpm_le | (show PortOk _; assumption) | (show ChanOk _; assumption) | (intro k hk; first | exact hk | (refine ⟨?_, ?_, ?_⟩ <;> (simp [hk.1, hk.2.1, hk.2.2]; done)) | (refine ⟨?_, ?_⟩ <;> (simp [hk.1, hk.2]; done)) | (dsimp only; split <;> first | exact hk | (refine ⟨?_, ?_, ?_⟩ <;> (simp [hk.1, hk.2.1, hk.2.2]; done)) | (refine ⟨?_, ?_⟩ <;> (simp [hk.1, hk.2]; done)))) | with_reducible apply Goes_next | with_reducible apply Goes_ite | with_reducible apply Keeps_ite | with_reducible apply Keeps_ite_snd | with_reducible refine Keeps_ports ?_ (upd_length _ _ _) (all_upd ?_) | with_reducible refine Keeps_chans ?_ (upd_length _ _ _) (all_upd ?_) | (simp only [Keeps_mk, upd_length, List.length_map, addTime_cmps, addTime_caps, addTime_ppso]; (first | exact Keeps_fold (by with_reducible assumption) | apply Keeps_fold | refine Keeps_units ?_ (all_map ?_) (all_map ?_) | refine Keeps_units ?_ (all_map ?_) id | refine Keeps_units ?_ id (all_map ?_) | refine Keeps_free ?_ (Nat.le_add_right _ _) | refine Keeps_sizes ?_ (fun z => by simp only [sizes, shape, List.cons.injEq] at z ⊢; (first | (simp [z]; done) | (simp [z]; split <;> simp [z]))))) | dsimp only | intro _ | split)

theorem execDecideStay_goes {b s : State} (h : Keeps b s) : Goes b (execDecideStay s) := by
  unfold execDecideStay
  repeat' (first | with_reducible assumption | exact castlePpm_le | (show PortOk _; assumption) | (show ChanOk _; assumption) | (intro k hk; first | exact hk | (refine ⟨?_, ?_, ?_⟩ <;> (simp [hk.1, hk.2.1, hk.2.2]; done)) | (refine ⟨?_, ?_⟩ <;> (simp [hk.1, hk.2]; done)) | (dsimp only; split <;> first | exact hk | (refine ⟨?_, ?_, ?_⟩ <;> (simp [hk.1, hk.2.1, hk.2.2]; done)) | (refine ⟨?_, ?_⟩ <;> (simp [hk.1, hk.2]; done)))) | with_reducible apply Goes_next | with_reducible apply Goes_ite | with_reducible apply Keeps_ite | with_reducible apply Keeps_ite_snd | with_reducible apply ifCore_keeps | with_reducible apply ptpDecide_keeps | with_reducible refine Keeps_ports ?_ (upd_length _ _ _) (all_upd ?_) | with_reducible refine Keeps_chans ?_ (upd_length _ _ _) (all_upd ?_) | (simp only [Keeps_mk, upd_length, List.length_map, addTime_cmps, addTime_caps, addTime_ppso]; (first | exact Keeps_fold (by with_reducible assumption) | apply Keeps_fold | refine Keeps_units ?_ (all_map ?_) (all_map ?_) | refine Keeps_units ?_ (all_map ?_) id | refine Keeps_units ?_ id (all_map ?_) | refine Keeps_free ?_ (Nat.le_add_right _ _) | refine Keeps_sizes ?_ (fun z => by simp only [sizes, shape, List.cons.injEq] at z ⊢; (first | (simp [z]; done) | (simp [z]; split <;> simp [z]))))) | dsimp only | intro _ | split)

theorem execCastle_goes {b s : State} (h : Keeps b s) : Goes b (execCastle s) := by
  unfold execCastle
  repeat' (first | with_reducible assumption | exact castlePpm_le | (show PortOk _; assumption) | (show ChanOk _; assumption) | (intro k hk; first | exact hk | (refine ⟨?_, ?_, ?_⟩ <;> (simp [hk.1, hk.2.1, hk.2.2]; done)) | (refine ⟨?_, ?_⟩ <;> (simp [hk.1, hk.2]; done)) | (dsimp only; split <;> first | exact hk | (refine ⟨?_, ?_, ?_⟩ <;> (simp [hk.1, hk.2.1, hk.2.2]; done)) | (refine ⟨?_, ?_⟩ <;> (simp [hk.1, hk.2]; done)))) | with_reducible apply Goes_next | with_reducible apply Goes_ite | with_reducible apply Keeps_ite | with_reducible apply Keeps_ite_snd | with_reducible apply ifCore_keeps | with_reducible apply ptpCastle_keeps | with_reducible refine Keeps_ports ?_ (upd_length _ _ _) (all_upd ?_) | with_reducible refine Keeps_chans ?_ (upd_length _ _ _) (all_upd ?_) | (simp only [Keeps_mk, upd_length, List.length_map, addTime_cmps, addTime_caps, addTime_ppso]; (first | exact Keeps_fold (by with_reducible assumption) | apply Keeps_fold | refine Keeps_units ?_ (all_map ?_) (all_map ?_) | refine Keeps_units ?_ (all_map ?_) id | refine Keeps_units ?_ id (all_map ?_) | refine Keeps_free ?_ (Nat.le_add_right _ _) | refine Keeps_sizes ?_ (fun z => by simp only [sizes, shape, List.cons.injEq] at z ⊢; (first | (simp [z]; done) | (simp [z]; split <;> simp [z]))))) | dsimp only | intro _ | split)

end Sys2Proof.Laws
end

