-- ==== Sys2Proof/Laws/KeepsBoard.lean ====
section
/-!
SUPPORT. The operations of Machine/Board.lean keep what Laws/Keeps.lean lists.
-/

namespace Sys2Proof.Laws

open Sys2Proof.Machine Sys2Proof.Safety

set_option linter.all false

theorem notePeak_keeps {b s : State} (h : Keeps b s) {a1 a2} : Keeps b (notePeak a1 a2 s) := by
  unfold notePeak
  repeat' (first | with_reducible assumption | exact castlePpm_le | (show PortOk _; assumption) | (show ChanOk _; assumption) | (intro k hk; first | exact hk | (refine ⟨?_, ?_, ?_⟩ <;> (simp [hk.1, hk.2.1, hk.2.2]; done)) | (refine ⟨?_, ?_⟩ <;> (simp [hk.1, hk.2]; done)) | (dsimp only; split <;> first | exact hk | (refine ⟨?_, ?_, ?_⟩ <;> (simp [hk.1, hk.2.1, hk.2.2]; done)) | (refine ⟨?_, ?_⟩ <;> (simp [hk.1, hk.2]; done)))) | with_reducible apply Keeps_ite | with_reducible apply Keeps_ite_snd | with_reducible refine Keeps_ports ?_ (upd_length _ _ _) (all_upd ?_) | with_reducible refine Keeps_chans ?_ (upd_length _ _ _) (all_upd ?_) | (simp only [Keeps_mk, upd_length, List.length_map, addTime_cmps, addTime_caps, addTime_ppso]; (first | exact Keeps_fold (by with_reducible assumption) | apply Keeps_fold | refine Keeps_units ?_ (all_map ?_) (all_map ?_) | refine Keeps_units ?_ (all_map ?_) id | refine Keeps_units ?_ id (all_map ?_) | refine Keeps_free ?_ (Nat.le_add_right _ _) | refine Keeps_sizes ?_ (fun z => by simp only [sizes, shape, List.cons.injEq] at z ⊢; (first | (simp [z]; done) | (simp [z]; split <;> simp [z]))))) | dsimp only | intro _ | split)

theorem setQueue_keeps {b s : State} (h : Keeps b s) {a1 a2 a3} : Keeps b (setQueue a1 a2 a3 s) := by
  unfold setQueue
  repeat' (first | with_reducible assumption | exact castlePpm_le | (show PortOk _; assumption) | (show ChanOk _; assumption) | (intro k hk; first | exact hk | (refine ⟨?_, ?_, ?_⟩ <;> (simp [hk.1, hk.2.1, hk.2.2]; done)) | (refine ⟨?_, ?_⟩ <;> (simp [hk.1, hk.2]; done)) | (dsimp only; split <;> first | exact hk | (refine ⟨?_, ?_, ?_⟩ <;> (simp [hk.1, hk.2.1, hk.2.2]; done)) | (refine ⟨?_, ?_⟩ <;> (simp [hk.1, hk.2]; done)))) | with_reducible apply Keeps_ite | with_reducible apply Keeps_ite_snd | with_reducible refine Keeps_ports ?_ (upd_length _ _ _) (all_upd ?_) | with_reducible refine Keeps_chans ?_ (upd_length _ _ _) (all_upd ?_) | (simp only [Keeps_mk, upd_length, List.length_map, addTime_cmps, addTime_caps, addTime_ppso]; (first | exact Keeps_fold (by with_reducible assumption) | apply Keeps_fold | refine Keeps_units ?_ (all_map ?_) (all_map ?_) | refine Keeps_units ?_ (all_map ?_) id | refine Keeps_units ?_ id (all_map ?_) | refine Keeps_free ?_ (Nat.le_add_right _ _) | refine Keeps_sizes ?_ (fun z => by simp only [sizes, shape, List.cons.injEq] at z ⊢; (first | (simp [z]; done) | (simp [z]; split <;> simp [z]))))) | dsimp only | intro _ | split)

theorem joinQueue_keeps {b s : State} (h : Keeps b s) {a1 a2 a3} : Keeps b (joinQueue a1 a2 a3 s) := by
  unfold joinQueue
  repeat' (first | with_reducible assumption | exact castlePpm_le | (show PortOk _; assumption) | (show ChanOk _; assumption) | (intro k hk; first | exact hk | (refine ⟨?_, ?_, ?_⟩ <;> (simp [hk.1, hk.2.1, hk.2.2]; done)) | (refine ⟨?_, ?_⟩ <;> (simp [hk.1, hk.2]; done)) | (dsimp only; split <;> first | exact hk | (refine ⟨?_, ?_, ?_⟩ <;> (simp [hk.1, hk.2.1, hk.2.2]; done)) | (refine ⟨?_, ?_⟩ <;> (simp [hk.1, hk.2]; done)))) | with_reducible apply Keeps_ite | with_reducible apply Keeps_ite_snd | with_reducible apply notePeak_keeps | with_reducible apply setQueue_keeps | with_reducible refine Keeps_ports ?_ (upd_length _ _ _) (all_upd ?_) | with_reducible refine Keeps_chans ?_ (upd_length _ _ _) (all_upd ?_) | (simp only [Keeps_mk, upd_length, List.length_map, addTime_cmps, addTime_caps, addTime_ppso]; (first | exact Keeps_fold (by with_reducible assumption) | apply Keeps_fold | refine Keeps_units ?_ (all_map ?_) (all_map ?_) | refine Keeps_units ?_ (all_map ?_) id | refine Keeps_units ?_ id (all_map ?_) | refine Keeps_free ?_ (Nat.le_add_right _ _) | refine Keeps_sizes ?_ (fun z => by simp only [sizes, shape, List.cons.injEq] at z ⊢; (first | (simp [z]; done) | (simp [z]; split <;> simp [z]))))) | dsimp only | intro _ | split)

theorem updCls_keeps {b s : State} (h : Keeps b s) {a1 a2} : Keeps b (updCls a1 a2 s) := by
  unfold updCls
  repeat' (first | with_reducible assumption | exact castlePpm_le | (show PortOk _; assumption) | (show ChanOk _; assumption) | (intro k hk; first | exact hk | (refine ⟨?_, ?_, ?_⟩ <;> (simp [hk.1, hk.2.1, hk.2.2]; done)) | (refine ⟨?_, ?_⟩ <;> (simp [hk.1, hk.2]; done)) | (dsimp only; split <;> first | exact hk | (refine ⟨?_, ?_, ?_⟩ <;> (simp [hk.1, hk.2.1, hk.2.2]; done)) | (refine ⟨?_, ?_⟩ <;> (simp [hk.1, hk.2]; done)))) | with_reducible apply Keeps_ite | with_reducible apply Keeps_ite_snd | with_reducible refine Keeps_ports ?_ (upd_length _ _ _) (all_upd ?_) | with_reducible refine Keeps_chans ?_ (upd_length _ _ _) (all_upd ?_) | (simp only [Keeps_mk, upd_length, List.length_map, addTime_cmps, addTime_caps, addTime_ppso]; (first | exact Keeps_fold (by with_reducible assumption) | apply Keeps_fold | refine Keeps_units ?_ (all_map ?_) (all_map ?_) | refine Keeps_units ?_ (all_map ?_) id | refine Keeps_units ?_ id (all_map ?_) | refine Keeps_free ?_ (Nat.le_add_right _ _) | refine Keeps_sizes ?_ (fun z => by simp only [sizes, shape, List.cons.injEq] at z ⊢; (first | (simp [z]; done) | (simp [z]; split <;> simp [z]))))) | dsimp only | intro _ | split)

theorem freeMsg_keeps {b s : State} (h : Keeps b s) {a1} : Keeps b (freeMsg a1 s) := by
  unfold freeMsg
  repeat' (first | with_reducible assumption | exact castlePpm_le | (show PortOk _; assumption) | (show ChanOk _; assumption) | (intro k hk; first | exact hk | (refine ⟨?_, ?_, ?_⟩ <;> (simp [hk.1, hk.2.1, hk.2.2]; done)) | (refine ⟨?_, ?_⟩ <;> (simp [hk.1, hk.2]; done)) | (dsimp only; split <;> first | exact hk | (refine ⟨?_, ?_, ?_⟩ <;> (simp [hk.1, hk.2.1, hk.2.2]; done)) | (refine ⟨?_, ?_⟩ <;> (simp [hk.1, hk.2]; done)))) | with_reducible apply Keeps_ite | with_reducible apply Keeps_ite_snd | with_reducible apply updCls_keeps | with_reducible refine Keeps_ports ?_ (upd_length _ _ _) (all_upd ?_) | with_reducible refine Keeps_chans ?_ (upd_length _ _ _) (all_upd ?_) | (simp only [Keeps_mk, upd_length, List.length_map, addTime_cmps, addTime_caps, addTime_ppso]; (first | exact Keeps_fold (by with_reducible assumption) | apply Keeps_fold | refine Keeps_units ?_ (all_map ?_) (all_map ?_) | refine Keeps_units ?_ (all_map ?_) id | refine Keeps_units ?_ id (all_map ?_) | refine Keeps_free ?_ (Nat.le_add_right _ _) | refine Keeps_sizes ?_ (fun z => by simp only [sizes, shape, List.cons.injEq] at z ⊢; (first | (simp [z]; done) | (simp [z]; split <;> simp [z]))))) | dsimp only | intro _ | split)

theorem dropCopy_keeps {b s : State} (h : Keeps b s) {a1} : Keeps b (dropCopy a1 s) := by
  unfold dropCopy
  repeat' (first | with_reducible assumption | exact castlePpm_le | (show PortOk _; assumption) | (show ChanOk _; assumption) | (intro k hk; first | exact hk | (refine ⟨?_, ?_, ?_⟩ <;> (simp [hk.1, hk.2.1, hk.2.2]; done)) | (refine ⟨?_, ?_⟩ <;> (simp [hk.1, hk.2]; done)) | (dsimp only; split <;> first | exact hk | (refine ⟨?_, ?_, ?_⟩ <;> (simp [hk.1, hk.2.1, hk.2.2]; done)) | (refine ⟨?_, ?_⟩ <;> (simp [hk.1, hk.2]; done)))) | with_reducible apply Keeps_ite | with_reducible apply Keeps_ite_snd | with_reducible apply freeMsg_keeps | with_reducible refine Keeps_ports ?_ (upd_length _ _ _) (all_upd ?_) | with_reducible refine Keeps_chans ?_ (upd_length _ _ _) (all_upd ?_) | (simp only [Keeps_mk, upd_length, List.length_map, addTime_cmps, addTime_caps, addTime_ppso]; (first | exact Keeps_fold (by with_reducible assumption) | apply Keeps_fold | refine Keeps_units ?_ (all_map ?_) (all_map ?_) | refine Keeps_units ?_ (all_map ?_) id | refine Keeps_units ?_ id (all_map ?_) | refine Keeps_free ?_ (Nat.le_add_right _ _) | refine Keeps_sizes ?_ (fun z => by simp only [sizes, shape, List.cons.injEq] at z ⊢; (first | (simp [z]; done) | (simp [z]; split <;> simp [z]))))) | dsimp only | intro _ | split)

theorem portCount_keeps {b s : State} (h : Keeps b s) {a1 a2} : Keeps b (portCount a1 a2 s) := by
  unfold portCount
  repeat' (first | with_reducible assumption | exact castlePpm_le | (show PortOk _; assumption) | (show ChanOk _; assumption) | (intro k hk; first | exact hk | (refine ⟨?_, ?_, ?_⟩ <;> (simp [hk.1, hk.2.1, hk.2.2]; done)) | (refine ⟨?_, ?_⟩ <;> (simp [hk.1, hk.2]; done)) | (dsimp only; split <;> first | exact hk | (refine ⟨?_, ?_, ?_⟩ <;> (simp [hk.1, hk.2.1, hk.2.2]; done)) | (refine ⟨?_, ?_⟩ <;> (simp [hk.1, hk.2]; done)))) | with_reducible apply Keeps_ite | with_reducible apply Keeps_ite_snd | with_reducible refine Keeps_ports ?_ (upd_length _ _ _) (all_upd ?_) | with_reducible refine Keeps_chans ?_ (upd_length _ _ _) (all_upd ?_) | (simp only [Keeps_mk, upd_length, List.length_map, addTime_cmps, addTime_caps, addTime_ppso]; (first | exact Keeps_fold (by with_reducible assumption) | apply Keeps_fold | refine Keeps_units ?_ (all_map ?_) (all_map ?_) | refine Keeps_units ?_ (all_map ?_) id | refine Keeps_units ?_ id (all_map ?_) | refine Keeps_free ?_ (Nat.le_add_right _ _) | refine Keeps_sizes ?_ (fun z => by simp only [sizes, shape, List.cons.injEq] at z ⊢; (first | (simp [z]; done) | (simp [z]; split <;> simp [z]))))) | dsimp only | intro _ | split)

theorem queueEth_keeps {b s : State} (h : Keeps b s) {a1 a2 a3} : Keeps b (queueEth a1 a2 a3 s) := by
  unfold queueEth
  repeat' (first | with_reducible assumption | exact castlePpm_le | (show PortOk _; assumption) | (show ChanOk _; assumption) | (intro k hk; first | exact hk | (refine ⟨?_, ?_, ?_⟩ <;> (simp [hk.1, hk.2.1, hk.2.2]; done)) | (refine ⟨?_, ?_⟩ <;> (simp [hk.1, hk.2]; done)) | (dsimp only; split <;> first | exact hk | (refine ⟨?_, ?_, ?_⟩ <;> (simp [hk.1, hk.2.1, hk.2.2]; done)) | (refine ⟨?_, ?_⟩ <;> (simp [hk.1, hk.2]; done)))) | with_reducible apply Keeps_ite | with_reducible apply Keeps_ite_snd | with_reducible apply joinQueue_keeps | with_reducible apply dropCopy_keeps | with_reducible apply portCount_keeps | with_reducible refine Keeps_ports ?_ (upd_length _ _ _) (all_upd ?_) | with_reducible refine Keeps_chans ?_ (upd_length _ _ _) (all_upd ?_) | (simp only [Keeps_mk, upd_length, List.length_map, addTime_cmps, addTime_caps, addTime_ppso]; (first | exact Keeps_fold (by with_reducible assumption) | apply Keeps_fold | refine Keeps_units ?_ (all_map ?_) (all_map ?_) | refine Keeps_units ?_ (all_map ?_) id | refine Keeps_units ?_ id (all_map ?_) | refine Keeps_free ?_ (Nat.le_add_right _ _) | refine Keeps_sizes ?_ (fun z => by simp only [sizes, shape, List.cons.injEq] at z ⊢; (first | (simp [z]; done) | (simp [z]; split <;> simp [z]))))) | dsimp only | intro _ | split)

theorem countFiltered_keeps {b s : State} (h : Keeps b s) {a1} : Keeps b (countFiltered a1 s) := by
  unfold countFiltered
  repeat' (first | with_reducible assumption | exact castlePpm_le | (show PortOk _; assumption) | (show ChanOk _; assumption) | (intro k hk; first | exact hk | (refine ⟨?_, ?_, ?_⟩ <;> (simp [hk.1, hk.2.1, hk.2.2]; done)) | (refine ⟨?_, ?_⟩ <;> (simp [hk.1, hk.2]; done)) | (dsimp only; split <;> first | exact hk | (refine ⟨?_, ?_, ?_⟩ <;> (simp [hk.1, hk.2.1, hk.2.2]; done)) | (refine ⟨?_, ?_⟩ <;> (simp [hk.1, hk.2]; done)))) | with_reducible apply Keeps_ite | with_reducible apply Keeps_ite_snd | with_reducible refine Keeps_ports ?_ (upd_length _ _ _) (all_upd ?_) | with_reducible refine Keeps_chans ?_ (upd_length _ _ _) (all_upd ?_) | (simp only [Keeps_mk, upd_length, List.length_map, addTime_cmps, addTime_caps, addTime_ppso]; (first | exact Keeps_fold (by with_reducible assumption) | apply Keeps_fold | refine Keeps_units ?_ (all_map ?_) (all_map ?_) | refine Keeps_units ?_ (all_map ?_) id | refine Keeps_units ?_ id (all_map ?_) | refine Keeps_free ?_ (Nat.le_add_right _ _) | refine Keeps_sizes ?_ (fun z => by simp only [sizes, shape, List.cons.injEq] at z ⊢; (first | (simp [z]; done) | (simp [z]; split <;> simp [z]))))) | dsimp only | intro _ | split)

theorem nextPairSeq_keeps {b s : State} (h : Keeps b s) {a1} : Keeps b (nextPairSeq a1 s).2 := by
  unfold nextPairSeq
  repeat' (first | with_reducible assumption | exact castlePpm_le | (show PortOk _; assumption) | (show ChanOk _; assumption) | (intro k hk; first | exact hk | (refine ⟨?_, ?_, ?_⟩ <;> (simp [hk.1, hk.2.1, hk.2.2]; done)) | (refine ⟨?_, ?_⟩ <;> (simp [hk.1, hk.2]; done)) | (dsimp only; split <;> first | exact hk | (refine ⟨?_, ?_, ?_⟩ <;> (simp [hk.1, hk.2.1, hk.2.2]; done)) | (refine ⟨?_, ?_⟩ <;> (simp [hk.1, hk.2]; done)))) | with_reducible apply Keeps_ite | with_reducible apply Keeps_ite_snd | with_reducible refine Keeps_ports ?_ (upd_length _ _ _) (all_upd ?_) | with_reducible refine Keeps_chans ?_ (upd_length _ _ _) (all_upd ?_) | (simp only [Keeps_mk, upd_length, List.length_map, addTime_cmps, addTime_caps, addTime_ppso]; (first | exact Keeps_fold (by with_reducible assumption) | apply Keeps_fold | refine Keeps_units ?_ (all_map ?_) (all_map ?_) | refine Keeps_units ?_ (all_map ?_) id | refine Keeps_units ?_ id (all_map ?_) | refine Keeps_free ?_ (Nat.le_add_right _ _) | refine Keeps_sizes ?_ (fun z => by simp only [sizes, shape, List.cons.injEq] at z ⊢; (first | (simp [z]; done) | (simp [z]; split <;> simp [z]))))) | dsimp only | intro _ | split)

theorem countHit_keeps {b s : State} (h : Keeps b s) {a1} : Keeps b (countHit a1 s) := by
  unfold countHit
  repeat' (first | with_reducible assumption | exact castlePpm_le | (show PortOk _; assumption) | (show ChanOk _; assumption) | (intro k hk; first | exact hk | (refine ⟨?_, ?_, ?_⟩ <;> (simp [hk.1, hk.2.1, hk.2.2]; done)) | (refine ⟨?_, ?_⟩ <;> (simp [hk.1, hk.2]; done)) | (dsimp only; split <;> first | exact hk | (refine ⟨?_, ?_, ?_⟩ <;> (simp [hk.1, hk.2.1, hk.2.2]; done)) | (refine ⟨?_, ?_⟩ <;> (simp [hk.1, hk.2]; done)))) | with_reducible apply Keeps_ite | with_reducible apply Keeps_ite_snd | with_reducible refine Keeps_ports ?_ (upd_length _ _ _) (all_upd ?_) | with_reducible refine Keeps_chans ?_ (upd_length _ _ _) (all_upd ?_) | (simp only [Keeps_mk, upd_length, List.length_map, addTime_cmps, addTime_caps, addTime_ppso]; (first | exact Keeps_fold (by with_reducible assumption) | apply Keeps_fold | refine Keeps_units ?_ (all_map ?_) (all_map ?_) | refine Keeps_units ?_ (all_map ?_) id | refine Keeps_units ?_ id (all_map ?_) | refine Keeps_free ?_ (Nat.le_add_right _ _) | refine Keeps_sizes ?_ (fun z => by simp only [sizes, shape, List.cons.injEq] at z ⊢; (first | (simp [z]; done) | (simp [z]; split <;> simp [z]))))) | dsimp only | intro _ | split)

theorem setFilter_keeps {b s : State} (h : Keeps b s) {a1} : Keeps b (setFilter a1 s) := by
  unfold setFilter
  repeat' (first | with_reducible assumption | exact castlePpm_le | (show PortOk _; assumption) | (show ChanOk _; assumption) | (intro k hk; first | exact hk | (refine ⟨?_, ?_, ?_⟩ <;> (simp [hk.1, hk.2.1, hk.2.2]; done)) | (refine ⟨?_, ?_⟩ <;> (simp [hk.1, hk.2]; done)) | (dsimp only; split <;> first | exact hk | (refine ⟨?_, ?_, ?_⟩ <;> (simp [hk.1, hk.2.1, hk.2.2]; done)) | (refine ⟨?_, ?_⟩ <;> (simp [hk.1, hk.2]; done)))) | with_reducible apply Keeps_ite | with_reducible apply Keeps_ite_snd | with_reducible refine Keeps_ports ?_ (upd_length _ _ _) (all_upd ?_) | with_reducible refine Keeps_chans ?_ (upd_length _ _ _) (all_upd ?_) | (simp only [Keeps_mk, upd_length, List.length_map, addTime_cmps, addTime_caps, addTime_ppso]; (first | exact Keeps_fold (by with_reducible assumption) | apply Keeps_fold | refine Keeps_units ?_ (all_map ?_) (all_map ?_) | refine Keeps_units ?_ (all_map ?_) id | refine Keeps_units ?_ id (all_map ?_) | refine Keeps_free ?_ (Nat.le_add_right _ _) | refine Keeps_sizes ?_ (fun z => by simp only [sizes, shape, List.cons.injEq] at z ⊢; (first | (simp [z]; done) | (simp [z]; split <;> simp [z]))))) | dsimp only | intro _ | split)

theorem throughFilter_keeps {b s : State} (h : Keeps b s) {a1 a2} : Keeps b (throughFilter a1 a2 s).2 := by
  unfold throughFilter
  repeat' (first | with_reducible assumption | exact castlePpm_le | (show PortOk _; assumption) | (show ChanOk _; assumption) | (intro k hk; first | exact hk | (refine ⟨?_, ?_, ?_⟩ <;> (simp [hk.1, hk.2.1, hk.2.2]; done)) | (refine ⟨?_, ?_⟩ <;> (simp [hk.1, hk.2]; done)) | (dsimp only; split <;> first | exact hk | (refine ⟨?_, ?_, ?_⟩ <;> (simp [hk.1, hk.2.1, hk.2.2]; done)) | (refine ⟨?_, ?_⟩ <;> (simp [hk.1, hk.2]; done)))) | with_reducible apply Keeps_ite | with_reducible apply Keeps_ite_snd | with_reducible apply setFilter_keeps | with_reducible apply countFiltered_keeps | with_reducible apply raise_keeps | with_reducible refine Keeps_ports ?_ (upd_length _ _ _) (all_upd ?_) | with_reducible refine Keeps_chans ?_ (upd_length _ _ _) (all_upd ?_) | (simp only [Keeps_mk, upd_length, List.length_map, addTime_cmps, addTime_caps, addTime_ppso]; (first | exact Keeps_fold (by with_reducible assumption) | apply Keeps_fold | refine Keeps_units ?_ (all_map ?_) (all_map ?_) | refine Keeps_units ?_ (all_map ?_) id | refine Keeps_units ?_ id (all_map ?_) | refine Keeps_free ?_ (Nat.le_add_right _ _) | refine Keeps_sizes ?_ (fun z => by simp only [sizes, shape, List.cons.injEq] at z ⊢; (first | (simp [z]; done) | (simp [z]; split <;> simp [z]))))) | dsimp only | intro _ | split)

theorem setCredit_keeps {b s : State} (h : Keeps b s) {a1 a2} : Keeps b (setCredit a1 a2 s) := by
  unfold setCredit
  repeat' (first | with_reducible assumption | exact castlePpm_le | (show PortOk _; assumption) | (show ChanOk _; assumption) | (intro k hk; first | exact hk | (refine ⟨?_, ?_, ?_⟩ <;> (simp [hk.1, hk.2.1, hk.2.2]; done)) | (refine ⟨?_, ?_⟩ <;> (simp [hk.1, hk.2]; done)) | (dsimp only; split <;> first | exact hk | (refine ⟨?_, ?_, ?_⟩ <;> (simp [hk.1, hk.2.1, hk.2.2]; done)) | (refine ⟨?_, ?_⟩ <;> (simp [hk.1, hk.2]; done)))) | with_reducible apply Keeps_ite | with_reducible apply Keeps_ite_snd | with_reducible refine Keeps_ports ?_ (upd_length _ _ _) (all_upd ?_) | with_reducible refine Keeps_chans ?_ (upd_length _ _ _) (all_upd ?_) | (simp only [Keeps_mk, upd_length, List.length_map, addTime_cmps, addTime_caps, addTime_ppso]; (first | exact Keeps_fold (by with_reducible assumption) | apply Keeps_fold | refine Keeps_units ?_ (all_map ?_) (all_map ?_) | refine Keeps_units ?_ (all_map ?_) id | refine Keeps_units ?_ id (all_map ?_) | refine Keeps_free ?_ (Nat.le_add_right _ _) | refine Keeps_sizes ?_ (fun z => by simp only [sizes, shape, List.cons.injEq] at z ⊢; (first | (simp [z]; done) | (simp [z]; split <;> simp [z]))))) | dsimp only | intro _ | split)

theorem police_keeps {b s : State} (h : Keeps b s) {a1 a2} : Keeps b (police a1 a2 s).2 := by
  unfold police
  repeat' (first | with_reducible assumption | exact castlePpm_le | (show PortOk _; assumption) | (show ChanOk _; assumption) | (intro k hk; first | exact hk | (refine ⟨?_, ?_, ?_⟩ <;> (simp [hk.1, hk.2.1, hk.2.2]; done)) | (refine ⟨?_, ?_⟩ <;> (simp [hk.1, hk.2]; done)) | (dsimp only; split <;> first | exact hk | (refine ⟨?_, ?_, ?_⟩ <;> (simp [hk.1, hk.2.1, hk.2.2]; done)) | (refine ⟨?_, ?_⟩ <;> (simp [hk.1, hk.2]; done)))) | with_reducible apply Keeps_ite | with_reducible apply Keeps_ite_snd | with_reducible apply setCredit_keeps | with_reducible refine Keeps_ports ?_ (upd_length _ _ _) (all_upd ?_) | with_reducible refine Keeps_chans ?_ (upd_length _ _ _) (all_upd ?_) | (simp only [Keeps_mk, upd_length, List.length_map, addTime_cmps, addTime_caps, addTime_ppso]; (first | exact Keeps_fold (by with_reducible assumption) | apply Keeps_fold | refine Keeps_units ?_ (all_map ?_) (all_map ?_) | refine Keeps_units ?_ (all_map ?_) id | refine Keeps_units ?_ id (all_map ?_) | refine Keeps_free ?_ (Nat.le_add_right _ _) | refine Keeps_sizes ?_ (fun z => by simp only [sizes, shape, List.cons.injEq] at z ⊢; (first | (simp [z]; done) | (simp [z]; split <;> simp [z]))))) | dsimp only | intro _ | split)

theorem queueInts_keeps {b s : State} (h : Keeps b s) {a1 a2} : Keeps b (queueInts a1 a2 s) := by
  induction a2 generalizing a1 s with
  | nil =>
    unfold queueInts
    repeat' (first | with_reducible assumption | exact castlePpm_le | (show PortOk _; assumption) | (show ChanOk _; assumption) | (intro k hk; first | exact hk | (refine ⟨?_, ?_, ?_⟩ <;> (simp [hk.1, hk.2.1, hk.2.2]; done)) | (refine ⟨?_, ?_⟩ <;> (simp [hk.1, hk.2]; done)) | (dsimp only; split <;> first | exact hk | (refine ⟨?_, ?_, ?_⟩ <;> (simp [hk.1, hk.2.1, hk.2.2]; done)) | (refine ⟨?_, ?_⟩ <;> (simp [hk.1, hk.2]; done)))) | with_reducible apply Keeps_ite | with_reducible apply Keeps_ite_snd | with_reducible apply joinQueue_keeps | with_reducible refine Keeps_ports ?_ (upd_length _ _ _) (all_upd ?_) | with_reducible refine Keeps_chans ?_ (upd_length _ _ _) (all_upd ?_) | (simp only [Keeps_mk, upd_length, List.length_map, addTime_cmps, addTime_caps, addTime_ppso]; (first | exact Keeps_fold (by with_reducible assumption) | apply Keeps_fold | refine Keeps_units ?_ (all_map ?_) (all_map ?_) | refine Keeps_units ?_ (all_map ?_) id | refine Keeps_units ?_ id (all_map ?_) | refine Keeps_free ?_ (Nat.le_add_right _ _) | refine Keeps_sizes ?_ (fun z => by simp only [sizes, shape, List.cons.injEq] at z ⊢; (first | (simp [z]; done) | (simp [z]; split <;> simp [z]))))) | dsimp only | intro _ | split)
  | cons x l ih =>
    unfold queueInts
    repeat' (first | with_reducible assumption | exact castlePpm_le | (show PortOk _; assumption) | (show ChanOk _; assumption) | (intro k hk; first | exact hk | (refine ⟨?_, ?_, ?_⟩ <;> (simp [hk.1, hk.2.1, hk.2.2]; done)) | (refine ⟨?_, ?_⟩ <;> (simp [hk.1, hk.2]; done)) | (dsimp only; split <;> first | exact hk | (refine ⟨?_, ?_, ?_⟩ <;> (simp [hk.1, hk.2.1, hk.2.2]; done)) | (refine ⟨?_, ?_⟩ <;> (simp [hk.1, hk.2]; done)))) | with_reducible apply ih | with_reducible apply Keeps_ite | with_reducible apply Keeps_ite_snd | with_reducible apply joinQueue_keeps | with_reducible refine Keeps_ports ?_ (upd_length _ _ _) (all_upd ?_) | with_reducible refine Keeps_chans ?_ (upd_length _ _ _) (all_upd ?_) | (simp only [Keeps_mk, upd_length, List.length_map, addTime_cmps, addTime_caps, addTime_ppso]; (first | exact Keeps_fold (by with_reducible assumption) | apply Keeps_fold | refine Keeps_units ?_ (all_map ?_) (all_map ?_) | refine Keeps_units ?_ (all_map ?_) id | refine Keeps_units ?_ id (all_map ?_) | refine Keeps_free ?_ (Nat.le_add_right _ _) | refine Keeps_sizes ?_ (fun z => by simp only [sizes, shape, List.cons.injEq] at z ⊢; (first | (simp [z]; done) | (simp [z]; split <;> simp [z]))))) | dsimp only | intro _ | split)

theorem queueSers_keeps {b s : State} (h : Keeps b s) {a1 a2} : Keeps b (queueSers a1 a2 s) := by
  induction a2 generalizing a1 s with
  | nil =>
    unfold queueSers
    repeat' (first | with_reducible assumption | exact castlePpm_le | (show PortOk _; assumption) | (show ChanOk _; assumption) | (intro k hk; first | exact hk | (refine ⟨?_, ?_, ?_⟩ <;> (simp [hk.1, hk.2.1, hk.2.2]; done)) | (refine ⟨?_, ?_⟩ <;> (simp [hk.1, hk.2]; done)) | (dsimp only; split <;> first | exact hk | (refine ⟨?_, ?_, ?_⟩ <;> (simp [hk.1, hk.2.1, hk.2.2]; done)) | (refine ⟨?_, ?_⟩ <;> (simp [hk.1, hk.2]; done)))) | with_reducible apply Keeps_ite | with_reducible apply Keeps_ite_snd | with_reducible apply joinQueue_keeps | with_reducible refine Keeps_ports ?_ (upd_length _ _ _) (all_upd ?_) | with_reducible refine Keeps_chans ?_ (upd_length _ _ _) (all_upd ?_) | (simp only [Keeps_mk, upd_length, List.length_map, addTime_cmps, addTime_caps, addTime_ppso]; (first | exact Keeps_fold (by with_reducible assumption) | apply Keeps_fold | refine Keeps_units ?_ (all_map ?_) (all_map ?_) | refine Keeps_units ?_ (all_map ?_) id | refine Keeps_units ?_ id (all_map ?_) | refine Keeps_free ?_ (Nat.le_add_right _ _) | refine Keeps_sizes ?_ (fun z => by simp only [sizes, shape, List.cons.injEq] at z ⊢; (first | (simp [z]; done) | (simp [z]; split <;> simp [z]))))) | dsimp only | intro _ | split)
  | cons x l ih =>
    unfold queueSers
    repeat' (first | with_reducible assumption | exact castlePpm_le | (show PortOk _; assumption) | (show ChanOk _; assumption) | (intro k hk; first | exact hk | (refine ⟨?_, ?_, ?_⟩ <;> (simp [hk.1, hk.2.1, hk.2.2]; done)) | (refine ⟨?_, ?_⟩ <;> (simp [hk.1, hk.2]; done)) | (dsimp only; split <;> first | exact hk | (refine ⟨?_, ?_, ?_⟩ <;> (simp [hk.1, hk.2.1, hk.2.2]; done)) | (refine ⟨?_, ?_⟩ <;> (simp [hk.1, hk.2]; done)))) | with_reducible apply ih | with_reducible apply Keeps_ite | with_reducible apply Keeps_ite_snd | with_reducible apply joinQueue_keeps | with_reducible refine Keeps_ports ?_ (upd_length _ _ _) (all_upd ?_) | with_reducible refine Keeps_chans ?_ (upd_length _ _ _) (all_upd ?_) | (simp only [Keeps_mk, upd_length, List.length_map, addTime_cmps, addTime_caps, addTime_ppso]; (first | exact Keeps_fold (by with_reducible assumption) | apply Keeps_fold | refine Keeps_units ?_ (all_map ?_) (all_map ?_) | refine Keeps_units ?_ (all_map ?_) id | refine Keeps_units ?_ id (all_map ?_) | refine Keeps_free ?_ (Nat.le_add_right _ _) | refine Keeps_sizes ?_ (fun z => by simp only [sizes, shape, List.cons.injEq] at z ⊢; (first | (simp [z]; done) | (simp [z]; split <;> simp [z]))))) | dsimp only | intro _ | split)

theorem queueRing_keeps {b s : State} (h : Keeps b s) {a1} : Keeps b (queueRing a1 s) := by
  unfold queueRing
  repeat' (first | with_reducible assumption | exact castlePpm_le | (show PortOk _; assumption) | (show ChanOk _; assumption) | (intro k hk; first | exact hk | (refine ⟨?_, ?_, ?_⟩ <;> (simp [hk.1, hk.2.1, hk.2.2]; done)) | (refine ⟨?_, ?_⟩ <;> (simp [hk.1, hk.2]; done)) | (dsimp only; split <;> first | exact hk | (refine ⟨?_, ?_, ?_⟩ <;> (simp [hk.1, hk.2.1, hk.2.2]; done)) | (refine ⟨?_, ?_⟩ <;> (simp [hk.1, hk.2]; done)))) | with_reducible apply Keeps_ite | with_reducible apply Keeps_ite_snd | with_reducible apply joinQueue_keeps | with_reducible apply dropCopy_keeps | with_reducible apply portCount_keeps | with_reducible refine Keeps_ports ?_ (upd_length _ _ _) (all_upd ?_) | with_reducible refine Keeps_chans ?_ (upd_length _ _ _) (all_upd ?_) | (simp only [Keeps_mk, upd_length, List.length_map, addTime_cmps, addTime_caps, addTime_ppso]; (first | exact Keeps_fold (by with_reducible assumption) | apply Keeps_fold | refine Keeps_units ?_ (all_map ?_) (all_map ?_) | refine Keeps_units ?_ (all_map ?_) id | refine Keeps_units ?_ id (all_map ?_) | refine Keeps_free ?_ (Nat.le_add_right _ _) | refine Keeps_sizes ?_ (fun z => by simp only [sizes, shape, List.cons.injEq] at z ⊢; (first | (simp [z]; done) | (simp [z]; split <;> simp [z]))))) | dsimp only | intro _ | split)

theorem queueEths_keeps {b s : State} (h : Keeps b s) {m : Msg} {l : List Nat} {last : Option (Nat × BitVec 16)} :
    Keeps b (queueEths m l last s) := by
  induction l generalizing last s with
  | nil => exact h
  | cons p l ih =>
    unfold queueEths
    split
    · exact ih (queueEth_keeps h)
    · split
      · split
        · exact ih (queueEth_keeps h)
        · exact ih (queueEth_keeps (nextPairSeq_keeps h))
      · exact ih (queueEth_keeps (nextPairSeq_keeps h))

theorem bufferAndQueue_keeps {b s : State} (h : Keeps b s) {a1 a2 a3 a4 a5} : Keeps b (bufferAndQueue a1 a2 a3 a4 a5 s) := by
  unfold bufferAndQueue
  repeat' (first | with_reducible assumption | exact castlePpm_le | (show PortOk _; assumption) | (show ChanOk _; assumption) | (intro k hk; first | exact hk | (refine ⟨?_, ?_, ?_⟩ <;> (simp [hk.1, hk.2.1, hk.2.2]; done)) | (refine ⟨?_, ?_⟩ <;> (simp [hk.1, hk.2]; done)) | (dsimp only; split <;> first | exact hk | (refine ⟨?_, ?_, ?_⟩ <;> (simp [hk.1, hk.2.1, hk.2.2]; done)) | (refine ⟨?_, ?_⟩ <;> (simp [hk.1, hk.2]; done)))) | with_reducible apply Keeps_ite | with_reducible apply Keeps_ite_snd | with_reducible apply raise_keeps | with_reducible apply updCls_keeps | with_reducible apply queueInts_keeps | with_reducible apply queueSers_keeps | with_reducible apply queueRing_keeps | with_reducible apply queueEths_keeps | with_reducible refine Keeps_ports ?_ (upd_length _ _ _) (all_upd ?_) | with_reducible refine Keeps_chans ?_ (upd_length _ _ _) (all_upd ?_) | (simp only [Keeps_mk, upd_length, List.length_map, addTime_cmps, addTime_caps, addTime_ppso]; (first | exact Keeps_fold (by with_reducible assumption) | apply Keeps_fold | refine Keeps_units ?_ (all_map ?_) (all_map ?_) | refine Keeps_units ?_ (all_map ?_) id | refine Keeps_units ?_ id (all_map ?_) | refine Keeps_free ?_ (Nat.le_add_right _ _) | refine Keeps_sizes ?_ (fun z => by simp only [sizes, shape, List.cons.injEq] at z ⊢; (first | (simp [z]; done) | (simp [z]; split <;> simp [z]))))) | dsimp only | intro _ | split)

theorem countExcess_keeps {b s : State} (h : Keeps b s) {a1 a2 a3} : Keeps b (countExcess a1 a2 a3 s) := by
  unfold countExcess
  repeat' (first | with_reducible assumption | exact castlePpm_le | (show PortOk _; assumption) | (show ChanOk _; assumption) | (intro k hk; first | exact hk | (refine ⟨?_, ?_, ?_⟩ <;> (simp [hk.1, hk.2.1, hk.2.2]; done)) | (refine ⟨?_, ?_⟩ <;> (simp [hk.1, hk.2]; done)) | (dsimp only; split <;> first | exact hk | (refine ⟨?_, ?_, ?_⟩ <;> (simp [hk.1, hk.2.1, hk.2.2]; done)) | (refine ⟨?_, ?_⟩ <;> (simp [hk.1, hk.2]; done)))) | with_reducible apply Keeps_ite | with_reducible apply Keeps_ite_snd | with_reducible apply updCls_keeps | with_reducible apply raise_keeps | with_reducible refine Keeps_ports ?_ (upd_length _ _ _) (all_upd ?_) | with_reducible refine Keeps_chans ?_ (upd_length _ _ _) (all_upd ?_) | (simp only [Keeps_mk, upd_length, List.length_map, addTime_cmps, addTime_caps, addTime_ppso]; (first | exact Keeps_fold (by with_reducible assumption) | apply Keeps_fold | refine Keeps_units ?_ (all_map ?_) (all_map ?_) | refine Keeps_units ?_ (all_map ?_) id | refine Keeps_units ?_ id (all_map ?_) | refine Keeps_free ?_ (Nat.le_add_right _ _) | refine Keeps_sizes ?_ (fun z => by simp only [sizes, shape, List.cons.injEq] at z ⊢; (first | (simp [z]; done) | (simp [z]; split <;> simp [z]))))) | dsimp only | intro _ | split)

theorem runMessage_keeps {b s : State} (h : Keeps b s) {a1 a2 a3} : Keeps b (runMessage a1 a2 a3 s) := by
  unfold runMessage
  repeat' (first | with_reducible assumption | exact castlePpm_le | (show PortOk _; assumption) | (show ChanOk _; assumption) | (intro k hk; first | exact hk | (refine ⟨?_, ?_, ?_⟩ <;> (simp [hk.1, hk.2.1, hk.2.2]; done)) | (refine ⟨?_, ?_⟩ <;> (simp [hk.1, hk.2]; done)) | (dsimp only; split <;> first | exact hk | (refine ⟨?_, ?_, ?_⟩ <;> (simp [hk.1, hk.2.1, hk.2.2]; done)) | (refine ⟨?_, ?_⟩ <;> (simp [hk.1, hk.2]; done)))) | with_reducible apply Keeps_ite | with_reducible apply Keeps_ite_snd | with_reducible apply throughFilter_keeps | with_reducible apply police_keeps | with_reducible apply bufferAndQueue_keeps | with_reducible apply countExcess_keeps | with_reducible refine Keeps_ports ?_ (upd_length _ _ _) (all_upd ?_) | with_reducible refine Keeps_chans ?_ (upd_length _ _ _) (all_upd ?_) | (simp only [Keeps_mk, upd_length, List.length_map, addTime_cmps, addTime_caps, addTime_ppso]; (first | exact Keeps_fold (by with_reducible assumption) | apply Keeps_fold | refine Keeps_units ?_ (all_map ?_) (all_map ?_) | refine Keeps_units ?_ (all_map ?_) id | refine Keeps_units ?_ id (all_map ?_) | refine Keeps_free ?_ (Nat.le_add_right _ _) | refine Keeps_sizes ?_ (fun z => by simp only [sizes, shape, List.cons.injEq] at z ⊢; (first | (simp [z]; done) | (simp [z]; split <;> simp [z]))))) | dsimp only | intro _ | split)

theorem unrouted_keeps {b s : State} (h : Keeps b s) {a1} : Keeps b (unrouted a1 s) := by
  unfold unrouted
  repeat' (first | with_reducible assumption | exact castlePpm_le | (show PortOk _; assumption) | (show ChanOk _; assumption) | (intro k hk; first | exact hk | (refine ⟨?_, ?_, ?_⟩ <;> (simp [hk.1, hk.2.1, hk.2.2]; done)) | (refine ⟨?_, ?_⟩ <;> (simp [hk.1, hk.2]; done)) | (dsimp only; split <;> first | exact hk | (refine ⟨?_, ?_, ?_⟩ <;> (simp [hk.1, hk.2.1, hk.2.2]; done)) | (refine ⟨?_, ?_⟩ <;> (simp [hk.1, hk.2]; done)))) | with_reducible apply Keeps_ite | with_reducible apply Keeps_ite_snd | with_reducible apply raise_keeps | with_reducible refine Keeps_ports ?_ (upd_length _ _ _) (all_upd ?_) | with_reducible refine Keeps_chans ?_ (upd_length _ _ _) (all_upd ?_) | (simp only [Keeps_mk, upd_length, List.length_map, addTime_cmps, addTime_caps, addTime_ppso]; (first | exact Keeps_fold (by with_reducible assumption) | apply Keeps_fold | refine Keeps_units ?_ (all_map ?_) (all_map ?_) | refine Keeps_units ?_ (all_map ?_) id | refine Keeps_units ?_ id (all_map ?_) | refine Keeps_free ?_ (Nat.le_add_right _ _) | refine Keeps_sizes ?_ (fun z => by simp only [sizes, shape, List.cons.injEq] at z ⊢; (first | (simp [z]; done) | (simp [z]; split <;> simp [z]))))) | dsimp only | intro _ | split)

theorem withoutRoute_keeps {b s : State} (h : Keeps b s) {a1} : Keeps b (withoutRoute a1 s) := by
  unfold withoutRoute
  repeat' (first | with_reducible assumption | exact castlePpm_le | (show PortOk _; assumption) | (show ChanOk _; assumption) | (intro k hk; first | exact hk | (refine ⟨?_, ?_, ?_⟩ <;> (simp [hk.1, hk.2.1, hk.2.2]; done)) | (refine ⟨?_, ?_⟩ <;> (simp [hk.1, hk.2]; done)) | (dsimp only; split <;> first | exact hk | (refine ⟨?_, ?_, ?_⟩ <;> (simp [hk.1, hk.2.1, hk.2.2]; done)) | (refine ⟨?_, ?_⟩ <;> (simp [hk.1, hk.2]; done)))) | with_reducible apply Keeps_ite | with_reducible apply Keeps_ite_snd | with_reducible apply unrouted_keeps | with_reducible apply bufferAndQueue_keeps | with_reducible refine Keeps_ports ?_ (upd_length _ _ _) (all_upd ?_) | with_reducible refine Keeps_chans ?_ (upd_length _ _ _) (all_upd ?_) | (simp only [Keeps_mk, upd_length, List.length_map, addTime_cmps, addTime_caps, addTime_ppso]; (first | exact Keeps_fold (by with_reducible assumption) | apply Keeps_fold | refine Keeps_units ?_ (all_map ?_) (all_map ?_) | refine Keeps_units ?_ (all_map ?_) id | refine Keeps_units ?_ id (all_map ?_) | refine Keeps_free ?_ (Nat.le_add_right _ _) | refine Keeps_sizes ?_ (fun z => by simp only [sizes, shape, List.cons.injEq] at z ⊢; (first | (simp [z]; done) | (simp [z]; split <;> simp [z]))))) | dsimp only | intro _ | split)

theorem enterRoute_keeps {b s : State} (h : Keeps b s) {a1 a2 a3} : Keeps b (enterRoute a1 a2 a3 s) := by
  unfold enterRoute
  repeat' (first | with_reducible assumption | exact castlePpm_le | (show PortOk _; assumption) | (show ChanOk _; assumption) | (intro k hk; first | exact hk | (refine ⟨?_, ?_, ?_⟩ <;> (simp [hk.1, hk.2.1, hk.2.2]; done)) | (refine ⟨?_, ?_⟩ <;> (simp [hk.1, hk.2]; done)) | (dsimp only; split <;> first | exact hk | (refine ⟨?_, ?_, ?_⟩ <;> (simp [hk.1, hk.2.1, hk.2.2]; done)) | (refine ⟨?_, ?_⟩ <;> (simp [hk.1, hk.2]; done)))) | with_reducible apply Keeps_ite | with_reducible apply Keeps_ite_snd | with_reducible apply countHit_keeps | with_reducible apply runMessage_keeps | with_reducible apply withoutRoute_keeps | with_reducible refine Keeps_ports ?_ (upd_length _ _ _) (all_upd ?_) | with_reducible refine Keeps_chans ?_ (upd_length _ _ _) (all_upd ?_) | (simp only [Keeps_mk, upd_length, List.length_map, addTime_cmps, addTime_caps, addTime_ppso]; (first | exact Keeps_fold (by with_reducible assumption) | apply Keeps_fold | refine Keeps_units ?_ (all_map ?_) (all_map ?_) | refine Keeps_units ?_ (all_map ?_) id | refine Keeps_units ?_ id (all_map ?_) | refine Keeps_free ?_ (Nat.le_add_right _ _) | refine Keeps_sizes ?_ (fun z => by simp only [sizes, shape, List.cons.injEq] at z ⊢; (first | (simp [z]; done) | (simp [z]; split <;> simp [z]))))) | dsimp only | intro _ | split)

theorem queueOwnOn_keeps {b s : State} (h : Keeps b s) {a1 a2 a3 a4 a5 a6 a7} : Keeps b (queueOwnOn a1 a2 a3 a4 a5 a6 a7 s) := by
  unfold queueOwnOn
  repeat' (first | with_reducible assumption | exact castlePpm_le | (show PortOk _; assumption) | (show ChanOk _; assumption) | (intro k hk; first | exact hk | (refine ⟨?_, ?_, ?_⟩ <;> (simp [hk.1, hk.2.1, hk.2.2]; done)) | (refine ⟨?_, ?_⟩ <;> (simp [hk.1, hk.2]; done)) | (dsimp only; split <;> first | exact hk | (refine ⟨?_, ?_, ?_⟩ <;> (simp [hk.1, hk.2.1, hk.2.2]; done)) | (refine ⟨?_, ?_⟩ <;> (simp [hk.1, hk.2]; done)))) | with_reducible apply Keeps_ite | with_reducible apply Keeps_ite_snd | with_reducible apply raise_keeps | with_reducible apply updCls_keeps | with_reducible apply queueEths_keeps | with_reducible refine Keeps_ports ?_ (upd_length _ _ _) (all_upd ?_) | with_reducible refine Keeps_chans ?_ (upd_length _ _ _) (all_upd ?_) | (simp only [Keeps_mk, upd_length, List.length_map, addTime_cmps, addTime_caps, addTime_ppso]; (first | exact Keeps_fold (by with_reducible assumption) | apply Keeps_fold | refine Keeps_units ?_ (all_map ?_) (all_map ?_) | refine Keeps_units ?_ (all_map ?_) id | refine Keeps_units ?_ id (all_map ?_) | refine Keeps_free ?_ (Nat.le_add_right _ _) | refine Keeps_sizes ?_ (fun z => by simp only [sizes, shape, List.cons.injEq] at z ⊢; (first | (simp [z]; done) | (simp [z]; split <;> simp [z]))))) | dsimp only | intro _ | split)

theorem queueOwn_keeps {b s : State} (h : Keeps b s) {a1 a2 a3 a4 a5 a6 a7} : Keeps b (queueOwn a1 a2 a3 a4 a5 a6 a7 s) := by
  unfold queueOwn
  repeat' (first | with_reducible assumption | exact castlePpm_le | (show PortOk _; assumption) | (show ChanOk _; assumption) | (intro k hk; first | exact hk | (refine ⟨?_, ?_, ?_⟩ <;> (simp [hk.1, hk.2.1, hk.2.2]; done)) | (refine ⟨?_, ?_⟩ <;> (simp [hk.1, hk.2]; done)) | (dsimp only; split <;> first | exact hk | (refine ⟨?_, ?_, ?_⟩ <;> (simp [hk.1, hk.2.1, hk.2.2]; done)) | (refine ⟨?_, ?_⟩ <;> (simp [hk.1, hk.2]; done)))) | with_reducible apply Keeps_ite | with_reducible apply Keeps_ite_snd | with_reducible apply queueOwnOn_keeps | with_reducible refine Keeps_ports ?_ (upd_length _ _ _) (all_upd ?_) | with_reducible refine Keeps_chans ?_ (upd_length _ _ _) (all_upd ?_) | (simp only [Keeps_mk, upd_length, List.length_map, addTime_cmps, addTime_caps, addTime_ppso]; (first | exact Keeps_fold (by with_reducible assumption) | apply Keeps_fold | refine Keeps_units ?_ (all_map ?_) (all_map ?_) | refine Keeps_units ?_ (all_map ?_) id | refine Keeps_units ?_ id (all_map ?_) | refine Keeps_free ?_ (Nat.le_add_right _ _) | refine Keeps_sizes ?_ (fun z => by simp only [sizes, shape, List.cons.injEq] at z ⊢; (first | (simp [z]; done) | (simp [z]; split <;> simp [z]))))) | dsimp only | intro _ | split)

theorem enterBoard_keeps {b s : State} (h : Keeps b s) {a1} : Keeps b (enterBoard a1 s) := by
  unfold enterBoard
  repeat' (first | with_reducible assumption | exact castlePpm_le | (show PortOk _; assumption) | (show ChanOk _; assumption) | (intro k hk; first | exact hk | (refine ⟨?_, ?_, ?_⟩ <;> (simp [hk.1, hk.2.1, hk.2.2]; done)) | (refine ⟨?_, ?_⟩ <;> (simp [hk.1, hk.2]; done)) | (dsimp only; split <;> first | exact hk | (refine ⟨?_, ?_, ?_⟩ <;> (simp [hk.1, hk.2.1, hk.2.2]; done)) | (refine ⟨?_, ?_⟩ <;> (simp [hk.1, hk.2]; done)))) | with_reducible apply Keeps_ite | with_reducible apply Keeps_ite_snd | with_reducible apply withoutRoute_keeps | with_reducible apply enterRoute_keeps | with_reducible refine Keeps_ports ?_ (upd_length _ _ _) (all_upd ?_) | with_reducible refine Keeps_chans ?_ (upd_length _ _ _) (all_upd ?_) | (simp only [Keeps_mk, upd_length, List.length_map, addTime_cmps, addTime_caps, addTime_ppso]; (first | exact Keeps_fold (by with_reducible assumption) | apply Keeps_fold | refine Keeps_units ?_ (all_map ?_) (all_map ?_) | refine Keeps_units ?_ (all_map ?_) id | refine Keeps_units ?_ id (all_map ?_) | refine Keeps_free ?_ (Nat.le_add_right _ _) | refine Keeps_sizes ?_ (fun z => by simp only [sizes, shape, List.cons.injEq] at z ⊢; (first | (simp [z]; done) | (simp [z]; split <;> simp [z]))))) | dsimp only | intro _ | split)

end Sys2Proof.Laws
end

