-- ==== Sys2Proof/Laws/KeepsPtpMsg.lean ====
section
/-!
SUPPORT. The operations of Machine/PtpMsg.lean keep what Laws/Keeps.lean lists.
-/

namespace Sys2Proof.Laws

open Sys2Proof.Machine Sys2Proof.Safety

set_option linter.all false

theorem updPort_keeps {b s : State} (h : Keeps b s) {a1 a2} : Keeps b (updPort a1 a2 s) := by
  unfold updPort
  repeat' (first | with_reducible assumption | exact castlePpm_le | (show PortOk _; assumption) | (show ChanOk _; assumption) | (intro k hk; first | exact hk | (refine ⟨?_, ?_, ?_⟩ <;> (simp [hk.1, hk.2.1, hk.2.2]; done)) | (refine ⟨?_, ?_⟩ <;> (simp [hk.1, hk.2]; done)) | (dsimp only; split <;> first | exact hk | (refine ⟨?_, ?_, ?_⟩ <;> (simp [hk.1, hk.2.1, hk.2.2]; done)) | (refine ⟨?_, ?_⟩ <;> (simp [hk.1, hk.2]; done)))) | with_reducible apply Keeps_ite | with_reducible apply Keeps_ite_snd | with_reducible refine Keeps_ports ?_ (upd_length _ _ _) (all_upd ?_) | with_reducible refine Keeps_chans ?_ (upd_length _ _ _) (all_upd ?_) | (simp only [Keeps_mk, upd_length, List.length_map, addTime_cmps, addTime_caps, addTime_ppso]; (first | exact Keeps_fold (by with_reducible assumption) | apply Keeps_fold | refine Keeps_units ?_ (all_map ?_) (all_map ?_) | refine Keeps_units ?_ (all_map ?_) id | refine Keeps_units ?_ id (all_map ?_) | refine Keeps_free ?_ (Nat.le_add_right _ _) | refine Keeps_sizes ?_ (fun z => by simp only [sizes, shape, List.cons.injEq] at z ⊢; (first | (simp [z]; done) | (simp [z]; split <;> simp [z]))))) | dsimp only | intro _ | split)

theorem updPortDom_keeps {b s : State} (h : Keeps b s) {a1 a2 a3} : Keeps b (updPortDom a1 a2 a3 s) := by
  unfold updPortDom
  repeat' (first | with_reducible assumption | exact castlePpm_le | (show PortOk _; assumption) | (show ChanOk _; assumption) | (intro k hk; first | exact hk | (refine ⟨?_, ?_, ?_⟩ <;> (simp [hk.1, hk.2.1, hk.2.2]; done)) | (refine ⟨?_, ?_⟩ <;> (simp [hk.1, hk.2]; done)) | (dsimp only; split <;> first | exact hk | (refine ⟨?_, ?_, ?_⟩ <;> (simp [hk.1, hk.2.1, hk.2.2]; done)) | (refine ⟨?_, ?_⟩ <;> (simp [hk.1, hk.2]; done)))) | with_reducible apply Keeps_ite | with_reducible apply Keeps_ite_snd | with_reducible apply updPort_keeps | with_reducible refine Keeps_ports ?_ (upd_length _ _ _) (all_upd ?_) | with_reducible refine Keeps_chans ?_ (upd_length _ _ _) (all_upd ?_) | (simp only [Keeps_mk, upd_length, List.length_map, addTime_cmps, addTime_caps, addTime_ppso]; (first | exact Keeps_fold (by with_reducible assumption) | apply Keeps_fold | refine Keeps_units ?_ (all_map ?_) (all_map ?_) | refine Keeps_units ?_ (all_map ?_) id | refine Keeps_units ?_ id (all_map ?_) | refine Keeps_free ?_ (Nat.le_add_right _ _) | refine Keeps_sizes ?_ (fun z => by simp only [sizes, shape, List.cons.injEq] at z ⊢; (first | (simp [z]; done) | (simp [z]; split <;> simp [z]))))) | dsimp only | intro _ | split)

theorem takeMaster_keeps {b s : State} (h : Keeps b s) {a1 a2} : Keeps b (takeMaster a1 a2 s) := by
  unfold takeMaster
  repeat' (first | with_reducible assumption | exact castlePpm_le | (show PortOk _; assumption) | (show ChanOk _; assumption) | (intro k hk; first | exact hk | (refine ⟨?_, ?_, ?_⟩ <;> (simp [hk.1, hk.2.1, hk.2.2]; done)) | (refine ⟨?_, ?_⟩ <;> (simp [hk.1, hk.2]; done)) | (dsimp only; split <;> first | exact hk | (refine ⟨?_, ?_, ?_⟩ <;> (simp [hk.1, hk.2.1, hk.2.2]; done)) | (refine ⟨?_, ?_⟩ <;> (simp [hk.1, hk.2]; done)))) | with_reducible apply Keeps_ite | with_reducible apply Keeps_ite_snd | with_reducible apply updDom_keeps | with_reducible apply startServo_keeps | with_reducible apply loseDomain_keeps | with_reducible apply idleServo_keeps | with_reducible refine Keeps_ports ?_ (upd_length _ _ _) (all_upd ?_) | with_reducible refine Keeps_chans ?_ (upd_length _ _ _) (all_upd ?_) | (simp only [Keeps_mk, upd_length, List.length_map, addTime_cmps, addTime_caps, addTime_ppso]; (first | exact Keeps_fold (by with_reducible assumption) | apply Keeps_fold | refine Keeps_units ?_ (all_map ?_) (all_map ?_) | refine Keeps_units ?_ (all_map ?_) id | refine Keeps_units ?_ id (all_map ?_) | refine Keeps_free ?_ (Nat.le_add_right _ _) | refine Keeps_sizes ?_ (fun z => by simp only [sizes, shape, List.cons.injEq] at z ⊢; (first | (simp [z]; done) | (simp [z]; split <;> simp [z]))))) | dsimp only | intro _ | split)

theorem setStates_keeps {b s : State} (h : Keeps b s) {a1 a2 a3} : Keeps b (setStates a1 a2 a3 s) := by
  induction a3 generalizing a1 a2 s with
  | nil =>
    unfold setStates
    repeat' (first | with_reducible assumption | exact castlePpm_le | (show PortOk _; assumption) | (show ChanOk _; assumption) | (intro k hk; first | exact hk | (refine ⟨?_, ?_, ?_⟩ <;> (simp [hk.1, hk.2.1, hk.2.2]; done)) | (refine ⟨?_, ?_⟩ <;> (simp [hk.1, hk.2]; done)) | (dsimp only; split <;> first | exact hk | (refine ⟨?_, ?_, ?_⟩ <;> (simp [hk.1, hk.2.1, hk.2.2]; done)) | (refine ⟨?_, ?_⟩ <;> (simp [hk.1, hk.2]; done)))) | with_reducible apply Keeps_ite | with_reducible apply Keeps_ite_snd | with_reducible apply updPortDom_keeps | with_reducible refine Keeps_ports ?_ (upd_length _ _ _) (all_upd ?_) | with_reducible refine Keeps_chans ?_ (upd_length _ _ _) (all_upd ?_) | (simp only [Keeps_mk, upd_length, List.length_map, addTime_cmps, addTime_caps, addTime_ppso]; (first | exact Keeps_fold (by with_reducible assumption) | apply Keeps_fold | refine Keeps_units ?_ (all_map ?_) (all_map ?_) | refine Keeps_units ?_ (all_map ?_) id | refine Keeps_units ?_ id (all_map ?_) | refine Keeps_free ?_ (Nat.le_add_right _ _) | refine Keeps_sizes ?_ (fun z => by simp only [sizes, shape, List.cons.injEq] at z ⊢; (first | (simp [z]; done) | (simp [z]; split <;> simp [z]))))) | dsimp only | intro _ | split)
  | cons x l ih =>
    unfold setStates
    repeat' (first | with_reducible assumption | exact castlePpm_le | (show PortOk _; assumption) | (show ChanOk _; assumption) | (intro k hk; first | exact hk | (refine ⟨?_, ?_, ?_⟩ <;> (simp [hk.1, hk.2.1, hk.2.2]; done)) | (refine ⟨?_, ?_⟩ <;> (simp [hk.1, hk.2]; done)) | (dsimp only; split <;> first | exact hk | (refine ⟨?_, ?_, ?_⟩ <;> (simp [hk.1, hk.2.1, hk.2.2]; done)) | (refine ⟨?_, ?_⟩ <;> (simp [hk.1, hk.2]; done)))) | with_reducible apply ih | with_reducible apply Keeps_ite | with_reducible apply Keeps_ite_snd | with_reducible apply updPortDom_keeps | with_reducible refine Keeps_ports ?_ (upd_length _ _ _) (all_upd ?_) | with_reducible refine Keeps_chans ?_ (upd_length _ _ _) (all_upd ?_) | (simp only [Keeps_mk, upd_length, List.length_map, addTime_cmps, addTime_caps, addTime_ppso]; (first | exact Keeps_fold (by with_reducible assumption) | apply Keeps_fold | refine Keeps_units ?_ (all_map ?_) (all_map ?_) | refine Keeps_units ?_ (all_map ?_) id | refine Keeps_units ?_ id (all_map ?_) | refine Keeps_free ?_ (Nat.le_add_right _ _) | refine Keeps_sizes ?_ (fun z => by simp only [sizes, shape, List.cons.injEq] at z ⊢; (first | (simp [z]; done) | (simp [z]; split <;> simp [z]))))) | dsimp only | intro _ | split)

theorem runBmca_keeps {b s : State} (h : Keeps b s) {a1 a2} : Keeps b (runBmca a1 a2 s) := by
  unfold runBmca
  repeat' (first | with_reducible assumption | exact castlePpm_le | (show PortOk _; assumption) | (show ChanOk _; assumption) | (intro k hk; first | exact hk | (refine ⟨?_, ?_, ?_⟩ <;> (simp [hk.1, hk.2.1, hk.2.2]; done)) | (refine ⟨?_, ?_⟩ <;> (simp [hk.1, hk.2]; done)) | (dsimp only; split <;> first | exact hk | (refine ⟨?_, ?_, ?_⟩ <;> (simp [hk.1, hk.2.1, hk.2.2]; done)) | (refine ⟨?_, ?_⟩ <;> (simp [hk.1, hk.2]; done)))) | with_reducible apply Keeps_ite | with_reducible apply Keeps_ite_snd | with_reducible apply takeMaster_keeps | with_reducible apply setStates_keeps | with_reducible refine Keeps_ports ?_ (upd_length _ _ _) (all_upd ?_) | with_reducible refine Keeps_chans ?_ (upd_length _ _ _) (all_upd ?_) | (simp only [Keeps_mk, upd_length, List.length_map, addTime_cmps, addTime_caps, addTime_ppso]; (first | exact Keeps_fold (by with_reducible assumption) | apply Keeps_fold | refine Keeps_units ?_ (all_map ?_) (all_map ?_) | refine Keeps_units ?_ (all_map ?_) id | refine Keeps_units ?_ id (all_map ?_) | refine Keeps_free ?_ (Nat.le_add_right _ _) | refine Keeps_sizes ?_ (fun z => by simp only [sizes, shape, List.cons.injEq] at z ⊢; (first | (simp [z]; done) | (simp [z]; split <;> simp [z]))))) | dsimp only | intro _ | split)

theorem finishPdelay_keeps {b s : State} (h : Keeps b s) {a1 a2 a3 a4 a5} : Keeps b (finishPdelay a1 a2 a3 a4 a5 s) := by
  unfold finishPdelay
  repeat' (first | with_reducible assumption | exact castlePpm_le | (show PortOk _; assumption) | (show ChanOk _; assumption) | (intro k hk; first | exact hk | (refine ⟨?_, ?_, ?_⟩ <;> (simp [hk.1, hk.2.1, hk.2.2]; done)) | (refine ⟨?_, ?_⟩ <;> (simp [hk.1, hk.2]; done)) | (dsimp only; split <;> first | exact hk | (refine ⟨?_, ?_, ?_⟩ <;> (simp [hk.1, hk.2.1, hk.2.2]; done)) | (refine ⟨?_, ?_⟩ <;> (simp [hk.1, hk.2]; done)))) | with_reducible apply Keeps_ite | with_reducible apply Keeps_ite_snd | with_reducible apply updPortDom_keeps | with_reducible apply updPort_keeps | with_reducible apply runBmca_keeps | with_reducible refine Keeps_ports ?_ (upd_length _ _ _) (all_upd ?_) | with_reducible refine Keeps_chans ?_ (upd_length _ _ _) (all_upd ?_) | (simp only [Keeps_mk, upd_length, List.length_map, addTime_cmps, addTime_caps, addTime_ppso]; (first | exact Keeps_fold (by with_reducible assumption) | apply Keeps_fold | refine Keeps_units ?_ (all_map ?_) (all_map ?_) | refine Keeps_units ?_ (all_map ?_) id | refine Keeps_units ?_ id (all_map ?_) | refine Keeps_free ?_ (Nat.le_add_right _ _) | refine Keeps_sizes ?_ (fun z => by simp only [sizes, shape, List.cons.injEq] at z ⊢; (first | (simp [z]; done) | (simp [z]; split <;> simp [z]))))) | dsimp only | intro _ | split)

theorem sendSync_keeps {b s : State} (h : Keeps b s) {a1 a2} : Keeps b (sendSync a1 a2 s) := by
  unfold sendSync
  repeat' (first | with_reducible assumption | exact castlePpm_le | (show PortOk _; assumption) | (show ChanOk _; assumption) | (intro k hk; first | exact hk | (refine ⟨?_, ?_, ?_⟩ <;> (simp [hk.1, hk.2.1, hk.2.2]; done)) | (refine ⟨?_, ?_⟩ <;> (simp [hk.1, hk.2]; done)) | (dsimp only; split <;> first | exact hk | (refine ⟨?_, ?_, ?_⟩ <;> (simp [hk.1, hk.2.1, hk.2.2]; done)) | (refine ⟨?_, ?_⟩ <;> (simp [hk.1, hk.2]; done)))) | with_reducible apply Keeps_ite | with_reducible apply Keeps_ite_snd | with_reducible apply queueOwn_keeps | with_reducible apply updPortDom_keeps | with_reducible refine Keeps_ports ?_ (upd_length _ _ _) (all_upd ?_) | with_reducible refine Keeps_chans ?_ (upd_length _ _ _) (all_upd ?_) | (simp only [Keeps_mk, upd_length, List.length_map, addTime_cmps, addTime_caps, addTime_ppso]; (first | exact Keeps_fold (by with_reducible assumption) | apply Keeps_fold | refine Keeps_units ?_ (all_map ?_) (all_map ?_) | refine Keeps_units ?_ (all_map ?_) id | refine Keeps_units ?_ id (all_map ?_) | refine Keeps_free ?_ (Nat.le_add_right _ _) | refine Keeps_sizes ?_ (fun z => by simp only [sizes, shape, List.cons.injEq] at z ⊢; (first | (simp [z]; done) | (simp [z]; split <;> simp [z]))))) | dsimp only | intro _ | split)

theorem execPtpSyncTx_goes {b s : State} (h : Keeps b s) {a1 a2} : Goes b (execPtpSyncTx a1 a2 s) := by
  unfold execPtpSyncTx
  repeat' (first | with_reducible assumption | exact castlePpm_le | (show PortOk _; assumption) | (show ChanOk _; assumption) | (intro k hk; first | exact hk | (refine ⟨?_, ?_, ?_⟩ <;> (simp [hk.1, hk.2.1, hk.2.2]; done)) | (refine ⟨?_, ?_⟩ <;> (simp [hk.1, hk.2]; done)) | (dsimp only; split <;> first | exact hk | (refine ⟨?_, ?_, ?_⟩ <;> (simp [hk.1, hk.2.1, hk.2.2]; done)) | (refine ⟨?_, ?_⟩ <;> (simp [hk.1, hk.2]; done)))) | with_reducible apply Goes_next | with_reducible apply Goes_ite | with_reducible apply Keeps_ite | with_reducible apply Keeps_ite_snd | with_reducible apply sendSync_keeps | with_reducible refine Keeps_ports ?_ (upd_length _ _ _) (all_upd ?_) | with_reducible refine Keeps_chans ?_ (upd_length _ _ _) (all_upd ?_) | (simp only [Keeps_mk, upd_length, List.length_map, addTime_cmps, addTime_caps, addTime_ppso]; (first | exact Keeps_fold (by with_reducible assumption) | apply Keeps_fold | refine Keeps_units ?_ (all_map ?_) (all_map ?_) | refine Keeps_units ?_ (all_map ?_) id | refine Keeps_units ?_ id (all_map ?_) | refine Keeps_free ?_ (Nat.le_add_right _ _) | refine Keeps_sizes ?_ (fun z => by simp only [sizes, shape, List.cons.injEq] at z ⊢; (first | (simp [z]; done) | (simp [z]; split <;> simp [z]))))) | dsimp only | intro _ | split)

theorem ptpOff_keeps {b s : State} (h : Keeps b s) : Keeps b (ptpOff s) := by
  unfold ptpOff
  repeat' (first | with_reducible assumption | exact castlePpm_le | (show PortOk _; assumption) | (show ChanOk _; assumption) | (intro k hk; first | exact hk | (refine ⟨?_, ?_, ?_⟩ <;> (simp [hk.1, hk.2.1, hk.2.2]; done)) | (refine ⟨?_, ?_⟩ <;> (simp [hk.1, hk.2]; done)) | (dsimp only; split <;> first | exact hk | (refine ⟨?_, ?_, ?_⟩ <;> (simp [hk.1, hk.2.1, hk.2.2]; done)) | (refine ⟨?_, ?_⟩ <;> (simp [hk.1, hk.2]; done)))) | with_reducible apply Keeps_ite | with_reducible apply Keeps_ite_snd | with_reducible refine Keeps_ports ?_ (upd_length _ _ _) (all_upd ?_) | with_reducible refine Keeps_chans ?_ (upd_length _ _ _) (all_upd ?_) | (simp only [Keeps_mk, upd_length, List.length_map, addTime_cmps, addTime_caps, addTime_ppso]; (first | exact Keeps_fold (by with_reducible assumption) | apply Keeps_fold | refine Keeps_units ?_ (all_map ?_) (all_map ?_) | refine Keeps_units ?_ (all_map ?_) id | refine Keeps_units ?_ id (all_map ?_) | refine Keeps_free ?_ (Nat.le_add_right _ _) | refine Keeps_sizes ?_ (fun z => by simp only [sizes, shape, List.cons.injEq] at z ⊢; (first | (simp [z]; done) | (simp [z]; split <;> simp [z]))))) | dsimp only | intro _ | split)

theorem txtsRead_keeps {b s : State} (h : Keeps b s) {a1 a2} : Keeps b (txtsRead a1 a2 s) := by
  unfold txtsRead
  repeat' (first | with_reducible assumption | exact castlePpm_le | (show PortOk _; assumption) | (show ChanOk _; assumption) | (intro k hk; first | exact hk | (refine ⟨?_, ?_, ?_⟩ <;> (simp [hk.1, hk.2.1, hk.2.2]; done)) | (refine ⟨?_, ?_⟩ <;> (simp [hk.1, hk.2]; done)) | (dsimp only; split <;> first | exact hk | (refine ⟨?_, ?_, ?_⟩ <;> (simp [hk.1, hk.2.1, hk.2.2]; done)) | (refine ⟨?_, ?_⟩ <;> (simp [hk.1, hk.2]; done)))) | with_reducible apply Keeps_ite | with_reducible apply Keeps_ite_snd | with_reducible apply updPort_keeps | with_reducible refine Keeps_ports ?_ (upd_length _ _ _) (all_upd ?_) | with_reducible refine Keeps_chans ?_ (upd_length _ _ _) (all_upd ?_) | (simp only [Keeps_mk, upd_length, List.length_map, addTime_cmps, addTime_caps, addTime_ppso]; (first | exact Keeps_fold (by with_reducible assumption) | apply Keeps_fold | refine Keeps_units ?_ (all_map ?_) (all_map ?_) | refine Keeps_units ?_ (all_map ?_) id | refine Keeps_units ?_ id (all_map ?_) | refine Keeps_free ?_ (Nat.le_add_right _ _) | refine Keeps_sizes ?_ (fun z => by simp only [sizes, shape, List.cons.injEq] at z ⊢; (first | (simp [z]; done) | (simp [z]; split <;> simp [z]))))) | dsimp only | intro _ | split)

theorem execTxtsFifoRead_goes {b s : State} (h : Keeps b s) {a1} : Goes b (execTxtsFifoRead a1 s) := by
  unfold execTxtsFifoRead
  repeat' (first | with_reducible assumption | exact castlePpm_le | (show PortOk _; assumption) | (show ChanOk _; assumption) | (intro k hk; first | exact hk | (refine ⟨?_, ?_, ?_⟩ <;> (simp [hk.1, hk.2.1, hk.2.2]; done)) | (refine ⟨?_, ?_⟩ <;> (simp [hk.1, hk.2]; done)) | (dsimp only; split <;> first | exact hk | (refine ⟨?_, ?_, ?_⟩ <;> (simp [hk.1, hk.2.1, hk.2.2]; done)) | (refine ⟨?_, ?_⟩ <;> (simp [hk.1, hk.2]; done)))) | with_reducible apply Goes_next | with_reducible apply Goes_ite | with_reducible apply Keeps_ite | with_reducible apply Keeps_ite_snd | with_reducible apply ifCore_keeps | with_reducible apply txtsRead_keeps | with_reducible refine Keeps_ports ?_ (upd_length _ _ _) (all_upd ?_) | with_reducible refine Keeps_chans ?_ (upd_length _ _ _) (all_upd ?_) | (simp only [Keeps_mk, upd_length, List.length_map, addTime_cmps, addTime_caps, addTime_ppso]; (first | exact Keeps_fold (by with_reducible assumption) | apply Keeps_fold | refine Keeps_units ?_ (all_map ?_) (all_map ?_) | refine Keeps_units ?_ (all_map ?_) id | refine Keeps_units ?_ id (all_map ?_) | refine Keeps_free ?_ (Nat.le_add_right _ _) | refine Keeps_sizes ?_ (fun z => by simp only [sizes, shape, List.cons.injEq] at z ⊢; (first | (simp [z]; done) | (simp [z]; split <;> simp [z]))))) | dsimp only | intro _ | split)

theorem pdelayRespFu_keeps {b s : State} (h : Keeps b s) {a1 a2 a3} : Keeps b (pdelayRespFu a1 a2 a3 s) := by
  unfold pdelayRespFu
  repeat' (first | with_reducible assumption | exact castlePpm_le | (show PortOk _; assumption) | (show ChanOk _; assumption) | (intro k hk; first | exact hk | (refine ⟨?_, ?_, ?_⟩ <;> (simp [hk.1, hk.2.1, hk.2.2]; done)) | (refine ⟨?_, ?_⟩ <;> (simp [hk.1, hk.2]; done)) | (dsimp only; split <;> first | exact hk | (refine ⟨?_, ?_, ?_⟩ <;> (simp [hk.1, hk.2.1, hk.2.2]; done)) | (refine ⟨?_, ?_⟩ <;> (simp [hk.1, hk.2]; done)))) | with_reducible apply Keeps_ite | with_reducible apply Keeps_ite_snd | with_reducible apply finishPdelay_keeps | with_reducible refine Keeps_ports ?_ (upd_length _ _ _) (all_upd ?_) | with_reducible refine Keeps_chans ?_ (upd_length _ _ _) (all_upd ?_) | (simp only [Keeps_mk, upd_length, List.length_map, addTime_cmps, addTime_caps, addTime_ppso]; (first | exact Keeps_fold (by with_reducible assumption) | apply Keeps_fold | refine Keeps_units ?_ (all_map ?_) (all_map ?_) | refine Keeps_units ?_ (all_map ?_) id | refine Keeps_units ?_ id (all_map ?_) | refine Keeps_free ?_ (Nat.le_add_right _ _) | refine Keeps_sizes ?_ (fun z => by simp only [sizes, shape, List.cons.injEq] at z ⊢; (first | (simp [z]; done) | (simp [z]; split <;> simp [z]))))) | dsimp only | intro _ | split)

theorem keepResid_keeps {b s : State} (h : Keeps b s) {a1} : Keeps b (keepResid a1 s) := by
  unfold keepResid
  repeat' (first | with_reducible assumption | exact castlePpm_le | (show PortOk _; assumption) | (show ChanOk _; assumption) | (intro k hk; first | exact hk | (refine ⟨?_, ?_, ?_⟩ <;> (simp [hk.1, hk.2.1, hk.2.2]; done)) | (refine ⟨?_, ?_⟩ <;> (simp [hk.1, hk.2]; done)) | (dsimp only; split <;> first | exact hk | (refine ⟨?_, ?_, ?_⟩ <;> (simp [hk.1, hk.2.1, hk.2.2]; done)) | (refine ⟨?_, ?_⟩ <;> (simp [hk.1, hk.2]; done)))) | with_reducible apply Keeps_ite | with_reducible apply Keeps_ite_snd | with_reducible refine Keeps_ports ?_ (upd_length _ _ _) (all_upd ?_) | with_reducible refine Keeps_chans ?_ (upd_length _ _ _) (all_upd ?_) | (simp only [Keeps_mk, upd_length, List.length_map, addTime_cmps, addTime_caps, addTime_ppso]; (first | exact Keeps_fold (by with_reducible assumption) | apply Keeps_fold | refine Keeps_units ?_ (all_map ?_) (all_map ?_) | refine Keeps_units ?_ (all_map ?_) id | refine Keeps_units ?_ id (all_map ?_) | refine Keeps_free ?_ (Nat.le_add_right _ _) | refine Keeps_sizes ?_ (fun z => by simp only [sizes, shape, List.cons.injEq] at z ⊢; (first | (simp [z]; done) | (simp [z]; split <;> simp [z]))))) | dsimp only | intro _ | split)

theorem execMasterLost_goes {b s : State} (h : Keeps b s) {a1} : Goes b (execMasterLost a1 s) := by
  unfold execMasterLost
  repeat' (first | with_reducible assumption | exact castlePpm_le | (show PortOk _; assumption) | (show ChanOk _; assumption) | (intro k hk; first | exact hk | (refine ⟨?_, ?_, ?_⟩ <;> (simp [hk.1, hk.2.1, hk.2.2]; done)) | (refine ⟨?_, ?_⟩ <;> (simp [hk.1, hk.2]; done)) | (dsimp only; split <;> first | exact hk | (refine ⟨?_, ?_, ?_⟩ <;> (simp [hk.1, hk.2.1, hk.2.2]; done)) | (refine ⟨?_, ?_⟩ <;> (simp [hk.1, hk.2]; done)))) | with_reducible apply Goes_next | with_reducible apply Goes_ite | with_reducible apply Keeps_ite | with_reducible apply Keeps_ite_snd | with_reducible apply runBmca_keeps | with_reducible apply updPortDom_keeps | with_reducible refine Keeps_ports ?_ (upd_length _ _ _) (all_upd ?_) | with_reducible refine Keeps_chans ?_ (upd_length _ _ _) (all_upd ?_) | (simp only [Keeps_mk, upd_length, List.length_map, addTime_cmps, addTime_caps, addTime_ppso]; (first | exact Keeps_fold (by with_reducible assumption) | apply Keeps_fold | refine Keeps_units ?_ (all_map ?_) (all_map ?_) | refine Keeps_units ?_ (all_map ?_) id | refine Keeps_units ?_ id (all_map ?_) | refine Keeps_free ?_ (Nat.le_add_right _ _) | refine Keeps_sizes ?_ (fun z => by simp only [sizes, shape, List.cons.injEq] at z ⊢; (first | (simp [z]; done) | (simp [z]; split <;> simp [z]))))) | dsimp only | intro _ | split)

theorem sendAnnounce_keeps {b s : State} (h : Keeps b s) {a1 a2} : Keeps b (sendAnnounce a1 a2 s) := by
  unfold sendAnnounce
  repeat' (first | with_reducible assumption | exact castlePpm_le | (show PortOk _; assumption) | (show ChanOk _; assumption) | (intro k hk; first | exact hk | (refine ⟨?_, ?_, ?_⟩ <;> (simp [hk.1, hk.2.1, hk.2.2]; done)) | (refine ⟨?_, ?_⟩ <;> (simp [hk.1, hk.2]; done)) | (dsimp only; split <;> first | exact hk | (refine ⟨?_, ?_, ?_⟩ <;> (simp [hk.1, hk.2.1, hk.2.2]; done)) | (refine ⟨?_, ?_⟩ <;> (simp [hk.1, hk.2]; done)))) | with_reducible apply Keeps_ite | with_reducible apply Keeps_ite_snd | with_reducible apply queueOwn_keeps | with_reducible apply drawn_keeps | with_reducible apply updPortDom_keeps | with_reducible refine Keeps_ports ?_ (upd_length _ _ _) (all_upd ?_) | with_reducible refine Keeps_chans ?_ (upd_length _ _ _) (all_upd ?_) | (simp only [Keeps_mk, upd_length, List.length_map, addTime_cmps, addTime_caps, addTime_ppso]; (first | exact Keeps_fold (by with_reducible assumption) | apply Keeps_fold | refine Keeps_units ?_ (all_map ?_) (all_map ?_) | refine Keeps_units ?_ (all_map ?_) id | refine Keeps_units ?_ id (all_map ?_) | refine Keeps_free ?_ (Nat.le_add_right _ _) | refine Keeps_sizes ?_ (fun z => by simp only [sizes, shape, List.cons.injEq] at z ⊢; (first | (simp [z]; done) | (simp [z]; split <;> simp [z]))))) | dsimp only | intro _ | split)

theorem execPtpAnnounceTx_goes {b s : State} (h : Keeps b s) {a1 a2} : Goes b (execPtpAnnounceTx a1 a2 s) := by
  unfold execPtpAnnounceTx
  repeat' (first | with_reducible assumption | exact castlePpm_le | (show PortOk _; assumption) | (show ChanOk _; assumption) | (intro k hk; first | exact hk | (refine ⟨?_, ?_, ?_⟩ <;> (simp [hk.1, hk.2.1, hk.2.2]; done)) | (refine ⟨?_, ?_⟩ <;> (simp [hk.1, hk.2]; done)) | (dsimp only; split <;> first | exact hk | (refine ⟨?_, ?_, ?_⟩ <;> (simp [hk.1, hk.2.1, hk.2.2]; done)) | (refine ⟨?_, ?_⟩ <;> (simp [hk.1, hk.2]; done)))) | with_reducible apply Goes_next | with_reducible apply Goes_ite | with_reducible apply Keeps_ite | with_reducible apply Keeps_ite_snd | with_reducible apply runBmca_keeps | with_reducible apply sendAnnounce_keeps | with_reducible refine Keeps_ports ?_ (upd_length _ _ _) (all_upd ?_) | with_reducible refine Keeps_chans ?_ (upd_length _ _ _) (all_upd ?_) | (simp only [Keeps_mk, upd_length, List.length_map, addTime_cmps, addTime_caps, addTime_ppso]; (first | exact Keeps_fold (by with_reducible assumption) | apply Keeps_fold | refine Keeps_units ?_ (all_map ?_) (all_map ?_) | refine Keeps_units ?_ (all_map ?_) id | refine Keeps_units ?_ id (all_map ?_) | refine Keeps_free ?_ (Nat.le_add_right _ _) | refine Keeps_sizes ?_ (fun z => by simp only [sizes, shape, List.cons.injEq] at z ⊢; (first | (simp [z]; done) | (simp [z]; split <;> simp [z]))))) | dsimp only | intro _ | split)

theorem pushTxts_keeps {b s : State} (h : Keeps b s) {a1 a2} : Keeps b (pushTxts a1 a2 s) := by
  unfold pushTxts
  repeat' (first | with_reducible assumption | exact castlePpm_le | (show PortOk _; assumption) | (show ChanOk _; assumption) | (intro k hk; first | exact hk | (refine ⟨?_, ?_, ?_⟩ <;> (simp [hk.1, hk.2.1, hk.2.2]; done)) | (refine ⟨?_, ?_⟩ <;> (simp [hk.1, hk.2]; done)) | (dsimp only; split <;> first | exact hk | (refine ⟨?_, ?_, ?_⟩ <;> (simp [hk.1, hk.2.1, hk.2.2]; done)) | (refine ⟨?_, ?_⟩ <;> (simp [hk.1, hk.2]; done)))) | with_reducible apply Keeps_ite | with_reducible apply Keeps_ite_snd | with_reducible apply updPort_keeps | with_reducible apply raise_keeps | with_reducible refine Keeps_ports ?_ (upd_length _ _ _) (all_upd ?_) | with_reducible refine Keeps_chans ?_ (upd_length _ _ _) (all_upd ?_) | (simp only [Keeps_mk, upd_length, List.length_map, addTime_cmps, addTime_caps, addTime_ppso]; (first | exact Keeps_fold (by with_reducible assumption) | apply Keeps_fold | refine Keeps_units ?_ (all_map ?_) (all_map ?_) | refine Keeps_units ?_ (all_map ?_) id | refine Keeps_units ?_ id (all_map ?_) | refine Keeps_free ?_ (Nat.le_add_right _ _) | refine Keeps_sizes ?_ (fun z => by simp only [sizes, shape, List.cons.injEq] at z ⊢; (first | (simp [z]; done) | (simp [z]; split <;> simp [z]))))) | dsimp only | intro _ | split)

theorem acceptSync_keeps {b s : State} (h : Keeps b s) {a1 a2 a3 a4 a5} : Keeps b (acceptSync a1 a2 a3 a4 a5 s) := by
  unfold acceptSync
  repeat' (first | with_reducible assumption | exact castlePpm_le | (show PortOk _; assumption) | (show ChanOk _; assumption) | (intro k hk; first | exact hk | (refine ⟨?_, ?_, ?_⟩ <;> (simp [hk.1, hk.2.1, hk.2.2]; done)) | (refine ⟨?_, ?_⟩ <;> (simp [hk.1, hk.2]; done)) | (dsimp only; split <;> first | exact hk | (refine ⟨?_, ?_, ?_⟩ <;> (simp [hk.1, hk.2.1, hk.2.2]; done)) | (refine ⟨?_, ?_⟩ <;> (simp [hk.1, hk.2]; done)))) | with_reducible apply Keeps_ite | with_reducible apply Keeps_ite_snd | with_reducible apply servoSample_keeps | with_reducible refine Keeps_ports ?_ (upd_length _ _ _) (all_upd ?_) | with_reducible refine Keeps_chans ?_ (upd_length _ _ _) (all_upd ?_) | (simp only [Keeps_mk, upd_length, List.length_map, addTime_cmps, addTime_caps, addTime_ppso]; (first | exact Keeps_fold (by with_reducible assumption) | apply Keeps_fold | refine Keeps_units ?_ (all_map ?_) (all_map ?_) | refine Keeps_units ?_ (all_map ?_) id | refine Keeps_units ?_ id (all_map ?_) | refine Keeps_free ?_ (Nat.le_add_right _ _) | refine Keeps_sizes ?_ (fun z => by simp only [sizes, shape, List.cons.injEq] at z ⊢; (first | (simp [z]; done) | (simp [z]; split <;> simp [z]))))) | dsimp only | intro _ | split)

theorem transitEgress_keeps {b s : State} (h : Keeps b s) {a1 a2 a3 a4} : Keeps b (transitEgress a1 a2 a3 a4 s).2 := by
  unfold transitEgress
  repeat' (first | with_reducible assumption | exact castlePpm_le | (show PortOk _; assumption) | (show ChanOk _; assumption) | (intro k hk; first | exact hk | (refine ⟨?_, ?_, ?_⟩ <;> (simp [hk.1, hk.2.1, hk.2.2]; done)) | (refine ⟨?_, ?_⟩ <;> (simp [hk.1, hk.2]; done)) | (dsimp only; split <;> first | exact hk | (refine ⟨?_, ?_, ?_⟩ <;> (simp [hk.1, hk.2.1, hk.2.2]; done)) | (refine ⟨?_, ?_⟩ <;> (simp [hk.1, hk.2]; done)))) | with_reducible apply Keeps_ite | with_reducible apply Keeps_ite_snd | with_reducible apply keepResid_keeps | with_reducible apply queueOwn_keeps | with_reducible refine Keeps_ports ?_ (upd_length _ _ _) (all_upd ?_) | with_reducible refine Keeps_chans ?_ (upd_length _ _ _) (all_upd ?_) | (simp only [Keeps_mk, upd_length, List.length_map, addTime_cmps, addTime_caps, addTime_ppso]; (first | exact Keeps_fold (by with_reducible assumption) | apply Keeps_fold | refine Keeps_units ?_ (all_map ?_) (all_map ?_) | refine Keeps_units ?_ (all_map ?_) id | refine Keeps_units ?_ id (all_map ?_) | refine Keeps_free ?_ (Nat.le_add_right _ _) | refine Keeps_sizes ?_ (fun z => by simp only [sizes, shape, List.cons.injEq] at z ⊢; (first | (simp [z]; done) | (simp [z]; split <;> simp [z]))))) | dsimp only | intro _ | split)

theorem execTxtsPeekRead_goes {b s : State} (h : Keeps b s) {a1} : Goes b (execTxtsPeekRead a1 s) := by
  unfold execTxtsPeekRead
  repeat' (first | with_reducible assumption | exact castlePpm_le | (show PortOk _; assumption) | (show ChanOk _; assumption) | (intro k hk; first | exact hk | (refine ⟨?_, ?_, ?_⟩ <;> (simp [hk.1, hk.2.1, hk.2.2]; done)) | (refine ⟨?_, ?_⟩ <;> (simp [hk.1, hk.2]; done)) | (dsimp only; split <;> first | exact hk | (refine ⟨?_, ?_, ?_⟩ <;> (simp [hk.1, hk.2.1, hk.2.2]; done)) | (refine ⟨?_, ?_⟩ <;> (simp [hk.1, hk.2]; done)))) | with_reducible apply Goes_next | with_reducible apply Goes_ite | with_reducible apply Keeps_ite | with_reducible apply Keeps_ite_snd | with_reducible apply ifCore_keeps | with_reducible apply txtsRead_keeps | with_reducible refine Keeps_ports ?_ (upd_length _ _ _) (all_upd ?_) | with_reducible refine Keeps_chans ?_ (upd_length _ _ _) (all_upd ?_) | (simp only [Keeps_mk, upd_length, List.length_map, addTime_cmps, addTime_caps, addTime_ppso]; (first | exact Keeps_fold (by with_reducible assumption) | apply Keeps_fold | refine Keeps_units ?_ (all_map ?_) (all_map ?_) | refine Keeps_units ?_ (all_map ?_) id | refine Keeps_units ?_ id (all_map ?_) | refine Keeps_free ?_ (Nat.le_add_right _ _) | refine Keeps_sizes ?_ (fun z => by simp only [sizes, shape, List.cons.injEq] at z ⊢; (first | (simp [z]; done) | (simp [z]; split <;> simp [z]))))) | dsimp only | intro _ | split)

theorem ptpStop_keeps {b s : State} (h : Keeps b s) : Keeps b (ptpStop s) := by
  unfold ptpStop
  repeat' (first | with_reducible assumption | exact castlePpm_le | (show PortOk _; assumption) | (show ChanOk _; assumption) | (intro k hk; first | exact hk | (refine ⟨?_, ?_, ?_⟩ <;> (simp [hk.1, hk.2.1, hk.2.2]; done)) | (refine ⟨?_, ?_⟩ <;> (simp [hk.1, hk.2]; done)) | (dsimp only; split <;> first | exact hk | (refine ⟨?_, ?_, ?_⟩ <;> (simp [hk.1, hk.2.1, hk.2.2]; done)) | (refine ⟨?_, ?_⟩ <;> (simp [hk.1, hk.2]; done)))) | with_reducible apply Keeps_ite | with_reducible apply Keeps_ite_snd | with_reducible apply enterHoldover_keeps | with_reducible refine Keeps_ports ?_ (upd_length _ _ _) (all_upd ?_) | with_reducible refine Keeps_chans ?_ (upd_length _ _ _) (all_upd ?_) | (simp only [Keeps_mk, upd_length, List.length_map, addTime_cmps, addTime_caps, addTime_ppso]; (first | exact Keeps_fold (by with_reducible assumption) | apply Keeps_fold | refine Keeps_units ?_ (all_map ?_) (all_map ?_) | refine Keeps_units ?_ (all_map ?_) id | refine Keeps_units ?_ id (all_map ?_) | refine Keeps_free ?_ (Nat.le_add_right _ _) | refine Keeps_sizes ?_ (fun z => by simp only [sizes, shape, List.cons.injEq] at z ⊢; (first | (simp [z]; done) | (simp [z]; split <;> simp [z]))))) | dsimp only | intro _ | split)

theorem answerPdelay_keeps {b s : State} (h : Keeps b s) {a1 a2 a3 a4} : Keeps b (answerPdelay a1 a2 a3 a4 s) := by
  unfold answerPdelay
  repeat' (first | with_reducible assumption | exact castlePpm_le | (show PortOk _; assumption) | (show ChanOk _; assumption) | (intro k hk; first | exact hk | (refine ⟨?_, ?_, ?_⟩ <;> (simp [hk.1, hk.2.1, hk.2.2]; done)) | (refine ⟨?_, ?_⟩ <;> (simp [hk.1, hk.2]; done)) | (dsimp only; split <;> first | exact hk | (refine ⟨?_, ?_, ?_⟩ <;> (simp [hk.1, hk.2.1, hk.2.2]; done)) | (refine ⟨?_, ?_⟩ <;> (simp [hk.1, hk.2]; done)))) | with_reducible apply Keeps_ite | with_reducible apply Keeps_ite_snd | with_reducible apply queueOwn_keeps | with_reducible refine Keeps_ports ?_ (upd_length _ _ _) (all_upd ?_) | with_reducible refine Keeps_chans ?_ (upd_length _ _ _) (all_upd ?_) | (simp only [Keeps_mk, upd_length, List.length_map, addTime_cmps, addTime_caps, addTime_ppso]; (first | exact Keeps_fold (by with_reducible assumption) | apply Keeps_fold | refine Keeps_units ?_ (all_map ?_) (all_map ?_) | refine Keeps_units ?_ (all_map ?_) id | refine Keeps_units ?_ id (all_map ?_) | refine Keeps_free ?_ (Nat.le_add_right _ _) | refine Keeps_sizes ?_ (fun z => by simp only [sizes, shape, List.cons.injEq] at z ⊢; (first | (simp [z]; done) | (simp [z]; split <;> simp [z]))))) | dsimp only | intro _ | split)

theorem pdelayTimeout_keeps {b s : State} (h : Keeps b s) {a1 a2} : Keeps b (pdelayTimeout a1 a2 s) := by
  unfold pdelayTimeout
  repeat' (first | with_reducible assumption | exact castlePpm_le | (show PortOk _; assumption) | (show ChanOk _; assumption) | (intro k hk; first | exact hk | (refine ⟨?_, ?_, ?_⟩ <;> (simp [hk.1, hk.2.1, hk.2.2]; done)) | (refine ⟨?_, ?_⟩ <;> (simp [hk.1, hk.2]; done)) | (dsimp only; split <;> first | exact hk | (refine ⟨?_, ?_, ?_⟩ <;> (simp [hk.1, hk.2.1, hk.2.2]; done)) | (refine ⟨?_, ?_⟩ <;> (simp [hk.1, hk.2]; done)))) | with_reducible apply Keeps_ite | with_reducible apply Keeps_ite_snd | with_reducible apply updPort_keeps | with_reducible apply updPortDom_keeps | with_reducible apply runBmca_keeps | with_reducible refine Keeps_ports ?_ (upd_length _ _ _) (all_upd ?_) | with_reducible refine Keeps_chans ?_ (upd_length _ _ _) (all_upd ?_) | (simp only [Keeps_mk, upd_length, List.length_map, addTime_cmps, addTime_caps, addTime_ppso]; (first | exact Keeps_fold (by with_reducible assumption) | apply Keeps_fold | refine Keeps_units ?_ (all_map ?_) (all_map ?_) | refine Keeps_units ?_ (all_map ?_) id | refine Keeps_units ?_ id (all_map ?_) | refine Keeps_free ?_ (Nat.le_add_right _ _) | refine Keeps_sizes ?_ (fun z => by simp only [sizes, shape, List.cons.injEq] at z ⊢; (first | (simp [z]; done) | (simp [z]; split <;> simp [z]))))) | dsimp only | intro _ | split)

theorem sendPdelay_keeps {b s : State} (h : Keeps b s) {a1 a2} : Keeps b (sendPdelay a1 a2 s) := by
  unfold sendPdelay
  repeat' (first | with_reducible assumption | exact castlePpm_le | (show PortOk _; assumption) | (show ChanOk _; assumption) | (intro k hk; first | exact hk | (refine ⟨?_, ?_, ?_⟩ <;> (simp [hk.1, hk.2.1, hk.2.2]; done)) | (refine ⟨?_, ?_⟩ <;> (simp [hk.1, hk.2]; done)) | (dsimp only; split <;> first | exact hk | (refine ⟨?_, ?_, ?_⟩ <;> (simp [hk.1, hk.2.1, hk.2.2]; done)) | (refine ⟨?_, ?_⟩ <;> (simp [hk.1, hk.2]; done)))) | with_reducible apply Keeps_ite | with_reducible apply Keeps_ite_snd | with_reducible apply queueOwn_keeps | with_reducible apply updPortDom_keeps | with_reducible refine Keeps_ports ?_ (upd_length _ _ _) (all_upd ?_) | with_reducible refine Keeps_chans ?_ (upd_length _ _ _) (all_upd ?_) | (simp only [Keeps_mk, upd_length, List.length_map, addTime_cmps, addTime_caps, addTime_ppso]; (first | exact Keeps_fold (by with_reducible assumption) | apply Keeps_fold | refine Keeps_units ?_ (all_map ?_) (all_map ?_) | refine Keeps_units ?_ (all_map ?_) id | refine Keeps_units ?_ id (all_map ?_) | refine Keeps_free ?_ (Nat.le_add_right _ _) | refine Keeps_sizes ?_ (fun z => by simp only [sizes, shape, List.cons.injEq] at z ⊢; (first | (simp [z]; done) | (simp [z]; split <;> simp [z]))))) | dsimp only | intro _ | split)

theorem execPdelayReqTx_goes {b s : State} (h : Keeps b s) {a1} : Goes b (execPdelayReqTx a1 s) := by
  unfold execPdelayReqTx
  repeat' (first | with_reducible assumption | exact castlePpm_le | (show PortOk _; assumption) | (show ChanOk _; assumption) | (intro k hk; first | exact hk | (refine ⟨?_, ?_, ?_⟩ <;> (simp [hk.1, hk.2.1, hk.2.2]; done)) | (refine ⟨?_, ?_⟩ <;> (simp [hk.1, hk.2]; done)) | (dsimp only; split <;> first | exact hk | (refine ⟨?_, ?_, ?_⟩ <;> (simp [hk.1, hk.2.1, hk.2.2]; done)) | (refine ⟨?_, ?_⟩ <;> (simp [hk.1, hk.2]; done)))) | with_reducible apply Goes_next | with_reducible apply Goes_ite | with_reducible apply Keeps_ite | with_reducible apply Keeps_ite_snd | with_reducible apply sendPdelay_keeps | with_reducible refine Keeps_ports ?_ (upd_length _ _ _) (all_upd ?_) | with_reducible refine Keeps_chans ?_ (upd_length _ _ _) (all_upd ?_) | (simp only [Keeps_mk, upd_length, List.length_map, addTime_cmps, addTime_caps, addTime_ppso]; (first | exact Keeps_fold (by with_reducible assumption) | apply Keeps_fold | refine Keeps_units ?_ (all_map ?_) (all_map ?_) | refine Keeps_units ?_ (all_map ?_) id | refine Keeps_units ?_ id (all_map ?_) | refine Keeps_free ?_ (Nat.le_add_right _ _) | refine Keeps_sizes ?_ (fun z => by simp only [sizes, shape, List.cons.injEq] at z ⊢; (first | (simp [z]; done) | (simp [z]; split <;> simp [z]))))) | dsimp only | intro _ | split)

theorem followRx_keeps {b s : State} (h : Keeps b s) {a1 a2 a3} : Keeps b (followRx a1 a2 a3 s) := by
  unfold followRx
  repeat' (first | with_reducible assumption | exact castlePpm_le | (show PortOk _; assumption) | (show ChanOk _; assumption) | (intro k hk; first | exact hk | (refine ⟨?_, ?_, ?_⟩ <;> (simp [hk.1, hk.2.1, hk.2.2]; done)) | (refine ⟨?_, ?_⟩ <;> (simp [hk.1, hk.2]; done)) | (dsimp only; split <;> first | exact hk | (refine ⟨?_, ?_, ?_⟩ <;> (simp [hk.1, hk.2.1, hk.2.2]; done)) | (refine ⟨?_, ?_⟩ <;> (simp [hk.1, hk.2]; done)))) | with_reducible apply Keeps_ite | with_reducible apply Keeps_ite_snd | with_reducible apply acceptSync_keeps | with_reducible apply updPortDom_keeps | with_reducible refine Keeps_ports ?_ (upd_length _ _ _) (all_upd ?_) | with_reducible refine Keeps_chans ?_ (upd_length _ _ _) (all_upd ?_) | (simp only [Keeps_mk, upd_length, List.length_map, addTime_cmps, addTime_caps, addTime_ppso]; (first | exact Keeps_fold (by with_reducible assumption) | apply Keeps_fold | refine Keeps_units ?_ (all_map ?_) (all_map ?_) | refine Keeps_units ?_ (all_map ?_) id | refine Keeps_units ?_ id (all_map ?_) | refine Keeps_free ?_ (Nat.le_add_right _ _) | refine Keeps_sizes ?_ (fun z => by simp only [sizes, shape, List.cons.injEq] at z ⊢; (first | (simp [z]; done) | (simp [z]; split <;> simp [z]))))) | dsimp only | intro _ | split)

theorem ptpRestart_keeps {b s : State} (h : Keeps b s) : Keeps b (ptpRestart s) := by
  unfold ptpRestart
  repeat' (first | with_reducible assumption | exact castlePpm_le | (show PortOk _; assumption) | (show ChanOk _; assumption) | (intro k hk; first | exact hk | (refine ⟨?_, ?_, ?_⟩ <;> (simp [hk.1, hk.2.1, hk.2.2]; done)) | (refine ⟨?_, ?_⟩ <;> (simp [hk.1, hk.2]; done)) | (dsimp only; split <;> first | exact hk | (refine ⟨?_, ?_, ?_⟩ <;> (simp [hk.1, hk.2.1, hk.2.2]; done)) | (refine ⟨?_, ?_⟩ <;> (simp [hk.1, hk.2]; done)))) | with_reducible apply Keeps_ite | with_reducible apply Keeps_ite_snd | with_reducible refine Keeps_ports ?_ (upd_length _ _ _) (all_upd ?_) | with_reducible refine Keeps_chans ?_ (upd_length _ _ _) (all_upd ?_) | (simp only [Keeps_mk, upd_length, List.length_map, addTime_cmps, addTime_caps, addTime_ppso]; (first | exact Keeps_fold (by with_reducible assumption) | apply Keeps_fold | refine Keeps_units ?_ (all_map ?_) (all_map ?_) | refine Keeps_units ?_ (all_map ?_) id | refine Keeps_units ?_ id (all_map ?_) | refine Keeps_free ?_ (Nat.le_add_right _ _) | refine Keeps_sizes ?_ (fun z => by simp only [sizes, shape, List.cons.injEq] at z ⊢; (first | (simp [z]; done) | (simp [z]; split <;> simp [z]))))) | dsimp only | intro _ | split)

theorem announceRx_keeps {b s : State} (h : Keeps b s) {a1 a2 a3} : Keeps b (announceRx a1 a2 a3 s) := by
  unfold announceRx
  repeat' (first | with_reducible assumption | exact castlePpm_le | (show PortOk _; assumption) | (show ChanOk _; assumption) | (intro k hk; first | exact hk | (refine ⟨?_, ?_, ?_⟩ <;> (simp [hk.1, hk.2.1, hk.2.2]; done)) | (refine ⟨?_, ?_⟩ <;> (simp [hk.1, hk.2]; done)) | (dsimp only; split <;> first | exact hk | (refine ⟨?_, ?_, ?_⟩ <;> (simp [hk.1, hk.2.1, hk.2.2]; done)) | (refine ⟨?_, ?_⟩ <;> (simp [hk.1, hk.2]; done)))) | with_reducible apply Keeps_ite | with_reducible apply Keeps_ite_snd | with_reducible apply updPortDom_keeps | with_reducible apply updDom_keeps | with_reducible apply runBmca_keeps | with_reducible refine Keeps_ports ?_ (upd_length _ _ _) (all_upd ?_) | with_reducible refine Keeps_chans ?_ (upd_length _ _ _) (all_upd ?_) | (simp only [Keeps_mk, upd_length, List.length_map, addTime_cmps, addTime_caps, addTime_ppso]; (first | exact Keeps_fold (by with_reducible assumption) | apply Keeps_fold | refine Keeps_units ?_ (all_map ?_) (all_map ?_) | refine Keeps_units ?_ (all_map ?_) id | refine Keeps_units ?_ id (all_map ?_) | refine Keeps_free ?_ (Nat.le_add_right _ _) | refine Keeps_sizes ?_ (fun z => by simp only [sizes, shape, List.cons.injEq] at z ⊢; (first | (simp [z]; done) | (simp [z]; split <;> simp [z]))))) | dsimp only | intro _ | split)

theorem syncRx_keeps {b s : State} (h : Keeps b s) {a1 a2 a3 a4} : Keeps b (syncRx a1 a2 a3 a4 s) := by
  unfold syncRx
  repeat' (first | with_reducible assumption | exact castlePpm_le | (show PortOk _; assumption) | (show ChanOk _; assumption) | (intro k hk; first | exact hk | (refine ⟨?_, ?_, ?_⟩ <;> (simp [hk.1, hk.2.1, hk.2.2]; done)) | (refine ⟨?_, ?_⟩ <;> (simp [hk.1, hk.2]; done)) | (dsimp only; split <;> first | exact hk | (refine ⟨?_, ?_, ?_⟩ <;> (simp [hk.1, hk.2.1, hk.2.2]; done)) | (refine ⟨?_, ?_⟩ <;> (simp [hk.1, hk.2]; done)))) | with_reducible apply Keeps_ite | with_reducible apply Keeps_ite_snd | with_reducible apply updPortDom_keeps | with_reducible apply acceptSync_keeps | with_reducible refine Keeps_ports ?_ (upd_length _ _ _) (all_upd ?_) | with_reducible refine Keeps_chans ?_ (upd_length _ _ _) (all_upd ?_) | (simp only [Keeps_mk, upd_length, List.length_map, addTime_cmps, addTime_caps, addTime_ppso]; (first | exact Keeps_fold (by with_reducible assumption) | apply Keeps_fold | refine Keeps_units ?_ (all_map ?_) (all_map ?_) | refine Keeps_units ?_ (all_map ?_) id | refine Keeps_units ?_ id (all_map ?_) | refine Keeps_free ?_ (Nat.le_add_right _ _) | refine Keeps_sizes ?_ (fun z => by simp only [sizes, shape, List.cons.injEq] at z ⊢; (first | (simp [z]; done) | (simp [z]; split <;> simp [z]))))) | dsimp only | intro _ | split)

theorem pdelayResp_keeps {b s : State} (h : Keeps b s) {a1 a2 a3 a4} : Keeps b (pdelayResp a1 a2 a3 a4 s) := by
  unfold pdelayResp
  repeat' (first | with_reducible assumption | exact castlePpm_le | (show PortOk _; assumption) | (show ChanOk _; assumption) | (intro k hk; first | exact hk | (refine ⟨?_, ?_, ?_⟩ <;> (simp [hk.1, hk.2.1, hk.2.2]; done)) | (refine ⟨?_, ?_⟩ <;> (simp [hk.1, hk.2]; done)) | (dsimp only; split <;> first | exact hk | (refine ⟨?_, ?_, ?_⟩ <;> (simp [hk.1, hk.2.1, hk.2.2]; done)) | (refine ⟨?_, ?_⟩ <;> (simp [hk.1, hk.2]; done)))) | with_reducible apply Keeps_ite | with_reducible apply Keeps_ite_snd | with_reducible apply updPortDom_keeps | with_reducible apply finishPdelay_keeps | with_reducible refine Keeps_ports ?_ (upd_length _ _ _) (all_upd ?_) | with_reducible refine Keeps_chans ?_ (upd_length _ _ _) (all_upd ?_) | (simp only [Keeps_mk, upd_length, List.length_map, addTime_cmps, addTime_caps, addTime_ppso]; (first | exact Keeps_fold (by with_reducible assumption) | apply Keeps_fold | refine Keeps_units ?_ (all_map ?_) (all_map ?_) | refine Keeps_units ?_ (all_map ?_) id | refine Keeps_units ?_ id (all_map ?_) | refine Keeps_free ?_ (Nat.le_add_right _ _) | refine Keeps_sizes ?_ (fun z => by simp only [sizes, shape, List.cons.injEq] at z ⊢; (first | (simp [z]; done) | (simp [z]; split <;> simp [z]))))) | dsimp only | intro _ | split)

theorem ptpRx_keeps {b s : State} (h : Keeps b s) {a1 a2 a3 a4} : Keeps b (ptpRx a1 a2 a3 a4 s) := by
  unfold ptpRx
  repeat' (first | with_reducible assumption | exact castlePpm_le | (show PortOk _; assumption) | (show ChanOk _; assumption) | (intro k hk; first | exact hk | (refine ⟨?_, ?_, ?_⟩ <;> (simp [hk.1, hk.2.1, hk.2.2]; done)) | (refine ⟨?_, ?_⟩ <;> (simp [hk.1, hk.2]; done)) | (dsimp only; split <;> first | exact hk | (refine ⟨?_, ?_, ?_⟩ <;> (simp [hk.1, hk.2.1, hk.2.2]; done)) | (refine ⟨?_, ?_⟩ <;> (simp [hk.1, hk.2]; done)))) | with_reducible apply Keeps_ite | with_reducible apply Keeps_ite_snd | with_reducible apply updDom_keeps | with_reducible apply syncRx_keeps | with_reducible apply followRx_keeps | with_reducible apply announceRx_keeps | with_reducible apply answerPdelay_keeps | with_reducible apply pdelayResp_keeps | with_reducible apply pdelayRespFu_keeps | with_reducible refine Keeps_ports ?_ (upd_length _ _ _) (all_upd ?_) | with_reducible refine Keeps_chans ?_ (upd_length _ _ _) (all_upd ?_) | (simp only [Keeps_mk, upd_length, List.length_map, addTime_cmps, addTime_caps, addTime_ppso]; (first | exact Keeps_fold (by with_reducible assumption) | apply Keeps_fold | refine Keeps_units ?_ (all_map ?_) (all_map ?_) | refine Keeps_units ?_ (all_map ?_) id | refine Keeps_units ?_ id (all_map ?_) | refine Keeps_free ?_ (Nat.le_add_right _ _) | refine Keeps_sizes ?_ (fun z => by simp only [sizes, shape, List.cons.injEq] at z ⊢; (first | (simp [z]; done) | (simp [z]; split <;> simp [z]))))) | dsimp only | intro _ | split)

theorem loadPtp_keeps {b s : State} (h : Keeps b s) {a1} : Keeps b (loadPtp a1 s) := by
  unfold loadPtp
  repeat' (first | with_reducible assumption | exact castlePpm_le | (show PortOk _; assumption) | (show ChanOk _; assumption) | (intro k hk; first | exact hk | (refine ⟨?_, ?_, ?_⟩ <;> (simp [hk.1, hk.2.1, hk.2.2]; done)) | (refine ⟨?_, ?_⟩ <;> (simp [hk.1, hk.2]; done)) | (dsimp only; split <;> first | exact hk | (refine ⟨?_, ?_, ?_⟩ <;> (simp [hk.1, hk.2.1, hk.2.2]; done)) | (refine ⟨?_, ?_⟩ <;> (simp [hk.1, hk.2]; done)))) | with_reducible apply Keeps_ite | with_reducible apply Keeps_ite_snd | with_reducible apply ptpOff_keeps | with_reducible refine Keeps_ports ?_ (upd_length _ _ _) (all_upd ?_) | with_reducible refine Keeps_chans ?_ (upd_length _ _ _) (all_upd ?_) | (simp only [Keeps_mk, upd_length, List.length_map, addTime_cmps, addTime_caps, addTime_ppso]; (first | exact Keeps_fold (by with_reducible assumption) | apply Keeps_fold | refine Keeps_units ?_ (all_map ?_) (all_map ?_) | refine Keeps_units ?_ (all_map ?_) id | refine Keeps_units ?_ id (all_map ?_) | refine Keeps_free ?_ (Nat.le_add_right _ _) | refine Keeps_sizes ?_ (fun z => by simp only [sizes, shape, List.cons.injEq] at z ⊢; (first | (simp [z]; done) | (simp [z]; split <;> simp [z]))))) | dsimp only | intro _ | split)

theorem execPdelayTimeout_goes {b s : State} (h : Keeps b s) {a1 a2} : Goes b (execPdelayTimeout a1 a2 s) := by
  unfold execPdelayTimeout
  repeat' (first | with_reducible assumption | exact castlePpm_le | (show PortOk _; assumption) | (show ChanOk _; assumption) | (intro k hk; first | exact hk | (refine ⟨?_, ?_, ?_⟩ <;> (simp [hk.1, hk.2.1, hk.2.2]; done)) | (refine ⟨?_, ?_⟩ <;> (simp [hk.1, hk.2]; done)) | (dsimp only; split <;> first | exact hk | (refine ⟨?_, ?_, ?_⟩ <;> (simp [hk.1, hk.2.1, hk.2.2]; done)) | (refine ⟨?_, ?_⟩ <;> (simp [hk.1, hk.2]; done)))) | with_reducible apply Goes_next | with_reducible apply Goes_ite | with_reducible apply Keeps_ite | with_reducible apply Keeps_ite_snd | with_reducible apply pdelayTimeout_keeps | with_reducible refine Keeps_ports ?_ (upd_length _ _ _) (all_upd ?_) | with_reducible refine Keeps_chans ?_ (upd_length _ _ _) (all_upd ?_) | (simp only [Keeps_mk, upd_length, List.length_map, addTime_cmps, addTime_caps, addTime_ppso]; (first | exact Keeps_fold (by with_reducible assumption) | apply Keeps_fold | refine Keeps_units ?_ (all_map ?_) (all_map ?_) | refine Keeps_units ?_ (all_map ?_) id | refine Keeps_units ?_ id (all_map ?_) | refine Keeps_free ?_ (Nat.le_add_right _ _) | refine Keeps_sizes ?_ (fun z => by simp only [sizes, shape, List.cons.injEq] at z ⊢; (first | (simp [z]; done) | (simp [z]; split <;> simp [z]))))) | dsimp only | intro _ | split)

theorem ptpPortBack_keeps {b s : State} (h : Keeps b s) {a1} : Keeps b (ptpPortBack a1 s) := by
  unfold ptpPortBack
  repeat' (first | with_reducible assumption | exact castlePpm_le | (show PortOk _; assumption) | (show ChanOk _; assumption) | (intro k hk; first | exact hk | (refine ⟨?_, ?_, ?_⟩ <;> (simp [hk.1, hk.2.1, hk.2.2]; done)) | (refine ⟨?_, ?_⟩ <;> (simp [hk.1, hk.2]; done)) | (dsimp only; split <;> first | exact hk | (refine ⟨?_, ?_, ?_⟩ <;> (simp [hk.1, hk.2.1, hk.2.2]; done)) | (refine ⟨?_, ?_⟩ <;> (simp [hk.1, hk.2]; done)))) | with_reducible apply Keeps_ite | with_reducible apply Keeps_ite_snd | with_reducible apply updPort_keeps | with_reducible refine Keeps_ports ?_ (upd_length _ _ _) (all_upd ?_) | with_reducible refine Keeps_chans ?_ (upd_length _ _ _) (all_upd ?_) | (simp only [Keeps_mk, upd_length, List.length_map, addTime_cmps, addTime_caps, addTime_ppso]; (first | exact Keeps_fold (by with_reducible assumption) | apply Keeps_fold | refine Keeps_units ?_ (all_map ?_) (all_map ?_) | refine Keeps_units ?_ (all_map ?_) id | refine Keeps_units ?_ id (all_map ?_) | refine Keeps_free ?_ (Nat.le_add_right _ _) | refine Keeps_sizes ?_ (fun z => by simp only [sizes, shape, List.cons.injEq] at z ⊢; (first | (simp [z]; done) | (simp [z]; split <;> simp [z]))))) | dsimp only | intro _ | split)

theorem ptpPortDown_keeps {b s : State} (h : Keeps b s) {a1} : Keeps b (ptpPortDown a1 s) := by
  unfold ptpPortDown
  repeat' (first | with_reducible assumption | exact castlePpm_le | (show PortOk _; assumption) | (show ChanOk _; assumption) | (intro k hk; first | exact hk | (refine ⟨?_, ?_, ?_⟩ <;> (simp [hk.1, hk.2.1, hk.2.2]; done)) | (refine ⟨?_, ?_⟩ <;> (simp [hk.1, hk.2]; done)) | (dsimp only; split <;> first | exact hk | (refine ⟨?_, ?_, ?_⟩ <;> (simp [hk.1, hk.2.1, hk.2.2]; done)) | (refine ⟨?_, ?_⟩ <;> (simp [hk.1, hk.2]; done)))) | with_reducible apply Keeps_ite | with_reducible apply Keeps_ite_snd | with_reducible apply updPort_keeps | with_reducible apply runBmca_keeps | with_reducible refine Keeps_ports ?_ (upd_length _ _ _) (all_upd ?_) | with_reducible refine Keeps_chans ?_ (upd_length _ _ _) (all_upd ?_) | (simp only [Keeps_mk, upd_length, List.length_map, addTime_cmps, addTime_caps, addTime_ppso]; (first | exact Keeps_fold (by with_reducible assumption) | apply Keeps_fold | refine Keeps_units ?_ (all_map ?_) (all_map ?_) | refine Keeps_units ?_ (all_map ?_) id | refine Keeps_units ?_ id (all_map ?_) | refine Keeps_free ?_ (Nat.le_add_right _ _) | refine Keeps_sizes ?_ (fun z => by simp only [sizes, shape, List.cons.injEq] at z ⊢; (first | (simp [z]; done) | (simp [z]; split <;> simp [z]))))) | dsimp only | intro _ | split)

theorem ownPtpEgress_keeps {b s : State} (h : Keeps b s) {a1 a2 a3 a4} : Keeps b (ownPtpEgress a1 a2 a3 a4 s).2 := by
  unfold ownPtpEgress
  repeat' (first | with_reducible assumption | exact castlePpm_le | (show PortOk _; assumption) | (show ChanOk _; assumption) | (intro k hk; first | exact hk | (refine ⟨?_, ?_, ?_⟩ <;> (simp [hk.1, hk.2.1, hk.2.2]; done)) | (refine ⟨?_, ?_⟩ <;> (simp [hk.1, hk.2]; done)) | (dsimp only; split <;> first | exact hk | (refine ⟨?_, ?_, ?_⟩ <;> (simp [hk.1, hk.2.1, hk.2.2]; done)) | (refine ⟨?_, ?_⟩ <;> (simp [hk.1, hk.2]; done)))) | with_reducible apply Keeps_ite | with_reducible apply Keeps_ite_snd | with_reducible apply queueOwn_keeps | with_reducible apply updPortDom_keeps | with_reducible refine Keeps_ports ?_ (upd_length _ _ _) (all_upd ?_) | with_reducible refine Keeps_chans ?_ (upd_length _ _ _) (all_upd ?_) | (simp only [Keeps_mk, upd_length, List.length_map, addTime_cmps, addTime_caps, addTime_ppso]; (first | exact Keeps_fold (by with_reducible assumption) | apply Keeps_fold | refine Keeps_units ?_ (all_map ?_) (all_map ?_) | refine Keeps_units ?_ (all_map ?_) id | refine Keeps_units ?_ id (all_map ?_) | refine Keeps_free ?_ (Nat.le_add_right _ _) | refine Keeps_sizes ?_ (fun z => by simp only [sizes, shape, List.cons.injEq] at z ⊢; (first | (simp [z]; done) | (simp [z]; split <;> simp [z]))))) | dsimp only | intro _ | split)

theorem ptpEgress_keeps {b s : State} (h : Keeps b s) {a1 a2 a3} : Keeps b (ptpEgress a1 a2 a3 s).2 := by
  unfold ptpEgress
  repeat' (first | with_reducible assumption | exact castlePpm_le | (show PortOk _; assumption) | (show ChanOk _; assumption) | (intro k hk; first | exact hk | (refine ⟨?_, ?_, ?_⟩ <;> (simp [hk.1, hk.2.1, hk.2.2]; done)) | (refine ⟨?_, ?_⟩ <;> (simp [hk.1, hk.2]; done)) | (dsimp only; split <;> first | exact hk | (refine ⟨?_, ?_, ?_⟩ <;> (simp [hk.1, hk.2.1, hk.2.2]; done)) | (refine ⟨?_, ?_⟩ <;> (simp [hk.1, hk.2]; done)))) | with_reducible apply Keeps_ite | with_reducible apply Keeps_ite_snd | with_reducible apply ownPtpEgress_keeps | with_reducible apply transitEgress_keeps | with_reducible refine Keeps_ports ?_ (upd_length _ _ _) (all_upd ?_) | with_reducible refine Keeps_chans ?_ (upd_length _ _ _) (all_upd ?_) | (simp only [Keeps_mk, upd_length, List.length_map, addTime_cmps, addTime_caps, addTime_ppso]; (first | exact Keeps_fold (by with_reducible assumption) | apply Keeps_fold | refine Keeps_units ?_ (all_map ?_) (all_map ?_) | refine Keeps_units ?_ (all_map ?_) id | refine Keeps_units ?_ id (all_map ?_) | refine Keeps_free ?_ (Nat.le_add_right _ _) | refine Keeps_sizes ?_ (fun z => by simp only [sizes, shape, List.cons.injEq] at z ⊢; (first | (simp [z]; done) | (simp [z]; split <;> simp [z]))))) | dsimp only | intro _ | split)

end Sys2Proof.Laws
end

