-- ==== Sys2Proof/Laws/KeepsOtp.lean ====
section
/-!
SUPPORT. The operations of Machine/Otp.lean keep what Laws/Keeps.lean lists.
-/

namespace Sys2Proof.Laws

open Sys2Proof.Machine Sys2Proof.Safety

set_option linter.all false

theorem setUnit_counted {s : State} {u x : Nat} {k : OtpUnit} (hc : Counted u s → k.st = .committed ∨ k.st = .locked)
    (hx : Counted x s) : (nth .blank (upd (fun _ => k) s.sec.otp u) x).st = .committed ∨
      (nth .blank (upd (fun _ => k) s.sec.otp u) x).st = .locked := by
  by_cases e : u = x
  · subst e
    rcases nth_upd_or .blank (fun _ => k) s.sec.otp u u with e | e
    · rw [e]
      exact otpEffective_iff.1 hx.1
    · rw [e]
      exact hc hx
  · rw [nth_upd_other _ _ _ e]
    exact otpEffective_iff.1 hx.1

/-- A unit takes a state that does not count. -/
theorem setUnit_keeps {b s : State} (h : Keeps b s) {u : Nat} {k : OtpUnit} (hu : ∀ x, Sealed x s → x ≠ u)
    (hc : ¬ Counted u s) (hk : k.st ≠ .committed ∧ k.st ≠ .locked) : Keeps b (setUnit u k s) := by
  simp only [setUnit, Keeps_mk, upd_length]
  refine Keeps_otp h (fun x hx => ⟨nth_upd_other _ _ _ (Ne.symm (hu x hx)), hx.2⟩)
    (fun x hx => ⟨setUnit_counted (fun z => absurd z hc) hx, hx.2⟩) (fun f r hr => ?_)
  refine (f r hr).imp id (fun e => ?_)
  rcases nth_upd_or .blank (fun _ => k) s.sec.otp u r.unitAddr with z | z
  · rw [z]
    exact otpEffective_not.1 e
  · rw [z]
    exact hk

/-- A unit takes a state, and the running command ends. -/
theorem setDone_keeps {b s : State} (h : Keeps b s) {u : Nat} {k : OtpUnit} (hu : ∀ x, Sealed x s → x ≠ u)
    (hc : Counted u s → k.st = .committed ∨ k.st = .locked) :
    Keeps b { setUnit u k s with sec := { (setUnit u k s).sec with run := none } } := by
  simp only [setUnit, Keeps_mk, upd_length]
  exact Keeps_otp h (fun x hx => ⟨nth_upd_other _ _ _ (Ne.symm (hu x hx)), fun _ e => by cases e⟩)
    (fun x hx => ⟨setUnit_counted hc hx, fun _ e => by cases e⟩) (fun _ _ e => by cases e)

theorem scarUnit_keeps {b s : State} (h : Keeps b s) {u : Nat} (hu : ∀ x, Sealed x s → x ≠ u) (hc : ¬ Counted u s) :
    Keeps b (scarUnit u s) := raise_keeps (setUnit_keeps h hu hc (by decide))

theorem secResult_keeps {b s : State} (h : Keeps b s) {a1} : Keeps b (secResult a1 s) := by
  unfold secResult
  repeat' (first | with_reducible assumption | exact castlePpm_le | (show PortOk _; assumption) | (show ChanOk _; assumption) | (intro k hk; first | exact hk | (refine ⟨?_, ?_, ?_⟩ <;> (simp [hk.1, hk.2.1, hk.2.2]; done)) | (refine ⟨?_, ?_⟩ <;> (simp [hk.1, hk.2]; done)) | (dsimp only; split <;> first | exact hk | (refine ⟨?_, ?_, ?_⟩ <;> (simp [hk.1, hk.2.1, hk.2.2]; done)) | (refine ⟨?_, ?_⟩ <;> (simp [hk.1, hk.2]; done)))) | with_reducible apply Keeps_ite | with_reducible apply Keeps_ite_snd | with_reducible refine Keeps_ports ?_ (upd_length _ _ _) (all_upd ?_) | with_reducible refine Keeps_chans ?_ (upd_length _ _ _) (all_upd ?_) | (simp only [Keeps_mk, upd_length, List.length_map, addTime_cmps, addTime_caps, addTime_ppso]; (first | exact Keeps_fold (by with_reducible assumption) | apply Keeps_fold | refine Keeps_units ?_ (all_map ?_) (all_map ?_) | refine Keeps_units ?_ (all_map ?_) id | refine Keeps_units ?_ id (all_map ?_) | refine Keeps_free ?_ (Nat.le_add_right _ _) | refine Keeps_sizes ?_ (fun z => by simp only [sizes, shape, List.cons.injEq] at z ⊢; (first | (simp [z]; done) | (simp [z]; split <;> simp [z]))))) | dsimp only | intro _ | split)

theorem secEnd_keeps {b s : State} (h : Keeps b s) {c : Nat} : Keeps b (secEnd c s) := by
  unfold secEnd
  apply secResult_keeps
  simp only [Keeps_mk]
  exact Keeps_idle h

theorem secStart_keeps {b s : State} (h : Keeps b s) {c : SecCmd} {u : Nat} {d : Word}
    (hu : (otpUnit u s).st ≠ .locked) (hc : c = .lock ∨ (otpUnit u s).st ≠ .committed) :
    Keeps b (secStart c u d s) := by
  simp only [secStart, Keeps_mk]
  refine Keeps_otp h (fun x hx => ⟨rfl, fun r hr => ?_⟩) (fun x hx => ⟨otpEffective_iff.1 hx.1, fun r hr => ?_⟩)
    (fun _ r hr => ?_)
  · cases hr
    exact fun (e : u = x) => hu (e.symm ▸ hx.1)
  · cases hr
    rcases hc with e | e
    · exact Or.inl e
    · refine Or.inr (fun (k : u = x) => ?_)
      subst k
      rcases otpEffective_iff.1 hx.1 with k | k
      · exact e k
      · exact hu k
  · cases hr
    exact hc.imp id (fun e => ⟨e, hu⟩)

theorem nextCounter_blank {s : State} {u : Nat} (hu : nextCounter s = some u) : (otpUnit u s).st = .blank := by
  have k := List.find?_some hu
  simp [unitBlank] at k
  exact k.2

/-- Raising an event leaves the OTP units as they are. -/
theorem raiseAt_otp (e : Ev) (u : Nat) (d : Word) (s : State) : (raiseAt e u d s).sec.otp = s.sec.otp := by
  have h1 : ∀ p, (setPend p u s).sec.otp = s.sec.otp := by
    intro p
    cases p <;> rfl
  have h2 : ∀ c r (t : State), (queueEvt c r d t).sec.otp = t.sec.otp := by
    intro c r t
    unfold queueEvt
    split <;> rfl
  unfold raiseAt
  split
  · exact h1 _
  · rw [h2, h1]

theorem rollbackNext_keeps {b s : State} (h : Keeps b s) {g : Word} : Keeps b (rollbackNext g s) := by
  unfold rollbackNext
  split
  · exact secEnd_keeps h
  · split
    · rename_i u hu
      have k := nextCounter_blank hu
      exact secStart_keeps h (by rw [k]; decide) (Or.inr (by rw [k]; decide))
    · exact secEnd_keeps h

theorem lockUnit_keeps {b s : State} (h : Keeps b s) {r : SecRun} (hr : s.sec.run = some r) :
    Keeps b { lockUnit r s with sec := { (lockUnit r s).sec with run := none } } :=
  setDone_keeps h (fun x hx => Ne.symm (hx.2 r hr)) (fun _ => Or.inr rfl)

theorem burnOver_keeps {b s : State} (h : Keeps b s) {r : SecRun} {o : BurnOutcome} (hr : s.sec.run = some r) :
    Keeps b (burnOver r o s) := by
  have hk : ∀ x, Sealed x s → x ≠ r.unitAddr := fun x hx => Ne.symm (hx.2 r hr)
  have hc : r.cmd ≠ .lock → ¬ Counted r.unitAddr s := fun e k => (k.2 r hr).elim e (fun z => z rfl)
  unfold burnOver
  split
  · exact secEnd_keeps (setDone_keeps h hk (fun _ => Or.inr rfl))
  · exact rollbackNext_keeps (setDone_keeps (k := ⟨.locked, 1, false⟩) h hk (fun _ => Or.inr rfl))
  · rename_i e
    exact rollbackNext_keeps (scarUnit_keeps h hk (hc (by rw [e]; decide)))
  · exact secEnd_keeps (lockUnit_keeps h hr)
  · rename_i e _
    exact secEnd_keeps (scarUnit_keeps h hk (hc e))

theorem execSecCommandComplete_goes {b s : State} (h : Keeps b s) {o : BurnOutcome} :
    Goes b (execSecCommandComplete o s) := by
  apply Goes_next
  split
  · rename_i r hr
    exact Keeps_ite (burnOver_keeps h hr) h
  · exact h

/-- The units that the SCAR burn works on are SCARRED. -/
theorem scarFold_keeps {b s : State} (h : Keeps b s) (l : List Nat)
    (hl : ∀ u, u ∈ l → (otpUnit u s).st = .scarred) : Keeps b (l.foldl (fun t u => scarUnit u t) s) := by
  induction l generalizing s with
  | nil => exact h
  | cons u l ih =>
    have hu := hl u (List.mem_cons_self ..)
    have hc : ¬ Counted u s := by
      intro k
      have e : (nth .blank s.sec.otp u).st = .scarred := hu
      have k := otpEffective_iff.1 k.1
      rw [e] at k
      simp at k
    refine ih (scarUnit_keeps h (fun x hx e => ?_) hc) (fun v hv => ?_)
    · subst e
      have e : (nth .blank s.sec.otp x).st = .scarred := hu
      have k := hx.1
      rw [e] at k
      cases k
    · have k : otpUnit v (scarUnit u s) = nth .blank (upd (fun _ => (⟨.scarred, 0, true⟩ : OtpUnit)) s.sec.otp u) v := by
        unfold otpUnit scarUnit raise
        rw [raiseAt_otp]
        rfl
      rw [k]
      rcases nth_upd_or .blank (fun _ => (⟨.scarred, 0, true⟩ : OtpUnit)) s.sec.otp u v with e | e
      · rw [e]
        exact hl v (List.mem_cons_of_mem _ hv)
      · rw [e]

theorem execOtpScarBurn_goes {b s : State} (h : Keeps b s) : Goes b (execOtpScarBurn s) := by
  apply Goes_next
  split
  · simp only [Keeps_mk]
    apply Keeps_fold
    apply scarFold_keeps h
    intro u hu
    simp [unburnedScars] at hu
    exact hu.2.1
  · exact h

theorem interruptOtp_keeps {b s : State} (h : Keeps b s) : Keeps b (interruptOtp s) := by
  unfold interruptOtp
  split
  · exact h
  · rename_i r hr
    apply drawn_keeps
    simp only [Keeps_mk]
    split
    · exact Keeps_idle h
    · rename_i e
      refine setDone_keeps h (fun x hx => Ne.symm (hx.2 r hr)) (fun k => ?_)
      exact ((k.2 r hr).elim e (fun z => z rfl)).elim

end Sys2Proof.Laws
end

