-- ==== Sys2Proof/Laws/KeepsExec.lean ====
section
/-!
SUPPORT. Every command, and the tick of an idle block, keep what Laws/Keeps.lean lists.
-/

namespace Sys2Proof.Laws

open Sys2Proof.Machine Sys2Proof.Safety

theorem exec_goes {b s : State} (h : Keeps b s) (i : Instr) : Goes b (exec i s) := by
  cases i with
  | write _ _ _ _ => exact execWrite_goes h
  | read _ _ _ _ => exact execRead_goes h
  | status _ => exact execStatus_goes h
  | readPickup _ _ _ => exact execReadPickup_goes h
  | posStream _ _ _ => exact execPosStream_goes h
  | atomic _ _ _ _ _ => exact execAtomic_goes h
  | softReset _ _ => exact execSoftReset_goes h
  | wake _ => exact execWake_goes h
  | enterState _ _ => exact execEnterState_goes h
  | unknownOpcode _ _ => exact execUnknownOpcode_goes h
  | mgtWatchdogExpiry => exact execMgtWatchdogExpiry_goes h
  | stalemateExpiry _ => exact execStalemateExpiry_goes h
  | registerWrite _ _ _ => exact execRegisterWrite_goes h
  | rcCounterRead _ => exact execRcCounterRead_goes h
  | verifyComplete _ => exact execVerifyComplete_goes h
  | abort => exact execAbort_goes h
  | commitFull => exact execCommitFull_goes h
  | commitHitless => exact execCommitHitless_goes h
  | restartActive => exact execRestartActive_goes h
  | close => exact execClose_goes h
  | openingComplete => exact execOpeningComplete_goes h
  | prepareComplete => exact execPrepareComplete_goes h
  | autoRestartActive => exact execAutoRestartActive_goes h
  | snapshot => exact execSnapshot_goes h
  | set => exact execSet_goes h
  | step => exact execStep_goes h
  | slew => exact execSlew_goes h
  | slewAbort => exact execSlewAbort_goes h
  | rate => exact execRate_goes h
  | setSecAtPps => exact execSetSecAtPps_goes h
  | slewEnd => exact execSlewEnd_goes h
  | ownerWrite _ => exact execOwnerWrite_goes h
  | cmpArm _ _ _ => exact execCmpArm_goes h
  | cmpDisarm _ _ _ => exact execCmpDisarm_goes h
  | cmpFire _ => exact execCmpFire_goes h
  | ppsoPulseEnd _ => exact execPpsoPulseEnd_goes h
  | captureEdge _ _ _ => exact execCaptureEdge_goes h
  | ppsHoldover => exact execPpsHoldover_goes h
  | capFifoRead _ => exact execCapFifoRead_goes h
  | capPeekRead _ => exact execCapPeekRead_goes h
  | pdelayReqTx _ => exact execPdelayReqTx_goes h
  | ptpSyncTx _ _ => exact execPtpSyncTx_goes h
  | pdelayTimeout _ _ => exact execPdelayTimeout_goes h
  | masterLost _ => exact execMasterLost_goes h
  | ptpHoldoverEntry => exact execPtpHoldoverEntry_goes h
  | holdoverGraceExpiry => exact execHoldoverGraceExpiry_goes h
  | castle => exact execCastle_goes h
  | decideSlew => exact execDecideSlew_goes h
  | decideStep => exact execDecideStep_goes h
  | decideStay => exact execDecideStay_goes h
  | clearTimeSet => exact execClearTimeSet_goes h
  | txtsFifoRead _ => exact execTxtsFifoRead_goes h
  | txtsPeekRead _ => exact execTxtsPeekRead_goes h
  | ethFrameRx _ _ => exact execEthFrameRx_goes h
  | accessFrameExecute _ => exact execAccessFrameExecute_goes h
  | accessResponseTx => exact execAccessResponseTx_goes h
  | egressSelect _ _ => exact execEgressSelect_goes h
  | txComplete _ => exact execTxComplete_goes h
  | promotion _ _ => exact execPromotion_goes h
  | kingHeldExpiry _ => exact execKingHeldExpiry_goes h
  | linkUp _ _ => exact execLinkUp_goes h
  | signalLoss _ => exact execSignalLoss_goes h
  | linkDown _ => exact execLinkDown_goes h
  | resign _ => exact execResign_goes h
  | reinstate _ => exact execReinstate_goes h
  | retryVerify _ => exact execRetryVerify_goes h
  | linkRestart _ => exact execLinkRestart_goes h
  | linkRestartIdleEnd _ => exact execLinkRestartIdleEnd_goes h
  | verifyTimerExpiry _ => exact execVerifyTimerExpiry_goes h
  | resignWindowEnd _ => exact execResignWindowEnd_goes h
  | cleanIntervalEnd _ => exact execCleanIntervalEnd_goes h
  | dupEntryExpiry _ => exact execDupEntryExpiry_goes h
  | supervisionTx _ => exact execSupervisionTx_goes h
  | serCharRx _ _ => exact execSerCharRx_goes h
  | serLineIdle _ => exact execSerLineIdle_goes h
  | abrIdleExpiry _ => exact execAbrIdleExpiry_goes h
  | serBlindEnter _ => exact execSerBlindEnter_goes h
  | serBlindExit _ => exact execSerBlindExit_goes h
  | seHandover => exact execSeHandover_goes h
  | serTxSelect _ _ => exact execSerTxSelect_goes h
  | serTxComplete _ => exact execSerTxComplete_goes h
  | serDeRelease _ => exact execSerDeRelease_goes h
  | serCollision _ => exact execSerCollision_goes h
  | serBackoffEnd _ => exact execSerBackoffEnd_goes h
  | serSlotBoundary _ => exact execSerSlotBoundary_goes h
  | abrRestart _ => exact execAbrRestart_goes h
  | rxRestart _ => exact execRxRestart_goes h
  | sampleAvailable _ => exact execSampleAvailable_goes h
  | muFrameHandover _ => exact execMuFrameHandover_goes h
  | mailboxRead _ _ => exact execMailboxRead_goes h
  | cnvRefFault => exact execCnvRefFault_goes h
  | refFaultClear => exact execRefFaultClear_goes h
  | alnWindowEnd _ => exact execAlnWindowEnd_goes h
  | alnRowDue => exact execAlnRowDue_goes h
  | rteEditWord0 _ _ _ => exact execRteEditWord0_goes h
  | rteEditWordMid _ _ _ _ => exact execRteEditWordMid_goes h
  | rteEditWord5 _ _ _ => exact execRteEditWord5_goes h
  | arbApply => exact execArbApply_goes h
  | gooseRetransmit _ => exact execGooseRetransmit_goes h
  | gooseTalExpiry _ => exact execGooseTalExpiry_goes h
  | arbOutCmd _ _ => exact execArbOutCmd_goes h
  | arbVarWrite _ _ f => exact execArbVarWrite_goes h (a3 := f)
  | xbTransactionStart => exact execXbTransactionStart_goes h
  | xbTransactionEnd _ => exact execXbTransactionEnd_goes h
  | xbCardErr _ => exact execXbCardErr_goes h
  | xbBeatTimeout _ => exact execXbBeatTimeout_goes h
  | xbCardRemoved _ => exact execXbCardRemoved_goes h
  | xbScanComplete => exact execXbScanComplete_goes h
  | xbIntAssert _ _ => exact execXbIntAssert_goes h
  | xbPoll _ => exact execXbPoll_goes h
  | xbPresenceDebounced _ _ => exact execXbPresenceDebounced_goes h
  | xbEnumerateStart => exact execXbEnumerateStart_goes h
  | enumerate _ => exact execEnumerate_goes h
  | invalidatePrefetch => exact execInvalidatePrefetch_goes h
  | xbWerrFifoRead => exact execXbWerrFifoRead_goes h
  | xbWerrPeekRead => exact execXbWerrPeekRead_goes h
  | sweeperVisit _ => exact execSweeperVisit_goes h
  | mainPowerGood => exact execMainPowerGood_goes h
  | porRelease _ => exact execPorRelease_goes h
  | pllLock => exact execPllLock_goes h
  | ready _ => exact execReady_goes h
  | mainPowerLoss => exact execMainPowerLoss_goes h
  | resetN => exact execResetN_goes h
  | pllLoss => exact execPllLoss_goes h
  | pwrEnter _ => exact execPwrEnter_goes h
  | holdReached => exact execHoldReached_goes h
  | adjournReached => exact execAdjournReached_goes h
  | sealReached => exact execSealReached_goes h
  | wakeNAssert => exact execWakeNAssert_goes h
  | exitComplete _ => exact execExitComplete_goes h
  | pwrFail => exact execPwrFail_goes h
  | endgameComplete => exact execEndgameComplete_goes h
  | restExit => exact execRestExit_goes h
  | thermalSample _ => exact execThermalSample_goes h
  | thermalRelease => exact execThermalRelease_goes h
  | program => exact execProgram_goes h
  | lock => exact execLock_goes h
  | revoke _ => exact execRevoke_goes h
  | rollbackAdvance => exact execRollbackAdvance_goes h
  | enforce => exact execEnforce_goes h
  | testDisable => exact execTestDisable_goes h
  | testUnlock => exact execTestUnlock_goes h
  | secCommandComplete _ => exact execSecCommandComplete_goes h
  | otpScarBurn => exact execOtpScarBurn_goes h
  | extest _ _ => exact execExtest_goes h
  | samplePreload _ _ => exact execSamplePreload_goes h
  | idcode => exact execIdcode_goes h
  | clamp => exact execClamp_goes h
  | highz => exact execHighz_goes h
  | extestPulse _ _ => exact execExtestPulse_goes h
  | extestTrain _ _ => exact execExtestTrain_goes h
  | bypass _ => exact execBypass_goes h
  | jtagTestLogicReset => exact execJtagTestLogicReset_goes h
  | evtLogWrite => exact execEvtLogWrite_goes h
  | resetNRelease _ => exact execResetNRelease_goes h
  | vbakLow => exact execVbakLow_goes h
  | secondsCarry => exact execSecondsCarry_goes h
  | ptpAnnounceTx _ _ => exact execPtpAnnounceTx_goes h
  | serGlitch _ => exact execSerGlitch_goes h
  | gpioWake _ => exact execGpioWake_goes h
  | serialWake _ => exact execSerialWake_goes h
  | linkWake _ => exact execLinkWake_goes h
  | cardWake _ => exact execCardWake_goes h

end Sys2Proof.Laws
end

