-- ==== Sys2Proof/Laws/Port.lean ====
section
/-!
SUPPORT. Byte order, the words of management transactions over the shared region, the edges of a transaction, and
what raising an event leaves.
-/

namespace Sys2Proof.Laws
open Sys2Proof.Machine Sys2Proof.Safety

theorem toLE_length (n x : Nat) : (toLE n x).length = n := by
  induction n generalizing x with
  | zero => rfl
  | succ n ih => simp [toLE, ih]

theorem toBE_length (n x : Nat) : (toBE n x).length = n := by
  induction n with
  | zero => rfl
  | succ n ih => simp [toBE, ih]

theorem ofLE_lt (l : List Byte) : ofLE l < 256 ^ l.length := by
  induction l with
  | nil => simp [ofLE]
  | cons b l ih =>
    have := b.isLt
    simp only [ofLE, List.length_cons, Nat.pow_succ]
    omega

theorem toLE_ofLE (l : List Byte) : toLE l.length (ofLE l) = l := by
  induction l with
  | nil => rfl
  | cons b l ih =>
    have hb := b.isLt
    have h1 : (b.toNat + 256 * ofLE l) / 256 = ofLE l := by omega
    simp only [List.length_cons, toLE, ofLE, h1, ih]
    congr 1
    apply BitVec.eq_of_toNat_eq
    simp
    omega

theorem ofLE_toLE (n v : Nat) (h : v < 256 ^ n) : ofLE (toLE n v) = v := by
  induction n generalizing v with
  | zero =>
    simp at h
    simp [toLE, ofLE, h]
  | succ n ih =>
    have h2 : v / 256 < 256 ^ n := by
      rw [Nat.pow_succ] at h
      omega
    simp only [toLE, ofLE, ih _ h2]
    simp
    omega

theorem toBE_word (a b c d : Byte) : toBE 4 (BitVec.ofNat 32 (ofLE [a, b, c, d])).toNat = [d, c, b, a] := by
  have ha := a.isLt
  have hb := b.isLt
  have hc := c.isLt
  have hd := d.isLt
  have e : (BitVec.ofNat 32 (ofLE [a, b, c, d])).toNat
      = a.toNat + 256 * (b.toNat + 256 * (c.toNat + 256 * d.toNat)) := by
    simp only [ofLE, BitVec.toNat_ofNat]
    omega
  rw [e]
  simp only [toBE, List.cons.injEq, and_true]
  refine ⟨?_, ?_, ?_, ?_⟩ <;> apply BitVec.eq_of_toNat_eq <;> simp only [BitVec.toNat_ofNat] <;> omega

theorem satInc_words (n : Nat) : satInc (BitVec.ofNat 8 (min n 255)) = BitVec.ofNat 8 (min (n + 1) 255) := by
  unfold satInc
  by_cases h : n < 255
  · have a : min n 255 = n := by omega
    have b : min (n + 1) 255 = n + 1 := by omega
    rw [a, b]
    split
    · rename_i e
      have := congrArg BitVec.toNat e
      simp at this
      omega
    · apply BitVec.eq_of_toNat_eq
      simp
  · have a : min n 255 = 255 := by omega
    have b : min (n + 1) 255 = 255 := by omega
    rw [a, b]
    decide

theorem Memory_putAll_append (m : Memory) (a : Nat) (x y : List Byte) :
    Memory.putAll m a (x ++ y) = Memory.putAll (Memory.putAll m a x) (a + x.length) y := by
  induction x generalizing m a with
  | nil => rfl
  | cons v x ih =>
    simp only [List.cons_append, Memory.putAll, ih, List.length_cons]
    have e : a + 1 + x.length = a + (x.length + 1) := by omega
    rw [e]

/-! ### The edges of a management transaction -/

theorem csFalls_idle {s : State} (h : PortIdle s) :
    csFalls false s = { s with mgt := { s.mgt with status := s.mgt.last } } := by
  simp [csFalls, h.2.1]

theorem csFalls_status {s : State} (h : PortIdle s) : csFalls true s = s := by
  simp [csFalls, h.2.1]

/-- The end of a transaction without a far read changes the management port only. -/
theorem endTx_plain (o : TxOutcome) (hang : Bool) (miso : List Byte) (s : State) (h : s.xb.gather = none) :
    ∃ m, endTx o none hang miso s = { s with mgt := m } ∧ m.miso = miso ∧ m.pick = s.mgt.pick ∧
      m.pickSeq = s.mgt.pickSeq ∧ m.status = s.mgt.status ∧ m.crcEn = s.mgt.crcEn ∧ m.wdogEn = s.mgt.wdogEn ∧
      m.wdogTimeout = s.mgt.wdogTimeout ∧
      (hang = false → m.openTx = none ∧ m.last = if o.opcode = 0x05 then s.mgt.last else o) ∧
      (hang = true → m.openTx = some { lastEdge := localNow s, read := none, out := o } ∧ m.last = s.mgt.last) := by
  refine ⟨(endTx o none hang miso s).mgt, ?_⟩
  cases hang <;> simp [endTx, csRises, issueRead, closeGather, h, keepOutcome, countFlags]

theorem hostWords_good {en : Bool} {ws : List SpiWord} {r : Byte} (h : (hostWords en ws r).2 = false) :
    (hostWords en ws r).1 = ws.map (·.val) := by
  induction ws generalizing r with
  | nil => rfl
  | cons w ws ih =>
    simp only [hostWords] at h ⊢
    split at h
    · simp at h
    · rename_i k
      simp only [k]
      simp at h
      simp [ih h]

theorem plainEnv_quiet {es : List BankEnv} (h : QuietEnvs es) :
    (es.headD plainEnv).sameCycle = false ∧ (es.headD plainEnv).ecc = .ok := by
  cases es with
  | nil => exact ⟨rfl, rfl⟩
  | cons e es => exact h e (by simp)

theorem QuietEnvs_drop {es : List BankEnv} (h : QuietEnvs es) : QuietEnvs (es.drop 1) :=
  fun e he => h e (List.mem_of_mem_drop he)

theorem rowOf_shared {a : Nat} (h : 0x100000 ≤ a) (h2 : a < 0x120000) : rowOf a = some (0x100000, 0x11FFFF) := by
  unfold rowOf
  have : ¬ 0x800000 ≤ a := by omega
  simp only [this, if_false, mapRows, List.find?]
  repeat (split; (exfalso; rename_i k; simp at k; omega))
  split
  · rfl
  · rename_i k
    simp at k
    omega

theorem sharedAddr {a : Nat} (h : 0x100000 ≤ a) (h2 : a < 0x120000) :
    isMgt a = false ∧ isCard a = false ∧ isShared a = true := by
  refine ⟨?_, ?_, ?_⟩ <;> simp [isMgt, isCard, isShared] <;> omega

theorem spiWriteWord_shared (a o : Nat) (w : Word) (e : BankEnv) (he : e.sameCycle = false ∧ e.ecc = .ok) (r : SpiRun)
    (s : State) (hr : r.stop = false) (hc : coreAnswers s = true) (h : a = 0x100000 + o) (h2 : o + 4 ≤ 0x1B000) :
    spiWriteWord (some (0x100000, 0x11FFFF)) a w e r s = (r.took, sharedPut o (toLE 4 w.toNat) s) := by
  obtain ⟨e1, e2, e3⟩ := sharedAddr (a := a) (by omega) (by omega)
  have e5 : a - 0x100000 = o := by omega
  have e4 : inSystemArea o = false := by
    simp [inSystemArea]
    omega
  have e6 : ¬ 0x11FFFF < a := by omega
  simp only [spiWriteWord, hr, e1, e2, e3, e5, e4, e6, hc, coreWrite, portBWrite, noteEcc, he.1, he.2, sameCycleRec,
    if_true, if_false, Bool.false_eq_true, Bool.true_eq_false, SpiRun.answer]

theorem spiWriteWords_shared (ws : List Word) (a o : Nat) (es : List BankEnv) (r : SpiRun) (s : State) (k : Nat)
    (he : QuietEnvs es) (hr : r.stop = false) (hc : coreAnswers s = true) (h : a = 0x100000 + o)
    (h2 : o + 4 * ws.length ≤ 0x1B000)
    (hk : r.out = { TxOutcome.zero with opcode := 2, words := BitVec.ofNat 8 (min k 255) }) :
    ∃ r', spiWriteWords (some (0x100000, 0x11FFFF)) ws a es r s =
      (r', { s with mem := { s.mem with
        shared := Memory.putAll s.mem.shared o (ws.flatMap (fun w => toLE 4 w.toNat)) } }) ∧
      r'.out = { TxOutcome.zero with opcode := 2, words := BitVec.ofNat 8 (min (k + ws.length) 255) } := by
  induction ws generalizing a o es r s k with
  | nil => exact ⟨r, rfl, hk⟩
  | cons w ws ih =>
    simp only [List.length_cons] at h2
    obtain ⟨r', e1, e2⟩ := ih (a + 4) (o + 4) (es.drop 1) r.took (sharedPut o (toLE 4 w.toNat) s) (k + 1)
      (QuietEnvs_drop he) hr hc (by omega) (by omega) (by simp [SpiRun.took, hk]; exact satInc_words k)
    refine ⟨r', ?_, ?_⟩
    · simp only [spiWriteWords]
      rw [spiWriteWord_shared a o w _ (plainEnv_quiet he) r s hr hc h (by omega)]
      rw [e1]
      simp only [sharedPut, List.flatMap_cons, Memory_putAll_append, toLE_length]
    · rw [e2]
      have q : k + 1 + ws.length = k + (ws.length + 1) := by omega
      rw [q]
      rfl

theorem spiReadWord_shared (a o : Nat) (e : BankEnv) (he : e.sameCycle = false ∧ e.ecc = .ok) (r : SpiRun)
    (s : State) (hr : r.stop = false) (hc : coreAnswers s = true) (h : a = 0x100000 + o) (h2 : o + 4 ≤ 0x20000) :
    spiReadWord (some (0x100000, 0x11FFFF)) a e r s =
      (BitVec.ofNat 32 (ofLE (Memory.getAll s.mem.shared o 4)), r.took, s) := by
  obtain ⟨e1, e2, e3⟩ := sharedAddr (a := a) (by omega) (by omega)
  have e5 : a - 0x100000 = o := by omega
  have e6 : ¬ 0x11FFFF < a := by omega
  simp [spiReadWord, hr, e1, e3, e5, e6, hc, portBRead, noteEcc, he.1, he.2, beforeCycle, sameCycleRec, sharedGet]

theorem spiReadWords_shared (n a o : Nat) (es : List BankEnv) (r : SpiRun) (s : State) (k : Nat)
    (he : QuietEnvs es) (hr : r.stop = false) (hc : coreAnswers s = true) (h : a = 0x100000 + o)
    (h2 : o + 4 * n ≤ 0x20000)
    (hk : r.out = { TxOutcome.zero with opcode := 3, words := BitVec.ofNat 8 (min k 255) }) :
    ∃ r', spiReadWords (some (0x100000, 0x11FFFF)) n a es r s =
      ((List.range n).map (fun i => BitVec.ofNat 32 (ofLE (Memory.getAll s.mem.shared (o + 4 * i) 4))), r', s) ∧
      r'.out = { TxOutcome.zero with opcode := 3, words := BitVec.ofNat 8 (min (k + n) 255) } := by
  induction n generalizing a o es r k with
  | zero => exact ⟨r, rfl, hk⟩
  | succ n ih =>
    obtain ⟨r', e1, e2⟩ := ih (a + 4) (o + 4) (es.drop 1) r.took (k + 1) (QuietEnvs_drop he) hr (by omega) (by omega)
      (by simp [SpiRun.took, hk]; exact satInc_words k)
    refine ⟨r', ?_, ?_⟩
    · simp only [spiReadWords]
      rw [spiReadWord_shared a o _ (plainEnv_quiet he) r s hr hc h (by omega)]
      rw [e1]
      simp only [List.range_succ_eq_map, List.map_cons, List.map_map]
      have y : ((fun i => BitVec.ofNat 32 (ofLE (Memory.getAll s.mem.shared (o + 4 * i) 4))) ∘ Nat.succ)
          = fun i => BitVec.ofNat 32 (ofLE (Memory.getAll s.mem.shared (o + 4 + 4 * i) 4)) := by
        funext i
        have q : o + 4 * Nat.succ i = o + 4 + 4 * i := by omega
        simp only [Function.comp, q]
      rw [y]
      simp only [Nat.mul_zero, Nat.add_zero]
    · rw [e2]
      have q : k + 1 + n = k + (n + 1) := by omega
      rw [q]

theorem sendWords_plain (ws : List Word) (r : Byte) : sendWords false ws r = ws.flatMap (fun w => toBE 4 w.toNat) := by
  induction ws generalizing r with
  | nil => rfl
  | cons w ws ih => simp [sendWords, ih]

/-! ### Raised events -/

theorem setBit_self {n : Nat} (b : BitVec n) (i : Nat) (h : i < n) : (setBit b i).getLsbD i = true := by
  simp [setBit, h]

theorem queueEvt_last (c : BitVec 16) (r : BitVec 8) (d : Word) (s : State) :
    ∃ x, (queueEvt c r d s).evt.queue.getLast? = some x ∧ x.code = c ∧ x.datum = d ∧
      x.secs = s.tmb.secs.setWidth 32 ∧ x.ns = s.tmb.ns := by
  refine ⟨{ secs := s.tmb.secs.setWidth 32, tq := tqNow s, ns := s.tmb.ns, code := c, source := r, datum := d },
    ?_, rfl, rfl, rfl, rfl⟩
  unfold queueEvt
  split <;> simp

theorem queueEvt_pend (c : BitVec 16) (r : BitVec 8) (d : Word) (s : State) (p : PendAt) (u : Nat) :
    pendSet p u (queueEvt c r d s) = pendSet p u s := by
  unfold queueEvt
  split <;> cases p <;> rfl

theorem setPend_tmb (p : PendAt) (u : Nat) (s : State) : (setPend p u s).tmb = s.tmb := by
  cases p <;> rfl

/-- Raising an event of a block with one set of registers reports it. -/
theorem raiseAt_reported (e : Ev) (u : Nat) (d : Word) {s0 s : State}
    (ht : s.tmb.secs = s0.tmb.secs ∧ s.tmb.ns = s0.tmb.ns)
    (hp : pendSet e.pendAt u s = pendSet e.pendAt u s0)
    (hs : e.pendAt ≠ .none → pendSet e.pendAt u (setPend e.pendAt u s) = true) :
    Reported e u d s0 (raiseAt e u d s) := by
  unfold raiseAt
  refine ⟨fun k => ?_, fun k => ?_⟩
  · split
    · exact hs k
    · rw [queueEvt_pend]
      exact hs k
  · rw [hp, k]
    obtain ⟨x, h⟩ := queueEvt_last e.code ((e.code >>> 8).setWidth 8) d (setPend e.pendAt u s)
    rw [setPend_tmb, ht.1, ht.2] at h
    exact ⟨x, h⟩

/-- Raising an event that is logged at every occurrence reports it, whatever the pending bit was. -/
theorem raiseAt_reported_every (e : Ev) (u : Nat) (d : Word) {s0 s : State} (hf : e.firstOnly = false)
    (ht : s.tmb.secs = s0.tmb.secs ∧ s.tmb.ns = s0.tmb.ns)
    (hs : e.pendAt ≠ .none → pendSet e.pendAt u (setPend e.pendAt u s) = true) :
    Reported e u d s0 (raiseAt e u d s) := by
  unfold raiseAt
  simp only [hf, Bool.false_and, Bool.false_eq_true, if_false]
  refine ⟨fun k => ?_, fun _ => ?_⟩
  · rw [queueEvt_pend]
    exact hs k
  · obtain ⟨x, h⟩ := queueEvt_last e.code ((e.code >>> 8).setWidth 8) d (setPend e.pendAt u s)
    rw [setPend_tmb, ht.1, ht.2] at h
    exact ⟨x, h⟩

/-- Queueing an event changes the event block only, and in it the queue and its overflow marks. -/
theorem queueEvt_evt (c : BitVec 16) (r : BitVec 8) (d : Word) (s : State) :
    ∃ q o n, queueEvt c r d s = { s with evt := { s.evt with queue := q, ovf := o, dropCnt := n } } := by
  unfold queueEvt
  split <;> exact ⟨_, _, _, rfl⟩

/-- Raising an event sets its pending bit, and may change the queue and its overflow marks. -/
theorem raiseAt_evt (e : Ev) (u : Nat) (d : Word) (s : State) :
    ∃ q o n, raiseAt e u d s = { setPend e.pendAt u s with
      evt := { (setPend e.pendAt u s).evt with queue := q, ovf := o, dropCnt := n } } := by
  unfold raiseAt
  split
  · exact ⟨_, _, _, rfl⟩
  · exact queueEvt_evt _ _ _ _

end Sys2Proof.Laws
end

