-- ==== Sys2Proof/Laws/Frames.lean ====
section
/-!
SUPPORT. Which parts of the state a change of blocks leaves, how many units a state that meets the invariant holds, and that every command answers a next state.
-/

namespace Sys2Proof.Laws

open Sys2Proof.Machine Sys2Proof.Safety

theorem frame2 (s : State) (m : MgtBlk) (d : MemBlk) : Frame [.mgt, .mem] s { s with mgt := m, mem := d } := by
  intro p hp
  cases p <;> first | rfl | cases hp

theorem frame1 (s : State) (m : MgtBlk) : Frame [.mgt] s { s with mgt := m } := by
  intro p hp
  cases p <;> first | rfl | cases hp

theorem ex (c : Instr) (s : State) : ∃ t, exec c s = .next t := by
  obtain ⟨t, e, _⟩ := exec_goes (Keeps_refl s) c
  exact ⟨t, e⟩

theorem nxt {s t : State} (e : (Host.Outcome.next s : Host.Outcome State Fault Refusal) = .next t) : s = t := Host.Outcome.next.inj e

end Sys2Proof.Laws
end

