-- ==== Sys2Proof/Laws/Queues.lean ====
section
/-!
SUPPORT. Copies of a message in the class queues.
-/

namespace Sys2Proof.Laws

open Sys2Proof.Machine Sys2Proof.Safety

theorem joinQueue_spec (p c : Nat) (q : QEntry) (s : State) (hp : p ≤ 8) (hl : p < s.eth.length)
    (hq : c < (ethAt p s).queues.length) :
    ∃ e x, joinQueue p c q s = { s with eth := e, cls := { s.cls with peaks := x } } ∧
      queueOf p c (joinQueue p c q s) = queueOf p c s ++ [q] := by
  have h : ∃ e, setQueue p c (queueOf p c s ++ [q]) s = { s with eth := e } ∧
      queueOf p c { s with eth := e } = queueOf p c s ++ [q] := by
    refine ⟨upd (fun k => { k with queues := upd (fun _ => queueOf p c s ++ [q]) k.queues c }) s.eth p, ?_, ?_⟩
    · simp only [setQueue, hp, if_true]
    · generalize queueOf p c s ++ [q] = r
      simp only [queueOf, queuesOf, hp, if_true, nth_upd_same _ _ _ hl]
      exact nth_upd_same [] (fun _ => r) _ hq
  obtain ⟨e, h1, h2⟩ := h
  unfold joinQueue notePeak
  rw [h1]
  dsimp only
  split
  · exact ⟨e, s.cls.peaks, rfl, h2⟩
  · exact ⟨e, _, rfl, h2⟩

theorem queueEth_spec (p : Nat) (m : Msg) (seq : BitVec 16) (s : State) (hp : p ≤ 8) (hl : p < s.eth.length)
    (hq : m.cls.toNat < (ethAt p s).queues.length) (hf : forwarding p s = true) :
    ∃ e x, queueEth p m seq s = { s with eth := e, cls := { s.cls with peaks := x } } ∧
      queueOf p m.cls.toNat (queueEth p m seq s) =
        queueOf p m.cls.toNat s ++ [{ msg := m.id, promoted := false, marked := false, seq }] := by
  unfold queueEth
  simp only [hf, if_true]
  exact joinQueue_spec _ _ _ _ hp hl hq

theorem queueOwn_sent (kind : MsgKind) (p c index : Nat) (bytes : List Byte) (stamp : Stamp) (extra : List Byte)
    (s : State) (hp : p ≤ 8) (hl : p < s.eth.length) (hc : c < 6) (hq : c < (ethAt p s).queues.length)
    (hf : forwarding p s = true) (ha : (allot c bytes.length s).isSome = true) :
    (∃ e x y, queueOwn kind p c index bytes stamp extra s = { s with eth := e, pairs := x, cls := y }) ∧
      Sent kind p c bytes (queueOwn kind p c index bytes stamp extra s) := by
  obtain ⟨⟨own, rest⟩, ha⟩ := Option.isSome_iff_exists.1 ha
  unfold queueOwn queueOwnOn
  rw [ha]
  dsimp only
  have hc' : (BitVec.ofNat 3 c).toNat = c := by
    rw [BitVec.toNat_ofNat]
    omega
  have sh : ∀ (m : Msg) (seq : BitVec 16) (s' : State), m.cls.toNat = c → s'.eth = s.eth →
      ∃ e x y, queueEth p m seq s' = { s' with eth := e, pairs := x, cls := y } := by
    intro m seq s' h1 h2
    obtain ⟨e, x, z1, _⟩ := queueEth_spec p m seq s' hp (by rw [h2]; exact hl)
      (by rw [h1]; simpa only [ethAt, h2] using hq) (by simpa only [forwarding, h2] using hf)
    exact ⟨e, s'.pairs, _, z1⟩
  have key : ∀ (m : Msg) (seq : BitVec 16) (s' : State), m.cls.toNat = c → s'.eth = s.eth → m ∈ s'.cls.msgs →
      m.kind = kind → m.bytes = bytes → Sent kind p c bytes (queueEth p m seq s') := by
    intro m seq s' h1 h2 h3 h4 h5
    obtain ⟨e, x, z1, z2⟩ := queueEth_spec p m seq s' hp (by rw [h2]; exact hl)
      (by rw [h1]; simpa only [ethAt, h2] using hq) (by simpa only [forwarding, h2] using hf)
    refine ⟨m, ?_, h4, h5, { msg := m.id, promoted := false, marked := false, seq }, ?_, rfl⟩
    · rw [z1]
      exact h3
    · rw [h1] at z2
      rw [z2]
      simp
  simp only [queueEths]
  split
  · exact ⟨sh _ _ _ hc' rfl, key _ _ _ hc' rfl (List.mem_append_right _ (List.mem_singleton.2 rfl)) rfl rfl⟩
  · exact ⟨sh _ _ _ hc' rfl, key _ _ _ hc' rfl (List.mem_append_right _ (List.mem_singleton.2 rfl)) rfl rfl⟩

end Sys2Proof.Laws
end

