-- ==== Sys2Proof/Laws/PtpSend.lean ====
section
/-!
SUPPORT. PTP messages as they are sent.
-/

namespace Sys2Proof.Laws

open Sys2Proof.Machine Sys2Proof.Safety

theorem eth_len {s : State} (h : Inv s) : s.eth.length = 9 := by
  have := h.1
  simp only [sizes, shape, List.cons.injEq] at this
  exact this.1

theorem port_len {s : State} (h : Inv s) : s.ptp.ports.length = 8 := by
  have := h.1
  simp only [sizes, shape, List.cons.injEq] at this
  exact this.2.2.2.2.2.2.1

theorem updPortDom_same (p : Nat) (d : Bool) (f : PortDom → PortDom) (s : State) (h : p < s.ptp.ports.length) :
    portDom p d (updPortDom p d f s) = f (portDom p d s) := by
  cases d <;> simp [portDom, updPortDom, updPort, ptpPort, nth_upd_same _ _ _ h]

theorem updPortDom_other (p : Nat) (d e : Bool) (f : PortDom → PortDom) (s : State) (h : e ≠ d) (hp : p < s.ptp.ports.length) :
    portDom p e (updPortDom p d f s) = portDom p e s := by
  cases d <;> cases e <;> first | exact absurd rfl h | simp [portDom, updPortDom, updPort, ptpPort, nth_upd_same _ _ _ hp]

theorem updPortDom_ptp (p : Nat) (d : Bool) (f : PortDom → PortDom) (s : State) :
    ∃ x, updPortDom p d f s = { s with ptp := x } := ⟨_, rfl⟩

theorem queueOwn_ptp (kind : MsgKind) (p c index : Nat) (bytes : List Byte) (stamp : Stamp) (extra : List Byte)
    (s : State) : (queueOwn kind p c index bytes stamp extra s).ptp = s.ptp := by
  have j : ∀ e c q s, (joinQueue e c q s).ptp = s.ptp := by
    intro e c q s
    have h : (setQueue e c (queueOf e c s ++ [q]) s).ptp = s.ptp := by
      unfold setQueue
      split
      · rfl
      · split
        · rfl
        · split <;> rfl
    unfold joinQueue notePeak
    dsimp only
    split <;> exact h
  have dr : ∀ i s, (dropCopy i s).ptp = s.ptp := by
    intro i s
    unfold dropCopy freeMsg
    split
    · rfl
    · split <;> rfl
  have qe : ∀ p m seq s, (queueEth p m seq s).ptp = s.ptp := by
    intro p m seq s
    unfold queueEth
    dsimp only
    split
    · exact j _ _ _ _
    · split
      · exact j _ _ _ _
      · exact dr _ _
  unfold queueOwn queueOwnOn
  split
  · obtain ⟨q, o, n, e⟩ := raiseAt_evt .bufRefuse 0 (BitVec.ofNat 32 (c * 65536 + 0xFFFF)) (updCls c (fun k => { k with refused := satInc k.refused }) s)
    unfold raise
    rw [e]
    rfl
  · simp only [queueEths]
    split <;> rw [qe] <;> rfl

theorem sendPdelay_ptp (p : Nat) (d : Bool) (s : State) (h : p < s.ptp.ports.length) :
    let t := sendPdelay p d s
    (t.ptp.ports.length = s.ptp.ports.length) ∧ t.ptp.role = s.ptp.role ∧ t.ptp.secEn = s.ptp.secEn ∧
    (∀ e, e ≠ d → portDom p e t = portDom p e s) ∧
    (domEnabled d s = true → (portDom p d t).pdelay.seq = (portDom p d s).pdelay.seq + 1 ∧
          (portDom p d t).pdelay.awaiting = true ∧ (portDom p d t).pdelay.t1 = none) := by
  have g : ∀ t : State, ∀ e, portDom p e t = portDom p e { s with ptp := t.ptp } := fun t e => rfl
  intro t
  by_cases hd : domEnabled d s = true
  · have ht : t.ptp = (updPortDom p d (fun x => { x with pdelay := { x.pdelay with
        seq := x.pdelay.seq + 1, t1 := none, t2 := none, t4 := none, corr := 0, awaiting := true } }) s).ptp := by
      simp only [t, sendPdelay, hd, if_true]
      exact queueOwn_ptp _ _ _ _ _ _ _ _
    have gt : ∀ e, portDom p e t = portDom p e (updPortDom p d (fun x => { x with pdelay := { x.pdelay with
        seq := x.pdelay.seq + 1, t1 := none, t2 := none, t4 := none, corr := 0, awaiting := true } }) s) := by
      intro e
      rw [g t e, ht]
      rfl
    refine ⟨?_, ?_, ?_, ?_, fun _ => ?_⟩
    · rw [ht]
      simp [updPortDom, updPort, upd_length]
    · rw [ht]; rfl
    · rw [ht]; rfl
    · intro e he
      rw [gt, updPortDom_other _ _ _ _ _ he h]
    · rw [gt, updPortDom_same _ _ _ _ h]
      exact ⟨rfl, rfl, rfl⟩
  · have ht : t = s := by simp only [t, sendPdelay, hd]; rfl
    rw [ht]
    exact ⟨rfl, rfl, rfl, fun _ _ => rfl, fun k => absurd k hd⟩

theorem len_corr (c : Int) : (corrBytes c).length = 8 := toBE_length _ _

theorem frame_len (b : Bool) (p : Nat) (m : List Byte) (s : State) (h : (slice (portEntry p s) 8 6).length = 6) :
    (ptpFrame b p m s).length = 14 + m.length := by
  cases b <;> simp [ptpFrame, h] <;> omega

theorem hdr_fields (ty len dom flags : Nat) (corr : Int) (sender seq : Nat) (log : Int) (x : List Byte) (h1 : ty < 16) (h2 : dom < 256) (h3 : seq < 65536) :
    let m := ptpHeader ty len dom flags corr sender seq log ++ x
    ptpType m = ty ∧ ptpDomain m = dom ∧ ptpSeq m = seq ∧ (ptpHeader ty len dom flags corr sender seq log).length = 34 ∧
      nth 0 m 6 = (BitVec.ofNat 8 (flags / 256)) := by
  intro m
  refine ⟨?_, ?_, ?_, ?_, ?_⟩
  · simp [m, ptpType, ptpHeader, u8, nth]
    omega
  · simp [m, ptpDomain, ptpHeader, u8, nth, toBE]
    omega
  · have : toBE 8 (corr / 125 % 2 ^ 64).toNat = corrBytes corr := rfl
    simp [m, ptpSeq, ptpHeader, be16, slice, toBE, corrBytes, ofBE]
    omega
  · simp [ptpHeader, toBE_length, len_corr]
  · simp [m, ptpHeader, nth, toBE]

end Sys2Proof.Laws
end

