-- ==== Sys2Proof/Laws/PtpLoss.lean ====
section
/-!
SUPPORT. Loss of a master, holdover and castling.
-/

namespace Sys2Proof.Laws

open Sys2Proof.Machine Sys2Proof.Safety

theorem portDom_of_ptp {s t : State} (h : t.ptp = s.ptp) (p : Nat) (d : Bool) : portDom p d t = portDom p d s := by
  simp only [portDom, ptpPort, h]

theorem d_ : True := trivial

/-- What the state decision leaves of a port. -/
theorem setStates_port (d : Bool) (b : Option (Nat × Foreign)) (l : List Nat) (s : State) :
    (∀ q e, ∃ v, portDom q e (setStates d b l s) = { portDom q e s with state := v }) ∧
    (∀ q, ∃ x y, ptpPort q (setStates d b l s) = { ptpPort q s with dom0 := x, dom1 := y }) ∧
    (setStates d b l s).ptp = { s.ptp with ports := (setStates d b l s).ptp.ports } ∧
    setStates d b l s = { s with ptp := (setStates d b l s).ptp } ∧
    (setStates d b l s).ptp.ports.length = s.ptp.ports.length := by
  induction l generalizing s with
  | nil => exact ⟨fun q e => ⟨_, rfl⟩, fun q => ⟨_, _, rfl⟩, rfl, rfl, rfl⟩
  | cons p ps ih =>
    simp only [setStates]
    generalize hst : (if (ptpPort p s).enabled = false ∨ domEnabled d s = false then (3 : BitVec 4)
      else if forwarding p s = false then 3 else if (portDom p d s).pdelay.excluded = true then 4 else decide1 p d b s) = st
    obtain ⟨h1, h2, h3, h4, h5⟩ := ih (updPortDom p d (fun k => { k with state := st }) s)
    have pd : ∀ q e, ∃ v, portDom q e (updPortDom p d (fun k => { k with state := st }) s) = { portDom q e s with state := v } := by
      intro q e
      rcases nth_upd_or .reset (fun k : PtpPort => if d then { k with dom1 := { k.dom1 with state := st } } else { k with dom0 := { k.dom0 with state := st } }) s.ptp.ports p q with z | z
      · refine ⟨(portDom q e s).state, ?_⟩
        simp only [portDom, ptpPort, updPortDom, updPort, z]
      · refine ⟨if e = d then st else (portDom q e s).state, ?_⟩
        simp only [portDom, ptpPort, updPortDom, updPort, z]
        cases d <;> cases e <;> rfl
    have pp : ∀ q, ∃ x y, ptpPort q (updPortDom p d (fun k => { k with state := st }) s) = { ptpPort q s with dom0 := x, dom1 := y } := by
      intro q
      rcases nth_upd_or .reset (fun k : PtpPort => if d then { k with dom1 := { k.dom1 with state := st } } else { k with dom0 := { k.dom0 with state := st } }) s.ptp.ports p q with z | z
      · refine ⟨(ptpPort q s).dom0, (ptpPort q s).dom1, ?_⟩
        simp only [ptpPort, updPortDom, updPort, z]
      · simp only [ptpPort, updPortDom, updPort, z]
        cases d <;> exact ⟨_, _, rfl⟩
    refine ⟨fun q e => ?_, fun q => ?_, ?_, ?_, ?_⟩
    · obtain ⟨v, e1⟩ := h1 q e
      obtain ⟨w, e2⟩ := pd q e
      exact ⟨v, by rw [e1, e2]⟩
    · obtain ⟨x, y, e1⟩ := h2 q
      obtain ⟨x', y', e2⟩ := pp q
      exact ⟨x, y, by rw [e1, e2]⟩
    · rw [h3]; rfl
    · rw [h4]; rfl
    · rw [h5]
      simp [updPortDom, updPort, upd_length]

theorem raise_ptp (e : Ev) (d : Word) (s : State) : (raise e d s).ptp = s.ptp := by
  obtain ⟨q, o, n, z⟩ := raiseAt_evt e 0 d s
  unfold raise
  rw [z]
  cases e.pendAt <;> rfl

theorem coreCycle_ptp (s : State) : (coreCycle s).ptp = s.ptp := rfl

theorem resyncAll_ptp (s : State) : (resyncAll s).ptp = s.ptp := rfl

theorem stepTime_ptp (d : Int) (s : State) : (stepTime d s).ptp = s.ptp := rfl

theorem activate_ports (d : Bool) (s : State) : (activate d s).ptp.ports = s.ptp.ports := rfl

theorem castleTo_ports (c : Bool) (δ : Int) (h : Nat) (s : State) : (castleTo c δ h s).ptp.ports = s.ptp.ports := by
  unfold castleTo
  dsimp only
  rw [raise_ptp]
  split <;> rfl

theorem castleTry_ports (c : Bool) (s : State) : (castleTry c s).ptp.ports = s.ptp.ports := by
  unfold castleTry
  dsimp only
  split
  · exact castleTo_ports _ _ _ _
  · split
    · rw [castleTo_ports, raise_ptp]
    · rw [raise_ptp]

theorem updDom_ports (d : Bool) (f : PtpDom → PtpDom) (s : State) : (updDom d f s).ptp.ports = s.ptp.ports := by
  cases d <;> rfl

theorem reviewBlocked_ports (s : State) : (reviewBlocked s).ptp.ports = s.ptp.ports := by
  unfold reviewBlocked
  dsimp only
  split
  · split
    · rfl
    · split
      · exact castleTo_ports _ _ _ _
      · rfl
  · rfl

theorem startServo_ports (d : Bool) (s : State) : (startServo d s).ptp.ports = s.ptp.ports := by
  unfold startServo
  dsimp only
  split
  · rw [activate_ports, updDom_ports]
  · rw [updDom_ports]

theorem loseDomain_ports (d : Bool) (s : State) : (loseDomain d s).ptp.ports = s.ptp.ports := by
  have : (reviewBlocked (raise .ptpMasterLost (if d then 1 else 0)
      (updDom d (fun k => { k with servo := 4, parent := none }) s))).ptp.ports = s.ptp.ports := by
    rw [reviewBlocked_ports, raise_ptp, updDom_ports]
  unfold loseDomain
  dsimp only
  generalize reviewBlocked (raise .ptpMasterLost (if d then 1 else 0)
      (updDom d (fun k => { k with servo := 4, parent := none }) s)) = u at this ⊢
  split
  · split
    · rw [castleTry_ports]
      exact this
    · exact this
  · exact this

theorem takeMaster_ports (d l : Bool) (s : State) : (takeMaster d l s).ptp.ports = s.ptp.ports := by
  unfold takeMaster
  dsimp only
  split
  · split
    · split
      · exact updDom_ports _ _ _
      · rw [startServo_ports, updDom_ports]
    · rfl
  · split
    · rfl
    · split
      · exact loseDomain_ports _ _
      · unfold idleServo
        rw [reviewBlocked_ports, updDom_ports]

theorem runBmca_port (d l : Bool) (s : State) :
    (∀ q e, ∃ v, portDom q e (runBmca d l s) = { portDom q e s with state := v }) ∧
    (∀ q, ∃ x y, ptpPort q (runBmca d l s) = { ptpPort q s with dom0 := x, dom1 := y }) := by
  unfold runBmca
  split
  · have z := setStates_port d (bestPort d s) (List.range 8) s
    have pt := takeMaster_ports d l (setStates d (bestPort d s) (List.range 8) s)
    refine ⟨fun q e => ?_, fun q => ?_⟩
    · obtain ⟨v, k⟩ := z.1 q e
      refine ⟨v, ?_⟩
      rw [← k]
      simp only [portDom, ptpPort, pt]
    · obtain ⟨x, y, k⟩ := z.2.1 q
      refine ⟨x, y, ?_⟩
      rw [← k]
      simp only [ptpPort, pt]
  · exact ⟨fun q e => ⟨_, rfl⟩, fun q => ⟨_, _, rfl⟩⟩

theorem to1 (s : State) (p : Fin 8) (d : Bool) (hI : Inv s) (hr : ptpRuns s = true) (ha : (portDom p d s).pdelay.awaiting = true) :
    let n := (portDom p d s).pdelay.timeouts + 1
    ∃ t, exec (.pdelayTimeout p d) s = .next t ∧ (n ≠ 3 → Frame [.ptp] s t) ∧
      (portDom p d t).pdelay = { (portDom p d s).pdelay with
        awaiting := false, timeouts := n, excluded := decide (3 ≤ n) } ∧
      (ptpPort p t).pdelayTo = satInc (ptpPort p s).pdelayTo := by
  intro n
  have hp : p.val < s.ptp.ports.length := by rw [port_len hI]; exact p.isLt
  refine ⟨pdelayTimeout p d s, by simp only [exec, execPdelayTimeout, hr, ha, Bool.and_self, if_true], ?_⟩
  have f : ∀ t : State, ∃ x, updPortDom p d (fun x => { x with pdelay := { x.pdelay with
    awaiting := false, timeouts := n, excluded := decide (3 ≤ n) } }) t = { t with ptp := x } := fun t => ⟨_, rfl⟩
  unfold pdelayTimeout
  dsimp only
  generalize hu : updPort p (fun k => { k with pdelayTo := satInc k.pdelayTo }) s = u
  have hup : p.val < u.ptp.ports.length := by rw [← hu]; simpa [updPort, upd_length] using hp
  have e1 : portDom p d u = portDom p d s := by
    rw [← hu]
    simp only [portDom, ptpPort, updPort, nth_upd_same _ _ _ hp]
  have e2 : (ptpPort p u).pdelayTo = satInc (ptpPort p s).pdelayTo := by
    rw [← hu]
    simp only [ptpPort, updPort, nth_upd_same _ _ _ hp]
  have e3 := updPortDom_same p d (fun x => { x with pdelay := { x.pdelay with
    awaiting := false, timeouts := n, excluded := decide (3 ≤ n) } }) u hup
  have e4 : (ptpPort p (updPortDom p d (fun x => { x with pdelay := { x.pdelay with
    awaiting := false, timeouts := n, excluded := decide (3 ≤ n) } }) u)).pdelayTo = satInc (ptpPort p s).pdelayTo := by
    rw [← e2]
    simp only [ptpPort, updPortDom, updPort, nth_upd_same _ _ _ hup]
    cases d <;> rfl
  rw [e1] at e3
  by_cases h3 : n = 3
  · have h3' : (portDom p d s).pdelay.timeouts + 1 = 3 := h3
    rw [if_pos h3']
    refine ⟨fun k => absurd h3 k, ?_, ?_⟩
    · obtain ⟨v, k⟩ := (runBmca_port d true (updPortDom p d (fun x => { x with pdelay := { x.pdelay with
    awaiting := false, timeouts := n, excluded := decide (3 ≤ n) } }) u)).1 p d
      have := congrArg (·.pdelay) k
      refine this.trans ?_
      rw [e3]
    · obtain ⟨x, y, k⟩ := (runBmca_port d true (updPortDom p d (fun x => { x with pdelay := { x.pdelay with
    awaiting := false, timeouts := n, excluded := decide (3 ≤ n) } }) u)).2 p
      have := congrArg (·.pdelayTo) k
      refine this.trans e4
  · have h3' : ¬ (portDom p d s).pdelay.timeouts + 1 = 3 := h3
    rw [if_neg h3']
    refine ⟨fun _ => ?_, congrArg (·.pdelay) e3, e4⟩
    rw [← hu]
    intro k hk
    cases k <;> first | rfl | cases hk

theorem foldl_none {α β : Type} (f : Option β → α → Option β) (l : List α) (h : ∀ x ∈ l, f none x = none) :
    l.foldl f none = none := by
  induction l with
  | nil => rfl
  | cons x l ih =>
    rw [List.foldl_cons, h x (by simp)]
    exact ih (fun y hy => h y (by simp [hy]))

theorem find_none_of {l : List Nat} {f : Nat → Bool} (h : ∀ q ∈ l, f q = false) : l.find? f = none := by
  simp only [List.find?_eq_none]
  intro x hx
  rw [h x hx]
  decide

theorem decide1_none (p : Nat) (d : Bool) (s : State) : decide1 p d none s ≠ 9 := by
  unfold decide1
  dsimp only
  split
  · decide
  · split <;> decide

theorem setStates_none (d : Bool) (l : List Nat) (s : State) (q : Nat) (hq : (portDom q d s).state ≠ 9 ∨ q ∈ l)
    (hl : q < s.ptp.ports.length) :
    (portDom q d (setStates d none l s)).state ≠ 9 := by
  induction l generalizing s with
  | nil =>
    rcases hq with h | h
    · exact h
    · cases h
  | cons p ps ih =>
    simp only [setStates]
    generalize hst : (if (ptpPort p s).enabled = false ∨ domEnabled d s = false then (3 : BitVec 4)
      else if forwarding p s = false then 3 else if (portDom p d s).pdelay.excluded = true then 4 else decide1 p d none s) = st
    have h9 : st ≠ 9 := by
      rw [← hst]
      split
      · decide
      · split
        · decide
        · split
          · decide
          · exact decide1_none _ _ _
    refine ih _ ?_ (by simpa [updPortDom, updPort, upd_length] using hl)
    by_cases hp : q = p
    · left
      subst hp
      rw [updPortDom_same _ _ _ _ hl]
      exact h9
    · rcases hq with h | h
      · left
        have : portDom q d (updPortDom p d (fun k => { k with state := st }) s) = portDom q d s := by
          simp only [portDom, ptpPort, updPortDom, updPort, nth_upd_other _ _ _ (Ne.symm hp)]
        rw [this]
        exact h
      · right
        simpa [hp] using h

theorem bestPort_none (d : Bool) (s : State) (h : ∀ q, q < 8 → (portDom q d s).foreign = []) : bestPort d s = none := by
  unfold bestPort
  apply foldl_none
  intro p hp
  have hp8 : p < 8 := by
    simp only [bmcaPorts, List.mem_filter, List.mem_range] at hp
    exact hp.1
  have : bestOf p d s = none := by
    unfold bestOf
    rw [h p hp8]
    rfl
  rw [this]

theorem lose_quiet (d : Bool) (s : State) (h1 : s.ptp.castleSt ≠ .blocked) (h2 : s.ptp.autoCastle = false) :
    ∃ x, loseDomain d s = { raise .ptpMasterLost (if d then 1 else 0)
        (updDom d (fun k => { k with servo := 4, parent := none }) s) with ptp := x } ∧
      (domOf d { s with ptp := x }).servo = 4 ∧ (domOf d { s with ptp := x }).parent = none ∧
      (s.ptp.activeDom = d → s.tmb.owner = 1 → s.ptp.holdover = false → x.lostAt = some (localNow s)) := by
  unfold loseDomain
  have hr : reviewBlocked (raise .ptpMasterLost (if d then 1 else 0)
      (updDom d (fun k => { k with servo := 4, parent := none }) s)) = raise .ptpMasterLost (if d then 1 else 0)
      (updDom d (fun k => { k with servo := 4, parent := none }) s) := by
    unfold reviewBlocked
    rw [raise_ptp]
    have : (updDom d (fun k => { k with servo := 4, parent := none }) s).ptp.castleSt = s.ptp.castleSt := by
      cases d <;> rfl
    rw [this]
    exact if_neg h1
  dsimp only
  rw [hr]
  have hp := raise_ptp .ptpMasterLost (if d then 1 else 0) (updDom d (fun k => { k with servo := 4, parent := none }) s)
  have ht : (raise .ptpMasterLost (if d then 1 else 0) (updDom d (fun k => { k with servo := 4, parent := none }) s)).tmb = s.tmb := by
    obtain ⟨q, o, n, z⟩ := raiseAt_evt .ptpMasterLost 0 (if d then 1 else 0) (updDom d (fun k => { k with servo := 4, parent := none }) s)
    unfold raise
    rw [z]
    cases d <;> rfl
  generalize raise .ptpMasterLost (if d then 1 else 0) (updDom d (fun k => { k with servo := 4, parent := none }) s) = u at hp ht ⊢
  have ea : u.ptp.activeDom = s.ptp.activeDom := by rw [hp]; cases d <;> rfl
  have eh : u.ptp.holdover = s.ptp.holdover := by rw [hp]; cases d <;> rfl
  have ec : u.ptp.autoCastle = false := by rw [hp, ← h2]; cases d <;> rfl
  have en : localNow u = localNow s := by simp only [localNow, ht]
  have eo : u.tmb.owner = s.tmb.owner := by rw [ht]
  rw [ea, eh, eo, ec, en]
  by_cases c : s.ptp.activeDom = d ∧ s.tmb.owner = 1 ∧ s.ptp.holdover = false
  · rw [if_pos c]
    simp only [Bool.false_and, Bool.false_eq_true, if_false]
    refine ⟨_, rfl, ?_, ?_, fun _ _ _ => rfl⟩ <;> simp only [domOf, hp] <;> cases d <;> rfl
  · rw [if_neg c]
    refine ⟨u.ptp, rfl, ?_, ?_, fun a b e => absurd ⟨a, b, e⟩ c⟩ <;> simp only [domOf, hp] <;> cases d <;> rfl

theorem ml1 (s : State) (d : Bool) (p : Nat) (hI : Inv s) (hr : ptpRuns s = true) (hb : bmcaRole s = true) (hd : domEnabled d s = true)
    (hm : masterTimedOut d s = true) (hp : (domOf d s).parent = some p) (hc : s.ptp.castleSt ≠ .blocked) (ha : s.ptp.autoCastle = false)
    (hf : ∀ q, q < 8 → ∀ f ∈ (portDom q d s).foreign, q = p ∧ f.sender = (domOf d s).master) (hp8 : p < 8) :
    ∃ t, exec (.masterLost d) s = .next t ∧ Frame [.ptp, .evt] s t ∧ (domOf d t).servo = 4 ∧
      (domOf d t).parent = none ∧ Reported .ptpMasterLost 0 (if d then 1 else 0) s t ∧
      (s.ptp.activeDom = d → s.tmb.owner = 1 → s.ptp.holdover = false → t.ptp.lostAt = some (localNow s)) := by
  have hl := port_len hI
  generalize hg : (fun x : PortDom => { x with foreign := x.foreign.filter (fun f => f.sender != (domOf d s).master), since := localNow s }) = g
  have hx : exec (.masterLost d) s = .next (runBmca d true (updPortDom p d g s)) := by
    simp only [exec, execMasterLost, hr, hm, Bool.and_self, hp, hg]
  generalize hu : updPortDom p d g s = u at hx
  have hu1 : u = { s with ptp := { s.ptp with ports := u.ptp.ports } } := by rw [← hu]; rfl
  have hul : u.ptp.ports.length = 8 := by rw [← hu, ← hl]; simp [updPortDom, updPort, upd_length]
  have hfo : ∀ q, q < 8 → (portDom q d u).foreign = [] := by
    intro q hq
    by_cases e : q = p
    · subst e
      rw [← hu, updPortDom_same _ _ _ _ (by rw [hl]; exact hq), ← hg]
      simp only [List.filter_eq_nil_iff]
      intro f hfm
      rw [(hf q hq f hfm).2]
      simp
    · have : portDom q d u = portDom q d s := by
        rw [← hu]
        simp only [portDom, ptpPort, updPortDom, updPort, nth_upd_other _ _ _ (Ne.symm e)]
      rw [this]
      cases h : (portDom q d s).foreign with
      | nil => rfl
      | cons f fs => exact absurd (hf q hq f (by rw [h]; simp)).1 e
  have hbp := bestPort_none d u hfo
  have hru : runBmca d true u = takeMaster d true (setStates d none (List.range 8) u) := by
    have e1 : bmcaRole u = true := by rw [hu1]; exact hb
    have e2 : domEnabled d u = true := by rw [hu1]; exact hd
    unfold runBmca
    rw [e1, e2, hbp]
    rfl
  have hz := setStates_port d none (List.range 8) u
  have h9 : ∀ q, q < 8 → (portDom q d (setStates d none (List.range 8) u)).state ≠ 9 := by
    intro q hq
    exact setStates_none d _ u q (Or.inr (by simpa using hq)) (by rw [hul]; exact hq)
  generalize setStates d none (List.range 8) u = v at hru hz h9
  have hv : v = { s with ptp := { s.ptp with ports := v.ptp.ports } } := by
    obtain ⟨_, _, z3, z4, _⟩ := hz
    rw [z4, z3, hu1]
  have hfind : (bmcaPorts d v).find? (fun p => (portDom p d v).state == 9) = none := by
    apply find_none_of
    intro q hq
    have hq8 : q < 8 := by
      simp only [bmcaPorts, List.mem_filter, List.mem_range] at hq
      exact hq.1
    simpa using h9 q hq8
  have hpar : (domOf d v).parent.isNone = false := by
    have : domOf d v = domOf d s := by rw [hv]; rfl
    rw [this, hp]
    rfl
  have htm : takeMaster d true v = loseDomain d v := by
    unfold takeMaster
    rw [hfind]
    dsimp only
    rw [hpar]
    simp
  obtain ⟨x, l1, l2, l3, l4⟩ := lose_quiet d v (by rw [hv]; exact hc) (by rw [hv]; exact ha)
  rw [hru, htm] at hx
  refine ⟨_, hx, ?_⟩
  rw [l1]
  have el : localNow v = localNow s := by rw [hv]; rfl
  have rep : Reported .ptpMasterLost 0 (if d then 1 else 0) s (raise .ptpMasterLost (if d then 1 else 0)
        (updDom d (fun k => { k with servo := 4, parent := none }) v)) := by
    unfold raise
    apply raiseAt_reported
    · rw [hv]; cases d <;> exact ⟨rfl, rfl⟩
    · rw [hv]; cases d <;> rfl
    · intro _
      simp [pendSet, setPend, Ev.pendAt, setBit]
  obtain ⟨q, o, n, z⟩ := raiseAt_evt .ptpMasterLost 0 (if d then 1 else 0) (updDom d (fun k => { k with servo := 4, parent := none }) v)
  unfold raise at rep ⊢
  rw [z] at rep ⊢
  refine ⟨?_, ?_, ?_, rep, ?_⟩
  · rw [hv]
    intro k hk
    cases d <;> cases k <;> first | rfl | cases hk
  · exact l2
  · exact l3
  · intro a b c
    rw [← el]
    exact l4 (by rw [hv]; exact a) (by rw [hv]; exact b) (by rw [hv]; exact c)

theorem castleTo_spec (c : Bool) (δ : Int) (how : Nat) (s : State) (h : how ≠ 3) :
    let t := castleTo c δ how s
    Frame [.free, .tmb, .ptp, .evt] s t ∧ t.ptp.activeDom = c ∧ t.ptp.castleLast = BitVec.ofNat 3 how ∧
      t.ptp.castleSt = (if δ = 0 then .idle else if how = 2 then .decidedSlew else .residualSlew) ∧
      t.ptp.castleCnt = satInc s.ptp.castleCnt ∧ (δ ≠ 0 → t.tmb.slew = some { neg := decide (δ < 0), ppm := castlePpm s, remain := δ.natAbs * 4294967296 * slewUnit }) ∧ t.tmb.secs = s.tmb.secs ∧ t.tmb.ns = s.tmb.ns ∧
      Reported .castle 0 (intWord δ) s t := by
  unfold castleTo
  dsimp only [raise]
  simp only [h, if_false, false_or]
  have hs : ∀ a b : State, a.tmb.secs = b.tmb.secs ∧ a.tmb.ns = b.tmb.ns → pendSet Ev.castle.pendAt 0 a = pendSet Ev.castle.pendAt 0 b →
    Reported .castle 0 (intWord δ) b (raiseAt .castle 0 (intWord δ) a) := by
      intro a b h1 h2
      apply raiseAt_reported
      · exact h1
      · exact h2
      · intro _
        simp [pendSet, setPend, Ev.pendAt, setBit]
  have key : ∀ u : State, Frame [.free, .tmb, .ptp, .evt] s u → u.evt = s.evt → u.tmb.secs = s.tmb.secs → u.tmb.ns = s.tmb.ns →
      Frame [.free, .tmb, .ptp, .evt] s (raiseAt .castle 0 (intWord δ) u) ∧ (raiseAt .castle 0 (intWord δ) u).ptp = u.ptp ∧
      (raiseAt .castle 0 (intWord δ) u).tmb = u.tmb ∧ Reported .castle 0 (intWord δ) s (raiseAt .castle 0 (intWord δ) u) := by
    intro u f fe f1 f2
    have rep := hs u s ⟨f1, f2⟩ (by simp only [pendSet, Ev.pendAt, fe])
    obtain ⟨q, o, k, z⟩ := raiseAt_evt .castle 0 (intWord δ) u
    rw [z] at rep ⊢
    refine ⟨?_, rfl, rfl, rep⟩
    intro p hp
    have := f p hp
    cases p <;> first | exact this | cases hp
  obtain ⟨k1, k2, k3, k4⟩ := key { slewTime δ (castlePpm s) (activate c s) with
    ptp := { (slewTime δ (castlePpm s) (activate c s)).ptp with
      castleSt := if δ = 0 then CastleSt.idle else if how = 2 then CastleSt.decidedSlew else CastleSt.residualSlew,
      castleCnt := satInc (slewTime δ (castlePpm s) (activate c s)).ptp.castleCnt, castleLast := BitVec.ofNat 3 how } } (by
        intro p hp
        cases p <;> first | rfl | cases hp) rfl rfl rfl
  refine ⟨k1, ?_, ?_, ?_, ?_, ?_, ?_, ?_, k4⟩
  · rw [k2]; rfl
  · rw [k2]
  · rw [k2]
  · rw [k2]; rfl
  · intro hδ
    rw [k3]
    simp only [slewTime, hδ, if_false]
  · rw [k3]; rfl
  · rw [k3]; rfl

theorem dec_do (w : Nat) (δ : Int) (s : State) (hb : s.ptp.castleSt = .blocked) (ho : s.tmb.owner = 1) (hw : w ≠ 3)
    (hd : ofsDevNs (domOf s.ptp.cand s) s.free = δ) :
    ∃ x, ptpDecide w s = { castleTo s.ptp.cand δ (w + 1) s with ptp := { (castleTo s.ptp.cand δ (w + 1) s).ptp with
        decisionThisCycle := x } } := by
  unfold ptpDecide
  rw [if_pos ⟨hb, ho⟩, if_neg hw, hd]
  exact ⟨_, rfl⟩

theorem dec_slew (δ : Int) (s : State) (hc : coreAnswers s = true) (hb : s.ptp.castleSt = .blocked) (ho : s.tmb.owner = 1)
    (hd : ofsDevNs (domOf s.ptp.cand s) s.free = δ) (h0 : δ ≠ 0) :
    ∃ t, exec .decideSlew s = .next t ∧ Frame [.free, .tmb, .ptp, .evt] s t ∧ t.ptp.activeDom = s.ptp.cand ∧
          t.ptp.castleLast = 2 ∧ t.ptp.castleSt = .decidedSlew ∧ t.ptp.castleCnt = satInc s.ptp.castleCnt ∧
          t.tmb.slew = some { neg := decide (δ < 0), ppm := castlePpm s,
                              remain := δ.natAbs * 4294967296 * slewUnit } ∧
          t.tmb.secs = s.tmb.secs ∧ t.tmb.ns = s.tmb.ns := by
  obtain ⟨x, he⟩ := dec_do 1 δ s hb ho (by decide) hd
  obtain ⟨k1, k2, k3, k4, k5, k6, k7, k8, k9⟩ := castleTo_spec s.ptp.cand δ 2 s (by decide)
  generalize castleTo s.ptp.cand δ 2 s = u at he k1 k2 k3 k4 k5 k6 k7 k8 k9
  refine ⟨{ u with ptp := { u.ptp with decisionThisCycle := x } }, by simp only [exec, execDecideSlew, ifCore, hc, if_true]; rw [he], ?_, k2, k3, ?_, k5, k6 h0, k7, k8⟩
  · intro p hp
    have := k1 p hp
    cases p <;> first | exact this | cases hp
  · show u.ptp.castleSt = _
    rw [k4, if_neg h0]
    rfl

theorem dec_step (δ : Int) (s : State) (hc : coreAnswers s = true) (hb : s.ptp.castleSt = .blocked) (ho : s.tmb.owner = 1)
    (hd : ofsDevNs (domOf s.ptp.cand s) s.free = δ) :
    ∃ t, exec .decideStep s = .next t ∧ Frame [.free, .tmb, .ptp, .evt] s t ∧ t.ptp.activeDom = s.ptp.cand ∧
        t.ptp.castleLast = 3 ∧ t.ptp.castleSt = .idle ∧ t.tmb.localCnt = s.tmb.localCnt + 1 := by
  obtain ⟨x, he⟩ := dec_do 2 δ s hb ho (by decide) hd
  refine ⟨{ castleTo s.ptp.cand δ (2 + 1) s with ptp := { (castleTo s.ptp.cand δ (2 + 1) s).ptp with decisionThisCycle := x } }, by simp only [exec, execDecideStep, ifCore, hc, if_true]; rw [he], ?_⟩
  have hs : castleTo s.ptp.cand δ 3 s = raiseAt .castle 0 (intWord δ) { stepTime δ (activate s.ptp.cand s) with ptp := { (stepTime δ (activate s.ptp.cand s)).ptp with
        castleSt := .idle, castleCnt := satInc (stepTime δ (activate s.ptp.cand s)).ptp.castleCnt, castleLast := 3 } } := by
    unfold castleTo raise
    simp only [if_true, true_or]
    rfl
  have hu : ∃ a b c, stepTime δ (activate s.ptp.cand s) = { s with free := a, tmb := b, ptp := c } ∧ c.activeDom = s.ptp.cand ∧ b.localCnt = s.tmb.localCnt + 1 :=
    ⟨_, _, _, rfl, rfl, rfl⟩
  obtain ⟨a, b, c, hu, h1, h2⟩ := hu
  rw [hu] at hs
  obtain ⟨q, o, k, z⟩ := raiseAt_evt .castle 0 (intWord δ) { s with
    free := a, tmb := b, ptp := { c with castleSt := .idle, castleCnt := satInc c.castleCnt, castleLast := 3 } }
  have hs' := hs.trans z
  generalize castleTo s.ptp.cand δ (2 + 1) s = u at hs' ⊢
  rw [hs']
  refine ⟨?_, h1, rfl, rfl, h2⟩
  intro p hp
  cases p <;> first | rfl | cases hp

end Sys2Proof.Laws
end

