-- ==== Sys2Proof/Laws/Ports.lean ====
section
/-!
SUPPORT. Links, resignation and reinstatement.
-/

namespace Sys2Proof.Laws

open Sys2Proof.Machine Sys2Proof.Safety

theorem ethAt_upd_same (p : Nat) (f : EthPort → EthPort) (s : State) (h : p < s.eth.length) :
    ethAt p (updEth p f s) = f (ethAt p s) := nth_upd_same _ _ _ h

theorem ethAt_upd_other (p q : Nat) (f : EthPort → EthPort) (s : State) (h : q ≠ p) :
    ethAt q (updEth p f s) = ethAt q s := nth_upd_other _ _ _ (Ne.symm h)

theorem frameEthEvt (s : State) (e : List EthPort) (v : EvtBlk) : Frame [.eth, .evt] s { s with eth := e, evt := v } := by
  intro k hk
  cases k <;> first | rfl | cases hk

theorem frameEth' (s : State) (e : List EthPort) : Frame [.eth] s { s with eth := e } := by
  intro k hk
  cases k <;> first | rfl | cases hk

/-- What the queues of a port and its counter 14 do not touch. -/
def keepE (k : EthPort) : EthPort :=
  { k with queues := [], cnt := upd (fun _ => 0) k.cnt 14 }

def SameE (s t : State) : Prop := (∀ q, keepE (ethAt q t) = keepE (ethAt q s)) ∧ t.eth.length = s.eth.length ∧ t.evt = s.evt ∧ t.tmb = s.tmb ∧ t.pwr = s.pwr ∧ t.pos = s.pos ∧ t.ptp = s.ptp

theorem SameE_refl (s : State) : SameE s s := ⟨fun _ => rfl, rfl, rfl, rfl, rfl, rfl, rfl⟩

theorem SameE_trans {a b c : State} (h : SameE a b) (k : SameE b c) : SameE a c :=
  ⟨fun q => (k.1 q).trans (h.1 q), k.2.1.trans h.2.1, k.2.2.1.trans h.2.2.1, k.2.2.2.1.trans h.2.2.2.1, k.2.2.2.2.1.trans h.2.2.2.2.1, k.2.2.2.2.2.1.trans h.2.2.2.2.2.1, k.2.2.2.2.2.2.trans h.2.2.2.2.2.2⟩

theorem SameE_eth (s : State) (p : Nat) (f : EthPort → EthPort) (h : ∀ k, keepE (f k) = keepE k) : SameE s (updEth p f s) := by
  refine ⟨fun q => ?_, upd_length _ _ _, rfl, rfl, rfl, rfl, rfl⟩
  rcases nth_upd_or .reset f s.eth p q with z | z
  · show keepE (nth .reset (upd f s.eth p) q) = _
    rw [z]; rfl
  · show keepE (nth .reset (upd f s.eth p) q) = _
    rw [z, h]; rfl

theorem SameE_count (p : Nat) (s : State) : SameE s (portCount p 14 s) := by
  refine SameE_eth s p (fun e => { e with cnt := upd satInc e.cnt 14 }) (fun k => ?_)
  have : ∀ (l : List (BitVec 32)) (i : Nat), upd (fun _ => 0) (upd satInc l i) i = upd (fun _ => 0) l i := by
    intro l
    induction l with
    | nil => intro i; rfl
    | cons x l ih =>
      intro i
      cases i with
      | zero => rfl
      | succ i => simp only [upd, ih]
  simp only [keepE, this]

theorem SameE_drop (i : Nat) (s : State) : SameE s (dropCopy i s) := by
  unfold dropCopy freeMsg
  split
  · exact SameE_refl s
  · split <;> exact ⟨fun _ => rfl, rfl, rfl, rfl, rfl, rfl, rfl⟩

theorem SameE_setQueue (p c : Nat) (q : List QEntry) (s : State) (h : p ≤ 8) : SameE s (setQueue p c q s) := by
  simp only [setQueue, h, if_true]
  exact SameE_eth s p (fun k => { k with queues := upd (fun _ => q) k.queues c }) (fun k => rfl)

theorem queueOf_setQueue_same (p c : Nat) (s : State) (h : p ≤ 8) : queueOf p c (setQueue p c [] s) = [] := by
  simp only [setQueue, h, if_true, queueOf, queuesOf]
  have z : ∀ (l : List (List QEntry)) (i : Nat), nth [] (upd (fun _ => []) l i) i = [] := by
    intro l
    induction l with
    | nil => intro i; rfl
    | cons x l ih =>
      intro i
      cases i with
      | zero => rfl
      | succ i => exact ih i
  rcases nth_upd_or .reset (fun k : EthPort => { k with queues := upd (fun _ => []) k.queues c }) s.eth p p with k | k
  · rw [k]
    by_cases hl : p < s.eth.length
    · have := nth_upd_same EthPort.reset (fun k : EthPort => { k with queues := upd (fun _ => []) k.queues c }) s.eth hl
      rw [k] at this
      rw [this]
      exact z _ _
    · have : ∀ (l : List EthPort) (i : Nat), ¬ i < l.length → nth .reset l i = .reset := by
        intro l
        induction l with
        | nil => intro i _; rfl
        | cons x l ih =>
          intro i hi
          cases i with
          | zero => exact absurd (Nat.succ_pos _) hi
          | succ i => exact ih i (fun h => hi (Nat.succ_lt_succ h))
      rw [this _ _ hl]
      show nth [] (List.replicate 6 []) c = []
      have : ∀ (n c : Nat), nth ([] : List QEntry) (List.replicate n []) c = [] := by
        intro n
        induction n with
        | zero => intro c; rfl
        | succ n ih => intro c; cases c with
          | zero => rfl
          | succ c => exact ih c
      exact this _ _
  · rw [k]
    exact z _ _

theorem queueOf_setQueue_other (p c d : Nat) (q : List QEntry) (s : State) (h : p ≤ 8) (hd : d ≠ c) : queueOf p d (setQueue p c q s) = queueOf p d s := by
  simp only [setQueue, h, if_true, queueOf, queuesOf]
  rcases nth_upd_or .reset (fun k : EthPort => { k with queues := upd (fun _ => q) k.queues c }) s.eth p p with k | k
  · rw [k]
  · rw [k]
    exact nth_upd_other _ _ _ (Ne.symm hd)

theorem queueOf_updEth (p q c : Nat) (f : EthPort → EthPort) (s : State) (h : ∀ k, (f k).queues = k.queues) (hp : p ≤ 8) :
    queueOf p c (updEth q f s) = queueOf p c s := by
  simp only [queueOf, queuesOf, hp, if_true, updEth]
  rcases nth_upd_or .reset f s.eth q p with k | k
  · rw [k]
  · rw [k, h]

theorem outDiscards_same (p : Nat) (l : List QEntry) (s : State) : SameE s (outDiscards p l s) ∧ (∀ r c, r ≤ 8 → queueOf r c (outDiscards p l s) = queueOf r c s) := by
  induction l generalizing s with
  | nil => exact ⟨SameE_refl s, fun _ _ _ => rfl⟩
  | cons q qs ih =>
    simp only [outDiscards]
    obtain ⟨a, b⟩ := ih (dropCopy q.msg (portCount p 14 s))
    refine ⟨SameE_trans (SameE_trans (SameE_count p s) (SameE_drop _ _)) a, fun r c hr => ?_⟩
    rw [b r c hr]
    have e1 : queueOf r c (dropCopy q.msg (portCount p 14 s)) = queueOf r c (portCount p 14 s) := by
      unfold dropCopy freeMsg
      split
      · rfl
      · split <;> simp only [queueOf, queuesOf, hr, if_true, updCls]
    rw [e1]
    exact queueOf_updEth r p c (fun e => { e with cnt := upd satInc e.cnt 14 }) s (fun _ => rfl) hr

theorem leaveQueue_same (p c : Nat) (s : State) (h : p ≤ 8) : SameE s (leaveQueue p c s) ∧
    (c ≠ 5 → queueOf p c (leaveQueue p c s) = []) ∧ (∀ d, d ≠ c → queueOf p d (leaveQueue p c s) = queueOf p d s) := by
  unfold leaveQueue
  dsimp only
  obtain ⟨a, b⟩ := outDiscards_same p (if c = 5 ∧ kingHeld p s = true then (queueOf p c s).filter (fun x => isRingCopy p x s) else queueOf p c s)
    (setQueue p c (if c = 5 ∧ kingHeld p s = true then (queueOf p c s).filter (fun x => !isRingCopy p x s) else []) s)
  refine ⟨SameE_trans (SameE_setQueue p c _ s h) a, fun hc => ?_, fun d hd => ?_⟩
  · rw [b p c h, if_neg (fun z => hc z.1)]
    exact queueOf_setQueue_same p c s h
  · rw [b p d h]
    exact queueOf_setQueue_other p c d _ s h hd

theorem leaveForwarding_same (p : Nat) (s : State) (h : p ≤ 8) : SameE s (leaveForwarding p s) ∧ (∀ c, c < 5 → queueOf p c (leaveForwarding p s) = []) := by
  simp only [leaveForwarding, List.foldl_cons, List.foldl_nil]
  generalize h5 : leaveQueue p 5 s = s5
  generalize h4 : leaveQueue p 4 s5 = s4
  generalize h3 : leaveQueue p 3 s4 = s3
  generalize h2 : leaveQueue p 2 s3 = s2
  generalize h1 : leaveQueue p 1 s2 = s1
  generalize h0 : leaveQueue p 0 s1 = s0
  have z5 := leaveQueue_same p 5 s h
  have z4 := leaveQueue_same p 4 s5 h
  have z3 := leaveQueue_same p 3 s4 h
  have z2 := leaveQueue_same p 2 s3 h
  have z1 := leaveQueue_same p 1 s2 h
  have z0 := leaveQueue_same p 0 s1 h
  rw [h5] at z5; rw [h4] at z4; rw [h3] at z3; rw [h2] at z2; rw [h1] at z1; rw [h0] at z0
  refine ⟨SameE_trans (SameE_trans (SameE_trans (SameE_trans (SameE_trans z5.1 z4.1) z3.1) z2.1) z1.1) z0.1, ?_⟩
  intro c hc
  have : c = 0 ∨ c = 1 ∨ c = 2 ∨ c = 3 ∨ c = 4 := by omega
  rcases this with rfl | rfl | rfl | rfl | rfl
  · exact z0.2.1 (by decide)
  · rw [z0.2.2 1 (by decide)]; exact z1.2.1 (by decide)
  · rw [z0.2.2 2 (by decide), z1.2.2 2 (by decide)]; exact z2.2.1 (by decide)
  · rw [z0.2.2 3 (by decide), z1.2.2 3 (by decide), z2.2.2 3 (by decide)]; exact z3.2.1 (by decide)
  · rw [z0.2.2 4 (by decide), z1.2.2 4 (by decide), z2.2.2 4 (by decide), z3.2.2 4 (by decide)]; exact z4.2.1 (by decide)

/-! the Timekeeper does not touch the ports -/

theorem raisePend_eth (e : Ev) (d : Word) (s : State) (b : Nat) (h : e.pendAt = .pend b) : (raise e d s).eth = s.eth := by
  obtain ⟨q, o, n, z⟩ := raiseAt_evt e 0 d s
  unfold raise
  rw [z, h]
  rfl

theorem castleTo_eth (c : Bool) (δ : Int) (h : Nat) (s : State) : (castleTo c δ h s).eth = s.eth := by
  unfold castleTo
  dsimp only
  rw [raisePend_eth _ _ _ 6 rfl]
  split <;> rfl

theorem castleTry_eth (c : Bool) (s : State) : (castleTry c s).eth = s.eth := by
  unfold castleTry
  dsimp only
  split
  · exact castleTo_eth _ _ _ _
  · split
    · rw [castleTo_eth, raisePend_eth _ _ _ 7 rfl]
    · rw [raisePend_eth _ _ _ 7 rfl]

theorem updDom_eth (d : Bool) (f : PtpDom → PtpDom) (s : State) : (updDom d f s).eth = s.eth := by
  cases d <;> rfl

theorem reviewBlocked_eth (s : State) : (reviewBlocked s).eth = s.eth := by
  unfold reviewBlocked
  dsimp only
  split
  · split
    · rfl
    · split
      · exact castleTo_eth _ _ _ _
      · rfl
  · rfl

theorem startServo_eth (d : Bool) (s : State) : (startServo d s).eth = s.eth := by
  unfold startServo
  dsimp only
  split
  · show (updDom _ _ s).eth = _
    exact updDom_eth _ _ _
  · exact updDom_eth _ _ _

theorem loseDomain_eth (d : Bool) (s : State) : (loseDomain d s).eth = s.eth := by
  have : (reviewBlocked (raise .ptpMasterLost (if d then 1 else 0)
      (updDom d (fun k => { k with servo := 4, parent := none }) s))).eth = s.eth := by
    rw [reviewBlocked_eth, raisePend_eth _ _ _ 5 rfl, updDom_eth]
  unfold loseDomain
  dsimp only
  generalize reviewBlocked (raise .ptpMasterLost (if d then 1 else 0)
      (updDom d (fun k => { k with servo := 4, parent := none }) s)) = u at this ⊢
  split
  · split
    · rw [castleTry_eth]
      exact this
    · exact this
  · exact this

theorem setStates_eth (d : Bool) (b : Option (Nat × Foreign)) (l : List Nat) (s : State) : (setStates d b l s).eth = s.eth := by
  rw [(setStates_port d b l s).2.2.2.1]

theorem runBmca_eth (d l : Bool) (s : State) : (runBmca d l s).eth = s.eth := by
  unfold runBmca
  split
  · unfold takeMaster
    dsimp only
    split
    · split
      · split
        · rw [updDom_eth, setStates_eth]
        · rw [startServo_eth, updDom_eth, setStates_eth]
      · exact setStates_eth _ _ _ _
    · split
      · exact setStates_eth _ _ _ _
      · split
        · rw [loseDomain_eth, setStates_eth]
        · unfold idleServo
          rw [reviewBlocked_eth, updDom_eth, setStates_eth]
  · rfl

theorem ptpPortDown_eth (p : Nat) (s : State) : (ptpPortDown p s).eth = s.eth := by
  unfold ptpPortDown
  dsimp only
  split
  · rw [runBmca_eth, runBmca_eth]; rfl
  · rfl

theorem ptpPortDown_off (p : Nat) (s : State) (h : s.ptp.role = 0) : (ptpPortDown p s).evt = s.evt := by
  unfold ptpPortDown
  dsimp only
  rw [if_neg]
  · rfl
  · show ¬ (boardRuns s && (s.ptp.role != 0)) = true
    rw [h]
    simp

theorem ptpPortBack_ptp (p : Nat) (s : State) : ∃ x, ptpPortBack p s = { s with ptp := x } := by
  unfold ptpPortBack
  dsimp only
  split
  · exact ⟨_, rfl⟩
  · exact ⟨s.ptp, rfl⟩

theorem keepE_fields {a b : EthPort} (h : keepE a = keepE b) : a.fwd = b.fwd ∧ a.link = b.link ∧ a.resignCnt = b.resignCnt ∧
    a.cause = b.cause ∧ a.int = b.int ∧ a.lossFrom = b.lossFrom ∧ a.idleUntil = b.idleUntil ∧ nth 0 a.cnt 6 = nth 0 b.cnt 6 ∧ nth 0 a.cnt 7 = nth 0 b.cnt 7 ∧ a.cnt.length = b.cnt.length ∧ (∀ j, j ≠ 14 → nth 0 a.cnt j = nth 0 b.cnt j) := by
  have h6 : upd (fun _ => 0) a.cnt 14 = upd (fun _ => 0) b.cnt 14 := congrArg (·.cnt) h
  have n : ∀ j, j ≠ 14 → nth 0 a.cnt j = nth 0 b.cnt j := by
    intro j hj
    have := congrArg (fun l => nth 0 l j) h6
    simpa only [nth_upd_other _ _ _ (Ne.symm hj)] using this
  have l := congrArg List.length h6
  rw [upd_length, upd_length] at l
  exact ⟨congrArg (·.fwd) h, congrArg (·.link) h, congrArg (·.resignCnt) h, congrArg (·.cause) h, congrArg (·.int) h, congrArg (·.lossFrom) h, congrArg (·.idleUntil) h, n 6 (by decide), n 7 (by decide), l, n⟩

theorem raiseEth_at (e : Ev) (b p : Nat) (d : Word) (s : State) (h : e.pendAt = .eth b) (hl : p < s.eth.length) :
    ethAt p (raiseAt e p d s) = { ethAt p s with int := setBit (ethAt p s).int b } ∧
      (∀ q, q ≠ p → ethAt q (raiseAt e p d s) = ethAt q s) ∧
      (∃ v, raiseAt e p d s = { s with eth := (raiseAt e p d s).eth, evt := v }) ∧
      (raiseAt e p d s).eth.length = s.eth.length := by
  obtain ⟨q, o, n, z⟩ := raiseAt_evt e p d s
  rw [z, h]
  exact ⟨nth_upd_same _ _ _ hl, fun q hq => nth_upd_other _ _ _ (Ne.symm hq), ⟨_, rfl⟩, upd_length _ _ _⟩

theorem reportEth (e : Ev) (b p : Nat) (d : Word) (s0 s : State) (h : e.pendAt = .eth b) (hb : b < 7) (hl : p < s.eth.length)
    (ht : s.tmb = s0.tmb) (hi : (ethAt p s).int = (ethAt p s0).int) : Reported e p d s0 (raiseAt e p d s) := by
  apply raiseAt_reported
  · rw [ht]; exact ⟨rfl, rfl⟩
  · rw [h]
    show (ethAt p s).int.getLsbD b = (ethAt p s0).int.getLsbD b
    rw [hi]
  · intro _
    rw [h]
    show (nth .reset (upd (fun e : EthPort => { e with int := setBit e.int b }) s.eth p) p).int.getLsbD b = true
    rw [nth_upd_same _ _ _ hl]
    exact setBit_self _ _ hb

theorem resign_spec (p c : Nat) (s : State) (hp : p < 8) (hl : p < s.eth.length) (h1 : (ethAt p s).fwd ≠ .disabled) (h2 : (ethAt p s).fwd ≠ .resigned) :
    (∃ k, keepE (ethAt p (resignPort p c s)) = keepE k ∧ k.fwd = .resigned ∧ k.cause = BitVec.ofNat 4 c ∧
      k.resignCnt = satInc (ethAt p s).resignCnt ∧ k.link = (ethAt p s).link ∧ k.lossFrom = (ethAt p s).lossFrom ∧
      k.idleUntil = (ethAt p s).idleUntil ∧ k.cnt = (ethAt p s).cnt ∧ k.int = setBit (ethAt p s).int 1) ∧
      (∀ c', c' < 5 → queueOf p c' (resignPort p c s) = []) ∧
      (s.ptp.role = 0 → Reported .portResign p (BitVec.ofNat 32 (p * 256 + c)) s (resignPort p c s)) ∧
      (resignPort p c s).eth.length = s.eth.length := by
  have hr : resignPort p c s = ptpPortDown p (leaveForwarding p (cleanRestart p
      (raiseAt .portResign p (BitVec.ofNat 32 (p * 256 + c)) (updEth p (fun k => { k with fwd := .resigned, resignCnt := satInc k.resignCnt, cause := BitVec.ofNat 4 c }) s)))) := by
    unfold resignPort
    rw [if_neg (by
      rintro (z | z | z)
      · exact h2 z
      · exact h1 z
      · omega)]
  rw [hr]
  generalize hs1 : updEth p (fun k => { k with fwd := .resigned, resignCnt := satInc k.resignCnt, cause := BitVec.ofNat 4 c }) s = s1
  have hl1 : p < s1.eth.length := by rw [← hs1]; simpa [updEth] using hl
  have e1 : ethAt p s1 = { ethAt p s with fwd := .resigned, resignCnt := satInc (ethAt p s).resignCnt, cause := BitVec.ofNat 4 c } := by
    rw [← hs1]; exact ethAt_upd_same _ _ _ hl
  have rep := reportEth .portResign 1 p (BitVec.ofNat 32 (p * 256 + c)) s s1 rfl (by decide) hl1 (by rw [← hs1]; rfl) (by rw [e1])
  have hrole : s1.ptp.role = s.ptp.role := by rw [← hs1]; rfl
  have hlen : s1.eth.length = s.eth.length := by rw [← hs1]; simp [updEth]
  obtain ⟨r1, r2, ⟨v, r3⟩, r4⟩ := raiseEth_at .portResign 1 p (BitVec.ofNat 32 (p * 256 + c)) s1 rfl hl1
  generalize raiseAt .portResign p (BitVec.ofNat 32 (p * 256 + c)) s1 = s2 at r1 r2 r3 r4 rep ⊢
  have hl2 : p < s2.eth.length := by rw [r4]; exact hl1
  have e3 := ethAt_upd_same p (fun k => { k with
    cleanLeft := msCycles (portCleanMs p s2), cleanFrom := if k.link then some (localNow s2) else none }) s2 hl2
  have z := leaveForwarding_same p (cleanRestart p s2) (by omega)
  have e4 : ∀ q u, ethAt q (ptpPortDown p u) = ethAt q u := fun q u => by simp only [ethAt, ptpPortDown_eth]
  have e5 : ethAt p (cleanRestart p s2) = _ := e3
  refine ⟨⟨ethAt p (cleanRestart p s2), ?_, ?_⟩, fun c hc => ?_, fun h0 => ?_, ?_⟩
  · rw [e4]
    exact z.1.1 p
  · rw [e5, r1, e1]
    exact ⟨rfl, rfl, rfl, rfl, rfl, rfl, rfl, rfl⟩
  · have := z.2 c hc
    simp only [queueOf, queuesOf, show p ≤ 8 by omega, if_true, ptpPortDown_eth] at this ⊢
    exact this
  · have r0 : (leaveForwarding p (cleanRestart p s2)).ptp.role = 0 := by
      rw [z.1.2.2.2.2.2.2]
      show s2.ptp.role = 0
      rw [r3]
      exact hrole.trans h0
    have ev : (ptpPortDown p (leaveForwarding p (cleanRestart p s2))).evt = s2.evt := by
      rw [ptpPortDown_off _ _ r0, z.1.2.2.1]; rfl
    have pe : pendSet (.eth 1) p (ptpPortDown p (leaveForwarding p (cleanRestart p s2))) = pendSet (.eth 1) p s2 := by
      show (ethAt p _).int.getLsbD 1 = (ethAt p s2).int.getLsbD 1
      rw [e4, (keepE_fields (z.1.1 p)).2.2.2.2.1, e5]
    refine ⟨fun k => ?_, fun k => ?_⟩
    · show pendSet (.eth 1) p _ = true
      rw [pe]
      exact rep.1 k
    · rw [ev]
      exact rep.2 k
  · rw [ptpPortDown_eth, z.1.2.1]
    show (upd _ s2.eth p).length = _
    rw [upd_length, r4, hlen]

theorem reinstate_spec (p who : Nat) (s : State) (hl : p < s.eth.length) (h : (ethAt p s).fwd = .resigned) :
    Frame [.eth, .ptp, .evt] s (reinstatePort p who s) ∧ (ethAt p (reinstatePort p who s)).runs = List.replicate 8 0 ∧
      (ethAt p (reinstatePort p who s)).fwd = (if (ethAt p s).link then .forwarding else .down) ∧
      Reported .portReinstate p (BitVec.ofNat 32 (p * 256 + who)) s (reinstatePort p who s) := by
  have hr : ∃ x, reinstatePort p who s = { raiseAt .portReinstate p (BitVec.ofNat 32 (p * 256 + who)) (updEth p (fun k => { k with
      fwd := if k.link then .forwarding else .down, runs := List.replicate 8 0, cleanLeft := 0,
      cleanFrom := none }) s) with ptp := x } := by
    unfold reinstatePort
    dsimp only
    rw [if_pos h]
    split
    · obtain ⟨x, e⟩ := ptpPortBack_ptp p (raiseAt .portReinstate p (BitVec.ofNat 32 (p * 256 + who)) (updEth p (fun k => { k with
      fwd := if k.link then .forwarding else .down, runs := List.replicate 8 0, cleanLeft := 0,
      cleanFrom := none }) s))
      exact ⟨x, e⟩
    · exact ⟨_, rfl⟩
  obtain ⟨x, hr⟩ := hr
  rw [hr]
  generalize hs1 : updEth p (fun k => { k with
      fwd := if k.link then .forwarding else .down, runs := List.replicate 8 0, cleanLeft := 0,
      cleanFrom := none }) s = s1
  have hl1 : p < s1.eth.length := by rw [← hs1]; simpa [updEth] using hl
  have e1 : ethAt p s1 = { ethAt p s with fwd := if (ethAt p s).link then .forwarding else .down, runs := List.replicate 8 0, cleanLeft := 0, cleanFrom := none } := by
    rw [← hs1]; exact ethAt_upd_same _ _ _ hl
  have rep := reportEth .portReinstate 2 p (BitVec.ofNat 32 (p * 256 + who)) s s1 rfl (by decide) hl1 (by rw [← hs1]; rfl) (by rw [e1])
  obtain ⟨r1, r2, ⟨v, r3⟩, r4⟩ := raiseEth_at .portReinstate 2 p (BitVec.ofNat 32 (p * 256 + who)) s1 rfl hl1
  generalize raiseAt .portReinstate p (BitVec.ofNat 32 (p * 256 + who)) s1 = s2 at r1 r2 r3 r4 rep ⊢
  refine ⟨?_, ?_, ?_, rep⟩
  · rw [r3, ← hs1]
    intro k hk
    cases k <;> first | rfl | cases hk
  · show (ethAt p s2).runs = _
    rw [r1, e1]
  · show (ethAt p s2).fwd = _
    rw [r1, e1]

theorem resign_weak (p c : Nat) (s : State) (hp : p < 8) (hl : p < s.eth.length) :
    let e := ethAt p (resignPort p c s)
    e.link = (ethAt p s).link ∧ e.lossFrom = (ethAt p s).lossFrom ∧ e.idleUntil = (ethAt p s).idleUntil ∧
      nth 0 e.cnt 6 = nth 0 (ethAt p s).cnt 6 ∧ (∀ j, j ≠ 14 → nth 0 e.cnt j = nth 0 (ethAt p s).cnt j) ∧
      (e.fwd = (ethAt p s).fwd ∨ e.fwd = .resigned) ∧ ((ethAt p s).int.getLsbD 0 = true → e.int.getLsbD 0 = true) ∧
      (resignPort p c s).eth.length = s.eth.length := by
  intro e
  by_cases h : (ethAt p s).fwd = .resigned ∨ (ethAt p s).fwd = .disabled ∨ 8 ≤ p
  · have : resignPort p c s = s := by
      unfold resignPort
      rw [if_pos h]
    have ee : e = ethAt p s := by simp only [e, this]
    rw [ee, this]
    exact ⟨rfl, rfl, rfl, rfl, fun _ _ => rfl, Or.inl rfl, fun k => k, rfl⟩
  · simp only [not_or] at h
    obtain ⟨⟨k, a0, a1, a2, a3, a4, a5, a6, a7, a8⟩, b, c', d⟩ := resign_spec p c s hp hl h.2.1 h.1
    have f := keepE_fields a0
    refine ⟨f.2.1.trans a4, f.2.2.2.2.2.1.trans a5, f.2.2.2.2.2.2.1.trans a6, f.2.2.2.2.2.2.2.1.trans (by rw [a7]), fun j hj => (f.2.2.2.2.2.2.2.2.2.2 j hj).trans (by rw [a7]), Or.inr (f.1.trans a1), ?_, d⟩
    intro z
    show (ethAt p _).int.getLsbD 0 = true
    rw [f.2.2.2.2.1, a8]
    simp [setBit, z]

theorem errorCount_spec (p i : Nat) (s : State) (hp : p < 8) (hl : p < s.eth.length) (hc : (ethAt p s).cnt.length = 16) (hi : i ≠ 14 ∧ i < 16) :
    let e := ethAt p (errorCount p i s)
    e.link = (ethAt p s).link ∧ e.lossFrom = (ethAt p s).lossFrom ∧ e.idleUntil = (ethAt p s).idleUntil ∧
      nth 0 e.cnt i = satInc (nth 0 (ethAt p s).cnt i) ∧
      (e.fwd = (ethAt p s).fwd ∨ e.fwd = .resigned) ∧ ((ethAt p s).int.getLsbD 0 = true → e.int.getLsbD 0 = true) ∧
      (errorCount p i s).eth.length = s.eth.length := by
  have h1 : ∃ u : State, errorCount p i s = thresholdTest p u ∧ u.eth.length = s.eth.length ∧ (ethAt p u).link = (ethAt p s).link ∧
      (ethAt p u).lossFrom = (ethAt p s).lossFrom ∧ (ethAt p u).idleUntil = (ethAt p s).idleUntil ∧ (ethAt p u).cnt = upd satInc (ethAt p s).cnt i ∧
      (ethAt p u).fwd = (ethAt p s).fwd ∧ (ethAt p u).int = (ethAt p s).int := by
    have e1 : ethAt p (updEth p (fun k => { k with runs := upd (· + 1) k.runs i }) (portCount p i s)) =
        { ethAt p s with cnt := upd satInc (ethAt p s).cnt i, runs := upd (· + 1) (ethAt p s).runs i } := by
      rw [ethAt_upd_same _ _ _ (by simpa [portCount] using hl)]
      have : ethAt p (portCount p i s) = { ethAt p s with cnt := upd satInc (ethAt p s).cnt i } := ethAt_upd_same p (fun e => { e with cnt := upd satInc e.cnt i }) s hl
      rw [this]
    have l1 : (updEth p (fun k => { k with runs := upd (· + 1) k.runs i }) (portCount p i s)).eth.length = s.eth.length := by
      simp [updEth, portCount]
    unfold errorCount
    dsimp only
    generalize updEth p (fun k => { k with runs := upd (· + 1) k.runs i }) (portCount p i s) = v at e1 l1 ⊢
    split
    · have e2 : ethAt p (cleanRestart p v) = _ := ethAt_upd_same p (fun k => { k with
        cleanLeft := msCycles (portCleanMs p v), cleanFrom := if k.link then some (localNow v) else none }) v (by rw [l1]; exact hl)
      refine ⟨_, rfl, ?_, ?_⟩
      · rw [← l1]; exact upd_length _ _ _
      · rw [e2, e1]
        exact ⟨rfl, rfl, rfl, rfl, rfl, rfl⟩
    · refine ⟨_, rfl, l1, ?_⟩
      rw [e1]
      exact ⟨rfl, rfl, rfl, rfl, rfl, rfl⟩
  obtain ⟨u, e, u1, u2, u3, u4, u5, u6, u7⟩ := h1
  rw [e]
  have n : nth 0 (ethAt p u).cnt i = satInc (nth 0 (ethAt p s).cnt i) := by
    rw [u5]
    refine nth_upd_same _ _ _ ?_
    rw [hc]
    omega
  have stay : ∀ u' : State, u' = u → (ethAt p u').link = (ethAt p s).link ∧ (ethAt p u').lossFrom = (ethAt p s).lossFrom ∧ (ethAt p u').idleUntil = (ethAt p s).idleUntil ∧
      nth 0 (ethAt p u').cnt i = satInc (nth 0 (ethAt p s).cnt i) ∧
      ((ethAt p u').fwd = (ethAt p s).fwd ∨ (ethAt p u').fwd = .resigned) ∧ ((ethAt p s).int.getLsbD 0 = true → (ethAt p u').int.getLsbD 0 = true) ∧
      u'.eth.length = s.eth.length := by
    rintro _ rfl
    exact ⟨u2, u3, u4, n, Or.inl u6, fun k => by rw [u7]; exact k, u1⟩
  unfold thresholdTest
  split
  · exact stay u rfl
  · split
    · rename_i j _
      have r := resign_weak p j u hp (by rw [u1]; exact hl)
      refine ⟨r.1.trans u2, r.2.1.trans u3, r.2.2.1.trans u4, ?_, ?_, ?_, r.2.2.2.2.2.2.2.trans u1⟩
      · rw [← n]
        exact r.2.2.2.2.1 i hi.1
      · rcases r.2.2.2.2.2.1 with z | z
        · exact Or.inl (z.trans u6)
        · exact Or.inr z
      · intro z
        exact r.2.2.2.2.2.2.1 (by rw [u7]; exact z)
    · exact stay u rfl

theorem cutTransmission_fields (p : Nat) (s : State) (hp : p ≤ 8) (hl : p < s.eth.length) :
    let t := cutTransmission p s
    ∃ k, keepE (ethAt p t) = keepE k ∧ k.link = (ethAt p s).link ∧ k.fwd = (ethAt p s).fwd ∧ k.int = (ethAt p s).int ∧ k.lossFrom = (ethAt p s).lossFrom ∧
      k.cnt = (ethAt p s).cnt ∧ t.eth.length = s.eth.length := by
  have cf : ∀ f u, SameE u (cutFrame p f u) := by
    intro f u
    unfold cutFrame
    dsimp only
    split
    · exact SameE_trans (SameE_setQueue p 5 _ u hp) (outDiscards_same p _ _).1
    · exact (outDiscards_same p _ _).1
  have fo : ∀ (l : List TxFrame) u, SameE u (l.foldl (fun t f => cutFrame p f t) u) := by
    intro l
    induction l with
    | nil => intro u; exact SameE_refl u
    | cons f l ih => intro u; exact SameE_trans (cf f u) (ih _)
  intro t
  have z := fo (((ethAt p s).leaving ++ (ethAt p s).tx.toList ++ (ethAt p s).preempted.toList).reverse) (updEth p (fun k => { k with tx := none, preempted := none, leaving := [], mpackets := [] }) s)
  refine ⟨_, z.1 p, ?_⟩
  rw [ethAt_upd_same _ _ _ hl]
  refine ⟨rfl, rfl, rfl, rfl, rfl, ?_⟩
  exact z.2.1.trans (upd_length _ _ _)

theorem linkLost_spec (p : Nat) (s : State) (hp : p < 8) (hl : p < s.eth.length) :
    let e := ethAt p (linkLost p s)
    e.link = false ∧ e.fwd ≠ .forwarding ∧ nth 0 e.cnt 6 = nth 0 (ethAt p s).cnt 6 ∧ e.lossFrom = none ∧
      (linkLost p s).eth.length = s.eth.length ∧ e.int = (ethAt p s).int ∧ e.cnt.length = (ethAt p s).cnt.length := by
  intro e
  have hx : ∃ f : EthPort → EthPort, linkLost p s = ptpPortDown p (leaveForwarding p (cutTransmission p (updEth p f s))) ∧
      ∀ k, (f k).link = false ∧ (f k).fwd ≠ .forwarding ∧ (f k).cnt = k.cnt ∧ (f k).lossFrom = none ∧ (f k).int = k.int := by
    refine ⟨_, rfl, fun k => ?_⟩
    refine ⟨rfl, ?_, ?_, rfl, ?_⟩
    · dsimp only
      cases h1 : k.fwd <;> cases h2 : k.cleanFrom <;> simp
    · dsimp only
      cases k.cleanFrom <;> rfl
    · dsimp only
      cases k.cleanFrom <;> rfl
  obtain ⟨f, hx, hf⟩ := hx
  have a0 : ethAt p (updEth p f s) = f (ethAt p s) := ethAt_upd_same _ _ _ hl
  obtain ⟨k, c0, c1, c2, c3, c4, c5, c6⟩ := cutTransmission_fields p (updEth p f s) (by omega) (by simpa [updEth] using hl)
  have z := leaveForwarding_same p (cutTransmission p (updEth p f s)) (by omega)
  have ee : e = ethAt p (leaveForwarding p (cutTransmission p (updEth p f s))) := by
    simp only [e, hx, ethAt, ptpPortDown_eth]
  have ke : keepE e = keepE k := by rw [ee]; exact (z.1.1 p).trans c0
  have g := keepE_fields ke
  rw [a0] at c1 c2 c3 c4 c5
  have hff := hf (ethAt p s)
  refine ⟨g.2.1.trans (c1.trans hff.1), ?_, ?_, g.2.2.2.2.2.1.trans (c4.trans hff.2.2.2.1), ?_, g.2.2.2.2.1.trans (c3.trans hff.2.2.2.2), ?_⟩
  · rw [g.1, c2]
    exact hff.2.1
  · rw [g.2.2.2.2.2.2.2.1, c5, hff.2.2.1]
  · rw [hx, ptpPortDown_eth, z.1.2.1, c6]
    exact upd_length _ _ _
  · rw [g.2.2.2.2.2.2.2.2.2.1, c5, hff.2.2.1]

theorem link_ptp (c : Bool) (p : Nat) (u : State) : ∃ x, (if c then ptpPortBack p u else u) = { u with ptp := x } := by
  cases c
  · exact ⟨u.ptp, rfl⟩
  · exact ptpPortBack_ptp p u

theorem linkDown_spec (p : Nat) (run : Bool) (s : State) (hp : p < 8) (hl : p < s.eth.length) (hc : run = true → (ethAt p s).cnt.length = 16) :
    let t := linkDown p run s
    (ethAt p t).link = false ∧ (ethAt p t).fwd ≠ .forwarding ∧ (run = true → nth 0 (ethAt p t).cnt 6 = satInc (nth 0 (ethAt p s).cnt 6)) ∧
      pendSet (.eth 0) p t = true ∧ t.eth.length = s.eth.length := by
  have z := linkLost_spec p s hp hl
  have hl1 : p < (linkLost p s).eth.length := by rw [z.2.2.2.2.1]; exact hl
  obtain ⟨r1, r2, ⟨v, r3⟩, r4⟩ := raiseEth_at .ethLink 0 p (BitVec.ofNat 32 (p * 256)) (linkLost p s) rfl hl1
  unfold linkDown
  dsimp only
  generalize raiseAt .ethLink p (BitVec.ofNat 32 (p * 256)) (linkLost p s) = u at r1 r2 r3 r4 ⊢
  generalize linkLost p s = w at *
  have hlu : p < u.eth.length := by rw [r4]; exact hl1
  have i0 : (ethAt p u).int.getLsbD 0 = true := by
    rw [r1]
    exact setBit_self _ _ (by decide)
  have len : u.eth.length = s.eth.length := r4.trans z.2.2.2.2.1
  split
  · rename_i h
    have hc16 : (ethAt p u).cnt.length = 16 := by
      rw [r1]
      show (ethAt p w).cnt.length = 16
      rw [z.2.2.2.2.2.2]
      exact hc h
    have y := errorCount_spec p 6 u hp hlu hc16 (by decide)
    have f1 : (ethAt p u).fwd ≠ .forwarding := by rw [r1]; exact z.2.1
    refine ⟨y.1.trans (by rw [r1]; exact z.1), ?_, fun _ => ?_, y.2.2.2.2.2.1 i0, y.2.2.2.2.2.2.trans len⟩
    · rcases y.2.2.2.2.1 with q | q
      · rw [q]; exact f1
      · rw [q]; decide
    · rw [y.2.2.2.1, r1]
      show satInc (nth 0 (ethAt p w).cnt 6) = _
      rw [z.2.2.1]
  · rename_i h
    have e1 : ethAt p (portCount p 6 u) = { ethAt p u with cnt := upd satInc (ethAt p u).cnt 6 } := ethAt_upd_same p (fun e => { e with cnt := upd satInc e.cnt 6 }) u hlu
    have l1 : (portCount p 6 u).eth.length = u.eth.length := upd_length _ _ _
    generalize portCount p 6 u = y at e1 l1 ⊢
    have e2 : (ethAt p y).link = false ∧ (ethAt p y).fwd ≠ .forwarding ∧ (ethAt p y).int.getLsbD 0 = true := by
      rw [e1]
      refine ⟨?_, ?_, i0⟩
      · show (ethAt p u).link = false
        rw [r1]
        exact z.1
      · show (ethAt p u).fwd ≠ _
        rw [r1]
        exact z.2.1
    split
    · have e3 : ethAt p (cleanRestart p y) = _ := ethAt_upd_same p (fun k => { k with
        cleanLeft := msCycles (portCleanMs p y), cleanFrom := if k.link then some (localNow y) else none }) y (by rw [l1]; exact hlu)
      refine ⟨by rw [e3]; exact e2.1, by rw [e3]; exact e2.2.1, fun k => absurd k h, ?_, ?_⟩
      · show (ethAt p _).int.getLsbD 0 = true
        rw [e3]
        exact e2.2.2
      · rw [← len, ← l1]
        exact upd_length _ _ _
    · exact ⟨e2.1, e2.2.1, fun k => absurd k h, e2.2.2, l1.trans len⟩

end Sys2Proof.Laws
end

