-- ==== Sys2Proof/Laws/Copies.lean ====
section
/-!
SUPPORT. Copies of one message on several ports.
-/

namespace Sys2Proof.Laws

open Sys2Proof.Machine Sys2Proof.Safety

theorem queueOf_other (p q c d : Nat) (x : QEntry) (s : State) (hp : p ≤ 8) (hq : q ≤ 8) (h : q ≠ p) :
    queueOf q d (joinQueue p c x s) = queueOf q d s := by
  have z : queueOf q d (setQueue p c (queueOf p c s ++ [x]) s) = queueOf q d s := by
    simp only [setQueue, hp, if_true, queueOf, queuesOf, hq]
    rw [nth_upd_other _ _ _ (Ne.symm h)]
  unfold joinQueue notePeak
  dsimp only
  split
  · exact z
  · exact z

theorem joinQueue_port (p q c : Nat) (x : QEntry) (s : State) (hp : p ≤ 8) :
    forwarding q (joinQueue p c x s) = forwarding q s ∧ (ethAt q (joinQueue p c x s)).queues.length = (ethAt q s).queues.length := by
  have z : ∃ e y, joinQueue p c x s = { s with eth := upd e s.eth p, cls := y } ∧ ∀ k, (e k).fwd = k.fwd ∧ (e k).queues.length = k.queues.length := by
    unfold joinQueue notePeak
    dsimp only
    simp only [setQueue, hp, if_true]
    split
    · exact ⟨_, _, rfl, fun k => ⟨rfl, upd_length _ _ _⟩⟩
    · exact ⟨_, _, rfl, fun k => ⟨rfl, upd_length _ _ _⟩⟩
  obtain ⟨e, y, h1, h2⟩ := z
  rw [h1]
  simp only [forwarding, ethAt]
  rcases nth_upd_or .reset e s.eth p q with k | k
  · rw [k]; exact ⟨rfl, rfl⟩
  · rw [k, (h2 _).1]; exact ⟨rfl, (h2 _).2⟩

/-- A pair's engine registers, its sequence number apart. -/
def pairRest (k : EthPair) : EthPair := { k with seq := 0 }

theorem nextPairSeq_spec (p : Nat) (s : State) : (∃ x, (nextPairSeq p s).2 = { s with pairs := x }) ∧
    (∀ k, pairRest (nth .reset (nextPairSeq p s).2.pairs k) = pairRest (nth .reset s.pairs k)) := by
  refine ⟨⟨_, rfl⟩, fun k => ?_⟩
  unfold nextPairSeq
  dsimp only
  rcases nth_upd_or .reset (fun x : EthPair => { x with seq := (nth .reset s.pairs (p / 2)).seq + 1 }) s.pairs (p / 2) k with z | z <;> rw [z] <;> rfl

theorem queueEths_spec (m : Msg) (ps : List Nat) (last : Option (Nat × BitVec 16)) (s : State)
    (h : ∀ p ∈ ps, p ≤ 8 ∧ p < s.eth.length ∧ m.cls.toNat < (ethAt p s).queues.length ∧ forwarding p s = true) (hn : ps.Nodup) :
    ∃ e x y, queueEths m ps last s = { s with eth := e, pairs := x, cls := { s.cls with peaks := y } } ∧
      (∀ k, pairRest (nth .reset x k) = pairRest (nth .reset s.pairs k)) ∧
      (∀ p ∈ ps, ∃ q, (queueOf p m.cls.toNat (queueEths m ps last s)).getLast? = some q ∧ q.msg = m.id) ∧
      (∀ q, q ≤ 8 → q ∉ ps → queueOf q m.cls.toNat (queueEths m ps last s) = queueOf q m.cls.toNat s) := by
  induction ps generalizing last s with
  | nil => exact ⟨s.eth, s.pairs, s.cls.peaks, rfl, fun _ => rfl, fun p hp => absurd hp (List.not_mem_nil), fun _ _ _ => rfl⟩
  | cons p ps ih =>
    have hp := h p (by simp)
    have hnn := List.nodup_cons.1 hn
    have go : ∀ (last' : Option (Nat × BitVec 16)) (seq : BitVec 16) (u : State), (∃ x, u = { s with pairs := x }) →
        (∀ k, pairRest (nth .reset u.pairs k) = pairRest (nth .reset s.pairs k)) →
        ∃ e x y, queueEths m ps last' (queueEth p m seq u) = { s with eth := e, pairs := x, cls := { s.cls with peaks := y } } ∧
          (∀ k, pairRest (nth .reset x k) = pairRest (nth .reset s.pairs k)) ∧
          (∀ r ∈ p :: ps, ∃ q, (queueOf r m.cls.toNat (queueEths m ps last' (queueEth p m seq u))).getLast? = some q ∧ q.msg = m.id) ∧
          (∀ q, q ≤ 8 → q ∉ p :: ps → queueOf q m.cls.toNat (queueEths m ps last' (queueEth p m seq u)) = queueOf q m.cls.toNat s) := by
      rintro last' seq u ⟨x0, hu⟩ hr
      have e0 : u.eth = s.eth := by rw [hu]
      have fw : forwarding p u = true := by simpa only [forwarding, e0] using hp.2.2.2
      have e0' : ∀ r, ethAt r u = ethAt r s := fun r => by simp only [ethAt, e0]
      obtain ⟨e, y, z1, z2⟩ := queueEth_spec p m seq u hp.1 (by rw [e0]; exact hp.2.1) (by rw [e0']; exact hp.2.2.1) fw
      have zj : queueEth p m seq u = joinQueue p m.cls.toNat { msg := m.id, promoted := false, marked := false, seq } u := by
        unfold queueEth
        simp only [fw, if_true]
      have len : (queueEth p m seq u).eth.length = s.eth.length := by
        rw [zj, ← e0]
        have : ∀ c q, (setQueue p c q u).eth.length = u.eth.length := by
          intro c q
          simp only [setQueue, hp.1, if_true, upd_length]
        unfold joinQueue notePeak
        dsimp only
        split <;> exact this _ _
      obtain ⟨e', x', y', k1, k2, k3, k4⟩ := ih last' (queueEth p m seq u) (by
        intro r hr'
        have hh := h r (by simp [hr'])
        have j := joinQueue_port p r m.cls.toNat { msg := m.id, promoted := false, marked := false, seq } u hp.1
        rw [← zj] at j
        refine ⟨hh.1, by rw [len]; exact hh.2.1, by rw [j.2, e0']; exact hh.2.2.1, ?_⟩
        rw [j.1]
        simpa only [forwarding, e0] using hh.2.2.2) hnn.2
      refine ⟨e', x', y', ?_, ?_, ?_, ?_⟩
      · rw [k1, z1, hu]
      · intro k
        rw [k2, z1]
        exact hr k
      · intro r hr'
        rcases List.mem_cons.1 hr' with rfl | hr'
        · refine ⟨{ msg := m.id, promoted := false, marked := false, seq }, ?_, rfl⟩
          rw [k4 r hp.1 hnn.1, z2]
          simp
        · exact k3 r hr'
      · intro q hq hqn
        simp only [List.mem_cons, not_or] at hqn
        rw [k4 q hq hqn.2, zj, queueOf_other p q _ _ _ u hp.1 hq hqn.1]
        simp only [queueOf, queuesOf, hq, if_true, e0]
    simp only [queueEths]
    split
    · exact go _ _ s ⟨s.pairs, rfl⟩ (fun _ => rfl)
    · split
      · split
        · exact go _ _ s ⟨s.pairs, rfl⟩ (fun _ => rfl)
        · exact go _ _ _ (nextPairSeq_spec p s).1 (nextPairSeq_spec p s).2
      · exact go _ _ _ (nextPairSeq_spec p s).1 (nextPairSeq_spec p s).2

/-- A frame of the device's own that finds room is queued on each of its ports. -/
theorem queueOwnOn_sent (kind : MsgKind) (ps : List Nat) (c index : Nat) (bytes : List Byte) (stamp : Stamp)
    (extra : List Byte) (s : State) (hc : c < 6) (ha : (allot c bytes.length s).isSome = true)
    (h : ∀ p ∈ ps, p ≤ 8 ∧ p < s.eth.length ∧ c < (ethAt p s).queues.length ∧ forwarding p s = true) (hn : ps.Nodup) :
    ∃ e x y, queueOwnOn kind ps c index bytes stamp extra s = { s with eth := e, pairs := x, cls := y } ∧
      (∀ k, pairRest (nth .reset x k) = pairRest (nth .reset s.pairs k)) ∧
      ∀ p ∈ ps, Sent kind p c bytes (queueOwnOn kind ps c index bytes stamp extra s) := by
  obtain ⟨⟨own, rest⟩, ha⟩ := Option.isSome_iff_exists.1 ha
  have hc' : (BitVec.ofNat 3 c).toNat = c := by
    rw [BitVec.toNat_ofNat]
    omega
  have key : ∀ (m : Msg) (s' : State), m.cls.toNat = c → (∃ y, s' = { s with cls := y }) → m ∈ s'.cls.msgs →
      m.kind = kind → m.bytes = bytes → ∃ e x y, queueEths m ps none s' = { s with eth := e, pairs := x, cls := y } ∧
      (∀ k, pairRest (nth .reset x k) = pairRest (nth .reset s.pairs k)) ∧
      ∀ p ∈ ps, Sent kind p c bytes (queueEths m ps none s') := by
    rintro m s' h1 ⟨y0, h2⟩ h3 h4 h5
    have h' : ∀ p ∈ ps, p ≤ 8 ∧ p < s'.eth.length ∧ m.cls.toNat < (ethAt p s').queues.length ∧ forwarding p s' = true := by
      rw [h2, h1]
      exact h
    obtain ⟨e, x, y, k1, k2, k3, _⟩ := queueEths_spec m ps none s' h' hn
    refine ⟨e, x, _, by rw [k1, h2], ?_, ?_⟩
    · intro k
      rw [k2, h2]
    · intro p hp
      obtain ⟨q, q1, q2⟩ := k3 p hp
      refine ⟨m, ?_, h4, h5, q, ?_, q2⟩
      · rw [k1]; exact h3
      · rw [← h1]; exact q1
  unfold queueOwnOn
  rw [ha]
  exact key _ _ hc' ⟨_, rfl⟩ (List.mem_append_right _ (List.mem_singleton.2 rfl)) rfl rfl

theorem queueEth_any (p : Nat) (m : Msg) (seq : BitVec 16) (s : State) (hp : p ≤ 8) :
    ∃ e y, queueEth p m seq s = { s with eth := e, cls := y } := by
  have j : ∀ c x, ∃ e y, joinQueue p c x s = { s with eth := e, cls := y } := by
    intro c x
    unfold joinQueue notePeak
    dsimp only
    simp only [setQueue, hp, if_true]
    split <;> exact ⟨_, _, rfl⟩
  have d : ∀ i (u : State), ∃ y, dropCopy i u = { u with cls := y } := by
    intro i u
    unfold dropCopy freeMsg
    split
    · exact ⟨u.cls, rfl⟩
    · split <;> exact ⟨_, rfl⟩
  unfold queueEth
  dsimp only
  split
  · exact j _ _
  · split
    · exact j _ _
    · obtain ⟨y, h⟩ := d m.id (portCount p 14 s)
      rw [h]
      exact ⟨_, _, rfl⟩

theorem queueEths_any (m : Msg) (ps : List Nat) (last : Option (Nat × BitVec 16)) (s : State) (h : ∀ p ∈ ps, p ≤ 8) :
    ∃ e x y, queueEths m ps last s = { s with eth := e, pairs := x, cls := y } ∧
      (∀ k, pairRest (nth .reset x k) = pairRest (nth .reset s.pairs k)) := by
  induction ps generalizing last s with
  | nil => exact ⟨s.eth, s.pairs, s.cls, rfl, fun _ => rfl⟩
  | cons p ps ih =>
    have go : ∀ (last' : Option (Nat × BitVec 16)) (seq : BitVec 16) (u : State), (∃ x, u = { s with pairs := x }) →
        (∀ k, pairRest (nth .reset u.pairs k) = pairRest (nth .reset s.pairs k)) →
        ∃ e x y, queueEths m ps last' (queueEth p m seq u) = { s with eth := e, pairs := x, cls := y } ∧
          (∀ k, pairRest (nth .reset x k) = pairRest (nth .reset s.pairs k)) := by
      rintro last' seq u ⟨x0, hu⟩ hr
      obtain ⟨e, y, z⟩ := queueEth_any p m seq u (h p (by simp))
      obtain ⟨e', x', y', k1, k2⟩ := ih last' (queueEth p m seq u) (fun r hr' => h r (by simp [hr']))
      refine ⟨e', x', y', ?_, ?_⟩
      · rw [k1, z, hu]
      · intro k
        rw [k2, z]
        exact hr k
    simp only [queueEths]
    split
    · exact go _ _ s ⟨s.pairs, rfl⟩ (fun _ => rfl)
    · split
      · split
        · exact go _ _ s ⟨s.pairs, rfl⟩ (fun _ => rfl)
        · exact go _ _ _ (nextPairSeq_spec p s).1 (nextPairSeq_spec p s).2
      · exact go _ _ _ (nextPairSeq_spec p s).1 (nextPairSeq_spec p s).2

theorem queueOwnOn_any (kind : MsgKind) (ps : List Nat) (c index : Nat) (bytes : List Byte) (stamp : Stamp)
    (extra : List Byte) (s : State) (h : ∀ p ∈ ps, p ≤ 8) :
    ∃ e x y v, queueOwnOn kind ps c index bytes stamp extra s = { s with eth := e, pairs := x, cls := y, evt := v } ∧
      (∀ k, pairRest (nth .reset x k) = pairRest (nth .reset s.pairs k)) := by
  unfold queueOwnOn
  split
  · obtain ⟨q, o, k, z⟩ := raiseAt_evt .bufRefuse 0 (BitVec.ofNat 32 (c * 65536 + 0xFFFF)) (updCls c (fun k => { k with refused := satInc k.refused }) s)
    unfold raise
    rw [z]
    exact ⟨_, _, _, _, rfl, fun _ => rfl⟩
  · dsimp only
    rename_i own rest _
    have key : ∀ (m : Msg) (s' : State), (∃ y, s' = { s with cls := y }) → ∃ e x y v, queueEths m ps none s' = { s with eth := e, pairs := x, cls := y, evt := v } ∧
      (∀ k, pairRest (nth .reset x k) = pairRest (nth .reset s.pairs k)) := by
      rintro m s' ⟨y, h2⟩
      obtain ⟨e, x, y, a, b⟩ := queueEths_any m ps none s' h
      refine ⟨e, x, y, s.evt, by rw [a, h2], ?_⟩
      intro k
      rw [b, h2]
    exact key _ _ ⟨_, rfl⟩

end Sys2Proof.Laws
end

