-- ==== Sys2Proof/Laws/Ingress.lean ====
section
/-!
SUPPORT. What becomes of a received frame.
-/

namespace Sys2Proof.Laws

open Sys2Proof.Machine Sys2Proof.Safety

theorem rxFault_lt (p : Nat) (f : RxFrame) (i : Nat) (h : rxFault p f = some i) : i ≠ 14 ∧ i < 16 := by
  unfold rxFault at h
  split at h
  · cases h; decide
  · split at h
    · cases h; decide
    · split at h
      · cases h; decide
      · split at h
        · cases h; decide
        · cases h

theorem errorCount_frame (p i : Nat) (s : State) (h : ∀ j, portThr p j s = 0) : Frame [.eth] s (errorCount p i s) := by
  have key : ∀ u : State, (∃ e, u = { s with eth := e }) → Frame [.eth] s (thresholdTest p u) := by
    rintro u ⟨e, hu⟩
    have cr : crossed p u = none := by
      unfold crossed
      rw [List.find?_eq_none]
      intro x _
      have : portThr p x u = portThr p x s := by rw [hu]; rfl
      rw [this, h x]
      simp
    unfold thresholdTest
    rw [cr]
    split <;> rw [hu] <;> exact frameEth' s e
  unfold errorCount
  dsimp only
  split
  · exact key _ ⟨_, rfl⟩
  · exact key _ ⟨_, rfl⟩

theorem countHit_rte (id : Nat) (s : State) : ∃ x, countHit id s = { s with rte := { s.rte with cnts := x } } := by
  unfold countHit
  split
  · exact ⟨_, rfl⟩
  · exact ⟨s.rte.cnts, rfl⟩

theorem enterBoard_one (m : Inbound) (r : Route) (e : Nat) (s : State) (hl : s.eth.length = 9) (h1 : lookup m.key s = some r) (h2 : resEnabled r.res = true)
    (h3 : keptPorts m r s = [e]) (h4 : e ≤ 8) (h5 : e ≠ m.port) (h6 : resFilter r.res = none) (h7 : routeBound r.id s = none)
    (h8 : messageClass m r s < 6) (hq6 : (ethAt e s).queues.length = 6) (h9 : Roomy e (messageClass m r s) m.bytes.length s) (hp : ∀ k, k < 8 → pairMode k s = 0) (hd : m.deliver = true)
    (hr : m.ring = []) :
    Frame [.eth, .pairs, .cls, .rte] s (enterBoard m s) ∧ Sent m.kind e (messageClass m r s) m.bytes (enterBoard m s) := by
  obtain ⟨x, hx⟩ := countHit_rte r.id s
  have eb : enterBoard m s = runMessage m r [e] (countHit r.id s) := by
    unfold enterBoard enterRoute
    rw [h1]
    have : keptPorts m r (countHit r.id s) = [e] := by rw [hx]; exact h3
    simp only [hd, if_true, this, h2, Bool.true_and, List.isEmpty_cons, Bool.not_false, Bool.true_or, List.filter_cons, List.filter_nil]
  have pm : ∀ q, q < 8 → pairMode q (countHit r.id s) = 0 := by
    intro q hq
    rw [hx]
    exact hp q hq
  generalize hu : countHit r.id s = u at eb pm
  have cl : messageClass m r u = messageClass m r s := by rw [← hu, hx]; rfl
  have pol : police m r u = (.conform, u) := by
    unfold police
    split
    · have : routeBound r.id u = none := by rw [← hu, hx]; exact h7
      rw [this]
    · rfl
  have di : dropIngress m [e] u = [e] := by
    unfold dropIngress
    split
    · have pm0 : pairMode m.port u = 0 := by
        by_cases h : m.port < 8
        · exact pm _ h
        · unfold pairMode
          rw [if_neg h]
      simp [h5, pm0]
    · rfl
  have ap : addPartners [e] u = [e] := by
    unfold addPartners
    have : (List.range 14).filter (fun p => ([e] : List Nat).contains p || (decide (p < 8) && pairMode p u != 0 && ([e] : List Nat).contains (partner p))) =
        (List.range 14).filter (fun p => decide (p = e)) := by
      apply List.filter_congr
      intro p hp
      by_cases h : p < 8
      · simp [pm p h]
      · simp [h]
    rw [this]
    have : ∀ e : Fin 9, (List.range 14).filter (fun p => decide (p = e.val)) = [e.val] := by decide
    exact this ⟨e, by omega⟩
  have rm : runMessage m r [e] u = bufferAndQueue m r (messageClass m r s) false [e] u := by
    unfold runMessage throughFilter
    rw [h6]
    simp only [if_true, cl, pol, di, ap, List.isEmpty_cons, Bool.false_and, Bool.false_eq_true, if_false]
  rw [eb, rm]
  obtain ⟨g1, g3⟩ := h9
  have g2 := hq6
  generalize messageClass m r s = c at h8 g3 ⊢
  obtain ⟨⟨own, rest⟩, ha⟩ := Option.isSome_iff_exists.1 g3
  have ha : allot c m.bytes.length u = some (own, rest) := by rw [← hu, hx]; exact ha
  have hc' : (BitVec.ofNat 3 c).toNat = c := by
    rw [BitVec.toNat_ofNat]
    omega
  have f1 : [e].filter (fun p => decide (p ≤ 8)) = [e] := by simp [h4]
  have f2 : [e].filter (fun p => p == 11 || p == 12) = [] := by
    have : (e == 11 || e == 12) = false := by
      simp
      omega
    simp [this]
  have f3 : ([e] : List Nat).contains 9 = false := by
    simp
    omega
  have key : ∀ (msg : Msg) (s2 : State), msg.cls.toNat = c → (∃ y z, s2 = { s with cls := y, rte := z }) → msg ∈ s2.cls.msgs → msg.kind = m.kind →
      msg.bytes = m.bytes → msg.ring = [] → Frame [.eth, .pairs, .cls, .rte] s (queueInts msg [] (queueSers msg [] (queueRing msg (queueEths msg [e] none s2)))) ∧
        Sent m.kind e c m.bytes (queueInts msg [] (queueSers msg [] (queueRing msg (queueEths msg [e] none s2)))) := by
    rintro msg s2 k1 ⟨y, z, k2⟩ k3 k4 k5 k6
    have h' : ∀ p ∈ [e], p ≤ 8 ∧ p < s2.eth.length ∧ msg.cls.toNat < (ethAt p s2).queues.length ∧ forwarding p s2 = true := by
      intro p hp
      have := List.mem_singleton.1 hp
      subst this
      rw [k2, k1]
      refine ⟨h4, ?_, ?_, g1⟩
      · show p < s.eth.length
        rw [hl]; omega
      · show c < (ethAt p s).queues.length
        rw [g2]; exact h8
    obtain ⟨e', x', y', q1, q2, q3, _⟩ := queueEths_spec msg [e] none s2 h' (by simp)
    have qr : queueRing msg (queueEths msg [e] none s2) = queueEths msg [e] none s2 := by
      unfold queueRing
      rw [k6]
      rfl
    simp only [queueInts, queueSers, qr]
    refine ⟨?_, ?_⟩
    · rw [q1, k2]
      intro k hk
      cases k <;> first | rfl | cases hk
    · obtain ⟨q, a, b⟩ := q3 e (by simp)
      refine ⟨msg, ?_, k4, k5, q, ?_, b⟩
      · rw [q1]; exact k3
      · rw [← k1]; exact a
  unfold bufferAndQueue
  rw [ha]
  simp only [f1, f2, f3, Bool.false_eq_true, if_false]
  refine key _ _ hc' ?_ (List.mem_append_right _ (List.mem_singleton.2 rfl)) rfl rfl hr
  rw [← hu, hx]
  exact ⟨_, _, rfl⟩

theorem allot_congr (c n : Nat) {s t : State} (h1 : s.cls = t.cls) (h2 : s.mem = t.mem) (h3 : s.pos = t.pos) :
    allot c n s = allot c n t := by
  have b : ∀ ty, bodyOf ty s = bodyOf ty t := fun ty => by simp only [bodyOf, h3]
  have r : ∀ c, reserveOf c s = reserveOf c t := fun c => by simp only [reserveOf, b]
  have p : poolSize s = poolSize t := by
    unfold poolSize
    rw [h2]
    simp only [r]
  have u : poolUsed s = poolUsed t := by unfold poolUsed; rw [h1]
  have d : descUsed s = descUsed t := by unfold descUsed; rw [h1]
  unfold allot
  rw [r, p, u, d, h1, h2]

theorem lookup_congr (k : Nat) {s t : State} (h1 : s.rte = t.rte) (h2 : s.pos = t.pos) : lookup k s = lookup k t := by
  have b : ∀ ty, bodyOf ty s = bodyOf ty t := fun ty => by simp only [bodyOf, h2]
  have e : ∀ i, routeEntry i s = routeEntry i t := fun i => by simp only [routeEntry, b]
  have r : ∀ i, resultOf i s = resultOf i t := fun i => by simp only [resultOf, h1, e]
  have ib : ∀ l, inBucket k l s = inBucket k l t := by
    intro l
    induction l with
    | nil => rfl
    | cons i l ih => simp only [inBucket, e, r, ih]
  have ib2 : ∀ l, inBucket (portGeneric k) l s = inBucket (portGeneric k) l t := by
    intro l
    induction l with
    | nil => rfl
    | cons i l ih => simp only [inBucket, e, r, ih]
  unfold lookup exactProbe
  simp only [ib, ib2, b]

theorem keptPorts_congr (m : Inbound) (r : Route) {s t : State} (h2 : s.pos = t.pos) : keptPorts m r s = keptPorts m r t := by
  have b : ∀ ty, bodyOf ty s = bodyOf ty t := fun ty => by simp only [bodyOf, h2]
  have e : ∀ i, templateEntry i s = templateEntry i t := fun i => by simp only [templateEntry, b]
  have p : ∀ i, portDefined i s = portDefined i t := fun i => by simp only [portDefined, portEntry, b]
  simp only [keptPorts, e, p]

theorem routeBound_congr (i : Nat) {s t : State} (h2 : s.pos = t.pos) : routeBound i s = routeBound i t := by
  have b : ∀ ty, bodyOf ty s = bodyOf ty t := fun ty => by simp only [bodyOf, h2]
  simp only [routeBound, b]

theorem messageClass_congr (m : Inbound) (r : Route) {s t : State} (h1 : s.rte = t.rte) (h2 : s.pos = t.pos) : messageClass m r s = messageClass m r t := by
  have b : ∀ ty, bodyOf ty s = bodyOf ty t := fun ty => by simp only [bodyOf, h2]
  have pm : pcpMap s = pcpMap t := by
    unfold pcpMap hasSect
    rw [h2, b]
  have c : ∀ p, classOfPcp p s = classOfPcp p t := fun p => by unfold classOfPcp; rw [pm]
  simp only [messageClass, routeClass, h1, c]

theorem pairMode_congr (p : Nat) {s t : State} (h2 : s.pos = t.pos) : pairMode p s = pairMode p t := by
  have b : ∀ ty, bodyOf ty s = bodyOf ty t := fun ty => by simp only [bodyOf, h2]
  simp only [pairMode, portEntry, b]

theorem frame_in (s : State) (p : Fin 8) (f : RxFrame) (l : List Byte) (hI : Inv s) (hl : p.val < s.eth.length)
    (pm : ∀ k, k < 8 → pairMode k s = 0) (hn : frameType l ≠ 0x88F7) (m : Inbound) (hm : m = ethInbound p f (.plain l) none (portCount p 0 s)) :
    (lookup m.key s = none →
              ∃ t, Host.Outcome.next (portFrame p f l (portCount p 0 s)) = (Host.Outcome.next t : Host.Outcome State Fault Refusal) ∧ Frame [.free, .eth, .cls, .evt] s t ∧
                t.eth = (portCount p 0 s).eth ∧ t.cls = { s.cls with unroutedCnt := satInc s.cls.unroutedCnt } ∧
                Reported .rteUnrouted 0 (BitVec.ofNat 32 p) s t) ∧
            (∀ (r : Route) (e : Nat), lookup m.key s = some r → resEnabled r.res = true →
              keptPorts m r s = [e] → e ≤ 8 → e ≠ p → resFilter r.res = none → routeBound r.id s = none →
              messageClass m r s < 6 → Roomy e (messageClass m r s) m.bytes.length s →
              ∃ t, Host.Outcome.next (portFrame p f l (portCount p 0 s)) = (Host.Outcome.next t : Host.Outcome State Fault Refusal) ∧ Frame [.free, .eth, .pairs, .cls, .rte] s t ∧
                Sent m.kind e (messageClass m r s) l t) := by
  have m1 : m.port = p.val := by rw [hm]; rfl
  have m2 : m.deliver = true := by rw [hm]; rfl
  have m3 : m.ring = [] := by rw [hm]; rfl
  have m4 : m.channel = none := by rw [hm]; rfl
  have m5 : m.bytes = l := by rw [hm]; rfl
  have rr : redRx p l (portCount p 0 s) = (some (.plain l), (portCount p 0 s)) := by
    have pm' : pairMode p (portCount p 0 s) = 0 := (pairMode_congr p rfl).trans (pm p p.isLt)
    unfold redRx
    rw [pm']
    rfl
  have pd : ptpDeliver p f (.plain l) (portCount p 0 s) = (.plain l, (portCount p 0 s)) := by
    unfold ptpDeliver
    exact if_neg hn
  have pf : portFrame p f l (portCount p 0 s) = enterBoard m (drawn (portCount p 0 s)) := by
    unfold portFrame
    rw [rr]
    dsimp only
    rw [pd, hm]
    unfold handOver
    simp only [RedFrame.plain, List.isEmpty_nil, Bool.true_or, if_true]
  rw [pf]
  refine ⟨?_, ?_⟩
  · intro hlk
    have hlk' : lookup m.key (drawn (portCount p 0 s)) = none := (lookup_congr m.key rfl rfl).trans hlk
    have eb : enterBoard m (drawn (portCount p 0 s)) = raiseAt .rteUnrouted 0 (BitVec.ofNat 32 p) { drawn (portCount p 0 s) with cls := { s.cls with unroutedCnt := satInc s.cls.unroutedCnt } } := by
      unfold enterBoard
      rw [hlk']
      dsimp only
      unfold withoutRoute unrouted
      rw [m3, m2, m4, m1]
      rfl
    rw [eb]
    have rep : Reported .rteUnrouted 0 (BitVec.ofNat 32 p) s (raiseAt .rteUnrouted 0 (BitVec.ofNat 32 p) { drawn (portCount p 0 s) with cls := { s.cls with unroutedCnt := satInc s.cls.unroutedCnt } }) := by
      apply raiseAt_reported
      · exact ⟨rfl, rfl⟩
      · rfl
      · intro _
        simp [pendSet, setPend, Ev.pendAt, setBit]
    obtain ⟨q', o, k, z⟩ := raiseAt_evt .rteUnrouted 0 (BitVec.ofNat 32 p) { drawn (portCount p 0 s) with cls := { s.cls with unroutedCnt := satInc s.cls.unroutedCnt } }
    refine ⟨_, rfl, ?_, ?_, ?_, rep⟩
    · rw [z]
      intro k hk
      cases k <;> first | rfl | cases hk
    · rw [z]; rfl
    · rw [z]; rfl
  · intro r e k1 k2 k3 k4 k5 k6 k7 k8 k9
    have hcl : messageClass m r (drawn (portCount p 0 s)) = messageClass m r s := messageClass_congr m r rfl rfl
    have ro : Roomy e (messageClass m r (drawn (portCount p 0 s))) m.bytes.length (drawn (portCount p 0 s)) := by
      rw [hcl]
      have ha : allot (messageClass m r s) m.bytes.length (drawn (portCount p 0 s)) = allot (messageClass m r s) m.bytes.length s := allot_congr _ _ rfl rfl rfl
      refine ⟨?_, by rw [ha]; exact k9.2⟩
      · have : ethAt e (drawn (portCount p 0 s)) = ethAt e s := ethAt_upd_other _ _ _ _ k5
        show ((ethAt e (drawn (portCount p 0 s))).fwd == .forwarding) = true
        rw [this]
        exact k9.1
    have rq : (ethAt e (drawn (portCount p 0 s))).queues.length = 6 := by
      have : ethAt e (drawn (portCount p 0 s)) = ethAt e s := ethAt_upd_other _ _ _ _ k5
      rw [this]
      exact (Inv_port hI e).2.2
    have z := enterBoard_one m r e (drawn (portCount p 0 s)) (by rw [← eth_len hI]; exact upd_length _ _ _) ((lookup_congr m.key rfl rfl).trans k1) k2 ((keptPorts_congr m r rfl).trans k3) k4 (by rw [m1]; exact k5) k6 ((routeBound_congr r.id rfl).trans k7) (by rw [hcl]; exact k8) rq ro (fun k hk => (pairMode_congr k rfl).trans (pm k hk)) m2 m3
    rw [hcl] at z
    refine ⟨_, rfl, ?_, by rw [← m5]; exact z.2⟩
    intro k hk
    have := z.1 k
    cases k <;> first | (exact this rfl) | cases hk

end Sys2Proof.Laws
end

