-- ==== Sys2Proof/Laws/Scheduler.lean ====
section
/-!
SUPPORT. Selection, completion, promotion and held KING frames.
-/

namespace Sys2Proof.Laws

open Sys2Proof.Machine Sys2Proof.Safety

theorem firstClass_head {e c : Nat} {q : QEntry} {m : Msg} {rest : List QEntry} {s : State} (h : Head e c q m rest s) :
    (3 ≤ c → firstClass e [5, 4, 3] s = some c) ∧ (c < 3 → firstClass e [5, 4, 3] s = none ∧ firstClass e [2, 1, 0] s = some c) := by
  obtain ⟨h1, h2, h3, h4, h5⟩ := h
  have hc : (!(queueOf e c s).isEmpty) = true := by rw [h4]; rfl
  have he : ∀ d, c < d → d < 6 → (!(queueOf e d s).isEmpty) = false := fun d a b => by rw [h3 d a b]; rfl
  have : c = 0 ∨ c = 1 ∨ c = 2 ∨ c = 3 ∨ c = 4 ∨ c = 5 := by omega
  rcases this with rfl | rfl | rfl | rfl | rfl | rfl
  · exact ⟨fun h => by omega, fun _ => by simp only [firstClass, List.find?, hc, he 5 (by decide) (by decide), he 4 (by decide) (by decide), he 3 (by decide) (by decide), he 2 (by decide) (by decide), he 1 (by decide) (by decide), and_self]⟩
  · exact ⟨fun h => by omega, fun _ => by simp only [firstClass, List.find?, hc, he 5 (by decide) (by decide), he 4 (by decide) (by decide), he 3 (by decide) (by decide), he 2 (by decide) (by decide), and_self]⟩
  · exact ⟨fun h => by omega, fun _ => by simp only [firstClass, List.find?, hc, he 5 (by decide) (by decide), he 4 (by decide) (by decide), he 3 (by decide) (by decide), and_self]⟩
  · exact ⟨fun _ => by simp only [firstClass, List.find?, hc, he 5 (by decide) (by decide), he 4 (by decide) (by decide)], fun h => by omega⟩
  · exact ⟨fun _ => by simp only [firstClass, List.find?, hc, he 5 (by decide) (by decide)], fun h => by omega⟩
  · exact ⟨fun _ => by simp only [firstClass, List.find?, hc], fun h => by omega⟩

theorem egressSelect_eth (e : Nat) (ecc : EccAt) (s : State) (he : e ≤ 8) (h1 : fabricRuns s = true) (h2 : (ethAt e s).link = true) (h3 : (ethAt e s).tx = none)
    (h4 : boardRuns s = true) : exec (.egressSelect e ecc) s = .next (pickNext e ecc s) := by
  have : ethSelect e ecc s = pickNext e ecc s := by
    unfold ethSelect
    dsimp only
    rw [h1, h2, h3]
    simp only [Bool.and_self, if_true]
    unfold pickOrResume
    rw [if_pos h4]
  simp only [exec, execEgressSelect, he, if_true, this]

theorem msgById_id {i : Nat} {m : Msg} {s : State} (h : msgById i s = some m) : m.id = i := by
  have := List.find?_some h
  simpa using this

theorem setQueue_eth (e c : Nat) (r : List QEntry) (s : State) (h : e ≤ 8) :
    ∃ x, setQueue e c r s = { s with eth := x } := by
  simp only [setQueue, h, if_true]
  exact ⟨_, rfl⟩

theorem queueOf_setQueue (e c : Nat) (r : List QEntry) (s : State) (h : e ≤ 8) (hl : e < s.eth.length) (hq : c < (ethAt e s).queues.length) :
    queueOf e c (setQueue e c r s) = r ∧ ethAt e (setQueue e c r s) = { ethAt e s with queues := upd (fun _ => r) (ethAt e s).queues c } := by
  have z : ethAt e (setQueue e c r s) = { ethAt e s with queues := upd (fun _ => r) (ethAt e s).queues c } := by
    simp only [setQueue, h, if_true, ethAt]
    exact nth_upd_same _ _ _ hl
  refine ⟨?_, z⟩
  have : queueOf e c (setQueue e c r s) = nth [] (ethAt e (setQueue e c r s)).queues c := by
    simp only [queueOf, queuesOf, h, if_true, ethAt]
  rw [this, z]
  exact nth_upd_same [] (fun _ => r) _ hq

theorem select_head {e c : Nat} {q : QEntry} {m : Msg} {rest : List QEntry} {s : State} (h : Head e c q m rest s) (cs : List Nat)
    (hf : firstClass e cs s = some c) (fits : Nat → QEntry → Msg → Bool) (hb : pastBudget m s = false ∨ q.marked = true) (hfit : fits c q m = true) :
    selectFrom e cs fits s = (.taken c q m, setQueue e c rest s) := by
  obtain ⟨h1, h2, h3, h4, h5⟩ := h
  unfold selectFrom
  rw [hf]
  dsimp only
  rw [h4]
  dsimp only
  rw [h5]
  dsimp only
  rw [if_neg (by
    rintro ⟨a, b⟩
    rcases hb with z | z
    · rw [z] at a; cases a
    · rw [z] at b; cases b), if_pos hfit]

theorem select_drop {e c : Nat} {q : QEntry} {m : Msg} {rest : List QEntry} {s : State} (h : Head e c q m rest s) (cs : List Nat)
    (hf : firstClass e cs s = some c) (fits : Nat → QEntry → Msg → Bool) (hb : pastBudget m s = true) (hm : q.marked = false) (hc : classMarks c s = false) :
    selectFrom e cs fits s = (.dropped, dropAtFall e c m s) := by
  obtain ⟨h1, h2, h3, h4, h5⟩ := h
  unfold selectFrom
  rw [hf]
  dsimp only
  rw [h4]
  dsimp only
  rw [h5]
  dsimp only
  rw [if_pos ⟨hb, hm⟩, if_neg (by rw [hc]; decide)]

theorem select_none (e : Nat) (cs : List Nat) (fits : Nat → QEntry → Msg → Bool) (s : State) (h : firstClass e cs s = none) :
    selectFrom e cs fits s = (.nothing, s) := by
  unfold selectFrom
  rw [h]

theorem fits_head {e c : Nat} {q : QEntry} {m : Msg} {s : State} (h : c < 3 → limited e s = false) : fitsPort e s c q m = true := by
  unfold fitsPort
  by_cases h3 : 3 ≤ c
  · simp [h3]
  · simp [h (by omega)]

/-- What the scheduler takes from the queues of an idle port. -/
theorem pick_taken {e c : Nat} {q : QEntry} {m : Msg} {rest : List QEntry} {s : State} (h : Head e c q m rest s) (ecc : EccAt) (hw : forwarding e s = true)
    (hl : c < 3 → (ethAt e s).mpackets = [] ∧ (ethAt e s).preempted = none ∧ limited e s = false) (hb : pastBudget m s = false ∨ q.marked = true) :
    pickNext e ecc s = sendRead e c q m ecc (setQueue e c rest s) := by
  have fc := firstClass_head h
  have ft := fits_head (q := q) (m := m) (fun k => (hl k).2.2)
  unfold pickNext
  dsimp only
  rw [if_pos hw]
  by_cases h3 : 3 ≤ c
  · rw [select_head h _ (fc.1 h3) _ hb ft]
  · have k := fc.2 (by omega)
    have kl := hl (by omega)
    rw [select_none _ _ _ _ k.1]
    dsimp only
    rw [kl.1, kl.2.1, if_neg (by decide), if_neg (by rw [hw]; decide)]
    dsimp only
    rw [select_head h _ k.2 _ hb ft]

theorem pick_dropped {e c : Nat} {q : QEntry} {m : Msg} {rest : List QEntry} {s : State} (h : Head e c q m rest s) (ecc : EccAt) (hw : forwarding e s = true)
    (hl : c < 3 → (ethAt e s).mpackets = [] ∧ (ethAt e s).preempted = none ∧ limited e s = false) (hb : pastBudget m s = true) (hm : q.marked = false)
    (hc : classMarks c s = false) : pickNext e ecc s = dropAtFall e c m s := by
  have fc := firstClass_head h
  unfold pickNext
  dsimp only
  rw [if_pos hw]
  by_cases h3 : 3 ≤ c
  · rw [select_drop h _ (fc.1 h3) _ hb hm hc]
  · have k := fc.2 (by omega)
    have kl := hl (by omega)
    rw [select_none _ _ _ _ k.1]
    dsimp only
    rw [kl.1, kl.2.1, if_neg (by decide), if_neg (by rw [hw]; decide)]
    dsimp only
    rw [select_drop h _ k.2 _ hb hm hc]

theorem send_plain (e c : Nat) (q : QEntry) (m : Msg) (ecc : EccAt) (s : State) (he : ecc.what = .ok) (h1 : bundleMax m ≤ 1) (h2 : m.kind ≠ .ptp)
    (h3 : m.etype ≠ 0x88F7) (h4 : m.tsTag = none) (h5 : m.routeId ≠ 0xFFFF → resTxts m.result = false) :
    sendRead e c q m ecc s = startTx e c [q] (sealFrame e c q m (if isRingCopy e q s then m.bytes else frameOf e c q m s) s) s := by
  have b : buildFrame e c q m s = ([q], (if isRingCopy e q s then m.bytes else frameOf e c q m s), s) := by
    unfold buildFrame
    rw [if_neg (by omega)]
    unfold ptpEgress
    dsimp only
    rw [if_neg h2, if_neg (fun z => h3 z.2.1)]
  have st : stampsFor e m s = s := by
    unfold stampsFor
    rw [h4]
    dsimp only
    split
    · rw [if_neg]
      rintro ⟨a, b⟩
      rw [h5 a] at b
      cases b
    · rfl
  unfold sendRead
  rw [he]
  dsimp only [noteEcc]
  rw [if_neg (by decide)]
  unfold sendSelected
  rw [b]
  dsimp only
  rw [st]

theorem note_generic (w : Word) (a : ClsBlk) (s : State) (h : a.int = s.cls.int) :
    let u := raise .flagFall w { s with cls := a }
    u.eth = s.eth ∧ u.cls.lastFlagFall = a.lastFlagFall ∧ (∃ a b, u = { s with cls := a, evt := b }) ∧ Reported .flagFall 0 w s u := by
  dsimp only [raise]
  obtain ⟨q', o, k, z⟩ := raiseAt_evt .flagFall 0 w { s with cls := a }
  have rep : Reported .flagFall 0 w s (raiseAt .flagFall 0 w { s with cls := a }) := by
    apply raiseAt_reported
    · exact ⟨rfl, rfl⟩
    · simp only [pendSet, Ev.pendAt, h]
    · intro _
      simp [pendSet, setPend, Ev.pendAt, setBit]
  refine ⟨?_, ?_, ?_, rep⟩
  · rw [z]; simp only [Ev.pendAt, setPend]
  · rw [z]; simp only [Ev.pendAt, setPend]
  · rw [z]
    simp only [Ev.pendAt, setPend]
    exact ⟨_, _, rfl⟩

theorem note_shape (e c : Nat) (m : Msg) (s : State) :
    ∃ a, noteFlagFall e c m false s = raise .flagFall (BitVec.ofNat 32 (e * 2 ^ 24 + c * 65536 + m.routeId % 65536)) { s with cls := a } ∧
      a.lastFlagFall = BitVec.ofNat 32 (e * 2 ^ 24 + c * 65536 + m.routeId % 65536) ∧ a.int = s.cls.int := by
  unfold noteFlagFall
  generalize BitVec.ofNat 32 (e * 2 ^ 24 + c * 65536 + m.routeId % 65536) = w
  exact ⟨{ (updCls c (fun k => { k with flagFall := satInc k.flagFall, marked := if false = true then satInc k.marked else k.marked }) s).cls with lastFlagFall := w }, rfl, rfl, rfl⟩

theorem note_spec (e c : Nat) (m : Msg) (s : State) :
    let u := noteFlagFall e c m false s
    u.eth = s.eth ∧ u.cls.lastFlagFall = BitVec.ofNat 32 (e * 2 ^ 24 + c * 65536 + m.routeId % 65536) ∧ (∃ a b, u = { s with cls := a, evt := b }) ∧
      Reported .flagFall 0 (BitVec.ofNat 32 (e * 2 ^ 24 + c * 65536 + m.routeId % 65536)) s u := by
  obtain ⟨a, h1, h2, h3⟩ := note_shape e c m s
  dsimp only
  rw [h1]
  revert h2
  generalize BitVec.ofNat 32 (e * 2 ^ 24 + c * 65536 + m.routeId % 65536) = w
  intro h2
  obtain ⟨g1, g2, g3, g4⟩ := note_generic w a s h3
  exact ⟨g1, by rw [g2]; exact h2, g3, g4⟩

theorem fall_spec (e c : Nat) (q : QEntry) (m : Msg) (rest : List QEntry) (s : State) (he : e ≤ 8) (hl : e < s.eth.length) (hc : c < 5)
    (h4 : queueOf e c s = q :: rest) (h5 : m.id = q.msg) (h6 : (ethAt e s).queues.length = 6) :
    let w := BitVec.ofNat 32 (e * 2 ^ 24 + c * 65536 + m.routeId % 65536)
    let t := dropAtFall e c m s
    Frame [.eth, .cls, .evt] s t ∧ (ethAt e t).tx = (ethAt e s).tx ∧ queueOf e c t = rest.filter (fun x => x.msg != q.msg) ∧ t.cls.lastFlagFall = w ∧
      Reported .flagFall 0 w s t := by
  intro w t
  have hx : t = dropCopy m.id (takeEntry e c m.id (noteFlagFall e c m false s)) := by
    show dropAtFall e c m s = _
    unfold dropAtFall
    dsimp only
    rw [if_neg (by omega)]
  obtain ⟨hue, hucl, hfr, rep⟩ := note_spec e c m s
  generalize hu : noteFlagFall e c m false s = u at hue hucl hfr rep
  rw [hu] at hx
  obtain ⟨a, b, hfr⟩ := hfr
  have hq : queueOf e c u = q :: rest := by rw [← h4]; simp only [queueOf, queuesOf, he, if_true, hue]
  have hul : e < u.eth.length := by rw [hue]; exact hl
  have huq : c < (ethAt e u).queues.length := by
    have : ethAt e u = ethAt e s := by simp only [ethAt, hue]
    rw [this, h6]; omega
  have tk : takeEntry e c m.id u = setQueue e c (rest.filter (fun x => x.msg != q.msg)) u := by
    unfold takeEntry
    rw [hq, h5]
    congr 1
    simp
  rw [tk] at hx
  obtain ⟨z1, z2⟩ := queueOf_setQueue e c (rest.filter (fun x => x.msg != q.msg)) u he hul huq
  obtain ⟨y, hy⟩ := setQueue_eth e c (rest.filter (fun x => x.msg != q.msg)) u he
  generalize setQueue e c (rest.filter (fun x => x.msg != q.msg)) u = v at hx z1 z2 hy
  have dc : ∃ r ms, t = { v with cls := { v.cls with recs := r, msgs := ms } } := by
    rw [hx]
    unfold dropCopy freeMsg
    split
    · exact ⟨v.cls.recs, v.cls.msgs, rfl⟩
    · split
      · exact ⟨_, _, rfl⟩
      · exact ⟨v.cls.recs, _, rfl⟩
  obtain ⟨r, ms, dc⟩ := dc
  have et : t.eth = v.eth := by rw [dc]
  refine ⟨?_, ?_, ?_, ?_, ?_⟩
  · rw [dc, hy, hfr]
    intro k hk
    cases k <;> first | rfl | cases hk
  · have : ethAt e t = ethAt e v := by simp only [ethAt, et]
    rw [this, z2]
    show (ethAt e u).tx = _
    simp only [ethAt, hue]
  · rw [← z1]
    simp only [queueOf, queuesOf, he, if_true, et]
  · rw [dc, hy]
    exact hucl
  · refine ⟨fun k => ?_, fun k => ?_⟩
    · have := rep.1 k
      rw [dc, hy]
      exact this
    · have := rep.2 k
      rw [dc, hy]
      exact this

theorem joinQueue_evt (e c : Nat) (q : QEntry) (s : State) (he : e ≤ 8) : (joinQueue e c q s).evt = s.evt := by
  unfold joinQueue notePeak
  dsimp only
  simp only [setQueue, he, if_true]
  split <;> rfl

theorem dropCopy_spec (i : Nat) (u : State) :
    ∃ r ms, dropCopy i u = { u with cls := { u.cls with recs := r, msgs := ms } } ∧
      ∀ m, msgById i u = some m → m.refs ≤ 1 → ∀ x ∈ (dropCopy i u).cls.msgs, x.id ≠ i := by
  unfold dropCopy
  split
  · rename_i h
    refine ⟨u.cls.recs, u.cls.msgs, rfl, fun m h1 => ?_⟩
    rw [h] at h1; cases h1
  · rename_i m h
    split
    · rename_i h2
      refine ⟨_, _, rfl, fun m' _ _ x hx => ?_⟩
      have hid := msgById_id h
      simp only [freeMsg, List.mem_filter, bne_iff_ne] at hx
      rw [← hid]
      exact hx.2
    · rename_i h2
      refine ⟨u.cls.recs, _, rfl, fun m' h1 hle => ?_⟩
      rw [h] at h1
      cases h1
      omega

theorem done_spec (e : Fin 9) (fs : List TxFrame) (s : State) (el : e.val < s.eth.length) (hcn : (ethAt e s).cnt.length = 16) :
    let u := portCount e 11 (updEth e (fun k => { k with leaving := fs }) s)
    (∃ y, u = { s with eth := y }) ∧ (ethAt e u).leaving = fs ∧ nth 0 (ethAt e u).cnt 11 = satInc (nth 0 (ethAt e s).cnt 11) := by
  intro u
  have l1 : e.val < (updEth e (fun k => { k with leaving := fs }) s).eth.length := by
    show _ < (upd _ s.eth e.val).length
    rw [upd_length]; exact el
  have z1 : ethAt e (updEth e (fun k => { k with leaving := fs }) s) = { ethAt e s with leaving := fs } := ethAt_upd_same _ _ _ el
  have z : ethAt e u = { ethAt e (updEth e (fun k => { k with leaving := fs }) s) with
      cnt := upd satInc (ethAt e (updEth e (fun k => { k with leaving := fs }) s)).cnt 11 } := by
    exact nth_upd_same EthPort.reset _ _ l1
  refine ⟨⟨_, rfl⟩, ?_, ?_⟩
  · rw [z, z1]
  · rw [z, z1]
    exact nth_upd_same 0 satInc _ (by show 11 < (ethAt e s).cnt.length; rw [hcn]; decide)

theorem joinQueue_other (e c d : Nat) (q : QEntry) (s : State) (he : e ≤ 8) (h : c ≠ d) :
    queueOf e d (joinQueue e c q s) = queueOf e d s := by
  have h1 : queueOf e d (setQueue e c (queueOf e c s ++ [q]) s) = queueOf e d s := by
    generalize queueOf e c s ++ [q] = r
    simp only [queueOf, queuesOf, he, if_true, setQueue]
    rcases nth_upd_or .reset (fun p => { p with queues := upd (fun _ => r) p.queues c }) s.eth e e with k | k
    · rw [k]
    · rw [k]
      exact nth_upd_other [] _ _ h
  rw [← h1]
  unfold joinQueue notePeak
  dsimp only
  split
  · rfl
  · simp only [queueOf, queuesOf, he, if_true]

theorem promote_generic (w : Word) (v : State) {a : State} (h : (v.tmb.secs = a.tmb.secs ∧ v.tmb.ns = a.tmb.ns) ∧ v.cls.int = a.cls.int) :
    let u := raise .promote w v
    u.eth = v.eth ∧ u.cls.recs = v.cls.recs ∧ (∃ a b, u = { v with cls := a, evt := b }) ∧ Reported .promote 0 w a u := by
  dsimp only [raise]
  obtain ⟨q', o, k, z⟩ := raiseAt_evt .promote 0 w v
  have rep : Reported .promote 0 w a (raiseAt .promote 0 w v) := by
    apply raiseAt_reported
    · exact h.1
    · simp only [pendSet, Ev.pendAt, h.2]
    · intro _
      simp [pendSet, setPend, Ev.pendAt, setBit]
  refine ⟨?_, ?_, ?_, rep⟩
  · rw [z]; simp only [Ev.pendAt, setPend]
  · rw [z]; simp only [Ev.pendAt, setPend]
  · rw [z]
    simp only [Ev.pendAt, setPend]
    exact ⟨_, _, rfl⟩

theorem nth_past {α : Type} (d : α) (l : List α) (i : Nat) (h : l.length ≤ i) : nth d l i = d := by
  induction l generalizing i with
  | nil => cases i <;> rfl
  | cons x l ih =>
    cases i with
    | zero => simp at h
    | succ i => exact ih i (by simpa using h)

theorem king_generic (src : BitVec 8) (cause : Nat) (ports : List Nat) (lead r : Nat) (u : State) (w : Word)
    (hw : BitVec.ofNat 32 (lead * 2 ^ 24 + cause * 2 ^ 16 + r % 65536) = w) :
    let v := markKingPorts (if ports.isEmpty then [8] else ports) u
    ∃ q o n, raiseKingLost src cause ports lead r u = { v with evt := { v.evt with queue := q, ovf := o, dropCnt := n, kingLostCnt := satInc v.evt.kingLostCnt } } := by
  unfold raiseKingLost
  rw [hw]
  generalize markKingPorts (if ports.isEmpty then [8] else ports) u = v
  dsimp only
  obtain ⟨q, o, n, z⟩ := queueEvt_evt 0x0406 src w v
  rw [z]
  exact ⟨q, o, n, rfl⟩

theorem held_spec (e : Fin 9) (x : QEntry) (s : State) (hI : Inv s) (hx : queueOf e 5 s = [x]) (r : Nat) :
    let t := dropCopy x.msg (raiseKingLost 4 1 [e.val] e r (portCount e 15 (setQueue e 5 [] s)))
    Frame [.eth, .cls, .evt] s t ∧ queueOf e 5 t = [] ∧ t.evt.kingLostCnt = satInc s.evt.kingLostCnt ∧ pendSet (.eth 4) e t = true := by
  intro t
  have ht : t = dropCopy x.msg (raiseKingLost 4 1 [e.val] e.val r (portCount e 15 (setQueue e 5 [] s))) := rfl
  clear_value t
  have el : e.val < s.eth.length := by rw [eth_len hI]; omega
  have h8 : e.val ≤ 8 := by omega
  have ql : 5 < (ethAt e s).queues.length := by
    rw [(Inv_port hI e).2.2]
    decide
  obtain ⟨y, hy⟩ := setQueue_eth e 5 [] s h8
  have z1 : nth [] (ethAt e (setQueue e 5 [] s)).queues 5 = [] := by
    have := (queueOf_setQueue e 5 [] s h8 el ql).1
    simpa only [queueOf, queuesOf, h8, if_true, ethAt] using this
  have l1 : e.val < (setQueue e 5 [] s).eth.length := by
    simp only [setQueue, h8, if_true, upd_length]; exact el
  have p1 : (portCount e 15 (setQueue e 5 [] s)) = { s with eth := upd (fun k => { k with cnt := upd satInc k.cnt 15 }) (setQueue e 5 [] s).eth e.val } := by
    unfold portCount
    rw [hy]
  have p2 : nth .reset (portCount e 15 (setQueue e 5 [] s)).eth e.val = { ethAt e (setQueue e 5 [] s) with cnt := upd satInc (ethAt e (setQueue e 5 [] s)).cnt 15 } :=
    nth_upd_same EthPort.reset _ _ l1
  have l2 : e.val < (portCount e 15 (setQueue e 5 [] s)).eth.length := by
    show _ < (upd _ _ _).length
    rw [upd_length]; exact l1
  generalize portCount e 15 (setQueue e 5 [] s) = u at *
  generalize hw : BitVec.ofNat 32 (e.val * 2 ^ 24 + 1 * 2 ^ 16 + r % 65536) = w
  have m1 : markKingPorts (if [e.val].isEmpty then [8] else [e.val]) u = setPend (.eth 4) e u := rfl
  have s1 : setPend (.eth 4) e.val u = { s with eth := (setPend (.eth 4) e u).eth } := by
    rw [p1]; rfl
  have s2 : nth [] (nth .reset (setPend (.eth 4) e u).eth e.val).queues 5 = [] := by
    have : nth .reset (setPend (.eth 4) e u).eth e.val = { nth .reset u.eth e.val with int := setBit (nth .reset u.eth e.val).int 4 } := nth_upd_same EthPort.reset _ _ l2
    rw [this, p2]
    exact z1
  have s3 : pendSet (.eth 4) e (setPend (.eth 4) e u) = true := by
    have : nth .reset (setPend (.eth 4) e u).eth e.val = { nth .reset u.eth e.val with int := setBit (nth .reset u.eth e.val).int 4 } := nth_upd_same EthPort.reset _ _ l2
    simp only [pendSet, this]
    simp [setBit]
  have k := king_generic 4 1 [e.val] e r u w hw
  rw [m1] at k
  generalize setPend (.eth 4) e.val u = v at *
  obtain ⟨q, o, n, k⟩ := k
  rw [k] at ht
  obtain ⟨rs, ms, dc, _⟩ := dropCopy_spec x.msg { v with evt := { v.evt with queue := q, ovf := o, dropCnt := n, kingLostCnt := satInc v.evt.kingLostCnt } }
  rw [dc] at ht
  refine ⟨?_, ?_, ?_, ?_⟩
  · rw [ht, s1]
    intro k hk
    cases k <;> first | rfl | cases hk
  · rw [ht]
    simp only [queueOf, queuesOf, h8, if_true]
    exact s2
  · rw [ht, s1]
  · rw [ht]
    exact s3

theorem promote_spec (e : Nat) (c : Fin 6) (q : QEntry) (m : Msg) (rest : List QEntry) (s : State) (he : e ≤ 8) (el : e < s.eth.length)
    (hl : (ethAt e s).queues.length = 6) (h4 : queueOf e c s = q :: rest) (h5 : msgById q.msg s = some m) (hp : classPromotes c s = true) (hc : c.val < 4)
    (hq : q.promoted = false) (hm : m.routeId ≠ 0xFFFF) (ha : resBudgetUs m.result * 500 ≤ ageNs m s) (hb : ageNs m s < resBudgetUs m.result * 1000) :
    let t := promoteHead e c s
    Frame [.eth, .cls, .evt] s t ∧ queueOf e c t = rest ∧ queueOf e (c + 1) t = queueOf e (c + 1) s ++ [{ q with promoted := true }] ∧
      Reported .promote 0 (BitVec.ofNat 32 (c * 65536 + m.routeId)) s t := by
  intro t
  have ht : t = raise .promote (BitVec.ofNat 32 (c * 65536 + m.routeId))
        (updCls c (fun k => { k with promoted := satInc k.promoted })
          (joinQueue e (c + 1) { q with promoted := true } (setQueue e c rest s))) := by
    show promoteHead e c s = _
    unfold promoteHead
    rw [h4]
    dsimp only
    rw [h5]
    dsimp only
    rw [if_pos ⟨hp, hc, hq, hm, ha, hb⟩]
  revert ht
  generalize t = t
  generalize BitVec.ofNat 32 (c.val * 65536 + m.routeId) = w
  intro ht
  obtain ⟨z1, z2⟩ := queueOf_setQueue e c rest s he el (by rw [hl]; omega)
  obtain ⟨y, hy⟩ := setQueue_eth e c rest s he
  have z3 : queueOf e (c.val + 1) (setQueue e c rest s) = queueOf e (c.val + 1) s := by
    have a1 : queueOf e (c.val + 1) (setQueue e c rest s) = nth [] (ethAt e (setQueue e c rest s)).queues (c.val + 1) := by
      simp only [queueOf, queuesOf, he, if_true, ethAt]
    have a2 : queueOf e (c.val + 1) s = nth [] (ethAt e s).queues (c.val + 1) := by
      simp only [queueOf, queuesOf, he, if_true, ethAt]
    rw [a1, z2, a2]
    exact nth_upd_other [] _ _ (by omega)
  have l1 : e < (setQueue e c rest s).eth.length := by
    simp only [setQueue, he, if_true, upd_length]; exact el
  have q1 : (c.val + 1) < (ethAt e (setQueue e c rest s)).queues.length := by
    rw [z2]
    show _ < (upd _ _ _).length
    rw [upd_length, hl]; omega
  obtain ⟨f, x, j1, j2⟩ := joinQueue_spec e (c.val + 1) { q with promoted := true } (setQueue e c rest s) he l1 q1
  have j3 : queueOf e c (joinQueue e (c.val + 1) { q with promoted := true } (setQueue e c rest s)) = rest := by
    exact (joinQueue_other e (c.val + 1) c { q with promoted := true } (setQueue e c rest s) he (by omega)).trans z1
  generalize joinQueue e (c.val + 1) { q with promoted := true } (setQueue e c rest s) = u at *
  obtain ⟨r1, r2, r3, r4⟩ := promote_generic w (updCls c (fun k => { k with promoted := satInc k.promoted }) u)
    (a := s) (by
      rw [show updCls c (fun k => { k with promoted := satInc k.promoted }) u = { u with cls := { u.cls with recs := _ } } from rfl, j1, hy]
      exact ⟨⟨rfl, rfl⟩, rfl⟩)
  rw [← ht] at r1 r2 r3 r4
  refine ⟨?_, ?_, ?_, r4⟩
  · obtain ⟨g, b, r3⟩ := r3
    rw [r3, show updCls c (fun k => { k with promoted := satInc k.promoted }) u = { u with cls := { u.cls with recs := _ } } from rfl, j1, hy]
    intro k hk
    cases k <;> first | rfl | cases hk
  · rw [← j3]
    simp only [queueOf, queuesOf, he, if_true, r1]
    rfl
  · rw [z3] at j2
    rw [← j2]
    simp only [queueOf, queuesOf, he, if_true, r1]
    rfl

end Sys2Proof.Laws
end

