-- ==== Sys2Proof/Laws/AccessRun.lean ====
section
/-!
SUPPORT. Commands of access frames.
-/

namespace Sys2Proof.Laws

open Sys2Proof.Machine Sys2Proof.Safety

theorem accReadWord_shared (a o : Nat) (e : BankEnv) (he : e.sameCycle = false ∧ e.ecc = .ok) (s : State) (hc : coreAnswers s = true)
    (h : a = 0x100000 + o) (h2 : o + 4 ≤ 0x20000) :
    accReadWord a e s = (0, BitVec.ofNat 32 (ofLE (Memory.getAll s.mem.shared o 4)), s) := by
  have e3 : isShared a = true := by simp [isShared]; omega
  have e5 : a - 0x100000 = o := by omega
  simp [accReadWord, hc, e3, e5, frameRead, noteEcc, he.2, sharedGet]

theorem headD_quiet {es : List BankEnv} (h : QuietEnvs es) :
    (es.headD { sameCycle := false, ecc := .ok }).sameCycle = false ∧ (es.headD { sameCycle := false, ecc := .ok }).ecc = .ok := by
  cases es with
  | nil => exact ⟨rfl, rfl⟩
  | cons e es => exact h e (by simp)

theorem drop_quiet {es : List BankEnv} (h : QuietEnvs es) : QuietEnvs (es.drop 1) := fun e he => h e (List.mem_of_mem_drop he)

theorem accReads_shared (n a o k : Nat) (es : List BankEnv) (d : List Word) (s : State) (he : QuietEnvs es) (hc : coreAnswers s = true)
    (h : a = 0x100000 + o) (h2 : o + 4 * n ≤ 0x20000) :
    accReads n a es { status := 0, words := k, xbCode := 0, data := d } s =
      ({ status := 0, words := k + n, xbCode := 0,
         data := d ++ (List.range n).map (fun i => BitVec.ofNat 32 (ofLE (Memory.getAll s.mem.shared (o + 4 * i) 4))) }, s) := by
  induction n generalizing a o k es d with
  | zero => simp [accReads]
  | succ n ih =>
    simp only [accReads]
    rw [accReadWord_shared a o _ (headD_quiet he) s hc h (by omega)]
    dsimp only
    rw [if_neg (by decide)]
    have := ih (a + 4) (o + 4) (k + 1) (es.drop 1) (d ++ [BitVec.ofNat 32 (ofLE (Memory.getAll s.mem.shared o 4))]) (drop_quiet he) (by omega) (by omega)
    simp only [AccRun.fail, if_true]
    rw [this]
    congr 1
    simp only [List.range_succ_eq_map, List.map_cons, List.map_map, List.append_assoc, List.singleton_append, AccRun.mk.injEq, true_and]
    refine ⟨by omega, ?_⟩
    congr 2
    apply List.map_congr_left
    intro i _
    simp only [Function.comp]
    rw [show o + 4 * (i + 1) = o + 4 + 4 * i by omega]

theorem accWrites_shared (k : Nat) (ws : List Word) (a o w : Nat) (es : List BankEnv) (s : State) (he : QuietEnvs es) (hc : coreAnswers s = true)
    (h : a = 0x100000 + o) (h2 : o + 4 * ws.length ≤ 0x1B000) :
    ∃ l, ∀ hp, accWrites k ws a es { status := 0, words := w, xbCode := 0, data := [] } { s with hp := hp } =
      ({ status := 0, words := w + ws.length, xbCode := 0, data := [] },
       { s with hp := hp, mem := { s.mem with shared := Memory.putAll s.mem.shared o (ws.flatMap (fun w => toLE 4 w.toNat)), portA := l } }) := by
  induction ws generalizing a o w es s with
  | nil => exact ⟨s.mem.portA, fun hp => rfl⟩
  | cons x ws ih =>
    simp only [List.length_cons] at h2
    have e3 : isShared a = true := by simp [isShared]; omega
    have e5 : a - 0x100000 = o := by omega
    have e4 : inSystemArea o = false := by simp [inSystemArea]; omega
    have fw : ∃ l, ∀ hp, frameWrite o x k (es.headD { sameCycle := false, ecc := .ok }) { s with hp := hp } =
        { s with hp := hp, mem := { s.mem with shared := Memory.putAll s.mem.shared o (toLE 4 x.toNat), portA := l } } := by
      simp only [frameWrite, (headD_quiet he).2, noteEcc, portAWrite, sharedPut, sharedGet]
      exact ⟨_, fun hp => rfl⟩
    obtain ⟨l, fw⟩ := fw
    obtain ⟨l', z⟩ := ih (a + 4) (o + 4) (w + 1) (es.drop 1) { s with mem := { s.mem with shared := Memory.putAll s.mem.shared o (toLE 4 x.toNat), portA := l } }
      (drop_quiet he) hc (by omega) (by omega)
    refine ⟨l', fun hp => ?_⟩
    have hc' : coreAnswers { s with hp := hp } = true := hc
    have hw : accWriteWord a k x (es.headD { sameCycle := false, ecc := .ok }) { s with hp := hp } =
        (0, frameWrite o x k (es.headD { sameCycle := false, ecc := .ok }) { s with hp := hp }) := by
      simp only [accWriteWord, hc', e3, e5, e4, if_true, if_false, Bool.true_eq_false, Bool.false_eq_true]
    simp only [accWrites, hw]
    rw [if_neg (by decide)]
    simp only [AccRun.fail, if_true]
    rw [fw, z hp]
    simp only [List.flatMap_cons, Memory_putAll_append, toLE_length, List.length_cons, Prod.mk.injEq, AccRun.mk.injEq, and_true, true_and]
    omega

theorem rowOf_mgt {a : Nat} (h : isMgt a = true) : rowOf a = some (0x001000, 0x001FFF) := by
  simp [isMgt] at h
  unfold rowOf
  have : ¬ 0x800000 ≤ a := by omega
  simp only [this, if_false, mapRows, List.find?]
  split
  · rename_i k; simp at k; omega
  · split
    · rfl
    · rename_i k; simp at k; omega

theorem runOne (q : AccReq) (qs : List AccReq) (c : AccCmd) (es : List BankEnv) (s1 : State) (h1 : s1.hp.held = q :: qs) (h3 : q.done = [])
    (e : AccEntry) (s2 : State) (n : Nat) (g1 : accCommand c 0 false es s1 = { accDone e s2 with used := n }) (g2 : s2.hp = s1.hp) :
    accRunAll [c] 0 es s1 = { s2 with hp := { s1.hp with held := { q with done := [e], waitTag := none, landed := none, sent := 0 } :: qs } } := by
  unfold accRunAll
  rw [h1]
  dsimp only
  have sk : (q.flags.getLsbD 0 && q.done.any (fun e => e.status != 0)) = false := by rw [h3]; simp
  rw [sk, g1]
  simp only [accDone, accRunAll, updHead, g2, h1, upd, h3, List.nil_append]

theorem oneCmd (q : AccReq) (qs : List AccReq) (c : AccCmd) (es : List BankEnv) (s : State) (hp : inPlay s = true) (h1 : s.hp.held = q :: qs)
    (h2 : q.cmds = [c]) (h3 : q.done = []) (e : AccEntry) (s2 : State)
    (h : ∀ s1 : State, (∃ h, s1 = { s with hp := h, mem := { s.mem with portA := [] } }) → ∃ m, accCommand c 0 false es s1 = { accDone e { s2 with hp := s1.hp } with used := m }) :
    exec (.accessFrameExecute es) s = .next { s2 with hp := { s.hp with held := { q with
      started := some (q.started.getD (stampNow s))
      done := [e]
      waitTag := none
      landed := none
      sent := 0 } :: qs } } := by
  simp only [exec, execAccessFrameExecute, hp, if_true, accessExecute, h1, h2, h3, List.length_nil, List.drop_zero]
  generalize stampNow s = w
  have hs2 : (updHead (fun x => { x with started := some (x.started.getD w) }) (portABegin s)) =
      { s with
        hp := { s.hp with held := { q with started := some (q.started.getD w) } :: qs }
        mem := { s.mem with portA := [] } } := by
    unfold updHead portABegin
    dsimp only
    rw [h1]
    rfl
  obtain ⟨m, g1⟩ := h _ ⟨_, hs2⟩
  rw [runOne { q with started := some (q.started.getD w) } qs c es _ (by rw [hs2]) h3 e _ m g1 rfl, hs2, ← h2]

theorem buffer_one (m : Inbound) (r : Route) (c e : Nat) (down : Bool) (s : State) (hl : s.eth.length = 9) (h4 : e ≤ 8) (h8 : c < 6)
    (g2 : (ethAt e s).queues.length = 6) (hg : Roomy e c m.bytes.length s) (hr : m.ring = []) (hk : m.kind ≠ .serial) :
    Frame [.eth, .pairs, .cls, .rte] s (bufferAndQueue m r c down [e] s) ∧
      (∃ x ∈ (bufferAndQueue m r c down [e] s).cls.msgs, x.id = s.cls.nextMsg ∧ x.kind = m.kind ∧ x.bytes = m.bytes ∧
        ∃ q, (queueOf e c (bufferAndQueue m r c down [e] s)).getLast? = some q ∧ q.msg = x.id) := by
  obtain ⟨g1, g3⟩ := hg
  obtain ⟨⟨own, rest⟩, ha⟩ := Option.isSome_iff_exists.1 g3
  have hc' : (BitVec.ofNat 3 c).toNat = c := by
    rw [BitVec.toNat_ofNat]
    omega
  have f1 : [e].filter (fun p => decide (p ≤ 8)) = [e] := by simp [h4]
  have f2 : [e].filter (fun p => p == 11 || p == 12) = [] := by
    have : (e == 11 || e == 12) = false := by
      simp
      omega
    simp [this]
  have f3 : ([e] : List Nat).contains 9 = false := by
    simp
    omega
  have key : ∀ (msg : Msg) (s2 : State), msg.cls.toNat = c → (∃ y z, s2 = { s with cls := y, rte := z }) → msg ∈ s2.cls.msgs → msg.id = s.cls.nextMsg → msg.kind = m.kind →
      msg.bytes = m.bytes → msg.ring = [] → Frame [.eth, .pairs, .cls, .rte] s (queueInts msg [] (queueSers msg [] (queueRing msg (queueEths msg [e] none s2)))) ∧
        (∃ x ∈ (queueInts msg [] (queueSers msg [] (queueRing msg (queueEths msg [e] none s2)))).cls.msgs, x.id = s.cls.nextMsg ∧ x.kind = m.kind ∧ x.bytes = m.bytes ∧
        ∃ q, (queueOf e c (queueInts msg [] (queueSers msg [] (queueRing msg (queueEths msg [e] none s2))))).getLast? = some q ∧ q.msg = x.id) := by
    rintro msg s2 k1 ⟨y, z, k2⟩ k3 k0 k4 k5 k6
    have h' : ∀ p ∈ [e], p ≤ 8 ∧ p < s2.eth.length ∧ msg.cls.toNat < (ethAt p s2).queues.length ∧ forwarding p s2 = true := by
      intro p hp
      have := List.mem_singleton.1 hp
      subst this
      rw [k2, k1]
      refine ⟨h4, ?_, ?_, g1⟩
      · show p < s.eth.length
        rw [hl]; omega
      · show c < (ethAt p s).queues.length
        rw [g2]; exact h8
    obtain ⟨e', x', y', q1, q2, q3, _⟩ := queueEths_spec msg [e] none s2 h' (by simp)
    have qr : queueRing msg (queueEths msg [e] none s2) = queueEths msg [e] none s2 := by
      unfold queueRing
      rw [k6]
      rfl
    simp only [queueInts, queueSers, qr]
    refine ⟨?_, ?_⟩
    · rw [q1, k2]
      intro k hk
      cases k <;> first | rfl | cases hk
    · obtain ⟨q, a, b⟩ := q3 e (by simp)
      refine ⟨msg, ?_, k0, k4, k5, q, ?_, b⟩
      · rw [q1]; exact k3
      · rw [← k1]; exact a
  unfold bufferAndQueue
  rw [ha]
  simp only [f1, f2, f3, Bool.false_eq_true, if_false]
  refine key _ _ hc' ?_ (List.mem_append_right _ (List.mem_singleton.2 rfl)) rfl rfl rfl hr
  exact ⟨_, _, rfl⟩

theorem frame_mem (s : State) (h : HpBlk) (m : MemBlk) : Frame [.hp, .mem] s { s with hp := h, mem := m } := by
  intro k hk
  cases k <;> first | rfl | cases hk

theorem allRange_any {a n : Nat} (f : Nat → Bool) (h : ∀ i, i < n → f (a + 4 * i) = false) : (accSpan a n).any f = false := by
  rw [List.any_eq_false]
  intro x hx
  simp only [accSpan, List.mem_map, List.mem_range] at hx
  obtain ⟨i, h1, h2⟩ := hx
  rw [← h2, h i h1]
  decide

theorem accCommand_shared (c : AccCmd) (k o : Nat) (es : List BankEnv) (s : State) (hco : c.addr.toNat = 0x100000 + o) (hal : o % 4 = 0)
    (hlt : o < 0x20000) (hle : o + 4 * c.words ≤ 0x20000) (hop : c.opcode = 2 ∨ c.opcode = 3) (h4 : c.preset = none) :
    accCommand c k false es s = accCore c k c.words es s := by
  have ha : 0x100000 ≤ c.addr.toNat ∧ c.addr.toNat < 0x120000 := by omega
  have hr : rowOf c.addr.toNat = some (0x100000, 0x11FFFF) := by
    unfold rowOf
    have : ¬ 0x800000 ≤ c.addr.toNat := by omega
    simp only [this, if_false, mapRows, List.find?]
    repeat (split; (exfalso; rename_i k; simp at k; omega))
    split
    · rfl
    · rename_i k
      simp at k
      omega
  have hc : isCard c.addr.toNat = false := by simp [isCard]; omega
  have hm : min c.words ((0x11FFFF + 1 - c.addr.toNat) / 4) = c.words := by omega
  have h60 : c.opcode ≠ 0x60 := by rcases hop with h | h <;> rw [h] <;> decide
  have hf : (accSpan c.addr.toNat c.words).any (fun x => frameRefused x (c.opcode == 0x02)) = false := by
    apply allRange_any
    intro i hi
    simp [frameRefused, isMgt]
    omega
  unfold accCommand
  dsimp only
  rw [h4, if_neg (by intro h; cases h), if_neg (by decide)]
  dsimp only
  rw [if_neg h60, if_neg (by omega), hr]
  dsimp only
  rw [hm, hf, if_neg (by decide), hc, if_neg (by decide)]

theorem coreAnswers_mem (s : State) (h : HpBlk) (m : MemBlk) : coreAnswers { s with hp := h, mem := m } = coreAnswers s := rfl

end Sys2Proof.Laws
end

