-- ==== Sys2Proof/Laws/SerialIn.lean ====
section
/-!
SUPPORT. Characters and sentences.
-/

namespace Sys2Proof.Laws

open Sys2Proof.Machine Sys2Proof.Safety

theorem ser_len {s : State} (h : Inv s) : s.ser.length = 24 := by
  have := h.1
  simp only [sizes, shape, List.cons.injEq] at this
  exact this.2.2.1

theorem serAt_upd (c : Nat) (f : SerChan → SerChan) (s : State) (h : c < s.ser.length) : serAt c (updSer c f s) = f (serAt c s) :=
  nth_upd_same _ _ _ h

theorem upd_upd {α : Type} (f g : α → α) (l : List α) (i : Nat) : upd f (upd g l i) i = upd (fun x => f (g x)) l i := by
  induction l generalizing i with
  | nil => cases i <;> rfl
  | cons x l ih => cases i with
    | zero => rfl
    | succ i => simp only [upd]; rw [ih]

theorem updSer_updSer (c : Nat) (f g : SerChan → SerChan) (s : State) : updSer c f (updSer c g s) = updSer c (fun x => f (g x)) s := by
  simp only [updSer, upd_upd]

theorem chanIs (c : Nat) (f : SerChan → SerChan) (s : State) (h : c < s.ser.length) :
    Frame [.ser] s (updSer c f s) ∧ ChannelIs c (f (serAt c s)) s (updSer c f s) := by
  refine ⟨?_, nth_upd_same _ _ _ h, fun d hd => nth_upd_other _ _ _ (Ne.symm hd)⟩
  intro k hk
  cases k <;> first | rfl | cases hk

theorem serBecomes {c : Nat} {f : SerChan → SerChan} {i : Instr} {s : State} {x : SerChan} (h : c < s.ser.length) (e : exec i s = .next (updSer c f s))
    (hx : f (serAt c s) = x) : ∃ t, exec i s = .next t ∧ Frame [.ser] s t ∧ ChannelIs c x s t := by
  obtain ⟨a, b⟩ := chanIs c f s h
  rw [hx] at b
  exact ⟨_, e, a, b⟩

theorem serEntry_upd (c d : Nat) (f : SerChan → SerChan) (s : State) : serEntry d (updSer c f s) = serEntry d s := rfl

theorem localNow_upd (c : Nat) (f : SerChan → SerChan) (s : State) : localNow (updSer c f s) = localNow s := rfl

theorem slotCheck_off (c : Nat) (b : Bool) (t : Nat) (s : State) (h : flagAt (serEntry c s) 0 2 = false) : slotCheck c b t s = s := by
  unfold slotCheck
  dsimp only
  split
  · rw [if_pos h]
  · rfl

theorem takeChar_good (c : Nat) (r : CharRead) (t : Stamp) (s : State) (h1 : r.framing = false) (h2 : r.parity = false) (h3 : serIdleMode (serEntry c s) = false) :
    takeChar c r t s = sentenceChar1 c (BitVec.ofNat 8 r.value) t (updSer c (fun x => { x with
      cnt := upd satInc x.cnt 0, errRun := 0, lastChar := localNow s, lineIdle := false }) s) := by
  unfold takeChar
  dsimp only
  rw [h1, h2]
  simp only [Bool.or_self, Bool.false_eq_true, if_false, false_and, h3]
  unfold serCount
  rw [updSer_updSer]

theorem takeChar_bad (c : Nat) (r : CharRead) (t : Stamp) (s : State) (i : Nat) (f : SerMsg)
    (h1 : (r.framing = true ∧ r.parity = false ∧ i = 2) ∨ (r.framing = false ∧ r.parity = true ∧ i = 3))
    (h2 : serAbrMode (serEntry c s) = 0) (h3 : serIdleMode (serEntry c s) = false) (h4 : (serAt c s).frame = some f) (hl : c < s.ser.length) :
    takeChar c r t s = updSer c (fun x => { x with
      cnt := upd satInc (upd satInc x.cnt 0) i, errRun := (serAt c s).errRun + 1, lastChar := localNow s, lineIdle := false
      frame := none, spoiled := false, rx := .idle }) s := by
  unfold takeChar
  dsimp only
  rcases h1 with ⟨a, b, rfl⟩ | ⟨a, b, rfl⟩
  all_goals
    rw [a, b]
    simp only [Bool.or_true, Bool.true_or, Bool.false_eq_true, if_true, if_false, h2, h3, ne_eq, not_true_eq_false, false_and, and_false]
    unfold serCount
    rw [updSer_updSer, updSer_updSer, serAt_upd _ _ _ hl]
    dsimp only
    rw [h4]
    simp only [Option.isSome_some, if_true]
    unfold dropFrame
    rw [updSer_updSer]

theorem sentence_grow (c : Nat) (b : Byte) (t : Stamp) (f : SerMsg) (s : State) (h1 : b ≠ 0x24) (h2 : b ≠ 0x21) (h3 : (serAt c s).frame = some f)
    (h8 : flagAt (serEntry c s) 0 2 = false) :
    sentenceChar1 c b t s =
      match sentenceStep (f.bytes ++ [b]) with
      | .complete => serComplete c { f with bytes := f.bytes ++ [b] } s
      | .checksum => serCount c 6 (dropFrame c .idle s)
      | .format => serCount c 7 (dropFrame c .discarding s)
      | .grow =>
        if serMaxLen (serEntry c s) ≤ (f.bytes ++ [b]).length then serCount c 8 (dropFrame c .discarding s)
        else updSer c (fun k => { k with frame := some { f with bytes := f.bytes ++ [b] } }) s := by
  unfold sentenceChar1
  dsimp only
  rw [if_neg (by rintro (h | h); exact h1 h; exact h2 h), h3]
  dsimp only
  rw [slotCheck_off _ _ _ _ h8, h3]
  rfl

theorem serBecomes' {c : Nat} {f : SerChan → SerChan} {i : Instr} {s u : State} {x : SerChan} (h : c < s.ser.length) (e : exec i s = .next u)
    (hu : u = updSer c f s) (hx : f (serAt c s) = x) : ∃ t, exec i s = .next t ∧ Frame [.ser] s t ∧ ChannelIs c x s t := by
  subst hu
  exact serBecomes h e hx

theorem oldestWait_keep (l : List SerChan) (i c : Nat) (m : SerMsg)
    (h : ∀ j, j < l.length → ∀ x, (nth .reset l j).wait = some x → m.origin < x.origin) : oldestWait i l (some (c, m)) = some (c, m) := by
  induction l generalizing i with
  | nil => rfl
  | cons k ks ih =>
    have h0 := h 0 (by simp)
    have hs : ∀ j, j < ks.length → ∀ x, (nth .reset ks j).wait = some x → m.origin < x.origin := fun j hj => h (j + 1) (by simpa using hj)
    change ∀ x, k.wait = some x → m.origin < x.origin at h0
    unfold oldestWait
    dsimp only
    cases hk : k.wait with
    | none => exact ih _ hs
    | some x =>
      dsimp only
      rw [if_neg (by have := h0 x hk; omega)]
      exact ih _ hs

theorem oldestWait_spec (l : List SerChan) (i j : Nat) (m : SerMsg) (b : Option (Nat × SerMsg)) (hj : j < l.length) (hw : (nth .reset l j).wait = some m)
    (h : ∀ d, d < l.length → d ≠ j → ∀ x, (nth .reset l d).wait = some x → m.origin < x.origin)
    (hb : ∀ d x, b = some (d, x) → m.origin < x.origin) : oldestWait i l b = some (i + j, m) := by
  induction l generalizing i j b with
  | nil => simp at hj
  | cons k ks ih =>
    cases j with
    | zero =>
      change k.wait = some m at hw
      have hs : ∀ d, d < ks.length → ∀ x, (nth .reset ks d).wait = some x → m.origin < x.origin := fun d hd => h (d + 1) (by simpa using hd) (by omega)
      unfold oldestWait
      dsimp only
      rw [hw]
      cases b with
      | none => exact oldestWait_keep ks _ _ _ hs
      | some y =>
        obtain ⟨d, x⟩ := y
        dsimp only
        rw [if_pos (hb d x rfl)]
        exact oldestWait_keep ks _ _ _ hs
    | succ j =>
      change (nth .reset ks j).wait = some m at hw
      have hs : ∀ d, d < ks.length → d ≠ j → ∀ x, (nth .reset ks d).wait = some x → m.origin < x.origin :=
        fun d hd hne => h (d + 1) (by simpa using hd) (by omega)
      have h0 : ∀ x, k.wait = some x → m.origin < x.origin := h 0 (by simp) (by omega)
      unfold oldestWait
      dsimp only
      rw [show i + (j + 1) = i + 1 + j by omega]
      apply ih (i + 1) j _ (by simpa using hj) hw hs
      intro d x hx
      cases hk : k.wait with
      | none => rw [hk] at hx; exact hb d x hx
      | some y =>
        rw [hk] at hx
        cases b with
        | none =>
          dsimp only at hx
          cases hx
          exact h0 _ hk
        | some z =>
          dsimp only at hx
          split at hx
          · cases hx
            exact h0 _ hk
          · exact hb d x hx

theorem raiseSer_at (e : Ev) (b c : Nat) (d : Word) (s : State) (h : e.pendAt = .ser b) (hl : c < s.ser.length) :
    serAt c (raiseAt e c d s) = { serAt c s with int := setBit (serAt c s).int b } ∧
      (∀ q, q ≠ c → serAt q (raiseAt e c d s) = serAt q s) ∧
      (∃ v, raiseAt e c d s = { s with ser := (raiseAt e c d s).ser, evt := v }) := by
  obtain ⟨q, o, n, z⟩ := raiseAt_evt e c d s
  rw [z, h]
  exact ⟨nth_upd_same _ _ _ hl, fun q hq => nth_upd_other _ _ _ (Ne.symm hq), ⟨_, rfl⟩⟩

theorem reportSer (e : Ev) (b c : Nat) (d : Word) (s0 s : State) (h : e.pendAt = .ser b) (hb : b < 6) (hl : c < s.ser.length)
    (ht : s.tmb = s0.tmb) (hi : (serAt c s).int = (serAt c s0).int) : Reported e c d s0 (raiseAt e c d s) := by
  apply raiseAt_reported
  · rw [ht]; exact ⟨rfl, rfl⟩
  · rw [h]
    show (serAt c s).int.getLsbD b = (serAt c s0).int.getLsbD b
    rw [hi]
  · intro _
    rw [h]
    show (nth SerChan.reset (upd _ s.ser c) c).int.getLsbD b = true
    rw [nth_upd_same _ _ _ hl]
    simp [setBit, hb]

theorem allot_recs (c n : Nat) {s t : State} (h1 : s.cls.recs = t.cls.recs) (h2 : s.mem = t.mem) (h3 : s.pos = t.pos) :
    allot c n s = allot c n t := by
  have b : ∀ ty, bodyOf ty s = bodyOf ty t := fun ty => by simp only [bodyOf, h3]
  have r : ∀ c, reserveOf c s = reserveOf c t := fun c => by simp only [reserveOf, b]
  have p : poolSize s = poolSize t := by
    unfold poolSize
    rw [h2]
    simp only [r]
  have u : poolUsed s = poolUsed t := by unfold poolUsed; rw [h1]
  have d : descUsed s = descUsed t := by unfold descUsed; rw [h1]
  unfold allot
  rw [r, p, u, d, h1, h2]

end Sys2Proof.Laws
end

