-- ==== Sys2Proof/Laws/SerialOut.lean ====
section
/-!
SUPPORT. Serial transmission.
-/

namespace Sys2Proof.Laws

open Sys2Proof.Machine Sys2Proof.Safety

theorem firstClass_at (e c : Nat) (s : State) (h2 : c < 6) (h3 : ∀ d, c < d → d < 6 → queueOf e d s = []) (h4 : (queueOf e c s).isEmpty = false) :
    firstClass e [5, 4, 3, 2, 1, 0] s = some c := by
  have hc : (!(queueOf e c s).isEmpty) = true := by rw [h4]; rfl
  have he : ∀ d, c < d → d < 6 → (!(queueOf e d s).isEmpty) = false := fun d a b => by rw [h3 d a b]; rfl
  have : c = 0 ∨ c = 1 ∨ c = 2 ∨ c = 3 ∨ c = 4 ∨ c = 5 := by omega
  rcases this with rfl | rfl | rfl | rfl | rfl | rfl
  · simp only [firstClass, List.find?, hc, he 5 (by decide) (by decide), he 4 (by decide) (by decide), he 3 (by decide) (by decide), he 2 (by decide) (by decide), he 1 (by decide) (by decide)]
  · simp only [firstClass, List.find?, hc, he 5 (by decide) (by decide), he 4 (by decide) (by decide), he 3 (by decide) (by decide), he 2 (by decide) (by decide)]
  · simp only [firstClass, List.find?, hc, he 5 (by decide) (by decide), he 4 (by decide) (by decide), he 3 (by decide) (by decide)]
  · simp only [firstClass, List.find?, hc, he 5 (by decide) (by decide), he 4 (by decide) (by decide)]
  · simp only [firstClass, List.find?, hc, he 5 (by decide) (by decide)]
  · simp only [firstClass, List.find?, hc]

theorem ser_queue (c cl : Nat) (r : List QEntry) (s : State) :
    setQueue (64 + c) cl r s = updSer c (fun p => { p with queues := upd (fun _ => r) p.queues cl }) s := by
  unfold setQueue updSer
  rw [if_neg (by omega), if_neg (by omega), if_neg (by omega), show 64 + c - 64 = c by omega]

theorem mayStart_free (c n : Nat) (s : State) (h : serDuplex (serEntry c s) = 0 ∨ (serAt c s).rx ≠ .blinded) (h2 : serSlottedE (serEntry c s) = false) : mayStart c n s = true := by
  unfold mayStart
  dsimp only
  rw [h2]
  rcases h with h | h
  · simp [h]
  · simp [h]

theorem tryTx_free (c : Nat) (t : SerTx) (s : State) (h : serDuplex (serEntry c s) = 0 ∨ (serAt c s).rx ≠ .blinded) (h2 : serSlottedE (serEntry c s) = false)
    (h3 : serData (serEntry c s) = 8) : tryTx c t s = beginTx c t s := by
  unfold tryTx
  dsimp only
  rw [if_neg (by rw [h3]; rintro ⟨a, _⟩; cases a), if_neg (by rw [h2]; rintro ⟨a, _⟩; cases a), if_pos (mayStart_free c _ s h h2)]

theorem tryTx_upd (c : Nat) (t : SerTx) (f : SerChan → SerChan) (s : State) (hl : c < s.ser.length)
    (h : serDuplex (serEntry c s) = 0 ∨ (f (serAt c s)).rx ≠ .blinded) (h2 : serSlottedE (serEntry c s) = false)
    (h3 : serData (serEntry c s) = 8) : tryTx c t (updSer c f s) = beginTx c t (updSer c f s) := by
  apply tryTx_free
  · rw [serEntry_upd, serAt_upd c f s hl]; exact h
  · rw [serEntry_upd]; exact h2
  · rw [serEntry_upd]; exact h3

theorem parts_plain (c : Nat) (m : Msg) (s : State) (h1 : m.kind ≠ .tunnel) (h2 : m.kind ≠ .serial) : serialParts c m s = [m.bytes] := by
  unfold serialParts
  cases hk : m.kind <;> first | rfl | exact absurd hk h1 | exact absurd hk h2

theorem queueOf_ser (c cl : Nat) (s : State) : queueOf (64 + c) cl s = nth [] (serAt c s).queues cl := by
  unfold queueOf queuesOf serAt
  rw [if_neg (by omega), if_neg (by omega), if_neg (by omega), show 64 + c - 64 = c by omega]

theorem raiseSer_len (e : Ev) (b c : Nat) (d : Word) (s : State) (h : e.pendAt = .ser b) : (raiseAt e c d s).ser.length = s.ser.length := by
  obtain ⟨q, o, n, z⟩ := raiseAt_evt e c d s
  rw [z, h]
  exact upd_length _ _ _

theorem nth_upd_congr {α : Type} (d : α) (f : α → α) (l r : List α) (i : Nat) (hl : l.length = r.length) (h : nth d l i = nth d r i) :
    nth d (upd f l i) i = nth d (upd f r i) i := by
  by_cases k : i < l.length
  · rw [nth_upd_same d f l k, nth_upd_same d f r (by omega), h]
  · rw [nth_past d _ _ (by rw [upd_length]; omega), nth_past d _ _ (by rw [upd_length]; omega)]

end Sys2Proof.Laws
end

