-- ==== Sys2Proof/Laws/Measure.lean ====
section
/-!
SUPPORT. Mailboxes, SV frames and alignment rows.
-/

namespace Sys2Proof.Laws

open Sys2Proof.Machine Sys2Proof.Safety

theorem unrouted_spec (m : Inbound) (s : State) (h1 : lookup m.key s = none) (h2 : m.ring = []) (h3 : m.deliver = true) :
    ∃ a b, enterBoard m s = { s with cls := a, evt := b } := by
  unfold enterBoard
  rw [h1]
  dsimp only
  unfold withoutRoute
  rw [h2, h3]
  simp only [List.isEmpty_nil, if_true]
  unfold unrouted raise
  dsimp only
  generalize BitVec.ofNat 32 _ = w
  obtain ⟨q, o, n, z⟩ := raiseAt_evt .rteUnrouted 0 w { s with cls := { s.cls with unroutedCnt := satInc s.cls.unroutedCnt } }
  rw [z]
  exact ⟨_, _, rfl⟩

theorem enterBoard_congr (n : Inbound) (r : Route) (e : Nat) (s v : State) (hI : Inv s) (hp : n.port ≠ e) (hd : n.deliver = true) (hr : n.ring = [])
    (g1 : lookup n.key s = some r) (g2 : resEnabled r.res = true) (g3 : keptPorts n r s = [e]) (g4 : e ≤ 8) (g5 : resFilter r.res = none)
    (g6 : routeBound r.id s = none) (g7 : messageClass n r s < 6) (g8 : ∀ k, k < 8 → pairMode k s = 0) (g9 : Roomy e (messageClass n r s) n.bytes.length s)
    (e1 : v.eth = s.eth) (e2 : v.rte = s.rte) (e3 : v.pos = s.pos) (e4 : v.cls.recs = s.cls.recs) (e5 : v.mem = s.mem) :
    Frame [.eth, .pairs, .cls, .rte] v (enterBoard n v) ∧ Sent n.kind e (messageClass n r s) n.bytes (enterBoard n v) := by
  have mc := messageClass_congr n r e2 e3
  rw [← mc]
  refine enterBoard_one n r e v (by rw [e1]; exact eth_len hI) (by rw [← g1]; exact lookup_congr _ e2 e3) g2 (by rw [← g3]; exact keptPorts_congr _ _ e3) g4
    (Ne.symm hp) g5 (by rw [← g6]; exact routeBound_congr _ e3) (by rw [mc]; exact g7)
    (by unfold ethAt; rw [e1]; exact (Inv_port hI e).2.2) ?_ (fun k hk => by rw [pairMode_congr k e3]; exact g8 k hk) hd hr
  obtain ⟨a1, a3⟩ := g9
  refine ⟨?_, ?_⟩
  · rw [← a1]; unfold forwarding; rw [e1]
  · rw [mc, ← a3]; exact congrArg Option.isSome (allot_recs _ _ e4 e5 e3)

theorem stream_set (b : Bool) (m : MuStream) (s : State) : muStream b (setStream b m s) = m := by
  cases b <;> rfl

theorem setStream_cnv (b : Bool) (m : MuStream) (s : State) : ∃ c, setStream b m s = { s with cnv := c } := by
  cases b
  · exact ⟨{ s.cnv with stream0 := m }, rfl⟩
  · exact ⟨{ s.cnv with stream1 := m }, rfl⟩

theorem alignRows (l : List (Nat × List (Int × Nat × Bool))) (q : Nat) (r : AlnRow) (s : State) (h : ∀ i, lookup (internalKey 12 0 i) s = none) :
    ∃ a b, handRows q r l s = { s with cls := a, evt := b } := by
  induction l generalizing s with
  | nil => exact ⟨s.cls, s.evt, rfl⟩
  | cons x xs ih =>
    obtain ⟨i, os⟩ := x
    unfold handRows
    obtain ⟨a, b, z⟩ := unrouted_spec (internalMsg .alRow 12 0 i (alMessage q r i os) 0 false s) s (h i) rfl rfl
    rw [z]
    obtain ⟨a', b', z'⟩ := ih { s with cls := a, evt := b } (fun j => by rw [← h j]; exact lookup_congr _ rfl rfl)
    rw [z']
    exact ⟨a', b', rfl⟩

theorem noteOutputs_spec (l : List (Nat × List (Int × Nat × Bool))) (r : AlnRow) (s : State) :
    ∃ a u i b, noteOutputs r l s = { s with aln := { s.aln with subs := u, int := i }, evt := b } ∧ a = 0 := by
  induction l generalizing s with
  | nil => exact ⟨0, s.aln.subs, s.aln.int, s.evt, rfl, rfl⟩
  | cons x xs ih =>
    obtain ⟨i, os⟩ := x
    unfold noteOutputs
    dsimp only
    split
    · obtain ⟨q, o, n, z⟩ := raiseAt_evt .alnInvalid 0 (BitVec.ofNat 32 i) (updSub i (fun k => { k with
        out := os.map (fun o => (o.1, o.2.1)), wasValid := (os.any (fun o => o.2.1 % 4 != 1)),
        bridged := if os.any (fun o => o.2.2) then satInc k.bridged else k.bridged }) s)
      unfold raise
      rw [z]
      obtain ⟨a, u, i, b, z', h⟩ := ih _
      rw [z']
      exact ⟨a, u, i, b, rfl, h⟩
    · obtain ⟨a, u, i, b, z', h⟩ := ih _
      rw [z']
      exact ⟨a, u, i, b, rfl, h⟩

theorem noteOverloads_clear (base i : Nat) (l : List Bool) (s : State) (h : ∀ o ∈ l, o = false) :
    ∃ v, noteOverloads base i l s = { s with cnv := { s.cnv with overload := v } } := by
  induction l generalizing i s with
  | nil => exact ⟨s.cnv.overload, rfl⟩
  | cons o os ih =>
    unfold noteOverloads
    have : o = false := h o (by simp)
    subst this
    obtain ⟨v, z⟩ := ih (i + 1) (noteOverload (base + i) false s) (fun o ho => h o (by simp [ho]))
    rw [z]
    exact ⟨v, rfl⟩

theorem group_set (b : Bool) (g : CnvGroup) (s : State) : cnvGroup b (setGroup b g s) = g ∧ cnvGroup (!b) (setGroup b g s) = cnvGroup (!b) s := by
  cases b <;> exact ⟨rfl, rfl⟩

theorem setGroup_cnv (b : Bool) (g : CnvGroup) (s : State) : ∃ c, setGroup b g s = { s with cnv := c } := by
  cases b
  · exact ⟨{ s.cnv with groupA := g }, rfl⟩
  · exact ⟨{ s.cnv with groupB := g }, rfl⟩

theorem oor_off (ch : Nat) (s : State) (h : ∀ st, flagAt (pubEntry st s) 0 0 = false) : oorThresholds ch s = [] := by
  unfold oorThresholds
  simp only [h, Bool.false_eq_true, if_false, List.flatMap_cons, List.flatMap_nil, List.append_nil]

theorem four (l : List Int) (h : l.length = 4) : (List.range 4).map (fun c => nth 0 l c) = l := by
  match l, h with
  | [a, b, c, d], _ => rfl

end Sys2Proof.Laws
end

