-- ==== Sys2Proof/Laws/Edits.lean ====
section
/-!
SUPPORT. Live edits.
-/

namespace Sys2Proof.Laws

open Sys2Proof.Machine Sys2Proof.Safety

theorem lookupD_put_same {β : Type} (d : β) (k : Nat) (v : β) (l : List (Nat × β)) : lookupD d k (putAssoc k v l) = v := by
  induction l with
  | nil => simp [putAssoc, lookupD]
  | cons x l ih =>
    obtain ⟨j, w⟩ := x
    unfold putAssoc
    split
    · simp [lookupD]
    · rename_i h
      simp [lookupD, h, ih]

theorem lookupD_put_other {β : Type} (d : β) (k j : Nat) (v : β) (l : List (Nat × β)) (h : j ≠ k) : lookupD d j (putAssoc k v l) = lookupD d j l := by
  induction l with
  | nil => simp [putAssoc, lookupD, Ne.symm h]
  | cons x l ih =>
    obtain ⟨n, w⟩ := x
    unfold putAssoc
    split
    · rename_i e
      subst e
      simp [lookupD, Ne.symm h]
    · simp [lookupD, ih]

theorem setEditBuf_spec (frame : Bool) (b : Option EditBuf) (s : State) :
    Frame [.rte] s (setEditBuf frame b s) ∧ editBuf frame (setEditBuf frame b s) = b ∧ editBuf (!frame) (setEditBuf frame b s) = editBuf (!frame) s ∧
      (setEditBuf frame b s).rte.edits = s.rte.edits := by
  refine ⟨?_, ?_, ?_, ?_⟩
  · intro k hk
    cases k <;> first | rfl | cases hk
  all_goals cases frame <;> rfl

end Sys2Proof.Laws
end

