-- ==== Sys2Proof/Laws/ArbOps.lean ====
section
/-!
SUPPORT. Orders, APPLY and GOOSE.
-/

namespace Sys2Proof.Laws

open Sys2Proof.Machine Sys2Proof.Safety

theorem pub_len {s : State} (h : Inv s) : s.arb.pubs.length = 32 ∧ s.arb.subs.length = 128 := by
  have := h.1
  simp only [sizes, shape, List.cons.injEq] at this
  omega

theorem frameArb (s : State) (a : ArbBlk) : Frame [.arb] s { s with arb := a } := by
  intro k hk
  cases k <;> first | rfl | cases hk

theorem upd_const {α : Type} (f : α → α) (l : List α) (i : Nat) (d : α) (h : i < l.length) : upd f l i = upd (fun _ => f (nth d l i)) l i := by
  induction l generalizing i with
  | nil => simp at h
  | cons x l ih => cases i with
    | zero => rfl
    | succ i => simp only [upd]; rw [ih i (by simpa using h)]; rfl

theorem sendGoose_shape (b : Nat) (u : State) :
    ∃ m1 : Inbound, sendGoose b 0 u = enterBoard m1 (updPub b (fun p => { p with
        txCnt := satInc p.txCnt
        due := some (localNow u + pubInterval (goosePubEntry b u) p.k * 250000) }) u) ∧
      m1.kind = .goose ∧ m1.port = 11 ∧ m1.bytes = gooseFrame b u ∧ m1.key = internalKey 11 0 b ∧ m1.deliver = true ∧ m1.ring = [] ∧
      (∀ r s, keptPorts m1 r s = keptPorts (internalMsg .goose 11 0 b (gooseFrame b u) 0x88B8 (tplTagMode (templateEntry (be16 (goosePubEntry b u) 2) u) == 2) s) r s) ∧
      (∀ r s, messageClass m1 r s = messageClass (internalMsg .goose 11 0 b (gooseFrame b u) 0x88B8 (tplTagMode (templateEntry (be16 (goosePubEntry b u) 2) u) == 2) s) r s) := by
  unfold sendGoose
  dsimp only
  simp only [Nat.mul_zero, Nat.add_zero]
  generalize gooseFrame b u = bytes
  exact ⟨_, rfl, rfl, rfl, rfl, rfl, rfl, rfl, fun _ _ => rfl, fun _ _ => rfl⟩

end Sys2Proof.Laws
end

