-- ==== Sys2Proof/Laws/Cards.lean ====
section
/-!
SUPPORT. The expansion bridge.
-/

namespace Sys2Proof.Laws

open Sys2Proof.Machine Sys2Proof.Safety

theorem slot_len {s : State} (h : Inv s) : s.xb.slots.length = 8 ∧ s.mgt.pick.length = 4 := by
  have := h.1
  simp only [sizes, shape, List.cons.injEq] at this
  omega

theorem frameXb (s : State) (x : XbBlk) : Frame [.xb] s { s with xb := x } := by
  intro k hk
  cases k <;> first | rfl | cases hk

theorem slot_upd (i : Nat) (f : XbSlot → XbSlot) (s : State) (h : i < s.xb.slots.length) : xbSlot i (updSlot i f s) = f (xbSlot i s) := nth_upd_same _ _ _ h

theorem assertInt_none (i : Nat) (st : Stamp) (s : State) (hl : i < s.xb.slots.length) (h : (xbSlot i s).ann = none) :
    assertInt i st s = { s with xb := { s.xb with
      slots := upd (fun k => { k with intCnt := satInc k.intCnt, ann := some { instant := st, origin := localNow s, more := none } }) s.xb.slots i
      queue := s.xb.queue ++ [{ bareReq 5 i (announceAddr i s) (announceLen i s) .announce with id := s.xb.nextId, joined := localNow s }]
      nextId := s.xb.nextId + 1 } } := by
  have l1 : i < (updSlot i (fun k => { k with intCnt := satInc k.intCnt }) s).xb.slots.length := by
    show _ < (upd _ _ _).length
    rw [upd_length]; exact hl
  have e : xbSlot i (updSlot i (fun k => { k with ann := some { instant := st, origin := localNow s, more := none } }) (updSlot i (fun k => { k with intCnt := satInc k.intCnt }) s)) =
      { xbSlot i s with intCnt := satInc (xbSlot i s).intCnt, ann := some { instant := st, origin := localNow s, more := none } } := by
    rw [slot_upd _ _ _ l1, slot_upd _ _ _ hl]
  unfold assertInt
  rw [h]
  dsimp only
  unfold queueAnnounce announceAddr announceLen
  rw [e]
  unfold xbJoin updSlot
  dsimp only
  rw [upd_upd]
  rfl

theorem xb_wait (x : XbBlk) (h : x.fallbackWait = []) : { x with fallbackWait := [] } = x := by
  rw [← h]

theorem arb_wait (x : ArbBlk) (h : x.cardWait = []) : { x with cardWait := [] } = x := by
  rw [← h]

theorem refill_calm (s : State) (h1 : s.xb.fallbackWait = []) (h2 : s.arb.cardWait = []) : refillPosted s = s := by
  have p : pushFallback [] s = s := by
    unfold pushFallback
    rw [h1, xb_wait s.xb h1]
    simp only [List.append_nil, pushCards]
    rw [xb_wait s.xb h1]
  unfold refillPosted
  rw [p]
  dsimp only
  rw [h2, arb_wait s.arb h2]
  simp only [pushCards]
  rw [arb_wait s.arb h2]

theorem refill_calm2 (s : State) (h1 : s.xb.fallbackWait = []) (h2 : s.arb.cardWait = []) : refillPosted s = { s with evt := s.evt, xb := s.xb } := refill_calm s h1 h2

theorem endCur_calm (s : State) (h : BridgeCalm s) : endCur s = { s with xb := { s.xb with cur := none } } := by
  obtain ⟨h1, h2, h3⟩ := h
  unfold endCur
  rw [refill_calm { s with xb := { s.xb with cur := none } } h1 h2]
  unfold issueScan
  dsimp only
  rw [h3]

theorem landPickup_spec (i code : Nat) (ws : List Word) (s : State) (hl : i < s.mgt.pick.length) :
    ∃ m g, landPickup i code ws s = { s with mgt := m, glb := g } ∧ g.mgtInt.getLsbD 0 = true ∧
      nth .empty m.pick i = { nth .empty s.mgt.pick i with
        st := if code = 0 then .done else .error
        code := BitVec.ofNat 8 code
        data := ws
        deadline := if code = 0 then some (localNow s + (if s.xb.orphanUs = 0 then 1 else s.xb.orphanUs.toNat) * 250) else none } ∧
      ∀ j, j ≠ i → nth .empty m.pick j = nth .empty s.mgt.pick j := by
  unfold landPickup
  refine ⟨_, _, rfl, ?_, nth_upd_same _ _ _ hl, fun j hj => nth_upd_other _ _ _ (Ne.symm hj)⟩
  simp [setBit]

theorem failBurst_spec (c : XbCur) (a len i code k : Nat) (s : State) (hI : Inv s) (h1 : s.xb.cur = some c) (h2 : c.burst = some (a, len, false))
    (h3 : c.req.posted = false) (h4 : c.req.dest = .pickup i) (h5 : i < 4) (h7 : BridgeCalm s) (h8 : code ≠ 0) :
    ∃ m g, failBurst code k s = { s with
        mgt := m
        glb := g
        xb := { s.xb with
          cur := none
          slots := upd (fun k => { k with
            errCnt := satInc k.errCnt
            timeoutCnt := if code = 1 then satInc k.timeoutCnt else k.timeoutCnt }) s.xb.slots c.req.slot } } ∧ g.mgtInt.getLsbD 0 = true ∧
      nth .empty m.pick i = { nth .empty s.mgt.pick i with
        st := .error
        code := BitVec.ofNat 8 code
        data := []
        deadline := none } := by
  obtain ⟨m, g, e1, e2, e3, _⟩ := landPickup_spec i code [] (endCur (countFailed c.req.slot code s)) (by rw [endCur_calm (countFailed c.req.slot code s) h7]; rw [show (countFailed c.req.slot code s).mgt = s.mgt from rfl, (slot_len hI).2]; exact h5)
  rw [endCur_calm (countFailed c.req.slot code s) h7] at e1 e3
  refine ⟨m, g, ?_, e2, ?_⟩
  · unfold failBurst
    rw [h1]
    dsimp only
    rw [h2]
    dsimp only
    rw [if_neg (by decide), endCur_calm (countFailed c.req.slot code s) h7]
    unfold finishReq
    dsimp only
    rw [h3, if_neg (by decide), h4]
    dsimp only
    rw [if_neg h8, e1]
    rfl
  · rw [e3, if_neg h8, if_neg h8]
    rfl

theorem slotAbsent_spec (i : Nat) (s : State) (hl : i < s.xb.slots.length) (h : (xbSlot i s).st = .present) (hq : s.xb.queue = [])
    (h1 : s.xb.fallbackWait = []) (h2 : s.arb.cardWait = []) :
    ∃ v y, slotAbsent i s = { s with evt := v, xb := y } ∧ y.cur = s.xb.cur ∧ y.queue = [] ∧
      nth .reset y.slots i = { xbSlot i s with st := .absent, ids := List.replicate 8 0 } ∧ y.int.getLsbD 1 = true := by
  obtain ⟨q, o, n, z⟩ := raiseAt_evt .xbSlotOut 0 (BitVec.ofNat 32 i) s
  unfold slotAbsent
  rw [h]
  simp only [if_true]
  unfold raise
  rw [z]
  simp only [Ev.pendAt, setPend, updSlot, dropSlotBufs, hq, List.filter_nil, flushSlot]
  refine ⟨_, _, refill_calm2 _ ?_ ?_, rfl, rfl, nth_upd_same _ _ _ hl, ?_⟩
  · exact h1
  · exact h2
  · simp [setBit]

end Sys2Proof.Laws
end

