-- ==== Sys2Proof/Laws/PowerUp.lean ====
section
/-!
SUPPORT. Power-up, resets and the ladder.
-/

namespace Sys2Proof.Laws

open Sys2Proof.Machine Sys2Proof.Safety

theorem cr_fields (src : ResetSrc) (s : State) (hr : s.sec.run = none) (hq : src = .pllLoss → s.xb.queue = [] ∧ s.xb.cur = none) :
    let t := coreReset src s
    (t.mem.shared = s.mem.shared ∧ t.mem.retStatus = s.mem.retStatus ∧ t.mem.spares = s.mem.spares ∧
      t.sec.otp = s.sec.otp ∧ t.pos.active = s.pos.active ∧ t.pos.fallback = s.pos.fallback ∧
      t.pos.running = false ∧ t.pwr.bootSrc = src ∧ t.pwr.ladder = .play ∧ t.tmb = State.reset.tmb ∧
      t.ptp = State.reset.ptp ∧ t.eth = State.reset.eth ∧ t.ser = State.reset.ser ∧ t.cnv = State.reset.cnv ∧
      t.aln = State.reset.aln ∧ t.rte = State.reset.rte ∧ t.cls = State.reset.cls ∧ t.arb = State.reset.arb ∧
      t.evt = State.reset.evt ∧ t.glb = State.reset.glb ∧ t.pending = s.pending) ∧
    t.mgt = (if src = .pllLoss then s.mgt else MgtBlk.reset) ∧ t.pwr.boot = heldOrPll s := by
  have e0 : interruptOtp (if src = .pllLoss then endFarReads s else s) = s := by
    split
    · rename_i h
      have := hq h
      have : endFarReads s = s := by
        simp only [endFarReads, this.1, this.2]
        simp [abortReads]
        cases s with
        | mk => rename_i xb _ _ _ _ _ _; simp at *; cases xb; simp_all
      rw [this]
      simp [interruptOtp, hr]
    · simp [interruptOtp, hr]
  intro t
  have e1 : (keptPos s).active = s.pos.active ∧ (keptPos s).fallback = s.pos.fallback ∧ (keptPos s).running = false := by
    unfold keptPos setPosBank
    split <;> exact ⟨rfl, rfl, rfl⟩
  and_intros <;> simp only [t, coreReset, e0, gpioFallback] <;> first | exact e1.1 | exact e1.2.1 | exact e1.2.2 | rfl

theorem get_nil (a : Nat) : Memory.get [] a = 0 := rfl

theorem getAll_nil (n a : Nat) : Memory.getAll [] a n = List.replicate n 0 := by
  induction n generalizing a with
  | zero => rfl
  | succ n ih => simp [Memory.getAll, ih, get_nil, List.replicate_succ]

theorem scan_void (s : State) (h : s.mem.shared = []) : scanLogHead s = { s with evt := { s.evt with headIdx := 0, headLap := 1, wrapped := false } } := by
  have c (i : Nat) : logCode i s = 0 := by simp [logCode, sharedGet, h, getAll_nil, ofLE]
  have f : findHead 1024 0 s = 0 := by simp [findHead, c]
  simp [scanLogHead, f, headLapAt, c]

theorem ready_go (s : State) (ue : Bool) (h1 : s.pwr.boot = .init) (hp : (becomeReady ue s).pwr.pwrFailLow = false) : exec (.ready ue) s = .next (becomeReady ue s) := by
  simp only [exec, execReady]
  rw [if_pos h1, hp]
  simp

def voidMem (m : MemBlk) (ue d : Bool) : MemBlk := { m with retChecked := true, retLatchClear := true, retEcc := ue, retCrcMismatch := d, retStatus := .void, shared := [], retLatch := false }

def voidState (s : State) (ue d : Bool) (q : PosBlk) : State :=
  { s with free := s.free + 1, pos := q, pwr := { s.pwr with boot := .ready, restEntered := false },
           therm := { s.therm with recValid := false, recSlot := 0, recSeq := 0, recLast := 0 },
           evt := { s.evt with headIdx := 0, headLap := 1, wrapped := false }, mem := voidMem s.mem ue d }

theorem ready_void (s : State) (ue : Bool) (h3 : s.sec.abortedPending = false) (h4 : s.pwr.bootSrc = .powerOn) (h5 : s.mem.latchSample = false) :
    ∃ d q, becomeReady ue s = raiseAt .memRetVoid 0 (retStatusWord (voidState s ue d q)) (voidState s ue d q) := by
  have ck : checksRegion s = true := by simp [checksRegion, h4]
  obtain ⟨d, hd⟩ : ∃ d, retentionCheck ue s = { s with free := s.free + 1, mem := voidMem s.mem ue d } := by
    refine ⟨Config.freeBit s.free, ?_⟩
    simp [retentionCheck, h5, drawn, voidMem]
  obtain ⟨q, hq⟩ : ∃ q, reportAborted (readyOutputs (scanRecords (scanLogHead { (retentionCheck ue s) with pwr := { (retentionCheck ue s).pwr with boot := .ready, restEntered := false } }))) = voidState s ue d q := by
    rw [hd, scan_void _ rfl]
    refine ⟨(readyOutputs (voidState s ue d s.pos)).pos, ?_⟩
    unfold reportAborted
    rw [if_neg]
    · rfl
    · show ¬ s.sec.abortedPending = true
      simp [h3]
  refine ⟨d, q, ?_⟩
  unfold becomeReady
  simp only [ck, if_true]
  rw [hq]
  rfl

theorem reach_fields (l : Ladder) (s : State) : (reachState l s).pwr.ladder = l ∧ (reachState l s).cnv = s.cnv ∧ (reachState l s).xb = s.xb ∧ Frame [.pwr] s (reachState l s) := by
  unfold reachState
  dsimp only
  split
  · split
    · refine ⟨rfl, rfl, rfl, ?_⟩
      intro p hp
      cases p <;> first | rfl | cases hp
    · refine ⟨rfl, rfl, rfl, ?_⟩
      intro p hp
      cases p <;> first | rfl | cases hp
  · refine ⟨rfl, rfl, rfl, ?_⟩
    intro p hp
    cases p <;> first | rfl | cases hp

end Sys2Proof.Laws
end

