-- ==== Sys2Proof/Laws/Registers.lean ====
section
/-!
SUPPORT. Reads of counters and FIFOs.
-/

namespace Sys2Proof.Laws

open Sys2Proof.Machine Sys2Proof.Safety

theorem nth_upd_const {α : Type} (d : α) (l : List α) (i : Nat) : nth d (upd (fun _ => d) l i) i = d := by
  induction l generalizing i with
  | nil => rfl
  | cons x l ih => cases i with
    | zero => rfl
    | succ i => exact ih i

theorem frameEth (s : State) (e : List EthPort) : Frame [.eth] s { s with eth := e } := by
  intro p hp
  cases p <;> first | rfl | cases hp

theorem frameTmb (s : State) (e : TmbBlk) : Frame [.tmb] s { s with tmb := e } := by
  intro p hp
  cases p <;> first | rfl | cases hp

theorem framePtp (s : State) (e : PtpBlk) : Frame [.ptp] s { s with ptp := e } := by
  intro p hp
  cases p <;> first | rfl | cases hp

end Sys2Proof.Laws
end

