-- ==== Sys2Proof/Laws/Time.lean ====
section
/-!
SUPPORT. One addition of the time base as a whole number, and comparators.
-/

namespace Sys2Proof.Laws

open Sys2Proof.Machine Sys2Proof.Safety

theorem loadUnits_units (u : Nat) (t : TmbBlk) (h : u < secUnits) :
    timeUnits (loadUnits u t) = u ∧ (loadUnits u t).ns.toNat < 1000000000 := by
  simp only [secUnits, slewUnit] at h
  simp only [timeUnits, loadUnits, slewUnit, BitVec.toNat_ofNat]
  have e1 : u / 1000000 / 4294967296 < 1000000000 := by omega
  have e2 : u / 1000000 / 4294967296 % 2 ^ 30 = u / 1000000 / 4294967296 := Nat.mod_eq_of_lt (by omega)
  have e3 : u / 1000000 % 4294967296 % 2 ^ 32 = u / 1000000 % 4294967296 := Nat.mod_eq_of_lt (by omega)
  rw [e2, e3]
  omega

theorem loadUnits_secs (u : Nat) (t : TmbBlk) : (loadUnits u t).secs = t.secs := rfl

theorem addTime_eq (k : Nat) (t : TmbBlk) (u : Nat) (neg : Bool)
    (hn : (t.slew = none ∧ neg = false) ∨ ∃ w, t.slew = some w ∧ w.neg = neg)
    (hu : (if neg = true then timeUnits t + k * t.addend.toNat * slewUnit - slewPart k t
      else timeUnits t + k * t.addend.toNat * slewUnit + slewPart k t) = u) :
    addTime k t = loadUnits (if decide (secUnits ≤ u) = true then u - secUnits else u)
      { t with localCnt := t.localCnt + BitVec.ofNat 64 k, slew := slewAfter (slewPart k t) t.slew, secs := if decide (secUnits ≤ u) = true then t.secs + 1 else t.secs, carries := if decide (secUnits ≤ u) = true then (t.addend :: t.carries).take 16 else t.carries } := by
  subst hu
  unfold addTime
  rcases hn with ⟨h, rfl⟩ | ⟨w, h, rfl⟩ <;> simp only [h]

theorem below2 {v a d : Nat} (h : v < secUnits) (ha : a ≤ 10 * 17197049053) (hd : d ≤ a * 500) : v + a * slewUnit + d < 2 * secUnits := by
  simp only [secUnits, slewUnit] at *
  omega

theorem addTime_total (s : State) (k : Nat) (h : TimeFits s.tmb.ns s.tmb.sub s.tmb.addend s.tmb.slew) (hk : k ≤ 10) :
    let t : State := { s with tmb := addTime k s.tmb }
    t.tmb.ns.toNat < 1000000000 ∧
        ((deviceTime t : Int) - deviceTime s - (k * s.tmb.addend.toNat * slewUnit : Nat) - slewShare k s) % (2 ^ 48 * secUnits : Nat) = 0 ∧
        (t.tmb.secs = s.tmb.secs ∨ t.tmb.secs = s.tmb.secs + 1) := by
  obtain ⟨h1, h2, _, h3, h5⟩ := h
  have ha : s.tmb.addend.toNat ≤ 17197049053 := by
    have := BitVec.le_def.1 h3
    simpa [addendMax] using this
  have hadd : k * s.tmb.addend.toNat ≤ 10 * 17197049053 := Nat.mul_le_mul hk ha
  have hfr := s.tmb.frac.isLt
  have hd : ∀ w, s.tmb.slew = some w → k * s.tmb.addend.toNat * w.ppm ≤ k * s.tmb.addend.toNat * 500 :=
    fun w hw => Nat.mul_le_mul_left _ (h5 w hw)
  have hU : timeUnits s.tmb < secUnits := by
    simp only [timeUnits, secUnits, slewUnit] at *
    omega
  have hs : (s.tmb.secs + 1).toNat = s.tmb.secs.toNat + 1 ∨ ((s.tmb.secs + 1).toNat = 0 ∧ s.tmb.secs.toNat + 1 = 2 ^ 48) := by
    rw [BitVec.toNat_add]
    have := s.tmb.secs.isLt
    have one : BitVec.toNat (1 : BitVec 48) = 1 := rfl
    rw [one]
    omega
  generalize hA : k * s.tmb.addend.toNat = A at *
  have key : ∀ (u : Nat) (lc : BitVec 64) (sl : Option Slew) (ca : List (BitVec 64)),
      (u : Int) = timeUnits s.tmb + (A * slewUnit : Nat) + slewShare k s →
      u < 2 * secUnits →
      addTime k s.tmb = loadUnits (if decide (secUnits ≤ u) = true then u - secUnits else u) { s.tmb with localCnt := lc, slew := sl, secs := if decide (secUnits ≤ u) = true then s.tmb.secs + 1 else s.tmb.secs, carries := ca } → 
      (addTime k s.tmb).ns.toNat < 1000000000 ∧
        ((deviceTime {s with tmb := addTime k s.tmb} : Int) - deviceTime s - (A * slewUnit : Nat) - slewShare k s) % (2 ^ 48 * secUnits : Nat) = 0 ∧
        ((addTime k s.tmb).secs = s.tmb.secs ∨ (addTime k s.tmb).secs = s.tmb.secs + 1) := by
    intro u lc sl ca e l hr
    rw [hr]
    by_cases c : secUnits ≤ u
    · simp only [c, decide_true, if_true]
      have z := loadUnits_units (u - secUnits) { s.tmb with localCnt := lc, slew := sl, secs := s.tmb.secs + 1, carries := ca } (by omega)
      refine ⟨z.2, ?_, Or.inr rfl⟩
      simp only [deviceTime, z.1, loadUnits_secs]
      rcases hs with hs | ⟨hs, hn⟩
      · rw [hs]
        apply Int.emod_eq_zero_of_dvd
        refine ⟨0, ?_⟩
        rw [Nat.add_mul]
        omega
      · rw [hs]
        apply Int.emod_eq_zero_of_dvd
        refine ⟨-1, ?_⟩
        rw [← hn, Nat.add_mul]
        omega
    · simp only [c, decide_false, Bool.false_eq_true, if_false]
      have z := loadUnits_units u { s.tmb with localCnt := lc, slew := sl, secs := s.tmb.secs, carries := ca } (by omega)
      refine ⟨z.2, ?_, Or.inl rfl⟩
      simp only [deviceTime, z.1, loadUnits_secs]
      apply Int.emod_eq_zero_of_dvd
      exact ⟨0, by omega⟩
  intro t
  cases hw : s.tmb.slew with
  | none =>
    refine key (timeUnits s.tmb + A * slewUnit + 0) _ _ _ ?_ (below2 hU hadd (Nat.zero_le _)) (addTime_eq _ _ _ false (Or.inl ⟨hw, rfl⟩) ?_)
    · simp only [slewShare, hw]
      omega
    · simp only [slewPart, hw, hA, Bool.false_eq_true, if_false]
  | some w =>
    have hd' := hd w hw
    have hm : min w.remain (A * w.ppm) ≤ A * 500 := Nat.le_trans (Nat.min_le_right _ _) hd'
    have hb := below2 hU hadd hm
    have hs : min w.remain (A * w.ppm) ≤ A * slewUnit := Nat.le_trans hm (Nat.mul_le_mul_left _ (by decide))
    refine key (if w.neg = true then timeUnits s.tmb + A * slewUnit - min w.remain (A * w.ppm)
      else timeUnits s.tmb + A * slewUnit + min w.remain (A * w.ppm)) _ _ _ ?_ ?_ (addTime_eq _ _ _ w.neg (Or.inr ⟨w, hw, rfl⟩) ?_)
    · simp only [slewShare, hw, hA]
      generalize timeUnits s.tmb = U at *
      generalize min w.remain (A * w.ppm) = M at *
      generalize A * slewUnit = B at *
      split <;> omega
    · generalize timeUnits s.tmb = U at *
      generalize min w.remain (A * w.ppm) = M at *
      generalize A * slewUnit = B at *
      generalize 2 * secUnits = B at *
      split <;> omega
    · simp only [slewPart, hw, hA]

theorem step_mod (S N M : Nat) (d : Int) (hM : 0 < (M : Int)) :
    ((((S + (((N : Int) + d) / 1000000000 % (M : Int)).toNat) % M * 1000000000 + (((N : Int) + d) % 1000000000).toNat : Nat) : Int)
      - (S * 1000000000 + N : Nat) - d) % ((M : Int) * 1000000000) = 0 := by
  generalize hX : (N : Int) + d = X
  have e2 := Int.mul_ediv_add_emod (X / 1000000000) M
  obtain ⟨qm, hq⟩ : ∃ n : Nat, (n : Int) = X / 1000000000 % (M : Int) :=
    ⟨_, Int.toNat_of_nonneg (Int.emod_nonneg _ (Int.ne_of_gt hM))⟩
  obtain ⟨r, hr⟩ : ∃ n : Nat, (n : Int) = X % 1000000000 := ⟨_, Int.toNat_of_nonneg (Int.emod_nonneg _ (by decide))⟩
  rw [← hq] at e2
  rw [← hq, ← hr, Int.toNat_natCast, Int.toNat_natCast]
  have e3 : (S + qm) % M + M * ((S + qm) / M) = S + qm := Nat.mod_add_div _ _
  generalize (S + qm) % M = u at *
  generalize (S + qm) / M = a at *
  generalize X / 1000000000 / (M : Int) = b at *
  have e4 : (u : Int) + M * a = S + qm := by
    rw [← Int.natCast_mul, ← Int.natCast_add, e3, Int.natCast_add]
  apply Int.emod_eq_zero_of_dvd
  refine ⟨-(a + b), ?_⟩
  have : (M : Int) * 1000000000 * -(a + b) = -(1000000000 * (M * a)) - 1000000000 * (M * b) := by
    rw [Int.mul_comm (M : Int) 1000000000, Int.mul_assoc, Int.mul_neg, Int.mul_add]
    omega
  rw [this]
  generalize (M : Int) * a = Ma at *
  generalize (M : Int) * b = Mb at *
  omega

theorem fire_none (n : Nat) (env : CmpEnv) (s : State) (h : (cmpAt n s).armed = false) : fireCmps [n] env s = s := by
  have e : fires [n] s = [] := by simp [fires, cmpDue, h]
  simp [fireCmps, e, wakeFires, carryAll, countMissed, markFires]

theorem cmps_len {s : State} (h : Inv s) : s.tmb.cmps.length = 16 := by
  have := h.1
  simp only [sizes, shape, List.cons.injEq] at this
  exact this.2.2.2.1

theorem ppso_len {s : State} (h : Inv s) : s.tmb.ppso.length = 4 := by
  have := h.1
  simp only [sizes, shape, List.cons.injEq] at this
  exact this.2.2.2.2.2.1

theorem caps_len {s : State} (h : Inv s) : s.tmb.caps.length = 8 := by
  have := h.1
  simp only [sizes, shape, List.cons.injEq] at this
  exact this.2.2.2.2.1

end Sys2Proof.Laws
end

