-- ==== Sys2Proof/Laws/Transactions.lean ====
section
/-!
SUPPORT. Words of a management transaction with a wrong CRC byte, and the words of a mailbox.
-/

namespace Sys2Proof.Laws

open Sys2Proof.Machine Sys2Proof.Safety

theorem hostWords_bad {en : Bool} (hen : en = true) {good rest : List SpiWord} {bad : SpiWord} {r : Byte} (h : (hostWords true good r).2 = false)
    (hb : bad.crc ≠ crcWord (good.foldl (fun r w => crcWord r w.val) r) bad.val) :
    hostWords en (good ++ bad :: rest) r = (good.map (·.val), true) := by
  subst hen
  induction good generalizing r with
  | nil => simp at hb; simp [hostWords, hb]
  | cons w ws ih =>
    simp only [hostWords, Bool.true_and] at h
    split at h
    · simp at h
    · rename_i k
      simp at h
      simp only [List.cons_append, hostWords, Bool.true_and, k]
      simp [ih h (by simpa using hb)]

theorem boxAddr (g : Bool) (k : Nat) (hk : k < 8) : (if g then 0x01C040 else 0x01C020) + 4 * k < 0x1C060 := by
  cases g <;> simp <;> omega

theorem box_word (g : Bool) (k : Nat) (hk : k < 8) (r : SpiRun) (s : State) (hr : r.stop = false) (hc : coreAnswers s = true) :
    spiReadWord (some (0x1C000, 0x1CFFF)) ((if g then 0x01C040 else 0x01C020) + 4 * k) plainEnv r s =
    (regNat (boxWord (if g then s.cnv.groupB.box else s.cnv.groupA.box) k), r.took, s) := by
  have cases8 : k = 0 ∨ k = 1 ∨ k = 2 ∨ k = 3 ∨ k = 4 ∨ k = 5 ∨ k = 6 ∨ k = 7 := by omega
  rcases cases8 with h | h | h | h | h | h | h | h <;> subst h <;> cases g <;>
   simp [spiReadWord, hr, hc, isMgt, isShared, readDenied, lockable, regRead, regPlain, cnvRead, regAfter, cnvAfter]

theorem box_words (g : Bool) (n k : Nat) (hk : k + n ≤ 8) (r : SpiRun) (s : State) (hr : r.stop = false) (hc : coreAnswers s = true)
    (ho : r.out = { TxOutcome.zero with opcode := 3, words := BitVec.ofNat 8 (min k 255) }) :
    ∃ r', spiReadWords (some (0x1C000, 0x1CFFF)) n ((if g then 0x01C040 else 0x01C020) + 4 * k) [] r s =
    ((List.range n).map (fun i => regNat (boxWord (if g then s.cnv.groupB.box else s.cnv.groupA.box) (k + i))), r', s) ∧
     r'.out = { TxOutcome.zero with opcode := 3, words := BitVec.ofNat 8 (min (k + n) 255) } := by
  induction n generalizing k r with
  | zero => exact ⟨r, rfl, ho⟩
  | succ n ih =>
    obtain ⟨r', e1, e2⟩ := ih (k + 1) (by omega) r.took hr (by simp [SpiRun.took, ho]; exact satInc_words k)
    refine ⟨r', ?_, ?_⟩
    · simp only [spiReadWords, List.headD_nil, List.drop_nil]
      rw [box_word g k (by omega) r s hr hc]
      dsimp only
      have q : (if g = true then 0x01C040 else 0x01C020) + 4 * k + 4 = (if g = true then 0x01C040 else 0x01C020) + 4 * (k + 1) := by omega
      rw [q, e1]
      simp only [List.range_succ_eq_map, List.map_cons, List.map_map]
      have y : ((fun i => regNat (boxWord (if g then s.cnv.groupB.box else s.cnv.groupA.box) (k + i))) ∘ Nat.succ)
          = fun i => regNat (boxWord (if g then s.cnv.groupB.box else s.cnv.groupA.box) (k + 1 + i)) := by
        funext i
        have q : k + Nat.succ i = k + 1 + i := by omega
        simp only [Function.comp, q]
      rw [y]
      simp only [Nat.add_zero]
    · rw [e2]
      have q : k + 1 + n = k + (n + 1) := by omega
      rw [q]

end Sys2Proof.Laws
end

