-- ==== Sys2Proof/Laws/Positions.lean ====
section
/-!
SUPPORT. The staging bank, commits and the Opening.
-/

namespace Sys2Proof.Laws

open Sys2Proof.Machine Sys2Proof.Safety

theorem setPosBank_frame (b : Bool) (k : PosBank) (s : State) : ∃ p, setPosBank b k s = { s with pos := p } ∧ posBank b { s with pos := p } = k ∧ posBank (!b) { s with pos := p } = posBank (!b) s ∧
    p.stage = s.pos.stage ∧ p.active = s.pos.active ∧ p.activeBank = s.pos.activeBank ∧ p.loadOffset = s.pos.loadOffset ∧ p.tables = s.pos.tables ∧ p.refusedCnt = s.pos.refusedCnt ∧ p.shadow = s.pos.shadow ∧ p.opening = s.pos.opening ∧ p.fallback = s.pos.fallback ∧ p.hitlessOk = s.pos.hitlessOk ∧ p.running = s.pos.running := by
  cases b
  · exact ⟨_, rfl, rfl, rfl, rfl, rfl, rfl, rfl, rfl, rfl, rfl, rfl, rfl, rfl, rfl⟩
  · exact ⟨_, rfl, rfl, rfl, rfl, rfl, rfl, rfl, rfl, rfl, rfl, rfl, rfl, rfl, rfl⟩

/-- One word of a load whose header is not complete. -/
theorem streamWord_early (w : Word) (s : State) (n : Nat) (h1 : s.pos.stage = .loading) (h2 : (stageBank s).image.length = 4 * n)
    (h3 : s.pos.loadOffset = BitVec.ofNat 24 (4 * n)) (h4 : n + 1 < 16) :
    ∃ p, streamWord w s = (true, { s with pos := p }) ∧ p.stage = .loading ∧ stageBank { s with pos := p } = { stageBank s with image := (stageBank s).image ++ toBE 4 w.toNat } ∧
      p.loadOffset = BitVec.ofNat 24 (4 * (n + 1)) ∧ p.active = s.pos.active ∧ p.activeBank = s.pos.activeBank ∧ posBank (!stageIsB s) { s with pos := p } = posBank (!stageIsB s) s := by
  have e1 : earlyRefused s = false := by simp [earlyRefused, h1]
  have hd : headerIn s = false := by simp [headerIn, h2]; omega
  have e2 : ¬ (s.pos.stage ≠ .loading ∨ streamLimit s ≤ s.pos.loadOffset.toNat) := by
    simp [h1, streamLimit, hd, h3]
    have : 4 * n % 16777216 = 4 * n := Nat.mod_eq_of_lt (by omega)
    rw [this]
    simp [bankSize]
    omega
  obtain ⟨p, e3, e4, e5, e6, e7, e8, e9, -⟩ := setPosBank_frame (stageIsB s) { stageBank s with image := (stageBank s).image ++ toBE 4 w.toNat } s
  let p' : PosBlk := { p with loadOffset := p.loadOffset + 4, seqErr := false }
  have st : stageIsB { s with pos := p' } = stageIsB s := by simp [stageIsB, p', e7, e8]
  have sb : stageBank { s with pos := p' } = { stageBank s with image := (stageBank s).image ++ toBE 4 w.toNat } := by
    unfold stageBank
    rw [st]
    exact e4
  refine ⟨p', ?_, e6.trans h1, sb, ?_, e7, e8, e5⟩
  · unfold streamWord
    rw [e1]
    simp only [Bool.false_eq_true, if_false]
    rw [if_neg e2, e3]
    have : afterWord { s with pos := p' } = { s with pos := p' } := by
      unfold afterWord
      rw [sb]
      have l : ((stageBank s).image ++ toBE 4 w.toNat).length = 4 * n + 4 := by simp [h2, toBE_length]
      dsimp only
      rw [l, if_neg (by omega), if_neg (by omega)]
      dsimp only
      rw [if_neg]
      intro z
      have : headerIn { s with pos := p' } = false := by
        simp only [headerIn, sb, l]
        simp
        omega
      rw [this] at z
      simp at z
    show (true, afterWord { s with pos := p' }) = _
    rw [this]
  · show p.loadOffset + 4 = _
    rw [e9, h3]
    apply BitVec.eq_of_toNat_eq
    simp
    omega

theorem streamWords_early (ws : List Word) (s : State) (n : Nat) (h1 : s.pos.stage = .loading) (h2 : (stageBank s).image.length = 4 * n)
    (h3 : s.pos.loadOffset = BitVec.ofNat 24 (4 * n)) (h4 : n + ws.length < 16) :
    ∃ p, streamWords ws s = (true, { s with pos := p }) ∧ p.stage = .loading ∧ (stageBank { s with pos := p }).image = (stageBank s).image ++ ws.flatMap (fun w => toBE 4 w.toNat) ∧
      p.loadOffset = BitVec.ofNat 24 (4 * (n + ws.length)) ∧ p.active = s.pos.active ∧ p.activeBank = s.pos.activeBank ∧ posBank (!stageIsB s) { s with pos := p } = posBank (!stageIsB s) s := by
  induction ws generalizing s n with
  | nil => exact ⟨s.pos, rfl, h1, by simp, by simpa using h3, rfl, rfl, rfl⟩
  | cons w ws ih =>
    simp only [List.length_cons] at h4
    obtain ⟨p, a1, a2, a3, a4, a5, a6, a7⟩ := streamWord_early w s n h1 h2 h3 (by omega)
    obtain ⟨q, b1, b2, b3, b4, b5, b6, b7⟩ := ih { s with pos := p } (n + 1) a2 (by rw [a3]; simp [h2, toBE_length]; omega) a4 (by omega)
    refine ⟨q, ?_, b2, ?_, ?_, b5.trans a5, b6.trans a6, ?_⟩
    · simp only [streamWords, a1, b1, Bool.and_self]
    · refine b3.trans ?_
      rw [a3]
      simp
    · rw [b4]
      simp [Nat.add_assoc, Nat.add_comm]
    · have : stageIsB { s with pos := p } = stageIsB s := by simp [stageIsB, a5, a6]
      rw [this] at b7
      exact b7.trans a7

theorem posErr_frame (e : PosErr) (s : State) : ∃ v, refuseStage e s = { s with pos := { s.pos with stage := .refused, hitlessOk := false, refusedCnt := satInc s.pos.refusedCnt, errCode := BitVec.ofNat 8 e.code, errSection := BitVec.ofNat 8 e.section_, errDetail := BitVec.ofNat 16 e.detail, errOffset := BitVec.ofNat 24 e.offset }, evt := v } := by
  unfold refuseStage refuseImage raise
  obtain ⟨q, o, n, z⟩ := raiseAt_evt .posRefused 0 (posErrWord (notePosErr e { s with pos := { s.pos with stage := .refused, hitlessOk := false, refusedCnt := satInc s.pos.refusedCnt } })) (notePosErr e { s with pos := { s.pos with stage := .refused, hitlessOk := false, refusedCnt := satInc s.pos.refusedCnt } })
  exact ⟨_, z⟩

theorem pushFallback_frame (cs : List CardWrite) (s : State) (h : s.pos.running = false) : Frame [.xb, .evt] s (pushFallback cs s) := by
  have raise_f : ∀ (d : Word) (s : State), Frame [.xb, .evt] s (raise .xbWerr d s) := by
    intro d s
    unfold raise
    obtain ⟨q, o, n, z⟩ := raiseAt_evt .xbWerr 0 d s
    rw [z]
    intro p hp
    cases p <;> first | rfl | cases hp
  have acc : ∀ (r : XbReq) (s : State), s.pos.running = false → Frame [.xb, .evt] s (acceptPosted r s) := by
    intro r s h
    unfold acceptPosted
    split
    · intro p hp
      cases p <;> first | rfl | cases hp
    · unfold logWerr
      dsimp only
      generalize hx : raise .xbWerr _ _ = x
      have f : Frame [.xb, .evt] s x := by
        rw [← hx]
        intro p hp
        have := raise_f (BitVec.ofNat 32 (r.slot * 65536 + 3)) { s with xb := { s.xb with
    werr := (if decide (8 ≤ s.xb.werr.length) = true then s.xb.werr.drop 1 else s.xb.werr) ++ [{ who := r.who, slot := BitVec.ofNat 3 r.slot, code := BitVec.ofNat 8 3, addr := BitVec.ofNat 24 r.addr }],
    werrOvf := s.xb.werrOvf || decide (8 ≤ s.xb.werr.length) } } p hp
        cases p <;> first | exact this | cases hp
      have hr : x.pos.running = false := by rw [f .pos rfl]; exact h
      unfold xmMessage
      dsimp only
      rw [if_neg (show ¬ ((1 : Nat) = 0) by decide), if_neg]
      · intro p hp
        have := f p hp
        cases p <;> first | exact this | cases hp
      · have : boardRuns (updSlot r.slot (fun k => { k with msgSeq := (xbSlot r.slot x).msgSeq + 1 }) x) = false := by
          simp only [boardRuns, Bool.and_eq_false_iff]
          exact Or.inr hr
        rw [this]
        simp
  have push : ∀ (l : List CardWrite) (s : State), s.pos.running = false → Frame [.xb, .evt] s (pushCards 4 l s).2 := by
    intro l
    induction l with
    | nil => intro s _ p _; cases p <;> rfl
    | cons c l ih =>
      intro s h
      unfold pushCards
      split
      · have a := acc (cardReq 4 c s) s h
        have hr : (acceptPosted (cardReq 4 c s) s).pos.running = false := by rw [a .pos rfl]; exact h
        have b := ih _ hr
        intro p hp
        have a' := a p hp
        have b' := b p hp
        cases p <;> first | exact Eq.trans b' a' | cases hp
      · intro p _
        cases p <;> rfl
  unfold pushFallback
  have a := push (s.xb.fallbackWait ++ cs) { s with xb := { s.xb with fallbackWait := [] } } h
  intro p hp
  have := a p hp
  cases p <;> first | exact this | cases hp

theorem stop_quiet (s : State) (hq : s.xb.queue = []) (hc : s.xb.cur = none) :
    (stopBoard s).pos = s.pos ∧ (stopBoard s).cls.msgs = [] ∧ (stopBoard s).hp.held = [] ∧ (stopBoard s).tmb.secs = s.tmb.secs ∧ (stopBoard s).tmb.ns = s.tmb.ns := by
  have p1 : (ptpStop s).pos = s.pos ∧ (ptpStop s).xb = s.xb ∧ (ptpStop s).tmb.secs = s.tmb.secs ∧ (ptpStop s).tmb.ns = s.tmb.ns := by
    unfold ptpStop
    split
    · unfold enterHoldover
      split
      · exact ⟨rfl, rfl, rfl, rfl⟩
      · unfold raise
        obtain ⟨q, o, n, z⟩ := raiseAt_evt .holdover 0 (s.tmb.owner.setWidth 32) (loadAddend (rateAvg s.tmb) { s with
      tmb := { s.tmb with holdover := true },
      ptp := { s.ptp with
        holdover := true, lostAt := none, heldSync := smpSynchOf (tqNow s) s,
        graceEnd := some (localNow s + s.ptp.grace.toNat * 250000000) } })
        dsimp only
        rw [z]
        exact ⟨rfl, rfl, rfl, rfl⟩
    · exact ⟨rfl, rfl, rfl, rfl⟩
  have p2 : ∀ s : State, s.xb.queue = [] → s.xb.cur = none → (xbReopen s).pos = s.pos ∧ (xbReopen s).tmb = s.tmb := by
    intro s hq hc
    unfold xbReopen
    simp only [hc, hq, List.filter_nil, abortReads]
    and_intros <;> trivial
  have p3 := p2 (unlockCmps (ptpStop s)) (by show (ptpStop s).xb.queue = []; rw [p1.2.1]; exact hq) (by show (ptpStop s).xb.cur = none; rw [p1.2.1]; exact hc)
  unfold stopBoard
  refine ⟨p3.1.trans p1.1, ?_, ?_, ?_, ?_⟩
  · rfl
  · rfl
  · show (xbReopen (unlockCmps (ptpStop s))).tmb.secs = _
    rw [p3.2]
    exact p1.2.2.1
  · show (xbReopen (unlockCmps (ptpStop s))).tmb.ns = _
    rw [p3.2]
    exact p1.2.2.2

theorem opening_fields (re : Bool) (s : State) (hq : s.xb.queue = []) (hc : s.xb.cur = none) :
    let t := startOpening re s
    t.pos.opening = true ∧ t.pos.running = false ∧ t.pos.active = s.pos.active ∧ t.pos.fallbackApplied = true ∧ t.pos.restartPending = false ∧
      (∀ p, p < 9 → (ethAt p t).cnt = List.replicate 16 0) ∧ t.rte.cnts = [] ∧ t.cls.msgs = [] ∧ t.hp.held = [] ∧
      t.pos.activeBank = s.pos.activeBank ∧ t.pos.tables = bankSections (activeBank s) ∧ t.pos.fallback = bodyIn tyFallback (bankSections (activeBank s)) := by
  intro t
  obtain ⟨k1, k2, k3, -⟩ := stop_quiet s hq hc
  have ab : activeBank (clearCounters (stopBoard s)) = activeBank s := by
    unfold activeBank posBank clearCounters
    simp only [k1]
  let s2 : State := { clearCounters (stopBoard s) with pos := { (clearCounters (stopBoard s)).pos with
    tables := bankSections (activeBank s), shadow := [], fallback := bodyIn tyFallback (bankSections (activeBank s)), running := false, opening := true,
    restartPending := false, hitlessOk := false, awaitFirstCycle := true } }
  have et : t = openSafe (openPorts re s.pos.tables (noteCommitTime s2)) := by
    simp only [t, startOpening, ab, s2]
  let s3 := openPorts re s.pos.tables (noteCommitTime s2)
  obtain ⟨cs, x, hx⟩ : ∃ cs x, openSafe s3 = pushFallback cs { gpioFallback s3 with pos := { s3.pos with fallbackApplied := true }, xb := { s3.xb with fallbackDue := x } } := ⟨_, _, rfl⟩
  have f := pushFallback_frame cs { gpioFallback s3 with pos := { s3.pos with fallbackApplied := true }, xb := { s3.xb with fallbackDue := x } } rfl
  rw [← hx, ← et] at f
  have hpos : t.pos = { s2.pos with fallbackApplied := true, commitS := s2.tmb.secs.setWidth 32, commitNs := s2.tmb.ns } := f .pos rfl
  have heth : t.eth = s3.eth := f .eth rfl
  have hcls : t.cls = s2.cls := f .cls rfl
  have hhp : t.hp = s2.hp := f .hp rfl
  have hrte : t.rte = s2.rte := f .rte rfl
  rw [hpos, hcls, hhp, hrte]
  refine ⟨rfl, rfl, ?_, rfl, rfl, ?_, rfl, k2, rfl, ?_, rfl, rfl⟩
  · show (stopBoard s).pos.active = _
    rw [k1]
  · intro p hp
    unfold ethAt
    rw [heth]
    have : p = 0 ∨ p = 1 ∨ p = 2 ∨ p = 3 ∨ p = 4 ∨ p = 5 ∨ p = 6 ∨ p = 7 ∨ p = 8 := by omega
    have g : ∀ (f : Nat → EthPort), (∀ i, (f i).cnt = List.replicate 16 0) → (nth .reset ((List.range 9).map f) p).cnt = List.replicate 16 0 := by
      intro f hf
      have e9 : List.range 9 = [0,1,2,3,4,5,6,7,8] := by decide
      rw [e9]
      rcases this with rfl | rfl | rfl | rfl | rfl | rfl | rfl | rfl | rfl <;> exact hf _
    show (nth .reset (openPorts re s.pos.tables (noteCommitTime s2)).eth p).cnt = _
    unfold openPorts
    dsimp only
    apply g
    intro i
    rfl
  · show (stopBoard s).pos.activeBank = _
    rw [k1]

def SameTP (a b : State) : Prop := b.pos = a.pos ∧ b.tmb.secs = a.tmb.secs ∧ b.tmb.ns = a.tmb.ns

theorem tp_trans {a b c : State} (h : SameTP a b) (k : SameTP b c) : SameTP a c := ⟨k.1.trans h.1, k.2.1.trans h.2.1, k.2.2.trans h.2.2⟩

theorem tp_refl (a : State) : SameTP a a := ⟨rfl, rfl, rfl⟩

theorem tp_fold {α : Type} (f : State → α → State) (h : ∀ s x, SameTP s (f s x)) (l : List α) (s : State) : SameTP s (l.foldl f s) := by
  induction l generalizing s with
  | nil => exact tp_refl s
  | cons x l ih => exact tp_trans (h s x) (ih _)

theorem tp_raise (e : Ev) (d : Word) (s : State) : SameTP s (raise e d s) := by
  unfold raise
  obtain ⟨q, o, n, z⟩ := raiseAt_evt e 0 d s
  rw [z]
  cases e <;> exact ⟨rfl, rfl, rfl⟩

theorem tp_arm (n : Nat) (c : Cmp) (b : Bool) (s : State) : SameTP s (armCmp n c b s) := by
  unfold armCmp
  split
  · exact ⟨rfl, rfl, rfl⟩
  · dsimp only
    split
    · exact ⟨rfl, rfl, rfl⟩
    · split
      · exact ⟨rfl, rfl, rfl⟩
      · split
        · exact ⟨rfl, rfl, rfl⟩
        · exact tp_trans (b := setCmp n _ s) ⟨rfl, rfl, rfl⟩ (tp_raise _ _ _)

theorem tp_armSection (body : List Byte) (l : List Nat) (s : State) : SameTP s (armSection body l s) := by
  induction l generalizing s with
  | nil => exact tp_refl s
  | cons n l ih =>
    unfold armSection
    dsimp only
    split
    · refine tp_trans ?_ (ih _)
      refine tp_trans ?_ (tp_arm _ _ _ _)
      exact ⟨rfl, rfl, rfl⟩
    · refine tp_trans ?_ (ih _)
      exact ⟨rfl, rfl, rfl⟩

theorem tp_setOwner (o : BitVec 2) (s : State) : SameTP s (setOwner o s) := by
  unfold setOwner
  split
  · exact tp_refl s
  · exact ⟨rfl, rfl, rfl⟩

theorem tp_loadTime (s : State) : SameTP s (loadTimeBase s) := by
  unfold loadTimeBase
  split
  · dsimp only
    exact tp_trans (tp_trans (tp_setOwner _ s) ⟨rfl, rfl, rfl⟩) (tp_armSection _ _ _)
  · exact tp_trans (tp_setOwner _ s) ⟨rfl, rfl, rfl⟩

theorem tp_varPuts (l : List (Nat × Int)) (s : State) : SameTP s (varPuts l s) := by
  induction l generalizing s with
  | nil => exact tp_refl s
  | cons p l ih => exact tp_trans (b := varPut p.1 p.2 s) ⟨rfl, rfl, rfl⟩ (ih _)

theorem engines_keep (s : State) : SameTP s (startEngines s) := by
  unfold startEngines
  have h1 : SameTP s (loadPtp true (loadTimeBase s)) := by
    refine tp_trans (tp_loadTime s) ?_
    unfold loadPtp
    split <;> exact ⟨rfl, rfl, rfl⟩
  dsimp only
  generalize loadPtp true (loadTimeBase s) = x at *
  refine tp_trans h1 ?_
  have h2 : ∀ (b : Bool) (s : State), SameTP s (startGroup b s) := by
    intro b s
    unfold startGroup setGroup
    (repeat' split) <;> exact ⟨rfl, rfl, rfl⟩
  have h3 : ∀ s : State, SameTP s (startArbiter s) := by
    intro s
    unfold startArbiter
    dsimp only
    refine tp_trans ?_ (tp_fold _ (fun s b => tp_varPuts (safeValues b s) s) _ _)
    refine tp_trans ?_ (tp_varPuts _ _)
    exact ⟨rfl, rfl, rfl⟩
  have h4 : ∀ s : State, SameTP s (startSerial s) := by
    intro s
    unfold startSerial
    apply tp_fold
    intro s c
    unfold startSer updSer
    exact ⟨rfl, rfl, rfl⟩
  have h5 : ∀ s : State, SameTP s (loadPower s) := by
    intro s
    unfold loadPower
    split <;> exact ⟨rfl, rfl, rfl⟩
  refine tp_trans ?_ (h5 _)
  refine tp_trans ?_ (tp_trans (h3 _) ⟨rfl, rfl, rfl⟩)
  refine tp_trans ?_ (tp_trans (h2 _ _) (h2 _ _))
  refine tp_trans ?_ (h4 _)
  exact ⟨rfl, rfl, rfl⟩

theorem open_done (s : State) : (coreUp s = true → s.pos.opening = true →
      ∃ t, exec .openingComplete s = .next t ∧ t.pos.running = true ∧ t.pos.opening = false ∧
        t.pos.tables = s.pos.tables ∧ t.tmb.secs = s.tmb.secs ∧ t.tmb.ns = s.tmb.ns ∧
        Reported .posCommit 0 (posStatus t) s t) := by
  intro h1 h2
  obtain ⟨t, e⟩ := ex .openingComplete s
  refine ⟨t, e, ?_⟩
  simp only [exec, execOpeningComplete] at e
  rw [if_pos (by simp [h1, h2])] at e
  rw [← nxt e]
  let s1 : State := { s with pos := { s.pos with
    running := true, opening := false,
    stage := if s.pos.stage = .committing then .empty else s.pos.stage } }
  have k := engines_keep s1
  have ef : finishOpening s = raiseAt .posCommit 0 (posStatus (startEngines s1)) (startEngines s1) := rfl
  generalize startEngines s1 = x at *
  obtain ⟨q, o, n, z⟩ := raiseAt_evt .posCommit 0 (posStatus x) x
  have rr : Reported .posCommit 0 (posStatus x) s (raiseAt .posCommit 0 (posStatus x) x) := by
    apply raiseAt_reported_every
    · rfl
    · exact k.2
    · intro _
      exact setBit_self _ _ (by decide)
  rw [ef]
  have zp : (raiseAt .posCommit 0 (posStatus x) x).pos = s1.pos := by
    rw [z]
    exact k.1
  have zt : (raiseAt .posCommit 0 (posStatus x) x).tmb = x.tmb := by
    rw [z]
    rfl
  have ps : posStatus (raiseAt .posCommit 0 (posStatus x) x) = posStatus x := by
    have cong : ∀ a b : State, a.pos = b.pos → posStatus a = posStatus b := by
      intro a b h
      unfold posStatus stageIsB
      rw [h]
    exact cong _ _ (zp.trans k.1.symm)
  rw [zp, zt, ps]
  exact ⟨rfl, rfl, rfl, k.2.1, k.2.2, rr⟩

theorem close_done (s : State) (hq : s.xb.queue = []) (hx : s.xb.cur = none) : (coreAnswers s = true → s.pos.running = true →
      ∃ t, exec .close s = .next t ∧ t.pos.running = false ∧ t.pos.restartPending = true ∧
        t.pos.active = s.pos.active ∧ activeBank t = activeBank s ∧ t.pos.fallbackApplied = true ∧ t.cls.msgs = []) := by
  intro hc h
  obtain ⟨t, e⟩ := ex .close s
  refine ⟨t, e, ?_⟩
  simp only [exec, execClose, ifCore, hc, if_true, posClose] at e
  rw [if_neg (by simp [h])] at e
  rw [← nxt e]
  obtain ⟨p, hp, p1, p2, p3, p4⟩ : ∃ p, dropPreparation (accepted s) = { s with pos := p } ∧ p.active = s.pos.active ∧ p.bankA = s.pos.bankA ∧ p.bankB = s.pos.bankB ∧ p.activeBank = s.pos.activeBank := by
    unfold dropPreparation
    split <;> exact ⟨_, rfl, rfl, rfl, rfl, rfl⟩
  rw [hp]
  obtain ⟨k1, k2, k3, -⟩ := stop_quiet { s with pos := p } hq hx
  generalize stopBoard { s with pos := p } = x at *
  obtain ⟨cs, y, hy⟩ : ∃ cs, ∃ y : State, y = gpioFallback { ({ x with
      pos := { x.pos with
        running := false, restartPending := true, hitlessOk := false, tables := [], awaitFirstCycle := false },
      eth := x.eth.map closePort,
      ser := x.ser.map (fun k => { k with txDriven := false }) } : State) with pos := { ({ x.pos with
        running := false, restartPending := true, hitlessOk := false, tables := [], awaitFirstCycle := false } : PosBlk) with fallbackApplied := true } } ∧ 
      enterSafe { x with
      pos := { x.pos with
        running := false, restartPending := true, hitlessOk := false, tables := [], awaitFirstCycle := false },
      eth := x.eth.map closePort,
      ser := x.ser.map (fun k => { k with txDriven := false }) } = pushFallback cs y := ⟨_, _, rfl, rfl⟩
  rw [hy.2]
  have f := pushFallback_frame cs y (by rw [hy.1]; rfl)
  have fp := f .pos rfl
  have fc := f .cls rfl
  simp only [Agree] at fp fc
  have ab : activeBank (pushFallback cs y) = activeBank s := by
    unfold activeBank posBank
    rw [fp, hy.1]
    simp only [gpioFallback, k1, p2, p3, p4]
  rw [ab, fp, fc, hy.1]
  refine ⟨rfl, rfl, ?_, rfl, rfl, k2⟩
  simp only [gpioFallback, k1, p1]

end Sys2Proof.Laws
end

