-- ==== Sys2Proof/Laws/State.lean ====
section
/-!
SUPPORT. What the named updates of the state leave of each of its parts: one lemma per part and update, each by
definition.
-/

namespace Sys2Proof.Laws

open Sys2Proof.Machine

@[simp] theorem withPending_pending (s : State) (q : List Instr) : (s.withPending q).pending = q := rfl

@[simp] theorem withPending_free (s : State) (q : List Instr) : (s.withPending q).free = s.free := rfl

@[simp] theorem withPending_glb (s : State) (q : List Instr) : (s.withPending q).glb = s.glb := rfl

@[simp] theorem withPending_mgt (s : State) (q : List Instr) : (s.withPending q).mgt = s.mgt := rfl

@[simp] theorem withPending_pos (s : State) (q : List Instr) : (s.withPending q).pos = s.pos := rfl

@[simp] theorem withPending_tmb (s : State) (q : List Instr) : (s.withPending q).tmb = s.tmb := rfl

@[simp] theorem withPending_ptp (s : State) (q : List Instr) : (s.withPending q).ptp = s.ptp := rfl

@[simp] theorem withPending_eth (s : State) (q : List Instr) : (s.withPending q).eth = s.eth := rfl

@[simp] theorem withPending_pairs (s : State) (q : List Instr) : (s.withPending q).pairs = s.pairs := rfl

@[simp] theorem withPending_hp (s : State) (q : List Instr) : (s.withPending q).hp = s.hp := rfl

@[simp] theorem withPending_ser (s : State) (q : List Instr) : (s.withPending q).ser = s.ser := rfl

@[simp] theorem withPending_cnv (s : State) (q : List Instr) : (s.withPending q).cnv = s.cnv := rfl

@[simp] theorem withPending_aln (s : State) (q : List Instr) : (s.withPending q).aln = s.aln := rfl

@[simp] theorem withPending_rte (s : State) (q : List Instr) : (s.withPending q).rte = s.rte := rfl

@[simp] theorem withPending_cls (s : State) (q : List Instr) : (s.withPending q).cls = s.cls := rfl

@[simp] theorem withPending_arb (s : State) (q : List Instr) : (s.withPending q).arb = s.arb := rfl

@[simp] theorem withPending_gpio (s : State) (q : List Instr) : (s.withPending q).gpio = s.gpio := rfl

@[simp] theorem withPending_xb (s : State) (q : List Instr) : (s.withPending q).xb = s.xb := rfl

@[simp] theorem withPending_mem (s : State) (q : List Instr) : (s.withPending q).mem = s.mem := rfl

@[simp] theorem withPending_pwr (s : State) (q : List Instr) : (s.withPending q).pwr = s.pwr := rfl

@[simp] theorem withPending_therm (s : State) (q : List Instr) : (s.withPending q).therm = s.therm := rfl

@[simp] theorem withPending_sec (s : State) (q : List Instr) : (s.withPending q).sec = s.sec := rfl

@[simp] theorem withPending_evt (s : State) (q : List Instr) : (s.withPending q).evt = s.evt := rfl

@[simp] theorem withPending_jtag (s : State) (q : List Instr) : (s.withPending q).jtag = s.jtag := rfl

@[simp] theorem updEth_pending (p : Nat) (f : EthPort → EthPort) (s : State) : (updEth p f s).pending = s.pending := rfl

@[simp] theorem updEth_free (p : Nat) (f : EthPort → EthPort) (s : State) : (updEth p f s).free = s.free := rfl

@[simp] theorem updEth_glb (p : Nat) (f : EthPort → EthPort) (s : State) : (updEth p f s).glb = s.glb := rfl

@[simp] theorem updEth_mgt (p : Nat) (f : EthPort → EthPort) (s : State) : (updEth p f s).mgt = s.mgt := rfl

@[simp] theorem updEth_pos (p : Nat) (f : EthPort → EthPort) (s : State) : (updEth p f s).pos = s.pos := rfl

@[simp] theorem updEth_tmb (p : Nat) (f : EthPort → EthPort) (s : State) : (updEth p f s).tmb = s.tmb := rfl

@[simp] theorem updEth_ptp (p : Nat) (f : EthPort → EthPort) (s : State) : (updEth p f s).ptp = s.ptp := rfl

@[simp] theorem updEth_eth (p : Nat) (f : EthPort → EthPort) (s : State) : (updEth p f s).eth = upd f s.eth p := rfl

@[simp] theorem updEth_pairs (p : Nat) (f : EthPort → EthPort) (s : State) : (updEth p f s).pairs = s.pairs := rfl

@[simp] theorem updEth_hp (p : Nat) (f : EthPort → EthPort) (s : State) : (updEth p f s).hp = s.hp := rfl

@[simp] theorem updEth_ser (p : Nat) (f : EthPort → EthPort) (s : State) : (updEth p f s).ser = s.ser := rfl

@[simp] theorem updEth_cnv (p : Nat) (f : EthPort → EthPort) (s : State) : (updEth p f s).cnv = s.cnv := rfl

@[simp] theorem updEth_aln (p : Nat) (f : EthPort → EthPort) (s : State) : (updEth p f s).aln = s.aln := rfl

@[simp] theorem updEth_rte (p : Nat) (f : EthPort → EthPort) (s : State) : (updEth p f s).rte = s.rte := rfl

@[simp] theorem updEth_cls (p : Nat) (f : EthPort → EthPort) (s : State) : (updEth p f s).cls = s.cls := rfl

@[simp] theorem updEth_arb (p : Nat) (f : EthPort → EthPort) (s : State) : (updEth p f s).arb = s.arb := rfl

@[simp] theorem updEth_gpio (p : Nat) (f : EthPort → EthPort) (s : State) : (updEth p f s).gpio = s.gpio := rfl

@[simp] theorem updEth_xb (p : Nat) (f : EthPort → EthPort) (s : State) : (updEth p f s).xb = s.xb := rfl

@[simp] theorem updEth_mem (p : Nat) (f : EthPort → EthPort) (s : State) : (updEth p f s).mem = s.mem := rfl

@[simp] theorem updEth_pwr (p : Nat) (f : EthPort → EthPort) (s : State) : (updEth p f s).pwr = s.pwr := rfl

@[simp] theorem updEth_therm (p : Nat) (f : EthPort → EthPort) (s : State) : (updEth p f s).therm = s.therm := rfl

@[simp] theorem updEth_sec (p : Nat) (f : EthPort → EthPort) (s : State) : (updEth p f s).sec = s.sec := rfl

@[simp] theorem updEth_evt (p : Nat) (f : EthPort → EthPort) (s : State) : (updEth p f s).evt = s.evt := rfl

@[simp] theorem updEth_jtag (p : Nat) (f : EthPort → EthPort) (s : State) : (updEth p f s).jtag = s.jtag := rfl

@[simp] theorem updPair_pending (k : Nat) (f : EthPair → EthPair) (s : State) : (updPair k f s).pending = s.pending := rfl

@[simp] theorem updPair_free (k : Nat) (f : EthPair → EthPair) (s : State) : (updPair k f s).free = s.free := rfl

@[simp] theorem updPair_glb (k : Nat) (f : EthPair → EthPair) (s : State) : (updPair k f s).glb = s.glb := rfl

@[simp] theorem updPair_mgt (k : Nat) (f : EthPair → EthPair) (s : State) : (updPair k f s).mgt = s.mgt := rfl

@[simp] theorem updPair_pos (k : Nat) (f : EthPair → EthPair) (s : State) : (updPair k f s).pos = s.pos := rfl

@[simp] theorem updPair_tmb (k : Nat) (f : EthPair → EthPair) (s : State) : (updPair k f s).tmb = s.tmb := rfl

@[simp] theorem updPair_ptp (k : Nat) (f : EthPair → EthPair) (s : State) : (updPair k f s).ptp = s.ptp := rfl

@[simp] theorem updPair_eth (k : Nat) (f : EthPair → EthPair) (s : State) : (updPair k f s).eth = s.eth := rfl

@[simp] theorem updPair_pairs (k : Nat) (f : EthPair → EthPair) (s : State) : (updPair k f s).pairs = upd f s.pairs k := rfl

@[simp] theorem updPair_hp (k : Nat) (f : EthPair → EthPair) (s : State) : (updPair k f s).hp = s.hp := rfl

@[simp] theorem updPair_ser (k : Nat) (f : EthPair → EthPair) (s : State) : (updPair k f s).ser = s.ser := rfl

@[simp] theorem updPair_cnv (k : Nat) (f : EthPair → EthPair) (s : State) : (updPair k f s).cnv = s.cnv := rfl

@[simp] theorem updPair_aln (k : Nat) (f : EthPair → EthPair) (s : State) : (updPair k f s).aln = s.aln := rfl

@[simp] theorem updPair_rte (k : Nat) (f : EthPair → EthPair) (s : State) : (updPair k f s).rte = s.rte := rfl

@[simp] theorem updPair_cls (k : Nat) (f : EthPair → EthPair) (s : State) : (updPair k f s).cls = s.cls := rfl

@[simp] theorem updPair_arb (k : Nat) (f : EthPair → EthPair) (s : State) : (updPair k f s).arb = s.arb := rfl

@[simp] theorem updPair_gpio (k : Nat) (f : EthPair → EthPair) (s : State) : (updPair k f s).gpio = s.gpio := rfl

@[simp] theorem updPair_xb (k : Nat) (f : EthPair → EthPair) (s : State) : (updPair k f s).xb = s.xb := rfl

@[simp] theorem updPair_mem (k : Nat) (f : EthPair → EthPair) (s : State) : (updPair k f s).mem = s.mem := rfl

@[simp] theorem updPair_pwr (k : Nat) (f : EthPair → EthPair) (s : State) : (updPair k f s).pwr = s.pwr := rfl

@[simp] theorem updPair_therm (k : Nat) (f : EthPair → EthPair) (s : State) : (updPair k f s).therm = s.therm := rfl

@[simp] theorem updPair_sec (k : Nat) (f : EthPair → EthPair) (s : State) : (updPair k f s).sec = s.sec := rfl

@[simp] theorem updPair_evt (k : Nat) (f : EthPair → EthPair) (s : State) : (updPair k f s).evt = s.evt := rfl

@[simp] theorem updPair_jtag (k : Nat) (f : EthPair → EthPair) (s : State) : (updPair k f s).jtag = s.jtag := rfl

@[simp] theorem updSer_pending (c : Nat) (f : SerChan → SerChan) (s : State) : (updSer c f s).pending = s.pending := rfl

@[simp] theorem updSer_free (c : Nat) (f : SerChan → SerChan) (s : State) : (updSer c f s).free = s.free := rfl

@[simp] theorem updSer_glb (c : Nat) (f : SerChan → SerChan) (s : State) : (updSer c f s).glb = s.glb := rfl

@[simp] theorem updSer_mgt (c : Nat) (f : SerChan → SerChan) (s : State) : (updSer c f s).mgt = s.mgt := rfl

@[simp] theorem updSer_pos (c : Nat) (f : SerChan → SerChan) (s : State) : (updSer c f s).pos = s.pos := rfl

@[simp] theorem updSer_tmb (c : Nat) (f : SerChan → SerChan) (s : State) : (updSer c f s).tmb = s.tmb := rfl

@[simp] theorem updSer_ptp (c : Nat) (f : SerChan → SerChan) (s : State) : (updSer c f s).ptp = s.ptp := rfl

@[simp] theorem updSer_eth (c : Nat) (f : SerChan → SerChan) (s : State) : (updSer c f s).eth = s.eth := rfl

@[simp] theorem updSer_pairs (c : Nat) (f : SerChan → SerChan) (s : State) : (updSer c f s).pairs = s.pairs := rfl

@[simp] theorem updSer_hp (c : Nat) (f : SerChan → SerChan) (s : State) : (updSer c f s).hp = s.hp := rfl

@[simp] theorem updSer_ser (c : Nat) (f : SerChan → SerChan) (s : State) : (updSer c f s).ser = upd f s.ser c := rfl

@[simp] theorem updSer_cnv (c : Nat) (f : SerChan → SerChan) (s : State) : (updSer c f s).cnv = s.cnv := rfl

@[simp] theorem updSer_aln (c : Nat) (f : SerChan → SerChan) (s : State) : (updSer c f s).aln = s.aln := rfl

@[simp] theorem updSer_rte (c : Nat) (f : SerChan → SerChan) (s : State) : (updSer c f s).rte = s.rte := rfl

@[simp] theorem updSer_cls (c : Nat) (f : SerChan → SerChan) (s : State) : (updSer c f s).cls = s.cls := rfl

@[simp] theorem updSer_arb (c : Nat) (f : SerChan → SerChan) (s : State) : (updSer c f s).arb = s.arb := rfl

@[simp] theorem updSer_gpio (c : Nat) (f : SerChan → SerChan) (s : State) : (updSer c f s).gpio = s.gpio := rfl

@[simp] theorem updSer_xb (c : Nat) (f : SerChan → SerChan) (s : State) : (updSer c f s).xb = s.xb := rfl

@[simp] theorem updSer_mem (c : Nat) (f : SerChan → SerChan) (s : State) : (updSer c f s).mem = s.mem := rfl

@[simp] theorem updSer_pwr (c : Nat) (f : SerChan → SerChan) (s : State) : (updSer c f s).pwr = s.pwr := rfl

@[simp] theorem updSer_therm (c : Nat) (f : SerChan → SerChan) (s : State) : (updSer c f s).therm = s.therm := rfl

@[simp] theorem updSer_sec (c : Nat) (f : SerChan → SerChan) (s : State) : (updSer c f s).sec = s.sec := rfl

@[simp] theorem updSer_evt (c : Nat) (f : SerChan → SerChan) (s : State) : (updSer c f s).evt = s.evt := rfl

@[simp] theorem updSer_jtag (c : Nat) (f : SerChan → SerChan) (s : State) : (updSer c f s).jtag = s.jtag := rfl

@[simp] theorem drawn_pending (s : State) : (drawn s).pending = s.pending := rfl

@[simp] theorem drawn_free (s : State) : (drawn s).free = s.free + 1 := rfl

@[simp] theorem drawn_glb (s : State) : (drawn s).glb = s.glb := rfl

@[simp] theorem drawn_mgt (s : State) : (drawn s).mgt = s.mgt := rfl

@[simp] theorem drawn_pos (s : State) : (drawn s).pos = s.pos := rfl

@[simp] theorem drawn_tmb (s : State) : (drawn s).tmb = s.tmb := rfl

@[simp] theorem drawn_ptp (s : State) : (drawn s).ptp = s.ptp := rfl

@[simp] theorem drawn_eth (s : State) : (drawn s).eth = s.eth := rfl

@[simp] theorem drawn_pairs (s : State) : (drawn s).pairs = s.pairs := rfl

@[simp] theorem drawn_hp (s : State) : (drawn s).hp = s.hp := rfl

@[simp] theorem drawn_ser (s : State) : (drawn s).ser = s.ser := rfl

@[simp] theorem drawn_cnv (s : State) : (drawn s).cnv = s.cnv := rfl

@[simp] theorem drawn_aln (s : State) : (drawn s).aln = s.aln := rfl

@[simp] theorem drawn_rte (s : State) : (drawn s).rte = s.rte := rfl

@[simp] theorem drawn_cls (s : State) : (drawn s).cls = s.cls := rfl

@[simp] theorem drawn_arb (s : State) : (drawn s).arb = s.arb := rfl

@[simp] theorem drawn_gpio (s : State) : (drawn s).gpio = s.gpio := rfl

@[simp] theorem drawn_xb (s : State) : (drawn s).xb = s.xb := rfl

@[simp] theorem drawn_mem (s : State) : (drawn s).mem = s.mem := rfl

@[simp] theorem drawn_pwr (s : State) : (drawn s).pwr = s.pwr := rfl

@[simp] theorem drawn_therm (s : State) : (drawn s).therm = s.therm := rfl

@[simp] theorem drawn_sec (s : State) : (drawn s).sec = s.sec := rfl

@[simp] theorem drawn_evt (s : State) : (drawn s).evt = s.evt := rfl

@[simp] theorem drawn_jtag (s : State) : (drawn s).jtag = s.jtag := rfl

end Sys2Proof.Laws
end

