-- ==== Sys2Proof/Laws/Stores.lean ====
section
/-!
SUPPORT. The event log, the sweeper, OTP and boundary scan.
-/

namespace Sys2Proof.Laws

open Sys2Proof.Machine Sys2Proof.Safety

theorem log_len (e : EvEntry) (lap : BitVec 8) : (logBytes e lap).length = 16 := by
  simp [logBytes, toLE_length]

theorem otp_len {s : State} (h : Inv s) : s.sec.otp.length = 224 := by
  have := h.1
  simp only [sizes, shape, List.cons.injEq] at this
  exact this.2.2.2.2.2.2.2.2.2.2.1

theorem spare_len {s : State} (h : Inv s) : s.mem.spares.length = 37 := by
  have := h.1
  simp only [sizes, shape, List.cons.injEq] at this
  exact this.2.2.2.2.2.2.2.2.2.2.2.1

theorem scar_fold (l : List Nat) (s : State) (hl : s.sec.otp.length = 224) (hn : ∀ u ∈ l, u < 224) :
    let t := l.foldl (fun t u => scarUnit u t) s
    Frame [.sec, .evt] s t ∧ t.sec.otp.length = 224 ∧ t.sec.scarBurnDone = s.sec.scarBurnDone ∧
      ∀ u, u < 224 → nth .blank t.sec.otp u = (if u ∈ l then { st := .scarred, data := 0, scar := true } else nth .blank s.sec.otp u) := by
  induction l generalizing s with
  | nil => exact ⟨fun p _ => by cases p <;> rfl, hl, rfl, fun u _ => by simp⟩
  | cons v l ih =>
    obtain ⟨q, o, n, z⟩ := raiseAt_evt .otpScarred 0 (BitVec.ofNat 32 v) (setUnit v { st := .scarred, data := 0, scar := true } s)
    have e : scarUnit v s = _ := z
    have hs : (scarUnit v s).sec.otp = upd (fun _ => { st := .scarred, data := 0, scar := true }) s.sec.otp v := by rw [e]; rfl
    have hf : Frame [.sec, .evt] s (scarUnit v s) := by
      rw [e]
      intro p hp
      cases p <;> first | rfl | cases hp
    have hv : v < 224 := hn v (by simp)
    obtain ⟨k1, k2, k3, k4⟩ := ih (scarUnit v s) (by rw [hs, upd_length]; exact hl) (fun u hu => hn u (by simp [hu]))
    refine ⟨?_, k2, ?_, ?_⟩
    · intro p hp
      have a := hf p hp
      have b := k1 p hp
      cases p <;> first | exact Eq.trans b a | cases hp
    · refine k3.trans ?_
      rw [e]
      rfl
    · intro u hu
      refine (k4 u hu).trans ?_
      rw [hs]
      by_cases h1 : u ∈ l
      · simp [h1]
      · by_cases h2 : u = v
        · subst h2
          simp only [h1, if_false, List.mem_cons, true_or, if_true]
          exact nth_upd_same _ _ _ (by omega)
        · simp only [h1, h2, if_false, List.mem_cons, or_self]
          exact nth_upd_other _ _ _ (Ne.symm h2)

theorem loadInstr_free (i : JtagInstr) (s : State) (h : jtagHolds i = false) (hs : jtagHolds s.jtag.instr = false) :
    loadInstr i s = { s with jtag := { s.jtag with instr := i } } := by
  unfold loadInstr
  dsimp only
  rw [if_neg (by simp [h]), if_neg (by simp [hs])]

theorem loadInstr_hold (i : JtagInstr) (s : State) (h : jtagHolds i = true) (hr : resettable s = true) (hn : s.sec.run = none) :
    (loadInstr i s).jtag = { s.jtag with instr := i } ∧ (loadInstr i s).pwr.boot = .inReset ∧ (loadInstr i s).mem.shared = s.mem.shared := by
  unfold loadInstr
  dsimp only
  rw [if_pos h]
  by_cases hb : s.pwr.boot = .inReset
  · rw [if_neg (by simp [hb])]
    exact ⟨rfl, hb, rfl⟩
  · rw [if_pos (by simp [hr, hb])]
    unfold coreReset
    have e : interruptOtp (if ResetSrc.resetN = .pllLoss then endFarReads { s with jtag := { s.jtag with instr := i } } else { s with jtag := { s.jtag with instr := i } }) = { s with jtag := { s.jtag with instr := i } } := by
      rw [if_neg (by decide)]
      simp [interruptOtp, hn]
    rw [e]
    refine ⟨rfl, ?_, rfl⟩
    show heldOrPll { s with jtag := { s.jtag with instr := i } } = .inReset
    simp [heldOrPll, h]

theorem follow_free (s : State) (h : jtagHolds s.jtag.instr = false) : followCells s = s := by
  unfold followCells
  rw [if_neg (by simp [h])]

theorem follow_hold (s : State) (h : jtagHolds s.jtag.instr = true) (hb : s.pwr.boot = .inReset) : followCells s = gpioScan s := by
  unfold followCells
  rw [if_pos ⟨hb, h⟩]

end Sys2Proof.Laws
end

