-- ==== Sys2Proof/Tests/Slice0.lean ====
section
/-!
SUPPORT. The tests: ill-formed commands that the check refuses, for each statement states that meet its hypotheses,
clause by clause, and single commands on small states, with results taken from the specification's examples and
tables.
-/

namespace Sys2Proof.Tests

open Sys2Proof.Machine Sys2Proof.Safety

-- One kernel evaluation at a time: side by side they would hold many stacks at once.
set_option Elab.async false

/-! ### Well-formedness: one ill-formed command for each check -/

def env0 : CmpEnv := { adc := [], gpio := 0 }
def quiet : BankEnv := { sameCycle := false, ecc := .ok }
def place0 : BankPlace := { bank := 0, row := 0, word := 0 }
def good0 : EccAt := { place := place0, what := .ok }
def word0 (v : Word) : SpiWord := { val := v, crc := 0 }
def frame0 : RxFrame :=
  { bytes := [], symErr := false, fragment := false, verifyPkt := false, respondPkt := false, started := [] }

theorem test_wf_envs :
    (Instr.write 0 [word0 0] [quiet, quiet] false).wf = false ∧ (Instr.read 0 1 [quiet, quiet] false).wf = false ∧
      (Instr.write 0 [word0 0] [quiet] false).wf = true ∧ (Instr.read 0 1 [quiet] false).wf = true := by decide
theorem test_wf_atomic :
    (Instr.atomic 0 [] 3 quiet false).wf = false ∧ (Instr.atomic 0 [] 2 quiet false).wf = true := by decide
theorem test_wf_one_word :
    (Instr.softReset [word0 0, word0 0] false).wf = false ∧ (Instr.enterState [word0 0, word0 0] false).wf = false ∧
      (Instr.softReset [word0 0] false).wf = true ∧ (Instr.enterState [word0 0] false).wf = true := by decide
theorem test_wf_pickup : (Instr.stalemateExpiry 4).wf = false ∧ (Instr.stalemateExpiry 3).wf = true := by decide
theorem test_wf_register :
    (Instr.registerWrite 0x000002 0 false).wf = false ∧ (Instr.rcCounterRead 0x010101).wf = false ∧
      (Instr.registerWrite 0x000004 0 false).wf = true ∧ (Instr.rcCounterRead 0x010100).wf = true := by decide
theorem test_wf_adc :
    (Instr.cmpArm 0 0 env0).wf = false ∧ (Instr.cmpDisarm 0 0 env0).wf = false ∧ (Instr.cmpFire env0).wf = false ∧
      (Instr.cmpFire { env0 with adc := List.replicate 8 0 }).wf = true := by decide
theorem test_wf_egress :
    (Instr.egressSelect 9 good0).wf = false ∧ (Instr.promotion 88 0).wf = false ∧
      (Instr.egressSelect 8 good0).wf = true ∧ (Instr.promotion 87 0).wf = true := by decide
theorem test_wf_frame :
    (Instr.ethFrameRx 0 { frame0 with verifyPkt := true, respondPkt := true }).wf = false ∧
      (Instr.ethFrameRx 8 { frame0 with fragment := true }).wf = false ∧ (Instr.ethFrameRx 0 frame0).wf = true := by decide
theorem test_wf_edges :
    (Instr.serCharRx 0 { age := 0, edges := [2, 1] }).wf = false ∧
      (Instr.serCharRx 0 { age := 0, edges := [1, 2] }).wf = true := by decide
theorem test_wf_route :
    (Instr.rteEditWord0 4096 0 false).wf = false ∧ (Instr.rteEditWordMid 4096 0 0 false).wf = false ∧
      (Instr.rteEditWord5 4096 0 false).wf = false ∧ (Instr.rteEditWord5 4095 0 false).wf = true := by decide
theorem test_wf_bridge :
    (Instr.xbTransactionEnd (List.replicate 33 0)).wf = false ∧ (Instr.xbCardErr 17).wf = false ∧
      (Instr.xbBeatTimeout 17).wf = false ∧ (Instr.xbCardRemoved 17).wf = false ∧ (Instr.xbCardErr 16).wf = true := by
  decide
theorem test_wf_cells :
    (Instr.extest (List.replicate 329 true) []).wf = false ∧ (Instr.samplePreload [] (List.replicate 329 true)).wf = false ∧
      (Instr.extestPulse (List.replicate 329 true) []).wf = false ∧
      (Instr.extestTrain [] (List.replicate 329 true)).wf = false ∧
      (Instr.extest (List.replicate 328 true) (List.replicate 328 true)).wf = true := by decide +kernel

/-! ### The small states -/

/-- The invariant, as a check. -/
def invCheck (s : State) : Bool :=
  decide (sizes s = shape) && Memory.wf s.mem.shared && decide (s.evt.queue.length ≤ 64) &&
    decide (s.hp.held.length ≤ 2) && decide (s.xb.werr.length ≤ 8) && decide (s.mem.marks.length ≤ 16) &&
    s.eth.all (fun k => decide (k.cnt.length = 16 ∧ k.runs.length = 8 ∧ k.queues.length = 6)) &&
    s.ser.all (fun k => decide (k.cnt.length = 19 ∧ k.queues.length = 6)) &&
    decide (s.tmb.ns.toNat < 1000000000 ∧ s.tmb.sub < slewUnit ∧ addendMin ≤ s.tmb.addend ∧ s.tmb.addend ≤ addendMax) &&
    (match s.tmb.slew with
     | none => true
     | some w => decide (w.ppm ≤ 500))

theorem inv_of_check {s : State} (h : invCheck s = true) : Inv s := by
  simp only [invCheck, Bool.and_eq_true, decide_eq_true_eq, List.all_eq_true] at h
  obtain ⟨⟨⟨⟨⟨⟨⟨⟨⟨h1, h2⟩, h3⟩, h4⟩, h5⟩, h6⟩, h7⟩, h8⟩, h9⟩, h10⟩ := h
  refine ⟨h1, h2, h3, h4, h5, h6, h7, h8, h9.1, h9.2.1, h9.2.2.1, h9.2.2.2, fun w hw => ?_⟩
  simpa [hw] using h10

/-- READY in PLAY, with device time at second 100 and TMB_LOCAL far on. -/
def live : State := { State.reset with
  pwr := { State.reset.pwr with boot := .ready, mainGood := true }
  tmb := { State.reset.tmb with secs := 100, localCnt := 0x1000000000 } }

/-- A section of a Position. -/
def sect (ty : Nat) (body : List Byte) : Sect := { ty, flags := 0, body }

/-- `live` with the tables of a running Position. -/
def placed (l : List Sect) : State := { live with
  pos := { live.pos with active := true, running := true, activeBank := false, tables := l } }

theorem inv_live : Inv live := inv_of_check (by decide +kernel)

/-- `n` bytes, zero but for the listed offsets. -/
def row (n : Nat) (l : List (Nat × Byte)) : List Byte := (List.range n).map (fun i => lookupD 0 i l)

/-! ### Witnesses: the machine as a whole -/

theorem witness_StepTakesFront : ∃ (s : State) (c : Instr) (q : List Instr), s.pending = c :: q :=
  ⟨live.withPending [.snapshot, .step], .snapshot, [.step], rfl⟩

theorem witness_IdleStepIsOneTick :
    live.pending = [] ∧ timeRuns live = true ∧ inSeal live = false ∧ State.reset.pending = [] ∧
      timeRuns State.reset = false := by decide +kernel

theorem step_idle {s : State} (h : s.pending = []) : step s = .next (tick s) := by simp [step, h]

theorem witness_StepKeepsInv : ∃ s t : State, Inv s ∧ step s = .next t := ⟨live, tick live, inv_live, step_idle (by decide +kernel)⟩

/-- Unit 0 is LOCKED at shipment. -/
theorem witness_LockedUnitsNeverChange : ∃ s t : State, Sealed 0 s ∧ step s = .next t :=
  ⟨live, tick live, ⟨by decide +kernel, fun _ h => nomatch h⟩, step_idle (by decide +kernel)⟩

/-- A LOCK of counter unit 128, which is COMMITTED: the running command works on a unit that counts. -/
def locking : State := { live with sec := { live.sec with
  otp := upd (fun u => { u with st := .committed, data := 1 }) live.sec.otp 128
  run := some { cmd := .lock, unitAddr := 128, data := 0 } } }

theorem witness_RunningCommandFits : ∃ s t : State, RunFits s ∧ step s = .next t :=
  ⟨locking, tick locking, fun r h => .inl (by cases h; rfl), step_idle (by decide +kernel)⟩

theorem witness_RollbackNeverFalls :
    ∃ s t : State, RunFits s ∧ step s = .next t ∧ rollbackCount s = 1 ∧ otpEffective 128 s = true :=
  ⟨locking, tick locking, fun r h => .inl (by cases h; rfl), step_idle (by decide +kernel), by decide +kernel, by decide +kernel⟩

/-! ### Witnesses: management port -/

theorem portIdle_live : PortIdle live := by unfold PortIdle; decide +kernel

/-- `live` with CRC framing on. -/
def framed : State := { live with mgt := { live.mgt with crcEn := true } }

theorem quiet_of {l : List BankEnv} (h : l.all (fun e => !e.sameCycle && e.ecc == .ok) = true) : QuietEnvs l := by
  intro e he
  have := List.all_eq_true.1 h e he
  simpa using this

/-- The last word below the system area, with MGT_CS_N high and low after it. -/
theorem witness_WriteStoresSharedWords :
    PortIdle live ∧ coreAnswers live = true ∧ Memory.wf live.mem.shared = true ∧ QuietEnvs [quiet] ∧
      (hostWords live.mgt.crcEn [word0 0x12345678] (crcHead 0x02 0x11AFFC)).2 = false ∧
      wordAddr 0x11AFFC = 0x100000 + 0x1AFFC ∧ 0x1AFFC + 4 * [word0 0x12345678].length ≤ 0x1B000 :=
  ⟨portIdle_live, by decide +kernel, by decide +kernel, quiet_of (by decide +kernel), by decide +kernel, by decide +kernel, by decide +kernel⟩

theorem witness_WriteStopsAtBadCrc :
    let w : SpiWord := { val := 0x12345678, crc := crcWord (crcHead 0x02 0x11AFFC) 0x12345678 }
    PortIdle framed ∧ coreAnswers framed = true ∧ Memory.wf framed.mem.shared = true ∧ framed.mgt.crcEn = true ∧
      (hostWords true [w] (crcHead 0x02 0x11AFFC)).2 = false ∧
      (word0 1).crc ≠ crcWord ([w].foldl (fun r w => crcWord r w.val) (crcHead 0x02 0x11AFFC)) (word0 1).val ∧
      wordAddr 0x11AFFC = 0x100000 + 0x1AFFC ∧ 0x1AFFC + 4 * [w].length ≤ 0x1B000 := by
  unfold PortIdle
  decide +kernel

/-- The last word of the shared region. -/
theorem witness_ReadReturnsSharedWords :
    PortIdle live ∧ coreAnswers live = true ∧ QuietEnvs [quiet] ∧ wordAddr 0x11FFFF = 0x100000 + 0x1FFFC ∧
      0x1FFFC < 0x20000 ∧ 0x1FFFC + 4 * 1 ≤ 0x20000 ∧ live.mgt.crcEn = false :=
  ⟨portIdle_live, by decide +kernel, quiet_of (by decide +kernel), by decide +kernel, by decide +kernel, by decide +kernel, rfl⟩

theorem witness_MailboxReadIsOneSample : PortIdle live ∧ coreAnswers live = true ∧ 8 ≤ 8 ∧ live.mgt.crcEn = false :=
  ⟨portIdle_live, by decide +kernel, by decide +kernel, rfl⟩

theorem witness_StatusAndUnknownOpcode : PortIdle live ∧ opcodes.contains 0x00 = false ∧ opcodes.contains 0xFF = false :=
  ⟨portIdle_live, by decide +kernel, by decide +kernel⟩

/-- Slot 3 holds a completed read of one word. -/
def landed : State := { live with mgt := { live.mgt with
  pick := upd (fun k => { k with st := .done, len := 1, data := [0xCAFEBABE], deadline := some 0x1000000000 })
    live.mgt.pick 3 } }

theorem inv_landed : Inv landed := inv_of_check (by decide +kernel)

theorem witness_PickupAndStalemate :
    PortIdle landed ∧ wordAddr 0x00000C / 4 = 3 ∧ 3 < 4 ∧ Inv landed ∧ 0 < 17 ∧
      (nth .empty landed.mgt.pick 3).st = .done ∧
      (nth .empty landed.mgt.pick 3).deadline = some 0x1000000000 ∧ 0x1000000000 ≤ localNow landed :=
  ⟨by unfold PortIdle; decide +kernel, by decide +kernel, by decide +kernel, inv_landed, by decide +kernel, by decide +kernel, by decide +kernel,
    by decide +kernel⟩

/-- FETCH_ADD and SWAP of 64 bits at the last place. -/
theorem witness_AtomicFetchesAndStores :
    PortIdle live ∧ coreAnswers live = true ∧ Memory.wf live.mem.shared = true ∧
      [(1 : Word), 3].all (fun c => !(hostWords live.mgt.crcEn [word0 c, word0 5, word0 6] (crcHead 0x60 0x11AFF8)).2 &&
        (atomicOperand c.toNat ([word0 5, word0 6].map (·.val))).isSome && 0x1AFF8 % atomicWidth c.toNat == 0) = true ∧
      [(0 : Word), 2].all (fun c => (atomicOperand c.toNat ([word0 5].map (·.val))).isSome &&
        0x1AFF8 % atomicWidth c.toNat == 0) = true ∧
      wordAddr 0x11AFF8 = 0x100000 + 0x1AFF8 ∧ 0x1AFF8 + 8 ≤ 0x1B000 := by
  unfold PortIdle
  decide +kernel

/-- A WRITE stays open with its last edge 1,000 µs ago. -/
def stalled : State := { live with mgt := { live.mgt with
  openTx := some { lastEdge := 0x1000000000 - 250000, read := none, out := { TxOutcome.zero with opcode := 0x02 } } } }

theorem witness_WatchdogAbandons : ∃ x : OpenTx, stalled.mgt.openTx = some x ∧ stalled.mgt.wdogEn = true ∧
    coreUp stalled = true ∧ stalled.xb.gather = none ∧
    x.lastEdge + (max 1 stalled.mgt.wdogTimeout.toNat) * 250 ≤ localNow stalled :=
  ⟨_, rfl, by decide +kernel, by decide +kernel, rfl, by decide +kernel⟩

/-! ### Witnesses: registers and their FIFOs -/

theorem witness_RegisterWriteTakesBits : coreAnswers live = true ∧ mgtAlive live = true := by decide +kernel

theorem witness_CounterReadClears : (8 < 9 ∧ 15 < 16) ∧ coreAnswers live = true ∧ Inv live :=
  ⟨by decide +kernel, by decide +kernel, inv_live⟩

/-- One entry in the FIFO of capture 7, of the time-stamps of P7, and of the posted-write error log. -/
def recorded : State := { live with
  tmb := { live.tmb with caps := upd (fun k => { k with fifo := [{ rising := true, ns := 5, secs := 6 }] }) live.tmb.caps 7 }
  ptp := { live.ptp with ports := upd (fun k => { k with txts := [{ secs := 1, ns := 2, tag := 3 }] }) live.ptp.ports 7 }
  xb := { live.xb with werr := [{ who := 1, slot := 2, code := 3, addr := 4 }] } }

theorem witness_FifoAndPeekReads :
    coreAnswers recorded = true ∧ Inv recorded ∧ (capAt 0 recorded).fifo = [] ∧
      (capAt 7 recorded).fifo = [{ rising := true, ns := 5, secs := 6 }] ∧ (ptpPort 0 recorded).txts = [] ∧
      (ptpPort 7 recorded).txts = [{ secs := 1, ns := 2, tag := 3 }] ∧
      recorded.xb.werr = [{ who := 1, slot := 2, code := 3, addr := 4 }] :=
  ⟨by decide +kernel, inv_of_check (by decide +kernel), by decide +kernel, by decide +kernel, by decide +kernel, by decide +kernel, rfl⟩

/-! ### Witnesses: the time base -/

/-- In SEAL. -/
def sealedAt : State := { live with pwr := { live.pwr with ladder := .seal } }

/-- One addition before a seconds carry, and one before the end of a slew. -/
def lastNs : State := { live with tmb := { live.tmb with
  ns := 999999996
  slew := some { neg := false, ppm := 500, remain := 0x400000000 * 500 } } }

theorem witness_TimeBaseAdds :
    (Inv live ∧ timeRuns live = true ∧ inSeal live = false ∧ live.pending = []) ∧
      (Inv sealedAt ∧ timeRuns sealedAt = true ∧ inSeal sealedAt = true ∧ sealedAt.pending = []) ∧
      (Inv lastNs ∧ timeRuns lastNs = true ∧ (tick lastNs).tmb.secs ≠ lastNs.tmb.secs) ∧
      ∃ w, lastNs.tmb.slew = some w ∧ w.remain ≤ 1 * lastNs.tmb.addend.toNat * w.ppm :=
  ⟨⟨inv_live, by decide +kernel⟩, ⟨inv_of_check (by decide +kernel), by decide +kernel⟩,
    ⟨inv_of_check (by decide +kernel), by decide +kernel⟩, _, rfl, by decide +kernel⟩

/-- `live` under another owner of the time. -/
def owned (o : BitVec 2) : State := { live with tmb := { live.tmb with owner := o } }

theorem witness_TimeCommandsNeedHost : coreAnswers (owned 1) = true ∧ (owned 1).tmb.owner ≠ 0 := by decide +kernel

/-- A slew and a step asked for, at the limits of their fields. -/
def asked (rate : BitVec 10) (step : Word) : State := { live with tmb := { live.tmb with
  slewRate := rate, slewNs := 0x80000000, setNs := 999999999, stepNs := step, stepS := 0x80000000 } }

theorem witness_SnapshotAndSlew :
    coreAnswers (asked 1 0) = true ∧ (asked 1 0).tmb.owner = 0 ∧ 1 ≤ (asked 1 0).tmb.slewRate.toNat ∧
      (asked 500 0).tmb.slewRate.toNat ≤ 500 ∧ (asked 1 0).tmb.slewNs ≠ 0 ∧ coreAnswers (owned 2) = true ∧
      (owned 2).tmb.owner = 2 := by decide +kernel

theorem witness_SetStepAndRate :
    [999999999, -999999999].all (fun n =>
      let s := asked 1 n
      coreAnswers s && s.tmb.owner == 0 && decide (s.tmb.setNs.toNat < 1000000000) &&
        decide (-999999999 ≤ s.tmb.stepNs.toInt) && decide (s.tmb.stepNs.toInt ≤ 999999999) &&
        decide ((addTime 1 s.tmb).ns.toNat < 1000000000)) = true := by decide +kernel

/-- A Position that gives the Timekeeper a role and the PPS loop its input, capture 3. -/
def timed : State := placed [sect tyTime (row 640 [(1, 3), (7, 0x08), (576, 1)])]

theorem witness_OwnerWriteKeepsTime :
    coreAnswers timed = true ∧ timed.pos.active = true ∧ timeRole timed ≠ 0 ∧ ppsInputDefined timed = true ∧
      timeRole live = 0 ∧ ppsInputDefined live = false := by decide +kernel

/-- Comparator 15 armed for the present instant, alone, with its action; comparator 0 LOCKED; a pulse of PPSO 3 at
its end. -/
def armedFor (action : BitVec 4) : State := { live with tmb := { live.tmb with
  cmps := upd (fun k => { k with armed := true, action, liveS := 100, liveNs := 0 })
    (upd (fun k => { k with locked := true }) live.tmb.cmps 0) 15
  ppso := upd (fun k => { k with pulse := some (100, 0) }) live.tmb.ppso 3 } }

/-- Comparator 15 staged for the next nanosecond. -/
def stagedFor : State := { live with tmb := { live.tmb with
  cmps := upd (fun k => { k with targetS := 100, targetNs := 1 }) live.tmb.cmps 15 } }

theorem witness_ComparatorsArm :
    (coreAnswers stagedFor = true ∧ Inv stagedFor ∧ (cmpAt 15 stagedFor).armed = false ∧ 8 < 9 ∧
      (cmpAt 15 stagedFor).locked = false ∧ (cmpAt 15 stagedFor).targetNs.toNat < 1000000000 ∧
      0 < cmpDelta (cmpAt 15 stagedFor).targetS (cmpAt 15 stagedFor).targetNs stagedFor.tmb) ∧
    (coreAnswers (armedFor 0) = true ∧ Inv (armedFor 0) ∧ (cmpAt 0 (armedFor 0)).armed = false ∧
      (cmpAt 0 (armedFor 0)).locked = true) :=
  ⟨⟨by decide +kernel, inv_of_check (by decide +kernel), by decide +kernel⟩,
    by decide +kernel, inv_of_check (by decide +kernel), by decide +kernel⟩

theorem witness_ComparatorsFire :
    [(0 : BitVec 4), 4].all (fun a => invCheck (armedFor a) &&
      (List.range 16).all (fun j => cmpDue (armedFor a) (cmpAt j (armedFor a)) == (j == 15)) &&
      (cmpAt 15 (armedFor a)).mode == 0 && !(cmpAt 15 (armedFor a)).wakeEn && !(cmpAt 15 (armedFor a)).late &&
      !(cmpAt 15 (armedFor a)).lateDue && (cmpAt 15 (armedFor a)).action == a && !inSeal (armedFor a) &&
      !(nth .reset (armedFor a).tmb.ppso 3).qualify) = true ∧
    (nth .reset (armedFor 0).tmb.ppso 3).pulse = some (100, 0) ∧ timeRuns (armedFor 0) = true ∧
      cmpDelta 100 (BitVec.ofNat 30 0) (armedFor 0).tmb ≤ 0 := by decide +kernel

/-- Capture 7 records both edges and holds `k` of them. -/
def capturing (k : Nat) : State := { live with tmb := { live.tmb with
  caps := upd (fun c => { c with edge := 3, fifo := List.replicate k { rising := true, ns := 0, secs := 0 } })
    live.tmb.caps 7 } }

theorem witness_CaptureRecordsEdge :
    [15, 16].all (fun k => invCheck (capturing k) && capturesRun (capturing k) && (capAt 7 (capturing k)).edge == 3 &&
      (capturing k).tmb.owner != 2 && (capAt 7 (capturing k)).fifo.length == k) = true := by decide +kernel

/-- The PPS loop LOCKED, with its last pulse 3 s ago. -/
def lostPps : State := { owned 2 with tmb := { (owned 2).tmb with
  pps := { live.tmb.pps with st := 2, lastAt := 0x1000000000 - 750000000 } } }

theorem witness_PpsHoldoverEntry :
    timeRuns lostPps = true ∧ lostPps.tmb.owner = 2 ∧ lostPps.tmb.pps.st = 2 ∧
      lostPps.tmb.pps.lastAt + 750000000 ≤ localNow lostPps := by decide +kernel

/-! ### Witnesses: power, resets and the ladder -/

/-- `live` with another stage of power-up. -/
def booted (b : Boot) (src : ResetSrc) (low : Bool) : State := { live with
  pwr := { live.pwr with boot := b, bootSrc := src, resetLow := low } }

theorem witness_PowerUpSteps :
    State.reset.pwr.boot = .unpowered ∧ (booted .rest .powerOn false).pwr.boot = .rest ∧
      (booted .rest .powerOn false).pwr.mainGood = true ∧ (booted .porWait .powerOn false).pwr.boot = .porWait ∧
      jtagHolds live.jtag.instr = false ∧ (booted .inReset .resetN true).pwr.boot = .inReset ∧
      (booted .inReset .resetN true).pwr.resetLow = true ∧ (booted .pllWait .powerOn false).pwr.boot = .pllWait := by
  decide +kernel

theorem witness_ReadyChecksRegion :
    [ResetSrc.powerOn, .softReset].all (fun src =>
      let s := booted .init src false
      s.pwr.boot == .init && !s.pwr.pwrFailLow && !s.sec.abortedPending && s.pwr.bootSrc == src &&
        !s.mem.latchSample) = true := by decide +kernel

theorem witness_ResetsKeepMemory :
    resettable live = true ∧ live.sec.run = none ∧ PortIdle live ∧
      (firstWord live.mgt.crcEn 0x99 [word0 0x00005EA1]).1 = some 0x00005EA1 ∧ live.pwr.boot = .ready ∧
      inSeal live = false ∧ live.xb.queue = [] ∧ live.xb.cur = none := by
  unfold PortIdle
  decide +kernel

theorem witness_EntryRequests :
    [1, 2, 3].all (fun n => decide (n < 4) && entryPermitted .spi n live && live.pwr.phase == .steady &&
      (firstWord live.mgt.crcEn 0xB9 [word0 (BitVec.ofNat 32 n)]).1 == some (BitVec.ofNat 32 n)) = true ∧
    coreAnswers live = true ∧ PortIdle live ∧ fld (0x4C450001 : Word) 31 16 ≠ 0x4C44 := by
  unfold PortIdle
  decide +kernel

/-- Under way between two states of the ladder. -/
def moving (l : Ladder) (ph : Phase) (goal : Option Ladder) (causes : BitVec 8) : State := { live with
  pwr := { live.pwr with ladder := l, phase := ph, target := goal, reg := { live.pwr.reg with causes } } }

theorem witness_LadderMoves :
    (coreUp (moving .play .entering (some .hold) 0) = true ∧
      (moving .play .entering (some .hold) 0).pwr.phase = .entering) ∧
    (2 ≤ targetCode (moving .hold .entering (some .adjourn) 0) ∧
      bridgeDrained (moving .hold .entering (some .adjourn) 0) = true ∧
      coreUp (moving .hold .entering (some .adjourn) 0) = true) ∧
    (coreUp (moving .adjourn .entering (some .seal) 0) = true ∧ (moving .adjourn .entering (some .seal) 0).pwr.reg.causes = 0 ∧
      (moving .adjourn .entering (some .seal) 2).pwr.reg.causes ≠ 0) ∧
    (coreUp (moving .seal .exiting none 2) = true ∧ (moving .seal .exiting none 2).pwr.phase = .exiting ∧
      (moving .seal .exiting none 2).pos.running = false ∧ (moving .seal .exiting none 2).pos.active = false ∧
      (moving .seal .exiting none 2).evt.queue = []) := by decide +kernel

/-- At rest in a state below PLAY with every wake source enabled. -/
def asleep (l : Ladder) (ph : Phase) : State := { live with
  pwr := { live.pwr with
    ladder := l
    phase := ph
    wakeEn := 0xFF
    wakeGpio := 0xFFFF
    wakeSer := 0xFFFFFF
    wakePorts := 0xFF
    wakeSlots := 0xFF } }

theorem witness_WakesStartExit :
    [Ladder.hold, .adjourn, .seal].all (fun l =>
      coreUp (asleep l .steady) && (asleep l .steady).pwr.phase == .steady && (asleep l .steady).pwr.ladder != .play &&
        (asleep l .steady).pwr.wakeEn == 0xFF && (asleep l .steady).pwr.wakeGpio.getLsbD 15 &&
        !gpioIsOutput 15 (asleep l .steady) && (asleep l .steady).pwr.wakeSer.getLsbD 23 &&
        (asleep l .steady).pwr.wakePorts.getLsbD 7 && (asleep l .steady).pwr.wakeSlots.getLsbD 7) = true ∧
    PortIdle (asleep .hold .steady) ∧ coreUp (asleep .play .entering) = true ∧
      (asleep .play .entering).pwr.phase = .entering ∧ (asleep .play .entering).pwr.wakeEn.getLsbD 1 = true := by
  unfold PortIdle
  decide +kernel

/-- In the endgame, and in REST with and without the latch. -/
def falling : State := { live with pwr := { live.pwr with endgame := true } }
def latched (b : Bool) : State := { live with mem := { live.mem with retLatch := b } }

theorem witness_EndgameAndRest :
    (coreUp sealedAt = true ∧ sealedAt.pwr.ladder = .seal ∧ sealedAt.sec.run = none) ∧ falling.pwr.endgame = true ∧
      ((latched true).pwr.mainGood = true ∧ (latched true).sec.run = none ∧ (latched true).mem.retLatch = true) ∧
      ((latched false).mem.retLatch = false ∧ (latched false).pwr.boot ≠ .rest) ∧
      live.pwr.mainGood = true ∧ State.reset.pwr.mainGood = false := by decide +kernel

/-- A thermal trip whose samples have stayed cool for THERM_RELEASE_MS. -/
def cooled : State := { live with therm := { live.therm with thermal := true, coolSince := some (0x1000000000 - 250000000) } }

theorem witness_ThermalTrip :
    (coreUp live = true ∧ live.therm.thermal = false ∧ (539 : BitVec 16).toInt < 540) ∧
      (coreUp sealedAt = true ∧ sealedAt.therm.thermal = false ∧ 540 ≤ (540 : BitVec 16).toInt ∧
        sealedAt.pwr.ladder = .seal) ∧
      (coreUp cooled = true ∧ cooled.therm.thermal = true ∧
        cooled.therm.coolSince = some (0x1000000000 - 250000000) ∧
        0x1000000000 - 250000000 + msCycles cooled.therm.relMs.toNat ≤ localNow cooled) := by decide +kernel

/-! ### Witnesses: Positions -/

theorem witness_StreamFillsStagingBank :
    PortIdle live ∧ coreAnswers live = true ∧ stageBusy live = false ∧ List.replicate 15 (word0 1) ≠ [] ∧
      (hostWords live.mgt.crcEn (List.replicate 15 (word0 1)) (crcHead 0x20 0)).2 = false ∧
      (List.replicate 15 (word0 1)).length < 16 := by
  unfold PortIdle
  decide +kernel

/-- Both banks hold an empty unsigned image with its digest, a control cycle is defined, and nothing waits on the
bridge. -/
def stagedAt (st : Stage) : State := { live with
  pos := { live.pos with
    stage := st
    active := true
    running := true
    hitlessOk := true
    bankA := { image := [], digest := sha256 [], ue := false }
    bankB := { image := [], digest := sha256 [], ue := false }
    tables := [sect tyArbiter (row 8 [])] }
  tmb := { live.tmb with cmps := upd (fun k => { k with armed := true, action := 7 }) live.tmb.cmps 15 } }

theorem witness_StagingCommands :
    (coreUp (stagedAt .verifying) = true ∧ (stagedAt .verifying).pos.stage = .verifying) ∧
    (coreAnswers (stagedAt .staged) = true ∧ (stagedAt .staged).pos.stage = .staged ∧
      (stagedAt .staged).pos.opening = false ∧ (stagedAt .staged).pos.hitlessOk = true ∧
      recheck (stageBank (stagedAt .staged)) (stagedAt .staged) = none ∧ storeOk (activeBank (stagedAt .staged)) = true) ∧
    (coreAnswers (stagedAt .empty) = true ∧ (stagedAt .empty).pos.stage = .empty) ∧
    (coreUp (stagedAt .preparing) = true ∧ (stagedAt .preparing).pos.stage = .preparing ∧
      cycleDefined (stagedAt .preparing) = true) := by decide +kernel

/-- The Position of `stagedAt`, held after a reset. -/
def heldPos (pending opening : Bool) (fb : List Byte) : State := { stagedAt .empty with
  pos := { (stagedAt .empty).pos with running := false, restartPending := pending, opening, fallback := some fb } }

theorem witness_CommitOpensPosition :
    ((stagedAt .staged).xb.queue = [] ∧ (stagedAt .staged).xb.cur = none ∧ coreAnswers (stagedAt .staged) = true ∧
      (stagedAt .staged).pos.opening = false ∧ recheck (stageBank (stagedAt .staged)) (stagedAt .staged) = none) ∧
    (coreAnswers (heldPos true false []) = true ∧ (heldPos true false []).pos.restartPending = true ∧
      (heldPos true false []).pos.active = true ∧
      recheck (activeBank (heldPos true false [])) (heldPos true false []) = none) ∧
    (coreUp (heldPos false false [0, 0, 0, 1]) = true ∧ restartAfterReset (heldPos false false [0, 0, 0, 1]) = true ∧
      (heldPos false false [0, 0, 0, 1]).pos.running = false ∧
      (heldPos false false [0, 0, 0, 1]).pos.restartPending = false ∧
      recheck (activeBank (heldPos false false [0, 0, 0, 1])) (heldPos false false [0, 0, 0, 1]) = none) ∧
    (coreUp (heldPos false true []) = true ∧ (heldPos false true []).pos.opening = true) ∧
    (coreAnswers (stagedAt .empty) = true ∧ (stagedAt .empty).pos.running = true) := by decide +kernel

/-! ### Witnesses: the event log and the sweeper -/

/-- An event waits, and the head is at the last entry. -/
def logging : State := { live with evt := { live.evt with
  headIdx := 1023
  queue := [{ secs := 100, tq := 0, ns := 0, code := 1, source := 0, datum := 2 }] } }

theorem witness_LogWritesOldestEvent : ∃ e l, fabricRuns logging = true ∧ logging.evt.queue = e :: l ∧
    Memory.wf logging.mem.shared = true :=
  ⟨_, _, by decide +kernel, rfl, by decide⟩

def finding (fails multi : Bool) : SweepFinding := { errs := [], testFails := fails, multi, starved := false }

/-- The last row of bank 0 comes next, and its first spare is taken. -/
def sweeping : State := { live with mem := { live.mem with
  sweepNext := { bank := 0, row := bankRows 0 - 1 }
  spares := upd (fun k => { k with rowA := some 0 }) live.mem.spares 0 } }

theorem witness_SweeperRepairs :
    Inv sweeping ∧ inPlay sweeping = true ∧ due sweeping.mem.sweepDue sweeping = true ∧
      (takeRow sweeping).1.row < bankRows (takeRow sweeping).1.bank ∧ (takeRow sweeping).1.bank < 37 ∧
      sweeping.mem.suspects = [] ∧ (finding true true).errs = [] ∧
      (remapped (takeRow sweeping).1.row (nth .none sweeping.mem.spares (takeRow sweeping).1.bank)).isSome = true :=
  ⟨inv_of_check (by decide +kernel), by decide +kernel⟩

/-! ### Witnesses: security -/

/-- Both key slots PROGRAMMED, unit 127 COMMITTED, and a signed image of slot `slot` and version 1 running. -/
def secured (slot : Byte) : State := { live with
  sec := { live.sec with
    otp := upd (fun u => { u with st := .committed }) (((List.range 16).map (· + 2)).foldl
      (fun l i => upd (fun u => { u with st := .locked }) l i) live.sec.otp) 127
    otpAddr := 64 }
  pos := { live.pos with
    active := true
    running := true
    bankA := { image := row 64 [(10, 1), (11, slot), (13, 1)], digest := [], ue := false } } }

theorem witness_OtpCommandsStart :
    [(0 : Byte), 1].all (fun b => coreAnswers (secured b) && (secured b).sec.run.isNone && secAllowed (secured b) &&
      signedRunning (secured b) && imgKeySlot (activeBank (secured b)).image == b.toNat &&
      slotProgrammed b.toNat (secured b) && unitBlank (flagUnit (if b == 0 then 2 else 1)) (secured b) &&
      unitBlank (flagUnit 0) (secured b) && unitBlank (flagUnit 3) (secured b) &&
      decide (rollbackCount (secured b) < imgVersion (activeBank (secured b)).image) &&
      nextCounter (secured b) == some 128) = true ∧
    [64, 126, 192, 195].all (fun u => !unitProtected u && unitBlank u (secured 0)) = true ∧
    (unitProtected 127 = false ∧ unitCommitted 127 (secured 0) = true ∧ unitBlank 127 (secured 0) = false) ∧
    [0, 1, 29, 63, 196, 223].all unitProtected = true ∧ tokenOk live = false := by decide +kernel

/-- A token for the shipped device, signed with the private key 2 whose public key is in slot 0. -/
def tokenWords : List Word :=
  [0x464E5854, 0x00010000, 0x00000000, 0x00000000, 0x7CF27B18, 0x8D034F7E] ++
    [0x8A523803, 0x04B51AC3, 0xC08969E2, 0x77F21B35, 0xA60B48FC, 0x47669978] ++
    [0x07775510, 0xDB8ED040, 0x293D9AC6, 0x9F7430DB, 0xBA7DADE6, 0x3CE98229] ++
    [0x9E04B79D, 0x227873D1, 0x5ECBE4D1, 0xA6330A44, 0xC8F7EF95, 0x1D4BF165] ++
    [0xE6C6B721, 0xEFADA985, 0xFB41661B, 0xC6E7FD6C, 0xAA0353EC, 0xFEC46D46] ++
    [0x53287DF7, 0x72DAD6CD, 0x5075AE4B, 0xA744B750, 0x7A1F3AFD, 0xE9C8B52E]
def keyHash : List Word :=
  [0xD07AEB13, 0x4840B152, 0x42E12D4A, 0x06CE3AB4, 0x93CBD020, 0xEBC3BD5A, 0xAECD822F, 0x51E0C3D8]

def unlockable : State := { live with sec := { live.sec with
  token := tokenWords
  otp := live.sec.otp.take 2 ++ keyHash.map (fun w => { st := .locked, data := w, scar := false }) ++
    live.sec.otp.drop 10 } }

theorem witness_OtpCommandsStart_token : coreAnswers unlockable = true ∧ secAllowed unlockable = true ∧
    unlockable.sec.run = none ∧ tokenOk unlockable = true := by decide +kernel

/-- A PROGRAM of the last unit runs. -/
def burning (c : SecCmd) (u : Nat) : State := { live with sec := { live.sec with
  run := some { cmd := c, unitAddr := u, data := 1 } } }

theorem witness_OtpCommandsEnd :
    [(SecCmd.program, 223), (.lock, 64)].all (fun x => invCheck (burning x.1 x.2) && coreUp (burning x.1 x.2) &&
      inPlay (burning x.1 x.2) && !(burning x.1 x.2).sec.scarBurnDone && decide (x.2 < 224) &&
      (burning x.1 x.2).sec.run == some { cmd := x.1, unitAddr := x.2, data := 1 }) = true := by decide +kernel

theorem witness_JtagInstructions :
    jtagRuns live = true ∧ jtagHolds live.jtag.instr = false ∧ resettable live = true ∧ live.sec.run = none ∧
      List.replicate 328 true ≠ [] := by decide +kernel

/-! ### Witnesses: Timekeeper -/

/-- One defined port on every board port, PTP port 7 enabled and forwarding in a role with both domains. -/
def portsBody (e : List (Nat × Byte)) : List Byte := (List.range 14).flatMap (fun _ => row 32 ((0, 1) :: e))

/-- A wildcard that every key meets, with its result. -/
def wildBody (res : List (Nat × Byte)) : List Byte := row 8 [(1, 1)] ++ row 16 [] ++ row 32 res

/-- A running Position whose one route keeps port `out` in class `c`, with a link on every port. -/
def town (e : List (Nat × Byte)) (res : List (Nat × Byte)) : State :=
  let s := placed [sect tyPorts (portsBody e), sect tyMemory (row 64 [(13, 0x0F)]), sect tyWildcards (wildBody res)]
  { s with eth := s.eth.map (fun k => { k with fwd := .forwarding, link := true }) }

/-- To P1 in BISHOP, or to no port. -/
def toP1 : List (Nat × Byte) := [(1, 2), (2, 0x82)]

def ptpTown (role : BitVec 3) : State := { town [] toP1 with
  ptp := { live.ptp with
    role
    ports := upd (fun k => { k with
      enabled := true
      dom0 := { k.dom0 with state := 6, pdelay := { k.dom0.pdelay with awaiting := true, timeouts := 2 } } }) live.ptp.ports 7 } }

/-- P7 runs in both domains and is MASTER. -/
theorem witness_PtpMessagesLeave :
    let s := ptpTown 1
    Inv s ∧ ptpRuns s = true ∧ ptpPortUp 7 s = true ∧ pdelayRole s = true ∧ s.ptp.secEn = false ∧
      (forwarding 7 s = true ∧ (allot 2 78 s).isSome = true ∧ (allot 2 68 s).isSome = true ∧
        (allot 2 58 s).isSome = true) ∧
      (slice (portEntry 7 s) 8 6).length = 6 ∧ domEnabled false s = true ∧ (portDom 7 false s).state = 6 ∧
      let s1 := runBmca false false s
      (portDom 7 false s1).state = 6 ∧ (forwarding 7 s1 = true ∧ (allot 2 78 s1).isSome = true) ∧
        (slice (portEntry 7 s1) 8 6).length = 6 ∧ s.ptp.profile = false ∧ s1.ptp.profile = s.ptp.profile :=
  ⟨inv_of_check (by decide +kernel), by decide +kernel⟩

/-- Two requests of P7 stay without their responses; the third does so next. -/
theorem witness_PdelayTimeout :
    let s := ptpTown 1
    Inv s ∧ ptpRuns s = true ∧ (portDom 7 false s).pdelay.awaiting = true ∧
      (portDom 7 false s).pdelay.timeouts + 1 = 3 :=
  ⟨inv_of_check (by decide +kernel), by decide +kernel⟩

/-- The only master of the domain, on P7, has fallen silent. -/
def orphaned : State := { ptpTown 1 with
  tmb := { live.tmb with owner := 1 }
  ptp := { (ptpTown 1).ptp with
    autoCastle := false
    ports := upd (fun k => { k with dom0 := { k.dom0 with
      foreign := [{ sender := 5, data := .zero, seen := [] }] } }) (ptpTown 1).ptp.ports 7
    d0 := { live.ptp.d0 with parent := some 7, master := 5, annTimeout := 3, servo := 3 } } }

theorem witness_MasterLost :
    Inv orphaned ∧ ptpRuns orphaned = true ∧ bmcaRole orphaned = true ∧ domEnabled false orphaned = true ∧
      masterTimedOut false orphaned = true ∧ (domOf false orphaned).parent = some 7 ∧
      orphaned.ptp.castleSt ≠ .blocked ∧ orphaned.ptp.autoCastle = false ∧
      (∀ q, q < 8 → ∀ f ∈ (portDom q false orphaned).foreign, q = 7 ∧ f.sender = (domOf false orphaned).master) ∧ 7 < 8 ∧
      orphaned.ptp.activeDom = false ∧ orphaned.tmb.owner = 1 ∧ orphaned.ptp.holdover = false :=
  ⟨inv_of_check (by decide +kernel), by decide +kernel⟩

/-- 64 cycles after the loss, and at the end of the grace period. -/
def without (lost grace : Option Nat) (held : Bool) : State := { owned 1 with
  ptp := { live.ptp with lostAt := lost, graceEnd := grace, holdover := held } }

theorem witness_HoldoverAndGrace :
    (timeRuns (without (some (0x1000000000 - 64)) none false) = true ∧
      (without (some (0x1000000000 - 64)) none false).tmb.owner = 1 ∧
      (without (some (0x1000000000 - 64)) none false).ptp.lostAt = some (0x1000000000 - 64) ∧
      0x1000000000 - 64 + 64 ≤ localNow (without (some (0x1000000000 - 64)) none false) ∧
      (without (some (0x1000000000 - 64)) none false).ptp.holdover = false) ∧
    (timeRuns (without none (some 0x1000000000) true) = true ∧ (without none (some 0x1000000000) true).tmb.owner = 1 ∧
      (without none (some 0x1000000000) true).ptp.holdover = true ∧
      (without none (some 0x1000000000) true).ptp.graceEnd = some 0x1000000000 ∧
      0x1000000000 ≤ localNow (without none (some 0x1000000000) true)) := by decide +kernel

/-- The second domain is LOCKED, `ns` off. -/
def rivals (ns : Int) (st : CastleSt) : State := { owned 1 with
  ptp := { live.ptp with
    role := 1
    secEn := true
    castleSt := st
    cand := true
    d1 := { live.ptp.d1 with servo := 3, ofsDev := [ns * 8192000] } } }

theorem witness_CastlingAndDecisions :
    [(200 : Int), -200].all (fun n => coreAnswers (rivals n .idle) && castleAllowed true (rivals n .idle) &&
      decide ((ofsDevNs (domOf true (rivals n .idle)) (rivals n .idle).free).natAbs ≤ castleWindow (rivals n .idle)) &&
      decide (ofsDevNs (domOf true (rivals n .idle)) (rivals n .idle).free ≠ 0) &&
      !(rivals n .idle).ptp.activeDom) = true ∧
    (castleAllowed true (rivals 201 .idle) = true ∧ (rivals 201 .idle).ptp.autoPolicy ≠ 1 ∧
      castleWindow (rivals 201 .idle) < (ofsDevNs (domOf true (rivals 201 .idle)) (rivals 201 .idle).free).natAbs) ∧
    castleAllowed true (owned 1) = false ∧
    (coreAnswers (rivals 201 .blocked) = true ∧ (rivals 201 .blocked).ptp.castleSt = .blocked ∧
      (rivals 201 .blocked).tmb.owner = 1 ∧
      ofsDevNs (domOf (rivals 201 .blocked).ptp.cand (rivals 201 .blocked)) (rivals 201 .blocked).free ≠ 0) ∧
    ((rivals 201 .idle).ptp.castleSt ≠ .blocked ∧
      (rivals 201 .idle).ptp.decisionThisCycle ≠ some (localNow (rivals 201 .idle))) := by decide +kernel

/-! ### Witnesses: Ethernet ports -/

/-- P7 changed. -/
def onP7 (f : EthPort → EthPort) (s : State) : State := { s with eth := upd f s.eth 7 }

/-- Autonegotiation, 100BASE-X and verified preemption on every port. -/
def anTown : State := town [(1, 1), (3, 1), (4, 1)] toP1

theorem witness_PortLinks :
    let down := onP7 (fun k => { k with link := false, fwd := .down }) anTown
    let lost := onP7 (fun k => { k with lossFrom := some 0x1000000000 }) anTown
    let idle := onP7 (fun k => { k with idleUntil := some 0x1000000000 }) anTown
    let tries (n : Nat) := onP7 (fun k => { k with verify := .verifying, verifyDue := some 0x1000000000, verifyTries := n }) anTown
    let i : LinkInfo := { speed100 := true, anDone := true, remoteFault := false, farEnd := false, unsupported := false }
    (Inv down ∧ lanesOn down = true ∧ down.pos.active = true ∧ portDefined 7 down = true ∧ (ethAt 7 down).link = false ∧
      (ethAt 7 down).idleUntil = none ∧ portMode 7 down = 1 ∧ i.unsupported = false ∧ portAnEn 7 down = true ∧
      i.anDone = true) ∧
    (Inv lost ∧ lanesOn lost = true ∧ (ethAt 7 lost).link = true ∧ (ethAt 7 lost).lossFrom = some 0x1000000000 ∧
      0x1000000000 + usCycles (portHoldUs 7 lost) ≤ localNow lost) ∧
    (Inv idle ∧ (ethAt 7 idle).idleUntil = some 0x1000000000 ∧ 0x1000000000 ≤ localNow idle) ∧
    (Inv (tries 2) ∧ Inv (tries 3) ∧ (ethAt 7 (tries 2)).verify = .verifying ∧ (ethAt 7 (tries 2)).verifyTries = 2 ∧
      (ethAt 7 (tries 3)).verifyTries = 3 ∧ (ethAt 7 (tries 3)).verifyDue = some 0x1000000000 ∧
      0x1000000000 ≤ localNow (tries 3)) ∧
    (Inv anTown ∧ coreAnswers anTown = true ∧ (ethAt 7 anTown).fwd ≠ .disabled ∧ (ethAt 7 anTown).link = true ∧
      portPreempt 7 anTown = 1) := by
  refine ⟨⟨inv_of_check ?_, ?_⟩, ⟨inv_of_check ?_, ?_⟩, ⟨inv_of_check ?_, ?_⟩, ⟨inv_of_check ?_, inv_of_check ?_, ?_⟩,
    inv_of_check ?_, ?_⟩ <;> decide +kernel

/-- P7 RESIGNED with its clean interval at its end. -/
def resigned (auto : Byte) : State := onP7 (fun k => { k with
  fwd := .resigned, cleanFrom := some 0x1000000000, cleanLeft := 0, windowEnd := 0x1000000000 }) (town [(3, auto)] toP1)

theorem witness_PortsResignAndReturn :
    [(0 : Byte), 8].all (fun a => invCheck (resigned a) && coreAnswers (resigned a) &&
      (ethAt 7 (resigned a)).fwd == .resigned && (ethAt 7 (resigned a)).cleanFrom == some 0x1000000000 &&
      decide (0x1000000000 + (ethAt 7 (resigned a)).cleanLeft ≤ localNow (resigned a)) &&
      portAuto 7 (resigned a) == (a == 8) && portDefined 7 (resigned a) &&
      decide ((ethAt 7 (resigned a)).windowEnd ≤ localNow (resigned a))) = true ∧
    (invCheck anTown = true ∧ coreAnswers anTown = true ∧ (ethAt 7 anTown).fwd ≠ .disabled ∧
      (ethAt 7 anTown).fwd ≠ .resigned ∧ anTown.ptp.role = 0) ∧
    (invCheck live = true ∧ coreAnswers live = true ∧ (ethAt 7 live).fwd = .disabled) := by decide +kernel

/-- A frame with its FCS. -/
def sealed (body : List Byte) : RxFrame := { frame0 with bytes := body ++ fcsBytes body }
/-- 60 bytes with a type field. -/
def typed (hi lo : Byte) : List Byte := row 60 [(12, hi), (13, lo)]
/-- 60 bytes that end in the trailer of LAN A with sequence number 7. -/
def lanA : List Byte := typed 0x08 0x00 |>.take 54 |> (· ++ [0x00, 0x07, 0xA0, 0x2E, 0x88, 0xFB])

def faultIs (p : Nat) (f : RxFrame) (i : Nat) (s : State) : Bool :=
  (if f.fragment then some 5 else rxFault p f) == some i && !badEntered p f s

/-- A frame of each fault: a fragment, one byte short, one byte long, a wrong FCS, a symbol error. -/
theorem witness_FramesAreReceived_bad :
    let s := town [] toP1
    (Inv s ∧ lanesOn s = true ∧ portDefined 7 s = true ∧ (ethAt 7 s).link = true) ∧
      faultIs 7 { frame0 with fragment := true } 5 s = true ∧ faultIs 7 { frame0 with bytes := row 55 [] } 3 s = true ∧
      faultIs 7 { frame0 with bytes := row 64 [] } 1 (onP7 (fun k => { k with fwd := .down }) s) = true ∧
      faultIs 7 { frame0 with bytes := row 1523 [] } 4 (onP7 (fun k => { k with fwd := .down }) s) = true ∧
      faultIs 7 { sealed (typed 8 0) with symErr := true } 2 (onP7 (fun k => { k with fwd := .down }) s) = true ∧
      (ethAt 7 (onP7 (fun k => { k with verify := .verifying }) s)).verify = .verifying :=
  ⟨⟨inv_of_check (by decide +kernel), by decide +kernel⟩, by decide +kernel⟩

theorem witness_FramesAreReceived_good :
    let s := town [] toP1
    let bare := { s with pos := { s.pos with tables := [sect tyPorts (portsBody [])] } }
    let f := sealed (typed 0x08 0x00)
    let l := innerFrame 7 f
    let m := ethInbound 7 f (.plain l) none (portCount 7 0 s)
    rxFault 7 f = none ∧ frameType l ≠ 0x8808 ∧ vlanAccepted 7 l s = true ∧ boardRuns s = true ∧ forwarding 7 s = true ∧
      rxFault 7 (sealed (typed 0x88 0x08)) = none ∧ frameType (innerFrame 7 (sealed (typed 0x88 0x08))) = 0x8808 ∧
      vlanAccepted 7 l (town [(5, 1)] toP1) = false ∧
      (∀ k, k < 8 → pairMode k s = 0) ∧ frameType l ≠ 0x88F7 ∧
      (boardRuns bare = true ∧ forwarding 7 bare = true ∧ vlanAccepted 7 l bare = true ∧
        lookup (ethInbound 7 f (.plain l) none (portCount 7 0 bare)).key bare = none) ∧
      ∃ r, lookup m.key s = some r ∧ resEnabled r.res = true ∧ keptPorts m r s = [1] ∧ 1 ≠ 7 ∧ resFilter r.res = none ∧
        routeBound r.id s = none ∧ messageClass m r s < 6 ∧ forwarding 1 s = true ∧
        (allot (messageClass m r s) m.bytes.length s).isSome = true := by
  refine ⟨?_, ?_, ?_, ?_, ?_, ?_, ?_, ?_, ?_, ?_, ?_, _, rfl, ?_⟩ <;> decide +kernel

/-- PRP pairs with supervision; the frame of `lanA` from P6 came before on the other LAN. -/
def prpTown : State :=
  let s := town [(2, 1), (3, 0x10), (29, 100)] toP1
  let d : DupEntry := { sa := row 6 [], seq := 7, created := 0x1000000000, fwdEven := false, fwdOdd := false }
  { s with pairs := upd (fun k => { k with dup := [d] }) s.pairs 3 }

theorem witness_FramesAreReceived_pairs :
    let l := innerFrame 6 (sealed lanA)
    (Inv prpTown ∧ lanesOn prpTown = true ∧ boardRuns prpTown = true ∧ forwarding 6 prpTown = true ∧
      (ethAt 6 prpTown).link = true ∧ portDefined 6 prpTown = true ∧ rxFault 6 (sealed lanA) = none ∧
      vlanAccepted 6 l prpTown = true ∧ pairMode 6 prpTown = 1 ∧ hasTrailer l = true ∧ frameType l ≠ 0x88F7 ∧
      frameType l ≠ 0x8808 ∧ (findDup (6 / 2) (slice l 6 6) (BitVec.ofNat 16 (be16 l (l.length - 6))) prpTown).isSome = true ∧
      be16 l (l.length - 4) / 4096 = 0xA) ∧
    (pairMode (2 * 3) prpTown ≠ 0 ∧ flagAt (portEntry (2 * 3) prpTown) 3 4 = true ∧
      (nth .reset prpTown.pairs 3).supDue ≤ localNow prpTown ∧
      (forwarding 6 prpTown = true ∧ (allot 0 (supFrame 3 1 prpTown).length prpTown).isSome = true ∧
        forwarding 7 prpTown = true ∧ (nth .reset prpTown.pairs 3).supSeq = 0)) ∧
    (ethAt 7 live).link = false :=
  ⟨⟨inv_of_check (by decide +kernel), by decide +kernel⟩, by decide +kernel⟩

/-! ### Witnesses: egress -/

/-- Message 5 of route 0x1000, `bytes` long, with the age origin `origin`. -/
def msg0 (kind : MsgKind) (origin : Nat) (refs : Nat) : Msg :=
  { id := 5, kind, port := 0, channel := none, index := 0, bytes := row 60 [], tagged := false, vid := 0, pcp := 0, cls := 0,
    acct := 0, result := padTo 32 (toP1Bytes), template := none, routeId := 0x1000, stamp := .zero, origin,
    downgraded := false, red := 0, san := false, idle := false, tsTag := none, reserved := 0, shared := 1, refs,
    etype := 0x0800, tseq := 0, ring := [] }
where
  /-- An age budget of 1,000 µs. -/
  toP1Bytes : List Byte := [0, 2, 0x82, 0, 0, 0, 0x03, 0xE8]

def entry0 : QEntry := { msg := 5, promoted := false, marked := false, seq := 0 }

/-- `entry0` waits alone in class `c` of port `e`. -/
def queued (e c : Nat) (origin : Nat) : State :=
  let s := town [] toP1
  setQueue e c [entry0] { s with cls := { s.cls with msgs := [msg0 .eth origin 1] } }

/-- On HP in KING and in PAWN, on the edge of its budget and past it. -/
theorem witness_EgressSelect :
    [(8, 5, 0x1000000000 - 249999), (1, 0, 0x1000000000)].all (fun x =>
      let s := queued x.1 x.2.1 x.2.2
      invCheck s && boardRuns s && (ethAt x.1 s).link && (ethAt x.1 s).tx.isNone && forwarding x.1 s &&
        (List.range 6).all (fun d => decide (d ≤ x.2.1) || (queueOf x.1 d s).isEmpty) && queueOf x.1 x.2.1 s == [entry0] &&
        msgById 5 s == some (msg0 .eth x.2.2 1) && !pastBudget (msg0 .eth x.2.2 1) s &&
        bundleMax (msg0 .eth x.2.2 1) == 1 && !resTxts (msg0 .eth x.2.2 1).result &&
        (ethAt x.1 s).mpackets.isEmpty && (ethAt x.1 s).preempted.isNone && !limited x.1 s) = true ∧
    (let s := queued 0 4 (0x1000000000 - 250000)
     invCheck s = true ∧ queueOf 0 4 s = [entry0] ∧ queueOf 0 5 s = [] ∧
       pastBudget (msg0 .eth (0x1000000000 - 250000) 1) s = true ∧ classMarks 4 s = false ∧ good0.what = .ok) := by
  decide +kernel

/-- A frame has left P8 entirely. -/
def leavingNow : State :=
  let s := queued 0 0 0
  let f : TxFrame := { entries := [entry0], cls := 0, bytes := row 64 [], sent := 0, frags := 0, startAt := 0x1000000000 - 128 }
  { s with eth := upd (fun k => { k with leaving := [f] }) s.eth 8 }

theorem witness_TxComplete : ∃ f fs, Inv leavingNow ∧ coreUp leavingNow = true ∧ (ethAt 8 leavingNow).leaving = f :: fs ∧
    txDone 8 f leavingNow = true ∧ f.frags = 0 ∧ f.entries = [entry0] ∧
    (msgById 5 leavingNow).map (·.refs) = some 1 :=
  ⟨_, _, inv_of_check (by decide +kernel), by decide +kernel, rfl, by decide +kernel⟩

/-- At half of its budget in ROOK, the highest class that promotes. -/
theorem witness_Promotion :
    let s := queued 8 3 (0x1000000000 - 125000)
    let m := msg0 .eth (0x1000000000 - 125000) 1
    Inv s ∧ 8 ≤ 8 ∧ fabricRuns s = true ∧ s.pos.running = true ∧ queueOf 8 3 s = [entry0] ∧ msgById 5 s = some m ∧
      classPromotes 3 s = true ∧ 3 < 4 ∧ entry0.promoted = false ∧ m.routeId ≠ 0xFFFF ∧
      resBudgetUs m.result * 500 ≤ ageNs m s ∧ ageNs m s < resBudgetUs m.result * 1000 :=
  ⟨inv_of_check (by decide +kernel), by decide +kernel⟩

/-- A held KING frame short of its budget, and one that has reached it. -/
theorem witness_KingHeldExpiry :
    [(0x1000000000 - 249999, false), (0x1000000000 - 250000, true)].all (fun x =>
      let s := { queued 8 5 x.1 with eth := upd (fun k => { k with fwd := .down }) (queued 8 5 x.1).eth 8 }
      invCheck s && !forwarding 8 s && fabricRuns s && queueOf 8 5 s == [entry0] && entryPast entry0 s == x.2) = true := by
  decide +kernel

/-! ### Witnesses: access frames -/

/-- A held access frame with one command, and one with its command done. -/
def asking (c : AccCmd) (done : List AccEntry) : State :=
  let s := town [(28, 0x10), (29, 0)] toP1
  let q : AccReq :=
    { src := row 6 [], reqId := 1, flags := 0, down := false, sent := 0, cmds := [c], done, started := none,
      waitTag := none, landed := none }
  { s with hp := { s.hp with held := [q] } }

def cmd0 (op : Byte) (addr : BitVec 24) (data : List Word) (dsize : Nat) : AccCmd :=
  { opcode := op, words := 1, addr, data, preset := none, dsize }

theorem witness_AccessFramesRun :
    [cmd0 3 0x11FFFC [] 1, cmd0 2 0x11AFFC [5] 0, cmd0 3 0x001000 [] 1, cmd0 2 0x001FFC [5] 0].all (fun c =>
      let s := asking c []
      inPlay s && coreAnswers s && (s.hp.held.map (·.cmds)) == [[c]] && c.preset.isNone && decide (c.words < 256) &&
        Memory.wf s.mem.shared) = true ∧
    ((0x11FFFC : BitVec 24).toNat = 0x100000 + 0x1FFFC ∧ 0x1FFFC % 4 = 0 ∧ 0x1FFFC + 4 * 1 ≤ 0x20000 ∧
      (0x11AFFC : BitVec 24).toNat = 0x100000 + 0x1AFFC ∧ 0x1AFFC + 4 * 1 ≤ 0x1B000 ∧
      isMgt (0x001000 : BitVec 24).toNat = true ∧ isMgt (0x001FFC : BitVec 24).toNat = true) ∧
    (let s := asking (cmd0 2 0 [] 0) [{ status := 0, words := 1, addr := 0, xbCode := 0, data := [] }]
     let r : Route := { id := accessRoute s, res := padTo 32 (resultOf (accessRoute s) s) }
     invCheck s = true ∧ inPlay s = true ∧ s.hp.held.map (fun q => q.done.length == q.cmds.length) = [true] ∧
       routeClass r s < 6 ∧ forwarding 8 s = true ∧ (allot (routeClass r s) 200 s).isSome = true) := by decide +kernel

/-! ### Witnesses: serial channels -/

/-- A running Position with the entry `e` for every channel, and every channel as `f` leaves it. -/
def serTown (e : List (Nat × Byte)) (f : SerChan → SerChan) : State :=
  let s := town [] toP1
  { s with
    pos := { s.pos with tables := s.pos.tables ++ [sect tySerial ((List.range 24).flatMap (fun _ => row 64 e))] }
    ser := s.ser.map (fun k => f { k with div := 100000, lineIdle := false }) }

/-- Transitions, in ns after the falling edge of the start bit, of bits of 100 µs each. -/
def wave : Bool → Nat → List Bool → List Nat
  | _, _, [] => []
  | b, n, c :: l => (if b == c then [] else [n * 100000]) ++ wave c (n + 1) l

/-- A character of eight data bits with the bits that follow them. -/
def charOf (b : Byte) (tail : List Bool) : LineChar :=
  { age := 1000000, edges := wave false 1 ((List.range 8).map (fun i => b.getLsbD i) ++ tail ++ [true]) }

def part (l : List Byte) : SerMsg :=
  { bytes := l, stamp := .zero, origin := 0, idle := false, group := none, encroached := false }

/-- A character meets the hypotheses, and is read as given: value, parity error, framing error. -/
def charReads (s : State) (l : LineChar) (v : Nat) (par fr : Bool) : Bool :=
  let e := serEntry 23 s
  let k := serAt 23 s
  let r := readChar e k.div (localNow s * 4 - l.age) l.edges
  invCheck s && serReceives 23 s && k.rx != .blinded && !k.skipIdle && !k.deOn && k.txSt != .sending && k.backoff.isNone &&
    serAbrMode e == 0 && !serIdleMode e && !flagAt e 0 2 &&
    !readBit (serOver e) k.div (localNow s * 4 - l.age) l.edges 0 &&
    r == { value := v, parity := par, framing := fr }

/-- "$GPZDA" in progress, 8N1 and with even parity. -/
def inSentence (par : Byte) (l : List Byte) : State :=
  serTown [(0, 1), (1, 1 + par), (9, 82)] (fun k => { k with rx := .receiving, frame := some (part l) })

theorem witness_CharactersMakeSentences :
    (charReads (inSentence 0 [0x24]) (charOf 0x41 [false]) 0x41 false true = true ∧
      charReads (inSentence 2 [0x24]) (charOf 0x41 [true, true]) 0x41 true false = true) ∧
    (charReads (inSentence 0 [0x24]) (charOf 0x24 [true]) 0x24 false false = true ∧
      charReads (inSentence 0 [0x24]) (charOf 0x21 [true]) 0x21 false false = true) ∧
    (charReads (serTown [(0, 1), (1, 1), (9, 82)] id) (charOf 0x41 [true]) 0x41 false false = true ∧
      (serAt 23 (serTown [(0, 1), (1, 1), (9, 82)] id)).frame = none) ∧
    (sentenceStep [0x24, 0x41] = .grow ∧ [(0x24 : Byte), 0x41].length < serMaxLen (serEntry 23 (inSentence 0 [0x24])) ∧
      charReads (inSentence 0 [0x24]) (charOf 0x41 [true]) 0x41 false false = true) ∧
    (charReads (inSentence 0 [0x24, 0x41, 0x2A, 0x34, 0x31, 0x0D]) (charOf 0x0A [true]) 0x0A false false = true ∧
      sentenceStep [0x24, 0x41, 0x2A, 0x34, 0x31, 0x0D, 0x0A] = .complete ∧
      (serAt 23 (inSentence 0 [0x24])).wait = none) ∧
    (charReads (inSentence 0 [0x24, 0x41, 0x2A, 0x34, 0x32, 0x0D]) (charOf 0x0A [true]) 0x0A false false = true ∧
      sentenceStep [0x24, 0x41, 0x2A, 0x34, 0x32, 0x0D, 0x0A] = .checksum) ∧
    (charReads (inSentence 0 [0x24]) (charOf 0x2C [true]) 0x2C false false = true ∧
      sentenceStep [0x24, 0x2C] = .format) := by decide +kernel

theorem witness_SerialLinesEvents :
    let idle := serTown [(0, 1), (1, 1), (3, 1), (10, 3)] (fun k => { k with rx := .receiving, frame := some (part [1]) })
    let abr := serTown [(0, 1), (1, 1), (18, 1)] (fun k => { k with needIdle := true })
    let blind := serTown [(0, 1), (1, 1)] (fun k => { k with rx := .blinded })
    (Inv idle ∧ serReceives 23 idle = true ∧ serOver (serEntry 23 idle) ≠ 3 ∧ (serAt 23 idle).frame = some (part [1]) ∧
      (serAt 23 idle).lineIdle = false ∧ (serAt 23 idle).rx ≠ .blinded ∧
      (serAt 23 idle).lastChar + halfChars (serIdleHct (serEntry 23 idle)) (serEntry 23 idle) (serAt 23 idle) ≤
        localNow idle ∧
      serIdleMode (serEntry 23 idle) = true ∧ (serAt 23 idle).spoiled = false ∧ (serAt 23 idle).wait = none ∧
      coreAnswers idle = true ∧ (serAt 23 idle).rx = .receiving) ∧
    (Inv (inSentence 0 [0x24]) ∧ serReceives 23 (inSentence 0 [0x24]) = true ∧
      (serAt 23 (inSentence 0 [0x24])).frame = some (part [0x24]) ∧ (serAt 23 (inSentence 0 [0x24])).lineIdle = false ∧
      (serAt 23 (inSentence 0 [0x24])).rx ≠ .blinded ∧ serIdleMode (serEntry 23 (inSentence 0 [0x24])) = false ∧
      (serAt 23 (inSentence 0 [0x24])).lastChar + halfChars (serIdleHct (serEntry 23 (inSentence 0 [0x24])))
        (serEntry 23 (inSentence 0 [0x24])) (serAt 23 (inSentence 0 [0x24])) ≤ localNow (inSentence 0 [0x24])) ∧
    (Inv abr ∧ serReceives 23 abr = true ∧ (serAt 23 abr).needIdle = true ∧ coreAnswers abr = true ∧
      abr.pos.running = true ∧ (serAt 23 abr).rx ≠ .blinded ∧ serAbrMode (serEntry 23 abr) ≠ 0 ∧
      (serAt 23 abr).lastChar + be16 (serEntry 23 abr) 22 * 250 ≤ localNow abr) ∧
    (Inv blind ∧ serReceives 23 blind = true ∧ (serAt 23 blind).rx = .blinded ∧ serAbrMode (serEntry 23 blind) = 0) := by
  refine ⟨⟨inv_of_check ?_, ?_⟩, ⟨inv_of_check ?_, ?_⟩, ⟨inv_of_check ?_, ?_⟩, inv_of_check ?_, ?_⟩ <;> decide +kernel

/-- Channel 23 alone has a complete message. -/
def handing : State :=
  let s := serTown [(0, 1), (1, 1)] id
  let t := { s with pos := { s.pos with tables := s.pos.tables.map (fun (x : Sect) =>
    if x.ty = tyWildcards then sect tyWildcards (wildBody [(1, 2), (2, 0x82), (8, 0x80)]) else x) ++
      [sect tyTemplates (row 8 [] ++ row 128 [(0, 1), (1, 1)])] } }
  { t with ser := upd (fun k => { k with wait := some { part [0x24] with origin := 9 } }) t.ser 23 }

theorem witness_SeHandover :
    let m := { part [0x24] with origin := 9 }
    let n := serialInbound 23 m handing
    Inv handing ∧ fabricRuns handing = true ∧ handing.pos.running = true ∧ handing.cls.seNext ≤ localNow handing ∧
      (serAt 23 handing).wait = some m ∧
      (List.range 24).all (fun d => d == 23 || (serAt d handing).wait.isNone) = true ∧
      ∃ r, lookup n.key handing = some r ∧ resEnabled r.res = true ∧ keptPorts n r handing = [1] ∧ 1 ≤ 8 ∧
        resFilter r.res = none ∧ routeBound r.id handing = none ∧ messageClass n r handing < 6 ∧
        (∀ k, k < 8 → pairMode k handing = 0) ∧ forwarding 1 handing = true ∧
        (allot (messageClass n r handing) m.bytes.length handing).isSome = true := by
  refine ⟨inv_of_check ?_, ?_, ?_, ?_, ?_, ?_, _, rfl, ?_⟩ <;> decide +kernel

/-- Message 5 in transmission on channel 23. -/
def sending0 : SerTx :=
  { msg := 5, bytes := [0x24], marked := false, cls := 0, startAt := 0, endAt := 0x1000000000, retries := 0, rest := [] }

/-- A channel that transmits, with `entry0` queued in class `c` or in transmission. -/
def sender (e : List (Nat × Byte)) (f : SerChan → SerChan) : State :=
  let s := serTown ([(0, 2), (1, 1)] ++ e) (fun k => f { k with txSt := .idle })
  { s with cls := { s.cls with msgs := [msg0 .eth (0x1000000000 - 249999) 1] } }

theorem witness_SerTxSelect :
    [0, 5].all (fun c =>
      let s := setQueue (64 + 23) c [entry0] (sender [] id)
      invCheck s && serTransmits 23 s && (serAt 23 s).txSt == .idle && (serAt 23 s).tx.isNone &&
        (List.range 6).all (fun d => decide (d ≤ c) || (queueOf (64 + 23) d s).isEmpty) &&
        queueOf (64 + 23) c s == [entry0] && msgById 5 s == some (msg0 .eth (0x1000000000 - 249999) 1) &&
        !pastBudget (msg0 .eth (0x1000000000 - 249999) 1) s && serDuplex (serEntry 23 s) == 0 &&
        !serSlottedE (serEntry 23 s) && serData (serEntry 23 s) == 8) = true := by decide +kernel

theorem witness_SerialTransmission :
    let s := sender [] (fun k => { k with txSt := .sending, tx := some sending0 })
    let bus (n : Byte) := sender [(13, 2), (16, n)] (fun k => { k with txSt := .sending, tx := some sending0 })
    let lag := sender [(13, 1)] (fun k => { k with deOn := true, deUntil := some 0x1000000000 })
    let wait := sender [(13, 2)] (fun k => { k with txSt := .backoff, tx := some sending0, backoff := some 0x1000000000 })
    let slots := serTown [(0, 6), (1, 1)] (fun k => { k with slotFrame := some (100, 0) })
    (Inv s ∧ (serAt 23 s).tx = some sending0 ∧ (serAt 23 s).txSt = .sending ∧ sending0.endAt ≤ localNow s ∧
      sending0.rest = [] ∧ (msgById 5 s).map (·.refs) = some 1) ∧
    (Inv (bus 1) ∧ (serAt 23 (bus 1)).tx = some sending0 ∧ 2 ≤ serDuplex (serEntry 23 (bus 1)) ∧
      serSlottedE (serEntry 23 (bus 1)) = false ∧ sending0.retries < serRetryMax (serEntry 23 (bus 1))) ∧
    (Inv (bus 0) ∧ (serAt 23 (bus 0)).tx = some sending0 ∧ serRetryMax (serEntry 23 (bus 0)) ≤ sending0.retries) ∧
    (Inv lag ∧ (serAt 23 lag).deOn = true ∧ (serAt 23 lag).txSt ≠ .sending ∧
      (serAt 23 lag).deUntil = some 0x1000000000 ∧ 0x1000000000 ≤ localNow lag) ∧
    (Inv wait ∧ serTransmits 23 wait = true ∧ (serAt 23 wait).tx = some sending0 ∧ (serAt 23 wait).txSt = .backoff ∧
      (serAt 23 wait).backoff = some 0x1000000000 ∧ (serAt 23 wait).rx ≠ .blinded ∧
      (msgById 5 wait).map (fun m => pastBudget m wait) = some false ∧ serData (serEntry 23 wait) = 8 ∧
      serSlottedE (serEntry 23 wait) = false) ∧
    (Inv slots ∧ boardRuns slots = true ∧ serSlottedE (serEntry 23 slots) = true ∧
      frameOffset 0 (serAt 23 slots) slots = some 0 ∧ (serAt 23 slots).txSt ≠ .slotWait) := by
  refine ⟨⟨inv_of_check ?_, ?_⟩, ⟨inv_of_check ?_, ?_⟩, ⟨inv_of_check ?_, ?_⟩, ⟨inv_of_check ?_, ?_⟩,
    ⟨inv_of_check ?_, ?_⟩, inv_of_check ?_, ?_⟩ <;> decide +kernel

/-! ### Witnesses: converters, publisher, Alignment engine -/

def sample0 : CnvSample :=
  { secs := 100, ns := 0, tq := 0, synch := 0, grid := none, raw := [8388607, -8388608, 0, 1], ovl := [false, false, false, false],
    settling := true, refFault := true, due := 0x1000000000, origin := 0 }

def sampled : State := { live with cnv := { live.cnv with groupB := { live.cnv.groupB with waiting := [sample0] } } }

theorem witness_SampleAvailable :
    (cnvGroup true sampled).waiting = [sample0] ∧ sample0.due ≤ localNow sampled ∧ sample0.raw.length = 4 ∧
      sample0.ovl = [false, false, false, false] ∧ (∀ c, c < 4 → flagAt (convEntry true sampled) 8 c = false) ∧
      (flagAt (pubEntry true sampled) 0 0 = false ∧ flagAt (pubEntry false sampled) 0 0 = false) ∧
      coreUp live = true ∧ live.cnv.refFault = false := by decide +kernel

def frameMu : MuFrame := { bytes := row 100 [], stamp := .zero, origin := 0, smpCnt := 3999 }

/-- A wildcard route to P1 without a template, for messages of the device itself. -/
def handingMu : State :=
  let s := town [] toP1
  { s with cnv := { s.cnv with stream1 := { s.cnv.stream1 with ready := [frameMu] } } }

/-- A routed message reaches P1: the hypotheses on its route. -/
def reachesP1 (n : Inbound) (len : Nat) (s : State) : Bool :=
  match lookup n.key s with
  | some r => resEnabled r.res && keptPorts n r s == [1] && (resFilter r.res).isNone && (routeBound r.id s).isNone &&
      decide (messageClass n r s < 6) && (List.range 8).all (fun k => pairMode k s == 0) && forwarding 1 s &&
      (allot (messageClass n r s) len s).isSome
  | none => false

theorem witness_MuFrameHandover :
    Inv handingMu ∧ boardRuns handingMu = true ∧ (muStream true handingMu).ready = [frameMu] ∧
      reachesP1 (muInbound true frameMu handingMu) 100 handingMu = true :=
  ⟨inv_of_check (by decide +kernel), by decide +kernel⟩

def row0 : AlnRow := { secs := 99, ns := 0, tq := 0, synch := 0, origin := 0, due := 0x1000000000 }

/-- Subscription 15 at 4,000 samples a second, judged up to the sample before the last whose window has ended, and a
row due. -/
def aligning : State :=
  let s := placed [sect tyAlignment ((List.range 16).flatMap (fun _ => row 128 [(0, 1), (6, 0x0F), (7, 0xA0), (12, 4), (72, 16)]))]
  { s with aln := { s.aln with
    subs := upd (fun u => { u with judged := some (lastEnded (alnEntry 15 s) (devNs s) - 1) }) s.aln.subs 15
    rows := [row0] } }

theorem witness_AlnWindowEnd : Inv aligning ∧ boardRuns aligning = true ∧ alnEnabled 15 aligning = true ∧
    alnWindowNs (alnEntry 15 aligning) < devNs aligning ∧
    (nth .reset aligning.aln.subs 15).judged = some (lastEnded (alnEntry 15 aligning) (devNs aligning) - 1) ∧
    lastEnded (alnEntry 15 aligning) (devNs aligning) - 1 < lastEnded (alnEntry 15 aligning) (devNs aligning) :=
  ⟨inv_of_check (by decide +kernel), by decide +kernel⟩

/-- A Position without routes and wildcards routes nothing. -/
theorem no_route {s : State} (h1 : bodyOf tyRoutes s = []) (h2 : bodyOf tyWildcards s = []) (key : Nat) :
    lookup key s = none := by
  have e : ∀ i, routeEntry i s = [] := fun i => by simp [routeEntry, entryOf, slice, h1]
  have p : ∀ k, exactProbe k s = none := fun k => by simp [exactProbe, inBucket, e, u8, nth]
  have w : be16 ([] : List Byte) 0 = 0 := by decide
  simp [lookup, p, h2, w, wildProbe]

theorem witness_AlnRowDue : Inv aligning ∧ boardRuns aligning = true ∧ aligning.aln.rows = [row0] ∧
    row0.due ≤ localNow aligning ∧ ∀ i, lookup (internalKey 12 0 i) aligning = none :=
  ⟨inv_of_check (by decide +kernel), by decide +kernel, rfl, by decide +kernel,
    fun _ => no_route (by decide +kernel) (by decide +kernel) _⟩

/-! ### Witnesses: live edits -/

/-- Edits are accepted, and a buffer is loaded for entry 4,095. -/
def editing : State :=
  let s := placed [sect tyRoutes (row 8 [(3, 1)])]
  { s with rte := { s.rte with bufFrame := some { idx := 4095, words := [0, 0, 0, 0, 0, 0] } } }

theorem witness_EditsReplaceRoutes :
    coreAnswers editing = true ∧ editsAccepted editing = true ∧
      editBuf true editing = some { idx := 4095, words := [0, 0, 0, 0, 0, 0] } ∧ editBuf false editing = none ∧
      8191 % 4096 = 4095 ∧ coreAnswers live = true ∧ editsAccepted live = false := by decide +kernel

/-! ### Witnesses: Arbiter and GOOSE -/

def cycle0 (acts : List PendAct) : ArbCycle :=
  { secs := 100, ns := 0, tq := 0, applyAt := 0x1000000000, outs := List.replicate 528 true, acts }

/-- A cycle to apply, with GPIO 0 an output and no card words. -/
def applying (acts : List PendAct) : State :=
  let s := placed [sect tyArbiter (row 72 [(8, 1)])]
  { s with arb := { s.arb with cyc := some (cycle0 acts) } }

theorem witness_ArbApply :
    [[], [{ rule := 0, code := 4, p := 5, target := 4095 }]].all (fun a =>
      fabricRuns (applying a) && (applying a).arb.cyc == some (cycle0 a) && decide ((cycle0 a).applyAt ≤ localNow (applying a)) &&
        !(applying a).pos.fallbackApplied && cardCount (applying a) == 0 && !(applying a).pos.awaitFirstCycle &&
        (List.range 32).all (fun b => !pubChanged b (applying a)) && gpioIsOutput 0 (applying a)) = true ∧
    coreAnswers live = true := by decide +kernel

/-- Block 31 publishes one value, and subscribe block 127 is VALID with its time allowed to live at its end. -/
def goosing : State :=
  let s := town [] toP1
  let t := { s with pos := { s.pos with tables := s.pos.tables ++
    [sect tyGoose (row (31 * 256) [] ++ row 256 [(0, 1), (1, 1), (9, 4), (11, 100)] ++ row (128 * 128) [])] } }
  { t with arb := { t.arb with
    pubs := upd (fun p => { p with held := some [5], due := some 0x1000000000, sqNum := BitVec.allOnes 32 }) t.arb.pubs 31
    subs := upd (fun u => { u with st := .valid, talDue := 0x1000000000 }) t.arb.subs 127 } }

theorem witness_Goose :
    let p1 : GoosePub := { pubAt 31 goosing with
      sqNum := if (pubAt 31 goosing).sqNum = BitVec.allOnes 32 then 1 else (pubAt 31 goosing).sqNum + 1
      k := (pubAt 31 goosing).k + 1 }
    let bytes := gooseFrame 31 (updPub 31 (fun _ => p1) goosing)
    Inv goosing ∧ boardRuns goosing = true ∧ pubEnabled 31 goosing = true ∧ (pubAt 31 goosing).held.isSome = true ∧
      (pubAt 31 goosing).due = some 0x1000000000 ∧ 0x1000000000 ≤ localNow goosing ∧
      reachesP1 (internalMsg .goose 11 0 31 bytes 0x88B8
        (tplTagMode (templateEntry (be16 (goosePubEntry 31 goosing) 2) goosing) == 2) goosing) bytes.length goosing = true ∧
      (subAt 127 goosing).st = .valid ∧ (subAt 127 goosing).talDue ≤ localNow goosing :=
  ⟨inv_of_check (by decide +kernel), by decide +kernel⟩

/-! ### Witnesses: expansion bridge -/

/-- Slot 7 as `f` leaves it, under the given BRIDGE settings of every slot. -/
def slotted (e : List (Nat × Byte)) (f : XbSlot → XbSlot) : State :=
  let s := placed [sect tyBridge ((List.range 8).flatMap (fun _ => row 32 e))]
  { s with xb := { s.xb with slots := upd f s.xb.slots 7 } }

/-- A read of 40 bytes for pickup slot 3, from slot 7. -/
def far : XbReq := { bareReq 1 7 0 40 (.pickup 3) with joined := 0x1000000000 - 8 }
def curOf (todo : List (Nat × Nat × Bool)) (b : Nat × Nat × Bool) : XbCur :=
  { req := far, todo, burst := some b, got := List.replicate b.1 0, pre := [] }
def serving (c : Option XbCur) (q : List XbReq) : State :=
  let s := slotted [] (fun k => { k with st := .present })
  { s with xb := { s.xb with cur := c, queue := q } }

theorem witness_BridgeServesReads :
    (cardBusRuns (serving none [far]) = true ∧ (serving none [far]).xb.cur = none ∧ (serving none [far]).xb.queue = [far] ∧
      servable far (serving none [far]) = true ∧ far.joined + 8 ≤ localNow (serving none [far]) ∧
      reachable far (serving none [far]) = true ∧ burstsOf far = [(0, 32, false), (32, 8, false)]) ∧
    (let first := serving (some (curOf [(32, 8, false)] (0, 32, false))) []
     let last := serving (some (curOf [] (32, 8, false))) []
     invCheck first = true ∧ invCheck last = true ∧ far.write = false ∧ far.posted = false ∧ far.dest = .pickup 3 ∧
       (List.replicate 32 (0 : Byte)).length = 32 ∧ far.slot = 7 ∧ last.xb.queue = [] ∧ (xbSlot 7 last).st = .present ∧
       last.xb.fallbackWait = [] ∧ last.arb.cardWait = [] ∧ last.xb.scan = none) := by decide +kernel

theorem witness_BridgeWatchesSlots :
    (let s := { live with xb := { live.xb with scan := some { left := [], open_ := 0, err := 1 } } }
     s.xb.scan = some { left := [], open_ := 0, err := 1 }) ∧
    (let s := slotted [(16, 1)] (fun k => { k with st := .present })
     Inv s ∧ boardRuns s = true ∧ slotIntMode 7 s = 1 ∧ slotPresent 7 s = true ∧ (xbSlot 7 s).ann = none) ∧
    (let s := slotted [(16, 2)] (fun k => { k with st := .present, pollDue := 0x1000000000 })
     Inv s ∧ boardRuns s = true ∧ slotIntMode 7 s = 2 ∧ slotPresent 7 s = true ∧ (xbSlot 7 s).pollDue ≤ localNow s ∧
       coreAnswers s = true ∧ (xbSlot 7 s).st = .present) ∧
    (Inv live ∧ presenceSampled live = true ∧ (xbSlot 7 live).st = .absent ∧ coreAnswers live = true) ∧
    (let s := { slotted [] (fun k => { k with st := .queued }) with
       xb := { (slotted [] (fun k => { k with st := .queued })).xb with enumOrder := [7] } }
     Inv s ∧ boardRuns s = true ∧ s.xb.slots.all (fun x => x.st != .enumerating) = true ∧ s.xb.enumOrder = [7]) := by
  refine ⟨rfl, ⟨inv_of_check ?_, ?_⟩, ⟨inv_of_check ?_, ?_⟩, ⟨inv_of_check ?_, ?_⟩, inv_of_check ?_, ?_⟩ <;> decide +kernel

/-! ### Single commands, with the results of the specification's examples and tables -/

/-- A field of the state a command leaves. -/
def after {α : Type} (c : Instr) (s : State) (f : State → α) : Option α :=
  match exec c s with
  | .next t => some (f t)
  | _ => none

def next (c : Instr) (s : State) : State := (after c s id).getD s

def bytes (n : Nat) (v : Nat) : List Byte := toBE n v

/-- The table gives no bits, so no word spells a command. -/
theorem test_no_table_word : decodeTableWord 32 0 = none ∧ live.withFetchWord 8 1 = live := ⟨rfl, rfl⟩

/-- Table 0-6. -/
theorem test_read_glb_id :
    after (.read 0 1 [] false) live (·.mgt.miso) = some (0x80 :: bytes 5 0 ++ [0x08, 0x24, 0x4B, 0x4C]) ∧
      after (.read 4 1 [] false) live (·.mgt.miso.drop 6) = some (bytes 4 0xB1) := by decide +kernel

/-- Table 2-10. -/
theorem test_crc_of_read : after (.read 0 1 [] false) framed (·.mgt.miso.drop 6) = some [0x08, 0x24, 0x4B, 0x4C, 0x42] := by
  decide +kernel
theorem test_crc_of_write :
    let s := { framed with glb := { framed.glb with mgtInt := 3 } }
    after (.write 0x24 [{ val := 1, crc := 0xCA }] [] false) s (·.glb.mgtInt) = some 2 ∧
      after (.write 0x24 [{ val := 1, crc := 0xCB }] [] false) s (fun t => (t.glb.mgtInt, t.mgt.last.crcErr)) =
        some (3, true) := by decide +kernel

/-- Table 2-11: the ticket of a far read of 8 words at slot 2, its header before and after the data land, and STALE
after the first pickup. -/
def cardPresent : State :=
  let s := placed [sect tyBridge (row 32 [(0, 1), (1, 2), (3, 12)])]
  { s with
    mgt := { s.mgt with pickSeq := 2 }
    xb := { s.xb with slots := upd (fun k => { k with st := .present }) s.xb.slots 2 } }

theorem test_far_read_ticket :
    after (.read 0xA00000 8 [] false) cardPresent (fun t => ((t.mgt.miso.drop 6).take 4, t.xb.queue.map (fun r => (r.slot, r.addr, r.len)))) =
      some (bytes 4 0x83000000, [(2, 0, 32)]) := by decide +kernel
theorem test_pickup_header :
    after (.readPickup 0 1 false) (next (.read 0xA00000 8 [] false) cardPresent) (·.mgt.miso.drop 6) =
      some (bytes 4 0x13000008) ∧
    (let s := { live with mgt := { live.mgt with pick := upd (fun k => { k with st := .done, seq := 3, len := 8 }) live.mgt.pick 0 } }
     after (.readPickup 0 1 false) s (fun t => (t.mgt.miso.take 1, t.mgt.miso.drop 6)) = some ([0x84], bytes 4 0x23000008)) := by
  decide +kernel

/-- Table 13-9. -/
def counting : State := { live with mem := { live.mem with shared := [(0x100, 41)] } }
/-- Port A has just added 1 at 0x0100, or has written `b` at offset `o`. -/
def collided (o : Nat) (b : Byte) (at_ : Bool) (s : State) : State :=
  portAWrite o [b, 0, 0, 0] at_ none (portABegin s)

theorem test_collision_atomic :
    let s := collided 0x100 42 true counting
    let c := Instr.atomic 0x100100 [word0 0, word0 1] 1 { quiet with sameCycle := true } false
    after c s (fun t => (Memory.getAll t.mem.shared 0x100 4, t.mgt.miso.drop 14)) = some ([43, 0, 0, 0], bytes 4 0x2A) := by
  decide +kernel
theorem test_collision_page_a :
    let c := Instr.write 0x100200 [word0 0xBB] [{ quiet with sameCycle := true }] false
    after c (collided 0x200 0xAA false live) (fun t => (Memory.get t.mem.shared 0x200, t.mem.lostCnt, t.mgt.last.writeLost)) =
        some (0xAA, 1, true) ∧
      after c (collided 0x200 0xAA false live) (fun t => (t.mgt.last.lostAddr, t.evt.queue.map (·.code))) =
        some (0x100200, [0x0C01]) := by decide +kernel
theorem test_collision_merge :
    after (.write 0x100204 [word0 0x44] [{ quiet with sameCycle := true }] false) (collided 0x200 0x33 false live)
      (fun t => (Memory.get t.mem.shared 0x200, Memory.get t.mem.shared 0x204, t.mem.lostCnt)) = some (0x33, 0x44, 0) := by
  decide +kernel

/-- The example of chapter 4: K = 14,400 across the wrap of the low seconds. -/
def wrapAt (secs : BitVec 48) (ns : BitVec 30) : State := { live with
  tmb := { live.tmb with
    secs
    ns
    cmps := upd (fun k => { k with targetS := 0, targetNs := 0, period := 14400 }) live.tmb.cmps 2 } }
def env8 : CmpEnv := { adc := List.replicate 8 0, gpio := 0 }

theorem test_arm_across_wrap :
    after (.cmpArm 2 0x59 env8) (wrapAt 0xFFFFFFFF 999950000) (fun t => ((cmpAt 2 t).armed, (cmpAt 2 t).liveS, (cmpAt 2 t).liveNs)) =
        some (true, 0, 0) ∧
      after (.cmpArm 2 0x59 env8) (wrapAt 0x100000001 10000) (fun t => ((cmpAt 2 t).past, (cmpAt 2 t).armed, t.tmb.fired)) =
        some (true, false, 0) := by decide +kernel
theorem test_arm_late :
    after (.cmpArm 2 0x59 env8) (wrapAt 0x100000000 10000)
      (fun t => ((cmpAt 2 t).late, (cmpAt 2 t).liveNs, t.tmb.fired)) = some (true, 69444, 4) := by decide +kernel
theorem test_carry_and_fire :
    let s := next .secondsCarry (next (.cmpArm 2 0x59 env8) (wrapAt 0xFFFFFFFF 999999996))
    (s.tmb.secs, s.tmb.ns) = (0x100000000, 0) ∧
      after (.cmpFire env8) s (fun t => (t.tmb.fired, (cmpAt 2 t).liveNs)) = some (4, 69444) := by decide +kernel
theorem test_fire_last_of_second :
    let s := { wrapAt 0x100000000 999930556 with tmb := { (wrapAt 0x100000000 999930556).tmb with
      cmps := upd (fun k => { k with armed := true, mode := 2, liveNs := 999930555, period := 14400 }) live.tmb.cmps 2 } }
    after (.cmpFire env8) s (fun t => ((cmpAt 2 t).liveS, (cmpAt 2 t).liveNs)) = some (1, 0) := by decide +kernel

/-- Tables 5-7 and 5-8: +137 ns slewed at 10 ppm. -/
theorem test_castle_residual :
    after .castle (rivals 137 .idle) (fun t => (t.ptp.activeDom, t.tmb.slew.map (fun w => (w.neg, w.ppm)), t.ptp.castleSt)) =
        some (true, some (false, 10), .residualSlew) ∧
      after .castle (rivals 1450 .idle) (fun t => (t.ptp.activeDom, t.ptp.castleSt, t.tmb.slew)) =
        some (false, .blocked, none) := by decide +kernel

/-- Table 6-11: the 32nd symbol error of a window resigns the port with CAUSE 2. -/
theorem test_resign_at_threshold :
    let s := town [(21, 32), (16, 0x03), (17, 0xE8)] toP1
    let t (n : Nat) := onP7 (fun k => { k with runs := upd (fun _ => n) k.runs 2 }) s
    after (.ethFrameRx 7 { sealed (typed 8 0) with symErr := true }) (t 31) (fun u => ((ethAt 7 u).fwd, (ethAt 7 u).cause)) =
        some (.resigned, 2) ∧
      after (.ethFrameRx 7 { sealed (typed 8 0) with symErr := true }) (t 30) (fun u => (ethAt 7 u).fwd) =
        some .forwarding := by decide +kernel

/-- Table 6-12. -/
theorem test_host_tag :
    hostTag 5 entry0 { msg0 .eth 0 1 with
      routeId := 0x123
      red := 1
      stamp := { secs := 0x1A2B, ns := 123456789, tq := 2 } } = bytes 16 0x1100A0FF0123400000001A2B875BCD15 := by
  decide +kernel

/-- Table 7-7: '$' at 38,400 baud; the falling edge at p = 7 gives T_m, the rate and N. -/
theorem test_autobaud :
    let e := [(0, 1), (1, 1), (9, 82), (10, 2), (18, 1), (24, 0), (26, 0x12), (27, 0xC0), (30, 0x25), (31, 0x80), (34, 0x96),
      (37, 0x01), (38, 0xC2)]
    let s := serTown e (fun k => { k with rx := .search })
    let l : LineChar := { age := 260416, edges := [78125, 104167, 156250, 182292, 234375] }
    after (.serCharRx 0 l) s (fun t => ((serAt 0 t).div, (serAt 0 t).abrMeas, (serAt 0 t).abrIndex, (serAt 0 t).locked,
      (serAt 0 t).rx)) = some (26042, 182292, 2, true, .receiving) := by decide +kernel

/-- "$GPZDA,104512.00,07,11,2031,00,00*62" CR LF. -/
def zda : List Byte :=
  [0x24, 0x47, 0x50, 0x5A, 0x44, 0x41, 0x2C] ++ [0x31, 0x30, 0x34, 0x35, 0x31, 0x32, 0x2E, 0x30, 0x30, 0x2C] ++
    [0x30, 0x37, 0x2C, 0x31, 0x31, 0x2C] ++ [0x32, 0x30, 0x33, 0x31, 0x2C, 0x30, 0x30, 0x2C, 0x30, 0x30] ++
    [0x2A, 0x36, 0x32, 0x0D, 0x0A]

theorem test_sentence_checksum :
    zda.length = 38 ∧ xorAll (slice zda 1 32) = 0x62 ∧ sentenceStep zda = .complete ∧
      sentenceStep (upd (fun _ => 0x33) zda 35) = .checksum := by decide +kernel

/-- The key of the sentence and its bucket (chapter 9). -/
theorem test_route_bucket :
    (serialInbound 0 (part zda) (serTown [] id)).key = 0x100047505A444100 ∧ bucketOf 0x100047505A444100 0 = 236 := by
  decide +kernel

/-- Table 16-6 and Table 16-7. -/
theorem test_log_entry :
    logBytes { secs := 0x1A2B, tq := 2, ns := 600040000, code := 0x0406, source := 4, datum := 0x05010123 } 3 =
      bytes 16 0x2B1A000040E2C3A30604040323010105 := by decide +kernel
theorem test_log_head :
    let s := { logging with evt := { logging.evt with headIdx := 517, headLap := 3 } }
    after .evtLogWrite s (fun t => (t.evt.headIdx, t.evt.headLap, Memory.getAll t.mem.shared 0x1E050 4)) =
      some (518, 3, [100, 0, 0, 0]) ∧
    after .evtLogWrite logging (fun t => (t.evt.headIdx, t.evt.headLap, t.evt.wrapped)) = some (0, 2, true) := by
  decide +kernel
theorem test_king_lost_event :
    let s := { queued 5 5 0 with eth := upd (fun k => { k with fwd := .resigned }) (queued 5 5 0).eth 5 }
    after (.kingHeldExpiry 5) s (fun t => (t.evt.queue.map (fun e => (e.code, e.source, e.datum)), t.evt.kingLostCnt)) =
      some ([(0x0406, 4, 0x05011000)], 1) := by decide +kernel

/-- PWR_WAKE_CAUSE (Table 14-14) after a SERIAL wake in SEAL, and after a WAKE during that exit, which only adds its
cause (R815). -/
theorem test_wake_cause :
    wakeCauseWord (next (.serialWake 23) (asleep .seal .steady)) = 0x00340010 ∧
      wakeCauseWord (next (.wake false) (tick (next (.serialWake 23) (asleep .seal .steady)))) = 0x00340011 := by decide +kernel

/-- The first and the last value of SEC_STATUS in the example of chapter 15. -/
def enforcedAt (count : Nat) (slot0 slot1 : OtpSt) (revoked : Bool) : State :=
  let burn (st : OtpSt) (l : List OtpUnit) (us : List Nat) : List OtpUnit :=
    us.foldl (fun l i => upd (fun u => { u with st }) l i) l
  { live with sec := { live.sec with
    otp := burn (if revoked then .locked else .blank) (burn .locked (burn slot1 (burn slot0
      (burn .locked live.sec.otp [192]) (slotUnits 0)) (slotUnits 1)) (counterUnits.take count)) [193] } }
theorem test_sec_status :
    secStatus (enforcedAt 2 .locked .blank false) = 0x20014002 ∧ secStatus (enforcedAt 3 .locked .locked true) = 0x20064003 := by
  decide +kernel

/-- The IDCODE of Table 15-6. -/
theorem test_idcode : after .idcode live (fun t => t.jtag.dr.length) = some 32 := by decide +kernel

end Sys2Proof.Tests
end

section
/-!
The board: what reset leaves, and egress. The scheduler, completion, promotion and the expiry of held KING frames are
taken through the laws of Sys2Proof/Laws/Scheduler.lean; here they are put together with the commands that run them.
-/

namespace Sys2Proof.Proofs.Board

open Sys2Proof.Machine Sys2Proof.Safety Sys2Proof.Laws

/-! ### Reset -/

/-- Settles O39: each value is the one that the reset records hold, and an empty list of bytes reads zero anywhere. -/
theorem resetLeaves : Obligations.ResetLeaves := by
  unfold Obligations.ResetLeaves
  refine ⟨rfl, rfl, rfl, rfl, rfl, rfl, rfl, rfl, rfl, rfl, rfl, rfl, rfl, rfl, rfl, rfl, rfl, fun _ => rfl⟩

/-! ### Clocks and queues -/

theorem fabricRuns_of_boardRuns {s : State} (h : boardRuns s = true) : fabricRuns s = true := by
  simp only [boardRuns, inPlay, Bool.and_eq_true, beq_iff_eq] at h
  obtain ⟨⟨⟨hcore, hladder⟩, hphase⟩, -⟩ := h
  simp [fabricRuns, hcore, hladder, hphase]

/-- A state that meets the invariant holds all nine ports. -/
theorem port_lt_length {e : Nat} {s : State} (hI : Inv s) (he : e ≤ 8) : e < s.eth.length := by
  rw [eth_len hI]
  omega

theorem port_queues_length {s : State} (hI : Inv s) (e : Nat) : (ethAt e s).queues.length = 6 :=
  (Inv_port hI e).2.2

theorem port_counters_length {s : State} (hI : Inv s) (e : Nat) : (ethAt e s).cnt.length = 16 :=
  (Inv_port hI e).1

theorem frame_eth (s : State) (x : List EthPort) : Frame [.eth] s { s with eth := x } := by
  intro p hp
  cases p <;> simp [Agree] at hp ⊢

theorem frame_eth_cls (s : State) (x : List EthPort) (y : ClsBlk) :
    Frame [.eth, .cls] s { s with eth := x, cls := y } := by
  intro p hp
  cases p <;> simp [Agree] at hp ⊢

/-! ### Selection (R558, R578) -/

section StartTx

variable (p d : Nat) (es : List QEntry) (bytes : List Byte) {s : State} (hlen : p < s.eth.length)
include hlen

/-- The frame that a port starts. -/
theorem startTx_tx : (ethAt p (startTx p d es bytes s)).tx =
    some { entries := es, cls := BitVec.ofNat 3 d, bytes, sent := 0, frags := 0, startAt := startOf p s } :=
  congrArg EthPort.tx (ethAt_upd_same _ _ _ hlen)

/-- A started frame leaves the queues of its port as they are. -/
theorem queueOf_startTx (c : Nat) (hp : p ≤ 8) : queueOf p c (startTx p d es bytes s) = queueOf p c s := by
  have hport : (ethAt p (startTx p d es bytes s)).queues = (ethAt p s).queues := by
    rw [startTx, ethAt_upd_same _ _ _ hlen]
  simp only [ethAt] at hport
  simp only [queueOf, queuesOf, hp, if_true, hport]

end StartTx

section Select

variable {s : State} {e c : Nat} {q : QEntry} {m : Msg} {rest : List QEntry} {ecc : EccAt}
variable (hI : Inv s) (hh : Head e c q m rest s) (hb : boardRuns s = true) (hlink : (ethAt e s).link = true)
variable (htx : (ethAt e s).tx = none) (hfwd : forwarding e s = true)
variable (hlow : c < 3 → (ethAt e s).mpackets = [] ∧ (ethAt e s).preempted = none ∧ limited e s = false)
include hI hh hb hlink htx hfwd hlow

/-- EGRESS_SELECT on an idle port that forwards starts the head of the highest class that waits. -/
theorem egressSelect_sends_head (hecc : ecc.what = .ok) (hage : pastBudget m s = false ∨ q.marked = true)
    (hbundle : bundleMax m ≤ 1) (hptp : m.kind ≠ .ptp) (hetype : m.etype ≠ 0x88F7) (htag : m.tsTag = none)
    (htxts : m.routeId ≠ 0xFFFF → resTxts m.result = false) :
    let s1 := setQueue e c rest s
    ∃ t f, exec (.egressSelect e ecc) s = .next t ∧ Frame [.eth] s t ∧ queueOf e c t = rest ∧
      (ethAt e t).tx = some f ∧ f.entries = [q] ∧ f.cls.toNat = c ∧ f.sent = 0 ∧ f.startAt = startOf e s1 ∧
      f.bytes = sealFrame e c q m (if isRingCopy e q s1 then m.bytes else frameOf e c q m s1) s1 := by
  intro s1
  have ⟨he, hc, _, _, _⟩ := hh
  have hlen := port_lt_length hI he
  obtain ⟨hqueue, -⟩ := queueOf_setQueue e c rest s he hlen (by rw [port_queues_length hI e]; exact hc)
  obtain ⟨x, hx⟩ := setQueue_eth e c rest s he
  have hlen1 : e < s1.eth.length := by simp only [s1, setQueue, he, if_true, upd_length]; exact hlen
  let frame := sealFrame e c q m (if isRingCopy e q s1 then m.bytes else frameOf e c q m s1) s1
  refine ⟨startTx e c [q] frame s1, _, ?_, ?_, ?_, startTx_tx e c [q] frame hlen1, rfl, ?_, rfl, rfl, rfl⟩
  · rw [egressSelect_eth e ecc s he (fabricRuns_of_boardRuns hb) hlink htx hb, pick_taken hh ecc hfwd hlow hage,
      send_plain e c q m ecc s1 hecc hbundle hptp hetype htag htxts]
  · simp only [startTx, updEth, s1, hx]
    exact frame_eth _ _
  · rw [queueOf_startTx e c [q] frame hlen1 c he, hqueue]
  · simp only [BitVec.toNat_ofNat]
    omega

/-- EGRESS_SELECT discards an unmarked head past its budget, where its class does not mark. -/
theorem egressSelect_drops_expired (hage : pastBudget m s = true) (hmark : q.marked = false)
    (hmarks : classMarks c s = false) (hc : c < 5) :
    let w := BitVec.ofNat 32 (e * 2 ^ 24 + c * 65536 + m.routeId % 65536)
    ∃ t, exec (.egressSelect e ecc) s = .next t ∧ Frame [.eth, .cls, .evt] s t ∧ (ethAt e t).tx = none ∧
      queueOf e c t = rest.filter (fun x => x.msg != q.msg) ∧ t.cls.lastFlagFall = w ∧
      Reported .flagFall 0 w s t := by
  intro w
  have ⟨he, _, _, hqueue, hmsg⟩ := hh
  obtain ⟨hframe, hidle, hrest, hlast, hevt⟩ :=
    fall_spec e c q m rest s he (port_lt_length hI he) hc hqueue (msgById_id hmsg) (port_queues_length hI e)
  refine ⟨dropAtFall e c m s, ?_, hframe, hidle.trans htx, hrest, hlast, hevt⟩
  rw [egressSelect_eth e ecc s he (fabricRuns_of_boardRuns hb) hlink htx hb,
    pick_dropped hh ecc hfwd hlow hage hmark hmarks]

end Select

/-! ### Completion (R27) -/

/-- TX_COMPLETE with a whole frame of one message that has left: the frame is counted, and its copy is dropped. -/
theorem txComplete_one {e : Nat} {f : TxFrame} {fs : List TxFrame} {q : QEntry} {s : State}
    (hleaving : (ethAt e s).leaving = f :: fs) (hdone : txDone e f s = true) (hfrags : f.frags = 0)
    (hq : f.entries = [q]) :
    txComplete e s = dropCopy q.msg (portCount e 11 (updEth e (fun k => { k with leaving := fs }) s)) := by
  simp only [txComplete, hleaving, hdone, if_true, finishTx, hq, hfrags, List.isEmpty_cons, Bool.false_eq_true,
    if_false, List.foldl_cons, List.foldl_nil]

theorem txComplete_counts_and_frees {s : State} {e : Fin 9} {f : TxFrame} {fs : List TxFrame} {q : QEntry}
    (hI : Inv s) (hcore : coreUp s = true) (hleaving : (ethAt e s).leaving = f :: fs) (hdone : txDone e f s = true)
    (hfrags : f.frags = 0) (hq : f.entries = [q]) :
    ∃ t, exec (.txComplete e) s = .next t ∧ Frame [.eth, .cls] s t ∧ (ethAt e t).leaving = fs ∧
      nth 0 (ethAt e t).cnt 11 = satInc (nth 0 (ethAt e s).cnt 11) ∧
      (∀ m, msgById q.msg s = some m → m.refs ≤ 1 → ∀ x ∈ t.cls.msgs, x.id ≠ q.msg) := by
  obtain ⟨⟨y, hcounted⟩, hleft, hcnt⟩ :=
    done_spec e fs s (port_lt_length hI (by omega)) (port_counters_length hI e)
  refine ⟨dropCopy q.msg (portCount e 11 (updEth e (fun k => { k with leaving := fs }) s)), ?_, ?_⟩
  · simp only [exec, execTxComplete, hcore, if_true, txComplete_one hleaving hdone hfrags hq]
  · generalize portCount e 11 (updEth e (fun k => { k with leaving := fs }) s) = u at hcounted hleft hcnt ⊢
    obtain ⟨recs, msgs, hdrop, hfree⟩ := dropCopy_spec q.msg u
    have hport : ethAt e (dropCopy q.msg u) = ethAt e u := by rw [hdrop]; rfl
    refine ⟨?_, by rw [hport, hleft], by rw [hport, hcnt], fun m hm hrefs => hfree m ?_ hrefs⟩
    · rw [hdrop, hcounted]
      exact frame_eth_cls _ _ _
    · rw [hcounted]
      exact hm

/-! ### Promotion (R575 to R577) -/

theorem exec_promotion {s : State} (e : Nat) (c : Fin 6) (hfabric : fabricRuns s = true)
    (hrun : s.pos.running = true) : exec (.promotion e c) s = .next (promoteHead e c s) := by
  simp only [exec, execPromotion, hfabric, hrun, Bool.and_self, if_true]

/-! ### Held KING frames (R343) -/

theorem exec_kingHeldExpiry {s : State} (e : Fin 9) (hfwd : forwarding e s = false) (hfabric : fabricRuns s = true) :
    exec (.kingHeldExpiry e) s =
      .next (loseHeld e ((queueOf e 5 s).filter (fun x => entryPast x s))
        (setQueue e 5 ((queueOf e 5 s).filter (fun x => !entryPast x s)) s)) := by
  simp [exec, execKingHeldExpiry, hfwd, hfabric]

/-- Held frames that are all short of their budget stay. -/
theorem kingHeldExpiry_keeps {s : State} {e : Fin 9} (hI : Inv s) (hfwd : forwarding e s = false)
    (hfabric : fabricRuns s = true) (hyoung : ∀ x ∈ queueOf e 5 s, entryPast x s = false) :
    ∃ t, exec (.kingHeldExpiry e) s = .next t ∧ Frame [.eth] s t ∧ queueOf e 5 t = queueOf e 5 s ∧
      t.evt.kingLostCnt = s.evt.kingLostCnt := by
  have he : e.val ≤ 8 := by omega
  have hlost : (queueOf e 5 s).filter (fun x => entryPast x s) = [] := by
    simpa using hyoung
  have hkept : (queueOf e 5 s).filter (fun x => !entryPast x s) = queueOf e 5 s := by
    simpa using hyoung
  obtain ⟨hqueue, -⟩ := queueOf_setQueue e 5 (queueOf e 5 s) s he (port_lt_length hI he)
    (by rw [port_queues_length hI e]; decide)
  obtain ⟨x, hx⟩ := setQueue_eth e 5 (queueOf e 5 s) s he
  refine ⟨setQueue e 5 (queueOf e 5 s) s, ?_, ?_, hqueue, ?_⟩
  · rw [exec_kingHeldExpiry e hfwd hfabric, hlost, hkept]
    rfl
  · rw [hx]
    exact frame_eth _ _
  · rw [hx]

/-- A held frame past its budget is lost, with EVT_KING_LOST. -/
theorem kingHeldExpiry_loses {s : State} {e : Fin 9} {x : QEntry} (hI : Inv s) (hfwd : forwarding e s = false)
    (hfabric : fabricRuns s = true) (hx : queueOf e 5 s = [x]) (hold : entryPast x s = true) :
    ∃ t, exec (.kingHeldExpiry e) s = .next t ∧ Frame [.eth, .cls, .evt] s t ∧ queueOf e 5 t = [] ∧
      t.evt.kingLostCnt = satInc s.evt.kingLostCnt ∧ pendSet (.eth 4) e t = true := by
  refine ⟨_, ?_, held_spec e x s hI hx (((msgById x.msg (setQueue e 5 [] s)).map (·.routeId)).getD 0)⟩
  rw [exec_kingHeldExpiry e hfwd hfabric, hx]
  simp only [hold, List.filter_cons, List.filter_nil, if_true, Bool.not_true, Bool.false_eq_true, if_false, loseHeld]

/-! ### Egress -/

/-- Settles O51: each clause is the law of its command, in the order of the statement. -/
theorem egressServesClasses : Obligations.EgressServesClasses := by
  unfold Obligations.EgressServesClasses
  refine ⟨?select, ?complete, ?promote, ?held⟩
  case select =>
    intro s e c q m rest ecc hI hh hb hlink htx hfwd hecc hlow
    exact ⟨egressSelect_sends_head hI hh hb hlink htx hfwd hlow hecc,
      egressSelect_drops_expired hI hh hb hlink htx hfwd hlow⟩
  case complete =>
    intro s e f fs hI hcore hleaving hdone hfrags q hq
    exact txComplete_counts_and_frees hI hcore hleaving hdone hfrags hq
  case promote =>
    intro s e c q m rest hI he hfabric hrun hqueue hmsg hclass hc hfirst hroute hhalf hshort
    exact ⟨promoteHead e c s, exec_promotion e c hfabric hrun,
      promote_spec e c q m rest s he (port_lt_length hI he) (port_queues_length hI e) hqueue hmsg hclass hc hfirst hroute
        hhalf hshort⟩
  case held =>
    intro s e hI hfwd hfabric
    exact ⟨kingHeldExpiry_keeps hI hfwd hfabric, fun x => kingHeldExpiry_loses hI hfwd hfabric⟩

end Sys2Proof.Proofs.Board
end

section
/-!
The management port: SPI transactions over the shared region, the pickup slots, the stalemate timer and the watchdog.
A transaction on an idle port is the fall of MGT_CS_N, its words, and the end of its edges; the laws of
Sys2Proof/Laws/Port.lean and Sys2Proof/Laws/Transactions.lean give each of the three.
-/

namespace Sys2Proof.Proofs.ManagementPort

open Sys2Proof.Machine Sys2Proof.Safety Sys2Proof.Laws

/-! ### A transaction on an idle port -/

/-- MGT_CS_N has fallen on an idle port: MGT_STATUS shows the outcome of the last transaction (R114). -/
def selected (s : State) : State := { s with mgt := { s.mgt with status := s.mgt.last } }

theorem csFalls_selected {s : State} (h : PortIdle s) : csFalls false s = selected s := csFalls_idle h

theorem ifMgt_idle {s : State} (h : PortIdle s) (f : State → State) : ifMgt f s = f s := by
  simp only [ifMgt, h.1, if_true]

theorem start_out (op : Byte) : (SpiRun.start op.toNat).out = { TxOutcome.zero with opcode := op } := by
  simp [SpiRun.start]

/-- The run at the start of a transaction, as the laws of its words count it. -/
theorem start_words (op : Nat) :
    (SpiRun.start op).out =
      { TxOutcome.zero with opcode := BitVec.ofNat 8 op, words := BitVec.ofNat 8 (min 0 255) } := rfl

/-! ### Words of the shared region (R69, R744) -/

theorem wordBytes_length (ws : List Word) : (ws.flatMap (fun w => toLE 4 w.toNat)).length = 4 * ws.length := by
  induction ws with
  | nil => rfl
  | cons w ws ih =>
    rw [List.flatMap_cons, List.length_append, toLE_length, ih, List.length_cons]
    omega

theorem getAll_putAll_of_length {m : Memory} {o n : Nat} {bs : List Byte} (h : Memory.wf m = true)
    (hn : bs.length = n) : Memory.getAll (Memory.putAll m o bs) o n = bs := by
  subst hn
  exact Memory_getAll_putAll h

/-- A store of `n` bytes at `o` leaves the rest of the region as it was. -/
theorem sharedBut_of_putAll {s t : State} {o n : Nat} {bs : List Byte}
    (hshared : t.mem.shared = Memory.putAll s.mem.shared o bs) (hn : bs.length = n) : SharedBut o n s t := by
  intro b hb
  rw [hshared, Memory_get_putAll_other (by omega)]

theorem toBE_sharedWord (m : Memory) (a : Nat) :
    toBE 4 (BitVec.ofNat 32 (ofLE (Memory.getAll m a 4))).toNat = (Memory.getAll m a 4).reverse :=
  toBE_word _ _ _ _

/-! ### WRITE -/

/-- The state with bytes stored in the shared region, and another management block. -/
def stored (o : Nat) (bs : List Byte) (m : MgtBlk) (s : State) : State := { sharedPut o bs s with mgt := m }

theorem frame_stored (o : Nat) (bs : List Byte) (m : MgtBlk) (s : State) : Frame [.mgt, .mem] s (stored o bs m s) :=
  frame2 s m _

/-- A WRITE into the shared region stores the words that reached it with good CRC bytes; CRC_ERR tells whether one
did not. -/
theorem exec_write_shared {s : State} {addr : BitVec 24} {o : Nat} {ws : List SpiWord} {words : List Word} {bad : Bool}
    {envs : List BankEnv} (hang : Bool) (hidle : PortIdle s) (hcore : coreAnswers s = true) (henvs : QuietEnvs envs)
    (hwords : hostWords s.mgt.crcEn ws (crcHead 0x02 addr) = (words, bad)) (haddr : wordAddr addr = 0x100000 + o)
    (hroom : o + 4 * words.length ≤ 0x1B000) :
    ∃ m, exec (.write addr ws envs hang) s = .next (stored o (words.flatMap (fun w => toLE 4 w.toNat)) m s) ∧
      (hang = false → m.openTx = none ∧ m.last = { TxOutcome.zero with
        opcode := 0x02, words := BitVec.ofNat 8 (min words.length 255), crcErr := bad }) := by
  have hrow : rowOf (wordAddr addr) = some (0x100000, 0x11FFFF) := rowOf_shared (by omega) (by omega)
  obtain ⟨r, hrun, hout⟩ := spiWriteWords_shared words (wordAddr addr) o envs (SpiRun.start 0x02) (selected s) 0 henvs rfl
    hcore haddr hroom (start_words 2)
  obtain ⟨m, hend, -, -, -, -, -, -, -, hlast, -⟩ := endTx_plain (r.crc bad).out hang
    (statusByte (selected s) :: zeroBytes (3 + wordSlots s.mgt.crcEn ws.length))
    (sharedPut o (words.flatMap (fun w => toLE 4 w.toNat)) (selected s)) hidle.2.2
  have hcrc : (r.crc bad).out = { TxOutcome.zero with
      opcode := 0x02, words := BitVec.ofNat 8 (min words.length 255), crcErr := bad } := by
    simp [SpiRun.crc, hout]
  refine ⟨m, ?_, fun hrise => ?_⟩
  · have hen : (selected s).mgt.crcEn = s.mgt.crcEn := rfl
    simp only [exec, execWrite, ifMgt_idle hidle, spiWrite, csFalls_selected hidle, hen, hwords, hrow, hrun]
    exact congrArg _ hend
  · rw [hcrc] at hlast
    exact hlast hrise

/-- The bytes that a WRITE has stored read back, and the rest of the region is as it was. -/
theorem stored_region {s : State} (hwf : Memory.wf s.mem.shared = true) (o : Nat) (m : MgtBlk) {n : Nat}
    {bs : List Byte} (hn : bs.length = n) :
    Memory.getAll (stored o bs m s).mem.shared o n = bs ∧ SharedBut o n s (stored o bs m s) :=
  ⟨getAll_putAll_of_length hwf hn, sharedBut_of_putAll rfl hn⟩

theorem wordBytes_map (ws : List SpiWord) :
    (ws.map (·.val)).flatMap (fun w => toLE 4 w.toNat) = ws.flatMap (fun w => toLE 4 w.val.toNat) :=
  List.flatMap_map _ _ _

theorem hostBytes_length (ws : List SpiWord) :
    (ws.flatMap (fun w => toLE 4 w.val.toNat)).length = 4 * ws.length := by
  rw [← wordBytes_map, wordBytes_length, List.length_map]

/-- Settles O9: every word of the WRITE reaches the shared region. -/
theorem writeStoresSharedWords : Obligations.WriteStoresSharedWords := by
  unfold Obligations.WriteStoresSharedWords
  intro s addr o ws envs hang hidle hcore hwf henvs hgood haddr hroom
  have hwords : hostWords s.mgt.crcEn ws (crcHead 0x02 addr) = (ws.map (·.val), false) :=
    Prod.ext (hostWords_good hgood) hgood
  obtain ⟨m, hexec, hlast⟩ := exec_write_shared hang hidle hcore henvs hwords haddr (by simpa using hroom)
  rw [wordBytes_map] at hexec
  obtain ⟨hread, hrest⟩ := stored_region hwf o m (hostBytes_length ws)
  refine ⟨_, hexec, frame_stored _ _ _ _, hread, hrest, rfl, fun hrise => ?_⟩
  obtain ⟨hclosed, hout⟩ := hlast hrise
  exact ⟨hclosed, by rw [List.length_map] at hout; exact hout⟩

/-- Settles O10: the words before the wrong CRC byte are all that reaches the shared region. -/
theorem writeStopsAtBadCrc : Obligations.WriteStopsAtBadCrc := by
  unfold Obligations.WriteStopsAtBadCrc
  intro s addr o good rest bad hang hidle hcore hwf hen hgood hbad haddr hroom
  obtain ⟨m, hexec, hlast⟩ := exec_write_shared (envs := []) hang hidle hcore (fun _ h => nomatch h)
    (hostWords_bad (rest := rest) hen hgood hbad) haddr (by simpa using hroom)
  rw [wordBytes_map] at hexec
  obtain ⟨hread, hrest⟩ := stored_region hwf o m (hostBytes_length good)
  refine ⟨_, hexec, frame_stored _ _ _ _, hread, hrest, fun hrise => ?_⟩
  obtain ⟨-, hout⟩ := hlast hrise
  exact congrArg TxOutcome.crcErr hout

/-! ### READ -/

/-- A READ of the shared region changes the management port only, and drives the words behind the turnaround. -/
theorem exec_read_shared {s : State} {addr : BitVec 24} {o : Nat} {envs : List BankEnv} (n : Nat) (hang : Bool)
    (hidle : PortIdle s) (hcore : coreAnswers s = true) (henvs : QuietEnvs envs) (haddr : wordAddr addr = 0x100000 + o)
    (hstart : o < 0x20000) (hroom : o + 4 * n ≤ 0x20000) :
    ∃ m, exec (.read addr n envs hang) s = .next { s with mgt := m } ∧
      m.miso = statusByte (selected s) :: zeroBytes 5 ++ sendWords s.mgt.crcEn
        ((List.range n).map (fun k => BitVec.ofNat 32 (ofLE (Memory.getAll s.mem.shared (o + 4 * k) 4))))
        (crcHead 0x03 addr) ∧
      (hang = false → m.openTx = none ∧ m.last = { TxOutcome.zero with
        opcode := 0x03, words := BitVec.ofNat 8 (min n 255) }) := by
  have hrow : rowOf (wordAddr addr) = some (0x100000, 0x11FFFF) := rowOf_shared (by omega) (by omega)
  obtain ⟨-, hcard, -⟩ := sharedAddr (a := wordAddr addr) (by omega) (by omega)
  obtain ⟨r, hrun, hout⟩ := spiReadWords_shared n (wordAddr addr) o envs (SpiRun.start 0x03) (selected s) 0 henvs rfl
    hcore haddr hroom (start_words 3)
  obtain ⟨m, hend, hmiso, -, -, -, -, -, -, hlast, -⟩ := endTx_plain r.out hang
    (statusByte (selected s) :: zeroBytes 5 ++ sendWords s.mgt.crcEn
      ((List.range n).map (fun k => BitVec.ofNat 32 (ofLE (Memory.getAll s.mem.shared (o + 4 * k) 4))))
      (crcHead 0x03 addr)) (selected s) hidle.2.2
  refine ⟨m, ?_, hmiso, fun hrise => ?_⟩
  · simp only [exec, execRead, ifMgt_idle hidle, spiRead, csFalls_selected hidle, hcard, hrow, hrun, Bool.false_eq_true,
      if_false]
    exact congrArg _ hend
  · rw [hout, Nat.zero_add] at hlast
    exact hlast hrise

/-- The bytes behind the status byte and five zero bytes. -/
theorem drop_turnaround (b : Byte) (l : List Byte) : (b :: zeroBytes 5 ++ l).drop 6 = l := rfl

/-- Settles O11: a word goes out with its high byte first, and lies in the region with its low byte first. -/
theorem readReturnsSharedWords : Obligations.ReadReturnsSharedWords := by
  unfold Obligations.ReadReturnsSharedWords
  intro s addr o n envs hang hidle hcore henvs haddr hstart hroom
  obtain ⟨m, hexec, hmiso, hlast⟩ := exec_read_shared n hang hidle hcore henvs haddr hstart hroom
  refine ⟨_, hexec, frame1 s m, fun hen => ?_, hlast⟩
  change m.miso.drop 6 = _
  rw [hmiso, drop_turnaround, hen, sendWords_plain, List.flatMap_map]
  simp only [toBE_sharedWord]

/-! ### STATUS and unlisted opcodes (R56 to R58) -/

theorem exec_status {s : State} (hang : Bool) (hidle : PortIdle s) :
    ∃ m, exec (.status hang) s = .next { s with mgt := m } ∧ m.status = s.mgt.status ∧
      m.miso = statusByte s :: sendWords s.mgt.crcEn
        [regNat (if readyBit s then outcomeWord s.mgt.last else 0)] (crcMore 0 [0x05]) ∧
      (hang = false → m.last = s.mgt.last) := by
  obtain ⟨m, hend, hmiso, -, -, hstatus, -, -, -, hlast, -⟩ := endTx_plain (SpiRun.start 0x05).out hang
    (statusByte s :: sendWords s.mgt.crcEn [regNat (if readyBit s then outcomeWord s.mgt.last else 0)]
      (crcMore 0 [0x05])) s hidle.2.2
  refine ⟨m, ?_, hstatus, hmiso, fun hrise => ?_⟩
  · simp only [exec, execStatus, ifMgt_idle hidle, spiStatus, csFalls_status hidle, hend]
  · obtain ⟨-, hkept⟩ := hlast hrise
    exact hkept

theorem exec_unknownOpcode {s : State} {op : Byte} (hang : Bool) (hidle : PortIdle s)
    (hop : opcodes.contains op = false) :
    ∃ m, exec (.unknownOpcode op hang) s = .next { s with mgt := m } ∧ m.miso = [statusByte s] ∧
      (hang = false → m.last = { TxOutcome.zero with opcode := op, cmdReject := true }) := by
  have hstatus : op ≠ 0x05 := fun h => by rw [h] at hop; exact absurd hop (by decide)
  have hout : (SpiRun.start op.toNat).reject.out = { TxOutcome.zero with opcode := op, cmdReject := true } := by
    rw [SpiRun.reject, start_out]
  obtain ⟨m, hend, hmiso, -, -, -, -, -, -, hlast, -⟩ := endTx_plain (SpiRun.start op.toNat).reject.out hang
    [statusByte (selected s)] (selected s) hidle.2.2
  refine ⟨m, ?_, hmiso, fun hrise => ?_⟩
  · have hbeq : (op == 0x05) = false := beq_eq_false_iff_ne.2 hstatus
    simp only [exec, execUnknownOpcode, ifMgt_idle hidle, spiUnknown, hbeq, csFalls_selected hidle, hop,
      Bool.false_eq_true, if_false]
    exact congrArg _ hend
  · obtain ⟨-, hkept⟩ := hlast hrise
    rw [hout, if_neg hstatus] at hkept
    exact hkept

/-- Settles O13: a STATUS keeps the outcome it shows, and an unlisted opcode is rejected. -/
theorem statusAndUnknownOpcode : Obligations.StatusAndUnknownOpcode := by
  unfold Obligations.StatusAndUnknownOpcode
  intro s hang hidle
  refine ⟨?status, fun op hop => ?unknown⟩
  case status =>
    obtain ⟨m, hexec, hstatus, hmiso, hlast⟩ := exec_status hang hidle
    refine ⟨_, hexec, frame1 s m, hstatus, fun hen => ?_, hlast⟩
    rw [hmiso, hen, sendWords_plain, List.flatMap_cons, List.flatMap_nil, List.append_nil]
  case unknown =>
    obtain ⟨m, hexec, hmiso, hlast⟩ := exec_unknownOpcode hang hidle hop
    exact ⟨_, hexec, frame1 s m, hmiso, hlast⟩

/-! ### Pickup slots (R81 to R84) -/

/-- READ_PICKUP of a slot sends its header and data words and picks the slot up. -/
theorem exec_readPickup {s : State} {addr : BitVec 24} {words i : Nat} (hang : Bool) (hidle : PortIdle s)
    (haddr : wordAddr addr / 4 = i) (hi : i < 4) (hwords : 0 < words) :
    ∃ m, exec (.readPickup addr words hang) s = .next { s with mgt := m } ∧ m.pick = upd pickUp s.mgt.pick i ∧
      m.miso = statusByte (selected s) :: zeroBytes 5 ++ sendWords s.mgt.crcEn
        ((pickHeader (nth .empty s.mgt.pick i) :: pickData (nth .empty s.mgt.pick i)).take words) (crcHead 0x0B addr) ++
        zeroBytes (wordSlots s.mgt.crcEn (words - 17)) := by
  subst haddr
  let p := nth .empty s.mgt.pick (wordAddr addr / 4)
  let r1 := SpiRun.tookN (min words 17) (SpiRun.start 0x0B)
  obtain ⟨m, hend, hmiso, hpick, -⟩ := endTx_plain
    (if p.st = .notReady ∧ 0 < words then r1.notReady else r1).out hang
    (statusByte (selected s) :: zeroBytes 5 ++ sendWords s.mgt.crcEn ((pickHeader p :: pickData p).take words)
      (crcHead 0x0B addr) ++ zeroBytes (wordSlots s.mgt.crcEn (words - 17)))
    { selected s with mgt := { (selected s).mgt with pick := upd pickUp s.mgt.pick (wordAddr addr / 4) } } hidle.2.2
  refine ⟨m, ?_, hpick, hmiso⟩
  have hslot : ¬ 3 < wordAddr addr / 4 := by omega
  have hsome : words ≠ 0 := by omega
  simp only [exec, execReadPickup, ifMgt_idle hidle, spiReadPickup, csFalls_selected hidle, hslot, hsome, if_false]
  exact congrArg _ hend

/-- Slot `i` expired and counted, before the event. -/
def expireSlot (i : Nat) (s : State) : State := { s with
  mgt := { s.mgt with pick := upd (fun k => { k with st := .expired, data := [], deadline := none }) s.mgt.pick i },
  xb := { s.xb with orphanCnt := satInc s.xb.orphanCnt } }

/-- A completed read that nobody collected before its deadline expires. -/
theorem exec_stalemateExpiry {s : State} {i d : Nat} (hi : i < 4) (hdone : (nth .empty s.mgt.pick i).st = .done)
    (hdead : (nth .empty s.mgt.pick i).deadline = some d) (hdue : d ≤ localNow s) :
    exec (.stalemateExpiry i) s = .next (raise .xbOrphan (BitVec.ofNat 32 i) (expireSlot i s)) := by
  have hpast : dueOpt (nth .empty s.mgt.pick i).deadline s = true := by
    simpa [hdead, dueOpt, due] using hdue
  simp only [exec, execStalemateExpiry, hi, hdone, hpast, and_self, if_true, expireSlot]

/-- EVT_XB_ORPHAN sets its pending bit in XB_INT and is queued. -/
theorem raise_xbOrphan_blocks (w : Word) (s : State) :
    ∃ v, raise .xbOrphan w s = { s with xb := { s.xb with int := setBit s.xb.int 3 }, evt := v } := by
  obtain ⟨q, o, n, h⟩ := raiseAt_evt .xbOrphan 0 w s
  exact ⟨_, h⟩

/-- EVT_MGT_WDOG sets its pending bit in GLB_MGT_INT and is queued. -/
theorem raise_mgtWdog_blocks (w : Word) (s : State) :
    ∃ v, raise .mgtWdog w s = { s with glb := { s.glb with mgtInt := setBit s.glb.mgtInt 1 }, evt := v } := by
  obtain ⟨q, o, n, h⟩ := raiseAt_evt .mgtWdog 0 w s
  exact ⟨_, h⟩

/-- Settles O14: a pickup frees its slot, and a read that is not picked up expires. -/
theorem pickupAndStalemate : Obligations.PickupAndStalemate := by
  unfold Obligations.PickupAndStalemate
  refine ⟨?pickup, ?stalemate⟩
  case pickup =>
    intro s addr words hang i hidle haddr hi hI hwords
    obtain ⟨m, hexec, hpick, hmiso⟩ := exec_readPickup hang hidle haddr hi hwords
    obtain ⟨-, hslots⟩ := slot_len hI
    refine ⟨_, hexec, frame1 s m, ?_, fun j hj => ?_, fun hen hshort => ?_⟩
    · change nth .empty m.pick i = _
      rw [hpick, nth_upd_same _ _ _ (by omega), pickUp]
    · change nth .empty m.pick j = _
      rw [hpick, nth_upd_other _ _ _ (Ne.symm hj)]
    · change m.miso.drop 6 = _
      have hnone : words - 17 = 0 := by omega
      rw [hmiso, hen, hnone, sendWords_plain]
      exact (List.append_nil _)
  case stalemate =>
    intro s i d hI hi hdone hdead hdue
    obtain ⟨-, hslots⟩ := slot_len hI
    have hexec := exec_stalemateExpiry hi hdone hdead hdue
    have hreported : Reported .xbOrphan 0 (BitVec.ofNat 32 i) s
        (raise .xbOrphan (BitVec.ofNat 32 i) (expireSlot i s)) :=
      raiseAt_reported_every .xbOrphan 0 _ rfl ⟨rfl, rfl⟩ (fun _ => setBit_self _ _ (by decide))
    obtain ⟨v, hraised⟩ := raise_xbOrphan_blocks (BitVec.ofNat 32 i) (expireSlot i s)
    rw [hraised] at hexec hreported
    refine ⟨_, hexec, ?_, nth_upd_same _ _ _ (by omega), fun j hj => nth_upd_other _ _ _ (Ne.symm hj), rfl, hreported⟩
    intro part hpart
    cases part <;> simp [Agree, expireSlot] at hpart ⊢

/-! ### ATOMIC (R91, R92) -/

theorem fld_low_bits {v : Word} (h : v.toNat < 4) : fld v 1 0 = v.toNat ∧ fld v 31 2 = 0 := by
  simp only [fld]
  omega

/-- The shared region starts at a multiple of both widths. -/
theorem atomicWidth_divides_base (op : Nat) : 0x100000 % atomicWidth op = 0 := by
  unfold atomicWidth
  split <;> rfl

/-- An atomic at an aligned offset below the system area returns the old value and stores the new one. -/
theorem spiAtomicRun_shared {a o : Nat} {c : Word} {ops : List Word} {x : Nat} (r : SpiRun) {s : State}
    (hcore : coreAnswers s = true) (hop : c.toNat < 4) (hx : atomicOperand c.toNat ops = some x)
    (haddr : a = 0x100000 + o) (halign : o % atomicWidth c.toNat = 0) (hroom : o + 8 ≤ 0x1B000) :
    let old := ofLE (Memory.getAll s.mem.shared o (atomicWidth c.toNat))
    spiAtomicRun a (c :: ops) plainEnv r s =
      (r, some old, sharedPut o (toLE (atomicWidth c.toNat) (atomicNew c.toNat old x)) s) := by
  intro old
  obtain ⟨hlow, hhigh⟩ := fld_low_bits hop
  obtain ⟨-, -, hshared⟩ := sharedAddr (a := a) (by omega) (by omega)
  have hoff : a - 0x100000 = o := by omega
  have hsystem : inSystemArea o = false := by
    simp only [inSystemArea, decide_eq_false_iff_not]
    omega
  have haligned : a % atomicWidth c.toNat = 0 := by
    rw [haddr, Nat.add_mod, atomicWidth_divides_base, halign, Nat.add_zero, Nat.zero_mod]
  simp only [spiAtomicRun, hlow, hhigh, hx, hshared, haligned, hcore, hoff, hsystem, ne_eq, not_true_eq_false, or_self,
    Bool.true_eq_false, Bool.false_eq_true, if_false]
  rfl

theorem exec_atomic_shared {s : State} {addr : BitVec 24} {o : Nat} {c : SpiWord} {ops : List SpiWord} {olds x : Nat}
    (hang : Bool) (hidle : PortIdle s) (hcore : coreAnswers s = true)
    (hgood : (hostWords s.mgt.crcEn (c :: ops) (crcHead 0x60 addr)).2 = false) (hop : c.val.toNat < 4)
    (hx : atomicOperand c.val.toNat (ops.map (·.val)) = some x) (haddr : wordAddr addr = 0x100000 + o)
    (halign : o % atomicWidth c.val.toNat = 0) (hroom : o + 8 ≤ 0x1B000) :
    let old := ofLE (Memory.getAll s.mem.shared o (atomicWidth c.val.toNat))
    ∃ m, exec (.atomic addr (c :: ops) olds plainEnv hang) s =
        .next (stored o (toLE (atomicWidth c.val.toNat) (atomicNew c.val.toNat old x)) m s) ∧
      m.miso = statusByte (selected s) :: zeroBytes (5 + wordSlots s.mgt.crcEn (ops.length + 1)) ++
        sendWords s.mgt.crcEn ((oldWords c.val.toNat old).take (min olds (oldWords c.val.toNat 0).length))
          ((c :: ops).foldl (fun r w => crcWord r w.val) (crcHead 0x60 addr)) := by
  intro old
  have hwords : hostWords s.mgt.crcEn (c :: ops) (crcHead 0x60 addr) = (c.val :: ops.map (·.val), false) :=
    Prod.ext (hostWords_good hgood) hgood
  obtain ⟨hlow, -⟩ := fld_low_bits hop
  have hrun := spiAtomicRun_shared (s := selected s) ((SpiRun.start 0x60).crc false) hcore hop hx haddr halign hroom
  obtain ⟨m, hend, hmiso, -⟩ := endTx_plain
    (SpiRun.tookN (min olds (oldWords c.val.toNat 0).length) ((SpiRun.start 0x60).crc false)).out hang
    (statusByte (selected s) :: zeroBytes (5 + wordSlots s.mgt.crcEn (ops.length + 1)) ++
      sendWords s.mgt.crcEn ((oldWords c.val.toNat old).take (min olds (oldWords c.val.toNat 0).length))
        ((c :: ops).foldl (fun r w => crcWord r w.val) (crcHead 0x60 addr)))
    (sharedPut o (toLE (atomicWidth c.val.toNat) (atomicNew c.val.toNat old x)) (selected s)) hidle.2.2
  refine ⟨m, ?_, hmiso⟩
  have hen : (selected s).mgt.crcEn = s.mgt.crcEn := rfl
  simp only [exec, execAtomic, ifMgt_idle hidle, spiAtomic, csFalls_selected hidle, hen, hwords, hlow, hrun,
    Option.getD_some, List.length_cons]
  exact congrArg _ hend

theorem oldWords_take (op old : Nat) {olds : Nat} (h : 2 ≤ olds) :
    (oldWords op old).take (min olds (oldWords op 0).length) = oldWords op old := by
  apply List.take_of_length_le
  unfold oldWords
  split <;> simp <;> omega

/-- Settles O15: the old value goes out, and the new one takes its place. -/
theorem atomicFetchesAndStores : Obligations.AtomicFetchesAndStores := by
  unfold Obligations.AtomicFetchesAndStores
  intro s addr o c ops olds x hang hidle hcore hwf hgood hop hx haddr halign hroom
  obtain ⟨m, hexec, hmiso⟩ := exec_atomic_shared (olds := olds) hang hidle hcore hgood hop hx haddr halign hroom
  obtain ⟨hread, hrest⟩ := stored_region hwf o m (toLE_length (atomicWidth c.val.toNat) _)
  refine ⟨_, hexec, frame_stored _ _ _ _, hread, hrest, fun hen htwo => ?_⟩
  change m.miso.drop _ = _
  have hlen : 6 + 4 * (ops.length + 1) = (zeroBytes (5 + (ops.length + 1) * 4)).length + 1 := by
    simp only [zeroBytes, List.length_replicate]
    omega
  rw [hmiso, hen, sendWords_plain, oldWords_take _ _ htwo, hlen]
  exact List.drop_left

/-! ### The management watchdog (R102 to R104) -/

theorem exec_mgtWatchdogExpiry {s : State} {x : OpenTx} (hopen : s.mgt.openTx = some x) (hen : s.mgt.wdogEn = true)
    (hup : coreUp s = true) (hgather : s.xb.gather = none) (hpast : x.lastEdge + wdogCycles s ≤ localNow s) :
    exec .mgtWatchdogExpiry s = .next (raise .mgtWdog (BitVec.ofNat 32 x.out.opcode.toNat)
      (keepOutcome { x.out with wdogAbort := true } s)) := by
  simp only [exec, execMgtWatchdogExpiry, hopen, hen, hup, hpast, and_self, if_true, abandonTx, closeGather, hgather]

/-- Settles O16: the transaction closes with WDOG_ABORT, and the event carries its opcode. -/
theorem watchdogAbandons : Obligations.WatchdogAbandons := by
  unfold Obligations.WatchdogAbandons
  intro s x hopen hen hup hgather hpast
  have hexec := exec_mgtWatchdogExpiry hopen hen hup hgather hpast
  have hreported : Reported .mgtWdog 0 (BitVec.ofNat 32 x.out.opcode.toNat) s
      (raise .mgtWdog (BitVec.ofNat 32 x.out.opcode.toNat) (keepOutcome { x.out with wdogAbort := true } s)) :=
    raiseAt_reported_every .mgtWdog 0 _ rfl ⟨rfl, rfl⟩ (fun _ => setBit_self _ _ (by decide))
  obtain ⟨v, hraised⟩ := raise_mgtWdog_blocks (BitVec.ofNat 32 x.out.opcode.toNat)
    (keepOutcome { x.out with wdogAbort := true } s)
  rw [hraised] at hexec hreported
  refine ⟨_, hexec, ?_, rfl, hreported⟩
  intro part hpart
  cases part <;> simp [Agree, keepOutcome] at hpart ⊢

end Sys2Proof.Proofs.ManagementPort
end

section
/-!
Registers and their FIFOs: writes by address, delivered reads of counters, and the reads that pop or peek.
-/

namespace Sys2Proof.Proofs.Registers

open Sys2Proof.Machine Sys2Proof.Safety Sys2Proof.Laws

/-! ### Writes by address (R67) -/

/-- A write of a register that every source may write reaches its table while the core answers. -/
theorem exec_registerWrite_core {s : State} {addr : BitVec 24} {a : Nat} (v : Word) (frame : Bool)
    (haddr : addr.toNat / 4 * 4 = a) (hmgt : isMgt a = false) (hframe : frameRefused a true = false)
    (hcore : coreAnswers s = true) :
    exec (.registerWrite addr v frame) s = .next (regWrite a v frame s).2 := by
  subst haddr
  simp only [exec, execRegisterWrite, hframe, hmgt, ifCore, hcore, Bool.and_false, Bool.false_eq_true, if_false, if_true]

/-- A write of an MGT register from SPI needs the management domain only. -/
theorem exec_registerWrite_mgt {s : State} {addr : BitVec 24} {a : Nat} (v : Word) (haddr : addr.toNat / 4 * 4 = a)
    (hmgt : isMgt a = true) (halive : mgtAlive s = true) :
    exec (.registerWrite addr v false) s = .next (regWrite a v false s).2 := by
  subst haddr
  simp only [exec, execRegisterWrite, hmgt, halive, Bool.false_and, Bool.false_eq_true, if_false, if_true]

/-- An access frame writes no register that is closed to it (R356). -/
theorem exec_registerWrite_refused {s : State} {addr : BitVec 24} (v : Word)
    (hframe : frameRefused (addr.toNat / 4 * 4) true = true) : exec (.registerWrite addr v true) s = .next s := by
  simp only [exec, execRegisterWrite, hframe, Bool.and_self, if_true]

theorem w1c_low {n : Nat} (b : BitVec n) (v : Word) : w1c b v 0 = b &&& ~~~v.setWidth n := by
  simp [w1c]

section Tables

variable (v : Word) (frame : Bool) (s : State)

theorem regWrite_evtPend :
    (regWrite 0x58000 v frame s).2 = { s with evt := { s.evt with pend := s.evt.pend &&& ~~~v.setWidth 11 } } := by
  rw [← w1c_low]
  simp [regWrite, evtWrite]

theorem regWrite_evtPendEn :
    (regWrite 0x58004 v frame s).2 = { s with evt := { s.evt with pendEn := v.setWidth 11 } } := by
  simp [regWrite, evtWrite]

theorem regWrite_intaMask :
    (regWrite 0x28 v frame s).2 = { s with glb := { s.glb with intaMask := v.setWidth 15 } } := by
  simp [regWrite, glbWrite]

theorem regWrite_intbMask :
    (regWrite 0x2C v frame s).2 = { s with glb := { s.glb with intbMask := v.setWidth 15 } } := by
  simp [regWrite, glbWrite]

theorem regWrite_mgtCtrl :
    (regWrite 0x1000 v frame s).2 =
      { s with mgt := { s.mgt with wdogEn := v.getLsbD 1, crcEn := v.getLsbD 0 } } := by
  simp [regWrite, mgtWrite]

end Tables

/-- Settles O17: each write is routed to its block, whose table says which bits it takes. -/
theorem registerWriteTakesBits : Obligations.RegisterWriteTakesBits := by
  unfold Obligations.RegisterWriteTakesBits
  refine fun s v frame => ⟨fun hcore => ⟨?enable, ?pending, ?maskA, ?maskB⟩, fun halive => ?control, ?closed⟩
  case enable =>
    rw [← regWrite_evtPendEn v frame s]
    exact exec_registerWrite_core v frame rfl (by decide) (by decide) hcore
  case pending =>
    rw [← regWrite_evtPend v frame s]
    exact exec_registerWrite_core v frame rfl (by decide) (by decide) hcore
  case maskA =>
    rw [← regWrite_intaMask v frame s]
    exact exec_registerWrite_core v frame rfl (by decide) (by decide) hcore
  case maskB =>
    rw [← regWrite_intbMask v frame s]
    exact exec_registerWrite_core v frame rfl (by decide) (by decide) hcore
  case control =>
    rw [← regWrite_mgtCtrl v false s]
    exact exec_registerWrite_mgt v rfl (by decide) halive
  case closed => exact exec_registerWrite_refused v (by decide)

/-! ### Counters (R89, R332) -/

/-- Counter `i` of port `p` cleared. -/
def clearCounter (p i : Nat) (s : State) : State :=
  updEth p (fun k => { k with cnt := upd (fun _ => 0) k.cnt i }) s

section Counter

variable {p i : Nat} (hp : p < 9) (hi : i < 16)
include hp hi

theorem regAfter_ethCounter (s : State) : regAfter (0x10100 + 0x800 * p + 4 * i) s = clearCounter p i s := by
  have hport : (0x10100 + 0x800 * p + 4 * i - 0x10000) / 0x800 = p := by omega
  have hoffset : (0x10100 + 0x800 * p + 4 * i - 0x10000) % 0x800 = 0x100 + 4 * i := by omega
  have hindex : (0x100 + 4 * i - 0x100) / 4 = i := by
    rw [Nat.add_sub_cancel_left]
    omega
  have hcounters : 0x100 ≤ 0x100 + 4 * i ∧ 0x100 + 4 * i < 0x140 := by omega
  unfold regAfter
  repeat rw [if_neg (by omega)]
  rw [if_pos (by omega), hport, hoffset, ethPortAfter, if_pos hcounters, hindex, clearCounter]

/-- The counters are no registers of Table 15-5. -/
theorem readDenied_ethCounter (s : State) : readDenied (0x10100 + 0x800 * p + 4 * i) s = false := by
  have hoffset : (0x10100 + 0x800 * p + 4 * i) % 0x800 = 0x100 + 4 * i := by omega
  unfold readDenied lockable
  rw [if_neg (by omega), if_neg (by omega), if_pos (by omega), hoffset]
  simp only [Bool.and_eq_false_iff, List.contains_eq_mem, decide_eq_false_iff_not, List.mem_cons, List.not_mem_nil,
    or_false]
  omega

theorem exec_rcCounterRead_eth {s : State} (hcore : coreAnswers s = true) :
    exec (.rcCounterRead (BitVec.ofNat 24 (0x10100 + 0x800 * p + 4 * i))) s = .next (clearCounter p i s) := by
  have haddr : (BitVec.ofNat 24 (0x10100 + 0x800 * p + 4 * i)).toNat / 4 * 4 = 0x10100 + 0x800 * p + 4 * i := by
    rw [BitVec.toNat_ofNat]
    omega
  have hmgt : isMgt (0x10100 + 0x800 * p + 4 * i) = false := by
    simp only [isMgt, Bool.and_eq_false_iff, decide_eq_false_iff_not]
    omega
  simp only [exec, execRcCounterRead, haddr, hmgt, ifCore, hcore, readDenied_ethCounter hp hi,
    regAfter_ethCounter hp hi, Bool.false_eq_true, if_false, if_true]

end Counter

/-- Settles O18: the counter is the only thing that the read changes. -/
theorem counterReadClears : Obligations.CounterReadClears := by
  unfold Obligations.CounterReadClears
  intro s p i hp hi hcore hI
  have hport : nth .reset (clearCounter p i s).eth p =
      { nth .reset s.eth p with cnt := upd (fun _ => 0) (nth .reset s.eth p).cnt i } :=
    nth_upd_same _ _ _ (by rw [eth_len hI]; exact hp)
  refine ⟨_, exec_rcCounterRead_eth hp hi hcore, frameEth s _, fun q hq => nth_upd_other _ _ _ (Ne.symm hq), ?_,
    fun j hj => ?_, ?_⟩
  · rw [hport]
    exact nth_upd_const 0 _ i
  · rw [hport]
    exact nth_upd_other _ _ _ (Ne.symm hj)
  · rw [hport]

/-! ### FIFOs (R87, R88, R216, R217, R250, R726) -/

section Reads

variable {s : State} (hcore : coreAnswers s = true)
include hcore

theorem exec_capFifoRead (n : Fin 8) : exec (.capFifoRead n) s = .next (capRead n true s) := by
  simp only [exec, execCapFifoRead, ifCore, hcore, if_true]

theorem exec_capPeekRead (n : Fin 8) : exec (.capPeekRead n) s = .next (capRead n false s) := by
  simp only [exec, execCapPeekRead, ifCore, hcore, if_true]

theorem exec_txtsFifoRead (p : Fin 8) : exec (.txtsFifoRead p) s = .next (txtsRead p true s) := by
  simp only [exec, execTxtsFifoRead, ifCore, hcore, if_true]

theorem exec_txtsPeekRead (p : Fin 8) : exec (.txtsPeekRead p) s = .next (txtsRead p false s) := by
  simp only [exec, execTxtsPeekRead, ifCore, hcore, if_true]

theorem exec_xbWerrFifoRead : exec .xbWerrFifoRead s = .next (werrRead true s) := by
  simp only [exec, execXbWerrFifoRead, ifCore, hcore, if_true]

theorem exec_xbWerrPeekRead : exec .xbWerrPeekRead s = .next (werrRead false s) := by
  simp only [exec, execXbWerrPeekRead, ifCore, hcore, if_true]

end Reads

theorem capRead_empty {n : Nat} {s : State} (pop : Bool) (h : (capAt n s).fifo = []) : capRead n pop s = s := by
  simp only [capRead, h]

/-- A read of a capture with entries loads the seconds of the oldest one, and takes it where it pops. -/
theorem capRead_loads {n : Nat} {s : State} {e : CapEntry} {l : List CapEntry} (pop : Bool)
    (hn : n < s.tmb.caps.length) (h : (capAt n s).fifo = e :: l) :
    ∃ x, capRead n pop s = { s with tmb := { s.tmb with caps := x } } ∧
      (∀ j, j ≠ n → capAt j (capRead n pop s) = capAt j s) ∧
      capAt n (capRead n pop s) = { capAt n s with sec := e.secs, fifo := if pop then l else e :: l } := by
  simp only [capRead, h]
  exact ⟨_, rfl, fun j hj => nth_upd_other _ _ _ (Ne.symm hj), nth_upd_same _ _ _ hn⟩

theorem txtsRead_empty {p : Nat} {s : State} (pop : Bool) (h : (ptpPort p s).txts = []) : txtsRead p pop s = s := by
  simp only [txtsRead, h]

/-- A read of the time-stamps of a port loads the oldest one, and takes it where it pops. -/
theorem txtsRead_loads {p : Nat} {s : State} {e : TxtsEntry} {l : List TxtsEntry} (pop : Bool)
    (hp : p < s.ptp.ports.length) (h : (ptpPort p s).txts = e :: l) :
    ∃ x, txtsRead p pop s = { s with ptp := { s.ptp with ports := x } } ∧
      (∀ j, j ≠ p → ptpPort j (txtsRead p pop s) = ptpPort j s) ∧
      ptpPort p (txtsRead p pop s) =
        { ptpPort p s with txtsSec := e.secs, txtsTag := e.tag, txts := if pop then l else e :: l } := by
  simp only [txtsRead, h]
  exact ⟨_, rfl, fun j hj => nth_upd_other _ _ _ (Ne.symm hj), nth_upd_same _ _ _ hp⟩

theorem werrRead_loads {s : State} {e : XbWerr} {l : List XbWerr} (pop : Bool) (h : s.xb.werr = e :: l) :
    werrRead pop s = { s with xb := { s.xb with werrAddr := e.addr, werr := if pop then l else e :: l } } := by
  simp only [werrRead, h]

/-- Settles O19: a FIFO read and a PEEK read are one read, with and without the pop. -/
theorem fifoAndPeekReads : Obligations.FifoAndPeekReads := by
  unfold Obligations.FifoAndPeekReads
  intro s hcore hI
  refine ⟨fun n hnone => ?noCapture, fun n e l hsome => ⟨?capture, ?peek⟩, fun p hnone => ?noStamp,
    fun p e l hsome => ⟨?stamp, ?stampPeek⟩, fun e l hsome => ⟨?werr, ?werrPeek⟩⟩
  case noCapture =>
    exact ⟨by rw [exec_capFifoRead hcore, capRead_empty true hnone],
      by rw [exec_capPeekRead hcore, capRead_empty false hnone]⟩
  case noStamp =>
    exact ⟨by rw [exec_txtsFifoRead hcore, txtsRead_empty true hnone],
      by rw [exec_txtsPeekRead hcore, txtsRead_empty false hnone]⟩
  case capture =>
    obtain ⟨x, hread, hothers, hload⟩ := capRead_loads true (by rw [caps_len hI]; exact n.isLt) hsome
    refine ⟨_, exec_capFifoRead hcore n, ?_, ?_, hothers, hload⟩
    · rw [hread]; exact frameTmb s _
    · rw [hread]
  case peek =>
    obtain ⟨x, hread, hothers, hload⟩ := capRead_loads false (by rw [caps_len hI]; exact n.isLt) hsome
    refine ⟨_, exec_capPeekRead hcore n, ?_, ?_, hothers, ?_⟩
    · rw [hread]; exact frameTmb s _
    · rw [hread]
    · rw [hload, ← hsome]; rfl
  case stamp =>
    obtain ⟨x, hread, hothers, hload⟩ := txtsRead_loads true (by rw [port_len hI]; exact p.isLt) hsome
    refine ⟨_, exec_txtsFifoRead hcore p, ?_, ?_, hothers, hload⟩
    · rw [hread]; exact framePtp s _
    · rw [hread]
  case stampPeek =>
    obtain ⟨x, hread, hothers, hload⟩ := txtsRead_loads false (by rw [port_len hI]; exact p.isLt) hsome
    refine ⟨_, exec_txtsPeekRead hcore p, ?_, ?_, hothers, ?_⟩
    · rw [hread]; exact framePtp s _
    · rw [hread]
    · rw [hload, ← hsome]; rfl
  case werr => rw [exec_xbWerrFifoRead hcore, werrRead_loads true hsome]; rfl
  case werrPeek => rw [exec_xbWerrPeekRead hcore, werrRead_loads false hsome, ← hsome]; rfl

end Sys2Proof.Proofs.Registers
end

section
/-!
Resets that keep main power, and requests to enter a lower ladder state: what the law of coreReset in
Sys2Proof/Laws/PowerUp.lean gives for each source, and the entry that every permitted request starts.
-/

namespace Sys2Proof.Proofs.ResetsAndEntries

open Sys2Proof.Machine Sys2Proof.Safety Sys2Proof.Laws Sys2Proof.Proofs.ManagementPort

/-! ### Resets (R94, R790, Table 14-3) -/

theorem exec_resetN {s : State} (hreset : resettable s = true) :
    exec .resetN s = .next (coreReset .resetN { s with pwr := { s.pwr with resetLow := true } }) := by
  simp only [exec, execResetN, hreset, if_true]

theorem exec_pllLoss {s : State} (hreset : resettable s = true) (hready : s.pwr.boot = .ready)
    (hseal : inSeal s = false) : exec .pllLoss s = .next (coreReset .pllLoss s) := by
  simp [exec, execPllLoss, hreset, hready, hseal]

/-- SOFT_RESET with its key resets the core, and then the management domain but for its own outcome. -/
theorem exec_softReset {s : State} {w : SpiWord} (hang : Bool) (hreset : resettable s = true) (hidle : PortIdle s)
    (hkey : (firstWord s.mgt.crcEn 0x99 [w]).1 = some 0x00005EA1) :
    ∃ out miso, exec (.softReset [w] hang) s = .next { coreReset .softReset { s with mgt := .reset } with
      mgt := { MgtBlk.reset with last := out, miso } } := by
  have hen : (selected s).mgt.crcEn = s.mgt.crcEn := rfl
  have hcore : softReset { selected s with mgt := .reset } = coreReset .softReset { s with mgt := .reset } :=
    if_pos hreset
  refine ⟨((SpiRun.start 0x99).crc (firstWord s.mgt.crcEn 0x99 [w]).2).took.out,
    statusByte (selected s) :: zeroBytes (wordSlots s.mgt.crcEn (min 1 [w].length)), ?_⟩
  simp only [exec, execSoftReset, ifMgt_idle hidle, spiSoftReset, csFalls_selected hidle, hen, hkey, hcore, if_true]

/-- Settles O30: each source resets the core, and the management domain follows it as Table 14-3 says. -/
theorem resetsKeepMemory : Obligations.ResetsKeepMemory := by
  unfold Obligations.ResetsKeepMemory
  intro s hreset hrun reset
  refine ⟨?pin, fun w hang hidle hkey => ?command, fun hready hseal hqueue hcur => ?pll⟩
  case pin =>
    obtain ⟨hkept, hmgt, hboot⟩ :=
      cr_fields .resetN { s with pwr := { s.pwr with resetLow := true } } hrun (fun h => nomatch h)
    exact ⟨_, exec_resetN hreset, hkept, hmgt, hboot⟩
  case command =>
    obtain ⟨out, miso, hexec⟩ := exec_softReset hang hreset hidle hkey
    obtain ⟨hkept, -, -⟩ := cr_fields .softReset { s with mgt := .reset } hrun (fun h => nomatch h)
    exact ⟨_, hexec, hkept, rfl⟩
  case pll =>
    obtain ⟨hkept, hmgt, -⟩ := cr_fields .pllLoss s hrun (fun _ => ⟨hqueue, hcur⟩)
    exact ⟨_, exec_pllLoss hreset hready hseal, hkept, hmgt⟩

/-! ### Entry requests (R98, R795, R796) -/

/-- The state in which the entry of state `n` has started; the ladder state stays. -/
def entering (n : Nat) (s : State) : State := { s with pwr := { s.pwr with
  phase := .entering, target := ladderOf n, pnr := none, reg := .none, since := localNow s } }

theorem acceptEntry_steady {s : State} (n : Nat) (hsteady : s.pwr.phase = .steady) : acceptEntry n s = entering n s := by
  simp [acceptEntry, entering, hsteady]

theorem frame_entering (n : Nat) (s : State) : Frame [.pwr] s (entering n s) := by
  intro part hpart
  cases part <;> simp [Agree, entering] at hpart ⊢

theorem frame_entering_mgt (n : Nat) (m : MgtBlk) (s : State) : Frame [.mgt, .pwr] s { entering n s with mgt := m } := by
  intro part hpart
  cases part <;> simp [Agree, entering] at hpart ⊢

/-- The key of PWR_ENTER and the code of the target. -/
theorem fld_entryWord {n : Nat} (hn : n < 4) :
    fld (BitVec.ofNat 32 (0x4C440000 + n)) 31 16 = 0x4C44 ∧ fld (BitVec.ofNat 32 (0x4C440000 + n)) 1 0 = n := by
  simp only [fld, BitVec.toNat_ofNat]
  omega

/-- The word of ENTER_STATE holds the code of the target and nothing else. -/
theorem fld_stateWord {n : Nat} (hn : n < 4) :
    fld (BitVec.ofNat 32 n) 31 2 = 0 ∧ fld (BitVec.ofNat 32 n) 1 0 = n := by
  simp only [fld, BitVec.toNat_ofNat]
  omega

theorem exec_pwrEnter_unkeyed {s : State} {v : Word} (hcore : coreAnswers s = true) (hkey : fld v 31 16 ≠ 0x4C44) :
    exec (.pwrEnter v) s = .next { s with pwr := { s.pwr with reqErr := true } } := by
  simp only [exec, execPwrEnter, ifCore, hcore, pwrEnter, hkey, false_and, if_true, if_false]

section Permitted

variable {s : State} {n : Nat} (hn : n < 4) (hpermit : entryPermitted .spi n s = true)
variable (hsteady : s.pwr.phase = .steady)
include hn hpermit hsteady

theorem exec_pwrEnter_permitted (hcore : coreAnswers s = true) :
    exec (.pwrEnter (BitVec.ofNat 32 (0x4C440000 + n))) s = .next (entering n s) := by
  obtain ⟨hkey, hcode⟩ := fld_entryWord hn
  simp only [exec, execPwrEnter, ifCore, hcore, pwrEnter, hkey, hcode, hpermit, acceptEntry_steady n hsteady, and_self,
    if_true]

theorem exec_enterState_permitted {w : SpiWord} (hang : Bool) (hidle : PortIdle s)
    (hword : (firstWord s.mgt.crcEn 0xB9 [w]).1 = some (BitVec.ofNat 32 n)) :
    ∃ m, exec (.enterState [w] hang) s = .next { entering n s with mgt := m } := by
  obtain ⟨hzero, hcode⟩ := fld_stateWord hn
  have hen : (selected s).mgt.crcEn = s.mgt.crcEn := rfl
  have hpermit' : entryPermitted .spi n (selected s) = true := hpermit
  have haccept : acceptEntry n (selected s) = entering n (selected s) := acceptEntry_steady n hsteady
  obtain ⟨m, hend, -⟩ := endTx_plain ((SpiRun.start 0xB9).crc (firstWord s.mgt.crcEn 0xB9 [w]).2).took.out hang
    (statusByte (selected s) :: zeroBytes (wordSlots s.mgt.crcEn (min 1 [w].length))) (entering n (selected s))
    hidle.2.2
  refine ⟨m, ?_⟩
  simp only [exec, execEnterState, ifMgt_idle hidle, spiEnterState, csFalls_selected hidle, hen, hword, hzero, hcode,
    hpermit', haccept, and_self, if_true]
  exact congrArg _ hend

end Permitted

/-- Settles O31: either request starts the entry, and a write without the key only sets REQ_ERR. -/
theorem entryRequests : Obligations.EntryRequests := by
  unfold Obligations.EntryRequests
  intro s n hn hpermit hsteady started
  refine ⟨fun hcore => ?register, fun w hang hidle hword => ?command, fun v hcore hkey => exec_pwrEnter_unkeyed hcore hkey⟩
  case register =>
    exact ⟨_, exec_pwrEnter_permitted hn hpermit hsteady hcore, frame_entering n s, rfl, rfl, rfl, rfl⟩
  case command =>
    obtain ⟨m, hexec⟩ := exec_enterState_permitted hn hpermit hsteady hang hidle hword
    exact ⟨_, hexec, frame_entering_mgt n m s, rfl, rfl, rfl, rfl⟩

end Sys2Proof.Proofs.ResetsAndEntries
end

section
/-!
The expansion bridge: how a read starts, goes on and ends. An end with data and an end with a code both land in the
pickup slot of the read; Sys2Proof/Laws/Cards.lean gives the landing and the failed burst.
-/

namespace Sys2Proof.Proofs.Bridge

open Sys2Proof.Machine Sys2Proof.Safety Sys2Proof.Laws

/-! ### Starts and ends of bursts (R666, R673, R674) -/

/-- The idle bus starts the first burst of the oldest request. -/
theorem exec_xbTransactionStart_oldest {s : State} {r : XbReq} {rs : List XbReq} {b : Nat × Nat × Bool}
    {bs : List (Nat × Nat × Bool)} (hruns : cardBusRuns s = true) (hidle : s.xb.cur = none) (hqueue : s.xb.queue = r :: rs)
    (hserve : servable r s = true) (hage : r.joined + 8 ≤ localNow s) (hreach : reachable r s = true)
    (hbursts : burstsOf r = b :: bs) :
    exec .xbTransactionStart s = .next { s with xb := { s.xb with
      queue := rs
      cur := some { req := r, todo := bs, burst := some b, got := [], pre := [] } } } := by
  have htake : takeServable (r :: rs) s = some (r, rs) := by simp only [takeServable, hserve, if_true]
  have hold : ¬ localNow s < r.joined + 8 := by omega
  simp only [exec, execXbTransactionStart, hruns, hidle, hqueue, htake, hold, hreach, hbursts, Bool.true_eq_false, if_false]

/-- The data of a burst of the whole length stays as it is. -/
theorem padTo_take_whole {d : List Byte} {len : Nat} (hlen : d.length = len) : padTo len (d.take len) = d := by
  simp [padTo, ← hlen]

section BurstEnd

variable {s : State} {c : XbCur} {a len : Nat} {d : List Byte} (hcur : s.xb.cur = some c)
variable (hburst : c.burst = some (a, len, false)) (hread : c.req.write = false) (hlen : d.length = len)
include hcur hburst hread hlen

/-- A burst that is followed by another one of the same read gives its bytes. -/
theorem exec_xbTransactionEnd_more {x y : Nat} {bs : List (Nat × Nat × Bool)} (htodo : c.todo = (x, y, false) :: bs) :
    exec (.xbTransactionEnd d) s =
      .next { s with xb := { s.xb with cur := some { c with burst := none, got := c.got ++ d } } } := by
  simp only [exec, execXbTransactionEnd, hcur, hburst, hread, htodo, padTo_take_whole hlen,
    Bool.false_eq_true, if_false]

/-- The last burst of a far read for a pickup slot completes the slot. -/
theorem exec_xbTransactionEnd_last {i : Nat} (htodo : c.todo = []) (hposted : c.req.posted = false)
    (hdest : c.req.dest = .pickup i) (hcalm : BridgeCalm s) :
    exec (.xbTransactionEnd d) s = .next (landPickup i 0 (bytesWords (c.req.len / 4) (swapBytes c.req.swap (c.got ++ d)))
      { s with xb := { s.xb with cur := none } }) := by
  simp only [exec, execXbTransactionEnd, hcur, hburst, hread, htodo, padTo_take_whole hlen, finishReq,
    hposted, hdest, endCur_calm s hcalm, Bool.false_eq_true, if_false, if_true]

end BurstEnd

theorem frame_glb_mgt_xb (s : State) (g : GlbBlk) (m : MgtBlk) (x : XbBlk) :
    Frame [.glb, .mgt, .xb] s { s with glb := g, mgt := m, xb := x } := by
  intro part hpart
  cases part <;> simp [Agree] at hpart ⊢

/-! ### Failures (R664, R665, R716) -/

/-- The far read of pickup slot `i` at card `j` has failed with a code: the slot shows it, PICKUP is pending, the bus is
idle, and the card counts the failure. -/
def ReadFailed (i j code : Nat) (s t : State) : Prop :=
  nth .empty t.mgt.pick i = { nth .empty s.mgt.pick i with
    st := .error
    code := BitVec.ofNat 8 code
    data := []
    deadline := none } ∧ t.glb.mgtInt.getLsbD 0 = true ∧ t.xb.cur = none ∧
  (xbSlot j t).errCnt = satInc (xbSlot j s).errCnt

/-- The counts of a card after a failure with a code. -/
def countFailure (code : Nat) (k : XbSlot) : XbSlot :=
  { k with errCnt := satInc k.errCnt, timeoutCnt := if code = 1 then satInc k.timeoutCnt else k.timeoutCnt }

section Failed

variable {s : State} {c : XbCur} {a len i : Nat} (hI : Inv s) (hcur : s.xb.cur = some c)
variable (hburst : c.burst = some (a, len, false)) (hposted : c.req.posted = false) (hdest : c.req.dest = .pickup i)
variable (hi : i < 4) (hslot : c.req.slot < 8) (hcalm : BridgeCalm s)
include hI hcur hburst hposted hdest hi hslot hcalm

/-- A burst that fails with a code lands in the pickup slot of its read and is counted at its card. -/
theorem failBurst_lands (code k : Nat) (hcode : code ≠ 0) :
    ∃ m g, failBurst code k s = { s with
        mgt := m
        glb := g
        xb := { s.xb with cur := none, slots := upd (countFailure code) s.xb.slots c.req.slot } } ∧
      Frame [.glb, .mgt, .xb] s (failBurst code k s) ∧ ReadFailed i c.req.slot code s (failBurst code k s) ∧
      xbSlot c.req.slot (failBurst code k s) = countFailure code (xbSlot c.req.slot s) := by
  obtain ⟨m, g, hfail, hint, hpick⟩ := failBurst_spec c a len i code k s hI hcur hburst hposted hdest hi hcalm hcode
  obtain ⟨hslots, -⟩ := slot_len hI
  have hcard : xbSlot c.req.slot (failBurst code k s) = countFailure code (xbSlot c.req.slot s) := by
    rw [hfail]
    exact nth_upd_same _ _ _ (by omega)
  refine ⟨m, g, hfail, ?_, ⟨?_, ?_, ?_, by rw [hcard]; rfl⟩, hcard⟩ <;> rw [hfail]
  · exact frame_glb_mgt_xb _ _ _ _
  · exact hpick
  · exact hint

/-- The card's removal ends the burst with REMOVED, and the slot is ABSENT with its event pending. -/
theorem exec_xbCardRemoved (k : Nat) (hqueue : s.xb.queue = []) (hpresent : (xbSlot c.req.slot s).st = .present) :
    ∃ t, exec (.xbCardRemoved k) s = .next t ∧ Frame [.glb, .mgt, .xb, .evt] s t ∧ ReadFailed i c.req.slot 5 s t ∧
      (xbSlot c.req.slot t).st = .absent ∧ pendSet (.xb 1) 0 t = true := by
  obtain ⟨m, g, hfail, -, ⟨hpick, hint, hidle, herr⟩, hcard⟩ :=
    failBurst_lands hI hcur hburst hposted hdest hi hslot hcalm 5 k (by decide)
  obtain ⟨hslots, -⟩ := slot_len hI
  obtain ⟨hwait, hcards, -⟩ := hcalm
  let u := updSlot c.req.slot (fun k => { k with prs := false }) (failBurst 5 k s)
  have hexec : exec (.xbCardRemoved k) s = .next (slotAbsent c.req.slot u) := by
    simp only [exec, execXbCardRemoved, hcur, hburst, Option.isSome_some, if_true, u]
  have hlen : c.req.slot < (failBurst 5 k s).xb.slots.length := by
    simp only [hfail, upd_length]
    omega
  have hu : xbSlot c.req.slot u = { xbSlot c.req.slot (failBurst 5 k s) with prs := false } := slot_upd _ _ _ hlen
  obtain ⟨v, y, habsent, hcur', -, hslot', hpend⟩ := slotAbsent_spec c.req.slot u
    (by simpa only [u, updSlot, upd_length] using hlen) (by rw [hu, hcard]; exact hpresent)
    (by simpa only [u, updSlot, hfail] using hqueue) (by simpa only [u, updSlot, hfail] using hwait)
    (by simpa only [u, updSlot, hfail] using hcards)
  rw [habsent] at hexec
  refine ⟨_, hexec, ?frame, ⟨hpick, hint, hcur'.trans hidle, ?count⟩, ?absent, hpend⟩
  case frame =>
    intro part hpart
    cases part <;> simp [Agree, u, updSlot, hfail] at hpart ⊢
  case count =>
    rw [← herr, xbSlot, hslot', hu]
  case absent => rw [xbSlot, hslot']

end Failed

/-- Settles O59: a read starts from the queue, and each way in which it ends lands in its pickup slot. -/
theorem bridgeServesReads : Obligations.BridgeServesReads := by
  unfold Obligations.BridgeServesReads
  refine ⟨?start, ?ends, ?fails⟩
  case start =>
    intro s r rs b bs hruns hidle hqueue hserve hage hreach hbursts
    exact exec_xbTransactionStart_oldest hruns hidle hqueue hserve hage hreach hbursts
  case ends =>
    intro s c a len d hI hcur hburst hread hlen
    refine ⟨fun x y bs htodo => exec_xbTransactionEnd_more hcur hburst hread hlen htodo,
      fun i htodo hposted hdest hi hcalm => ?_⟩
    obtain ⟨-, hpicks⟩ := slot_len hI
    obtain ⟨m, g, hland, hint, hpick, hothers⟩ := landPickup_spec i 0
      (bytesWords (c.req.len / 4) (swapBytes c.req.swap (c.got ++ d))) { s with xb := { s.xb with cur := none } }
      (by rw [hpicks]; exact hi)
    have hexec := exec_xbTransactionEnd_last hcur hburst hread hlen htodo hposted hdest hcalm
    rw [hland] at hexec
    exact ⟨_, hexec, frame_glb_mgt_xb _ _ _ _, rfl, hint, hpick, hothers⟩
  case fails =>
    intro s c a len i k hI hcur hburst hposted hdest hi hslot hcalm failed
    refine ⟨?error, ?timeout, fun hqueue hpresent => ?removed⟩
    case error =>
      obtain ⟨m, g, -, hframe, hfailed, hcard⟩ :=
        failBurst_lands hI hcur hburst hposted hdest hi hslot hcalm 2 k (by decide)
      exact ⟨_, rfl, hframe, hfailed, by rw [hcard]; rfl⟩
    case timeout =>
      obtain ⟨m, g, -, hframe, hfailed, hcard⟩ :=
        failBurst_lands hI hcur hburst hposted hdest hi hslot hcalm 1 k (by decide)
      exact ⟨_, rfl, hframe, hfailed, by rw [hcard]; rfl⟩
    case removed =>
      exact exec_xbCardRemoved hI hcur hburst hposted hdest hi hslot hcalm k hqueue hpresent

end Sys2Proof.Proofs.Bridge
end

section
/-!
Positions: the staging bank, its commands, and the Opening that a commit or a restart starts. The laws of
Sys2Proof/Laws/Positions.lean give the words of a load, a refusal, and the start of an Opening; here they are put
together with the commands of the host and of the device that lead to them.
-/

namespace Sys2Proof.Proofs.Positions

open Sys2Proof.Machine Sys2Proof.Safety Sys2Proof.Laws Sys2Proof.Proofs.ManagementPort

/-! ### Banks (Table 3-6) -/

theorem frame_pos (s : State) (p : PosBlk) : Frame [.pos] s { s with pos := p } := by
  intro part hpart
  cases part <;> simp [Agree] at hpart ⊢

theorem frame_mgt_pos (s : State) (m : MgtBlk) (p : PosBlk) : Frame [.mgt, .pos] s { s with mgt := m, pos := p } := by
  intro part hpart
  cases part <;> simp [Agree] at hpart ⊢

theorem frame_pos_evt (s : State) (p : PosBlk) (v : EvtBlk) : Frame [.pos, .evt] s { s with pos := p, evt := v } := by
  intro part hpart
  cases part <;> simp [Agree] at hpart ⊢

/-- The staging bank is EMPTY; the other bank, the active-bank pointer and the tables in use stay. -/
theorem clearStage_spec (s : State) :
    ∃ p, clearStage s = { s with pos := p } ∧ p.stage = .empty ∧ p.loadOffset = 0 ∧ p.tables = s.pos.tables ∧
      stageIsB { s with pos := p } = stageIsB s ∧ stageBank { s with pos := p } = .empty ∧
      posBank (!stageIsB s) { s with pos := p } = posBank (!stageIsB s) s := by
  obtain ⟨p, hset, hbank, hother, -, hactive, hpointer, -, htables, -⟩ := setPosBank_frame (stageIsB s) .empty s
  have hside : stageIsB { s with pos := p } = stageIsB s := by simp only [stageIsB, hactive, hpointer]
  refine ⟨{ p with stage := .empty, loadOffset := 0, hitlessOk := false, shadow := [] }, ?_, rfl, rfl, htables, hside,
    ?_, hother⟩
  · simp only [clearStage, hset]
  · exact (congrArg (posBank · { s with pos := p }) hside).trans hbank

/-! ### POS_STREAM (R133 to R137) -/

/-- A load of `n` words stands at the offset 4 `n`. -/
theorem words_of_loadOffset {n : Nat} (hn : n < 16) :
    ((BitVec.ofNat 24 (4 * n)).toNat - (0 : BitVec 24).toNat) / 4 = n := by
  have hfits : 4 * n < 2 ^ 24 := by omega
  rw [BitVec.toNat_ofNat, Nat.mod_eq_of_lt hfits]
  exact Nat.mul_div_cancel_left n (by decide)

/-- A POS_STREAM at offset 0 is accepted unless a commit or a verification is under way. -/
theorem streamMode_zero {s : State} (hfree : stageBusy s = false) : streamMode 0 s = .accept := by
  simp [streamMode, hfree]

section Load

variable {s : State} {ws : List SpiWord} (hfree : stageBusy s = false) (hsome : ws ≠ []) (hshort : ws.length < 16)
include hfree hsome hshort

/-- Words at offset 0 start a new load and enter the staging bank in order, while its header is not complete. -/
theorem posStream_loads :
    ∃ p, posStream 0 (ws.map (·.val)) s = ((false, false), { s with pos := p }) ∧ p.stage = .loading ∧
      (stageBank { s with pos := p }).image = ws.flatMap (fun w => toBE 4 w.val.toNat) ∧
      p.loadOffset = BitVec.ofNat 24 (4 * ws.length) ∧
      posBank (!stageIsB s) { s with pos := p } = posBank (!stageIsB s) s := by
  obtain ⟨q, hclear, -, hzero, -, hside, hempty, hkept⟩ := clearStage_spec s
  let start : State := { s with pos := { q with stage := .loading } }
  have hstart : startLoad s = start := by simp only [startLoad, hclear, start]
  have hbank : (stageBank start).image = [] := congrArg PosBank.image hempty
  obtain ⟨p, hwords, hstage, himage, hoffset, -, -, hother⟩ :=
    streamWords_early (ws.map (·.val)) start 0 rfl (congrArg List.length hbank) hzero (by simpa using hshort)
  refine ⟨p, ?_, hstage, ?_, ?_, ?_⟩
  · simp only [posStream, streamMode_zero hfree, hstart, hwords, List.isEmpty_iff, List.map_eq_nil_iff, hsome, if_true,
      if_false, Bool.not_true, start]
  · simpa [hbank, List.flatMap_map] using himage
  · simpa using hoffset
  · rw [show stageIsB start = stageIsB s from hside] at hother
    exact hother.trans hkept

theorem exec_posStream_loads (hang : Bool) (hidle : PortIdle s) (hcore : coreAnswers s = true)
    (hgood : (hostWords s.mgt.crcEn ws (crcHead 0x20 0)).2 = false) :
    ∃ m p, exec (.posStream 0 ws hang) s = .next { s with mgt := m, pos := p } ∧ p.stage = .loading ∧
      (stageBank { s with pos := p }).image = ws.flatMap (fun w => toBE 4 w.val.toNat) ∧
      p.loadOffset = BitVec.ofNat 24 (4 * ws.length) ∧
      posBank (!stageIsB s) { s with pos := p } = posBank (!stageIsB s) s ∧
      (hang = false → m.last.words = BitVec.ofNat 8 ws.length) := by
  have hwords : hostWords s.mgt.crcEn ws (crcHead 0x20 0) = (ws.map (·.val), false) :=
    Prod.ext (hostWords_good hgood) hgood
  obtain ⟨p, hload, hstage, himage, hoffset, hother⟩ := posStream_loads (s := selected s) hfree hsome hshort
  have hmode : streamMode 0 (selected s) = .accept := streamMode_zero (s := selected s) hfree
  have hcount : (p.loadOffset.toNat - (0 : BitVec 24).toNat) / 4 = ws.length := by
    rw [hoffset, words_of_loadOffset hshort]
  let run := SpiRun.tookN ws.length ((SpiRun.start 0x20).crc false)
  have htook : run.out.words = BitVec.ofNat 8 ws.length := by
    have hfits : ws.length < 256 := by omega
    simp [run, SpiRun.tookN, SpiRun.crc, SpiRun.start, TxOutcome.zero, satAdd, hfits]
  obtain ⟨m, hend, -, -, -, -, -, -, -, hlast, -⟩ := endTx_plain run.out hang
    (statusByte (selected s) :: zeroBytes (3 + wordSlots s.mgt.crcEn ws.length)) { selected s with pos := p } hidle.2.2
  have hcore' : coreAnswers (selected s) = true := hcore
  have hen : (selected s).mgt.crcEn = s.mgt.crcEn := rfl
  refine ⟨m, p, ?_, hstage, himage, hoffset, hother, fun hrise => ?_⟩
  · simp only [exec, execPosStream, ifMgt_idle hidle, spiPosStream, csFalls_selected hidle, hen, hwords, hcore', hload,
      hmode, hcount, Bool.false_eq_true, false_and, if_true, if_false]
    exact congrArg _ hend
  · obtain ⟨-, hout⟩ := hlast hrise
    rw [hout]
    exact htook

end Load

/-- Settles O36: the words are those that start a load in the staging bank. -/
theorem streamFillsStagingBank : Obligations.StreamFillsStagingBank := by
  unfold Obligations.StreamFillsStagingBank
  intro s ws hang hidle hcore hfree hsome hgood hshort
  obtain ⟨m, p, hexec, hstage, himage, hoffset, hother, hcount⟩ :=
    exec_posStream_loads hfree hsome hshort hang hidle hcore hgood
  exact ⟨_, hexec, frame_mgt_pos s m p, hstage, himage, hoffset, hother, hcount⟩

/-! ### The end of a verification (R141, R144) -/

/-- The staging bank, with what its read for the verification met. -/
def readBank (ue : Bool) (s : State) : PosBank := { stageBank s with ue := (stageBank s).ue || ue }

/-- The state in which the checks run. -/
def verifyStart (ue : Bool) (s : State) : State := setPosBank (stageIsB s) (readBank ue s) s

/-- A refused image: POS_ERR and the counter take the refusal; the tables in use stay. -/
theorem refuseStage_spec (e : PosErr) (s : State) :
    ∃ p v, refuseStage e s = { s with pos := p, evt := v } ∧ p.stage = .refused ∧
      p.errCode = BitVec.ofNat 8 e.code ∧ p.refusedCnt = satInc s.pos.refusedCnt ∧
      p.activeBank = s.pos.activeBank ∧ p.tables = s.pos.tables := by
  obtain ⟨v, hrefuse⟩ := posErr_frame e s
  exact ⟨_, v, hrefuse, rfl, rfl, rfl, rfl, rfl⟩

section Verify

variable {s : State} {ue : Bool} (hcore : coreUp s = true) (hverifying : s.pos.stage = .verifying)
include hcore hverifying

theorem exec_verifyComplete_error {e : PosErr} (hbad : verifyImage (readBank ue s) (verifyStart ue s) = .error e) :
    ∃ p v, exec (.verifyComplete ue) s = .next { s with pos := p, evt := v } ∧ p.stage = .refused ∧
      p.errCode = BitVec.ofNat 8 e.code ∧ p.refusedCnt = satInc s.pos.refusedCnt ∧
      p.activeBank = s.pos.activeBank ∧ p.tables = s.pos.tables := by
  obtain ⟨q, hset, -, -, -, -, hpointer, -, htables, hcount, -⟩ := setPosBank_frame (stageIsB s) (readBank ue s) s
  obtain ⟨p, v, hrefuse, hstage, hcode, hcnt, hbank, htabs⟩ := refuseStage_spec e { s with pos := q }
  have hexec : exec (.verifyComplete ue) s = .next (refuseStage e (verifyStart ue s)) := by
    simp only [readBank, verifyStart] at hbad
    simp only [exec, execVerifyComplete, hcore, hverifying, hbad, readBank, verifyStart, BEq.rfl, Bool.and_self,
      if_true]
  rw [verifyStart, hset, hrefuse] at hexec
  exact ⟨p, v, hexec, hstage, hcode, by rw [hcnt, hcount], hbank.trans hpointer, htabs.trans htables⟩

theorem exec_verifyComplete_ok {image : List Byte} {l : List Sect}
    (hgood : verifyImage (readBank ue s) (verifyStart ue s) = .ok (image, l)) :
    ∃ p, exec (.verifyComplete ue) s = .next { s with pos := p } ∧ p.stage = .staged ∧
      (stageBank { s with pos := p }).image = image ∧ p.activeBank = s.pos.activeBank ∧ p.tables = s.pos.tables := by
  let bank : PosBank := { readBank ue s with image, digest := sha256 image }
  obtain ⟨q, hset, -, -, -, hactive, hpointer, -, htables, -⟩ := setPosBank_frame (stageIsB s) (readBank ue s) s
  obtain ⟨p, hput, hbank, -, -, hactive', hpointer', -, htables', -⟩ :=
    setPosBank_frame (stageIsB s) bank { s with pos := q }
  have hexec : exec (.verifyComplete ue) s = .next (
      let t := setPosBank (stageIsB s) bank (verifyStart ue s)
      { t with pos := { t.pos with stage := .staged, hitlessOk := hitlessMatch image l t } }) := by
    simp only [readBank, verifyStart] at hgood
    simp only [exec, execVerifyComplete, hcore, hverifying, hgood, readBank, verifyStart, bank, BEq.rfl, Bool.and_self,
      if_true]
  rw [verifyStart, hset, hput] at hexec
  have hside : stageIsB { s with pos := p } = stageIsB s := by
    simp only [stageIsB, hactive', hactive, hpointer', hpointer]
  have himage : stageBank { s with pos := p } = bank := (congrArg (posBank · { s with pos := p }) hside).trans hbank
  exact ⟨_, hexec, rfl, congrArg PosBank.image himage, hpointer'.trans hpointer, htables'.trans htables⟩

/-- The end of a verification makes the image STAGED, or refuses it. -/
theorem verifyComplete_decides :
    ∃ t, exec (.verifyComplete ue) s = .next t ∧
      (∀ e, verifyImage (readBank ue s) (verifyStart ue s) = .error e →
        Frame [.pos, .evt] s t ∧ t.pos.stage = .refused ∧ t.pos.errCode = BitVec.ofNat 8 e.code ∧
          t.pos.refusedCnt = satInc s.pos.refusedCnt ∧ t.pos.activeBank = s.pos.activeBank ∧
          t.pos.tables = s.pos.tables) ∧
      (∀ p l, verifyImage (readBank ue s) (verifyStart ue s) = .ok (p, l) →
        Frame [.pos] s t ∧ t.pos.stage = .staged ∧ (stageBank t).image = p ∧
          t.pos.activeBank = s.pos.activeBank ∧ t.pos.tables = s.pos.tables) := by
  cases hverdict : verifyImage (readBank ue s) (verifyStart ue s) with
  | error e =>
    obtain ⟨p, v, hexec, hfields⟩ := exec_verifyComplete_error hcore hverifying hverdict
    refine ⟨_, hexec, ?_, fun _ _ h => nomatch h⟩
    rintro _ ⟨rfl⟩
    exact ⟨frame_pos_evt s p v, hfields⟩
  | ok verified =>
    obtain ⟨p, hexec, hfields⟩ := exec_verifyComplete_ok hcore hverifying hverdict
    refine ⟨_, hexec, fun _ h => (nomatch h), ?_⟩
    rintro _ _ ⟨rfl⟩
    exact ⟨frame_pos s p, hfields⟩

end Verify

/-! ### Commands of the host (R149, R160, R165) -/

/-- A register command acts while the core answers. -/
theorem ifCore_answers {s : State} (hcore : coreAnswers s = true) (f : State → State) : ifCore f s = f s := by
  simp only [ifCore, hcore, if_true]

theorem exec_abort_staged {s : State} (hcore : coreAnswers s = true) (hstaged : s.pos.stage = .staged) :
    exec .abort s = .next (clearStage (accepted s)) := by
  simp only [exec, execAbort, ifCore_answers hcore, posAbort, hstaged, reduceCtorEq, false_or, true_or, if_true]

/-- With nothing staged, each of the three commands is refused with POS_ERR_BUSY. -/
theorem exec_stagingCommand_empty {s : State} {c : Instr} (hcore : coreAnswers s = true) (hempty : s.pos.stage = .empty)
    (hc : c ∈ [Instr.abort, .commitFull, .commitHitless]) : exec c s = .next (refusePosCmd 0x11 s) := by
  simp only [List.mem_cons, List.not_mem_nil, or_false] at hc
  obtain rfl | rfl | rfl := hc
  case inl =>
    simp [exec, execAbort, ifCore_answers hcore, posAbort, hempty]
  case inr.inl =>
    simp [exec, execCommitFull, ifCore_answers hcore, posCommitFull, hempty]
  case inr.inr =>
    simp [exec, execCommitHitless, ifCore_answers hcore, posCommitHitless, hempty]

/-- The shadow tables start to fill with the sections of the staged image. -/
def preparing (s : State) : State := { s with pos :=
  { s.pos with cmdErr := false, stage := .preparing, shadow := bankSections (stageBank s) } }

theorem exec_commitHitless_agrees {s : State} (hcore : coreAnswers s = true) (hstaged : s.pos.stage = .staged)
    (hclosed : s.pos.opening = false) (hagrees : s.pos.hitlessOk = true) (hcheck : recheck (stageBank s) s = none)
    (hstore : storeOk (activeBank s) = true) :
    exec .commitHitless s = .next (preparing s) := by
  have hcheck' : recheck (stageBank (accepted s)) (accepted s) = none := hcheck
  have hstore' : storeOk (activeBank (accepted s)) = true := hstore
  simp only [exec, execCommitHitless, ifCore_answers hcore, posCommitHitless, hstaged, hclosed, hagrees, hcheck',
    hstore', ne_eq, not_true_eq_false, Bool.false_eq_true, Bool.true_eq_false, or_self, Option.orElse_none,
    if_true, if_false]
  rfl

theorem exec_prepareComplete_waits {s : State} (hcore : coreUp s = true) (hpreparing : s.pos.stage = .preparing)
    (hcycle : cycleDefined s = true) :
    exec .prepareComplete s = .next { s with pos := { s.pos with stage := .swapWait } } := by
  simp only [exec, execPrepareComplete, hcore, hpreparing, hcycle, BEq.rfl, Bool.and_self, if_true]

/-- Settles O37: a verification ends one way or the other, and each command does what its stage allows. -/
theorem stagingCommands : Obligations.StagingCommands := by
  unfold Obligations.StagingCommands
  intro s
  refine ⟨fun ue hcore hverifying => verifyComplete_decides hcore hverifying, fun hcore hstaged => ?abort,
    fun hcore hempty c hc => ?refused, fun hcore hstaged hclosed hagrees hcheck hstore => ?hitless,
    exec_prepareComplete_waits⟩
  case abort =>
    obtain ⟨p, hclear, hstage, -, htables, -, hbank, hother⟩ := clearStage_spec (accepted s)
    have hexec := exec_abort_staged hcore hstaged
    rw [hclear] at hexec
    exact ⟨_, hexec, frame_pos s p, hstage, hbank, hother, htables⟩
  case refused =>
    exact ⟨_, exec_stagingCommand_empty hcore hempty hc, frame_pos s _, rfl, rfl, hempty, rfl⟩
  case hitless =>
    exact ⟨_, exec_commitHitless_agrees hcore hstaged hclosed hagrees hcheck hstore, frame_pos s _, rfl⟩

/-! ### Openings (R151 to R158, R168) -/

/-- What an Opening shows from its start on: the outputs in their fallback states, the counters of the ports and of the
routes at zero, and no message on the board. -/
def Opens (t : State) : Prop :=
  t.pos.opening = true ∧ t.pos.running = false ∧ t.pos.active = true ∧ t.pos.fallbackApplied = true ∧
    t.pos.restartPending = false ∧ (∀ p, p < 9 → (ethAt p t).cnt = List.replicate 16 0) ∧
    t.rte.cnts = [] ∧ t.cls.msgs = [] ∧ t.hp.held = []

/-- An Opening takes the tables and the fallback states of the active bank. -/
theorem startOpening_opens (reopen : Bool) {s : State} (hqueue : s.xb.queue = []) (hcur : s.xb.cur = none)
    (hactive : s.pos.active = true) :
    Opens (startOpening reopen s) ∧ (startOpening reopen s).pos.activeBank = s.pos.activeBank ∧
      (startOpening reopen s).pos.tables = bankSections (activeBank s) ∧
      (startOpening reopen s).pos.fallback = bodyIn tyFallback (bankSections (activeBank s)) := by
  obtain ⟨hopening, hrunning, hkept, hfallback, hpending, hports, hroutes, hmsgs, hheld, hbank⟩ :=
    opening_fields reopen s hqueue hcur
  exact ⟨⟨hopening, hrunning, hkept.trans hactive, hfallback, hpending, hports, hroutes, hmsgs, hheld⟩, hbank⟩

/-- The staged image is the active one, and the bank active before is EMPTY. -/
def promoteStaged (s : State) : State :=
  let t := setPosBank (!stageIsB s) .empty (accepted s)
  { t with pos := { t.pos with active := true, activeBank := stageIsB s, stage := .committing, loadOffset := 0 } }

theorem activeBank_promoteStaged (s : State) : activeBank (promoteStaged s) = stageBank s := by
  cases h : stageIsB s <;> simp [activeBank, promoteStaged, stageBank, posBank, setPosBank, accepted, h]

theorem xb_promoteStaged (s : State) : (promoteStaged s).xb = s.xb := by
  obtain ⟨p, hset, -⟩ := setPosBank_frame (!stageIsB s) .empty (accepted s)
  simp only [promoteStaged, hset]
  rfl

theorem exec_commitFull_staged {s : State} (hcore : coreAnswers s = true) (hstaged : s.pos.stage = .staged)
    (hclosed : s.pos.opening = false) (hcheck : recheck (stageBank s) s = none) :
    exec .commitFull s = .next (startOpening s.pos.active (promoteStaged s)) := by
  have hcheck' : recheck (stageBank (accepted s)) (accepted s) = none := hcheck
  simp only [exec, execCommitFull, ifCore_answers hcore, posCommitFull, hstaged, hclosed, hcheck', ne_eq,
    not_true_eq_false, Bool.false_eq_true, or_self, if_false]
  rfl

theorem reopenActive_checked {s : State} (hcheck : recheck (activeBank s) s = none) :
    reopenActive s = startOpening false s := by
  simp only [reopenActive, hcheck]

theorem exec_restartActive_pending {s : State} (hcore : coreAnswers s = true) (hpending : s.pos.restartPending = true)
    (hcheck : recheck (activeBank s) s = none) : exec .restartActive s = .next (startOpening false (accepted s)) := by
  have hcheck' : recheck (activeBank (accepted s)) (accepted s) = none := hcheck
  simp only [exec, execRestartActive, ifCore_answers hcore, posRestart, hpending, reopenActive_checked hcheck', if_true]

theorem exec_autoRestartActive_held {s : State} (hcore : coreUp s = true) (hactive : s.pos.active = true)
    (hstopped : s.pos.running = false) (hclosed : s.pos.opening = false) (hpending : s.pos.restartPending = false)
    (hasks : restartAfterReset s = true) (hcheck : recheck (activeBank s) s = none) :
    exec .autoRestartActive s = .next (startOpening false s) := by
  simp only [exec, execAutoRestartActive, hcore, hactive, hstopped, hclosed, hpending, hasks,
    reopenActive_checked hcheck, Bool.not_false, Bool.and_self, if_true]

/-- Settles O38: commits and restarts start an Opening of the active bank; the laws of its completion and of CLOSE give
the rest. -/
theorem commitOpensPosition : Obligations.CommitOpensPosition := by
  unfold Obligations.CommitOpensPosition
  intro s hqueue hcur opens
  refine ⟨fun hcore hstaged hclosed hcheck => ?commit, fun hcore hpending hactive hcheck => ?restart,
    fun hcore hactive hstopped hclosed hpending hasks hcheck => ?auto, open_done s, close_done s hqueue hcur⟩
  case commit =>
    have hxb := xb_promoteStaged s
    obtain ⟨hopens, hbank, htables, hfallback⟩ :=
      startOpening_opens s.pos.active (s := promoteStaged s) (by rw [hxb, hqueue]) (by rw [hxb, hcur]) rfl
    rw [activeBank_promoteStaged] at htables hfallback
    exact ⟨_, exec_commitFull_staged hcore hstaged hclosed hcheck, hopens, hbank, htables, hfallback⟩
  case restart =>
    obtain ⟨hopens, -, htables, -⟩ := startOpening_opens false (s := accepted s) hqueue hcur hactive
    exact ⟨_, exec_restartActive_pending hcore hpending hcheck, hopens, htables⟩
  case auto =>
    obtain ⟨hopens, -, htables, -⟩ := startOpening_opens false hqueue hcur hactive
    exact ⟨_, exec_autoRestartActive_held hcore hactive hstopped hclosed hpending hasks hcheck, hopens, htables⟩

end Sys2Proof.Proofs.Positions
end

section
/-!
The time base: one addition to device time, the commands of Table 4-2, ownership, captures and the entry of the PPS loop
into HOLDOVER. The arithmetic of an addition and of a step is in Sys2Proof/Laws/Time.lean.
-/

namespace Sys2Proof.Proofs.TimeBase

open Sys2Proof.Machine Sys2Proof.Safety Sys2Proof.Laws Sys2Proof.Proofs.Positions

theorem frame_refl (parts : List Part) (s : State) : Frame parts s s := by
  intro part _
  cases part <;> rfl

theorem frame_tmb_ptp (s : State) (b : TmbBlk) (p : PtpBlk) : Frame [.tmb, .ptp] s { s with tmb := b, ptp := p } := by
  intro part hpart
  cases part <;> simp [Agree] at hpart ⊢

theorem frame_free_tmb_ptp (s : State) (n : Nat) (b : TmbBlk) (p : PtpBlk) :
    Frame [.free, .tmb, .ptp] s { s with free := n, tmb := b, ptp := p } := by
  intro part hpart
  cases part <;> simp [Agree] at hpart ⊢

theorem frame_tmb_evt (s : State) (b : TmbBlk) (v : EvtBlk) : Frame [.tmb, .evt] s { s with tmb := b, evt := v } := by
  intro part hpart
  cases part <;> simp [Agree] at hpart ⊢

/-! ### A clock edge (R174, R177, R187, R225) -/

theorem addTime_slew (k : Nat) (b : TmbBlk) : (addTime k b).slew = slewAfter (slewPart k b) b.slew := rfl

/-- How many additions one edge stands for: ten in SEAL, where REFCLK runs. -/
def edgeAdds (s : State) : Nat := if inSeal s then 10 else 1

/-- While the time base runs, an edge is one addition, after which the comparators are evaluated. -/
theorem tick_eq_addTime {s : State} (hruns : timeRuns s = true) :
    ∃ cs, tick s = { s with tmb := { addTime (edgeAdds s) s.tmb with cmps := cs } } := by
  cases hseal : inSeal s with
  | false => exact ⟨_, by simp only [tick, edgeAdds, hruns, hseal, if_true]; rfl⟩
  | true => exact ⟨_, by simp only [tick, edgeAdds, hruns, hseal, if_true]; rfl⟩

theorem tick_stopped {s : State} (hstopped : timeRuns s = false) : tick s = s := by
  simp [tick, hstopped]

theorem frame_tick (s : State) : Frame [.tmb] s (tick s) := by
  cases hruns : timeRuns s with
  | false => rw [tick_stopped hruns]; exact frame_refl _ s
  | true =>
    obtain ⟨cs, htick⟩ := tick_eq_addTime hruns
    rw [htick]
    exact frameTmb s _

theorem step_idle {s : State} (hidle : s.pending = []) : step s = .next (tick s) := by
  simp only [step, hidle]

/-- Settles O2: an idle step is one edge, which touches the time base alone. -/
theorem idleStepIsOneTick : Obligations.IdleStepIsOneTick := by
  unfold Obligations.IdleStepIsOneTick
  intro s hidle
  refine ⟨tick s, step_idle hidle, frame_tick s, tick_stopped, fun hruns hcore => ?_⟩
  obtain ⟨cs, htick⟩ := tick_eq_addTime hruns
  rw [htick]
  simp [edgeAdds, hcore]

/-- Device time does not depend on the comparators. -/
theorem deviceTime_cmps (s : State) (b : TmbBlk) (cs : List Cmp) :
    deviceTime { s with tmb := { b with cmps := cs } } = deviceTime { s with tmb := b } := rfl

/-- `t` is `s` after `k` addends and the slew's share of them, and nothing but the time base differs. -/
def Adds (k : Nat) (s t : State) : Prop :=
  Frame [.tmb] s t ∧ t.tmb.ns.toNat < 1000000000 ∧
    ((deviceTime t : Int) - deviceTime s - (k * s.tmb.addend.toNat * slewUnit : Nat) - slewShare k s) %
      (2 ^ 48 * secUnits : Nat) = 0 ∧
    t.tmb.localCnt = s.tmb.localCnt + BitVec.ofNat 64 k

theorem timeFits_of_inv {s : State} (hI : Inv s) : TimeFits s.tmb.ns s.tmb.sub s.tmb.addend s.tmb.slew := by
  obtain ⟨-, -, -, -, -, -, -, -, hfits⟩ := hI
  exact hfits

/-- One edge adds, and carries at most one second. -/
theorem tick_adds {s : State} (hI : Inv s) (hruns : timeRuns s = true) :
    Adds (edgeAdds s) s (tick s) ∧
      ((tick s).tmb.secs = s.tmb.secs ∨ (tick s).tmb.secs = s.tmb.secs + 1) := by
  have hten : edgeAdds s ≤ 10 := by unfold edgeAdds; split <;> decide
  obtain ⟨hns, htime, hsecs⟩ := addTime_total s (edgeAdds s) (timeFits_of_inv hI) hten
  have hframe := frame_tick s
  obtain ⟨cs, htick⟩ := tick_eq_addTime hruns
  rw [htick] at hframe ⊢
  exact ⟨⟨hframe, hns, by rw [deviceTime_cmps]; exact htime, addTime_localCnt _ _⟩, hsecs⟩

theorem exec_secondsCarry_carries {s : State} (hruns : timeRuns s = true)
    (hcarry : (tick s).tmb.secs ≠ s.tmb.secs) : exec .secondsCarry s = .next (tick s) := by
  simp [exec, execSecondsCarry, hruns, hcarry]

/-- A slew of which no more is left than one edge applies ends with that edge. -/
theorem slewPart_last {k : Nat} {b : TmbBlk} {w : Slew} (hslew : b.slew = some w)
    (hlast : w.remain ≤ k * b.addend.toNat * w.ppm) : slewPart k b = w.remain := by
  simp only [slewPart, hslew, Nat.min_eq_left hlast]

theorem exec_slewEnd_last {s : State} {w : Slew} (hruns : timeRuns s = true) (hslew : s.tmb.slew = some w)
    (hlast : w.remain ≤ edgeAdds s * s.tmb.addend.toNat * w.ppm) :
    exec .slewEnd s = .next (tick s) ∧ (tick s).tmb.slew = none := by
  have hpart := slewPart_last hslew hlast
  have hends : slewEnds s = true := by
    unfold edgeAdds at hpart
    simp only [slewEnds, hslew, hpart, Nat.le_refl, decide_true]
  obtain ⟨cs, htick⟩ := tick_eq_addTime hruns
  refine ⟨by simp only [exec, execSlewEnd, hruns, hends, Bool.and_self, if_true], ?_⟩
  rw [htick]
  change (addTime _ _).slew = none
  simp only [addTime_slew, hpart, hslew, slewAfter, Nat.le_refl, if_true]

/-- Settles O20: the idle step, SECONDS_CARRY and SLEW_END are one and the same edge. -/
theorem timeBaseAdds : Obligations.TimeBaseAdds := by
  unfold Obligations.TimeBaseAdds
  intro s k hI hruns hk after
  obtain rfl : k = edgeAdds s := hk
  obtain ⟨hadds, hsecs⟩ := tick_adds hI hruns
  refine ⟨fun hidle => ⟨_, step_idle hidle, hadds⟩, fun hcarry => ?carry, fun w hslew hlast => ?slew⟩
  case carry =>
    exact ⟨_, exec_secondsCarry_carries hruns hcarry, hadds, hsecs.resolve_left hcarry⟩
  case slew =>
    obtain ⟨hexec, hended⟩ := exec_slewEnd_last hruns hslew hlast
    exact ⟨_, hexec, hadds, hended⟩

/-! ### Commands (Table 4-2) -/

/-- Settles O21: each of the five commands asks for the host as owner first. -/
theorem timeCommandsNeedHost : Obligations.TimeCommandsNeedHost := by
  unfold Obligations.TimeCommandsNeedHost
  intro s hcore howner c hc
  simp only [List.mem_cons, List.not_mem_nil, or_false] at hc
  obtain rfl | rfl | rfl | rfl | rfl := hc
  · simp only [exec, execSet, ifCore_answers hcore, tmbSet, howner, false_and, if_false, tmbCmdErr]
  · simp only [exec, execStep, ifCore_answers hcore, tmbStep, howner, false_and, if_false, tmbCmdErr]
  · simp only [exec, execSlew, ifCore_answers hcore, tmbSlew, howner, false_and, if_false, tmbCmdErr]
  · simp only [exec, execSlewAbort, ifCore_answers hcore, tmbSlewAbort, howner, if_false, tmbCmdErr]
  · simp only [exec, execRate, ifCore_answers hcore, tmbRate, howner, if_false, tmbCmdErr]

/-- The slew of a signed word of ns that is not zero. -/
theorem slewTime_word {d : Word} (ppm : Nat) (s : State) (hd : d ≠ 0) :
    slewTime d.toInt ppm s = { s with tmb := { s.tmb with
      slew := some { neg := d.msb, ppm, remain := d.toInt.natAbs * 4294967296 * slewUnit } } } := by
  have hint : d.toInt ≠ 0 := fun h => hd (BitVec.toInt_inj.1 (by simpa using h))
  have hneg : decide (d.toInt < 0) = d.msb := by rw [← BitVec.msb_eq_toInt]
  simp only [slewTime, hint, hneg, if_false]

theorem exec_slew_host {s : State} (hcore : coreAnswers s = true) (hhost : s.tmb.owner = 0)
    (hmin : 1 ≤ s.tmb.slewRate.toNat) (hmax : s.tmb.slewRate.toNat ≤ 500) (hns : s.tmb.slewNs ≠ 0) :
    ∃ p, exec .slew s = .next { s with ptp := p, tmb := { s.tmb with
      slew := some { neg := s.tmb.slewNs.msb, ppm := s.tmb.slewRate.toNat,
                     remain := s.tmb.slewNs.toInt.natAbs * 4294967296 * slewUnit } } } := by
  have hslew : tmbSlew s = slewTime s.tmb.slewNs.toInt s.tmb.slewRate.toNat (dropCastleSlew s) :=
    if_pos ⟨hhost, hmin, hmax⟩
  refine ⟨(dropCastleSlew s).ptp, ?_⟩
  simp only [exec, execSlew, ifCore_answers hcore, hslew, slewTime_word _ _ hns]
  rfl

/-- Settles O22: SNAPSHOT and SET_SEC_AT_PPS depend on the owner only as R179 says, and a slew takes the place of one in
progress. -/
theorem snapshotAndSlew : Obligations.SnapshotAndSlew := by
  unfold Obligations.SnapshotAndSlew
  intro s hcore
  refine ⟨?snapshot, fun hhost hmin hmax hns => ?slew, fun hhost => ?abort, fun hpps => ?atPps, fun hother => ?refused⟩
  case snapshot => simp only [exec, execSnapshot, ifCore_answers hcore, tmbSnapshot]
  case slew =>
    obtain ⟨p, hexec⟩ := exec_slew_host hcore hhost hmin hmax hns
    exact ⟨_, hexec, frame_tmb_ptp s _ p, rfl⟩
  case abort => simp only [exec, execSlewAbort, ifCore_answers hcore, tmbSlewAbort, hhost, if_true]
  case atPps => simp only [exec, execSetSecAtPps, ifCore_answers hcore, tmbSetSecAtPps, hpps, if_true]
  case refused => simp only [exec, execSetSecAtPps, ifCore_answers hcore, tmbSetSecAtPps, hother, if_false, tmbCmdErr]

/-! ### SET, STEP and RATE (R184 to R186) -/

/-- SET and STEP load device time behind the addition of their cycle; the comparators follow. -/
theorem setTime_eq (secs : BitVec 48) (ns : Nat) (s : State) :
    ∃ cs, setTime secs ns s = { s with tmb := { addTime 1 s.tmb with
      secs, ns := BitVec.ofNat 30 ns, frac := 0, sub := 0, cmps := cs } } := ⟨_, rfl⟩

theorem stepTime_eq (d : Int) (s : State) :
    ∃ cs, stepTime d s = { s with tmb := { addTime 1 s.tmb with
      secs := (addTime 1 s.tmb).secs + BitVec.ofInt 48 ((((addTime 1 s.tmb).ns.toNat : Int) + d) / 1000000000)
      ns := BitVec.ofNat 30 ((((addTime 1 s.tmb).ns.toNat : Int) + d) % 1000000000).toNat
      cmps := cs } } := ⟨_, rfl⟩

/-- Seconds and nanoseconds moved by a signed number of ns: the nanoseconds stay below one second, and the whole moves by
that number, modulo 2^48 seconds. -/
theorem moved_by (secs : BitVec 48) (ns : BitVec 30) (d : Int) :
    let x := (ns.toNat : Int) + d
    let secs' := secs + BitVec.ofInt 48 (x / 1000000000)
    let ns' := BitVec.ofNat 30 (x % 1000000000).toNat
    ns'.toNat < 1000000000 ∧
      (((secs'.toNat * 1000000000 + ns'.toNat : Nat) : Int) - (secs.toNat * 1000000000 + ns.toNat : Nat) - d) %
        (2 ^ 48 * 1000000000) = 0 := by
  intro x secs' ns'
  have hns : ns'.toNat = (x % 1000000000).toNat := by
    rw [BitVec.toNat_ofNat]
    omega
  refine ⟨by omega, ?_⟩
  have hsecs : secs'.toNat = (secs.toNat + (x / 1000000000 % (2 ^ 48 : Nat)).toNat) % 2 ^ 48 := by
    rw [BitVec.toNat_add, BitVec.toNat_ofInt]
  rw [hsecs, hns]
  exact step_mod secs.toNat ns.toNat (2 ^ 48) d (by decide)

/-- Settles O23: SET and STEP act behind the addition of their cycle, RATE before it. -/
theorem setStepAndRate : Obligations.SetStepAndRate := by
  unfold Obligations.SetStepAndRate
  intro s hcore hhost next
  refine ⟨fun hlegal => ?set, fun hlow hhigh hnext => ?step, ?rate⟩
  case set =>
    obtain ⟨cs, hset⟩ := setTime_eq s.tmb.setS s.tmb.setNs.toNat s
    have hexec : exec .set s = .next (setTime s.tmb.setS s.tmb.setNs.toNat s) := by
      simp only [exec, execSet, ifCore_answers hcore, tmbSet, hhost, hlegal, and_self, if_true]
    rw [hset] at hexec
    exact ⟨_, hexec, frameTmb s _, rfl, by simp, rfl, rfl, rfl⟩
  case step =>
    obtain ⟨cs, hstep⟩ := stepTime_eq (s.tmb.stepS.toInt * 1000000000 + s.tmb.stepNs.toInt) s
    have hexec : exec .step s = .next (stepTime (s.tmb.stepS.toInt * 1000000000 + s.tmb.stepNs.toInt) s) := by
      simp only [exec, execStep, ifCore_answers hcore, tmbStep, hhost, hlow, hhigh, and_self, if_true]
    rw [hstep] at hexec
    obtain ⟨hns, hmoved⟩ := moved_by next.secs next.ns (s.tmb.stepS.toInt * 1000000000 + s.tmb.stepNs.toInt)
    exact ⟨_, hexec, frameTmb s _, hns, hmoved, rfl, rfl⟩
  case rate =>
    have hexec : exec .rate s = .next (coreCycle (loadAddend s.tmb.rate s)) := by
      simp only [exec, execRate, ifCore_answers hcore, tmbRate, hhost, if_true]
    exact ⟨_, hexec, frameTmb s _, rfl, rfl⟩

/-! ### Ownership (R181, R182) -/

/-- A change of owner draws a free value, and keeps device time, the addend and a slew in progress. -/
theorem setOwner_spec (o : BitVec 2) (s : State) :
    ∃ n b p, setOwner o s = { s with free := n, tmb := b, ptp := p } ∧ b.owner = o ∧ b.secs = s.tmb.secs ∧
      b.ns = s.tmb.ns ∧ b.frac = s.tmb.frac ∧ b.addend = s.tmb.addend ∧ b.slew = s.tmb.slew ∧
      b.localCnt = s.tmb.localCnt ∧ b.cmps = s.tmb.cmps := by
  by_cases hsame : o = s.tmb.owner
  · exact ⟨s.free, s.tmb, s.ptp, by simp only [setOwner, hsame, if_true], hsame.symm, rfl, rfl, rfl, rfl, rfl, rfl, rfl⟩
  · refine ⟨_, _, _, if_neg hsame, ?_⟩
    exact ⟨rfl, rfl, rfl, rfl, rfl, rfl, rfl, rfl⟩

/-- Is a write of OWNER legal (R181)? -/
def OwnerLegal (o : BitVec 2) (s : State) : Prop :=
  o = 0 ∨ (o = 1 ∧ s.pos.active = true ∧ timeRole s ≠ 0) ∨ (o = 2 ∧ s.pos.active = true ∧ ppsInputDefined s = true)

/-- The model refuses exactly the values that are not legal. -/
theorem ownerRefused_iff (o : BitVec 2) (s : State) :
    (o = 3 ∨ (o = 1 ∧ (s.pos.active = false ∨ timeRole s = 0)) ∨
      (o = 2 ∧ (s.pos.active = false ∨ ppsInputDefined s = false))) ↔ ¬ OwnerLegal o s := by
  have hvalues : o = 0 ∨ o = 1 ∨ o = 2 ∨ o = 3 := by
    clear s
    revert o
    decide
  obtain rfl | rfl | rfl | rfl := hvalues
  · simp [OwnerLegal]
  · by_cases hactive : s.pos.active = true <;> simp [OwnerLegal, hactive]
  · by_cases hactive : s.pos.active = true <;> simp [OwnerLegal, hactive]
  · simp [OwnerLegal]

theorem exec_ownerWrite_illegal {o : BitVec 2} {s : State} (hcore : coreAnswers s = true) (hbad : ¬ OwnerLegal o s) :
    exec (.ownerWrite o) s = .next (tmbCmdErr s) := by
  simp only [exec, execOwnerWrite, ifCore_answers hcore, writeOwner, if_pos ((ownerRefused_iff o s).2 hbad)]

/-- A legal write changes the owner; that to PTP also clears TIME_SET. -/
theorem exec_ownerWrite_legal {o : BitVec 2} {s : State} (hcore : coreAnswers s = true) (hgood : OwnerLegal o s) :
    ∃ p, exec (.ownerWrite o) s = .next { setOwner o s with ptp := p } := by
  have hlegal := mt (ownerRefused_iff o s).1 (not_not_intro hgood)
  simp only [exec, execOwnerWrite, ifCore_answers hcore, writeOwner, if_neg hlegal]
  by_cases hptp : o = 1
  · exact ⟨_, by rw [if_pos hptp]⟩
  · exact ⟨_, by rw [if_neg hptp]⟩

/-- Settles O24: a legal write is a change of owner. -/
theorem ownerWriteKeepsTime : Obligations.OwnerWriteKeepsTime := by
  unfold Obligations.OwnerWriteKeepsTime
  intro s o hcore legal
  refine ⟨fun hgood => ?_, fun hbad => exec_ownerWrite_illegal hcore hbad⟩
  obtain ⟨p, hexec⟩ := exec_ownerWrite_legal hcore hgood
  obtain ⟨n, b, q, hset, hkept⟩ := setOwner_spec o s
  rw [hset] at hexec
  exact ⟨_, hexec, frame_free_tmb_ptp s n b p, hkept⟩

/-! ### Captures (R213, R215) -/

/-- A picked edge at an input that does not discipline the PPS loop is recorded, and does nothing else. -/
theorem exec_captureEdge_recorded {s : State} {n : Fin 8} {rising : Bool} (age : Nat) (hruns : capturesRun s = true)
    (hpicked : (capAt n s).edge = 3 ∨ (capAt n s).edge = (if rising then 1 else 2))
    (hpps : ¬ (s.tmb.owner = 2 ∧ s.tmb.pps.input.toNat = n.val)) :
    exec (.captureEdge n rising age) s = .next (recordEdge n
      { rising, ns := (stampAgo age s).ns, secs := (stampAgo age s).secs.setWidth 32 } s) := by
  have hedge : ((capAt n s).edge == 3 || (capAt n s).edge == (if rising then 1 else 2)) = true := by
    simpa using hpicked
  have hloop : ¬ (s.tmb.owner = 2 ∧ s.tmb.pps.input.toNat = n.val ∧ rising = true) :=
    fun ⟨howner, hinput, _⟩ => hpps ⟨howner, hinput⟩
  simp only [exec, execCaptureEdge, hruns, captureEdge, hedge, if_true, if_neg hloop]

theorem recordEdge_room {n : Nat} {s : State} (e : CapEntry) (hroom : (capAt n s).fifo.length < 16) :
    recordEdge n e s = updCap n (fun k => { k with fifo := k.fifo ++ [e] }) s := by
  simp only [recordEdge, hroom, if_true]

/-- An edge at a full FIFO drops the oldest entry and raises EVT_TMB_CAP_OVF. -/
theorem recordEdge_full {n : Nat} {s : State} (e : CapEntry) (hfull : 16 ≤ (capAt n s).fifo.length) :
    let kept := updCap n (fun k => { k with fifo := k.fifo.drop 1 ++ [e], ovf := true }) s
    recordEdge n e s = raiseAt .tmbCapOvf 0 (BitVec.ofNat 32 n) kept ∧
      ∃ v, recordEdge n e s = { kept with evt := v } := by
  intro kept
  have hrecord : recordEdge n e s = raiseAt .tmbCapOvf 0 (BitVec.ofNat 32 n) kept := by
    simp only [recordEdge, Nat.not_lt.2 hfull, if_false, raise, kept]
  obtain ⟨q, o, c, hraise⟩ := raiseAt_evt .tmbCapOvf 0 (BitVec.ofNat 32 n) kept
  exact ⟨hrecord, _, hrecord.trans hraise⟩

/-- Settles O26: the recorded edge has room, or takes that of the oldest one. -/
theorem captureRecordsEdge : Obligations.CaptureRecordsEdge := by
  unfold Obligations.CaptureRecordsEdge
  intro s n rising age hI hruns hpicked hpps e
  have hexec := exec_captureEdge_recorded age hruns hpicked hpps
  refine ⟨fun hroom => ?room, fun hfull => ?full⟩
  case room =>
    rw [hexec, recordEdge_room e hroom]
    rfl
  case full =>
    obtain ⟨hraise, v, hblocks⟩ := recordEdge_full e hfull
    refine ⟨_, hexec, ?_, ?_, ?_⟩
    · rw [hblocks]; exact frame_tmb_evt s _ v
    · rw [hblocks]; rfl
    · rw [hraise]
      exact raiseAt_reported _ _ _ ⟨rfl, rfl⟩ rfl (fun _ => setBit_self _ _ (by decide))

/-! ### PPS holdover (R221) -/

/-- The loop in HOLDOVER, with the addend of the mean. -/
def heldOver (s : State) : State :=
  loadAddend (rateAvg s.tmb) { s with tmb := { s.tmb with
    holdover := true, pps := { s.tmb.pps with st := 3, bad := 0, goodLock := 0 } } }

theorem exec_ppsHoldover_due {s : State} (hruns : timeRuns s = true) (howner : s.tmb.owner = 2)
    (hlocked : s.tmb.pps.st = 2) (hlate : s.tmb.pps.lastAt + 750000000 ≤ localNow s) :
    exec .ppsHoldover s = .next (raiseAt .holdover 0 2 (heldOver s)) := by
  have hdue : (timeRuns s && s.tmb.owner == 2 && s.tmb.pps.st == 2 && due (s.tmb.pps.lastAt + 750000000) s) = true := by
    simp [hruns, howner, hlocked, due, hlate]
  have hdatum : s.tmb.owner.setWidth 32 = (2 : Word) := by rw [howner]; rfl
  simp only [exec, execPpsHoldover, if_pos hdue, hdatum]
  rfl

/-- Settles O27: the loop is LOCKED and late, so its holdover starts and is reported. -/
theorem ppsHoldoverEntry : Obligations.PpsHoldoverEntry := by
  unfold Obligations.PpsHoldoverEntry
  intro s hruns howner hlocked hlate
  obtain ⟨q, o, n, hraise⟩ := raiseAt_evt .holdover 0 2 (heldOver s)
  have hreport : Reported .holdover 0 2 s (raiseAt .holdover 0 2 (heldOver s)) :=
    raiseAt_reported _ _ _ ⟨rfl, rfl⟩ rfl (fun _ => setBit_self _ _ (by decide))
  have hexec := exec_ppsHoldover_due hruns howner hlocked hlate
  rw [hraise] at hexec hreport
  exact ⟨_, hexec, frame_tmb_evt s _ _, rfl, rfl, rfl, rfl, rfl, rfl, hreport⟩

end Sys2Proof.Proofs.TimeBase
end

section
/-!
The moves of the ladder: HOLD, ADJOURN and SEAL are reached one after the other, each with the steps of Table 14-6, and
an exit returns to PLAY with those of Table 14-7. What reaching a state leaves is in Sys2Proof/Laws/PowerUp.lean.
-/

namespace Sys2Proof.Proofs.LadderMoves

open Sys2Proof.Machine Sys2Proof.Safety Sys2Proof.Laws

/-! ### Entries (Table 14-6, R210, R691, R800) -/

section Entry

variable {s : State} (hcore : coreUp s = true) (hentering : s.pwr.phase = .entering)
include hcore hentering

theorem exec_holdReached (hplay : s.pwr.ladder = .play) : exec .holdReached s = .next (reachHold s) := by
  simp only [exec, execHoldReached, hcore, hentering, hplay, BEq.rfl, Bool.and_self, if_true]

theorem exec_adjournReached (hhold : s.pwr.ladder = .hold) (htarget : 2 ≤ targetCode s)
    (hdrained : bridgeDrained s = true) : exec .adjournReached s = .next (reachAdjourn s) := by
  have hgoes : goesTo .adjourn s = true := by simp [goesTo, hentering, Ladder.code, htarget]
  simp only [exec, execAdjournReached, hcore, hhold, hgoes, hdrained, BEq.rfl, Bool.and_self, if_true]

theorem exec_sealReached (hadjourn : s.pwr.ladder = .adjourn) (htarget : s.pwr.target = some .seal) :
    exec .sealReached s = .next (reachSeal s) := by
  have hgoes : goesTo .seal s = true := by simp [goesTo, hentering, targetCode, htarget]
  simp only [exec, execSealReached, hcore, hadjourn, hgoes, BEq.rfl, Bool.and_self, if_true]

end Entry

/-- The last step of an entry to HOLD rests both converter groups and empties the prefetch buffers. -/
theorem reachHold_stops (s : State) :
    (reachHold s).pwr.ladder = .hold ∧ (reachHold s).cnv.groupA.running = false ∧
      (reachHold s).cnv.groupB.running = false ∧ (reachHold s).xb.bufs = [] := by
  unfold reachHold
  extract_lets s1 s2 s3
  obtain ⟨hladder, hcnv, hxb, -⟩ := reach_fields .hold { s3 with xb := { s3.xb with bufs := [] } }
  rw [hladder, hcnv, hxb]
  exact ⟨rfl, rfl, rfl, rfl⟩

theorem reachAdjourn_freezes (s : State) :
    (reachAdjourn s).pwr.ladder = .adjourn ∧ (reachAdjourn s).xb.frozenAt = some (localNow s) := by
  unfold reachAdjourn
  extract_lets s1 s2
  obtain ⟨hladder, -, hxb, -⟩ := reach_fields .adjourn { s2 with xb := { s2.xb with frozenAt := some (localNow s) } }
  rw [hladder, hxb]
  exact ⟨rfl, rfl⟩

/-- A state of an entry that is its target ends it; causes registered before start the exit in the same cycle (R809). -/
theorem reachState_target {l : Ladder} {s : State} (htarget : s.pwr.target = some l) :
    (s.pwr.reg.causes = 0 → (reachState l s).pwr.phase = .steady) ∧
      (s.pwr.reg.causes ≠ 0 → (reachState l s).pwr.phase = .exiting) := by
  refine ⟨fun hnone => ?_, fun hsome => ?_⟩
  · simp only [reachState, htarget, hnone, if_true]
  · simp only [reachState, htarget, hsome, if_true, if_false, startExit]

theorem agree_trans {s t u : State} {part : Part} (hst : Agree s t part) (htu : Agree t u part) : Agree s u part := by
  cases part <;> exact Eq.trans htu hst

/-- What SEAL takes before it is reached: the seal of the region, and idle PPSO pins. -/
def sealing (s : State) : State := { s with
  therm := { s.therm with sealCrc := regionCrc s }
  tmb := { s.tmb with ppso := s.tmb.ppso.map (fun p => { p with pulse := none }) } }

theorem frame_sealing (s : State) : Frame [.therm, .tmb] s (sealing s) := by
  intro part hpart
  cases part <;> simp [Agree, sealing] at hpart ⊢

theorem reachSeal_seals (s : State) :
    Frame [.pwr, .therm, .tmb] s (reachSeal s) ∧ (reachSeal s).pwr.ladder = .seal ∧
      (reachSeal s).therm = (sealing s).therm ∧ (reachSeal s).tmb = (sealing s).tmb := by
  obtain ⟨hladder, -, -, hframe⟩ := reach_fields .seal (sealing s)
  refine ⟨fun part hpart => ?_, hladder, hframe .therm rfl, hframe .tmb rfl⟩
  exact agree_trans (frame_sealing s part (by simp_all)) (hframe part (by simp_all))

/-! ### The exit (Table 14-7, R810 to R813) -/

/-- The state at PLAY, before the engines and the bridge go on. -/
def playing (s : State) : State := { s with
  therm := { s.therm with lastExit := exitNs s }
  tmb := if s.pwr.ladder = .seal then { s.tmb with cmps := s.tmb.cmps.map (cmpAfterSeal s.tmb) } else s.tmb
  pwr := { s.pwr with ladder := .play, phase := .steady, target := none, pnr := none, reg := .none } }

/-- The comparators are all of the time base that the return to PLAY touches (R226). -/
theorem playing_time (s : State) : (playing s).tmb.secs = s.tmb.secs ∧ (playing s).tmb.ns = s.tmb.ns := by
  cases hladder : s.pwr.ladder <;> simp [playing, hladder]

/-- The bridge goes on: its own block and the pickup slots are all that moves. -/
theorem unfreezeBridge_blocks (s : State) : ∃ m x, unfreezeBridge s = { s with mgt := m, xb := x } := by
  cases hfrozen : s.xb.frozenAt with
  | none => exact ⟨s.mgt, s.xb, by simp only [unfreezeBridge, hfrozen]⟩
  | some at_ => exact ⟨_, _, by simp only [unfreezeBridge, hfrozen]; rfl⟩

theorem hpLinkBack_stopped {s : State} (hactive : s.pos.active = false) : hpLinkBack s = s := by
  simp [hpLinkBack, hactive]

theorem resumeEngines_stopped {s : State} (hstopped : s.pos.running = false) : resumeEngines s = s := by
  simp [resumeEngines, hstopped]

/-- Without a running Position no card interrupt asserts (R719); the lines are taken over. -/
theorem cardIntsBack_stopped (low : BitVec 8) (is : List Nat) {s : State} (hstopped : s.pos.running = false) :
    ∃ x, is.foldl (cardIntBack low) s = { s with xb := x } := by
  induction is generalizing s with
  | nil => exact ⟨s.xb, rfl⟩
  | cons i is ih =>
    have hboard : boardRuns s = false := by simp [boardRuns, hstopped]
    have hline : cardIntBack low s i = updSlot i (fun k => { k with intLow := low.getLsbD i }) s := by
      simp [cardIntBack, hboard]
    obtain ⟨x, hrest⟩ := ih (s := cardIntBack low s i) (by rw [hline]; exact hstopped)
    exact ⟨x, by rw [List.foldl_cons, hrest, hline]; rfl⟩

/-- The last step of an exit: the queue goes to the log, and EVT_WAKE comes behind it. -/
def logAndWake (s : State) : State :=
  let t := writeLogAll s.evt.queue.length s
  raise .wake (wakeCauseWord t) t

theorem logAndWake_empty {s : State} (hempty : s.evt.queue = []) :
    logAndWake s = raiseAt .wake 0 (wakeCauseWord s) s := by
  simp only [logAndWake, hempty, List.length_nil, writeLogAll, raise]

/-- The steps of an exit in their order. -/
theorem exitDone_eq (low : BitVec 8) (s : State) :
    exitDone low s = logAndWake ((List.range 8).foldl (cardIntBack low) (resumeEngines (unfreezeBridge
      (if (s.pwr.ladder != .hold) = true then hpLinkBack (playing s) else playing s)))) := rfl

/-- Without a Position and with an empty event queue, an exit reports EVT_WAKE on the state at PLAY, in which the bridge
goes on. -/
theorem exitDone_stopped (low : BitVec 8) {s : State} (hstopped : s.pos.running = false) (hactive : s.pos.active = false)
    (hempty : s.evt.queue = []) :
    ∃ m x, exitDone low s = raiseAt .wake 0 (wakeCauseWord s) { playing s with mgt := m, xb := x } := by
  obtain ⟨m, y, hbridge⟩ := unfreezeBridge_blocks (playing s)
  have hlink : (if (s.pwr.ladder != .hold) = true then hpLinkBack (playing s) else playing s) = playing s := by
    rw [hpLinkBack_stopped (s := playing s) hactive, ite_self]
  have hengines : resumeEngines (unfreezeBridge (playing s)) = { playing s with mgt := m, xb := y } := by
    rw [hbridge]
    exact resumeEngines_stopped hstopped
  obtain ⟨x, hlines⟩ := cardIntsBack_stopped low (List.range 8) (s := { playing s with mgt := m, xb := y }) hstopped
  refine ⟨m, x, ?_⟩
  rw [exitDone_eq, hlink, hengines, hlines, logAndWake_empty (s := { playing s with mgt := m, xb := x }) hempty]
  rfl

theorem exec_exitComplete {s : State} (low : BitVec 8) (hcore : coreUp s = true) (hexiting : s.pwr.phase = .exiting) :
    exec (.exitComplete low) s = .next (exitDone low s) := by
  simp only [exec, execExitComplete, hcore, hexiting, BEq.rfl, Bool.and_self, if_true]

/-- Settles O32: the three entries and the exit, each with what its steps leave. -/
theorem ladderMoves : Obligations.LadderMoves := by
  unfold Obligations.LadderMoves
  intro s hcore
  refine ⟨fun hentering hplay => ?hold, fun hentering hhold htarget hdrained => ?adjourn,
    fun hentering hadjourn htarget => ?sealed, fun low hexiting hstopped hactive hempty => ?exit⟩
  case hold => exact ⟨_, exec_holdReached hcore hentering hplay, reachHold_stops s⟩
  case adjourn =>
    exact ⟨_, exec_adjournReached hcore hentering hhold htarget hdrained, reachAdjourn_freezes s⟩
  case sealed =>
    obtain ⟨hframe, hladder, htherm, htmb⟩ := reachSeal_seals s
    obtain ⟨hover, hwoken⟩ := reachState_target (s := sealing s) htarget
    exact ⟨_, exec_sealReached hcore hentering hadjourn htarget, hframe, hladder, hover, hwoken, htherm, htmb⟩
  case exit =>
    obtain ⟨m, x, hdone⟩ := exitDone_stopped low hstopped hactive hempty
    let woken : State := { playing s with mgt := m, xb := x }
    have hreport : Reported .wake 0 (wakeCauseWord s) s (raiseAt .wake 0 (wakeCauseWord s) woken) :=
      raiseAt_reported_every _ _ _ rfl (playing_time s) (fun _ => setBit_self _ _ (by decide))
    have hexec := exec_exitComplete low hcore hexiting
    obtain ⟨q, o, n, hraise⟩ := raiseAt_evt .wake 0 (wakeCauseWord s) woken
    rw [hdone, hraise] at hexec
    rw [hraise] at hreport
    exact ⟨_, hexec, rfl, rfl, rfl, rfl, rfl, rfl, hreport⟩

end Sys2Proof.Proofs.LadderMoves
end

section
/-!
The Timekeeper: the messages that a PTP port sends, and what follows where its requests or its master stay silent. The
queues are in Sys2Proof/Laws/Queues.lean, the decision and the loss of a domain in Sys2Proof/Laws/PtpLoss.lean.
-/

namespace Sys2Proof.Proofs.Timekeeper

open Sys2Proof.Machine Sys2Proof.Safety Sys2Proof.Laws Sys2Proof.Proofs.Board Sys2Proof.Proofs.LadderMoves

/-! ### Frames -/

/-- Two changes in a row touch no more than the parts of either. -/
theorem frame_trans {as bs : List Part} {s t u : State} (hst : Frame as s t) (htu : Frame bs t u) :
    Frame (as ++ bs) s u := by
  intro part hpart
  simp only [List.contains_append, Bool.or_eq_false_iff] at hpart
  exact agree_trans (hst part hpart.1) (htu part hpart.2)

theorem frame_eth_pairs_cls (s : State) (e : List EthPort) (x : List EthPair) (y : ClsBlk) :
    Frame [.eth, .pairs, .cls] s { s with eth := e, pairs := x, cls := y } := by
  intro part hpart
  cases part <;> simp [Agree] at hpart ⊢

theorem frame_free_ptp (s : State) (n : Nat) (b : PtpBlk) : Frame [.free, .ptp] s { s with free := n, ptp := b } := by
  intro part hpart
  cases part <;> simp [Agree] at hpart ⊢

theorem frame_ptp_tmb_evt (s : State) (b : PtpBlk) (x : TmbBlk) (v : EvtBlk) :
    Frame [.ptp, .tmb, .evt] s { s with ptp := b, tmb := x, evt := v } := by
  intro part hpart
  cases part <;> simp [Agree] at hpart ⊢

/-! ### The messages (log entry 25) -/

def pdelayReqMsg (p : Nat) (d : Bool) (s : State) : List Byte :=
  ptpHeader 2 54 (domOf d s).number.toNat 0 (-(asymOf p s)) (portId p s) (portDom p d s).pdelay.seq.toNat 0x7F ++
    List.replicate 20 0

def syncMsg (p : Nat) (d : Bool) (s : State) : List Byte :=
  ptpHeader 0 44 (domOf d s).number.toNat (if (ptpPort p s).oneStep then 0 else 0x0200) 0 (portId p s)
    (portDom p d s).syncSeq.toNat (domOf d s).logSync ++ List.replicate 10 0

/-- What an Announce carries behind its header: 30 bytes of grandmaster data, and a TLV. -/
def announceBody (g : GmData) (tlv : List Byte) : List Byte :=
  List.replicate 10 0 ++ toBE 2 g.utcOffset.toNat ++ [0, g.prio1, g.clockClass, g.accuracy] ++
    toBE 2 g.variance.toNat ++ [g.prio2] ++ toBE 8 g.gmId.toNat ++ toBE 2 g.stepsRemoved.toNat ++ [g.timeSource] ++ tlv

def announceMsg (p : Nat) (d : Bool) (s : State) : List Byte :=
  ptpHeader 11 (64 + (c37Tlv d s).length) (domOf d s).number.toNat (flagField (announced d s).flags) 0 (portId p s)
    (portDom p d s).annSeq.toNat (domOf d s).logAnnounce ++ announceBody (announced d s) (c37Tlv d s)

theorem pdelayReqMsg_fields (p : Nat) (d : Bool) (s : State) :
    (pdelayReqMsg p d s).length = 54 ∧ ptpType (pdelayReqMsg p d s) = 2 ∧
      ptpDomain (pdelayReqMsg p d s) = (domOf d s).number.toNat ∧
      ptpSeq (pdelayReqMsg p d s) = (portDom p d s).pdelay.seq.toNat := by
  obtain ⟨htype, hdomain, hseq, hlen, -⟩ := hdr_fields 2 54 (domOf d s).number.toNat 0 (-(asymOf p s)) (portId p s)
    (portDom p d s).pdelay.seq.toNat 0x7F (List.replicate 20 0) (by decide) (BitVec.isLt _) (BitVec.isLt _)
  exact ⟨by rw [pdelayReqMsg, List.length_append, hlen, List.length_replicate], htype, hdomain, hseq⟩

theorem syncMsg_fields (p : Nat) (d : Bool) (s : State) :
    (syncMsg p d s).length = 44 ∧ ptpType (syncMsg p d s) = 0 ∧
      ptpDomain (syncMsg p d s) = (domOf d s).number.toNat ∧
      ptpSeq (syncMsg p d s) = (portDom p d s).syncSeq.toNat ∧
      ptpTwoStep (syncMsg p d s) = !(ptpPort p s).oneStep := by
  obtain ⟨htype, hdomain, hseq, hlen, hflags⟩ := hdr_fields 0 44 (domOf d s).number.toNat
    (if (ptpPort p s).oneStep then 0 else 0x0200) 0 (portId p s) (portDom p d s).syncSeq.toNat (domOf d s).logSync
    (List.replicate 10 0) (by decide) (BitVec.isLt _) (BitVec.isLt _)
  refine ⟨by rw [syncMsg, List.length_append, hlen, List.length_replicate], htype, hdomain, hseq, ?_⟩
  rw [ptpTwoStep, flagAt, u8, syncMsg, hflags]
  cases (ptpPort p s).oneStep <;> rfl

theorem announceBody_length (g : GmData) (tlv : List Byte) : (announceBody g tlv).length = 30 + tlv.length := by
  simp only [announceBody, List.length_append, List.length_replicate, toBE_length, List.length_cons, List.length_nil]

theorem nth_append_length_add {α : Type} (d : α) (xs ys : List α) (i : Nat) :
    nth d (xs ++ ys) (xs.length + i) = nth d ys i := by
  induction xs with
  | nil => simp
  | cons x xs ih => rw [List.cons_append, List.length_cons, Nat.add_right_comm, nth, ih]

/-- clockClass is the byte 14 behind the header. -/
theorem u8_clockClass (hdr : List Byte) (g : GmData) (tlv : List Byte) (hlen : hdr.length = 34) :
    u8 (hdr ++ announceBody g tlv) 48 = g.clockClass.toNat := by
  have hbody : nth 0 (announceBody g tlv) 14 = g.clockClass := by
    simp [announceBody, toBE, List.replicate, nth]
  have hnth := nth_append_length_add 0 hdr (announceBody g tlv) 14
  rw [hlen] at hnth
  rw [u8, hnth, hbody]

theorem announceMsg_fields (p : Nat) (d : Bool) (s : State) :
    (announceMsg p d s).length = 64 + (c37Tlv d s).length ∧ ptpType (announceMsg p d s) = 11 ∧
      ptpDomain (announceMsg p d s) = (domOf d s).number.toNat ∧
      ptpSeq (announceMsg p d s) = (portDom p d s).annSeq.toNat ∧
      u8 (announceMsg p d s) 48 = (announced d s).clockClass.toNat := by
  obtain ⟨htype, hdomain, hseq, hlen, -⟩ := hdr_fields 11 (64 + (c37Tlv d s).length) (domOf d s).number.toNat
    (flagField (announced d s).flags) 0 (portId p s) (portDom p d s).annSeq.toNat (domOf d s).logAnnounce
    (announceBody (announced d s) (c37Tlv d s)) (by decide) (BitVec.isLt _) (BitVec.isLt _)
  refine ⟨?_, htype, hdomain, hseq, u8_clockClass _ _ _ hlen⟩
  rw [announceMsg, List.length_append, hlen, announceBody_length]
  omega

/-- Only a grandmaster under IEEE C37.238 adds its TLV. -/
theorem c37Tlv_empty {d : Bool} {s : State} (h : s.ptp.profile = false ∨ (domOf d s).parent.isSome = true) :
    c37Tlv d s = [] := by
  obtain hprofile | hparent := h
  · simp [c37Tlv, hprofile]
  · simp [c37Tlv, Option.isSome_iff_ne_none.1 hparent]

/-! ### Sending (R237, R247, R251) -/

theorem inv_updPortDom {s : State} (hI : Inv s) (p : Nat) (d : Bool) (f : PortDom → PortDom) :
    Inv (updPortDom p d f s) := Keeps_inv (updPortDom_keeps (Keeps_refl s)) hI

theorem inv_drawn {s : State} (hI : Inv s) : Inv (drawn s) := Keeps_inv (drawn_keeps (Keeps_refl s)) hI

theorem inv_runBmca {s : State} (hI : Inv s) (d l : Bool) : Inv (runBmca d l s) :=
  Keeps_inv (runBmca_keeps (Keeps_refl s)) hI

theorem port_lt_ptp {s : State} (hI : Inv s) (p : Fin 8) : p.val < s.ptp.ports.length := by
  rw [port_len hI]
  exact p.isLt

theorem portDom_drawn (p : Nat) (d : Bool) (s : State) : portDom p d (drawn s) = portDom p d s := rfl

/-- A PTP frame goes out in class BISHOP where the port forwards and the class has room (log entry 32). -/
theorem ptpFrame_sent {s : State} (hI : Inv s) (p : Fin 8) (index : Nat) (bytes : List Byte) (stamp : Stamp)
    (hroom : Roomy p 2 bytes.length s) :
    Frame [.eth, .pairs, .cls] s (queueOwn .ptp p 2 index bytes stamp [] s) ∧
      Sent .ptp p 2 bytes (queueOwn .ptp p 2 index bytes stamp [] s) := by
  obtain ⟨hfwd, hallot⟩ := hroom
  have hp : p.val ≤ 8 := by omega
  obtain ⟨⟨e, x, y, hblocks⟩, hsent⟩ := queueOwn_sent .ptp p 2 index bytes stamp [] s hp (port_lt_length hI hp)
    (by decide) (by rw [port_queues_length hI]; decide) hfwd hallot
  refine ⟨?_, hsent⟩
  rw [hblocks]
  exact frame_eth_pairs_cls s e x y

theorem sendPdelay_enabled {p : Nat} {d : Bool} {s : State} (hd : domEnabled d s = true) :
    ∃ f, sendPdelay p d s = queueOwn .ptp p 2 (if d then 1 else 0) (ptpFrame true p (pdelayReqMsg p d s) s)
      (stampNow s) [] (updPortDom p d f s) :=
  ⟨_, by simp only [sendPdelay, hd, if_true]; rfl⟩

theorem sendPdelay_disabled {p : Nat} {d : Bool} {s : State} (hd : domEnabled d s = false) : sendPdelay p d s = s := by
  simp [sendPdelay, hd]

theorem pdelayReq_sent {s : State} (hI : Inv s) (p : Fin 8) {d : Bool} (hd : domEnabled d s = true)
    (hroom : Roomy p 2 68 s) (hmac : (slice (portEntry p s) 8 6).length = 6) :
    Frame [.ptp, .eth, .pairs, .cls] s (sendPdelay p d s) ∧
      Sent .ptp p 2 (ptpFrame true p (pdelayReqMsg p d s) s) (sendPdelay p d s) := by
  obtain ⟨f, hsend⟩ := sendPdelay_enabled (p := p) hd
  have hlen : (ptpFrame true p (pdelayReqMsg p d s) s).length = 68 := by
    rw [frame_len _ _ _ _ hmac, (pdelayReqMsg_fields p d s).1]
  obtain ⟨hframe, hsent⟩ := ptpFrame_sent (inv_updPortDom hI p d f) p (if d then 1 else 0)
    (ptpFrame true p (pdelayReqMsg p d s) s) (stampNow s) (by rw [hlen]; exact hroom)
  rw [hsend]
  exact ⟨frame_trans (framePtp s _) hframe, hsent⟩

theorem sync_sent {s : State} (hI : Inv s) (p : Fin 8) (d : Bool) (hroom : Roomy p 2 58 s)
    (hmac : (slice (portEntry p s) 8 6).length = 6) :
    Frame [.ptp, .eth, .pairs, .cls] s (sendSync p d s) ∧
      (portDom p d (sendSync p d s)).syncSeq = (portDom p d s).syncSeq + 1 ∧
      Sent .ptp p 2 (ptpFrame false p (syncMsg p d s) s) (sendSync p d s) := by
  have hlen : (ptpFrame false p (syncMsg p d s) s).length = 58 := by
    rw [frame_len _ _ _ _ hmac, (syncMsg_fields p d s).1]
  obtain ⟨hframe, hsent⟩ := ptpFrame_sent (inv_updPortDom hI p d (fun x => { x with syncSeq := x.syncSeq + 1 })) p
    (if d then 1 else 0) (ptpFrame false p (syncMsg p d s) s) (stampNow s) (by rw [hlen]; exact hroom)
  refine ⟨frame_trans (framePtp s _) hframe, ?_, hsent⟩
  rw [sendSync, portDom_of_ptp (queueOwn_ptp _ _ _ _ _ _ _ _), updPortDom_same _ _ _ _ (port_lt_ptp hI p)]

theorem sendAnnounce_eq (p : Nat) (d : Bool) (s : State) :
    sendAnnounce p d s = queueOwn .ptp p 2 (if d then 1 else 0) (ptpFrame false p (announceMsg p d s) s) (stampNow s) []
      (drawn (drawn (updPortDom p d (fun x => { x with annSeq := x.annSeq + 1 }) s))) := by
  simp only [sendAnnounce, announceMsg, announceBody, List.append_assoc]

theorem announce_sent {s : State} (hI : Inv s) (p : Fin 8) (d : Bool) (htlv : c37Tlv d s = []) (hroom : Roomy p 2 78 s)
    (hmac : (slice (portEntry p s) 8 6).length = 6) :
    Frame [.free, .ptp, .eth, .pairs, .cls] s (sendAnnounce p d s) ∧
      (portDom p d (sendAnnounce p d s)).annSeq = (portDom p d s).annSeq + 1 ∧
      Sent .ptp p 2 (ptpFrame false p (announceMsg p d s) s) (sendAnnounce p d s) := by
  have hlen : (ptpFrame false p (announceMsg p d s) s).length = 78 := by
    rw [frame_len _ _ _ _ hmac, (announceMsg_fields p d s).1, htlv, List.length_nil]
  have hnext : Inv (updPortDom p d (fun x => { x with annSeq := x.annSeq + 1 }) s) := inv_updPortDom hI p d _
  obtain ⟨hframe, hsent⟩ := ptpFrame_sent (inv_drawn (inv_drawn hnext)) p (if d then 1 else 0)
    (ptpFrame false p (announceMsg p d s) s) (stampNow s) (by rw [hlen]; exact hroom)
  rw [sendAnnounce_eq]
  refine ⟨frame_trans (frame_free_ptp s _ _) hframe, ?_, hsent⟩
  rw [portDom_of_ptp (queueOwn_ptp _ _ _ _ _ _ _ _), portDom_drawn, portDom_drawn,
    updPortDom_same _ _ _ _ (port_lt_ptp hI p)]

/-! ### The commands that send -/

theorem exec_pdelayReqTx {s : State} {p : Fin 8} (hruns : ptpRuns s = true) (hrole : pdelayRole s = true)
    (hup : ptpPortUp p s = true) : exec (.pdelayReqTx p) s = .next (sendPdelay p true (sendPdelay p false s)) := by
  simp only [exec, execPdelayReqTx, hruns, hrole, hup, Bool.and_self, if_true]

theorem exec_ptpSyncTx {s : State} {p : Fin 8} {d : Bool} (hruns : ptpRuns s = true) (hup : ptpPortUp p s = true)
    (hd : domEnabled d s = true) (hmaster : (portDom p d s).state = 6) :
    exec (.ptpSyncTx p d) s = .next (sendSync p d s) := by
  simp only [exec, execPtpSyncTx, hruns, hup, hd, hmaster, BEq.rfl, Bool.and_self, if_true]

theorem exec_ptpAnnounceTx {s : State} {p : Fin 8} {d : Bool} (hruns : ptpRuns s = true) (hup : ptpPortUp p s = true)
    (hd : domEnabled d s = true) (hmaster : (portDom p d (runBmca d false s)).state = 6) :
    exec (.ptpAnnounceTx p d) s = .next (sendAnnounce p d (runBmca d false s)) := by
  simp only [exec, execPtpAnnounceTx, hruns, hup, hd, hmaster, Bool.and_self, if_true]

/-- What a Pdelay_Req leaves of its port in the domain: the sequence number is that of the next one, and the response
and the egress instant of this one are still to come (R251). -/
def Requested (k l : PortDom) : Prop :=
  l.pdelay.seq = k.pdelay.seq + 1 ∧ l.pdelay.awaiting = true ∧ l.pdelay.t1 = none

/-- The request in one domain leaves the other one's as it is. -/
theorem sendPdelay_both {s : State} (hI : Inv s) (p : Fin 8) (d : Bool) (hd : domEnabled d s = true) :
    Requested (portDom p d s) (portDom p d (sendPdelay p true (sendPdelay p false s))) := by
  obtain ⟨hports, hrole, hsec, hkeep, hfirst⟩ := sendPdelay_ptp p false s (port_lt_ptp hI p)
  obtain ⟨-, -, -, hkeep', hsecond⟩ := sendPdelay_ptp p true (sendPdelay p false s)
    (by rw [hports]; exact port_lt_ptp hI p)
  cases d with
  | false =>
    rw [hkeep' false (by decide)]
    exact hfirst hd
  | true =>
    have hd' : domEnabled true (sendPdelay p false s) = true := by
      simpa only [domEnabled, hrole, hsec] using hd
    rw [← hkeep true (by decide)]
    exact hsecond hd'

/-- Without the secondary domain, PDELAY_REQ_TX sends one message. -/
theorem sendPdelay_primary {s : State} (hI : Inv s) (p : Fin 8) (hsec : s.ptp.secEn = false) :
    sendPdelay p true (sendPdelay p false s) = sendPdelay p false s := by
  obtain ⟨-, -, hsec', -, -⟩ := sendPdelay_ptp p false s (port_lt_ptp hI p)
  exact sendPdelay_disabled (by simp [domEnabled, hsec', hsec])

theorem domEnabled_primary {s : State} (hrole : pdelayRole s = true) : domEnabled false s = true := by
  obtain ⟨hset, -⟩ : (s.ptp.role != 0) = true ∧ (s.ptp.role != 5) = true := by
    simpa only [pdelayRole, Bool.and_eq_true] using hrole
  simp only [domEnabled, hset, Bool.not_false, Bool.true_or, Bool.and_self]

/-- Settles O45: each message is sent from the state in which its command finds the port, with the fields of its
header. -/
theorem ptpMessagesLeave : Obligations.PtpMessagesLeave := by
  unfold Obligations.PtpMessagesLeave
  intro s p hI hruns hup
  refine ⟨fun hrole => ⟨_, exec_pdelayReqTx hruns hrole hup, fun d hd => ?next, fun hsec hroom hmac => ?request⟩,
    fun d hd hmaster hroom hmac => ?sync, fun d hd => ?announce⟩
  case next => exact sendPdelay_both hI p d hd
  case request =>
    rw [sendPdelay_primary hI p hsec]
    obtain ⟨hframe, hsent⟩ := pdelayReq_sent hI p (domEnabled_primary hrole) hroom hmac
    exact ⟨hframe, _, hsent, (pdelayReqMsg_fields p false s).2⟩
  case sync =>
    obtain ⟨hframe, hseq, hsent⟩ := sync_sent hI p d hroom hmac
    exact ⟨_, exec_ptpSyncTx hruns hup hd hmaster, hframe, hseq, _, hsent, (syncMsg_fields p d s).2⟩
  case announce =>
    intro s1 hmaster hroom hmac htlv hprofile
    have hempty : c37Tlv d s1 = [] := c37Tlv_empty (by rwa [hprofile])
    obtain ⟨hframe, hseq, hsent⟩ := announce_sent (inv_runBmca hI d false) p d hempty hroom hmac
    exact ⟨_, exec_ptpAnnounceTx hruns hup hd hmaster, hframe, hseq, _, hsent, (announceMsg_fields p d s1).2⟩

/-! ### Holdover (R281, R288) -/

/-- The time base in holdover, on the mean of its addends. -/
def holding (s : State) : State :=
  loadAddend (rateAvg s.tmb) { s with
    tmb := { s.tmb with holdover := true }
    ptp := { s.ptp with
      holdover := true, lostAt := none, heldSync := smpSynchOf (tqNow s) s,
      graceEnd := some (localNow s + s.ptp.grace.toNat * 250000000) } }

theorem exec_ptpHoldoverEntry {s : State} {at_ : Nat} (hruns : timeRuns s = true) (howner : s.tmb.owner = 1)
    (hlost : s.ptp.lostAt = some at_) (hlate : at_ + 64 ≤ localNow s) (hfree : s.ptp.holdover = false) :
    exec .ptpHoldoverEntry s = .next (raiseAt .holdover 0 1 (holding s)) := by
  have hstands : lossStands s = true := by simp [lossStands, hlost, due, hlate]
  have henter : enterHoldover s = raise .holdover (s.tmb.owner.setWidth 32) (holding s) := by
    simp only [enterHoldover, hfree, Bool.false_eq_true, if_false, holding]
  have hdatum : (1 : BitVec 2).setWidth 32 = (1 : Word) := rfl
  simp only [exec, execPtpHoldoverEntry, hruns, hstands, henter, raise, howner, hdatum, BEq.rfl, Bool.and_self, if_true]

theorem holdover_entered (s : State) :
    let t := raiseAt .holdover 0 1 (holding s)
    Frame [.ptp, .tmb, .evt] s t ∧ t.tmb = (holding s).tmb ∧ t.ptp = (holding s).ptp ∧ Reported .holdover 0 1 s t := by
  intro t
  have hreport : Reported .holdover 0 1 s t :=
    raiseAt_reported _ _ _ ⟨rfl, rfl⟩ rfl (fun _ => setBit_self _ _ (by decide))
  obtain ⟨q, o, n, hraise⟩ := raiseAt_evt .holdover 0 1 (holding s)
  have hblocks : t = { s with
      ptp := (holding s).ptp, tmb := (holding s).tmb, evt := { (setPend (.pend 4) 0 (holding s)).evt with
        queue := q, ovf := o, dropCnt := n } } := hraise
  refine ⟨?_, by rw [hblocks], by rw [hblocks], hreport⟩
  rw [hblocks]
  exact frame_ptp_tmb_evt s _ _ _

/-- The time base in holdover since an instant that no grace covers any more. -/
def graceOver (s : State) : State := { s with ptp := { s.ptp with graceEnd := some 0 } }

theorem exec_holdoverGraceExpiry {s : State} {at_ : Nat} (hruns : timeRuns s = true) (hheld : s.ptp.holdover = true)
    (hgrace : s.ptp.graceEnd = some at_) (hover : at_ ≤ localNow s) :
    exec .holdoverGraceExpiry s = .next (graceOver s) := by
  have hdue : dueOpt s.ptp.graceEnd s = true := by simp [dueOpt, hgrace, due, hover]
  simp only [exec, execHoldoverGraceExpiry, hruns, hheld, hdue, Bool.and_self, if_true, graceOver]

/-- In holdover past its grace period TQ is UNSYNC, whether a decided slew is still open (R287) or not. -/
theorem tqNow_past_grace {t : State} {at_ : Nat} (howner : t.tmb.owner = 1) (hheld : t.ptp.holdover = true)
    (hgrace : t.ptp.graceEnd = some at_) (hover : due at_ t = true) : tqNow t = 0 := by
  cases hslew : decidedSlewOpen t <;> simp [tqNow, howner, hslew, hheld, hgrace, hover]

/-- Settles O46: the first two clauses are laws of the loss of a master; holdover and its end follow. -/
theorem lostMasterLeadsToHoldover : Obligations.LostMasterLeadsToHoldover := by
  unfold Obligations.LostMasterLeadsToHoldover
  refine ⟨to1, ml1, ?entry, ?grace⟩
  case entry =>
    intro s at_ hruns howner hlost hlate hfree
    obtain ⟨hframe, htmb, hptp, hreport⟩ := holdover_entered s
    refine ⟨_, exec_ptpHoldoverEntry hruns howner hlost hlate hfree, hframe, ?_, ?_, ?_, ?_, hreport⟩
    · rw [htmb]; rfl
    · rw [hptp]; rfl
    · rw [hptp]; rfl
    · rw [hptp]; rfl
  case grace =>
    intro s at_ hruns howner hheld hgrace hover
    refine ⟨graceOver s, exec_holdoverGraceExpiry hruns hheld hgrace hover, framePtp s _, ?_⟩
    exact tqNow_past_grace (t := graceOver s) howner hheld rfl (by simp [due])

end Sys2Proof.Proofs.Timekeeper
end

section
/-!
The invariant: it holds at reset, and every step keeps it, since every command and the clock edge keep what
Sys2Proof/Laws/Keeps.lean lists.
-/

namespace Sys2Proof.Proofs.Invariant

open Sys2Proof.Machine Sys2Proof.Safety Sys2Proof.Laws Sys2Proof.Proofs.TimeBase

/-- Settles O4: the units of the reset state are counted, and its ports, channels and time base are those of the reset
records. -/
theorem invAtReset : Obligations.InvAtReset := by
  unfold Obligations.InvAtReset
  exact ⟨reset_sizes, rfl, Nat.zero_le _, Nat.zero_le _, Nat.zero_le _, Nat.zero_le _, all_replicate portReset_ok,
    all_replicate chanReset_ok, timeReset_fits⟩

/-- The invariant does not speak of the queue of commands. -/
theorem inv_withPending {s : State} (hI : Inv s) (q : List Instr) : Inv (s.withPending q) := hI

theorem inv_tick {s : State} (hI : Inv s) : Inv (tick s) := Keeps_inv (tick_keeps (Keeps_refl s)) hI

theorem inv_exec {s t : State} {c : Instr} (hI : Inv s) (hexec : exec c s = .next t) : Inv t := by
  obtain ⟨u, hnext, hkeeps⟩ := exec_goes (Keeps_refl s) c
  obtain rfl : u = t := nxt (hnext.symm.trans hexec)
  exact Keeps_inv hkeeps hI

theorem step_front {s : State} {c : Instr} {q : List Instr} (hfront : s.pending = c :: q) :
    step s = exec c (s.withPending q) := by
  simp only [step, hfront]

/-- Settles O5: a step is the front command on the state with the rest of the queue, or one clock edge. -/
theorem stepKeepsInv : Obligations.StepKeepsInv := by
  unfold Obligations.StepKeepsInv
  intro s t hI hstep
  cases hqueue : s.pending with
  | nil =>
    obtain rfl : tick s = t := nxt ((step_idle hqueue).symm.trans hstep)
    exact inv_tick hI
  | cons c q => exact inv_exec (inv_withPending hI q) ((step_front hqueue).symm.trans hstep)

end Sys2Proof.Proofs.Invariant
end

section
/-!
Ethernet ports: links, verification, resignation and reinstatement. What the operations leave of a port is said in
Sys2Proof/Laws/Ports.lean; here it is put together with the commands that run them.
-/

namespace Sys2Proof.Proofs.Ports

open Sys2Proof.Machine Sys2Proof.Safety Sys2Proof.Laws Sys2Proof.Proofs.Board Sys2Proof.Proofs.Positions

theorem frame_eth_ptp_evt (s : State) (e : List EthPort) (x : PtpBlk) (v : EvtBlk) :
    Frame [.eth, .ptp, .evt] s { s with eth := e, ptp := x, evt := v } := by
  intro part hpart
  cases part <;> simp [Agree] at hpart ⊢

/-- A report stands as long as the event block and the pending bit do. -/
theorem reported_congr {e : Ev} {u : Nat} {d : Word} {s t t' : State} (h : Reported e u d s t) (hevt : t'.evt = t.evt)
    (hpend : pendSet e.pendAt u t' = pendSet e.pendAt u t) : Reported e u d s t' := by
  unfold Reported
  rw [hpend, hevt]
  exact h

/-- P0 to P7 have a lane of their own (R296). -/
theorem hpRgmii_port (p : Fin 8) (s : State) : hpRgmii p s = false := by
  have hne : p.val ≠ 8 := by omega
  simp [hpRgmii, hne]

theorem port_lt {s : State} (hI : Inv s) (p : Fin 8) : p.val < s.eth.length := port_lt_length hI (by omega)

/-! ### LINK_UP (R301, R312) -/

/-- Verification begins or stands as configured; nothing else of the port that a link shows is touched. -/
theorem verifyBegin_spec (p : Nat) (s : State) : ∃ g, verifyBegin p s = updEth p g s ∧ ∀ k,
    (g k).verify = (if portPreempt p s = 1 then .verifying else verifyAtDown p s) ∧ (g k).link = k.link ∧
      (g k).fwd = k.fwd ∧ (g k).int = k.int := by
  unfold verifyBegin
  split <;> exact ⟨_, rfl, fun _ => ⟨rfl, rfl, rfl, rfl⟩⟩

/-- A port that has its link: what autonegotiation found, and FORWARDING unless it is RESIGNED (R301). -/
def linkedPort (p : Nat) (i : LinkInfo) (s : State) (k : EthPort) : EthPort :=
  { k with
    link := true, unsupported := false, lossFrom := none,
    speed100 := decide (p < 8) && (portMode p s == 2 || (portMode p s == 1 && i.speed100)),
    anDone := portAnEn p s && portMode p s != 2 && i.anDone,
    rf := portAnEn p s && portMode p s == 0 && i.remoteFault,
    fef := portFefi p s && portMode p s == 2 && i.farEnd,
    fwd := if k.fwd = .resigned then .resigned else .forwarding,
    cleanFrom := if k.fwd = .resigned ∧ 0 < k.cleanLeft then some (localNow s) else none }

section LinkUp

variable {s : State} {p : Fin 8} {i : LinkInfo}

/-- What LINK_UP does to a port that is ready for its link: the link is noted, EVT_ETH_LINK is raised, verification
begins, and a port that forwards is back for the Timekeeper. -/
theorem linkUp_eq (hlanes : lanesOn s = true) (hactive : s.pos.active = true) (hdef : portDefined p s = true)
    (hdown : (ethAt p s).link = false) (hidle : (ethAt p s).idleUntil = none)
    (hrate : portMode p s = 1 → i.unsupported = false) (han : portAnEn p s = true → i.anDone = true) :
    ∃ x, linkUp p i s =
      { verifyBegin p (raiseAt .ethLink p (BitVec.ofNat 32 (p * 256 + 1)) (updEth p (linkedPort p i s) s)) with
        ptp := x } := by
  have hrefused : ¬ ((portMode p s == 1) = true ∧ i.unsupported = true) := by
    rintro ⟨hmode, hun⟩
    simp [hrate (by simpa using hmode)] at hun
  have hwaits : ¬ (portAnEn p s = true ∧ portMode p s ≠ 2 ∧ i.anDone = false ∧ p.val < 8) := by
    rintro ⟨hen, -, hopen, -⟩
    simp [han hen] at hopen
  unfold linkUp
  simp only [hlanes, hactive, hdef, hpRgmii_port, hdown, hidle, Option.isNone_none, Bool.not_false, Bool.and_self,
    Bool.true_eq_false, if_false, hrefused, hwaits]
  split
  · exact ptpPortBack_ptp p _
  · exact ⟨_, rfl⟩

/-- The state once the link is noted and EVT_ETH_LINK raised. -/
def linkNoted (p : Nat) (i : LinkInfo) (s : State) : State :=
  raiseAt .ethLink p (BitVec.ofNat 32 (p * 256 + 1)) (updEth p (linkedPort p i s) s)

theorem linkNoted_spec (hI : Inv s) (p : Fin 8) (i : LinkInfo) :
    let t := linkNoted p i s
    ethAt p t = { linkedPort p i s (ethAt p s) with int := setBit (ethAt p s).int 0 } ∧
      (∀ q, q ≠ p.val → ethAt q t = ethAt q s) ∧ (∃ v, t = { s with eth := t.eth, evt := v }) ∧
      p.val < t.eth.length ∧ Reported .ethLink p (BitVec.ofNat 32 (p * 256 + 1)) s t := by
  have hlen : p.val < (updEth p (linkedPort p i s) s).eth.length := by simpa using port_lt hI p
  have hport : ethAt p (updEth p (linkedPort p i s) s) = linkedPort p i s (ethAt p s) :=
    ethAt_upd_same _ _ _ (port_lt hI p)
  obtain ⟨hraised, hothers, ⟨v, hblocks⟩, hlen'⟩ :=
    raiseEth_at .ethLink 0 p (BitVec.ofNat 32 (p * 256 + 1)) (updEth p (linkedPort p i s) s) rfl hlen
  refine ⟨?port, fun q hq => ?others, ⟨v, hblocks⟩, by rw [linkNoted, hlen']; exact hlen, ?report⟩
  case port =>
    rw [linkNoted, hraised, hport]
    rfl
  case others => rw [linkNoted, hothers q hq, ethAt_upd_other _ _ _ _ hq]
  case report => exact reportEth .ethLink 0 p _ s _ rfl (by decide) hlen rfl (by rw [hport]; rfl)

theorem exec_linkUp_port (hI : Inv s) (hlanes : lanesOn s = true) (hactive : s.pos.active = true)
    (hdef : portDefined p s = true) (hdown : (ethAt p s).link = false) (hidle : (ethAt p s).idleUntil = none)
    (hrate : portMode p s = 1 → i.unsupported = false) (han : portAnEn p s = true → i.anDone = true) :
    ∃ t, exec (.linkUp ⟨p, by omega⟩ i) s = .next t ∧ Frame [.eth, .ptp, .evt] s t ∧ (ethAt p t).link = true ∧
      (ethAt p t).fwd = (if (ethAt p s).fwd = .resigned then .resigned else .forwarding) ∧
      (ethAt p t).verify = (if portPreempt p s = 1 then .verifying else verifyAtDown p s) ∧
      (∀ q, q ≠ p.val → ethAt q t = ethAt q s) ∧ Reported .ethLink p (BitVec.ofNat 32 (p * 256 + 1)) s t := by
  obtain ⟨hnoted, hothers, ⟨v, hblocks⟩, hlen, hreport⟩ := linkNoted_spec hI p i
  obtain ⟨x, hup⟩ := linkUp_eq hlanes hactive hdef hdown hidle hrate han
  obtain ⟨g, hbegin, hg⟩ := verifyBegin_spec p (linkNoted p i s)
  have hpre : portPreempt p (linkNoted p i s) = portPreempt p s := by rw [hblocks]; rfl
  have hrest : verifyAtDown p (linkNoted p i s) = verifyAtDown p s := by rw [hblocks]; rfl
  rw [← linkNoted, hbegin] at hup
  generalize linkNoted p i s = u at *
  obtain ⟨hverify, hlink, hfwd, hint⟩ := hg (ethAt p u)
  have hnow : ethAt p (updEth p g u) = g (ethAt p u) := ethAt_upd_same _ _ _ hlen
  refine ⟨linkUp p i s, rfl, ?_⟩
  rw [hup]
  refine ⟨?frame, ?link, ?fwd, ?verify, fun q hq => ?others, ?report⟩
  case frame =>
    rw [hblocks]
    exact frame_eth_ptp_evt s _ _ _
  case link => exact (congrArg EthPort.link hnow).trans (hlink.trans (by rw [hnoted]; rfl))
  case fwd => exact (congrArg EthPort.fwd hnow).trans (hfwd.trans (by rw [hnoted]; rfl))
  case verify => exact (congrArg EthPort.verify hnow).trans (hverify.trans (by rw [hpre, hrest]))
  case others => exact (ethAt_upd_other _ _ _ _ hq).trans (hothers q hq)
  case report =>
    refine reported_congr hreport rfl ?_
    exact congrArg (·.int.getLsbD 0) hnow |>.trans (by rw [hint])

end LinkUp

/-! ### SIGNAL_LOSS and LINK_DOWN (R298, R299) -/

theorem exec_signalLoss_port {s : State} {p : Fin 8} (hI : Inv s) (hlanes : lanesOn s = true)
    (hlink : (ethAt p s).link = true) :
    ∃ t, exec (.signalLoss ⟨p, by omega⟩) s = .next t ∧ (ethAt p t).lossFrom = some (localNow s) ∧
      nth 0 (ethAt p t).cnt 7 = satInc (nth 0 (ethAt p s).cnt 7) ∧ (ethAt p t).link = true := by
  let s1 := updEth p (fun k => { k with lossFrom := some (localNow s) }) s
  have hport : ethAt p s1 = { ethAt p s with lossFrom := some (localNow s) } := ethAt_upd_same _ _ _ (port_lt hI p)
  obtain ⟨hup, hloss, -, hcnt, -⟩ := errorCount_spec p 7 s1 (by omega) (by simpa [s1] using port_lt hI p)
    (by rw [hport]; exact port_counters_length hI p) (by decide)
  refine ⟨errorCount p 7 s1, ?_, by rw [hloss, hport], by rw [hcnt, hport], by rw [hup, hport]; exact hlink⟩
  simp only [exec, execSignalLoss, hlanes, hlink, hpRgmii_port, Bool.not_false, Bool.and_self, if_true, s1]

theorem exec_linkDown_port {s : State} {p : Fin 8} {at_ : Nat} (hI : Inv s) (hlanes : lanesOn s = true)
    (hlink : (ethAt p s).link = true) (hloss : (ethAt p s).lossFrom = some at_)
    (hheld : at_ + usCycles (portHoldUs p s) ≤ localNow s) :
    ∃ t, exec (.linkDown ⟨p, by omega⟩) s = .next t ∧ (ethAt p t).link = false ∧ (ethAt p t).fwd ≠ .forwarding ∧
      nth 0 (ethAt p t).cnt 6 = satInc (nth 0 (ethAt p s).cnt 6) ∧ pendSet (.eth 0) p t = true := by
  obtain ⟨hdown, hfwd, hcnt, hpend, -⟩ :=
    linkDown_spec p true s p.isLt (port_lt hI p) (fun _ => port_counters_length hI p)
  refine ⟨linkDown p true s, ?_, hdown, hfwd, hcnt rfl, hpend⟩
  have hdue : due (at_ + usCycles (portHoldUs p s)) s = true := by simpa [due] using hheld
  simp only [exec, execLinkDown, hloss, hlanes, hlink, hdue, Bool.and_self, if_true]

/-! ### LINK_RESTART (R302, R303) -/

theorem linkRestart_defined {s : State} {p : Fin 8} (hdef : (ethAt p s).fwd ≠ .disabled) : linkRestart p s =
    updEth p (fun k => { k with lossFrom := none, idleUntil := some (localNow s + 250000) })
      (if (ethAt p s).link then linkDown p false s else s) := by
  simp only [linkRestart, hdef, hpRgmii_port, Bool.false_eq_true, or_self, if_false, msCycles, Nat.one_mul]

/-- A port whose link goes down at once, where it was up. -/
theorem linkDropped_spec {s : State} (hI : Inv s) (p : Fin 8) :
    (ethAt p (if (ethAt p s).link then linkDown p false s else s)).link = false ∧
      p.val < (if (ethAt p s).link then linkDown p false s else s).eth.length := by
  split
  case isTrue _ =>
    obtain ⟨hdown, -, -, -, hlen⟩ := linkDown_spec p false s p.isLt (port_lt hI p) (fun h => absurd h (by decide))
    exact ⟨hdown, by rw [hlen]; exact port_lt hI p⟩
  case isFalse hlink => exact ⟨by simpa using hlink, port_lt hI p⟩

theorem exec_linkRestart_port {s : State} {p : Fin 8} (hI : Inv s) (hcore : coreAnswers s = true)
    (hdef : (ethAt p s).fwd ≠ .disabled) :
    ∃ t, exec (.linkRestart p) s = .next t ∧ (ethAt p t).idleUntil = some (localNow s + 250000) ∧
      (ethAt p t).link = false ∧ (ethAt p t).lossFrom = none := by
  obtain ⟨hdown, hlen⟩ := linkDropped_spec hI p
  refine ⟨linkRestart p s, ?_, ?_⟩
  · simp only [exec, execLinkRestart, ifCore_answers hcore]
    rfl
  · rw [linkRestart_defined hdef, ethAt_upd_same _ _ _ hlen]
    exact ⟨rfl, hdown, rfl⟩

theorem exec_linkRestartIdleEnd_due {s : State} {p : Fin 8} {at_ : Nat} (hidle : (ethAt p s).idleUntil = some at_)
    (hdue : at_ ≤ localNow s) :
    exec (.linkRestartIdleEnd p) s = .next (updEth p (fun k => { k with idleUntil := none }) s) := by
  have hover : dueOpt (some at_) s = true := by simpa [dueOpt, due] using hdue
  simp only [exec, execLinkRestartIdleEnd, hidle, hover, if_true]

/-! ### Verification (R312, R316) -/

section Verify

variable {s : State} {p : Fin 8} {at_ : Nat} (hverify : (ethAt p s).verify = .verifying)
variable (hset : (ethAt p s).verifyDue = some at_) (hdue : at_ ≤ localNow s)
include hverify hset hdue

theorem verifyTimer_expired : (ethAt p s).verify = .verifying ∧ dueOpt (ethAt p s).verifyDue s = true := by
  refine ⟨hverify, ?_⟩
  rw [hset]
  simpa [dueOpt, due] using hdue

theorem exec_verifyTimerExpiry_tries (htries : (ethAt p s).verifyTries < 3) :
    exec (.verifyTimerExpiry p) s = .next (updEth p (fun k => { k with
      verifyTries := k.verifyTries + 1, verifyDue := some (localNow s + 2500000),
      mpackets := k.mpackets ++ [.verify] }) s) := by
  simp only [exec, execVerifyTimerExpiry, verifyTimer, verifyTimer_expired hverify hset hdue, and_self, htries, if_true,
    msCycles, Nat.reduceMul]

theorem exec_verifyTimerExpiry_fails (hI : Inv s) (htries : 3 ≤ (ethAt p s).verifyTries) :
    ∃ t, exec (.verifyTimerExpiry p) s = .next t ∧ Frame [.eth, .evt] s t ∧ (ethAt p t).verify = .failed ∧
      Reported .ethVerifyFail p (BitVec.ofNat 32 p) s t := by
  let s1 := updEth p (fun k => { k with verify := .failed, verifyDue := none }) s
  have hlen : p.val < s1.eth.length := by simpa [s1] using port_lt hI p
  have hport : ethAt p s1 = { ethAt p s with verify := .failed, verifyDue := none } :=
    ethAt_upd_same _ _ _ (port_lt hI p)
  have hreport := reportEth .ethVerifyFail 3 p (BitVec.ofNat 32 p) s s1 rfl (by decide) hlen rfl (by rw [hport])
  obtain ⟨hraised, -, ⟨v, hblocks⟩, -⟩ := raiseEth_at .ethVerifyFail 3 p (BitVec.ofNat 32 p) s1 rfl hlen
  refine ⟨raiseAt .ethVerifyFail p (BitVec.ofNat 32 p) s1, ?_, ?_, by rw [hraised, hport], hreport⟩
  · simp only [exec, execVerifyTimerExpiry, verifyTimer, verifyTimer_expired hverify hset hdue, and_self,
      Nat.not_lt.2 htries, if_true, if_false, s1]
  · rw [hblocks]
    exact frameEthEvt s _ _

end Verify

/-- A command for a port that is not DISABLED is not refused. -/
theorem ethCommand_defined {s : State} {p : Fin 8} (hdef : (ethAt p s).fwd ≠ .disabled) :
    ethCommand p 1 s = resignPort p 0xD s ∧ ethCommand p 2 s = reinstatePort p 1 s ∧
      ethCommand p 3 s = (if (ethAt p s).link && portPreempt p s == 1 then verifyBegin p s else s) := by
  have hok : (decide (p.val < 8) && (ethAt p s).fwd != .disabled) = true := by simp [hdef]
  refine ⟨?_, ?_, ?_⟩ <;>
    simp only [ethCommand, hok, if_true, if_false, Nat.reduceEqDiff]

theorem exec_retryVerify_up {s : State} {p : Fin 8} (hcore : coreAnswers s = true)
    (hdef : (ethAt p s).fwd ≠ .disabled) (hlink : (ethAt p s).link = true) (hpre : portPreempt p s = 1) :
    exec (.retryVerify p) s = .next (updEth p (fun k => { k with
      verify := .verifying, verifyTries := 1, verifyDue := some (localNow s + 2500000),
      mpackets := k.mpackets ++ [.verify] }) s) := by
  simp only [exec, execRetryVerify, ifCore_answers hcore, (ethCommand_defined hdef).2.2, hlink, hpre, BEq.rfl,
    Bool.and_self, if_true, verifyBegin, msCycles, Nat.reduceMul]

/-- Settles O48: each clause is what its command does to a port in that state. -/
theorem portLinks : Obligations.PortLinks := by
  unfold Obligations.PortLinks
  intro s p hI
  refine ⟨fun i => exec_linkUp_port hI, exec_signalLoss_port hI, fun at_ => exec_linkDown_port hI,
    exec_linkRestart_port hI, fun at_ => exec_linkRestartIdleEnd_due, ?verify, exec_retryVerify_up⟩
  case verify =>
    intro at_ hverify hset hdue
    exact ⟨exec_verifyTimerExpiry_tries hverify hset hdue, exec_verifyTimerExpiry_fails hverify hset hdue hI⟩

/-! ### Resignation and reinstatement (R333 to R335, R337 to R339, R342) -/

theorem exec_resign_defined {s : State} {p : Fin 8} (hcore : coreAnswers s = true)
    (hdef : (ethAt p s).fwd ≠ .disabled) : exec (.resign p) s = .next (resignPort p 0xD s) := by
  simp only [exec, execResign, ifCore_answers hcore, (ethCommand_defined hdef).1]

theorem exec_reinstate_defined {s : State} {p : Fin 8} (hcore : coreAnswers s = true)
    (hdef : (ethAt p s).fwd ≠ .disabled) : exec (.reinstate p) s = .next (reinstatePort p 1 s) := by
  simp only [exec, execReinstate, ifCore_answers hcore, (ethCommand_defined hdef).2.1]

/-- A port that RESIGN takes out of service. -/
theorem resigned_by_host {s : State} {p : Fin 8} (hI : Inv s) (hdef : (ethAt p s).fwd ≠ .disabled)
    (hin : (ethAt p s).fwd ≠ .resigned) :
    let t := resignPort p 0xD s
    (ethAt p t).fwd = .resigned ∧ (ethAt p t).cause = 0xD ∧ (ethAt p t).resignCnt = satInc (ethAt p s).resignCnt ∧
      (∀ c, c < 5 → queueOf p c t = []) ∧ pendSet (.eth 1) p t = true ∧
      (s.ptp.role = 0 → Reported .portResign p (BitVec.ofNat 32 (p * 256 + 0xD)) s t) := by
  intro t
  obtain ⟨⟨k, hkeep, hfwd, hcause, hcount, -, -, -, -, hint⟩, hqueues, hreport, -⟩ :=
    resign_spec p 0xD s p.isLt (port_lt hI p) hdef hin
  obtain ⟨hfwd', -, hcount', hcause', hint', -⟩ := keepE_fields hkeep
  refine ⟨hfwd'.trans hfwd, hcause'.trans hcause, hcount'.trans hcount, hqueues, ?_, hreport⟩
  show (ethAt p t).int.getLsbD 1 = true
  rw [hint', hint]
  exact setBit_self _ _ (by decide)

theorem resignPort_resigned {s : State} {p : Fin 8} (cause : Nat) (hout : (ethAt p s).fwd = .resigned) :
    resignPort p cause s = s := by
  simp only [resignPort, hout, true_or, if_true]

/-- The clean interval ends: under AUTO the port is reinstated, else it waits for a command. -/
theorem exec_cleanIntervalEnd_over {s : State} {p : Fin 8} {at_ : Nat} (hout : (ethAt p s).fwd = .resigned)
    (hfrom : (ethAt p s).cleanFrom = some at_) (hover : at_ + (ethAt p s).cleanLeft ≤ localNow s) :
    exec (.cleanIntervalEnd p) s = .next
      (if portAuto p s then reinstatePort p 0 s
       else updEth p (fun k => { k with cleanLeft := 0, cleanFrom := none }) s) := by
  have hdue : due (at_ + (ethAt p s).cleanLeft) s = true := by simpa [due] using hover
  simp only [exec, execCleanIntervalEnd, hfrom, hout, hdue, and_self, if_true]

theorem exec_resignWindowEnd_due {s : State} {p : Fin 8} (hdef : portDefined p s = true)
    (hdue : (ethAt p s).windowEnd ≤ localNow s) :
    exec (.resignWindowEnd p) s = .next (updEth p (fun k => { k with
      runs := List.replicate 8 0, windowEnd := k.windowEnd + msCycles (portWindowMs p s) }) s) := by
  have hover : due (ethAt p s).windowEnd s = true := by simpa [due] using hdue
  simp only [exec, execResignWindowEnd, hdef, hover, Bool.and_self, if_true]

/-- ETH_CMD on a port that is DISABLED sets CMD_ERR alone (log entry 52). -/
theorem ethCommand_disabled {s : State} {p : Fin 8} {code : Nat} (hcode : code = 1 ∨ code = 2 ∨ code = 3 ∨ code = 4)
    (hoff : (ethAt p s).fwd = .disabled) : ethCommand p code s = updEth p (fun k => { k with cmdErr := true }) s := by
  rcases hcode with rfl | rfl | rfl | rfl <;> simp [ethCommand, linkRestart, hoff, cmdErrPort]

theorem exec_ethCommand_disabled {s : State} {p : Fin 8} {c : Instr} (hcore : coreAnswers s = true)
    (hoff : (ethAt p s).fwd = .disabled) (hc : c ∈ [Instr.resign p, .reinstate p, .retryVerify p, .linkRestart p]) :
    exec c s = .next (updEth p (fun k => { k with cmdErr := true }) s) := by
  have hcommand (code : Nat) (hcode : code = 1 ∨ code = 2 ∨ code = 3 ∨ code = 4) :
      ifCore (ethCommand p code) s = updEth p (fun k => { k with cmdErr := true }) s := by
    rw [ifCore_answers hcore, ethCommand_disabled hcode hoff]
  simp only [List.mem_cons, List.not_mem_nil, or_false] at hc
  rcases hc with rfl | rfl | rfl | rfl
  · exact congrArg _ (hcommand 1 (by decide))
  · exact congrArg _ (hcommand 2 (by decide))
  · exact congrArg _ (hcommand 3 (by decide))
  · exact congrArg _ (hcommand 4 (by decide))

/-- Settles O49: resignation and reinstatement are laws of their operations; a port that is resigned is not DISABLED. -/
theorem portsResignAndReturn : Obligations.PortsResignAndReturn := by
  unfold Obligations.PortsResignAndReturn
  intro s p hI back
  have hdef (hout : (ethAt p s).fwd = .resigned) : (ethAt p s).fwd ≠ .disabled := by simp [hout]
  have hback (who : Nat) (hout : (ethAt p s).fwd = .resigned) : back who (reinstatePort p who s) :=
    reinstate_spec p who s (port_lt hI p) hout
  refine ⟨?resign, ?again, ⟨?reinstate, ?clean⟩, exec_resignWindowEnd_due, ?off⟩
  case resign => exact fun hcore hdef hin => ⟨_, exec_resign_defined hcore hdef, resigned_by_host hI hdef hin⟩
  case again =>
    intro hcore hout
    rw [exec_resign_defined hcore (hdef hout), resignPort_resigned 0xD hout]
  case reinstate => exact fun hcore hout => ⟨_, exec_reinstate_defined hcore (hdef hout), hback 1 hout⟩
  case clean =>
    intro at_ hout hfrom hover
    have hend := exec_cleanIntervalEnd_over hout hfrom hover
    refine ⟨fun hauto => ⟨reinstatePort p 0 s, ?_, hback 0 hout⟩, fun hauto => ?_⟩
    · rw [hend, hauto, if_pos rfl]
    · rw [hend, hauto, if_neg Bool.false_ne_true]
  case off => exact fun hcore hoff c hc => exec_ethCommand_disabled hcore hoff hc

end Sys2Proof.Proofs.Ports
end

section
/-!
Ethernet ports: what becomes of a received frame, the duplicate tables, and supervision. The way of a frame through the
board and the copies of one message are in Sys2Proof/Laws/Ingress.lean and Sys2Proof/Laws/Copies.lean.
-/

namespace Sys2Proof.Proofs.Reception

open Sys2Proof.Machine Sys2Proof.Safety Sys2Proof.Laws Sys2Proof.Proofs.Board Sys2Proof.Proofs.Ports

theorem frame_pairs (s : State) (x : List EthPair) : Frame [.pairs] s { s with pairs := x } := by
  intro part hpart
  cases part <;> simp [Agree] at hpart ⊢

theorem frame_eth_pairs_cls_evt (s : State) (e : List EthPort) (x : List EthPair) (y : ClsBlk) (v : EvtBlk) :
    Frame [.eth, .pairs, .cls, .evt] s { s with eth := e, pairs := x, cls := y, evt := v } := by
  intro part hpart
  cases part <;> simp [Agree] at hpart ⊢

theorem pairs_length {s : State} (hI : Inv s) : s.pairs.length = 4 := by
  have hsizes := hI.1
  simp only [sizes, shape, List.cons.injEq] at hsizes
  exact hsizes.2.1

theorem forwarding_portCount (q p i : Nat) (s : State) : forwarding q (portCount p i s) = forwarding q s := by
  simp only [forwarding, portCount]
  rcases nth_upd_or .reset (fun e : EthPort => { e with cnt := upd satInc e.cnt i }) s.eth p q with h | h <;> rw [h]

/-! ### Checks on the port (R300, R304, R305, R307, R312) -/

theorem exec_ethFrameRx_unlinked {s : State} {p : Fin 9} (f : RxFrame) (hdown : (ethAt p s).link = false) :
    exec (.ethFrameRx p f) s = .next s := by
  simp only [exec, execEthFrameRx, ethFrameRx, hdown, Bool.and_false, if_true]

section Linked

variable {s : State} {p : Fin 8} {f : RxFrame} (hlanes : lanesOn s = true) (hdef : portDefined p s = true)
variable (hlink : (ethAt p s).link = true)
include hlanes hdef hlink

theorem exec_ethFrameRx_verify (hverify : f.verifyPkt = true) :
    exec (.ethFrameRx ⟨p, by omega⟩ f) s =
      .next (updEth p (fun k => { k with mpackets := k.mpackets ++ [.respond] }) s) := by
  have hp : ¬ 8 ≤ p.val := by omega
  simp only [exec, execEthFrameRx, ethFrameRx, hlanes, hdef, hlink, Bool.and_self, Bool.true_eq_false, if_false,
    hverify, Bool.true_or, if_true, mPacketRx, hp]

theorem exec_ethFrameRx_respond (hI : Inv s) (hverify : f.verifyPkt = false) (hrespond : f.respondPkt = true)
    (hwait : (ethAt p s).verify = .verifying) :
    ∃ t, exec (.ethFrameRx ⟨p, by omega⟩ f) s = .next t ∧ Frame [.eth] s t ∧ (ethAt p t).verify = .succeeded := by
  have hp : ¬ 8 ≤ p.val := by omega
  refine ⟨updEth p (fun k => if k.verify = .verifying then { k with verify := .succeeded, verifyDue := none } else k) s,
    ?_, frame_eth s _, ?_⟩
  · simp only [exec, execEthFrameRx, ethFrameRx, hlanes, hdef, hlink, Bool.and_self, Bool.true_eq_false, if_false,
      hverify, hrespond, Bool.or_true, if_true, mPacketRx, hp, Bool.false_eq_true]
  · rw [ethAt_upd_same _ _ _ (port_lt hI p), if_pos hwait]

variable (hverify : f.verifyPkt = false) (hrespond : f.respondPkt = false)
include hverify hrespond

/-- A fragment or a bad frame whose header was not looked up counts, and nothing else becomes of it. -/
theorem exec_ethFrameRx_bad {i : Nat} (hfault : (if f.fragment then some 5 else rxFault p f) = some i)
    (hlooked : badEntered p f s = false) : exec (.ethFrameRx ⟨p, by omega⟩ f) s = .next (errorCount p i s) := by
  simp only [exec, execEthFrameRx, ethFrameRx, hlanes, hdef, hlink, Bool.and_self, Bool.true_eq_false, if_false,
    hverify, hrespond, Bool.or_self, Bool.false_eq_true]
  cases hfragment : f.fragment with
  | true =>
    simp only [hfragment, if_true, Option.some.injEq] at hfault
    simp only [if_true, hfault]
  | false =>
    simp only [hfragment, Bool.false_eq_true, if_false] at hfault
    simp only [Bool.false_eq_true, if_false, hfault, badFrame, hlooked]

theorem exec_ethFrameRx_good (hfragment : f.fragment = false) (hfault : rxFault p f = none) :
    exec (.ethFrameRx ⟨p, by omega⟩ f) s = .next (goodFrame p f s) := by
  simp only [exec, execEthFrameRx, ethFrameRx, hlanes, hdef, hlink, Bool.and_self, Bool.true_eq_false, if_false,
    hverify, hrespond, Bool.or_self, Bool.false_eq_true, hfragment, hfault]

end Linked

/-- No frame that is not accepted counts in OUT_DISCARD (Table 6-3). -/
theorem fault_counter {p i : Nat} {f : RxFrame} (hfault : (if f.fragment then some 5 else rxFault p f) = some i) :
    i ≠ 14 ∧ i < 16 := by
  cases hfragment : f.fragment with
  | true =>
    simp only [hfragment, if_true, Option.some.injEq] at hfault
    subst hfault
    decide
  | false =>
    simp only [hfragment, Bool.false_eq_true, if_false] at hfault
    exact rxFault_lt p f i hfault

theorem errorCount_counts {s : State} (hI : Inv s) (p : Fin 8) {i : Nat} (hi : i ≠ 14 ∧ i < 16) :
    nth 0 (ethAt p (errorCount p i s)).cnt i = satInc (nth 0 (ethAt p s).cnt i) ∧
      ((∀ j, portThr p j s = 0) → Frame [.eth] s (errorCount p i s)) := by
  obtain ⟨-, -, -, hcnt, -⟩ := errorCount_spec p i s p.isLt (port_lt hI p) (port_counters_length hI p) hi
  exact ⟨hcnt, errorCount_frame p i s⟩

/-! ### Accepted frames (R305, R307) -/

theorem goodFrame_pause {p : Nat} {f : RxFrame} {s : State} (hpause : frameType (innerFrame p f) = 0x8808) :
    goodFrame p f s = portCount p 9 s := by
  simp only [goodFrame, hpause, if_true]

theorem goodFrame_turned_away {p : Nat} {f : RxFrame} {s : State} (htype : frameType (innerFrame p f) ≠ 0x8808)
    (haccept : vlanAccepted p (innerFrame p f) s = false) : goodFrame p f s = portCount p 8 s := by
  simp only [goodFrame, htype, haccept, if_true, if_false]

theorem goodFrame_enters {p : Fin 8} {f : RxFrame} {s : State} (htype : frameType (innerFrame p f) ≠ 0x8808)
    (haccept : vlanAccepted p (innerFrame p f) s = true) (hruns : boardRuns s = true)
    (hfwd : forwarding p s = true) : goodFrame p f s = portFrame p f (innerFrame p f) (portCount p 0 s) := by
  have hp : p.val ≠ 8 := by omega
  have hopen : ingressOpen p f (portCount p 0 s) = true := by
    have hruns' : boardRuns (portCount p 0 s) = true := hruns
    simp only [ingressOpen, hruns', Bool.true_or]
  simp only [goodFrame, htype, haccept, Bool.true_eq_false, if_false, hp, goodPort, hopen, forwarding_portCount, hfwd]

/-! ### PRP (R322, R329) -/

/-- The second copy of a frame on a PRP port goes no further. -/
theorem prpRx_duplicate {p : Nat} {l : List Byte} {s : State} (htrailer : hasTrailer l = true)
    (htype : frameType l ≠ 0x88F7)
    (hfound : (findDup (p / 2) (slice l 6 6) (BitVec.ofNat 16 (be16 l (l.length - 6))) s).isSome = true)
    (hlan : be16 l (l.length - 4) / 4096 = (if p % 2 = 0 then 0xA else 0xB)) :
    prpRx p l s = (none, pairCount (p / 2) 0 s) := by
  obtain ⟨d, hd⟩ := Option.isSome_iff_exists.1 hfound
  simp only [prpRx, htrailer, hlan, htype, hd, if_true, if_false]

theorem portFrame_duplicate {p : Nat} {f : RxFrame} {l : List Byte} {s : State} (hmode : pairMode p s = 1)
    (htrailer : hasTrailer l = true) (htype : frameType l ≠ 0x88F7)
    (hfound : (findDup (p / 2) (slice l 6 6) (BitVec.ofNat 16 (be16 l (l.length - 6))) s).isSome = true)
    (hlan : be16 l (l.length - 4) / 4096 = (if p % 2 = 0 then 0xA else 0xB)) :
    portFrame p f l s = pairCount (p / 2) 0 s := by
  simp only [portFrame, redRx, hmode, if_true, prpRx_duplicate htrailer htype hfound hlan]

/-! ### DUP_ENTRY_EXPIRY (R330) -/

theorem exec_dupEntryExpiry_forgets {s : State} (hI : Inv s) (k : Fin 4) :
    ∃ t, exec (.dupEntryExpiry k) s = .next t ∧ Frame [.pairs] s t ∧ ∀ d, d ∈ (nth .reset t.pairs k).dup ↔
      d ∈ (nth .reset s.pairs k).dup ∧ localNow s < d.created + forgetCycles k s := by
  refine ⟨updPair k (fun x => { x with dup := liveDups k s }) s, rfl, frame_pairs s _, fun d => ?_⟩
  have hk : k.val < s.pairs.length := by
    rw [pairs_length hI]
    exact k.isLt
  rw [updPair_pairs, nth_upd_same _ _ _ hk]
  simp [liveDups]

/-! ### SUPERVISION_TX (R331) -/

/-- The ports of a pair on which a supervision frame leaves. -/
def supPorts (k : Nat) (s : State) : List Nat := [2 * k, 2 * k + 1].filter (fun p => forwarding p s)

/-- The pair with its next supervision frame numbered and counted. -/
def supNumbered (k : Nat) (s : State) : State :=
  updPair k (fun y => { y with
    supSeq := y.supSeq + 1, supDue := y.supDue + 500000000,
    cnt := upd (fun c => satAdd c (supPorts k s).length) y.cnt 7 }) s

/-- The supervision frame that is due. -/
def supNext (k : Nat) (s : State) : List Byte := supFrame k ((nth .reset s.pairs k).supSeq + 1) s

/-- The state with that frame queued where its pair forwards. -/
def supQueued (k : Nat) (s : State) : State :=
  if (supPorts k s).isEmpty then supNumbered k s
  else queueOwnOn .supervision (supPorts k s) 0 k (supNext k s) (stampNow s) [] (supNumbered k s)

theorem exec_supervisionTx_due {s : State} {k : Fin 4} (hruns : boardRuns s = true) (hpair : pairMode (2 * k) s ≠ 0)
    (hsup : flagAt (portEntry (2 * k) s) 3 4 = true) (hdue : (nth .reset s.pairs k).supDue ≤ localNow s) :
    exec (.supervisionTx k) s = .next (supQueued k s) := by
  have hover : due (nth .reset s.pairs k).supDue s = true := by simpa [due] using hdue
  have hmode : (pairMode (2 * k) s != 0) = true := by simpa using hpair
  simp only [exec, execSupervisionTx, hruns, hmode, hsup, hover, Bool.and_self, if_true]
  rfl

theorem supPorts_le {k : Fin 4} {s : State} {p : Nat} (hp : p ∈ supPorts k s) : p ≤ 8 ∧ forwarding p s = true := by
  simp only [supPorts, List.mem_filter, List.mem_cons, List.not_mem_nil, or_false] at hp
  exact ⟨by omega, hp.2⟩

/-- Queueing touches the ports, the pairs, the classes and the events, and of a pair its sequence number alone. -/
theorem supQueued_blocks (k : Fin 4) (s : State) :
    ∃ e x y v, supQueued k s = { s with eth := e, pairs := x, cls := y, evt := v } ∧
      ∀ j, pairRest (nth .reset x j) = pairRest (nth .reset (supNumbered k s).pairs j) := by
  unfold supQueued
  split
  · exact ⟨s.eth, (supNumbered k s).pairs, s.cls, s.evt, rfl, fun _ => rfl⟩
  · obtain ⟨e, x, y, v, hqueued, hrest⟩ := queueOwnOn_any .supervision (supPorts k s) 0 k (supNext k s) (stampNow s) []
      (supNumbered k s) (fun p hp => (supPorts_le hp).1)
    exact ⟨e, x, y, v, hqueued, hrest⟩

theorem supQueued_pair {s : State} (hI : Inv s) (k : Fin 4) :
    (nth .reset (supQueued k s).pairs k).supSeq = (nth .reset s.pairs k).supSeq + 1 ∧
      (nth .reset (supQueued k s).pairs k).supDue = (nth .reset s.pairs k).supDue + 500000000 := by
  obtain ⟨e, x, y, v, hqueued, hrest⟩ := supQueued_blocks k s
  have hk : k.val < s.pairs.length := by
    rw [pairs_length hI]
    exact k.isLt
  have hpair := hrest k
  rw [supNumbered, updPair_pairs, nth_upd_same _ _ _ hk] at hpair
  rw [hqueued]
  exact ⟨congrArg EthPair.supSeq hpair, congrArg EthPair.supDue hpair⟩

/-- Where both ports of a pair forward and class PAWN has room, the frame is queued on both. -/
theorem supQueued_sent {s : State} (hI : Inv s) (k : Fin 4)
    (hroom : ∀ e, e = 2 * k.val ∨ e = 2 * k.val + 1 →
      forwarding e s = true ∧ Roomy e 0 (supNext k s).length s) :
    Sent .supervision (2 * k) 0 (supNext k s) (supQueued k s) ∧
      Sent .supervision (2 * k + 1) 0 (supNext k s) (supQueued k s) := by
  obtain ⟨heven, -, hallot⟩ := hroom (2 * k) (Or.inl rfl)
  obtain ⟨hodd, -⟩ := hroom (2 * k + 1) (Or.inr rfl)
  have hports : supPorts k s = [2 * k.val, 2 * k.val + 1] := by simp [supPorts, heven, hodd]
  have hfits : (allot 0 (supNext k s).length (supNumbered k s)).isSome = true :=
    (congrArg Option.isSome (allot_congr 0 _ rfl rfl rfl)).trans hallot
  have hready : ∀ p ∈ [2 * k.val, 2 * k.val + 1],
      p ≤ 8 ∧ p < s.eth.length ∧ 0 < (ethAt p s).queues.length ∧ forwarding p s = true := by
    intro p hp
    rw [← hports] at hp
    obtain ⟨hle, hfwd⟩ := supPorts_le hp
    exact ⟨hle, port_lt_length hI hle, by rw [port_queues_length hI p]; decide, hfwd⟩
  obtain ⟨-, -, -, -, -, hsent⟩ := queueOwnOn_sent .supervision [2 * k.val, 2 * k.val + 1] 0 k (supNext k s)
    (stampNow s) [] (supNumbered k s) (by decide) hfits hready (by simp)
  have hqueued : supQueued k s =
      queueOwnOn .supervision [2 * k.val, 2 * k.val + 1] 0 k (supNext k s) (stampNow s) [] (supNumbered k s) := by
    simp [supQueued, hports]
  rw [hqueued]
  exact ⟨hsent _ (by simp), hsent _ (by simp)⟩

/-- Settles O50: a frame passes the checks of its port one after another, and the last clauses are laws of the board. -/
theorem framesAreReceived : Obligations.FramesAreReceived := by
  unfold Obligations.FramesAreReceived
  refine ⟨?received, fun s p f => exec_ethFrameRx_unlinked f, fun s k hI => exec_dupEntryExpiry_forgets hI k,
    ?supervision⟩
  case received =>
    intro s p f hI hlanes hdef hlink q l counted
    refine ⟨exec_ethFrameRx_verify hlanes hdef hlink, exec_ethFrameRx_respond hlanes hdef hlink hI, ?_⟩
    intro hverify hrespond
    refine ⟨?bad, ?good⟩
    case bad =>
      intro i hfault hlooked
      exact ⟨_, exec_ethFrameRx_bad hlanes hdef hlink hverify hrespond hfault hlooked,
        errorCount_counts hI p (fault_counter hfault)⟩
    case good =>
      intro hfragment hfault
      have hexec : exec (.ethFrameRx q f) s = .next (goodFrame p f s) :=
        exec_ethFrameRx_good hlanes hdef hlink hverify hrespond hfragment hfault
      rw [hexec]
      refine ⟨?pause, ?turned, ?enters⟩
      case pause => exact fun hpause => by rw [goodFrame_pause hpause]
      case turned => exact fun htype haccept => by rw [goodFrame_turned_away htype haccept]
      case enters =>
        intro htype haccept hruns hfwd
        rw [goodFrame_enters htype haccept hruns hfwd]
        refine ⟨fun hmode htrailer hptp hfound hlan => ?_, fun hsingle hptp => ?_⟩
        · exact congrArg _ (portFrame_duplicate (s := counted 0) hmode htrailer hptp hfound hlan)
        · exact frame_in s p f l hI (port_lt hI p) hsingle hptp _ rfl
  case supervision =>
    intro s k hI hruns hpair hsup hdue
    obtain ⟨e, x, y, v, hblocks, -⟩ := supQueued_blocks k s
    refine ⟨supQueued k s, exec_supervisionTx_due hruns hpair hsup hdue, ?_, supQueued_sent hI k, supQueued_pair hI k⟩
    rw [hblocks]
    exact frame_eth_pairs_cls_evt s e x y v

end Sys2Proof.Proofs.Reception
end

section
/-!
Access frames: what one command of a request does to the shared region, and the response. The words of a command are in
Sys2Proof/Laws/AccessRun.lean.
-/

namespace Sys2Proof.Proofs.AccessFrames

open Sys2Proof.Machine Sys2Proof.Safety Sys2Proof.Laws Sys2Proof.Proofs.Board Sys2Proof.Proofs.ManagementPort
open Sys2Proof.Proofs.Timekeeper

/-! ### The entry of a command (Table 6-8) -/

/-- The entry of a command that went through: all its words, and the data that its opcode delivers. -/
def okEntry (c : AccCmd) (data : List Word) : AccEntry :=
  { status := 0, words := c.words, addr := c.addr, xbCode := 0, data }

theorem entry_ok {c : AccCmd} {data : List Word} (hwords : c.words < 256) (hsize : c.dsize = data.length) :
    ({ status := 0, words := c.words, xbCode := 0, data } : AccRun).entry c = okEntry c data := by
  simp [AccRun.entry, okEntry, Nat.mod_eq_of_lt hwords, hsize]

/-- The entry of a refused command delivers zeros (Table 6-9). -/
theorem accEnd_refused (c : AccCmd) :
    accEnd c 6 = { status := 6, words := 0, addr := c.addr, xbCode := 0, data := List.replicate c.dsize 0 } := by
  simp [accEnd, AccRun.entry, AccRun.fail, AccRun.start]

/-! ### One command (R355) -/

/-- The words that a READ delivers. -/
def sharedWords (o n : Nat) (s : State) : List Word :=
  (List.range n).map (fun i => BitVec.ofNat 32 (ofLE (Memory.getAll s.mem.shared (o + 4 * i) 4)))

/-- The memory after a WRITE of words at `o`, with the accesses of port A on record. -/
def wroteWords (o : Nat) (ws : List Word) (l : List PortARec) (m : MemBlk) : MemBlk :=
  { m with shared := Memory.putAll m.shared o (ws.flatMap (fun w => toLE 4 w.toNat)), portA := l }

section SharedCommand

variable {s : State} {c : AccCmd} {o : Nat} {envs : List BankEnv} (hquiet : QuietEnvs envs)
variable (hcore : coreAnswers s = true) (hpreset : c.preset = none) (hwords : c.words < 256)
variable (haddr : c.addr.toNat = 0x100000 + o) (hlt : o < 0x20000) (halign : o % 4 = 0)
include hquiet hcore hpreset hwords haddr hlt halign

theorem accCommand_read (hend : o + 4 * c.words ≤ 0x20000) (hop : c.opcode = 3) (hsize : c.dsize = c.words) :
    ∃ n, accCommand c 0 false envs s =
      { accDone (okEntry c (sharedWords o c.words s)) s with used := n } := by
  have hreads : accReads c.words c.addr.toNat envs .start s =
      ({ status := 0, words := c.words, xbCode := 0, data := sharedWords o c.words s }, s) := by
    have hlaw := accReads_shared c.words c.addr.toNat o 0 envs [] s hquiet hcore haddr hend
    rw [Nat.zero_add, List.nil_append] at hlaw
    exact hlaw
  have hlen : c.dsize = (sharedWords o c.words s).length := by simp [sharedWords, hsize]
  rw [accCommand_shared c 0 o envs s haddr halign hlt hend (Or.inr hop) hpreset]
  simp only [accCore, hop, if_true, hreads, Nat.lt_irrefl, if_false, entry_ok hwords hlen]
  exact ⟨_, rfl⟩

/-- The record of port A does not depend on the frames that are held. -/
theorem accCommand_write (hend : o + 4 * c.words ≤ 0x1B000) (hop : c.opcode = 2) (hsize : c.dsize = 0)
    (hdata : c.data.length = c.words) :
    ∃ l, ∀ h, ∃ n, accCommand c 0 false envs { s with hp := h } =
      { accDone (okEntry c []) { s with hp := h, mem := wroteWords o c.data l s.mem } with used := n } := by
  obtain ⟨l, hwrites⟩ := accWrites_shared 0 c.data c.addr.toNat o 0 envs s hquiet hcore haddr (by omega)
  refine ⟨l, fun h => ?_⟩
  have hwrote := hwrites h
  rw [Nat.zero_add, hdata] at hwrote
  have hop3 : ¬ c.opcode = 3 := by simp [hop]
  have htake : c.data.take c.words = c.data := by rw [← hdata, List.take_length]
  rw [accCommand_shared c 0 o envs _ haddr halign hlt (by omega) (Or.inl hop) hpreset]
  simp only [accCore, hop3, if_false, htake, AccRun.start, hwrote, Nat.lt_irrefl, entry_ok hwords (data := []) hsize]
  exact ⟨_, rfl⟩

end SharedCommand

/-- A word of the MGT block is refused to a frame before any word of the command is touched. -/
theorem accCommand_mgt {c : AccCmd} {envs : List BankEnv} (hpreset : c.preset = none)
    (hmgt : isMgt c.addr.toNat = true) (halign : c.addr.toNat % 4 = 0) (hsome : 0 < c.words)
    (hop : c.opcode = 2 ∨ c.opcode = 3) (s : State) :
    accCommand c 0 false envs s =
      accDone { status := 6, words := 0, addr := c.addr, xbCode := 0, data := List.replicate c.dsize 0 } s := by
  have hatomic : ¬ c.opcode = 0x60 := by rcases hop with h | h <;> simp [h]
  have hrange : 0x1000 ≤ c.addr.toNat ∧ c.addr.toNat < 0x2000 := by simpa [isMgt] using hmgt
  have hfirst : (accSpan c.addr.toNat (min c.words ((0x001FFF + 1 - c.addr.toNat) / 4))).any
      (fun x => frameRefused x (c.opcode == 0x02)) = true := by
    refine List.any_eq_true.2 ⟨c.addr.toNat, ?_, by simp [frameRefused, hmgt]⟩
    simp only [accSpan, List.mem_map, List.mem_range]
    exact ⟨0, by omega, rfl⟩
  simp only [accCommand, hpreset, reduceCtorEq, if_false, Bool.false_eq_true, hatomic, halign, ne_eq, not_true_eq_false,
    rowOf_mgt hmgt, hfirst, if_true, accEnd_refused]

/-! ### ACCESS_FRAME_EXECUTE (R354, R355) -/

/-- HP with the frame at its head run to the one entry `e`. -/
def ranOne (q : AccReq) (qs : List AccReq) (e : AccEntry) (s : State) : HpBlk :=
  { s.hp with held := { q with
      started := some (q.started.getD (stampNow s))
      done := [e]
      waitTag := none
      landed := none
      sent := 0 } :: qs }

/-- A frame of one command that completes; `m` is the memory that the command leaves. -/
theorem exec_accessFrame_one {s : State} {q : AccReq} {qs : List AccReq} {c : AccCmd} {envs : List BankEnv}
    {e : AccEntry} {m : MemBlk} (hplay : inPlay s = true) (hheld : s.hp.held = q :: qs) (hcmds : q.cmds = [c])
    (hdone : q.done = [])
    (hcommand : ∀ h, ∃ n, accCommand c 0 false envs { s with hp := h, mem := { s.mem with portA := [] } } =
      { accDone e { s with hp := h, mem := m } with used := n }) :
    exec (.accessFrameExecute envs) s = .next { s with hp := ranOne q qs e s, mem := m } := by
  refine oneCmd q qs c envs s hplay hheld hcmds hdone e { s with mem := m } ?_
  rintro s1 ⟨h, rfl⟩
  exact hcommand h

/-! ### The response (R359) -/

/-- Giving a message its host tag leaves its bytes and its place in the queues. -/
theorem setRespTag_sent {kind : MsgKind} {p c i : Nat} {bytes tag : List Byte} {t : State} (hp : p ≤ 8)
    (h : ∃ m ∈ t.cls.msgs, m.id = i ∧ m.kind = kind ∧ m.bytes = bytes ∧
      ∃ q, (queueOf p c t).getLast? = some q ∧ q.msg = m.id) :
    Sent kind p c bytes (setRespTag i tag t) := by
  obtain ⟨m, hm, hid, hkind, hbytes, q, hlast, hmsg⟩ := h
  have hqueue : queueOf p c (setRespTag i tag t) = queueOf p c t := by
    simp only [queueOf, queuesOf, hp, if_true, setRespTag]
  refine ⟨{ m with template := some tag }, List.mem_map.2 ⟨m, hm, if_pos hid⟩, hkind, hbytes, q, ?_, hmsg⟩
  rw [hqueue]
  exact hlast

theorem frame_cls (s : State) (y : ClsBlk) : Frame [.cls] s { s with cls := y } := by
  intro part hpart
  cases part <;> simp [Agree] at hpart ⊢

theorem frame_hp (s : State) (x : HpBlk) : Frame [.hp] s { s with hp := x } := by
  intro part hpart
  cases part <;> simp [Agree] at hpart ⊢

/-- The state in which the frame at the head has been answered. -/
def answered (qs : List AccReq) (s : State) : State :=
  { s with hp := { s.hp with held := qs, accessDone := satInc s.hp.accessDone } }

/-- The response queued on HP, without its host tag. -/
def respQueued (q : AccReq) (qs : List AccReq) (s : State) : State :=
  let r : Route := { id := accessRoute s, res := padTo 32 (resultOf (accessRoute s) s) }
  bufferAndQueue (respInbound (accResponse q s) (q.started.getD (stampNow s)) s) r
    (if q.down then 0 else routeClass r s) q.down [8] (answered qs s)

theorem exec_accessResponseTx_done {s : State} {q : AccReq} {qs : List AccReq} (hplay : inPlay s = true)
    (hheld : s.hp.held = q :: qs) (hdone : q.done.length = q.cmds.length) :
    exec .accessResponseTx s =
      .next (setRespTag s.cls.nextMsg (accTag (q.started.getD (stampNow s))) (respQueued q qs s)) := by
  simp only [exec, execAccessResponseTx, hplay, if_true, accessRespond, hheld, hdone, Nat.lt_irrefl, if_false]
  rfl

theorem respQueued_spec {s : State} (hI : Inv s) (q : AccReq) (qs : List AccReq) :
    let r : Route := { id := accessRoute s, res := padTo 32 (resultOf (accessRoute s) s) }
    let c := if q.down then 0 else routeClass r s
    let bytes := accResponse q s
    c < 6 → Roomy 8 c bytes.length s →
      Frame [.eth, .pairs, .cls, .rte] (answered qs s) (respQueued q qs s) ∧
        ∃ m ∈ (respQueued q qs s).cls.msgs, m.id = s.cls.nextMsg ∧ m.kind = .accessResp ∧ m.bytes = bytes ∧
          ∃ x, (queueOf 8 c (respQueued q qs s)).getLast? = some x ∧ x.msg = m.id := by
  intro r c bytes hc hroom
  have hfits : Roomy 8 c bytes.length (answered qs s) :=
    ⟨hroom.1, (congrArg Option.isSome (allot_congr c _ rfl rfl rfl)).trans hroom.2⟩
  have hports : s.eth.length = 9 := eth_len hI
  have hqueues : (ethAt 8 s).queues.length = 6 := port_queues_length hI 8
  exact buffer_one (respInbound bytes (q.started.getD (stampNow s)) s) r c 8 q.down (answered qs s) hports (by decide)
    hc hqueues hfits rfl (by simp [respInbound])

/-- Settles O52: the three commands each run to one entry; the response is queued and then given its host tag. -/
theorem accessFramesRun : Obligations.AccessFramesRun := by
  unfold Obligations.AccessFramesRun
  refine ⟨?execute, ?respond⟩
  case execute =>
    intro s q qs c o envs hplay hcore hheld hcmds hdone hpreset hwords hquiet hwf ran
    let cleared : State := { s with mem := { s.mem with portA := [] } }
    refine ⟨fun haddr hlt halign => ⟨?read, ?write⟩, ?mgt⟩
    case read =>
      intro hend hop hsize
      have hexec := exec_accessFrame_one (e := okEntry c (sharedWords o c.words s)) (m := cleared.mem) hplay hheld hcmds
        hdone fun h =>
          accCommand_read (s := { cleared with hp := h }) hquiet hcore hpreset hwords haddr hlt halign hend hop hsize
      exact ⟨_, hexec, frame_mem s _ _, fun _ => rfl, rfl⟩
    case write =>
      intro hend hop hsize hdata
      obtain ⟨l, hcommand⟩ :=
        accCommand_write (s := cleared) hquiet hcore hpreset hwords haddr hlt halign hend hop hsize hdata
      have hexec := exec_accessFrame_one (m := wroteWords o c.data l cleared.mem) hplay hheld hcmds hdone hcommand
      have hbytes : (c.data.flatMap (fun w => toLE 4 w.toNat)).length = 4 * c.words := by
        rw [wordBytes_length, hdata]
      exact ⟨_, hexec, frame_mem s _ _, rfl, getAll_putAll_of_length hwf hbytes, sharedBut_of_putAll rfl hbytes⟩
    case mgt =>
      intro hmgt halign hsome hop
      have hexec := exec_accessFrame_one (m := cleared.mem) (envs := envs) hplay hheld hcmds hdone fun h =>
        ⟨0, accCommand_mgt hpreset hmgt halign hsome hop { cleared with hp := h }⟩
      exact ⟨_, hexec, frame_mem s _ _, fun _ => rfl, rfl⟩
  case respond =>
    intro s q qs hI hplay hheld hdone r c bytes hc hroom
    obtain ⟨hqueued, hsent⟩ := respQueued_spec hI q qs hc hroom
    refine ⟨_, exec_accessResponseTx_done hplay hheld hdone, ?frame, hqueued .hp rfl, setRespTag_sent (by decide) hsent⟩
    case frame =>
      have htagged := frame_trans (frame_trans (frame_hp s _) hqueued)
        (frame_cls _ (setRespTag s.cls.nextMsg (accTag (q.started.getD (stampNow s))) (respQueued q qs s)).cls)
      intro part hpart
      exact htagged part (by cases part <;> simp at hpart ⊢)

end Sys2Proof.Proofs.AccessFrames
end

section
/-!
Serial channels: one character of a sentence. What the framing does to a channel is said in
Sys2Proof/Laws/SerialIn.lean; here each outcome of a character is one change of its channel.
-/

namespace Sys2Proof.Proofs.SerialCharacters

open Sys2Proof.Machine Sys2Proof.Safety Sys2Proof.Laws

/-! ### Deadlines, frames and changes of one channel -/

theorem due_of_le {d : Nat} {s : State} (h : d ≤ localNow s) : due d s = true := by
  simpa [due] using h

/-- A frame that names more parts says less. -/
theorem frame_widen {as bs : List Part} {s t : State} (h : Frame as s t) (hsub : as ⊆ bs) : Frame bs s t := by
  intro part hpart
  refine h part ?_
  simp only [List.contains_eq_mem, decide_eq_false_iff_not] at hpart ⊢
  exact fun hin => hpart (hsub hin)

theorem channel_lt {s : State} (hI : Inv s) (c : Fin 24) : c.val < s.ser.length := by
  rw [ser_len hI]
  exact c.isLt

/-- A channel with its counter `i` of Table 7-11 advanced. -/
def counted (i : Nat) (k : SerChan) : SerChan := { k with cnt := upd satInc k.cnt i }

/-- A channel without its partial message. -/
def dropped (st : RxSt) (k : SerChan) : SerChan := { k with frame := none, spoiled := false, rx := st }

/-- A channel whose message `m` has completed now. -/
def completed (m : SerMsg) (now : Nat) (k : SerChan) : SerChan :=
  { k with wait := some { m with origin := now }, frame := none, rx := .idle }

/-- A message of which `b` is the first byte (R391). -/
def opening (b : Byte) (idle : Bool) (stamp : Stamp) : SerMsg :=
  { bytes := [b], stamp, origin := 0, idle, group := none, encroached := false }

theorem serCount_eq (c i : Nat) (s : State) : serCount c i s = updSer c (counted i) s := rfl

theorem dropFrame_eq (c : Nat) (st : RxSt) (s : State) : dropFrame c st s = updSer c (dropped st) s := rfl

theorem serCount_dropFrame (c i : Nat) (st : RxSt) (s : State) :
    serCount c i (dropFrame c st s) = updSer c (fun k => counted i (dropped st k)) s := by
  rw [serCount_eq, dropFrame_eq, updSer_updSer]

/-- A message that completes while no other waits takes the second buffer (R398, R403). -/
theorem serComplete_free {c : Nat} {s : State} (hfree : (serAt c s).wait = none) (m : SerMsg) :
    serComplete c m s = updSer c (completed m (localNow s)) s := by
  simp only [serComplete, hfree, Option.isSome_none, Bool.false_eq_true, if_false]
  rfl

/-! ### One character of a sentence (R391 to R398) -/

/-- A character that opens no sentence is a stray outside one (R391). -/
theorem sentenceChar1_stray {c : Nat} {s : State} (b : Byte) (t : Stamp) (hdollar : b ≠ 0x24) (hbang : b ≠ 0x21)
    (hnone : (serAt c s).frame = none) : sentenceChar1 c b t s = updSer c (counted 5) s := by
  simp only [sentenceChar1, hdollar, hbang, or_self, if_false, hnone, serCount_eq]

section Sentence

variable {c : Nat} {s : State} (hslots : flagAt (serEntry c s) 0 2 = false) (b : Byte) (t : Stamp)
include hslots

/-- '$' or '!' opens a sentence (R391). -/
theorem sentenceChar1_opens (hb : b = 0x24 ∨ b = 0x21) : sentenceChar1 c b t s =
    updSer c (fun k => { k with frame := some (opening b false t), rx := .receiving, spoiled := false }) s := by
  simp only [sentenceChar1, hb, if_true, openFrame]
  exact slotCheck_off _ _ _ _ hslots

variable {f : SerMsg} (hdollar : b ≠ 0x24) (hbang : b ≠ 0x21) (hframe : (serAt c s).frame = some f)
include hdollar hbang hframe

theorem sentenceChar1_grows (hstep : sentenceStep (f.bytes ++ [b]) = .grow)
    (hshort : (f.bytes ++ [b]).length < serMaxLen (serEntry c s)) : sentenceChar1 c b t s =
      updSer c (fun k => { k with frame := some { f with bytes := f.bytes ++ [b] } }) s := by
  have hfits : ¬ serMaxLen (serEntry c s) ≤ (f.bytes ++ [b]).length := by omega
  simp only [sentence_grow c b t f s hdollar hbang hframe hslots, hstep, hfits, if_false]

theorem sentenceChar1_completes (hstep : sentenceStep (f.bytes ++ [b]) = .complete)
    (hfree : (serAt c s).wait = none) :
    sentenceChar1 c b t s = updSer c (completed { f with bytes := f.bytes ++ [b] } (localNow s)) s := by
  simp only [sentence_grow c b t f s hdollar hbang hframe hslots, hstep, serComplete_free hfree]

theorem sentenceChar1_fails_checksum (hstep : sentenceStep (f.bytes ++ [b]) = .checksum) :
    sentenceChar1 c b t s = updSer c (fun k => counted 6 (dropped .idle k)) s := by
  simp only [sentence_grow c b t f s hdollar hbang hframe hslots, hstep, serCount_dropFrame]

theorem sentenceChar1_breaks_format (hstep : sentenceStep (f.bytes ++ [b]) = .format) :
    sentenceChar1 c b t s = updSer c (fun k => counted 7 (dropped .discarding k)) s := by
  simp only [sentence_grow c b t f s hdollar hbang hframe hslots, hstep, serCount_dropFrame]

end Sentence

/-! ### SER_CHAR_RX (R376 to R378) -/

/-- The character on the line as channel `c` reads it. -/
def charRead (c : Nat) (l : LineChar) (s : State) : CharRead :=
  readChar (serEntry c s) (serAt c s).div (localNow s * 4 - l.age) l.edges

/-- Channel `c` has a fixed rate, frames sentences on an unslotted line, listens, and reads the start bit of `l` as a
start bit. -/
structure ReadsSentences (c : Fin 24) (l : LineChar) (s : State) : Prop where
  receives : serReceives c s = true
  sees : (serAt c s).rx ≠ .blinded
  synced : (serAt c s).skipIdle = false
  undriven : (serAt c s).deOn = false
  silent : (serAt c s).txSt ≠ .sending
  unbacked : (serAt c s).backoff = none
  fixedRate : serAbrMode (serEntry c s) = 0
  sentences : serIdleMode (serEntry c s) = false
  unslotted : flagAt (serEntry c s) 0 2 = false
  started : readBit (serOver (serEntry c s)) (serAt c s).div (localNow s * 4 - l.age) l.edges 0 = false

/-- The channel once a character has been read: it is counted, and the line is busy. -/
def charTaken (bad : Bool) (now : Nat) (k : SerChan) : SerChan :=
  { counted 0 k with errRun := if bad then k.errRun + 1 else 0, lastChar := now, lineIdle := false }

section Character

variable {c : Fin 24} {l : LineChar} {s : State} (h : ReadsSentences c l s)
include h

/-- A character whose start bit holds is taken as it is read. -/
theorem exec_serCharRx_takes :
    exec (.serCharRx c l) s = .next (takeChar c (charRead c l s) (stampAgo l.age s) s) := by
  have hline : ¬ ((serAt c s).rx = .blinded ∨ (serAt c s).skipIdle = true ∨
      ((serAt c s).deOn = true ∧ serDuplex (serEntry c s) = 1) ∨
      ((serAt c s).txSt = .sending ∧ 2 ≤ serDuplex (serEntry c s))) := by
    simp [h.sees, h.synced, h.undriven, h.silent]
  simp only [exec, execSerCharRx, charRx, h.receives, if_true, hline, h.fixedRate, ne_eq, not_true_eq_false, false_and,
    if_false, h.started, Bool.false_eq_true, h.unbacked, Option.isSome_none]
  rfl

/-- A character with one error drops the partial sentence and counts (R378, R397). -/
theorem serCharRx_with_error (hI : Inv s) {i : Nat} {f : SerMsg}
    (herror : ((charRead c l s).framing = true ∧ (charRead c l s).parity = false ∧ i = 2) ∨
      ((charRead c l s).framing = false ∧ (charRead c l s).parity = true ∧ i = 3))
    (hframe : (serAt c s).frame = some f) :
    ∃ t, exec (.serCharRx c l) s = .next t ∧ Frame [.ser] s t ∧
      ChannelIs c (counted i (dropped .idle (charTaken true (localNow s) (serAt c s)))) s t := by
  have hlen := channel_lt hI c
  exact serBecomes' hlen (exec_serCharRx_takes h)
    (takeChar_bad _ _ _ _ i f herror h.fixedRate h.sentences hframe hlen) rfl

/-- A character without error is framed, on the channel that has counted it. -/
theorem serCharRx_framed (hI : Inv s) (hframing : (charRead c l s).framing = false)
    (hparity : (charRead c l s).parity = false) {f : SerChan → SerChan}
    (hstep : ∀ s1 : State, serAt c s1 = charTaken false (localNow s) (serAt c s) → serEntry c s1 = serEntry c s →
      localNow s1 = localNow s →
      sentenceChar1 c (BitVec.ofNat 8 (charRead c l s).value) (stampAgo l.age s) s1 = updSer c f s1) :
    ∃ t, exec (.serCharRx c l) s = .next t ∧ Frame [.ser] s t ∧
      ChannelIs c (f (charTaken false (localNow s) (serAt c s))) s t := by
  have hlen := channel_lt hI c
  refine serBecomes (f := fun k => f (charTaken false (localNow s) k)) hlen ?framed rfl
  case framed =>
    have htaken : serAt c (updSer c (charTaken false (localNow s)) s) = charTaken false (localNow s) (serAt c s) :=
      serAt_upd _ _ _ hlen
    rw [exec_serCharRx_takes h, takeChar_good _ _ _ _ hframing hparity h.sentences, ← updSer_updSer]
    exact congrArg _ (hstep _ htaken rfl rfl)

end Character

/-- Settles O53: the framing of a character without error is one of the steps of a sentence. -/
theorem charactersMakeSentences : Obligations.CharactersMakeSentences := by
  unfold Obligations.CharactersMakeSentences
  intro s c l hI hreceives e k r b hsees hsynced hundriven hsilent hunbacked hfixed hsentences hslots hstarted k1 count
    becomes
  have h : ReadsSentences c l s :=
    ⟨hreceives, hsees, hsynced, hundriven, hsilent, hunbacked, hfixed, hsentences, hslots, hstarted⟩
  have hk1 : k1 = charTaken (r.framing || r.parity) (localNow s) k := rfl
  rw [hk1]
  refine ⟨?framing, ?parity, ?good⟩
  case framing =>
    intro hframing hparity f hframe
    rw [hframing, Bool.true_or]
    exact serCharRx_with_error h hI (Or.inl ⟨hframing, hparity, rfl⟩) hframe
  case parity =>
    intro hframing hparity f hframe
    rw [hparity, Bool.or_true]
    exact serCharRx_with_error h hI (Or.inr ⟨hframing, hparity, rfl⟩) hframe
  case good =>
    intro hframing hparity
    rw [hframing, hparity, Bool.or_false]
    refine ⟨fun hb => ?opens, fun hdollar hbang hnone => ?stray, fun f hdollar hbang hframe => ?inside⟩
    case opens =>
      exact serCharRx_framed h hI hframing hparity fun s1 _ hentry _ =>
        sentenceChar1_opens (hentry ▸ h.unslotted) b _ hb
    case stray =>
      exact serCharRx_framed h hI hframing hparity fun s1 hk _ _ =>
        sentenceChar1_stray b _ hdollar hbang (by rw [hk]; exact hnone)
    case inside =>
      have hin : ∀ s1 : State, serAt c s1 = charTaken false (localNow s) (serAt c s) → (serAt c s1).frame = some f :=
        fun s1 hk => by rw [hk]; exact hframe
      refine ⟨fun hstep hshort => ?grows, fun hstep hfree => ?completes, fun hstep => ?checksum, fun hstep => ?format⟩
      case grows =>
        exact serCharRx_framed h hI hframing hparity fun s1 hk hentry _ =>
          sentenceChar1_grows (hentry ▸ h.unslotted) b _ hdollar hbang (hin s1 hk) hstep (by rw [hentry]; exact hshort)
      case completes =>
        exact serCharRx_framed h hI hframing hparity fun s1 hk hentry hnow =>
          hnow ▸ sentenceChar1_completes (hentry ▸ h.unslotted) b _ hdollar hbang (hin s1 hk) hstep (by rw [hk]; exact hfree)
      case checksum =>
        exact serCharRx_framed h hI hframing hparity fun s1 hk hentry _ =>
          sentenceChar1_fails_checksum (hentry ▸ h.unslotted) b _ hdollar hbang (hin s1 hk) hstep
      case format =>
        exact serCharRx_framed h hI hframing hparity fun s1 hk hentry _ =>
          sentenceChar1_breaks_format (hentry ▸ h.unslotted) b _ hdollar hbang (hin s1 hk) hstep

end Sys2Proof.Proofs.SerialCharacters
end

section
/-!
Serial channels: idle lines, blinding, the restart commands, and the hand-over of complete messages to the board.
-/

namespace Sys2Proof.Proofs.SerialLines

open Sys2Proof.Machine Sys2Proof.Safety Sys2Proof.Laws Sys2Proof.Proofs.Board Sys2Proof.Proofs.Positions
open Sys2Proof.Proofs.Timekeeper Sys2Proof.Proofs.SerialCharacters

/-! ### Events of a channel -/

theorem frame_ser_evt (s : State) (l : List SerChan) (v : EvtBlk) :
    Frame [.ser, .evt] s { s with ser := l, evt := v } := by
  intro part hpart
  cases part <;> simp [Agree] at hpart ⊢

/-- An event of a channel raised on top of a change of that channel sets its pending bit there, reaches the event block
alone, and is reported. -/
theorem raise_on_channel {e : Ev} {b c : Nat} {f : SerChan → SerChan} {s : State} (d : Word) (hpend : e.pendAt = .ser b)
    (hb : b < 6) (hlen : c < s.ser.length) (hint : (f (serAt c s)).int = (serAt c s).int) :
    let t := raiseAt e c d (updSer c f s)
    ChannelIs c { f (serAt c s) with int := setBit (serAt c s).int b } s t ∧ t.ser.length = s.ser.length ∧
      (∃ v, t = { s with ser := t.ser, evt := v }) ∧ Reported e c d s t := by
  intro t
  have hlen' : c < (updSer c f s).ser.length := by simpa [updSer] using hlen
  have hchan : serAt c (updSer c f s) = f (serAt c s) := serAt_upd c f s hlen
  obtain ⟨hraised, hothers, v, hblocks⟩ := raiseSer_at e b c d (updSer c f s) hpend hlen'
  refine ⟨⟨?channel, fun q hq => ?others⟩, ?length, ⟨v, hblocks⟩, ?report⟩
  case channel => rw [hraised, hchan, hint]
  case others => rw [hothers q hq]; exact nth_upd_other _ _ _ (Ne.symm hq)
  case length => rw [raiseSer_len e b c d _ hpend]; simp [updSer]
  case report => exact reportSer e b c d s _ hpend hb hlen' rfl (by rw [hchan, hint])

/-! ### Idle lines and glitches (R375, R386, R389, R397, R399) -/

section Receiving

variable {s : State} {c : Fin 24} (hreceives : serReceives c s = true)
include hreceives

theorem exec_serGlitch_counts (hover : serOver (serEntry c s) ≠ 3) :
    exec (.serGlitch c) s = .next (updSer c (counted 4) s) := by
  have hfilter : (serOver (serEntry c s) != 3) = true := by simpa using hover
  simp only [exec, execSerGlitch, hreceives, hfilter, Bool.and_self, if_true, serCount_eq]

/-- A channel whose line has become idle. -/
def idled (k : SerChan) : SerChan := { k with lineIdle := true, skipIdle := false }

theorem exec_serLineIdle_due (hbusy : (serAt c s).lineIdle = false) (hsees : (serAt c s).rx ≠ .blinded)
    (hdue : (serAt c s).lastChar + halfChars (serIdleHct (serEntry c s)) (serEntry c s) (serAt c s) ≤ localNow s) :
    exec (.serLineIdle c) s = .next (lineIdle c s) := by
  have hopen : ((serAt c s).rx != .blinded) = true := by simpa using hsees
  simp only [exec, execSerLineIdle, hreceives, hbusy, hopen, due_of_le hdue, Bool.not_false, Bool.and_self, if_true]

theorem exec_abrIdleExpiry_due (hneed : (serAt c s).needIdle = true)
    (hdue : (serAt c s).lastChar + be16 (serEntry c s) 22 * 250 ≤ localNow s) :
    exec (.abrIdleExpiry c) s = .next (updSer c (fun k => { k with needIdle := false }) s) := by
  simp only [exec, execAbrIdleExpiry, hreceives, hneed, due_of_le hdue, Bool.and_self, if_true]

/-! ### Blinding (R427 to R429) -/

/-- A channel that has become BLINDED. -/
def blinded (k : SerChan) : SerChan := counted 10 { dropped .blinded k with lineIdle := false }

theorem exec_serBlindEnter_sees (hsees : (serAt c s).rx ≠ .blinded) :
    exec (.serBlindEnter c) s = .next (raiseAt .serBlind c (BitVec.ofNat 32 c) (updSer c blinded s)) := by
  have hopen : ((serAt c s).rx != .blinded) = true := by simpa using hsees
  simp only [exec, execSerBlindEnter, hreceives, hopen, Bool.and_self, if_true, serCount_eq, dropFrame_eq,
    updSer_updSer]
  rfl

theorem serBlindEnter_blinds (hI : Inv s) (hsees : (serAt c s).rx ≠ .blinded) :
    ∃ t, exec (.serBlindEnter c) s = .next t ∧ Frame [.ser, .evt] s t ∧ (serAt c t).rx = .blinded ∧
      (serAt c t).frame = none ∧ nth 0 (serAt c t).cnt 10 = nth 0 (upd satInc (serAt c s).cnt 10) 10 ∧
      (∀ d, d ≠ c.val → serAt d t = serAt d s) ∧ Reported .serBlind c (BitVec.ofNat 32 c) s t := by
  obtain ⟨⟨hchan, hothers⟩, -, ⟨v, hblocks⟩, hreport⟩ := raise_on_channel (e := .serBlind) (f := blinded)
    (BitVec.ofNat 32 c) rfl (by decide) (channel_lt hI c) rfl
  refine ⟨_, exec_serBlindEnter_sees hreceives hsees, ?frame, ?rx, ?message, ?count, hothers, hreport⟩
  case frame => rw [hblocks]; exact frame_ser_evt s _ v
  case rx => rw [hchan]; rfl
  case message => rw [hchan]; rfl
  case count => rw [hchan]; rfl

theorem exec_serBlindExit_fixed (hblind : (serAt c s).rx = .blinded) (hfixed : serAbrMode (serEntry c s) = 0) :
    exec (.serBlindExit c) s = .next (updSer c (fun k => { k with rx := .idle, lineIdle := true }) s) := by
  simp only [exec, execSerBlindExit, hreceives, hblind, beq_self_eq_true, Bool.and_self, if_true, hfixed]

end Receiving

/-- An idle line completes the partial message of an IDLE channel (R399). -/
theorem lineIdle_completes {c : Nat} {s : State} {f : SerMsg} (hlen : c < s.ser.length)
    (hframe : (serAt c s).frame = some f) (hidle : serIdleMode (serEntry c s) = true)
    (hclean : (serAt c s).spoiled = false) (hfree : (serAt c s).wait = none) :
    lineIdle c s = updSer c (fun k => completed f (localNow s) (idled k)) s := by
  have hchan : serAt c (updSer c idled s) = idled (serAt c s) := serAt_upd _ _ _ hlen
  have hfree' : (serAt c (updSer c idled s)).wait = none := by rw [hchan]; exact hfree
  have hcompleted := serComplete_free hfree' f
  rw [updSer_updSer] at hcompleted
  simp only [lineIdle, hframe, hidle, if_true, hclean, Bool.false_eq_true, if_false]
  exact hcompleted

/-- An idle line breaks the partial sentence of a SENTENCE channel (R397). -/
theorem lineIdle_breaks {c : Nat} {s : State} {f : SerMsg} (hframe : (serAt c s).frame = some f)
    (hsentences : serIdleMode (serEntry c s) = false) :
    lineIdle c s = updSer c (fun k => counted 9 (dropped .idle (idled k))) s := by
  simp only [lineIdle, hframe, hsentences, Bool.false_eq_true, if_false, serCount_dropFrame, updSer_updSer]
  rfl

/-! ### Commands (Table 7-10, R388) -/

theorem serRxEn_of_receives {c : Nat} {s : State} (h : serReceives c s = true) : serRxEn (serEntry c s) = true := by
  simp only [serReceives, Bool.and_eq_true] at h
  exact h.1

/-- A channel in SEARCH. -/
def searching (k : SerChan) : SerChan :=
  { k with rx := .search, locked := false, errRun := 0, frame := none, spoiled := false, needIdle := false }

theorem exec_abrRestart_searches {s : State} {c : Fin 24} (hreceives : serReceives c s = true)
    (hcore : coreAnswers s = true) (hrun : s.pos.running = true) (hsees : (serAt c s).rx ≠ .blinded)
    (habr : serAbrMode (serEntry c s) ≠ 0) : exec (.abrRestart c) s = .next (updSer c searching s) := by
  simp only [exec, execAbrRestart, ifCore_answers hcore, abrRestart, habr, hrun, hsees, serRxEn_of_receives hreceives,
    Bool.true_eq_false, or_self, if_false]
  rfl

theorem exec_rxRestart_drops {s : State} {c : Fin 24} (hcore : coreAnswers s = true)
    (hopen : (serAt c s).rx = .receiving) : exec (.rxRestart c) s = .next (updSer c (dropped .idle) s) := by
  simp [exec, execRxRestart, ifCore_answers hcore, rxRestart, hopen, dropFrame_eq]

/-! ### The hand-over (R403, R404) -/

/-- The state in which the SE port has taken the message of channel `c`. -/
def handedOver (c : Nat) (s : State) : State :=
  { updSer c (fun k => counted 1 { k with wait := none }) s with
    cls := { s.cls with seNext := localNow s + 16 } }

/-- The SE port takes the oldest complete message. -/
theorem exec_seHandover_oldest {c : Nat} {m : SerMsg} {s : State} (hI : Inv s) (hfabric : fabricRuns s = true)
    (hrun : s.pos.running = true) (hready : s.cls.seNext ≤ localNow s) (hc : c < 24)
    (hwait : (serAt c s).wait = some m)
    (holdest : ∀ d, d ≠ c → ∀ x, (serAt d s).wait = some x → m.origin < x.origin) :
    exec .seHandover s = .next (enterBoard (serialInbound c m s) (handedOver c s)) := by
  have hfound : oldestWait 0 s.ser none = some (c, m) := by
    have hspec := oldestWait_spec s.ser 0 c m none (by rw [ser_len hI]; exact hc) hwait
      (fun d _ hd => holdest d hd) (by simp)
    simpa using hspec
  simp only [exec, execSeHandover, hfabric, hrun, due_of_le hready, Bool.and_self, hfound, serCount_eq, updSer_updSer]
  rfl

theorem handedOver_frame (c : Nat) (s : State) : Frame [.ser, .cls] s (handedOver c s) := by
  intro part hpart
  cases part <;> simp [Agree, handedOver, updSer] at hpart ⊢

/-- Taking a message from its channel changes nothing that the way of the message depends on. -/
theorem roomy_handedOver {e cl n c : Nat} {s : State} (h : Roomy e cl n s) : Roomy e cl n (handedOver c s) := by
  obtain ⟨hfwd, hroom⟩ := h
  exact ⟨hfwd, (congrArg Option.isSome (allot_recs cl n rfl rfl rfl)).trans hroom⟩

theorem seHandover_sends {c e : Nat} {m : SerMsg} {r : Route} {s : State} (hI : Inv s) (hfabric : fabricRuns s = true)
    (hrun : s.pos.running = true) (hready : s.cls.seNext ≤ localNow s) (hc : c < 24)
    (hwait : (serAt c s).wait = some m)
    (holdest : ∀ d, d ≠ c → ∀ x, (serAt d s).wait = some x → m.origin < x.origin)
    (hroute : lookup (serialInbound c m s).key s = some r) (henabled : resEnabled r.res = true)
    (hkept : keptPorts (serialInbound c m s) r s = [e]) (he : e ≤ 8) (hfilter : resFilter r.res = none)
    (hbound : routeBound r.id s = none) (hclass : messageClass (serialInbound c m s) r s < 6)
    (hpairs : ∀ k, k < 8 → pairMode k s = 0)
    (hroom : Roomy e (messageClass (serialInbound c m s) r s) m.bytes.length s) :
    ∃ t, exec .seHandover s = .next t ∧ Frame [.eth, .pairs, .ser, .cls, .rte] s t ∧
      ChannelIs c (counted 1 { serAt c s with wait := none }) s t ∧
      Sent .serial e (messageClass (serialInbound c m s) r s) m.bytes t := by
  have hsame : messageClass (serialInbound c m s) r (handedOver c s) = messageClass (serialInbound c m s) r s :=
    messageClass_congr _ _ rfl rfl
  obtain ⟨hframe, hsent⟩ := enterBoard_one (serialInbound c m s) r e (handedOver c s)
    (show s.eth.length = 9 from eth_len hI)
    ((lookup_congr _ rfl rfl).trans hroute) henabled ((keptPorts_congr _ r rfl).trans hkept) he
    (show e ≠ 9 by omega) hfilter ((routeBound_congr _ rfl).trans hbound) (by rw [hsame]; exact hclass)
    (port_queues_length hI e) (by rw [hsame]; exact roomy_handedOver hroom)
    (fun k hk => (pairMode_congr k rfl).trans (hpairs k hk)) rfl rfl
  rw [hsame] at hsent
  refine ⟨_, exec_seHandover_oldest hI hfabric hrun hready hc hwait holdest, ?frame, ?channel, hsent⟩
  case frame => exact frame_widen (frame_trans (handedOver_frame c s) hframe) (by simp)
  case channel =>
    have hser : (enterBoard (serialInbound c m s) (handedOver c s)).ser = (handedOver c s).ser := hframe .ser rfl
    obtain ⟨-, htaken⟩ := chanIs c (fun k => counted 1 { k with wait := none }) s (by rw [ser_len hI]; exact hc)
    simp only [ChannelIs, serAt, hser]
    exact htaken

/-- Settles O54: each clause is the law of its command, in the order of the statement. -/
theorem serialLinesEvents : Obligations.SerialLinesEvents := by
  unfold Obligations.SerialLinesEvents
  refine ⟨?lines, ?handover⟩
  case lines =>
    intro s c hI hreceives e k count
    have hlen := channel_lt hI c
    refine ⟨fun hover => ?glitch, fun f hframe hbusy hsees hdue => ⟨fun hidle hclean hfree => ?complete, fun hsent => ?broken⟩,
      fun hneed hdue => ?wait, serBlindEnter_blinds hreceives hI, fun hblind hfixed => ?unblind,
      fun hcore hrun hsees habr => ?search, fun hcore hopen => ?restart⟩
    case glitch => exact serBecomes hlen (exec_serGlitch_counts hreceives hover) rfl
    case complete =>
      exact serBecomes' hlen (exec_serLineIdle_due hreceives hbusy hsees hdue)
        (lineIdle_completes hlen hframe hidle hclean hfree) rfl
    case broken =>
      exact serBecomes' hlen (exec_serLineIdle_due hreceives hbusy hsees hdue) (lineIdle_breaks hframe hsent) rfl
    case wait => exact serBecomes hlen (exec_abrIdleExpiry_due hreceives hneed hdue) rfl
    case unblind => exact serBecomes hlen (exec_serBlindExit_fixed hreceives hblind hfixed) rfl
    case search => exact serBecomes hlen (exec_abrRestart_searches hreceives hcore hrun hsees habr) rfl
    case restart => exact serBecomes hlen (exec_rxRestart_drops hcore hopen) rfl
  case handover =>
    intro s c m r e hI hfabric hrun hready hc hwait holdest n hroute henabled hkept he hfilter hbound hclass hpairs hroom
    exact seHandover_sends hI hfabric hrun hready hc hwait holdest hroute henabled hkept he hfilter hbound hclass hpairs
      hroom

end Sys2Proof.Proofs.SerialLines
end

section
/-!
Serial channels: selection, completion, SERn_DE, collisions and retries, and the slot of a frame.
-/

namespace Sys2Proof.Proofs.SerialTransmission

open Sys2Proof.Machine Sys2Proof.Safety Sys2Proof.Laws Sys2Proof.Proofs.Ports Sys2Proof.Proofs.Timekeeper
open Sys2Proof.Proofs.SerialCharacters Sys2Proof.Proofs.SerialLines

/-! ### Starting a message (R406, R407) -/

/-- Message `x` from `at_` on, for as long as its characters take on a channel of entry `e` (R407). -/
def timed (x : SerTx) (at_ : Nat) (e : List Byte) (k : SerChan) : SerTx :=
  { x with startAt := at_, endAt := at_ + ceilDiv (msgBits x.bytes.length e * serOver e * k.div) 64 }

/-- A channel that sends `x`. -/
def transmitting (x : SerTx) (e : List Byte) (k : SerChan) : SerChan :=
  { k with txSt := .sending, backoff := none, deUntil := none, deOn := usesDe e, tx := some x }

theorem beginTx_eq (c : Nat) (x : SerTx) (s : State) : beginTx c x s =
    updSer c (transmitting (timed x (startCycle c s) (serEntry c s) (serAt c s)) (serEntry c s)) s := rfl

/-- Character times depend on the divider of a channel and on whether it is locked. -/
theorem halfChars_congr {k k' : SerChan} (h : Nat) (e : List Byte) (hdiv : k'.div = k.div) (hlock : k'.locked = k.locked) :
    halfChars h e k' = halfChars h e k := by
  unfold halfChars timeDivider
  rw [hdiv, hlock]

/-- A change that leaves SERn_DE, the end of the last message, the divider and the lock of a channel leaves the instant at
which its next start bit may fall. -/
theorem startCycle_updSer {c : Nat} {f : SerChan → SerChan} {s : State} (hlen : c < s.ser.length)
    (hde : (f (serAt c s)).deOn = (serAt c s).deOn) (hend : (f (serAt c s)).txEnd = (serAt c s).txEnd)
    (hdiv : (f (serAt c s)).div = (serAt c s).div) (hlock : (f (serAt c s)).locked = (serAt c s).locked) :
    startCycle c (updSer c f s) = startCycle c s := by
  simp only [startCycle, bit16Cycles, serEntry_upd, localNow_upd, serAt_upd c f s hlen, hde, hend, hdiv,
    halfChars_congr _ _ hdiv hlock]

/-- Such a change and the start of a message are one change of the channel. -/
theorem beginTx_updSer {c : Nat} {f : SerChan → SerChan} {s : State} (x : SerTx) (hlen : c < s.ser.length)
    (hde : (f (serAt c s)).deOn = (serAt c s).deOn) (hend : (f (serAt c s)).txEnd = (serAt c s).txEnd)
    (hdiv : (f (serAt c s)).div = (serAt c s).div) (hlock : (f (serAt c s)).locked = (serAt c s).locked) :
    beginTx c x (updSer c f s) = updSer c (fun k =>
      transmitting (timed x (startCycle c s) (serEntry c s) (serAt c s)) (serEntry c s) (f k)) s := by
  have hspan : timed x (startCycle c s) (serEntry c s) (f (serAt c s)) =
      timed x (startCycle c s) (serEntry c s) (serAt c s) := by simp only [timed, hdiv]
  rw [beginTx_eq, startCycle_updSer hlen hde hend hdiv hlock, serEntry_upd, serAt_upd c f s hlen, hspan, updSer_updSer]

/-- A message within its budget, or marked, does not fall (R578). -/
theorem not_falling {m : Msg} {marked : Bool} {s : State} (hage : pastBudget m s = false ∨ marked = true) :
    ¬ (pastBudget m s = true ∧ marked = false) := by
  rintro ⟨hpast, hmark⟩
  simp [hpast, hmark] at hage

/-- The scheduler takes a head that waits in the highest class, is within its budget or marked, and fits (R558). -/
theorem selectFrom_takes {e c : Nat} {cs : List Nat} {q : QEntry} {m : Msg} {rest : List QEntry} {s : State}
    {fits : Nat → QEntry → Msg → Bool} (hfirst : firstClass e cs s = some c) (hqueue : queueOf e c s = q :: rest)
    (hmsg : msgById q.msg s = some m) (hage : pastBudget m s = false ∨ q.marked = true) (hfits : fits c q m = true) :
    selectFrom e cs fits s = (.taken c q m, setQueue e c rest s) := by
  simp only [selectFrom, hfirst, hqueue, hmsg, not_falling hage, if_false, hfits, if_true]

section Select

variable {s : State} {c : Fin 24} {cl : Nat} {q : QEntry} {m : Msg} {rest : List QEntry} {ecc : EccAt}

/-- The message of a queue entry as the transmitter holds it. -/
def selected (cl : Nat) (q : QEntry) (m : Msg) : SerTx :=
  { msg := m.id, bytes := m.bytes, marked := q.marked, cls := BitVec.ofNat 3 cl, startAt := 0, endAt := 0, retries := 0,
    rest := [] }

/-- A channel with `rest` left in its queue of class `cl`. -/
def unqueued (cl : Nat) (rest : List QEntry) (k : SerChan) : SerChan :=
  { k with queues := upd (fun _ => rest) k.queues cl }

variable (hI : Inv s) (hhigher : ∀ d, cl < d → d < 6 → queueOf (64 + c) d s = [])
variable (hqueue : queueOf (64 + c) cl s = q :: rest) (hmsg : msgById q.msg s = some m) (hcl : cl < 6)
variable (htunnel : m.kind ≠ .tunnel) (hserial : m.kind ≠ .serial) (hage : pastBudget m s = false ∨ q.marked = true)
variable (hecc : ecc.what = .ok) (hduplex : serDuplex (serEntry c s) = 0)
variable (hslots : serSlottedE (serEntry c s) = false) (hdata : serData (serEntry c s) = 8)
include hI hhigher hqueue hmsg hcl htunnel hserial hage hecc hduplex hslots hdata

/-- A free full-duplex channel starts the head of its highest class. -/
theorem pickSer_begins :
    pickSer c ecc s = beginTx c (selected cl q m) (updSer c (unqueued cl rest) s) := by
  have hfirst : firstClass (64 + c) [5, 4, 3, 2, 1, 0] s = some cl :=
    firstClass_at (64 + c) cl s hcl hhigher (by rw [hqueue]; rfl)
  have hfits : fitsSer c s cl q m = true := by
    simp only [fitsSer, parts_plain _ _ _ htunnel hserial, mayStart_free c m.bytes.length s (Or.inl hduplex) hslots,
      Bool.true_or]
  simp only [pickSer, selectFrom_takes hfirst hqueue hmsg hage hfits, ser_queue, hecc, noteEcc, reduceCtorEq, if_false,
    parts_plain _ _ _ htunnel hserial]
  exact tryTx_upd c (selected cl q m) (unqueued cl rest) s (channel_lt hI c) (Or.inl hduplex) hslots hdata

theorem serTxSelect_starts (hruns : serTransmits c s = true) (hidle : (serAt c s).txSt = .idle)
    (hfree : (serAt c s).tx = none) :
    ∃ t, exec (.serTxSelect c ecc) s = .next t ∧ Frame [.ser] s t ∧ queueOf (64 + c) cl t = rest ∧
      (serAt c t).txSt = .sending ∧ (serAt c t).deOn = false ∧
      (serAt c t).tx = some (timed (selected cl q m) (startCycle c s) (serEntry c s) (serAt c s)) := by
  have hlen := channel_lt hI c
  have hpicked := pickSer_begins hI hhigher hqueue hmsg hcl htunnel hserial hage hecc hduplex hslots hdata
  rw [beginTx_updSer (f := unqueued cl rest) (selected cl q m) hlen rfl rfl rfl rfl] at hpicked
  obtain ⟨hframe, hchan, -⟩ := chanIs c (fun k => transmitting
    (timed (selected cl q m) (startCycle c s) (serEntry c s) (serAt c s)) (serEntry c s) (unqueued cl rest k)) s hlen
  refine ⟨_, ?next, hframe, ?queue, ?state, ?de, ?message⟩
  case next =>
    rw [← hpicked]
    simp [exec, execSerTxSelect, serSelect, hruns, hidle, hfree]
  case queue =>
    rw [queueOf_ser, hchan]
    exact nth_upd_same _ _ _ (by rw [(Inv_chan hI c).2]; exact hcl)
  case state => rw [hchan]; rfl
  case de => rw [hchan]; simp [transmitting, usesDe, hduplex]
  case message => rw [hchan]; rfl

end Select

/-! ### Completion and SERn_DE (R365, R407) -/

/-- The last message of a channel's frame is over: the channel is free, and the copy is dropped (R531). -/
theorem nextPart_last (c : Nat) {x : SerTx} (hlast : x.rest = []) (s : State) :
    nextPart c x s = dropCopy x.msg (updSer c (fun k => { k with tx := none, txSt := .idle }) s) := by
  simp only [nextPart, hlast]

/-- Dropping a copy touches the messages alone. -/
theorem frame_dropCopy (i : Nat) (s : State) : Frame [.cls] s (dropCopy i s) := by
  obtain ⟨recs, msgs, hdrop, -⟩ := dropCopy_spec i s
  rw [hdrop]
  intro part hpart
  cases part <;> simp [Agree] at hpart ⊢

theorem serAt_dropCopy (c i : Nat) (s : State) : serAt c (dropCopy i s) = serAt c s := by
  simp only [serAt, show (dropCopy i s).ser = s.ser from frame_dropCopy i s .ser rfl]

/-- A channel whose message has ended at `at_`. -/
def finished (at_ lag : Nat) (k : SerChan) : SerChan :=
  { counted 13 k with
    txEnd := at_, deUntil := if k.deOn then some (at_ + lag) else none, tx := none, txSt := .idle }

theorem serTxComplete_frees {s : State} {c : Fin 24} {x : SerTx} (hI : Inv s) (htx : (serAt c s).tx = some x)
    (hsending : (serAt c s).txSt = .sending) (hdue : x.endAt ≤ localNow s) (hlast : x.rest = []) :
    ∃ t, exec (.serTxComplete c) s = .next t ∧ Frame [.ser, .cls] s t ∧
      ChannelIs c (finished x.endAt (bit16Cycles (u8 (serEntry c s) 15) (serEntry c s) (serAt c s)) (serAt c s)) s t ∧
      (∀ m, msgById x.msg s = some m → m.refs ≤ 1 → ∀ y ∈ t.cls.msgs, y.id ≠ x.msg) := by
  let lag := bit16Cycles (u8 (serEntry c s) 15) (serEntry c s) (serAt c s)
  let s1 := updSer c (finished x.endAt lag) s
  obtain ⟨hframe, hchan, hothers⟩ := chanIs c (finished x.endAt lag) s (channel_lt hI c)
  obtain ⟨recs, msgs, hdrop, hfreed⟩ := dropCopy_spec x.msg s1
  refine ⟨dropCopy x.msg s1, ?next, frame_trans hframe (frame_dropCopy x.msg s1), ⟨?channel, fun d hd => ?others⟩, hfreed⟩
  case next =>
    simp only [exec, execSerTxComplete, htx, hsending, due_of_le hdue, and_self, if_true, nextPart_last _ hlast, serCount_eq,
      updSer_updSer]
    rfl
  case channel => rw [serAt_dropCopy]; exact hchan
  case others => rw [serAt_dropCopy]; exact hothers d hd

theorem exec_serDeRelease_due {s : State} {c : Fin 24} {d : Nat} (hde : (serAt c s).deOn = true)
    (hsilent : (serAt c s).txSt ≠ .sending) (huntil : (serAt c s).deUntil = some d) (hdue : d ≤ localNow s) :
    exec (.serDeRelease c) s = .next (updSer c (fun k => { k with deOn := false, deUntil := none }) s) := by
  have hover : dueOpt (some d) s = true := due_of_le hdue
  have hquiet : ((serAt c s).txSt != .sending) = true := by simpa using hsilent
  simp only [exec, execSerDeRelease, hde, hquiet, huntil, hover, Bool.and_self, if_true]

/-! ### Collisions (R414, R416, R417) -/

/-- A channel that has stopped at a collision: SERn_DE is released, and the collision counted. -/
def stopped (now : Nat) (k : SerChan) : SerChan :=
  counted 14 { k with deOn := false, deUntil := none, txEnd := now }

/-- The state after a collision has been noted and EVT_SER_COLLIDE raised. -/
def collided (c : Nat) (s : State) : State :=
  raiseAt .serCollide c (BitVec.ofNat 32 c) (updSer c (stopped (localNow s)) s)

/-- A channel that waits `2 + 2 * n` half characters from `now` on before it sends `x` again (R416). -/
def backingOff (x : SerTx) (now n : Nat) (e : List Byte) (k : SerChan) : SerChan :=
  { k with
    tx := some { x with retries := x.retries + 1 }, txSt := .backoff,
    backoff := some (now + halfChars (2 + 2 * n) e k) }

theorem afterCollision_retries {c : Nat} {x : SerTx} {u : State}
    (hleft : x.retries < serRetryMax (serEntry c u)) (hslots : serSlottedE (serEntry c u) = false) : afterCollision c x u =
      drawn (updSer c (backingOff x (localNow u) ((Config.backoff u.free).val + 1) (serEntry c u)) u) := by
  have hmore : ¬ serRetryMax (serEntry c u) ≤ x.retries := by omega
  simp only [afterCollision, hmore, hslots, Bool.false_eq_true, if_false]
  rfl

/-- A channel that has discarded its message. -/
def discarded (k : SerChan) : SerChan := { counted 15 k with tx := none, txSt := .idle }

/-- The discard of a message with nothing after it frees the channel, counts, and raises EVT_SER_TX_DROP. -/
theorem dropTx_last {c : Nat} {x : SerTx} {u : State} (hlast : x.rest = []) (hlen : c < u.ser.length) :
    Frame [.ser, .evt, .cls] u (dropTx c x u) ∧
      serAt c (dropTx c x u) = { discarded (serAt c u) with int := setBit (serAt c u).int 3 } := by
  obtain ⟨⟨hchan, -⟩, hsize, ⟨v, hblocks⟩, -⟩ := raise_on_channel (e := .serTxDrop) (f := counted 15)
    (BitVec.ofNat 32 c) rfl (by decide) hlen rfl
  simp only [dropTx, nextPart_last c hlast, serCount_eq]
  generalize raiseAt .serTxDrop c (BitVec.ofNat 32 c) (updSer c (counted 15) u) = w at *
  have hraised : Frame [.ser, .evt] u w := by rw [hblocks]; exact frame_ser_evt u _ v
  have hlen' : c < w.ser.length := by rw [hsize]; exact hlen
  obtain ⟨hfreed, -⟩ := chanIs c (fun k => { k with tx := none, txSt := .idle }) w hlen'
  refine ⟨?frame, ?channel⟩
  case frame => exact frame_widen (frame_trans (frame_trans hraised hfreed) (frame_dropCopy x.msg _)) (by simp)
  case channel =>
    rw [serAt_dropCopy, serAt_upd _ _ _ hlen', hchan]
    rfl

/-- Setting a bit leaves the set ones set. -/
theorem setBit_keeps {n i : Nat} {b : BitVec n} (j : Nat) (h : b.getLsbD i = true) : (setBit b j).getLsbD i = true := by
  simp [setBit, h]

section Collision

variable {s : State} {c : Fin 24} {x : SerTx} (hI : Inv s) (htx : (serAt c s).tx = some x)
variable (hsending : (serAt c s).txSt = .sending) (hshared : 2 ≤ serDuplex (serEntry c s))

include hI in
theorem collided_spec :
    ChannelIs c { stopped (localNow s) (serAt c s) with int := setBit (serAt c s).int 2 } s (collided c s) ∧
      (collided c s).ser.length = s.ser.length ∧ (∃ v, collided c s = { s with ser := (collided c s).ser, evt := v }) ∧
      Reported .serCollide c (BitVec.ofNat 32 c) s (collided c s) :=
  raise_on_channel _ rfl (by decide) (channel_lt hI c) rfl

include htx hsending hshared in
theorem exec_serCollision_stops : exec (.serCollision c) s = .next (afterCollision c x (collided c s)) := by
  simp only [exec, execSerCollision, htx, hsending, hshared, and_self, if_true, serCount_eq, updSer_updSer]
  rfl

include hI htx hsending hshared

theorem serCollision_retries (hslots : serSlottedE (serEntry c s) = false)
    (hleft : x.retries < serRetryMax (serEntry c s)) :
    ∃ t, exec (.serCollision c) s = .next t ∧ Frame [.free, .ser, .evt] s t ∧ t.free = s.free + 1 ∧
      (serAt c t).txSt = .backoff ∧ (serAt c t).deOn = false ∧
      (serAt c t).tx = some { x with retries := x.retries + 1 } ∧
      nth 0 (serAt c t).cnt 14 = nth 0 (upd satInc (serAt c s).cnt 14) 14 ∧
      (∃ n, 1 ≤ n ∧ n ≤ 16 ∧
        (serAt c t).backoff = some (localNow s + halfChars (2 + 2 * n) (serEntry c s) (serAt c s))) ∧
      Reported .serCollide c (BitVec.ofNat 32 c) s t := by
  obtain ⟨⟨hchan, -⟩, hsize, ⟨v, hblocks⟩, hreport⟩ := collided_spec (c := c) hI
  have hexec := exec_serCollision_stops htx hsending hshared
  generalize collided c s = u at *
  have hentry : serEntry c u = serEntry c s := by rw [hblocks]; rfl
  have hnow : localNow u = localNow s := by rw [hblocks]; rfl
  have hfree : u.free = s.free := by rw [hblocks]
  rw [afterCollision_retries (by rw [hentry]; exact hleft) (by rw [hentry]; exact hslots), hentry, hnow, hfree] at hexec
  let n := (Config.backoff s.free).val + 1
  have hwait : serAt c (drawn (updSer c (backingOff x (localNow s) n (serEntry c s)) u)) =
      backingOff x (localNow s) n (serEntry c s) (serAt c u) :=
    serAt_upd c _ u (by rw [hsize]; exact channel_lt hI c)
  refine ⟨_, hexec, ?frame, congrArg (· + 1) hfree, ?state, ?de, ?message, ?count, ⟨n, ?low, ?high, ?wait⟩, ?report⟩
  case frame =>
    rw [hblocks]
    intro part hpart
    cases part <;> simp [Agree, drawn, updSer] at hpart ⊢
  case state => rw [hwait]; rfl
  case de => rw [hwait]; exact congrArg SerChan.deOn hchan
  case message => rw [hwait]; rfl
  case count => rw [hwait]; exact congrArg (fun k => nth 0 k.cnt 14) hchan
  case low => omega
  case high => omega
  case wait =>
    have hspan : halfChars (2 + 2 * n) (serEntry c s) (serAt c u) =
        halfChars (2 + 2 * n) (serEntry c s) (serAt c s) := by
      apply halfChars_congr <;> (rw [hchan]; rfl)
    rw [hwait, ← hspan]
    rfl
  case report => exact reported_congr hreport rfl (congrArg (·.int.getLsbD 2) hwait)

/-- After RETRY_MAX retries the message goes, and EVT_SER_TX_DROP joins EVT_SER_COLLIDE (R417). -/
theorem serCollision_discards (hspent : serRetryMax (serEntry c s) ≤ x.retries) (hlast : x.rest = []) :
    ∃ t, exec (.serCollision c) s = .next t ∧ Frame [.ser, .cls, .evt] s t ∧ (serAt c t).txSt = .idle ∧
      (serAt c t).tx = none ∧ nth 0 (serAt c t).cnt 15 = nth 0 (upd satInc (serAt c s).cnt 15) 15 ∧
      pendSet (.ser 2) c t = true ∧ pendSet (.ser 3) c t = true := by
  obtain ⟨⟨hchan, -⟩, hsize, ⟨v, hblocks⟩, -⟩ := collided_spec (c := c) hI
  have hexec := exec_serCollision_stops htx hsending hshared
  have hcollided : Frame [.ser, .evt] s (collided c s) := by rw [hblocks]; exact frame_ser_evt s _ v
  have hentry : serEntry c (collided c s) = serEntry c s := by rw [hblocks]; rfl
  rw [afterCollision, if_pos (by rw [hentry]; exact hspent)] at hexec
  obtain ⟨hframe, hgone⟩ := dropTx_last (c := c) hlast (by rw [hsize]; exact channel_lt hI c)
  have hint : (serAt c (dropTx c x (collided c s))).int = setBit (setBit (serAt c s).int 2) 3 := by
    rw [hgone, hchan]
  refine ⟨_, hexec, ?frame, ?state, ?message, ?count, ?collide, ?drop⟩
  case frame => exact frame_widen (frame_trans hcollided hframe) (by simp)
  case state => rw [hgone]; rfl
  case message => rw [hgone]; rfl
  case count =>
    rw [hgone, hchan]
    exact nth_upd_congr 0 satInc _ _ 15 (upd_length _ _ _) (nth_upd_other _ _ _ (by decide))
  case collide =>
    show (serAt c (dropTx c x (collided c s))).int.getLsbD 2 = true
    rw [hint]
    exact setBit_keeps 3 (setBit_self _ 2 (by decide))
  case drop =>
    show (serAt c (dropTx c x (collided c s))).int.getLsbD 3 = true
    rw [hint]
    exact setBit_self _ 3 (by decide)

end Collision

/-! ### SER_BACKOFF_END (R416) -/

/-- A channel whose backoff is over. -/
def waited (k : SerChan) : SerChan := { k with backoff := none, txSt := .idle }

theorem serBackoffEnd_sends {s : State} {c : Fin 24} {x : SerTx} {m : Msg} {d : Nat} (hI : Inv s)
    (hruns : serTransmits c s = true) (htx : (serAt c s).tx = some x) (hwaits : (serAt c s).txSt = .backoff)
    (huntil : (serAt c s).backoff = some d) (hdue : d ≤ localNow s) (hsees : (serAt c s).rx ≠ .blinded)
    (hmsg : msgById x.msg s = some m) (hage : pastBudget m s = false ∨ x.marked = true)
    (hdata : serData (serEntry c s) = 8) (hslots : serSlottedE (serEntry c s) = false) :
    ∃ t, exec (.serBackoffEnd c) s = .next t ∧ Frame [.ser] s t ∧
      ChannelIs c (transmitting (timed x (startCycle c s) (serEntry c s) (serAt c s)) (serEntry c s) (serAt c s)) s t := by
  have hlen := channel_lt hI c
  have hretry : retryTx c x (updSer c waited s) = beginTx c x (updSer c waited s) := by
    have hkept : ¬ (pastBudget m (updSer c waited s) = true ∧ x.marked = false) := not_falling (s := s) hage
    have hfound : msgById x.msg (updSer c waited s) = some m := hmsg
    simp only [retryTx, hfound, hkept, if_false]
    exact tryTx_upd c x waited s hlen (Or.inr hsees) hslots hdata
  refine serBecomes' hlen (u := retryTx c x (updSer c waited s)) ?next ?change rfl
  case next =>
    have hover : dueOpt (some d) s = true := due_of_le hdue
    have hopen : ((serAt c s).rx != .blinded) = true := by simpa using hsees
    simp only [exec, execSerBackoffEnd, htx, hruns, hwaits, huntil, hover, hopen, beq_self_eq_true, Bool.and_self,
      if_true]
    rfl
  case change => exact hretry.trans (beginTx_updSer x hlen rfl rfl rfl rfl)

/-! ### SER_SLOT_BOUNDARY (R421) -/

theorem exec_serSlotBoundary_moves {s : State} {c : Fin 24} {off : Nat} (hruns : boardRuns s = true)
    (hslots : serSlottedE (serEntry c s) = true) (hoff : frameOffset 0 (serAt c s) s = some off)
    (hstate : (serAt c s).txSt ≠ .slotWait) :
    exec (.serSlotBoundary c) s = .next (updSer c (fun k => { k with
      slot := BitVec.ofNat 6 (min 63 (off / max 1 (serSlotLen (serEntry c s)))) }) s) := by
  simp only [exec, execSerSlotBoundary, hruns, hslots, Bool.and_self, hoff, hstate, false_and, if_false]

/-- Settles O55: each clause is the law of its command, in the order of the statement. -/
theorem serialChannelsTransmit : Obligations.SerialChannelsTransmit := by
  unfold Obligations.SerialChannelsTransmit
  refine ⟨?select, ?sending, ?release, ?backoff, ?boundary⟩
  case select =>
    intro s c cl q m rest ecc hI hruns hidle hfree hcl hhigher hqueue hmsg htunnel hserial hage hecc e k hduplex hslots
      hdata at_
    exact serTxSelect_starts hI hhigher hqueue hmsg hcl htunnel hserial hage hecc hduplex hslots hdata hruns hidle hfree
  case sending =>
    intro s c x hI htx hsending e k lag
    exact ⟨serTxComplete_frees hI htx hsending, fun hshared => serCollision_retries hI htx hsending hshared,
      fun hshared => serCollision_discards hI htx hsending hshared⟩
  case release =>
    intro s c d hI hde hsilent huntil hdue
    exact serBecomes (channel_lt hI c) (exec_serDeRelease_due hde hsilent huntil hdue) rfl
  case backoff =>
    intro s c x m d hI hruns e k htx hwaits huntil hdue hsees hmsg hage hdata hslots
    exact serBackoffEnd_sends hI hruns htx hwaits huntil hdue hsees hmsg hage hdata hslots
  case boundary =>
    intro s c off hI hruns hslots hoff hstate
    exact serBecomes (channel_lt hI c) (exec_serSlotBoundary_moves hruns hslots hoff hstate) rfl

end Sys2Proof.Proofs.SerialTransmission
end

section
/-!
Converters, the publisher and the Alignment engine: mailbox bursts, available samples, SV frames, the reference fault,
and the windows and rows of alignment subscriptions. Sys2Proof/Laws/Measure.lean says what the operations leave; here it
is put together with the commands that run them.
-/

namespace Sys2Proof.Proofs.Measurement

open Sys2Proof.Machine Sys2Proof.Safety Sys2Proof.Laws Sys2Proof.Proofs.Board Sys2Proof.Proofs.ManagementPort
open Sys2Proof.Proofs.Timekeeper Sys2Proof.Proofs.SerialCharacters

/-! ### Mailbox bursts (R449 to R451) -/

/-- CNV_GRPg_HDR stands in the row of the CNV block. -/
theorem mailbox_addr (g : Bool) :
    wordAddr (if g then 0x01C040 else 0x01C020) = (if g then 0x01C040 else 0x01C020) ∧
      isCard (if g then 0x01C040 else 0x01C020) = false ∧
      rowOf (if g then 0x01C040 else 0x01C020) = some (0x1C000, 0x1CFFF) := by
  cases g <;> decide

/-- A mailbox burst changes the management port only, and drives the words of the mailbox behind the turnaround. -/
theorem exec_mailboxRead {s : State} (g : Bool) {n : Nat} (hidle : PortIdle s) (hcore : coreAnswers s = true)
    (hn : n ≤ 8) :
    ∃ m, exec (.mailboxRead g n) s = .next { s with mgt := m } ∧
      m.miso = statusByte (selected s) :: zeroBytes 5 ++ sendWords s.mgt.crcEn
        ((List.range n).map (fun k => regNat (boxWord (if g then s.cnv.groupB.box else s.cnv.groupA.box) k)))
        (crcHead 0x03 (if g then 0x01C040 else 0x01C020)) ∧
      m.last = { TxOutcome.zero with opcode := 0x03, words := BitVec.ofNat 8 n } := by
  obtain ⟨haddr, hcard, hrow⟩ := mailbox_addr g
  obtain ⟨r, hrun, hout⟩ := box_words g n 0 (by omega) (SpiRun.start 0x03) (selected s) rfl hcore (start_words 3)
  rw [Nat.mul_zero, Nat.add_zero] at hrun
  simp only [Nat.zero_add] at hrun
  rw [Nat.zero_add, Nat.min_eq_left (by omega)] at hout
  obtain ⟨m, hend, hmiso, -, -, -, -, -, -, hlast, -⟩ := endTx_plain r.out false
    (statusByte (selected s) :: zeroBytes 5 ++ sendWords s.mgt.crcEn
      ((List.range n).map (fun k => regNat (boxWord (if g then s.cnv.groupB.box else s.cnv.groupA.box) k)))
      (crcHead 0x03 (if g then 0x01C040 else 0x01C020))) (selected s) hidle.2.2
  obtain ⟨-, hkept⟩ := hlast rfl
  rw [hout] at hkept
  refine ⟨m, ?_, hmiso, hkept⟩
  simp only [exec, execMailboxRead, ifMgt_idle hidle, spiRead, csFalls_selected hidle, haddr, hcard, hrow, hrun,
    Bool.false_eq_true, if_false]
  exact congrArg _ hend

/-- Settles O12: the command reads every word of the burst from one state of the mailbox. -/
theorem mailboxReadIsOneSample : Obligations.MailboxReadIsOneSample := by
  unfold Obligations.MailboxReadIsOneSample
  intro s g n hidle hcore hn
  obtain ⟨m, hexec, hmiso, hlast⟩ := exec_mailboxRead g hidle hcore hn
  refine ⟨_, hexec, frame1 s m, fun hen => ?_, hlast⟩
  change m.miso.drop 6 = _
  rw [hmiso, drop_turnaround, hen, sendWords_plain, List.flatMap_map]

/-! ### SAMPLE_AVAILABLE (R443, R449) -/

/-- The mailbox of group `b` once it holds sample `x` of channels without an integrator or thresholds. -/
def boxOf (b : Bool) (x : CnvSample) (s : State) : Mailbox where
  valid := true
  seq := (cnvGroup b s).box.seq + 1
  secs := x.secs.setWidth 32
  tq := x.tq
  ns := x.ns
  values := x.raw
  flags := BitVec.ofNat 16 ((if x.refFault then 0x4444 else 0) + (if x.settling then 0x8888 else 0))

/-- A channel without an integrator gives its code, and leaves the integrator as it is (R442). -/
theorem channelValue_raw {e : List Byte} {c : Nat} (h : flagAt e 8 c = false) (t : Int) (free : Nat) (raw : Int)
    (i : Integ) : channelValue e t free c raw i = (raw, i) := by
  simp only [channelValue, h, Bool.false_eq_true, if_false]

/-- Without overload and thresholds a channel's flags are those of the reference and of settling (Table 8-12). -/
theorem channelFlags_sum {x : CnvSample} {s : State} (base : Nat) (vals : Nat → Int)
    (hovl : x.ovl = [false, false, false, false]) (hpub : ∀ st, flagAt (pubEntry st s) 0 0 = false) :
    ((List.range 4).map (fun c => channelFlags (nth false x.ovl c) (outOfRange (vals c) (oorThresholds (base + c) s))
      x.refFault x.settling * 2 ^ (4 * c))).sum =
      (if x.refFault then 0x4444 else 0) + (if x.settling then 0x8888 else 0) := by
  simp only [oor_off _ s hpub, hovl]
  cases x.refFault <;> cases x.settling <;> simp [List.range_succ, nth, outOfRange, channelFlags]

/-- The streams take the sample that group `b` has made available. -/
def publishTo (b : Bool) (x : CnvSample) (s : State) : State :=
  let s1 := if streamTakes false b s then publishSample false x s else s
  if streamTakes true b s1 then publishSample true x s1 else s1

theorem publishTo_off {b : Bool} {x : CnvSample} {s : State} (h : ∀ st, flagAt (pubEntry st s) 0 0 = false) :
    publishTo b x s = s := by
  simp only [publishTo, streamTakes, h, Bool.false_and, Bool.false_eq_true, if_false]

/-- The group takes the sample into its mailbox; the overloads and the streams see it afterwards. -/
theorem deliverSample_plain {b : Bool} {x : CnvSample} {s : State} (rest : List CnvSample) (hraw : x.raw.length = 4)
    (hovl : x.ovl = [false, false, false, false]) (hplain : ∀ c, c < 4 → flagAt (convEntry b s) 8 c = false)
    (hpub : ∀ st, flagAt (pubEntry st s) 0 0 = false) :
    ∃ g, deliverSample b x rest s = publishTo b x (noteOverloads (if b then 4 else 0) 0 x.ovl
        { setGroup b g s with free := (setGroup b g s).free + 4 }) ∧
      g.waiting = rest ∧ g.box = boxOf b x s := by
  refine ⟨_, rfl, rfl, ?_⟩
  have hvals : ∀ (t : Int) (f : Nat → Integ),
      (List.range 4).map (fun c => channelValue (convEntry b s) t s.free c (nth 0 x.raw c) (f c)) =
        (List.range 4).map (fun c => (nth 0 x.raw c, f c)) := fun t f =>
    List.map_congr_left fun c hc => channelValue_raw (hplain c (List.mem_range.1 hc)) t s.free _ _
  have hcodes : ∀ f : Nat → Integ, ((List.range 4).map (fun c => (nth 0 x.raw c, f c))).map (·.1) = x.raw := fun f => by
    rw [List.map_map]
    exact four x.raw hraw
  simp only [hvals, channelFlags_sum _ _ hovl hpub, hcodes, boxOf]

/-- SAMPLE_AVAILABLE puts the oldest sample that is due into the mailbox of its group. -/
theorem sampleAvailable_fills {s : State} {b : Bool} {x : CnvSample} {rest : List CnvSample}
    (hwait : (cnvGroup b s).waiting = x :: rest) (hdue : x.due ≤ localNow s) (hraw : x.raw.length = 4)
    (hovl : x.ovl = [false, false, false, false]) (hplain : ∀ c, c < 4 → flagAt (convEntry b s) 8 c = false)
    (hpub : ∀ st, flagAt (pubEntry st s) 0 0 = false) :
    ∃ t, exec (.sampleAvailable b) s = .next t ∧ Frame [.free, .cnv] s t ∧ (cnvGroup b t).waiting = rest ∧
      cnvGroup (!b) t = cnvGroup (!b) s ∧ (cnvGroup b t).box = boxOf b x s := by
  have hexec : exec (.sampleAvailable b) s = .next (deliverSample b x rest s) := by
    simp only [exec, execSampleAvailable, hwait, due_of_le hdue, if_true]
  obtain ⟨g, hdeliver, hrest, hbox⟩ := deliverSample_plain rest hraw hovl hplain hpub
  obtain ⟨c, hset⟩ := setGroup_cnv b g s
  obtain ⟨hown, hother⟩ := group_set b g s
  obtain ⟨v, hover⟩ := noteOverloads_clear (if b then 4 else 0) 0 x.ovl
    { setGroup b g s with free := (setGroup b g s).free + 4 } (by simp [hovl])
  rw [hdeliver, hover, publishTo_off (by rw [hset]; exact hpub)] at hexec
  refine ⟨_, hexec, ?frame, ?waiting, ?other, ?box⟩
  case frame =>
    rw [hset]
    intro part hpart
    cases part <;> simp [Agree] at hpart ⊢
  case waiting => exact (congrArg CnvGroup.waiting hown).trans hrest
  case other => exact hother
  case box => exact (congrArg CnvGroup.box hown).trans hbox

/-! ### MU_FRAME_HANDOVER (R464) -/

/-- A stream whose oldest frame has been handed to the board. -/
def frameTaken (b : Bool) (f : MuFrame) (fs : List MuFrame) (s : State) : MuStream :=
  { muStream b s with ready := fs, frames := satInc (muStream b s).frames, lastCnt := f.smpCnt }

theorem exec_muFrameHandover {b : Bool} {f : MuFrame} {fs : List MuFrame} {s : State} (hruns : boardRuns s = true)
    (hready : (muStream b s).ready = f :: fs) :
    exec (.muFrameHandover b) s = .next (enterBoard (muInbound b f s) (setStream b (frameTaken b f fs s) s)) := by
  simp only [exec, execMuFrameHandover, hready, hruns, if_true]
  rfl

theorem muStream_congr (b : Bool) {s t : State} (h : t.cnv = s.cnv) : muStream b t = muStream b s := by
  simp only [muStream, h]

theorem frame_cnv (s : State) (c : CnvBlk) : Frame [.cnv] s { s with cnv := c } := by
  intro part hpart
  cases part <;> simp [Agree] at hpart ⊢

theorem muFrameHandover_sends {s : State} {b : Bool} {f : MuFrame} {fs : List MuFrame} {r : Route} {e : Nat}
    (hI : Inv s) (hruns : boardRuns s = true) (hready : (muStream b s).ready = f :: fs)
    (hroute : lookup (muInbound b f s).key s = some r) (henabled : resEnabled r.res = true)
    (hkept : keptPorts (muInbound b f s) r s = [e]) (he : e ≤ 8) (hfilter : resFilter r.res = none)
    (hbound : routeBound r.id s = none) (hclass : messageClass (muInbound b f s) r s < 6)
    (hpairs : ∀ k, k < 8 → pairMode k s = 0)
    (hroom : Roomy e (messageClass (muInbound b f s) r s) f.bytes.length s) :
    ∃ t, exec (.muFrameHandover b) s = .next t ∧ Frame [.eth, .pairs, .cnv, .cls, .rte] s t ∧
      muStream b t = frameTaken b f fs s ∧ Sent .mu e (messageClass (muInbound b f s) r s) f.bytes t := by
  obtain ⟨c, hset⟩ := setStream_cnv b (frameTaken b f fs s) s
  have hport : (muInbound b f s).port ≠ e := show 10 ≠ e by omega
  have hstream : muStream b { s with cnv := c } = frameTaken b f fs s := by rw [← hset]; exact stream_set b _ s
  obtain ⟨hframe, hsent⟩ := enterBoard_congr (muInbound b f s) r e s { s with cnv := c } hI hport rfl rfl hroute henabled
    hkept he hfilter hbound hclass hpairs hroom rfl rfl rfl rfl rfl
  refine ⟨_, exec_muFrameHandover hruns hready, ?_⟩
  rw [hset]
  exact ⟨frame_widen (frame_trans (frame_cnv s c) hframe) (by simp), (muStream_congr b (hframe .cnv rfl)).trans hstream,
    hsent⟩

/-! ### CNV_REF_FAULT (R448) -/

/-- The reference has been found out of limits. -/
def refFaulty (s : State) : State := { s with cnv := { s.cnv with refFault := true } }

theorem exec_cnvRefFault {s : State} (hup : coreUp s = true) (hgood : s.cnv.refFault = false) :
    exec .cnvRefFault s = .next (raise .cnvRefFault 0 (refFaulty s)) := by
  simp only [exec, execCnvRefFault, hup, hgood, Bool.not_false, Bool.and_self, if_true, refFaulty]

theorem cnvRefFault_reports {s : State} (hup : coreUp s = true) (hgood : s.cnv.refFault = false) :
    ∃ t, exec .cnvRefFault s = .next t ∧ Frame [.cnv, .evt] s t ∧
      t.cnv = { s.cnv with refFault := true, int := t.cnv.int } ∧ Reported .cnvRefFault 0 0 s t := by
  have hreport : Reported .cnvRefFault 0 0 s (raise .cnvRefFault 0 (refFaulty s)) :=
    raiseAt_reported_every .cnvRefFault 0 0 rfl ⟨rfl, rfl⟩ fun _ => setBit_self s.cnv.int 1 (by decide)
  obtain ⟨q, o, n, hraise⟩ := raiseAt_evt .cnvRefFault 0 0 (refFaulty s)
  have hblocks : raise .cnvRefFault 0 (refFaulty s) = _ := hraise
  refine ⟨_, exec_cnvRefFault hup hgood, ?frame, ?block, hreport⟩
  case frame =>
    rw [hblocks]
    intro part hpart
    cases part <;> simp [Agree, Ev.pendAt, setPend, refFaulty] at hpart ⊢
  case block => rw [hblocks]; rfl

/-! ### ALN_WINDOW_END (R472) -/

theorem sub_lt {s : State} (hI : Inv s) (i : Fin 16) : i.val < s.aln.subs.length := by
  have hsizes := hI.1
  simp only [sizes, shape, List.cons.injEq] at hsizes
  omega

/-- A subscription after the window of sample `k` has ended: the sample is missing where `held` does not hold it. -/
def judged (e : List Byte) (k : Nat) (held : List AlnSample) (u : AlnSub) : AlnSub :=
  { u with
    judged := some k
    missing := if held.any (fun x => x.sec * max 1 (alnRate e) + x.smpCnt == k) then u.missing
      else satInc u.missing }

theorem exec_alnWindowEnd {s : State} {i : Fin 16} {k : Nat} (hruns : boardRuns s = true)
    (henabled : alnEnabled i s = true) (hstarted : alnWindowNs (alnEntry i s) < devNs s)
    (hlast : (nth .reset s.aln.subs i).judged = some k) (hended : k < lastEnded (alnEntry i s) (devNs s)) :
    exec (.alnWindowEnd i) s =
      .next (updSub i (judged (alnEntry i s) (k + 1) (nth .reset s.aln.subs i).held) s) := by
  have hnext : k + 1 ≤ lastEnded (alnEntry i s) (devNs s) := hended
  simp only [exec, execAlnWindowEnd, henabled, hruns, hlast, Option.map_some, Option.getD_some, hnext, hstarted,
    decide_true, Bool.and_self, if_true]
  rfl

theorem frame_updSub (i : Nat) (f : AlnSub → AlnSub) (s : State) : Frame [.aln] s (updSub i f s) := by
  intro part hpart
  cases part <;> simp [Agree, updSub] at hpart ⊢

theorem alnWindowEnd_judges {s : State} {i : Fin 16} {k : Nat} (hI : Inv s) (hruns : boardRuns s = true)
    (henabled : alnEnabled i s = true) (hstarted : alnWindowNs (alnEntry i s) < devNs s)
    (hlast : (nth .reset s.aln.subs i).judged = some k) (hended : k < lastEnded (alnEntry i s) (devNs s)) :
    ∃ t, exec (.alnWindowEnd i) s = .next t ∧ Frame [.aln] s t ∧ nth .reset t.aln.subs i =
      judged (alnEntry i s) (k + 1) (nth .reset s.aln.subs i).held (nth .reset s.aln.subs i) :=
  ⟨_, exec_alnWindowEnd hruns henabled hstarted hlast hended, frame_updSub i _ s, nth_upd_same _ _ _ (sub_lt hI i)⟩

/-! ### ALN_ROW_DUE (R484, R486, R487) -/

/-- The outputs of the enabled subscriptions for a row. -/
def rowOutputs (r : AlnRow) (s : State) : List (Nat × List (Int × Nat × Bool)) :=
  (alnActive s).map (fun i => (i, subOutputs i r s))

/-- The next row of the ring. -/
def nextRow (r : AlnRow) (s : State) : List Byte := ringRow (s.aln.seq + 1).toNat r (rowOutputs r s)

/-- The slot of the ring that the next row takes (R486). -/
def nextSlot (s : State) : Nat := s.aln.seq.toNat % max 1 (alnRingRows s)

/-- Where the next row lies in the shared region. -/
def nextRowAt (r : AlnRow) (s : State) : Nat :=
  alnRingBase s + nextSlot s * (ceilDiv (nextRow r s).length 64 * 64)

/-- The ring and the ALN block hold the row; nothing has been reported or handed over yet. -/
def rowWritten (r : AlnRow) (rest : List AlnRow) (s : State) : State :=
  let s1 := portAWrite (nextRowAt r s) (nextRow r s) false none (portABegin s)
  drawn { s1 with aln := { s1.aln with
    rows := rest
    seq := s.aln.seq + 1
    lastValid := true
    lastSeq := (s.aln.seq + 1).setWidth 24
    lastSlot := BitVec.ofNat 6 (nextSlot s) } }

theorem portAWrite_shared (a : Nat) (bs : List Byte) (atomic : Bool) (entry : Option Nat) (s : State) :
    (portAWrite a bs atomic entry s).mem.shared = Memory.putAll s.mem.shared a bs := rfl

theorem rowWritten_shared (r : AlnRow) (rest : List AlnRow) (s : State) :
    (rowWritten r rest s).mem.shared = Memory.putAll s.mem.shared (nextRowAt r s) (nextRow r s) :=
  portAWrite_shared (nextRowAt r s) (nextRow r s) false none (portABegin s)

theorem frame_rowWritten (r : AlnRow) (rest : List AlnRow) (s : State) :
    Frame [.free, .aln, .mem] s (rowWritten r rest s) := by
  intro part hpart
  cases part <;> simp [Agree, rowWritten, portAWrite, portABegin, sharedPut] at hpart ⊢

theorem frame_aln_cls_evt (s : State) (a : AlnBlk) (c : ClsBlk) (v : EvtBlk) :
    Frame [.aln, .cls, .evt] s { s with aln := a, cls := c, evt := v } := by
  intro part hpart
  cases part <;> simp [Agree] at hpart ⊢

/-- The rows are counted from SEQ - 1 on, modulo 2^32. -/
theorem toNat_succ_pred (q : BitVec 32) : ((q + 1).toNat + 2 ^ 32 - 1) % 2 ^ 32 = q.toNat := by
  bv_omega

theorem deliverRow_eq (r : AlnRow) (rest : List AlnRow) (s : State) :
    deliverRow r rest s = handRows (s.aln.seq + 1).toNat r (rowOutputs r s)
      (noteOutputs r (rowOutputs r s) (rowWritten r rest s)) := by
  simp only [deliverRow, toNat_succ_pred]
  rfl

/-- Reporting a row that no route takes changes subscriptions, pending bits, classes and events only. -/
theorem deliverRow_blocks {r : AlnRow} {rest : List AlnRow} {s : State}
    (hnone : ∀ i, lookup (internalKey 12 0 i) s = none) :
    ∃ u n c v, deliverRow r rest s = { rowWritten r rest s with
      aln := { (rowWritten r rest s).aln with subs := u, int := n }
      cls := c
      evt := v } := by
  have hframe := frame_rowWritten r rest s
  obtain ⟨-, u, n, v, hnote, -⟩ := noteOutputs_spec (rowOutputs r s) r (rowWritten r rest s)
  obtain ⟨c, w, hhand⟩ := alignRows (rowOutputs r s) (s.aln.seq + 1).toNat r
    { rowWritten r rest s with aln := { (rowWritten r rest s).aln with subs := u, int := n }, evt := v }
    (fun i => (lookup_congr _ (hframe .rte rfl) (hframe .pos rfl)).trans (hnone i))
  rw [deliverRow_eq, hnote, hhand]
  exact ⟨u, n, c, w, rfl⟩

theorem alnRowDue_writes {s : State} {r : AlnRow} {rest : List AlnRow} (hI : Inv s) (hruns : boardRuns s = true)
    (hrows : s.aln.rows = r :: rest) (hdue : r.due ≤ localNow s)
    (hnone : ∀ i, lookup (internalKey 12 0 i) s = none) :
    ∃ t, exec .alnRowDue s = .next t ∧ Frame [.free, .aln, .cls, .mem, .evt] s t ∧ t.aln.seq = s.aln.seq + 1 ∧
      t.aln.rows = rest ∧ t.aln.lastValid = true ∧ t.aln.lastSlot = BitVec.ofNat 6 (nextSlot s) ∧
      Memory.getAll t.mem.shared (nextRowAt r s) (nextRow r s).length = nextRow r s ∧
      SharedBut (nextRowAt r s) (nextRow r s).length s t := by
  have hexec : exec .alnRowDue s = .next (deliverRow r rest s) := by
    simp only [exec, execAlnRowDue, hrows, due_of_le hdue, hruns, Bool.and_self, if_true]
  obtain ⟨-, hwf, -⟩ := hI
  obtain ⟨u, n, c, v, hrow⟩ := deliverRow_blocks (r := r) (rest := rest) hnone
  have hshared : (deliverRow r rest s).mem.shared = Memory.putAll s.mem.shared (nextRowAt r s) (nextRow r s) := by
    rw [hrow]
    exact rowWritten_shared r rest s
  refine ⟨_, hexec, ?frame, ?seq, ?rows, ?valid, ?slot, ?stored, sharedBut_of_putAll hshared rfl⟩
  case frame =>
    rw [hrow]
    exact frame_widen (frame_trans (frame_rowWritten r rest s) (frame_aln_cls_evt _ _ c v)) (by simp)
  case stored =>
    rw [hshared]
    exact getAll_putAll_of_length hwf rfl
  case seq | rows | valid | slot => rw [hrow]; rfl

/-! ### The commands together -/

/-- Settles O56: each clause is the law of its command, in the order of the statement. -/
theorem measurementRuns : Obligations.MeasurementRuns := by
  unfold Obligations.MeasurementRuns
  refine ⟨?sample, ?frame, fun s hup hgood => cnvRefFault_reports hup hgood, fun s => rfl, ?window, ?row⟩
  case sample =>
    intro s b x rest hwait hdue hraw hovl hplain hpub
    exact sampleAvailable_fills hwait hdue hraw hovl hplain hpub
  case frame =>
    intro s b f fs r e hI hruns hready n hroute henabled hkept he hfilter hbound hclass hpairs hroom
    exact muFrameHandover_sends hI hruns hready hroute henabled hkept he hfilter hbound hclass hpairs hroom
  case window =>
    intro s i k hI hruns henabled e u hstarted hlast hended
    exact alnWindowEnd_judges hI hruns henabled hstarted hlast hended
  case row =>
    intro s r rest hI hruns hrows hdue hnone row slot at_
    exact alnRowDue_writes hI hruns hrows hdue hnone

end Sys2Proof.Proofs.Measurement
end

section
/-!
Live edits of the routing table: what the writes of words 0 to 5 of a window entry do to the edit buffers and to the
results in force. Sys2Proof/Laws/Edits.lean says what a replaced buffer leaves; here it is put together with the commands.
-/

namespace Sys2Proof.Proofs.LiveEdits

open Sys2Proof.Machine Sys2Proof.Safety Sys2Proof.Laws Sys2Proof.Proofs.Positions Sys2Proof.Proofs.Timekeeper
open Sys2Proof.Proofs.SerialCharacters

/-- The buffer of a requester is empty or loaded for an entry other than `i`. -/
def NotLoaded (frame : Bool) (i : Nat) (s : State) : Prop := ∀ b, editBuf frame s = some b → b.idx ≠ i

/-- The buffer that a write of word 0 of entry `i` loads (R547). -/
def loadedFor (i : Nat) (val : Word) (s : State) : EditBuf :=
  { idx := i, words := upd (fun _ => val &&& editMask 0) (entryWords i s) 0 }

/-- Buffer `b` with word `k` as written. -/
def withWord (k : Nat) (val : Word) (b : EditBuf) : EditBuf :=
  { b with words := upd (fun _ => val &&& editMask k) b.words k }

/-- The result that six words spell. -/
def resultBytes (ws : List Word) : List Byte := ws.flatMap (fun w => toBE 4 w.toNat)

/-! ### The commands (R546 to R548) -/

section Commands

variable {s : State} {idx : Nat} {val : Word} {frame : Bool}

theorem exec_rteEditWord0 (hcore : coreAnswers s = true) :
    exec (.rteEditWord0 idx val frame) s = .next (editFirst (idx % 4096) val frame s).2 := by
  simp only [exec, execRteEditWord0, ifCore_answers hcore]

theorem exec_rteEditWordMid {k : Fin 4} (hcore : coreAnswers s = true) :
    exec (.rteEditWordMid idx k val frame) s = .next (editMid (idx % 4096) (k + 1) val frame s).2 := by
  simp only [exec, execRteEditWordMid, ifCore_answers hcore]

theorem exec_rteEditWord5 (hcore : coreAnswers s = true) :
    exec (.rteEditWord5 idx val frame) s = .next (editLast (idx % 4096) val frame s).2 := by
  simp only [exec, execRteEditWord5, ifCore_answers hcore]

end Commands

/-! ### One write (R546 to R548) -/

section Writes

variable {s : State} {b : EditBuf} {i k : Nat} {val : Word} {frame : Bool}

theorem editFirst_refused (hoff : editsAccepted s = false) : (editFirst i val frame s).2 = s := by
  simp only [editFirst, hoff, Bool.false_eq_true, if_false]

theorem editMid_refused (hoff : editsAccepted s = false) : (editMid i k val frame s).2 = s := by
  simp only [editMid, hoff, Bool.false_eq_true, if_false]

theorem editLast_refused (hoff : editsAccepted s = false) : (editLast i val frame s).2 = s := by
  simp only [editLast, hoff, Bool.false_eq_true, if_false]

theorem editFirst_accepted (hon : editsAccepted s = true) :
    (editFirst i val frame s).2 = setEditBuf frame (some (loadedFor i val s)) s := by
  simp only [editFirst, hon, if_true, loadedFor]

theorem editMid_notLoaded (hother : NotLoaded frame i s) : (editMid i k val frame s).2 = s := by
  cases hon : editsAccepted s with
  | false => exact editMid_refused hon
  | true =>
    cases hbuf : editBuf frame s with
    | none => simp only [editMid, hon, hbuf, if_true]
    | some b => simp only [editMid, hon, hbuf, if_true, hother b hbuf, if_false]

theorem editLast_notLoaded (hother : NotLoaded frame i s) : (editLast i val frame s).2 = s := by
  cases hon : editsAccepted s with
  | false => exact editLast_refused hon
  | true =>
    cases hbuf : editBuf frame s with
    | none => simp only [editLast, hon, hbuf, if_true]
    | some b => simp only [editLast, hon, hbuf, if_true, hother b hbuf, if_false]

theorem editMid_loaded (hon : editsAccepted s = true) (hbuf : editBuf frame s = some b) (hidx : b.idx = i) :
    (editMid i k val frame s).2 = setEditBuf frame (some (withWord k val b)) s := by
  simp only [editMid, hon, hbuf, hidx, if_true, withWord]

theorem editLast_loaded (hon : editsAccepted s = true) (hbuf : editBuf frame s = some b) (hidx : b.idx = i) :
    (editLast i val frame s).2 = (applyEdit i (withWord 5 val b).words (setEditBuf frame none s)).2 := by
  simp only [editLast, hon, hbuf, hidx, if_true, withWord]

end Writes

/-! ### The edit itself (R548 to R550) -/

section Apply

variable {s : State} {i : Nat} {ws : List Word}

theorem applyEdit_allowed (hallowed : editAllowed i (resultBytes ws) s = true) :
    (applyEdit i ws s).2 = { s with rte := { s.rte with edits := putAssoc i (resultBytes ws) s.rte.edits } } := by
  unfold resultBytes at hallowed ⊢
  simp only [applyEdit, hallowed, if_true]

theorem applyEdit_refused (hrefused : editAllowed i (resultBytes ws) s = false) : (applyEdit i ws s).2 = s := by
  unfold resultBytes at hrefused
  simp only [applyEdit, hrefused, Bool.false_eq_true, if_false]

theorem frame_rte (s : State) (r : RteBlk) : Frame [.rte] s { s with rte := r } := by
  intro part hpart
  cases part <;> simp [Agree] at hpart ⊢

/-- An edit touches the edited results only: the buffers of both requesters stay. -/
theorem applyEdit_keeps_buffers (i : Nat) (ws : List Word) (s : State) :
    Frame [.rte] s (applyEdit i ws s).2 ∧ ∀ frame, editBuf frame (applyEdit i ws s).2 = editBuf frame s := by
  cases hallowed : editAllowed i (resultBytes ws) s with
  | false =>
    rw [applyEdit_refused hallowed]
    exact ⟨frame_rte s s.rte, fun _ => rfl⟩
  | true =>
    rw [applyEdit_allowed hallowed]
    exact ⟨frame_rte s _, fun _ => rfl⟩

/-- An allowed edit puts the new result in force for its entry and for no other (R550). -/
theorem resultOf_applyEdit (hallowed : editAllowed i (resultBytes ws) s = true) :
    resultOf i (applyEdit i ws s).2 = resultBytes ws ∧ ∀ j, j ≠ i → resultOf j (applyEdit i ws s).2 = resultOf j s := by
  rw [applyEdit_allowed hallowed]
  exact ⟨lookupD_put_same _ i _ _, fun j hj => lookupD_put_other _ i j _ _ hj⟩

end Apply

/-! ### A buffer and the results -/

section Buffer

variable (frame : Bool) (b : Option EditBuf) (s : State)

theorem resultOf_setEditBuf (j : Nat) : resultOf j (setEditBuf frame b s) = resultOf j s := by
  cases frame <;> rfl

/-- Whether an edit is allowed does not depend on the buffers (R549). -/
theorem editAllowed_setEditBuf (i : Nat) (new : List Byte) :
    editAllowed i new (setEditBuf frame b s) = editAllowed i new s := by
  cases frame <;> rfl

end Buffer

/-- What word 5 leaves: the buffer is empty, and the six words are the entry's result or have no effect. -/
theorem applyEdit_emptied (frame : Bool) (i : Nat) (ws : List Word) (s : State) :
    let t := (applyEdit i ws (setEditBuf frame none s)).2
    Frame [.rte] s t ∧ editBuf frame t = none ∧ editBuf (!frame) t = editBuf (!frame) s ∧
      (editAllowed i (resultBytes ws) s = true →
        resultOf i t = resultBytes ws ∧ ∀ j, j ≠ i → resultOf j t = resultOf j s) ∧
      (editAllowed i (resultBytes ws) s = false → t.rte.edits = s.rte.edits) := by
  intro t
  obtain ⟨hframe, hempty, hother, hedits⟩ := setEditBuf_spec frame none s
  obtain ⟨hframe', hbufs⟩ := applyEdit_keeps_buffers i ws (setEditBuf frame none s)
  refine ⟨frame_widen (frame_trans hframe hframe') (by simp), (hbufs _).trans hempty, (hbufs _).trans hother,
    fun hallowed => ?allowed, fun hrefused => ?refused⟩
  case allowed =>
    obtain ⟨hnew, hrest⟩ := resultOf_applyEdit ((editAllowed_setEditBuf frame none s i _).trans hallowed)
    exact ⟨hnew, fun j hj => (hrest j hj).trans (resultOf_setEditBuf frame none s j)⟩
  case refused =>
    have hsame := applyEdit_refused ((editAllowed_setEditBuf frame none s i _).trans hrefused)
    exact (congrArg (·.rte.edits) hsame).trans hedits

/-- Settles O57, by the state of the buffer: not consulted while edits are refused, loaded for another entry or for this
one. -/
theorem editsReplaceRoutes : Obligations.EditsReplaceRoutes := by
  unfold Obligations.EditsReplaceRoutes
  intro s idx k val frame hcore i b0
  rw [exec_rteEditWord0 hcore, exec_rteEditWordMid hcore, exec_rteEditWord5 hcore]
  refine ⟨fun hoff => ?refused, fun hon => ⟨?first, fun hother => ?notLoaded, fun b hbuf hidx => ⟨?mid, ?last⟩⟩⟩
  case refused => rw [editFirst_refused hoff, editMid_refused hoff, editLast_refused hoff]; exact ⟨rfl, rfl, rfl⟩
  case first =>
    rw [editFirst_accepted hon]
    exact ⟨_, rfl, setEditBuf_spec frame (some b0) s⟩
  case notLoaded => rw [editMid_notLoaded hother, editLast_notLoaded hother]; exact ⟨rfl, rfl⟩
  case mid =>
    rw [editMid_loaded hon hbuf hidx]
    exact ⟨_, rfl, setEditBuf_spec frame (some (withWord (k + 1) val b)) s⟩
  case last =>
    rw [editLast_loaded hon hbuf hidx]
    exact ⟨_, rfl, applyEdit_emptied frame i (withWord 5 val b).words s⟩

end Sys2Proof.Proofs.LiveEdits
end

section
/-!
The Arbiter and GOOSE: orders and variables of the host, APPLY of a cycle, and the retransmission and the loss of a GOOSE
state. Sys2Proof/Laws/ArbOps.lean says what handing a frame of a block to the board leaves; here it is put together with
the commands that run these operations.
-/

namespace Sys2Proof.Proofs.Arbiter

open Sys2Proof.Machine Sys2Proof.Safety Sys2Proof.Laws Sys2Proof.Proofs.Positions Sys2Proof.Proofs.Timekeeper
open Sys2Proof.Proofs.SerialCharacters

/-! ### Orders and variables of the host (R606, R625, R626) -/

section Host

variable (val : Word) (frame : Bool) (s : State)

/-- The order that a write of ARB_OUT_CMD names, with the rank of its requester. -/
def orderOf : Order where
  output := fld val 9 0
  value := val.getLsbD 16
  rank := if frame then frameRank s else hostRank s

/-- The Arbiter after a write of ARB_OUT_CMD. -/
def ordered : ArbBlk :=
  if outputExists (fld val 9 0) s = false then { s.arb with cmdErr := true }
  else if frame then { s.arb with ordersFrame := putOrder (orderOf val frame s) s.arb.ordersFrame }
  else { s.arb with ordersSpi := putOrder (orderOf val frame s) s.arb.ordersSpi }

/-- ARB_OUT_CMD refuses an output that does not exist, and else adds to the orders of its requester. -/
theorem arbOutCmd_eq : arbOutCmd val frame s = { s with arb := ordered val frame s } := by
  cases hexists : outputExists (fld val 9 0) s with
  | false => simp only [arbOutCmd, ordered, hexists, if_true]
  | true =>
    cases frame <;>
      simp only [arbOutCmd, ordered, orderOf, hexists, Bool.true_eq_false, Bool.false_eq_true, if_true, if_false]

/-- The Arbiter after a write of variable `v`: a full queue takes nothing (R606). -/
def varQueued (v : Nat) : ArbBlk :=
  if s.arb.varQueue.length < 16 then { s.arb with varQueue := s.arb.varQueue ++ [(v, val.toInt)] } else s.arb

theorem arbVarWrite_eq (v : Nat) : (arbVarWrite v val s).2 = { s with arb := varQueued val s v } := by
  by_cases hroom : s.arb.varQueue.length < 16
  · simp only [arbVarWrite, queueVar, varQueued, hroom, if_true]
  · simp only [arbVarWrite, queueVar, varQueued, hroom, if_false]

variable {s} (hcore : coreAnswers s = true)
include hcore

theorem exec_arbOutCmd : exec (.arbOutCmd val frame) s = .next { s with arb := ordered val frame s } := by
  simp only [exec, execArbOutCmd, ifCore_answers hcore, arbOutCmd_eq]

theorem exec_arbVarWrite (v : Fin 2048) :
    exec (.arbVarWrite v val frame) s = .next { s with arb := varQueued val s v } := by
  simp only [exec, execArbVarWrite, ifCore_answers hcore, arbVarWrite_eq]

end Host

/-! ### APPLY (R624, R632, R633) -/

section Apply

variable {c : ArbCycle} {s : State}

/-- The GPIO balls when the Arbiter's outputs are `outs` (R624). -/
def pinDrives (outs : List Bool) (s : State) : List PinDrive :=
  (List.range 16).map (fun i => if gpioIsOutput i s then (if nth false outs i then PinDrive.high else .low) else .hiZ)

/-- APPLY has begun: the cycle is over, and the variables as of A are kept. -/
def cycleClosed (s : State) : State := { s with arb := { s.arb with cyc := none, varsAtA := s.arb.vars } }

/-- The outputs `outs` have been taken, with no card word to write. -/
def outputsTaken (outs : List Bool) (s : State) : State :=
  { s with
    arb := { s.arb with outs := outs, fallbackWas := false, force := [], cardWait := [] }
    gpio := pinDrives outs s }

/-- The class actions `acts` have been carried out (Table 11-6). -/
def classesSet (acts : List PendAct) (s : State) : State :=
  { s with rte := { s.rte with
    clsOver := acts.foldl (fun l a => putAssoc a.target (BitVec.ofNat 3 a.p) l) s.rte.clsOver } }

/-- No actions, or one class action. -/
def ClassOnly (acts : List PendAct) : Prop := acts = [] ∨ ∃ a, acts = [a] ∧ a.code = 4

/-- No block has a new state to publish. -/
def NothingToPublish (s : State) : Prop := ∀ b, b < 32 → pubChanged b s = false

/-- The state after APPLY of a cycle that asks for class actions alone. -/
def applied (c : ArbCycle) (s : State) : State :=
  let t := classesSet c.acts (outputsTaken c.outs (cycleClosed s))
  { t with arb := { t.arb with busyUntil := localNow s } }

theorem frame_applied (c : ArbCycle) (s : State) : Frame [.arb, .gpio, .rte] s (applied c s) := by
  intro part hpart
  cases part <;> simp [Agree, applied, classesSet, outputsTaken, cycleClosed] at hpart ⊢

theorem cardWrites_none (hcards : cardCount s = 0) (old new : List Bool) (all : Bool) :
    cardWrites old new all s = [] := by
  simp only [cardWrites, hcards, List.range_zero, List.filter_nil, List.map_nil]

/-- Outside the fallback states, a unit without card words takes the outputs and drives its balls. -/
theorem applyOutputs_taken (hfree : s.pos.fallbackApplied = false) (hcards : cardCount s = 0) :
    applyOutputs c s = outputsTaken c.outs s := by
  simp only [applyOutputs, hfree, Bool.false_eq_true, if_false, cardWrites_none hcards, pushCards]
  rfl

theorem policyAction_class {a : PendAct} (hcode : a.code = 4) (s : State) :
    policyAction a s = classesSet [a] s := by
  simp only [policyAction, hcode, Nat.reduceEqDiff, if_true, if_false]
  rfl

/-- Class actions are neither LADDER nor MSG. -/
theorem classOnly_filters {acts : List PendAct} (hacts : ClassOnly acts) :
    acts.filter (fun a => a.code ≠ 9 ∧ a.code ≠ 10) = acts ∧ acts.filter (fun a => a.code = 9) = [] ∧
      acts.filter (fun a => a.code = 10) = [] := by
  obtain rfl | ⟨a, rfl, hcode⟩ := hacts
  · exact ⟨rfl, rfl, rfl⟩
  · simp [hcode]

theorem policyActions_class {acts : List PendAct} (hacts : ClassOnly acts) (s : State) :
    acts.foldl (fun t a => policyAction a t) s = classesSet acts s := by
  obtain rfl | ⟨a, rfl, hcode⟩ := hacts
  · rfl
  · exact policyAction_class hcode s

/-- Outputs and classes do not enter into what the blocks publish. -/
theorem nothingToPublish_applied (hsame : NothingToPublish s) (acts : List PendAct) (outs : List Bool) :
    (List.range 32).filter (fun b => pubChanged b (classesSet acts (outputsTaken outs (cycleClosed s)))) = [] := by
  refine List.filter_eq_nil_iff.2 fun b hb hchanged => ?_
  have hkept : pubChanged b s = true := hchanged
  rw [hsame b (List.mem_range.1 hb)] at hkept
  contradiction

theorem firstCycleDone_later (hlater : s.pos.awaitFirstCycle = false) : firstCycleDone s = s := by
  simp only [firstCycleDone, hlater, Bool.false_eq_true, if_false]

/-- APPLY takes the outputs, carries out the class actions, and finds nothing to send. -/
theorem applyCycle_applied (hfree : s.pos.fallbackApplied = false) (hcards : cardCount s = 0)
    (hlater : s.pos.awaitFirstCycle = false) (hsame : NothingToPublish s) (hacts : ClassOnly c.acts) :
    applyCycle c s = applied c s := by
  obtain ⟨hpolicy, hladder, hmsgs⟩ := classOnly_filters hacts
  have houts : applyOutputs c (cycleClosed s) = outputsTaken c.outs (cycleClosed s) := applyOutputs_taken hfree hcards
  have hclasses := policyActions_class hacts (outputsTaken c.outs (cycleClosed s))
  have hpubs := nothingToPublish_applied hsame c.acts c.outs
  have hdone : firstCycleDone (applied c s) = applied c s := firstCycleDone_later hlater
  have hstart : { s with arb := { s.arb with cyc := none, varsAtA := s.arb.vars } } = cycleClosed s := rfl
  simp only [applyCycle, hstart, houts, hpolicy, hladder, hmsgs, hclasses, hpubs, ladderActions, newStates, handMsgs,
    List.map_nil, List.filter_nil, List.length_nil, if_true]
  exact hdone

theorem exec_arbApply (hruns : fabricRuns s = true) (hcyc : s.arb.cyc = some c) (hdue : c.applyAt ≤ localNow s) :
    exec .arbApply s = .next (applyCycle c s) := by
  simp only [exec, execArbApply, hcyc, hruns, due_of_le hdue, Bool.and_self, if_true]

end Apply

/-! ### GOOSE_RETRANSMIT (R642) -/

section Retransmit

variable {s : State} {b : Fin 32}

/-- A block that sends its held state again: the next sqNum, and one more retransmission (R642). -/
def resent (p : GoosePub) : GoosePub :=
  { p with sqNum := if p.sqNum = BitVec.allOnes 32 then 1 else p.sqNum + 1, k := p.k + 1 }

/-- A block with entry `entry` whose frame has been handed to the AB port at `now`: the next one is due after its interval
in ms. -/
def handed (now : Nat) (entry : List Byte) (p : GoosePub) : GoosePub :=
  { p with txCnt := satInc p.txCnt, due := some (now + pubInterval entry p.k * 250000) }

/-- Block `b` is about to send its held state again. -/
def resending (b : Fin 32) (s : State) : State := updPub b (fun _ => resent (pubAt b s)) s

/-- The message that carries `bytes`, the frame of block `b` (R643). -/
def gooseMsg (b : Nat) (bytes : List Byte) (s : State) : Inbound :=
  internalMsg .goose 11 0 b bytes 0x88B8 (tplTagMode (templateEntry (be16 (goosePubEntry b s) 2) s) == 2) s

theorem pub_lt (hI : Inv s) (b : Fin 32) : b.val < s.arb.pubs.length := by
  rw [(pub_len hI).1]
  exact b.isLt

theorem pubAt_updPub (f : GoosePub → GoosePub) (hlt : b.val < s.arb.pubs.length) :
    pubAt b (updPub b f s) = f (pubAt b s) := nth_upd_same _ f _ hlt

theorem pubAt_congr (b : Nat) {s t : State} (h : t.arb = s.arb) : pubAt b t = pubAt b s := by
  simp only [pubAt, h]

theorem resending_eq (hlt : b.val < s.arb.pubs.length) : updPub b resent s = resending b s := by
  unfold resending updPub
  rw [upd_const resent s.arb.pubs b GoosePub.reset hlt]
  rfl

theorem exec_gooseRetransmit {d : Nat} (hI : Inv s) (hruns : boardRuns s = true) (henabled : pubEnabled b s = true)
    (hheld : (pubAt b s).held.isSome = true) (hdue : (pubAt b s).due = some d) (hnow : d ≤ localNow s) :
    exec (.gooseRetransmit b) s = .next (sendGoose b 0 (resending b s)) := by
  simp only [exec, execGooseRetransmit, hruns, henabled, hheld, hdue, dueOpt, due_of_le hnow, Bool.and_self, if_true,
    ← resending_eq (pub_lt hI b)]
  rfl

/-- A block that is handed to the board goes to the one port its route keeps, and counts the transmission. -/
theorem sendGoose_sends {bytes : List Byte} {r : Route} {e : Nat} (hI : Inv s)
    (hbytes : gooseFrame b (resending b s) = bytes)
    (hroute : lookup (gooseMsg b bytes s).key s = some r) (hres : resEnabled r.res = true)
    (hkept : keptPorts (gooseMsg b bytes s) r s = [e]) (he : e ≤ 8) (hfilter : resFilter r.res = none)
    (hbound : routeBound r.id s = none) (hclass : messageClass (gooseMsg b bytes s) r s < 6)
    (hpairs : ∀ k, k < 8 → pairMode k s = 0)
    (hroom : Roomy e (messageClass (gooseMsg b bytes s) r s) bytes.length s) :
    Frame [.eth, .pairs, .arb, .cls, .rte] s (sendGoose b 0 (resending b s)) ∧
      pubAt b (sendGoose b 0 (resending b s)) =
        handed (localNow s) (goosePubEntry b s) (resent (pubAt b s)) ∧
      Sent .goose e (messageClass (gooseMsg b bytes s) r s) bytes (sendGoose b 0 (resending b s)) := by
  have hlt : b.val < (resending b s).arb.pubs.length := Nat.lt_of_lt_of_eq (pub_lt hI b) (upd_length _ _ _).symm
  obtain ⟨m, hsend, hkind, hport, hmsg, hkey, hdeliver, hring, hports, hclasses⟩ := sendGoose_shape b (resending b s)
  have hcls : messageClass m r s = messageClass (gooseMsg b bytes s) r s := (hclasses r s).trans (by rw [hbytes]; rfl)
  have hone : keptPorts m r s = [e] := (hports r s).trans (by rw [hbytes]; exact hkept)
  rw [hbytes] at hmsg
  have hfound : lookup m.key s = some r := by rw [hkey]; exact hroute
  obtain ⟨hframe, hsent⟩ := enterBoard_congr m r e s
    (updPub b (handed (localNow s) (goosePubEntry b s)) (resending b s)) hI (by omega) hdeliver hring hfound hres hone he
    hfilter hbound (by rw [hcls]; exact hclass) hpairs (by rw [hcls, hmsg]; exact hroom) rfl rfl rfl rfl rfl
  rw [hkind, hmsg, hcls] at hsent
  rw [hsend]
  refine ⟨frame_widen (frame_trans (frameArb s _) hframe) (by simp), ?waiting, hsent⟩
  calc pubAt b _ = pubAt b (updPub b (handed (localNow s) (goosePubEntry b s)) (resending b s)) :=
        pubAt_congr b (hframe .arb rfl)
    _ = handed (localNow s) (goosePubEntry b s) (pubAt b (resending b s)) := pubAt_updPub _ hlt
    _ = _ := congrArg _ (pubAt_updPub (fun _ => resent (pubAt b s)) (pub_lt hI b))

end Retransmit

/-! ### GOOSE_TAL_EXPIRY (R649) -/

section TalExpiry

variable {s : State} {b : Fin 128}

/-- A subscribe block whose time allowed to live has passed: its SAFE values count where its entry says so (R650). -/
def lost (entry : List Byte) (u : GooseSub) : GooseSub := { u with st := .lost, safe := flagAt entry 0 2 }

theorem exec_gooseTalExpiry (hruns : boardRuns s = true) (hvalid : (subAt b s).st = .valid)
    (hdue : (subAt b s).talDue ≤ localNow s) :
    exec (.gooseTalExpiry b) s =
      .next (raise .arbGooseLost (BitVec.ofNat 32 b) (updGooseSub b (lost (gooseSubEntry b s)) s)) := by
  simp only [exec, execGooseTalExpiry, hruns, hvalid, due_of_le hdue, beq_self_eq_true, Bool.and_self, if_true]
  rfl

/-- EVT_ARB_GOOSE_LOST sets the pending bit of the ARB block; the blocks stay. -/
theorem raise_gooseLost_blocks (w : Word) (s : State) :
    ∃ n v, raise .arbGooseLost w s = { s with arb := { s.arb with int := n }, evt := v } := by
  obtain ⟨q, o, n, hraise⟩ := raiseAt_evt .arbGooseLost 0 w s
  exact ⟨_, _, hraise⟩

theorem gooseTalExpiry_loses (hI : Inv s) (hruns : boardRuns s = true) (hvalid : (subAt b s).st = .valid)
    (hdue : (subAt b s).talDue ≤ localNow s) :
    ∃ t, exec (.gooseTalExpiry b) s = .next t ∧ Frame [.arb, .evt] s t ∧
      subAt b t = lost (gooseSubEntry b s) (subAt b s) ∧ (∀ d, d ≠ b.val → subAt d t = subAt d s) ∧
      Reported .arbGooseLost 0 (BitVec.ofNat 32 b) s t := by
  have hlt : b.val < s.arb.subs.length := by
    rw [(pub_len hI).2]
    exact b.isLt
  have hreport : Reported .arbGooseLost 0 (BitVec.ofNat 32 b) s
      (raise .arbGooseLost (BitVec.ofNat 32 b) (updGooseSub b (lost (gooseSubEntry b s)) s)) :=
    raiseAt_reported_every .arbGooseLost 0 _ rfl ⟨rfl, rfl⟩ fun _ => setBit_self s.arb.int 3 (by decide)
  obtain ⟨n, v, hraise⟩ := raise_gooseLost_blocks (BitVec.ofNat 32 b) (updGooseSub b (lost (gooseSubEntry b s)) s)
  refine ⟨_, exec_gooseTalExpiry hruns hvalid hdue, ?frame, ?lost, ?others, hreport⟩
  case frame =>
    rw [hraise]
    intro part hpart
    cases part <;> simp [Agree, updGooseSub] at hpart ⊢
  case lost =>
    rw [hraise]
    exact nth_upd_same _ _ _ hlt
  case others =>
    intro d hd
    rw [hraise]
    exact nth_upd_other _ _ _ (Ne.symm hd)

end TalExpiry

/-! ### The commands together -/

/-- Settles O58: each clause is the law of its command, in the order of the statement. -/
theorem arbiterActs : Obligations.ArbiterActs := by
  unfold Obligations.ArbiterActs
  refine ⟨?order, ?queued, ?apply, ?retransmit, ?expiry⟩
  case order =>
    intro s val frame hcore out o
    exact ⟨_, exec_arbOutCmd val frame hcore, frameArb s _, rfl⟩
  case queued =>
    intro s v val frame hcore
    exact ⟨_, exec_arbVarWrite val frame hcore v, frameArb s _, rfl⟩
  case apply =>
    intro s c hruns hcyc hdue hfree hcards hlater hsame drives hacts
    refine ⟨applied c s, ?_, frame_applied c s, rfl, rfl, rfl, rfl, rfl, rfl⟩
    rw [exec_arbApply hruns hcyc hdue, applyCycle_applied hfree hcards hlater hsame hacts]
  case retransmit =>
    intro s b d r e hI hruns henabled hheld hdue hnow p1 bytes m hroute hres hkept he hfilter hbound hclass hpairs hroom
    exact ⟨_, exec_gooseRetransmit hI hruns henabled hheld hdue hnow,
      sendGoose_sends hI rfl hroute hres hkept he hfilter hbound hclass hpairs hroom⟩
  case expiry =>
    intro s b hI hruns hvalid hdue
    exact gooseTalExpiry_loses hI hruns hvalid hdue

end Sys2Proof.Proofs.Arbiter
end

section
/-!
The expansion bridge watches its slots: scans that end, card interrupts, status polls, presence and enumeration.
Sys2Proof/Laws/Cards.lean says what an assertion does; here each command is said to be updates of its slot and a request
that joins the queue, and the results are read off these updates.
-/

namespace Sys2Proof.Proofs.CardWatch

open Sys2Proof.Machine Sys2Proof.Safety Sys2Proof.Laws Sys2Proof.Proofs.Positions Sys2Proof.Proofs.SerialCharacters

/-- A card slot of the device after an update. -/
theorem xbSlot_updSlot {s : State} (hI : Inv s) (i : Fin 8) (f : XbSlot → XbSlot) :
    xbSlot i (updSlot i f s) = f (xbSlot i s) := by
  obtain ⟨hslots, -⟩ := slot_len hI
  exact slot_upd _ _ _ (by omega)

/-! ### Scans and prefetch buffers (R691, R700) -/

/-- The end of the last item ends the scan: its errors are shown and it is counted. -/
theorem exec_xbScanComplete_last {s : State} {k : XbScan} (hscan : s.xb.scan = some k) (hleft : k.left = [])
    (hopen : k.open_ = 0) : exec .xbScanComplete s =
      .next { s with xb := { s.xb with scan := none, scanErr := k.err, scanSeq := s.xb.scanSeq + 1 } } := by
  simp only [exec, execXbScanComplete, hscan, hleft, hopen, List.isEmpty_nil, and_self, if_true]

theorem exec_invalidatePrefetch {s : State} (hcore : coreAnswers s = true) :
    exec .invalidatePrefetch s = .next { s with xb := { s.xb with bufs := [] } } := by
  simp only [exec, execInvalidatePrefetch, ifCore_answers hcore, invalidateBufs]

/-! ### Card interrupts and polls (R702, R703, R708) -/

section Interrupts

variable {s : State} {i : Fin 8} (hruns : boardRuns s = true) (hpresent : slotPresent i s = true)
include hruns hpresent

/-- In MESSAGE mode the line of a PRESENT slot gives an assertion. -/
theorem exec_xbIntAssert_message (age : Nat) (hmode : slotIntMode i s = 1) : exec (.xbIntAssert i age) s =
    .next (assertInt i (stampAgo age s) (updSlot i (fun k => { k with intLow := true }) s)) := by
  simp only [exec, execXbIntAssert, hruns, hmode, hpresent, beq_self_eq_true, Bool.and_self, if_true]

/-- With no announce under way, an assertion is counted, its instant is kept, and its announce read joins the queue. -/
theorem xbIntAssert_asks (hI : Inv s) (age : Nat) (hmode : slotIntMode i s = 1) (hann : (xbSlot i s).ann = none) :
    ∃ t, exec (.xbIntAssert i age) s = .next t ∧ Frame [.xb] s t ∧
      t.xb.queue = (xbJoin (bareReq 5 i (announceAddr i s) (announceLen i s) .announce) s).xb.queue ∧
      xbSlot i t = { xbSlot i s with
        intLow := true
        intCnt := satInc (xbSlot i s).intCnt
        ann := some { instant := stampAgo age s, origin := localNow s, more := none } } := by
  obtain ⟨hslots, -⟩ := slot_len hI
  let low := updSlot i (fun k => { k with intLow := true }) s
  have hlow : xbSlot i low = { xbSlot i s with intLow := true } := xbSlot_updSlot hI i _
  have hlen : i.val < low.xb.slots.length := by
    simp only [low, updSlot, upd_length]
    omega
  have hexec := exec_xbIntAssert_message hruns hpresent age hmode
  rw [assertInt_none i _ low hlen (by rw [hlow]; exact hann)] at hexec
  refine ⟨_, hexec, frameXb s _, ?queue, ?slot⟩
  case queue => simp only [xbJoin, announceAddr, announceLen, hlow]; rfl
  case slot => exact (slot_upd i _ low hlen).trans (by rw [hlow]; rfl)

/-- A POLLED slot whose time has come is asked for its status word. -/
theorem exec_xbPoll_due (hmode : slotIntMode i s = 2) (hdue : (xbSlot i s).pollDue ≤ localNow s) :
    exec (.xbPoll i) s = .next (xbJoin (bareReq 5 i (slotPollAddr i s) 2 .poll)
      (updSlot i (fun k => { k with pollDue := localNow s + slotPollUs i s * 250 }) s)) := by
  simp only [exec, execXbPoll, hruns, hmode, hpresent, due_of_le hdue, beq_self_eq_true, Bool.and_self, if_true]

end Interrupts

/-! ### Presence and enumeration (R711 to R713, R715) -/

/-- A card inserted into an ABSENT slot is queued behind the slots that wait to be enumerated. -/
theorem exec_xbPresenceDebounced_inserted {s : State} {i : Fin 8} (hsampled : presenceSampled s = true)
    (habsent : (xbSlot i s).st = .absent) : exec (.xbPresenceDebounced i true) s =
      .next { s with xb := { s.xb with
        slots := upd (fun k => { k with prs := true, prsDeb := true, st := .queued }) s.xb.slots i
        enumOrder := s.xb.enumOrder ++ [i.val] } } := by
  simp only [exec, execXbPresenceDebounced, hsampled, habsent, updSlot, upd_upd, Bool.true_eq_false, if_false, if_true]

/-- An ABSENT slot without a card stays ABSENT. -/
theorem exec_xbPresenceDebounced_empty {s : State} {i : Fin 8} (hsampled : presenceSampled s = true)
    (habsent : (xbSlot i s).st = .absent) : exec (.xbPresenceDebounced i false) s =
      .next (updSlot i (fun k => { k with prs := false, prsDeb := false }) s) := by
  simp only [exec, execXbPresenceDebounced, hsampled, habsent, Bool.true_eq_false, Bool.false_eq_true, if_false,
    if_true]

/-- With no slot ENUMERATING, the ID block of the first slot that waits is asked for. -/
theorem exec_xbEnumerateStart_first {s : State} {i : Nat} {is : List Nat} (hruns : boardRuns s = true)
    (hnone : ∀ x ∈ s.xb.slots, x.st ≠ .enumerating) (horder : s.xb.enumOrder = i :: is) :
    exec .xbEnumerateStart s = .next (xbJoin (bareReq 5 i 0 32 .ident)
        (updSlot i (fun k => { k with st := .enumerating }) { s with xb := { s.xb with enumOrder := is } })) := by
  have hidle : s.xb.slots.any (fun k => k.st == .enumerating) = false :=
    List.any_eq_false.2 fun x hx => by simpa using hnone x hx
  simp only [exec, execXbEnumerateStart, hruns, hidle, horder, Bool.not_false, Bool.and_self, if_true]

section Enumerate

variable {s : State} {i : Fin 8} (hcore : coreAnswers s = true)
include hcore

theorem exec_enumerate_requeues (hst : (xbSlot i s).st = .present ∨ (xbSlot i s).st = .idErr) :
    exec (.enumerate i) s = .next { s with xb := { s.xb with
      slots := upd (fun k => { k with st := .queued }) s.xb.slots i
      bufs := s.xb.bufs.filter (fun b => b.slot != i.val)
      enumOrder := s.xb.enumOrder ++ [i.val] } } := by
  simp only [exec, execEnumerate, ifCore_answers hcore, enumerateSlot, hst, if_true, dropSlotBufs, updSlot]

theorem exec_enumerate_refused (hpresent : (xbSlot i s).st ≠ .present) (herr : (xbSlot i s).st ≠ .idErr) :
    exec (.enumerate i) s = .next { s with xb := { s.xb with cmdErr := true } } := by
  simp only [exec, execEnumerate, ifCore_answers hcore, enumerateSlot, hpresent, herr, or_self, if_false]

end Enumerate

/-! ### The commands together -/

/-- Settles O60: each clause is the law of its command; a command on a slot changes the bridge alone. -/
theorem bridgeWatchesSlots : Obligations.BridgeWatchesSlots := by
  unfold Obligations.BridgeWatchesSlots
  refine ⟨?scan, ?slots, ?prefetch⟩
  case scan =>
    intro s k hscan hleft hopen
    exact exec_xbScanComplete_last hscan hleft hopen
  case slots =>
    intro s i hI k asks
    refine ⟨?interrupt, ?poll, ?presence, ?start, ?enumerate⟩
    case interrupt =>
      intro age hruns hmode hpresent hann
      exact xbIntAssert_asks hruns hpresent hI age hmode hann
    case poll =>
      intro hruns hmode hpresent hdue
      exact ⟨_, exec_xbPoll_due hruns hpresent hmode hdue, frameXb s _, rfl, xbSlot_updSlot hI i _⟩
    case presence =>
      intro hsampled habsent
      exact ⟨⟨_, exec_xbPresenceDebounced_inserted hsampled habsent, frameXb s _, xbSlot_updSlot hI i _, rfl⟩,
        ⟨_, exec_xbPresenceDebounced_empty hsampled habsent, frameXb s _, xbSlot_updSlot hI i _⟩⟩
    case start =>
      intro is hruns hnone horder
      exact ⟨_, exec_xbEnumerateStart_first hruns hnone horder, frameXb s _, xbSlot_updSlot hI i _, rfl, rfl⟩
    case enumerate =>
      intro hcore
      exact ⟨fun hst => ⟨_, exec_enumerate_requeues hcore hst, frameXb s _, xbSlot_updSlot hI i _, rfl, rfl⟩,
        fun hpresent herr => exec_enumerate_refused hcore hpresent herr⟩
  case prefetch =>
    intro s hcore
    exact exec_invalidatePrefetch hcore

end Sys2Proof.Proofs.CardWatch
end

section
/-!
What a step is, and what holds along every step: the front command and the clock edge both keep what
Sys2Proof/Laws/Keeps.lean lists, so LOCKED units, units that count and the running OTP command do.
-/

namespace Sys2Proof.Proofs.Steps

open Sys2Proof.Machine Sys2Proof.Safety Sys2Proof.Laws Sys2Proof.Proofs.TimeBase Sys2Proof.Proofs.Invariant

/-! ### One step -/

/-- Settles O1: the queue decides which of its two arms a step takes. -/
theorem stepTakesFront : Obligations.StepTakesFront := by
  unfold Obligations.StepTakesFront
  intro s c q hfront
  exact step_front hfront

/-- Settles O3: every command answers a next state, and keeps the queue and the count of free values. -/
theorem noCommandStops : Obligations.NoCommandStops := by
  unfold Obligations.NoCommandStops
  intro c s
  obtain ⟨t, hexec, hkeeps⟩ := exec_goes (Keeps_refl s) c
  exact ⟨t, hexec, hkeeps.pend, hkeeps.free⟩

/-- A step keeps what every command keeps, but for the command that it takes from the queue. -/
theorem step_keeps {s t : State} (hstep : step s = .next t) : ∃ q, Keeps (s.withPending q) t := by
  cases hqueue : s.pending with
  | nil =>
    obtain rfl : tick s = t := nxt ((step_idle hqueue).symm.trans hstep)
    exact ⟨s.pending, tick_keeps (Keeps_refl s)⟩
  | cons c q =>
    obtain ⟨u, hexec, hkeeps⟩ := exec_goes (Keeps_refl (s.withPending q)) c
    obtain rfl : u = t := nxt (hexec.symm.trans ((step_front hqueue).symm.trans hstep))
    exact ⟨q, hkeeps⟩

/-! ### OTP units along a step (Table 15-3, R845, R848, R851, R853, R860) -/

/-- Settles O6: a LOCKED unit stays LOCKED under whatever keeps the list, and its bits are part of what is kept. -/
theorem lockedUnitsNeverChange : Obligations.LockedUnitsNeverChange := by
  unfold Obligations.LockedUnitsNeverChange
  intro u s t hsealed hstep
  obtain ⟨q, hkeeps⟩ := step_keeps hstep
  obtain ⟨hunit, -⟩ := hkeeps.lock u hsealed
  exact ⟨Keeps_sealed hkeeps hsealed, hunit⟩

/-- Settles O7: a command starts on a unit that does not count, and no unit starts to count while a command runs on
it. -/
theorem runningCommandFits : Obligations.RunningCommandFits := by
  unfold Obligations.RunningCommandFits
  intro s t hfits hstep
  obtain ⟨q, hkeeps⟩ := step_keeps hstep
  exact Keeps_fits hkeeps hfits

/-- A unit that has taken effect is none that a fitting command could burn. -/
theorem counted_of_effective {s : State} {u : Nat} (hfits : RunFits s) (heffective : otpEffective u s = true) :
    Counted u s := by
  refine ⟨heffective, fun r hrun => (hfits r hrun).imp_right fun hnot => ?_⟩
  rintro rfl
  rw [heffective] at hnot
  cases hnot

/-- The count grows with the set of counter units that have taken effect. -/
theorem rollbackCount_mono {s t : State} (hmono : ∀ u, otpEffective u s = true → otpEffective u t = true) :
    rollbackCount s ≤ rollbackCount t := by
  unfold rollbackCount
  rw [← List.countP_eq_length_filter, ← List.countP_eq_length_filter]
  exact List.countP_mono_left fun u _ => hmono u

/-- Settles O8: a unit that has taken effect keeps it, so none of those that the count counts is lost. -/
theorem rollbackNeverFalls : Obligations.RollbackNeverFalls := by
  unfold Obligations.RollbackNeverFalls
  intro s t hfits hstep
  obtain ⟨q, hkeeps⟩ := step_keeps hstep
  have hmono : ∀ u, otpEffective u s = true → otpEffective u t = true := by
    intro u heffective
    obtain ⟨hstill, -⟩ := Keeps_counted hkeeps (counted_of_effective hfits heffective)
    exact hstill
  exact ⟨rollbackCount_mono hmono, hmono⟩

end Sys2Proof.Proofs.Steps
end

section
/-!
Power, the endgame, wake sources and the thermal trip: what the state is after each of the commands of spec/14, and what
the statements read from it. The retention check of a VOID region is in Sys2Proof/Laws/PowerUp.lean.
-/

namespace Sys2Proof.Proofs.Power

open Sys2Proof.Machine Sys2Proof.Safety Sys2Proof.Laws Sys2Proof.Proofs.ManagementPort
open Sys2Proof.Proofs.SerialCharacters

/-! ### Frames -/

theorem frame_pwr (s : State) (p : PwrBlk) : Frame [.pwr] s { s with pwr := p } := by
  intro part hpart
  cases part <;> simp [Agree] at hpart ⊢

theorem frame_mgt_pwr (s : State) (m : MgtBlk) (p : PwrBlk) : Frame [.mgt, .pwr] s { s with mgt := m, pwr := p } := by
  intro part hpart
  cases part <;> simp [Agree] at hpart ⊢

theorem frame_mem_pwr (s : State) (m : MemBlk) (p : PwrBlk) : Frame [.mem, .pwr] s { s with mem := m, pwr := p } := by
  intro part hpart
  cases part <;> simp [Agree] at hpart ⊢

theorem frame_pwr_therm (s : State) (p : PwrBlk) (h : ThermBlk) :
    Frame [.pwr, .therm] s { s with pwr := p, therm := h } := by
  intro part hpart
  cases part <;> simp [Agree] at hpart ⊢

theorem frame_free_pwr_therm (s : State) (n : Nat) (p : PwrBlk) (h : ThermBlk) :
    Frame [.free, .pwr, .therm] s { s with free := n, pwr := p, therm := h } := by
  intro part hpart
  cases part <;> simp [Agree] at hpart ⊢

theorem frame_pwr_mem_gpio (s : State) (p : PwrBlk) (m : MemBlk) (g : List PinDrive) :
    Frame [.pwr, .mem, .gpio] s { s with pwr := p, mem := m, gpio := g } := by
  intro part hpart
  cases part <;> simp [Agree] at hpart ⊢

theorem frame_pwr_therm_evt_pos (s : State) (p : PwrBlk) (h : ThermBlk) (v : EvtBlk) (q : PosBlk) :
    Frame [.pwr, .therm, .evt, .pos] s { s with pwr := p, therm := h, evt := v, pos := q } := by
  intro part hpart
  cases part <;> simp [Agree] at hpart ⊢

theorem frame_pos_therm_pwr_evt (s : State) (q : PosBlk) (h : ThermBlk) (p : PwrBlk) (v : EvtBlk) :
    Frame [.pos, .therm, .pwr, .evt] s { s with pos := q, therm := h, pwr := p, evt := v } := by
  intro part hpart
  cases part <;> simp [Agree] at hpart ⊢

theorem frame_pos_gpio_therm_pwr_evt (s : State) (q : PosBlk) (g : List PinDrive) (h : ThermBlk) (p : PwrBlk)
    (v : EvtBlk) :
    Frame [.pos, .gpio, .therm, .pwr, .evt] s { s with pos := q, gpio := g, therm := h, pwr := p, evt := v } := by
  intro part hpart
  cases part <;> simp [Agree] at hpart ⊢

/-! ### Raised events -/

/-- An event that is logged at every occurrence: what raising it changes, and that this reports it. -/
theorem raiseAt_every (e : Ev) (u : Nat) (d : Word) {s0 s : State} (hevery : e.firstOnly = false)
    (htime : s.tmb.secs = s0.tmb.secs ∧ s.tmb.ns = s0.tmb.ns)
    (hpend : e.pendAt ≠ .none → pendSet e.pendAt u (setPend e.pendAt u s) = true) :
    ∃ q o n, raiseAt e u d s = { setPend e.pendAt u s with
        evt := { (setPend e.pendAt u s).evt with queue := q, ovf := o, dropCnt := n } } ∧
      Reported e u d s0 { setPend e.pendAt u s with
        evt := { (setPend e.pendAt u s).evt with queue := q, ovf := o, dropCnt := n } } := by
  obtain ⟨q, o, n, hraise⟩ := raiseAt_evt e u d s
  have hreport : Reported e u d s0 (raiseAt e u d s) := raiseAt_reported_every e u d hevery htime hpend
  rw [hraise] at hreport
  exact ⟨q, o, n, hraise, hreport⟩

/-! ### Power-up (Table 14-2, R775, R787, R790, R791) -/

theorem exec_mainPowerGood {s : State} (hboot : s.pwr.boot = .unpowered) :
    ∃ p, exec .mainPowerGood s = .next { s with mem := { s.mem with latchSample := s.mem.retLatch }, pwr := p } ∧
      p.boot = .porWait ∧ p.mainGood = true ∧ p.vbakPowered = true ∧
      p.bootSrc = if s.pwr.restEntered && s.pwr.vbakPowered then .restExit else .powerOn := by
  simp only [exec, execMainPowerGood, hboot, if_true]
  exact ⟨_, rfl, rfl, rfl, rfl, rfl⟩

theorem exec_restExit {s : State} (hrest : s.pwr.boot = .rest) (hmain : s.pwr.mainGood = true) :
    exec .restExit s = .next (mainGoodNow .restExit { s with pwr := { s.pwr with pwrFailLow := false } }) := by
  simp only [exec, execRestExit, hrest, hmain, and_self, if_true]

theorem exec_porRelease {s : State} (m : Straps) (hwait : s.pwr.boot = .porWait)
    (hjtag : jtagHolds s.jtag.instr = false) :
    exec (.porRelease m) s = .next { s with
      pwr := { s.pwr with pwrFailLow := false, resetLow := false, boot := .pllWait }
      therm := { s.therm with straps := m } } := by
  simp only [exec, execPorRelease, hwait, heldOrPll, hjtag, Bool.or_self, Bool.false_eq_true, if_true, if_false]

theorem exec_resetNRelease {s : State} (m : Straps) (hreset : s.pwr.boot = .inReset) (hlow : s.pwr.resetLow = true)
    (hjtag : jtagHolds s.jtag.instr = false) :
    exec (.resetNRelease m) s = .next { s with
      pwr := { s.pwr with resetLow := false, boot := .pllWait }
      therm := { s.therm with straps := m } } := by
  simp only [exec, execResetNRelease, hreset, hlow, and_self, heldOrPll, hjtag, Bool.or_self, Bool.false_eq_true,
    if_true, if_false]

theorem exec_pllLock {s : State} (hwait : s.pwr.boot = .pllWait) :
    exec .pllLock s = .next { s with
      pwr := { s.pwr with boot := .init }
      therm := { s.therm with resetCause := BitVec.ofNat 5 (2 ^ s.pwr.bootSrc.bit) } } := by
  simp only [exec, execPllLock, hwait, if_true]

/-- Settles O28: each clause is what its command makes of the state that it waits for. -/
theorem powerUpSteps : Obligations.PowerUpSteps := by
  unfold Obligations.PowerUpSteps
  intro s m
  refine ⟨fun hboot => ?main, fun hrest hmain => ?rest, fun hwait hjtag => ?por, fun hreset hlow hjtag => ?release,
    fun hwait => exec_pllLock hwait⟩
  case main =>
    obtain ⟨p, hexec, hwait, hgood, hvbak, hsrc⟩ := exec_mainPowerGood hboot
    exact ⟨_, hexec, frame_mem_pwr s _ p, hwait, hgood, hvbak, hsrc, rfl⟩
  case rest => exact ⟨_, exec_restExit hrest hmain, frame_mem_pwr s _ _, rfl, rfl, rfl⟩
  case por => exact ⟨_, exec_porRelease m hwait hjtag, frame_pwr_therm s _ _, rfl, rfl⟩
  case release => exact ⟨_, exec_resetNRelease m hreset hlow hjtag, frame_pwr_therm s _ _, rfl, rfl⟩

/-! ### READY (R775 to R778, R788, R966) -/

/-- A POWER_ON with the latch clear makes the region VOID, reports it, and READY is set. -/
theorem exec_ready_void {s : State} (ue : Bool) (hinit : s.pwr.boot = .init) (hfail : s.pwr.pwrFailLow = false)
    (haborted : s.sec.abortedPending = false) (hsrc : s.pwr.bootSrc = .powerOn) (hlatch : s.mem.latchSample = false) :
    ∃ d q, exec (.ready ue) s =
      .next (raiseAt .memRetVoid 0 (retStatusWord (voidState s ue d q)) (voidState s ue d q)) := by
  obtain ⟨d, q, hready⟩ := ready_void s ue haborted hsrc hlatch
  refine ⟨d, q, ?_⟩
  rw [← hready]
  refine ready_go s ue hinit ?_
  obtain ⟨queue, ovf, drops, hraise⟩ :=
    raiseAt_evt .memRetVoid 0 (retStatusWord (voidState s ue d q)) (voidState s ue d q)
  rw [hready, hraise]
  exact hfail

/-- After a reset that needs no check, READY searches the log and the records, and sets the outputs (R168). -/
theorem becomeReady_unchecked {s : State} (ue : Bool) (hsrc : checksRegion s = false)
    (haborted : s.sec.abortedPending = false) :
    ∃ h v q, becomeReady ue s = { s with
      pwr := { s.pwr with boot := .ready, restEntered := false }, therm := h, evt := v, pos := q } := by
  have hready : becomeReady ue s = readyOutputs (scanRecords (scanLogHead { s with
      pwr := { s.pwr with boot := .ready, restEntered := false } })) := by
    unfold becomeReady
    extract_lets s1 p s2 s3
    have hs1 : s1 = s := if_neg (by simp [hsrc])
    have hs3 : s3 = readyOutputs s2 := if_neg (by simp [s2, hs1, readyOutputs, scanRecords, scanLogHead, haborted])
    rw [if_neg (by simp [hsrc]), hs3]
    simp only [s2, p, hs1]
    rfl
  exact ⟨_, _, _, hready⟩

/-- Settles O29: the region is VOID after the one reset, and not looked at after the other. -/
theorem readyChecksRegion : Obligations.ReadyChecksRegion := by
  unfold Obligations.ReadyChecksRegion
  intro s ue hinit hfail haborted
  refine ⟨fun hsrc hlatch => ?void, fun hsrc => ?kept⟩
  case void =>
    obtain ⟨d, q, hexec⟩ := exec_ready_void ue hinit hfail haborted hsrc hlatch
    obtain ⟨queue, ovf, drops, hraise, hreport⟩ := raiseAt_every .memRetVoid 0 (retStatusWord (voidState s ue d q))
      (s0 := s) (s := voidState s ue d q) rfl ⟨rfl, rfl⟩ (fun _ => setBit_self _ _ (by decide))
    rw [hraise] at hexec
    exact ⟨_, hexec, rfl, rfl, rfl, rfl, rfl, rfl, rfl, rfl, hreport⟩
  case kept =>
    obtain ⟨h, v, q, hready⟩ := becomeReady_unchecked ue (by simp only [checksRegion, hsrc]) haborted
    have hexec := ready_go s ue hinit (by rw [hready]; exact hfail)
    rw [hready] at hexec
    exact ⟨_, hexec, frame_pwr_therm_evt_pos s _ h v q, rfl, rfl, rfl⟩

/-! ### The endgame, REST and the loss of power (R774, R820 to R824, R830, R831) -/

theorem interruptOtp_idle {s : State} (hrun : s.sec.run = none) : interruptOtp s = s := by
  simp only [interruptOtp, hrun]

/-- The endgame in SEAL: the seal was formed at its entry, and the balls take their fallback states (R822, R823). -/
theorem exec_pwrFail_sealed {s : State} (hcore : coreUp s = true) (hseal : s.pwr.ladder = .seal)
    (hrun : s.sec.run = none) :
    ∃ g, exec .pwrFail s = .next { s with
      pwr := { s.pwr with pwrFailLow := true, endgame := true }
      mem := { s.mem with retCrc := s.therm.sealCrc, retLatch := s.pwr.vbakOk }
      gpio := g } := by
  simp only [exec, execPwrFail, hcore, if_true]
  unfold startEndgame
  extract_lets low p s1 s2 q
  have hs1 : s1 = { s with pwr := { s.pwr with pwrFailLow := true } } := interruptOtp_idle hrun
  have hs2 : s2 = sealRegion s1.therm.sealCrc (gpioFallback s1) := if_pos (by simp only [low, hseal, BEq.rfl])
  simp only [q, hs2, hs1]
  exact ⟨_, rfl⟩

theorem exec_endgameComplete {s : State} (hendgame : s.pwr.endgame = true) :
    exec .endgameComplete s = .next { restState s with
      pwr := { (restState s).pwr with boot := .rest, restEntered := true } } := by
  simp only [exec, execEndgameComplete, hendgame, if_true]

/-- The loss of main power outside a burn: OTP stays, and so does the region where the device rested or the latch is
set. -/
theorem exec_mainPowerLoss {s : State} (hmain : s.pwr.mainGood = true) (hrun : s.sec.run = none) :
    ∃ p j, exec .mainPowerLoss s = .next { restState s with
        mem := if s.pwr.boot = .rest ∨ s.mem.retLatch = true then (restState s).mem
          else { MemBlk.reset with retCrc := s.mem.retCrc }
        pwr := p, jtag := j } ∧ p.boot = .unpowered ∧ p.mainGood = false := by
  simp only [exec, execMainPowerLoss, interruptOtp_idle hrun, hmain, if_true]
  exact ⟨_, _, rfl, rfl, rfl⟩

theorem exec_vbakLow_powered {s : State} (hmain : s.pwr.mainGood = true) :
    exec .vbakLow s = .next { s with pwr := { s.pwr with vbakOk := false } } := by
  simp only [exec, execVbakLow, hmain, if_true]

/-- Without main power the latch clears, whether or not the domain keeps its power. -/
theorem exec_vbakLow_unpowered {s : State} (hmain : s.pwr.mainGood = false) :
    ∃ t, exec .vbakLow s = .next t ∧ t.pwr.vbakOk = false ∧ t.mem.retLatch = false := by
  simp only [exec, execVbakLow, hmain, Bool.false_eq_true, if_false]
  split
  · exact ⟨_, rfl, rfl, rfl⟩
  · exact ⟨_, rfl, rfl, rfl⟩

/-- Settles O34: each clause is what its command leaves; the last one depends on main power. -/
theorem endgameAndRest : Obligations.EndgameAndRest := by
  unfold Obligations.EndgameAndRest
  intro s
  refine ⟨fun hcore hseal hrun => ?fail, fun hendgame => ?rest, fun hmain hrun => ?loss, ?vbak⟩
  case fail =>
    obtain ⟨g, hexec⟩ := exec_pwrFail_sealed hcore hseal hrun
    exact ⟨_, hexec, frame_pwr_mem_gpio s _ _ g, rfl, rfl⟩
  case rest => exact ⟨_, exec_endgameComplete hendgame, rfl, rfl, rfl, rfl, rfl, rfl, rfl, rfl⟩
  case loss =>
    obtain ⟨p, j, hexec, hboot, hgood⟩ := exec_mainPowerLoss hmain hrun
    refine ⟨_, hexec, hboot, hgood, rfl, fun hlatch => ?_, fun hclear hawake => ?_⟩
    · simp only [hlatch, or_true, if_true]
      exact ⟨rfl, hlatch⟩
    · simp only [hclear, hawake, Bool.false_eq_true, or_self, if_false]
      exact ⟨rfl, rfl⟩
  case vbak =>
    cases hmain : s.pwr.mainGood with
    | true => exact ⟨_, exec_vbakLow_powered hmain, rfl, fun _ => rfl, by simp⟩
    | false =>
      obtain ⟨t, hexec, hvbak, hlatch⟩ := exec_vbakLow_unpowered hmain
      exact ⟨t, hexec, hvbak, by simp, fun _ => hlatch⟩

/-! ### Wake sources (Table 14-8, R807, R808, R814 to R816) -/

/-- The state with the causes of a wake of source `b` registered. -/
def registered (b : Nat) (s : State) : State :=
  { s with pwr := { s.pwr with reg := addCause b (localNow s) s.pwr.reg } }

/-- The exit that a wake of source `b` starts from a state of the ladder at rest. -/
def woken (b : Nat) (s : State) : State := startExit s.pwr.ladder false (registered b s)

/-- Sources other than the links, the comparators and the cards are available in every state (Table 14-8). -/
theorem wakeAvailable_always {b : Nat} (s : State) (hb : b ≠ 3 ∧ b ≠ 5 ∧ b ≠ 6) : wakeAvailable b s = true := by
  unfold wakeAvailable
  split <;> simp [hb]

theorem wakeAvailable_link {s : State} (hadjourn : s.pwr.ladder = .adjourn) : wakeAvailable 3 s = true := by
  simp [wakeAvailable, wakeColumn, hadjourn]

theorem wakeAvailable_card {s : State} (hseal : s.pwr.ladder ≠ .seal) : wakeAvailable 6 s = true := by
  have hcolumn : wakeColumn s ≠ .seal := by
    unfold wakeColumn
    split
    · decide
    · exact hseal
  unfold wakeAvailable
  split
  · contradiction
  · rfl
  · rfl

theorem wakeEnabled_of_bit {b : Nat} {s : State} (hbit : s.pwr.wakeEn.getLsbD b = true) : wakeEnabled b s = true := by
  simp only [wakeEnabled, hbit, Bool.or_true]

/-- Before HOLD is reached no point of no return has passed (R807). -/
theorem wakeEntering_play {s : State} (hplay : s.pwr.ladder = .play) : wakeEntering s = takeback .hold (drawn s) := by
  unfold wakeEntering
  extract_lets passed s1
  simp only [hplay]
  rfl

section Wake

variable {b : Nat} {s : State} (hcore : coreUp s = true) (henabled : wakeEnabled b s = true)
variable (havailable : wakeAvailable b s = true)
include hcore henabled havailable

theorem registerWake_steady (hsteady : s.pwr.phase = .steady) (hdown : s.pwr.ladder ≠ .play) :
    registerWake b s = woken b s := by
  simp only [registerWake, hcore, henabled, havailable, hsteady, hdown, Bool.true_eq_false, or_self, if_false]
  rfl

/-- A wake before HOLD is reached takes the entry back to PLAY. -/
theorem registerWake_entering (hentering : s.pwr.phase = .entering) (hplay : s.pwr.ladder = .play) :
    registerWake b s = takeback .hold (drawn (registered b s)) := by
  have hwake : registerWake b s = wakeEntering (registered b s) := by
    unfold registerWake
    extract_lets now s1
    simp only [hcore, henabled, havailable, hentering, Bool.true_eq_false, or_self, if_false]
    rfl
  exact hwake.trans (wakeEntering_play hplay)

end Wake

theorem frame_woken (b : Nat) (s : State) : Frame [.pwr] s (woken b s) := frame_pwr s _

/-- WAKE on an idle port registers its wake between the edges of MGT_CS_N (R97). -/
theorem exec_wake_idle {s : State} (hang : Bool) (hidle : PortIdle s) (hcore : coreUp s = true)
    (hsteady : s.pwr.phase = .steady) (hdown : s.pwr.ladder ≠ .play) :
    ∃ m, exec (.wake hang) s = .next { woken 0 s with mgt := m } := by
  have hwake : registerWake 0 (selected s) = woken 0 (selected s) :=
    registerWake_steady (s := selected s) hcore rfl (wakeAvailable_always _ (by decide)) hsteady hdown
  obtain ⟨m, hend, -⟩ := endTx_plain (SpiRun.start 0xAB).out hang [statusByte (selected s)] (woken 0 (selected s))
    hidle.2.2
  refine ⟨m, ?_⟩
  simp only [exec, execWake, ifMgt_idle hidle, spiWake, csFalls_selected hidle, hwake]
  exact congrArg _ hend

/-- Settles O33: an enabled source registers its wake where it is available, and a state at rest takes it as the start
of an exit. -/
theorem wakesStartExit : Obligations.WakesStartExit := by
  unfold Obligations.WakesStartExit
  intro s hcore
  refine ⟨fun hsteady hdown => ?rest, fun hentering hplay hen => ?taken⟩
  case rest =>
    intro exits
    have wakes (b : Nat) (hen : s.pwr.wakeEn.getLsbD b = true) (hav : wakeAvailable b s = true) :
        registerWake b s = woken b s :=
      registerWake_steady hcore (wakeEnabled_of_bit hen) hav hsteady hdown
    have exit (b : Nat) : exits b (woken b s) := ⟨rfl, rfl, rfl, rfl, rfl⟩
    refine ⟨fun hen => ?pin, fun pin hen hmask hinput => ?gpio, fun ch hen hmask => ?serial,
      fun p hen hmask hadjourn => ?link, fun k hen hmask hseal => ?card, fun hang hidle => ?command⟩
    case pin =>
      refine ⟨woken 1 s, ?_, frame_woken 1 s, exit 1⟩
      simp only [exec, execWakeNAssert, wakes 1 hen (wakeAvailable_always s (by decide))]
    case gpio =>
      refine ⟨woken 7 s, ?_, frame_woken 7 s, exit 7⟩
      simp only [exec, execGpioWake, hmask, hinput, Bool.not_false, Bool.and_self, if_true,
        wakes 7 hen (wakeAvailable_always s (by decide))]
    case serial =>
      refine ⟨woken 4 s, ?_, frame_woken 4 s, exit 4⟩
      simp only [exec, execSerialWake, hmask, if_true, wakes 4 hen (wakeAvailable_always s (by decide))]
    case link =>
      refine ⟨woken 3 s, ?_, frame_woken 3 s, exit 3⟩
      simp only [exec, execLinkWake, hmask, hadjourn, BEq.rfl, Bool.and_self, if_true,
        wakes 3 hen (wakeAvailable_link hadjourn)]
    case card =>
      refine ⟨woken 6 s, ?_, frame_woken 6 s, exit 6⟩
      simp only [exec, execCardWake, hmask, if_true, wakes 6 hen (wakeAvailable_card hseal)]
    case command =>
      obtain ⟨m, hexec⟩ := exec_wake_idle hang hidle hcore hsteady hdown
      exact ⟨_, hexec, frame_mgt_pwr s m _, exit 0⟩
  case taken =>
    have hwake := registerWake_entering hcore (wakeEnabled_of_bit hen) (wakeAvailable_always s (by decide)) hentering
      hplay
    refine ⟨takeback .hold (drawn (registered 1 s)), ?_, frame_free_pwr_therm s _ _ _, rfl, hplay, rfl, rfl, rfl⟩
    simp only [exec, execWakeNAssert, hwake]

/-! ### The thermal trip (R834, R835, R837) -/

/-- The state with a sample latched (R834). -/
def sampled (tj : BitVec 16) (s : State) : State := { s with therm := { s.therm with
  tjNow := tj, tjMax := if s.therm.tjMax.toInt < tj.toInt then tj else s.therm.tjMax } }

/-- The trip in SEAL before its event: the balls take their fallback states (R838). -/
def tripped (tj : BitVec 16) (s : State) : State :=
  gpioFallback { sampled tj s with
    therm := { (sampled tj s).therm with thermal := true, coolSince := none }
    pos := { s.pos with fallbackApplied := true } }

/-- The state without the trip, before its event. -/
def released (s : State) : State := { s with
  therm := { s.therm with thermal := false, coolSince := none }
  pos := { s.pos with fallbackApplied := fallbackHeld s } }

section Sample

variable {s : State} {tj : BitVec 16} (hcore : coreUp s = true) (hcool : s.therm.thermal = false)
include hcore hcool

theorem exec_thermalSample_below (hbelow : tj.toInt < 540) : exec (.thermalSample tj) s = .next (sampled tj s) := by
  have htrip : ¬ tripAt ≤ tj.toInt := by simpa [tripAt] using hbelow
  have hnone : ¬ s.therm.thermal = true := by simp [hcool]
  simp only [exec, execThermalSample, hcore, if_true, thermalSample, if_neg hnone, if_neg htrip]
  rfl

theorem exec_thermalSample_trips (habove : 540 ≤ tj.toInt) (hseal : s.pwr.ladder = .seal) :
    exec (.thermalSample tj) s = .next (raiseAt .thermal 0 (tj.setWidth 32) (tripped tj s)) := by
  have htrip : tripAt ≤ tj.toInt := habove
  have hnone : ¬ s.therm.thermal = true := by simp [hcool]
  simp only [exec, execThermalSample, hcore, if_true, thermalSample, if_neg hnone, if_pos htrip, trip, tripOutputs,
    if_pos hseal]
  rfl

end Sample

theorem exec_thermalRelease {s : State} {d : Nat} (hcore : coreUp s = true) (htrip : s.therm.thermal = true)
    (hcool : s.therm.coolSince = some d) (hdue : d + msCycles s.therm.relMs.toNat ≤ localNow s) :
    exec .thermalRelease s = .next (raiseAt .thermalClear 0 (s.therm.tjNow.setWidth 32) (released s)) := by
  simp only [exec, execThermalRelease, hcool, hcore, htrip, due_of_le hdue, Bool.and_self, if_true]
  rfl

/-- Settles O35: a sample below the trip point is only latched, the first one at it trips, and the release is due. -/
theorem thermalTrip : Obligations.ThermalTrip := by
  unfold Obligations.ThermalTrip
  intro s tj hcore
  refine ⟨fun hcool hbelow => exec_thermalSample_below hcore hcool hbelow, fun hcool habove hseal => ?trip,
    fun d htrip hcool hdue => ?release⟩
  case trip =>
    have hexec := exec_thermalSample_trips hcore hcool habove hseal
    obtain ⟨q, o, n, hraise, hreport⟩ := raiseAt_every .thermal 0 (tj.setWidth 32) (s0 := s) (s := tripped tj s) rfl
      ⟨rfl, rfl⟩ (fun _ => setBit_self _ _ (by decide))
    rw [hraise] at hexec
    exact ⟨_, hexec, frame_pos_gpio_therm_pwr_evt s _ _ _ _ _, rfl, rfl, rfl, hreport⟩
  case release =>
    have hexec := exec_thermalRelease hcore htrip hcool hdue
    obtain ⟨q, o, n, hraise, hreport⟩ := raiseAt_every .thermalClear 0 (s.therm.tjNow.setWidth 32) (s0 := s)
      (s := released s) rfl ⟨rfl, rfl⟩ (fun _ => setBit_self _ _ (by decide))
    rw [hraise] at hexec
    exact ⟨_, hexec, frame_pos_therm_pwr_evt s _ _ _ _, rfl, hreport⟩

end Sys2Proof.Proofs.Power
end

section
/-!
The event log and the sweeper: one entry written at the head of the ring, and one visit of a row in service.
-/

namespace Sys2Proof.Proofs.Stores

open Sys2Proof.Machine Sys2Proof.Safety Sys2Proof.Laws Sys2Proof.Proofs.ManagementPort Sys2Proof.Proofs.Power

/-! ### Frames -/

theorem frame_memBlk (s : State) (m : MemBlk) : Frame [.mem] s { s with mem := m } := by
  intro part hpart
  cases part <;> simp [Agree] at hpart ⊢

theorem frame_mem_evt (s : State) (m : MemBlk) (v : EvtBlk) : Frame [.mem, .evt] s { s with mem := m, evt := v } := by
  intro part hpart
  cases part <;> simp [Agree] at hpart ⊢

/-! ### EVT_LOG_WRITE (R893 to R895) -/

/-- The writer stores the entry at the head, and the head goes on; the lap changes where the index wraps. -/
theorem exec_evtLogWrite {s : State} {e : EvEntry} {l : List EvEntry} (hruns : fabricRuns s = true)
    (hqueue : s.evt.queue = e :: l) :
    ∃ a v, exec .evtLogWrite s = .next { s with
        mem := { s.mem with
          shared := Memory.putAll s.mem.shared (logBase + 16 * s.evt.headIdx.toNat) (logBytes e s.evt.headLap)
          portA := a }
        evt := v } ∧
      v.queue = l ∧ v.headIdx = s.evt.headIdx + 1 ∧
      v.headLap = if s.evt.headIdx = 1023 then nextLap s.evt.headLap else s.evt.headLap := by
  have hwriter : logWriterRuns s = true := by simp [logWriterRuns, hruns, hqueue]
  simp only [exec, execEvtLogWrite, hwriter, if_true, writeLogEntry, hqueue, portAWrite, portABegin,
    sharedPut, beq_iff_eq]
  exact ⟨_, _, rfl, rfl, rfl, rfl⟩

/-- Settles O40: what is stored is read back, and the rest of the region is as it was. -/
theorem logWritesOldestEvent : Obligations.LogWritesOldestEvent := by
  unfold Obligations.LogWritesOldestEvent
  intro s e l hruns hqueue hwf
  obtain ⟨a, v, hexec, hrest, hhead, hlap⟩ := exec_evtLogWrite hruns hqueue
  rw [show logBase = 0x1C000 from rfl] at hexec
  exact ⟨_, hexec, frame_mem_evt s _ v, hrest, hhead, hlap, getAll_putAll_of_length hwf (log_len e _),
    sharedBut_of_putAll rfl (log_len e _), rfl⟩

/-! ### SWEEPER_VISIT (R759, R764 to R767) -/

/-- The state in which the row of this visit has been taken, with the next visit one pace tick ahead. -/
def visiting (f : SweepFinding) (s : State) : State := { (takeRow s).2 with mem := { (takeRow s).2.mem with
  sweepBank := (takeRow s).1.bank
  sweepRow := (takeRow s).1.row
  sweepDue := nextPaceTick s
  starveCnt := if f.starved then satInc (takeRow s).2.mem.starveCnt else (takeRow s).2.mem.starveCnt } }

/-- Taking a row moves the marks and the sweep order only. -/
theorem takeRow_mem (s : State) :
    ∃ marks next count, (takeRow s).2 = { s with mem := { s.mem with
      marks := marks, sweepNext := next, sweepCount := count } } := by
  unfold takeRow
  split
  · exact ⟨_, _, _, rfl⟩
  · exact ⟨_, _, _, rfl⟩

theorem visiting_mem (f : SweepFinding) (s : State) : ∃ m, visiting f s = { s with mem := m } ∧
    m.spares = s.mem.spares ∧ m.shared = s.mem.shared ∧ m.suspects = s.mem.suspects ∧
    m.sweepBank = (takeRow s).1.bank ∧ m.sweepRow = (takeRow s).1.row := by
  obtain ⟨marks, next, count, htake⟩ := takeRow_mem s
  simp only [visiting, htake]
  exact ⟨_, rfl, rfl, rfl, rfl, rfl, rfl⟩

/-- A visit of a row in service in which SAVE finds no error is its TEST. -/
theorem exec_sweeperVisit {s : State} {f : SweepFinding} (hplay : inPlay s = true) (hdue : due s.mem.sweepDue s = true)
    (herrs : f.errs = []) (hrow : (takeRow s).1.row < bankRows (takeRow s).1.bank) :
    exec (.sweeperVisit f) s = .next (judgeRow (takeRow s).1 f (visiting f s)) := by
  have hservice : ¬ bankRows (takeRow s).1.bank ≤ (takeRow s).1.row := by omega
  simp only [exec, execSweeperVisit, hplay, hdue, Bool.and_self, if_true, sweepVisit, hservice, if_false, herrs,
    saveWords]
  rfl

theorem judgeRow_passes {r : RowId} {f : SweepFinding} {s : State} (hpasses : f.testFails = false)
    (hnone : s.mem.suspects = []) : judgeRow r f s = s := by
  simp [judgeRow, hpasses, hnone]

/-- A row that fails in several bits moves to a spare of its bank, if one can take it. -/
theorem judgeRow_remaps {r : RowId} {f : SweepFinding} {s : State} {k : SpareRec} (hfails : f.testFails = true)
    (hmulti : f.multi = true) (hspare : remapped r.row (spareOf r.bank s) = some k) :
    judgeRow r f s = raiseAt .memRepair 0 (rowDatum r) (setSpare r.bank k (dropSuspect r s)) := by
  have hsame : remapped r.row (spareOf r.bank (dropSuspect r s)) = some k := hspare
  simp only [judgeRow, hfails, hmulti, remapRow, hsame, raise, Bool.true_or, Bool.true_eq_false, if_true, if_false]

/-- Settles O41: SAVE finds nothing, so a visit is its TEST, which passes or has the row repaired. -/
theorem sweeperRepairs : Obligations.SweeperRepairs := by
  unfold Obligations.SweeperRepairs
  intro s f hI hplay hdue herrs hrow hbank
  have hexec := exec_sweeperVisit hplay hdue herrs hrow
  obtain ⟨m, hvisit, hspares, hshared, hsuspects, hlastBank, hlastRow⟩ := visiting_mem f s
  rw [hvisit] at hexec
  refine ⟨fun hpasses hnone => ?passes, fun k hfails hmulti hspare => ?fails⟩
  case passes =>
    rw [judgeRow_passes hpasses (hsuspects.trans hnone)] at hexec
    exact ⟨_, hexec, frame_memBlk s m, hspares, hshared, hlastBank, hlastRow⟩
  case fails =>
    have hspare' : remapped (takeRow s).1.row (spareOf (takeRow s).1.bank { s with mem := m }) = some k := by
      rw [← hspare, ← hspares]
      rfl
    rw [judgeRow_remaps hfails hmulti hspare'] at hexec
    obtain ⟨q, o, n, hraise, hreport⟩ := raiseAt_every .memRepair 0 (rowDatum (takeRow s).1) (s0 := s)
      (s := setSpare (takeRow s).1.bank k (dropSuspect (takeRow s).1 { s with mem := m })) rfl ⟨rfl, rfl⟩
      (fun _ => setBit_self _ _ (by decide))
    rw [hraise] at hexec
    refine ⟨_, hexec, frame_mem_evt s _ _, ?_, fun b hb => ?_, hshared, hreport⟩
    · refine nth_upd_same _ _ _ ?_
      show _ < m.spares.length
      rw [hspares, spare_len hI]
      exact hbank
    · refine (nth_upd_other _ _ _ hb.symm).trans ?_
      show nth .none m.spares b = _
      rw [hspares]

end Sys2Proof.Proofs.Stores
end

section
/-!
OTP commands and boundary scan: how each command of SEC_CMD starts and ends, and what the JTAG instructions do to the
boundary register, the core and the balls.
-/

namespace Sys2Proof.Proofs.Security

open Sys2Proof.Machine Sys2Proof.Safety Sys2Proof.Laws Sys2Proof.Proofs.Positions Sys2Proof.Proofs.SerialTransmission
open Sys2Proof.Proofs.Power Sys2Proof.Proofs.Timekeeper Sys2Proof.Proofs.SerialCharacters

/-! ### Frames -/

theorem frame_sec (s : State) (x : SecBlk) : Frame [.sec] s { s with sec := x } := by
  intro part hpart
  cases part <;> simp [Agree] at hpart ⊢

theorem frame_sec_evt (s : State) (x : SecBlk) (v : EvtBlk) : Frame [.sec, .evt] s { s with sec := x, evt := v } := by
  intro part hpart
  cases part <;> simp [Agree] at hpart ⊢

theorem frame_jtag (s : State) (j : JtagBlk) : Frame [.jtag] s { s with jtag := j } := by
  intro part hpart
  cases part <;> simp [Agree] at hpart ⊢

/-! ### SEC_CMD (R855, R856, R859) -/

section Commands

variable {s : State} (hcore : coreAnswers s = true) (hidle : s.sec.run = none)
include hcore hidle

theorem exec_testUnlock : exec .testUnlock s = .next (secTestUnlock s) := by
  have hword : fld (secWord false 7) 31 16 = 0x5EC0 ∧ fld (secWord false 7) 3 0 = 7 := by decide
  simp [exec, execTestUnlock, ifCore_answers hcore, secCommand, hword, hidle]

variable (hallowed : secAllowed s = true)
include hallowed

theorem exec_program : exec .program s = .next (secProgram s) := by
  have hword : fld (secWord false 1) 31 16 = 0x5EC0 ∧ fld (secWord false 1) 3 0 = 1 := by decide
  simp [exec, execProgram, ifCore_answers hcore, secCommand, hword, hidle, ifAllowed, hallowed]

theorem exec_lock : exec .lock s = .next (secLock s) := by
  have hword : fld (secWord false 2) 31 16 = 0x5EC0 ∧ fld (secWord false 2) 3 0 = 2 := by decide
  simp [exec, execLock, ifCore_answers hcore, secCommand, hword, hidle, ifAllowed, hallowed]

theorem exec_revoke (slot1 : Bool) : exec (.revoke slot1) s = .next (secRevoke (if slot1 then 1 else 0) s) := by
  have hword : fld (secWord slot1 3) 31 16 = 0x5EC0 ∧ fld (secWord slot1 3) 3 0 = 3 ∧
      fld (secWord slot1 3) 8 8 = if slot1 then 1 else 0 := by
    cases slot1 <;> decide
  simp [exec, execRevoke, ifCore_answers hcore, secCommand, hword, hidle, ifAllowed, hallowed]

theorem exec_rollbackAdvance : exec .rollbackAdvance s = .next (secRollback s) := by
  have hword : fld (secWord false 4) 31 16 = 0x5EC0 ∧ fld (secWord false 4) 3 0 = 4 := by decide
  simp [exec, execRollbackAdvance, ifCore_answers hcore, secCommand, hword, hidle, ifAllowed, hallowed]

theorem exec_enforce : exec .enforce s = .next (secEnforce s) := by
  have hword : fld (secWord false 5) 31 16 = 0x5EC0 ∧ fld (secWord false 5) 3 0 = 5 := by decide
  simp [exec, execEnforce, ifCore_answers hcore, secCommand, hword, hidle, ifAllowed, hallowed]

theorem exec_testDisable : exec .testDisable s = .next (secFlag .testDisable 3 s) := by
  have hword : fld (secWord false 6) 31 16 = 0x5EC0 ∧ fld (secWord false 6) 3 0 = 6 := by decide
  simp [exec, execTestDisable, ifCore_answers hcore, secCommand, hword, hidle, ifAllowed, hallowed]

end Commands

/-! ### The checks of each command (R851, R853, R858, R863 to R868) -/

theorem secProgram_starts {s : State} (hopen : unitProtected s.sec.otpAddr.toNat = false)
    (hblank : unitBlank s.sec.otpAddr.toNat s = true) :
    secProgram s = secStart .program s.sec.otpAddr.toNat s.sec.otpData s := by
  simp [secProgram, hopen, hblank]

theorem secProgram_protected {s : State} (hprot : unitProtected s.sec.otpAddr.toNat = true) :
    secProgram s = secResult 8 s := by
  simp only [secProgram, hprot, if_true]

theorem secProgram_used {s : State} (hopen : unitProtected s.sec.otpAddr.toNat = false)
    (hused : unitBlank s.sec.otpAddr.toNat s = false) : secProgram s = secResult 3 s := by
  simp [secProgram, hopen, hused]

theorem secLock_starts {s : State} (hopen : unitProtected s.sec.otpAddr.toNat = false)
    (hcommitted : unitCommitted s.sec.otpAddr.toNat s = true) : secLock s = secStart .lock s.sec.otpAddr.toNat 0 s := by
  simp [secLock, hopen, hcommitted]

theorem secLock_protected {s : State} (hprot : unitProtected s.sec.otpAddr.toNat = true) :
    secLock s = secResult 8 s := by
  simp only [secLock, hprot, if_true]

theorem secFlag_starts {c : SecCmd} {f : Nat} {s : State} (hblank : unitBlank (flagUnit f) s = true) :
    secFlag c f s = secStart c (flagUnit f) 1 s := by
  simp only [secFlag, hblank, if_true]

/-- REVOKE of a slot asks for a running Position that the other slot has signed. -/
theorem secRevoke_starts {k : Nat} {s : State} (hsigned : signedRunning s = true)
    (hslot : imgKeySlot (activeBank s).image = 1 - k) (hprogrammed : slotProgrammed (1 - k) s = true)
    (hblank : unitBlank (flagUnit (1 + k)) s = true) :
    secRevoke k s = secStart .revoke (flagUnit (1 + k)) 1 s := by
  simp only [secRevoke, hsigned, hslot, hprogrammed, BEq.rfl, Bool.and_self, if_true, secFlag_starts hblank]

theorem secRollback_starts {v : Nat} {s : State} (hsigned : signedRunning s = true)
    (hbelow : rollbackCount s < imgVersion (activeBank s).image) (hnext : nextCounter s = some v) :
    secRollback s = secStart .rollbackAdvance v (BitVec.ofNat 32 (imgVersion (activeBank s).image)) s := by
  simp only [secRollback, hsigned, hbelow, hnext, decide_true, Bool.and_self, if_true]

theorem secEnforce_starts {s : State} (hsigned : signedRunning s = true)
    (hprogrammed : slotProgrammed (imgKeySlot (activeBank s).image) s = true)
    (hblank : unitBlank (flagUnit 0) s = true) : secEnforce s = secStart .enforce (flagUnit 0) 1 s := by
  simp only [secEnforce, hsigned, hprogrammed, Bool.and_self, if_true, secFlag_starts hblank]

/-- The accepted test unlock wipes the region, the Positions and the outputs, and keeps OTP (R874). -/
theorem testWipe_spec {s : State} (hidle : s.sec.run = none) :
    (testWipe s).mem.shared = [] ∧ (testWipe s).sec.testMode = true ∧ (testWipe s).sec.otp = s.sec.otp ∧
      (testWipe s).pos = State.reset.pos ∧ (testWipe s).gpio = State.reset.gpio := by
  obtain ⟨⟨-, -, -, hotp, -⟩, -⟩ := cr_fields .softReset s hidle (fun h => nomatch h)
  exact ⟨rfl, rfl, hotp, rfl, rfl⟩

/-- Settles O42: each command passes the key, BUSY and R855, and then its own checks. -/
theorem otpCommandsStart : Obligations.OtpCommandsStart := by
  unfold Obligations.OtpCommandsStart
  intro s hcore hidle hallowed u starts ends signed
  refine ⟨fun hopen hblank => ?program, fun hopen hcommitted => ?lock, fun hprot => ?protect, fun hopen hused => ?used,
    fun b hsigned hblank => ?revoke, fun v hsigned hbelow hnext => ?rollback, fun hsigned hblank => ?enforce,
    fun hblank => ?testDisable, fun hbad => ?badToken, fun hgood => ?goodToken⟩
  case program =>
    exact (exec_program hcore hidle hallowed).trans (congrArg _ (secProgram_starts hopen hblank))
  case lock => exact (exec_lock hcore hidle hallowed).trans (congrArg _ (secLock_starts hopen hcommitted))
  case protect =>
    exact ⟨(exec_program hcore hidle hallowed).trans (congrArg _ (secProgram_protected hprot)),
      (exec_lock hcore hidle hallowed).trans (congrArg _ (secLock_protected hprot))⟩
  case used => exact (exec_program hcore hidle hallowed).trans (congrArg _ (secProgram_used hopen hused))
  case revoke =>
    obtain ⟨hruns, hslot, hprogrammed⟩ := hsigned
    refine (exec_revoke hcore hidle hallowed b).trans (congrArg _ ?_)
    cases b with
    | false => exact secRevoke_starts hruns hslot hprogrammed hblank
    | true => exact secRevoke_starts hruns hslot hprogrammed hblank
  case rollback =>
    exact (exec_rollbackAdvance hcore hidle hallowed).trans (congrArg _ (secRollback_starts hsigned hbelow hnext))
  case enforce =>
    obtain ⟨hruns, -, hprogrammed⟩ := hsigned
    exact (exec_enforce hcore hidle hallowed).trans (congrArg _ (secEnforce_starts hruns hprogrammed hblank))
  case testDisable =>
    exact (exec_testDisable hcore hidle hallowed).trans (congrArg _ (secFlag_starts hblank))
  case badToken =>
    refine (exec_testUnlock hcore hidle).trans (congrArg _ ?_)
    simp only [secTestUnlock, hbad, Bool.false_eq_true, if_false]
    rfl
  case goodToken =>
    refine ⟨_, (exec_testUnlock hcore hidle).trans (congrArg _ ?_), testWipe_spec hidle⟩
    simp only [secTestUnlock, hgood, if_true]

/-! ### The end of a command (R851 to R853, R973) -/

theorem exec_secCommandComplete {s : State} {r : SecRun} (out : BurnOutcome) (hrun : s.sec.run = some r)
    (hcore : coreUp s = true) : exec (.secCommandComplete out) s = .next (burnOver r out s) := by
  simp only [exec, execSecCommandComplete, hrun, hcore, if_true]

theorem setUnit_same {s : State} {u : Nat} (hI : Inv s) (hu : u < 224) (k : OtpUnit) :
    nth .blank (setUnit u k s).sec.otp u = k := by
  refine nth_upd_same _ _ _ ?_
  rw [otp_len hI]
  exact hu

theorem setUnit_other {s : State} {u v : Nat} (hv : v ≠ u) (k : OtpUnit) :
    nth .blank (setUnit u k s).sec.otp v = nth .blank s.sec.otp v :=
  nth_upd_other _ _ _ hv.symm

/-- The end of a command takes nothing of what an event left. -/
theorem reported_secEnd {c : Nat} {d : Word} {s t : State} (h : Reported .otpScarred 0 d s t) :
    Reported .otpScarred 0 d s (secEnd c t) := by
  obtain ⟨hpend, hqueue⟩ := h
  exact ⟨fun hsome => setBit_keeps 0 (hpend hsome), hqueue⟩

theorem mem_unburnedScars {s : State} {u : Nat} (hu : u < 224) : u ∈ unburnedScars s ↔
    (nth .blank s.sec.otp u).st = .scarred ∧ (nth .blank s.sec.otp u).scar = false := by
  simp only [unburnedScars, otpUnit, List.mem_filter, List.mem_range, hu, true_and, Bool.and_eq_true, beq_iff_eq,
    Bool.not_eq_true']

/-- At the first PLAY after a start SCAR is burned on every unit that lacks it (R861). -/
theorem exec_otpScarBurn {s : State} (hplay : inPlay s = true) (hfirst : s.sec.scarBurnDone = false) :
    exec .otpScarBurn s = .next
      (let burned := (unburnedScars s).foldl (fun t u => scarUnit u t) s
       { burned with sec := { burned.sec with scarBurnDone := true } }) := by
  simp only [exec, execOtpScarBurn, hplay, hfirst, Bool.not_false, Bool.and_self, if_true]

/-- Settles O43: the end of a burn sets the one unit that the command worked on, and the SCAR burn sets those that lack
SCAR. -/
theorem otpCommandsEnd : Obligations.OtpCommandsEnd := by
  unfold Obligations.OtpCommandsEnd
  intro s hI
  refine ⟨fun r hrun hcore hu => ⟨fun hprogram => ⟨?good, ?mismatch⟩, fun hlock => ?lock⟩, fun hplay hfirst => ?scars⟩
  case good =>
    have hexec := exec_secCommandComplete .good hrun hcore
    simp only [burnOver, hprogram] at hexec
    exact ⟨_, hexec, frame_sec s _, rfl, rfl, rfl, rfl, setUnit_same hI hu _, fun v hv => setUnit_other hv _⟩
  case mismatch =>
    have hexec := exec_secCommandComplete .mismatch hrun hcore
    simp only [burnOver, hprogram] at hexec
    obtain ⟨q, o, n, hraise, hreport⟩ := raiseAt_every .otpScarred 0 (BitVec.ofNat 32 r.unitAddr) (s0 := s)
      (s := setUnit r.unitAddr { st := .scarred, data := 0, scar := true } s) rfl ⟨rfl, rfl⟩
      (fun _ => setBit_self _ _ (by decide))
    rw [scarUnit, raise, hraise] at hexec
    exact ⟨_, hexec, frame_sec_evt s _ _, rfl, rfl, setUnit_same hI hu _, fun v hv => setUnit_other hv _,
      reported_secEnd hreport⟩
  case lock =>
    have hexec := exec_secCommandComplete .good hrun hcore
    simp only [burnOver, hlock] at hexec
    exact ⟨_, hexec, frame_sec s _, rfl, rfl, setUnit_same hI hu _, fun v hv => setUnit_other hv _⟩
  case scars =>
    obtain ⟨hframe, -, -, hunits⟩ := scar_fold (unburnedScars s) s (otp_len hI)
      (fun u hin => List.mem_range.1 (List.mem_filter.1 hin).1)
    refine ⟨_, exec_otpScarBurn hplay hfirst, frame_widen (frame_trans hframe (frame_sec _ _)) (by simp), rfl,
      fun u hu => (hunits u hu).trans ?_⟩
    simp only [mem_unburnedScars hu]

/-! ### Boundary scan (R871, R872, R917 to R919, R922) -/

/-- One scan of the boundary register, with an instruction that holds the core in reset: the balls follow the cells. -/
theorem boundaryScan_holds {s : State} {i : JtagInstr} (pins : List Bool) {bits : List Bool} (hruns : jtagRuns s = true)
    (hholds : jtagHolds i = true) (hdrives : i ≠ .highz) (hreset : resettable s = true) (hidle : s.sec.run = none)
    (hbits : bits ≠ []) :
    let t := boundaryScan i pins bits s
    t.jtag.instr = i ∧ t.pwr.boot = .inReset ∧
      (t.jtag.captured = capturedCells pins ∧ t.jtag.dr = (capturedCells pins ++ bits).take bits.length ∧
        t.jtag.cells = (capturedCells pins ++ bits).drop bits.length) ∧
      t.gpio = (List.range 16).map (fun n => cellDrive t.jtag.cells (202 + 3 * n)) ∧ t.mem.shared = s.mem.shared := by
  intro t
  obtain ⟨hjtag, hboot, hshared⟩ := loadInstr_hold i s hholds hreset hidle
  have hscan : t = gpioScan (scanCells pins bits (loadInstr i s)) := by
    have hselected : jtagHolds (scanCells pins bits (loadInstr i s)).jtag.instr = true := by
      simp only [scanCells, hjtag, hholds]
    have hfollow := follow_hold _ hselected hboot
    simpa [t, boundaryScan, hruns, hbits] using hfollow
  have hinstr : t.jtag.instr = i := by rw [hscan]; exact congrArg JtagBlk.instr hjtag
  refine ⟨hinstr, by rw [hscan]; exact hboot, by rw [hscan]; exact ⟨rfl, rfl, rfl⟩, ?_, by rw [hscan]; exact hshared⟩
  rw [hscan] at hinstr ⊢
  have hinstr' : (scanCells pins bits (loadInstr i s)).jtag.instr ≠ .highz := fun h => hdrives (hinstr.symm.trans h)
  simp only [gpioScan, hinstr', if_false]

/-- An instruction that selects the bypass register and holds the core: the cells stay. -/
theorem bypassScan_holds {s : State} {i : JtagInstr} (hruns : jtagRuns s = true)
    (hholds : jtagHolds i = true) (hreset : resettable s = true) (hidle : s.sec.run = none) :
    let t := bypassScan i [] s
    t.jtag.instr = i ∧ t.pwr.boot = .inReset ∧ t.jtag.cells = s.jtag.cells ∧ t.mem.shared = s.mem.shared ∧
      t.gpio = (List.range 16).map (fun n => if i = .highz then .hiZ else cellDrive t.jtag.cells (202 + 3 * n)) := by
  intro t
  obtain ⟨hjtag, hboot, hshared⟩ := loadInstr_hold i s hholds hreset hidle
  let t0 : State := { loadInstr i s with jtag := { (loadInstr i s).jtag with dr := [] } }
  have hinstr : t0.jtag.instr = i := congrArg JtagBlk.instr hjtag
  have hscan : t = gpioScan t0 := by
    have hfollow := follow_hold t0 (by rw [hinstr]; exact hholds) hboot
    simpa [t, bypassScan, hruns] using hfollow
  rw [hscan]
  have hcells : (loadInstr i s).jtag.cells = s.jtag.cells := by rw [hjtag]
  refine ⟨hinstr, hboot, hcells, hshared, ?_⟩
  simp only [gpioScan, hinstr]

section Free

variable {s : State} (hruns : jtagRuns s = true) (hfree : jtagHolds s.jtag.instr = false)
include hruns hfree

theorem exec_samplePreload (pins : List Bool) {bits : List Bool} (hbits : bits ≠ []) :
    exec (.samplePreload pins bits) s =
      .next (scanCells pins bits { s with jtag := { s.jtag with instr := .samplePreload } }) := by
  have hload := loadInstr_free .samplePreload s rfl hfree
  have hshift : bits.isEmpty = false := by simpa using hbits
  simp only [exec, execSamplePreload, boundaryScan, hruns, hload, hshift, Bool.false_eq_true, if_true, if_false]
  exact congrArg _ (follow_free _ rfl)

theorem exec_bypass (bits : List Bool) :
    exec (.bypass bits) s = .next { s with jtag := { s.jtag with
      instr := .bypass, dr := (false :: bits).take bits.length } } := by
  have hload := loadInstr_free .bypass s rfl hfree
  simp only [exec, execBypass, bypassScan, hruns, hload, if_true]
  exact congrArg _ (follow_free _ rfl)

theorem exec_idcode :
    exec .idcode s = .next { s with jtag := { s.jtag with
      instr := .idcode, dr := (List.range 32).map (fun k => idcodeWord.getLsbD k) } } := by
  have hload := loadInstr_free .idcode s rfl hfree
  simp only [exec, execIdcode, hruns, hload, if_true]

theorem exec_jtagTestLogicReset :
    exec .jtagTestLogicReset s = .next { s with jtag := { s.jtag with
      instr := .idcode, cells := JtagBlk.reset.cells } } := by
  have hload := loadInstr_free .idcode s rfl hfree
  simp only [exec, execJtagTestLogicReset, hruns, hload, if_true]

end Free

/-- Settles O44: an instruction leaves a core that runs alone, or holds it, and then the balls follow the register. -/
theorem jtagInstructions : Obligations.JtagInstructions := by
  unfold Obligations.JtagInstructions
  intro s pins bits hruns shifted drives
  refine ⟨fun hfree => ⟨fun hbits => ?sample, ?bypass, ?idcode, ?reset⟩, fun hreset hidle hbits => ?holding⟩
  case sample => exact ⟨_, exec_samplePreload hruns hfree pins hbits, frame_jtag s _, rfl, rfl, rfl, rfl⟩
  case bypass => exact ⟨_, exec_bypass hruns hfree bits, frame_jtag s _, rfl, rfl, rfl⟩
  case idcode => exact ⟨_, exec_idcode hruns hfree, frame_jtag s _, rfl, rfl⟩
  case reset => exact ⟨_, exec_jtagTestLogicReset hruns hfree, frame_jtag s _, rfl, rfl⟩
  case holding =>
    have scans (i : JtagInstr) (hholds : jtagHolds i = true) (hdrives : i ≠ .highz) :=
      boundaryScan_holds pins hruns hholds hdrives hreset hidle hbits
    have bypasses (i : JtagInstr) (hholds : jtagHolds i = true) := bypassScan_holds hruns hholds hreset hidle
    obtain ⟨hclamp, hclampBoot, hclampCells, hclampShared, hclampBalls⟩ := bypasses .clamp rfl
    obtain ⟨hhighz, hhighzBoot, hhighzCells, hhighzShared, hhighzBalls⟩ := bypasses .highz rfl
    exact ⟨⟨_, rfl, scans .extest rfl (by decide)⟩, ⟨_, rfl, scans .extestPulse rfl (by decide)⟩,
      ⟨_, rfl, scans .extestTrain rfl (by decide)⟩,
      ⟨_, rfl, hclamp, hclampBoot, hclampCells, hclampBalls, hclampShared⟩,
      ⟨_, rfl, hhighz, hhighzBoot, hhighzCells, hhighzBalls, hhighzShared⟩⟩

end Sys2Proof.Proofs.Security
end
